-- ==== Sys2Proof/Word.lean ====
section
/-! DEFINITION. The word types of the spec (R7, R8) and nothing else. -/

namespace Sys2Proof

/-- One byte of memory. -/
abbrev Byte := BitVec 8

/-- A 64-bit register value, bank word or completion word (R8). -/
abbrev Word := BitVec 64

/-- A 48-bit virtual address or program counter (R75, R123). -/
abbrev VAddr := BitVec 48

/-- A 128-byte line of the LLS, the data cache or the host (R8). -/
abbrev Line := BitVec 1024

/-- The four sticky flags, NV in bit 3, DZ in 2, OF in 1, UF in 0 (R36, R89). -/
abbrev Flags := BitVec 4

/-- A cause code of R220. -/
abbrev Cause := BitVec 8

end Sys2Proof
end

