-- ==== Sys2Proof/Syntax.lean ====
section
/-! DEFINITION. The steps of the module (spec/opcode_table.json): 142 sequencer words (R256 to R264),
64 fabric rows (R265 to R271) and 78 events of its engines, tables, ports and firmware. One constructor a row. -/

namespace Sys2Proof

/-- A sequencer guard (R257): N in bit 25, the predicate in [24:22]. -/
structure Guard where
  neg : Bool
  idx : Fin 8
deriving DecidableEq, Repr

/-- A general register g0 to g31 (R71). -/
abbrev Reg := Fin 32

/-- A predicate p0 to p7 (R71). -/
abbrev Pred := Fin 8

/-- Width selector of the scalar floating-point operations (R261): fn[6]. -/
inductive FpFmt | f32 | bf16
deriving DecidableEq, Repr

/-- Conditions of CMP (R284), in the order of their codes 0 to 9. -/
inductive CmpCond | eq | ne | lt | ge | le | gt | ltn | gen | len | gtn
deriving DecidableEq, Repr

/-- Conditions of FCMP (R288), in the order of fn 0x10 to 0x16. -/
inductive FcmpCond | eq | ne | lt | le | gt | ge | un
deriving DecidableEq, Repr

/-- Conditions of WAITA (R308). -/
inductive WaitaCond | eq | ne | gen | done
deriving DecidableEq, Repr

/-- Scalar type codes of FCVT (R289). -/
inductive ScalarType | bf16 | fp16 | e4m3 | e5m2 | fp32 | i32 | i64 | n32 | n64
deriving DecidableEq, Repr

/-- Operands of the INT operations with a `.W` form and two sources (R279). -/
structure IntArgs where
  g : Guard
  d : Reg
  a : Reg
  b : Reg
  w : Bool
deriving DecidableEq, Repr

/-- Operands of three-register operations without a `.W` form (R279). -/
structure RegArgs where
  g : Guard
  d : Reg
  a : Reg
  b : Reg
deriving DecidableEq, Repr

/-- Operands of CLZ, CTZ, POPC, BSWAP (R279). -/
structure UnaryArgs where
  g : Guard
  d : Reg
  a : Reg
  w : Bool
deriving DecidableEq, Repr

/-- Operands of SEXT and ZEXT; `width` is the literal b field, 0 to 2 (R279). -/
structure ExtArgs where
  g : Guard
  d : Reg
  a : Reg
  width : Fin 32
deriving DecidableEq, Repr

/-- Operands of SEL (R279). -/
structure SelArgs where
  g : Guard
  d : Reg
  a : Reg
  b : Reg
  k : Pred
deriving DecidableEq, Repr

/-- Operands of CMP (R284). -/
structure CmpArgs where
  g : Guard
  p : Pred
  a : Reg
  b : Reg
  w : Bool
  cc : CmpCond
deriving DecidableEq, Repr

/-- Operands of PAND, POR, PXOR (R286). -/
structure PredArgs where
  g : Guard
  d : Pred
  a : Pred
  b : Pred
deriving DecidableEq, Repr

/-- Operands of PNOT (R286). -/
structure PnotArgs where
  g : Guard
  d : Pred
  a : Pred
deriving DecidableEq, Repr

/-- Operands of FADD to FMAX (R287). -/
structure FpArgs where
  g : Guard
  d : Reg
  a : Reg
  b : Reg
  t : FpFmt
deriving DecidableEq, Repr

/-- Operands of FCMP (R288). -/
structure FcmpArgs where
  g : Guard
  p : Pred
  a : Reg
  b : Reg
  t : FpFmt
  cc : FcmpCond
deriving DecidableEq, Repr

/-- Operands of FCVT (R289). -/
structure FcvtArgs where
  g : Guard
  d : Reg
  a : Reg
  src : ScalarType
  dst : ScalarType
  ns : Bool
deriving DecidableEq, Repr

/-- One source register (JMP, TRACE). -/
structure SrcArgs where
  g : Guard
  a : Reg
deriving DecidableEq, Repr

/-- Two source registers (INVT, VSET, LAUNCH_PH without the slot, QPUSH, PH_WAIT). -/
structure Src2Args where
  g : Guard
  a : Reg
  b : Reg
deriving DecidableEq, Repr

/-- A destination and one source (PH_AW, PH_QRY, QROOM). -/
structure DestSrcArgs where
  g : Guard
  d : Reg
  b : Reg
deriving DecidableEq, Repr

/-- A loop level (LBRK, R298) or a region slot (R319). -/
structure LevelArgs where
  g : Guard
  k : Fin 4
deriving DecidableEq, Repr

/-- Form I with a signed 12-bit immediate (R281). -/
structure ImmArgs where
  g : Guard
  d : Reg
  a : Reg
  imm : BitVec 12
deriving DecidableEq, Repr

/-- SHLI, SHRI, SARI (R282). -/
structure ShiArgs where
  g : Guard
  d : Reg
  a : Reg
  w : Bool
  count : Fin 64
deriving DecidableEq, Repr

/-- CMPI0 and CMPI1 (R285): `cc` is d[4:3]. -/
structure CmpiArgs where
  g : Guard
  p : Pred
  cc : Fin 4
  a : Reg
  imm : BitVec 12
deriving DecidableEq, Repr

/-- LOOP (R295): `last` is imm12, the word offset of the body's last word. -/
structure LoopArgs where
  g : Guard
  d : Reg
  k : Fin 4
  last : BitVec 12
deriving DecidableEq, Repr

/-- Form L (R283, R340). -/
structure LongArgs where
  g : Guard
  d : Reg
  imm : BitVec 17
deriving DecidableEq, Repr

/-- TRAP and BKPT: the unsigned code (R340). -/
structure CodeArgs where
  g : Guard
  code : BitVec 17
deriving DecidableEq, Repr

/-- CRD and CWR: the register and the control-register number of R77. -/
structure CtlArgs where
  g : Guard
  r : Reg
  n : BitVec 12
deriving DecidableEq, Repr

/-- TIME and TIME.SET: the register and the selector of R241. -/
structure TimeArgs where
  g : Guard
  r : Reg
  sel : BitVec 6
deriving DecidableEq, Repr

/-- Form B (R292). -/
structure BranchArgs where
  g : Guard
  off : BitVec 22
deriving DecidableEq, Repr

/-- Form M of LDS and STS: `size` is the SIZE code 0 to 3 (R303). -/
structure SpadArgs where
  g : Guard
  r : Reg
  base : Reg
  size : Fin 4
  imm : BitVec 9
deriving DecidableEq, Repr

/-- Form M of LDG and STG: `order` is an order code of R263, 0 to 5. -/
structure GlobArgs where
  g : Guard
  r : Reg
  base : Reg
  order : BitVec 3
  imm : BitVec 9
deriving DecidableEq, Repr

/-- SIG (R307). -/
structure SigArgs where
  g : Guard
  s : Reg
  base : Reg
  imm : BitVec 9
deriving DecidableEq, Repr

/-- PREF, CLN, INV (R309). -/
structure MaintArgs where
  g : Guard
  base : Reg
  imm : BitVec 9
deriving DecidableEq, Repr

/-- STR (R306): `n1` is the number of data words less one. -/
structure StrArgs where
  g : Guard
  a : Reg
  b : Reg
  c : Reg
  n1 : Fin 8
deriving DecidableEq, Repr

/-- WAITA (R308). -/
structure WaitaArgs where
  g : Guard
  a : Reg
  b : Reg
  c : Reg
  cond : WaitaCond
deriving DecidableEq, Repr

/-- MWC (R312): `n1` is the number of words less one. -/
structure MwcArgs where
  g : Guard
  a : Reg
  gb : Reg
  order : BitVec 3
  n1 : Fin 4
deriving DecidableEq, Repr

/-- AMO and CAS (R310): `scope` is an order code, 1 to 5. -/
structure AmoArgs where
  g : Guard
  d : Reg
  a : Reg
  b : Reg
  scope : BitVec 3
deriving DecidableEq, Repr

/-- FENCE (R313). -/
structure FenceArgs where
  g : Guard
  scope : BitVec 3
deriving DecidableEq, Repr

/-- PH.REG and PH.DROP (R314): mode 0 signal-only, 1 wait-only, 2 signal-and-wait. -/
structure PhModeArgs where
  g : Guard
  b : Reg
  mode : Fin 4
deriving DecidableEq, Repr

/-- CFG (R319): the image address register and the PE set literal. -/
structure CfgArgs where
  g : Guard
  a : Reg
  peset : BitVec 4
  k : Fin 4
deriving DecidableEq, Repr

/-- LAUNCH, CSET.TEN: one source and a region slot (R319). -/
structure SlotSrcArgs where
  g : Guard
  a : Reg
  k : Fin 4
deriving DecidableEq, Repr

/-- LAUNCH.PH, VGET, VSET: two registers and a region slot (R319). -/
structure SlotSrc2Args where
  g : Guard
  a : Reg
  b : Reg
  k : Fin 4
deriving DecidableEq, Repr

/-- ACSET (R319). -/
structure AcsetArgs where
  g : Guard
  a : Reg
  b : Reg
  n : Fin 4
  pe : Fin 4
  k : Fin 4
deriving DecidableEq, Repr

/-- CSET.SEED (R319). -/
structure SeedArgs where
  g : Guard
  a : Reg
  pe : Fin 4
  k : Fin 4
deriving DecidableEq, Repr

/-- Three registers of form E (QPOP, LK.WAIT). -/
structure Reg3Args where
  g : Guard
  a : Reg
  b : Reg
  c : Reg
deriving DecidableEq, Repr

/-- NB arithmetic (R331): descriptor register and element type. -/
structure NbArgs where
  g : Guard
  a : Reg
  t : FpFmt
deriving DecidableEq, Repr

/-- LK.ARED (R335). -/
structure AredArgs where
  g : Guard
  a : Reg
  c : Reg
  t : FpFmt
deriving DecidableEq, Repr

/-- The fields of a fabric row other than its opcode (R265). -/
structure Row where
  stage : BitVec 7
  slot : BitVec 5
  dest : BitVec 7
  srcA : BitVec 8
  srcB : BitVec 8
  srcC : BitVec 8
  mod : BitVec 4
  guard : BitVec 3
  aux : BitVec 6
deriving DecidableEq, Repr

/-- A message at a link port (R207, R336, R337): `kind` 0 for SEND, 2 for an ARED step, whose number is `tag`. -/
structure LinkMsg where
  kind : Nat
  group : BitVec 16
  round : BitVec 32
  tag : BitVec 16
  dcell : BitVec 15
  data : List Byte
deriving DecidableEq, Repr

/-- The bytes of a host write, with CXL's poison indication (R212). -/
structure HostBytes where
  bytes : List Byte
  poison : Bool := false
deriving DecidableEq, Repr

/-- The line that the host gives back, with CXL's poison indication (R131, R212). -/
structure HostGives where
  line : Line
  poison : Bool := false
deriving DecidableEq, Repr

/-- Where a flit comes in, and its FSEQ; for a message, those of its first flit (R205, R206). -/
structure FlitPlace where
  port : Fin 32
  fseq : BitVec 16
deriving DecidableEq, Repr

/-- The 256 bytes that come in at a port (R205). -/
structure FlitBytes where
  port : Fin 32
  bytes : List Byte
deriving DecidableEq, Repr

/-- How one training attempt of a Gensel Link port ended: the lanes that passed and the partner's digest (R253). -/
structure TrainResult where
  lanes : Fin 5
  digest : BitVec 32
deriving DecidableEq, Repr

/-- How a CXL host port trained (R212, R252). -/
structure CxlResult where
  up : Bool
  flit256 : Bool
  rate : BitVec 4
  width : BitVec 8
deriving DecidableEq, Repr

/-- An image that the boot ROM checks (R250): its bytes, its security version and its LMS signature. -/
structure BootImage where
  bytes : List Byte
  version : BitVec 16
  signature : List Byte
deriving DecidableEq, Repr

/-- What power-on finds (R249 to R251): the two images and the version floor that the configuration image records, whether
the PUF's secret is reconstructed, the stacks that train, how the host ports train, USABLE of each die, and whether the
firmware starts. -/
structure PowerOnResult where
  cfg : BootImage
  fw : BootImage
  floor : BitVec 16
  puf : Bool
  stk : BitVec 16
  cxl0 : CxlResult
  cxl1 : CxlResult
  usable : List (BitVec 1600)
  starts : Bool
deriving DecidableEq, Repr

/-- Registers and table fields written outside any step with a row of its own (R11, REGISTER_WRITE). -/
inductive RegTarget
  | mbreq (vf : Fin 64) (k : Fin 3)
  | tqbase (vf : Fin 64) | tqcfg (vf : Fin 64)
  | elbase | elcfg | elhead
  | attn (k : Fin 4) | attaddr | attgo
  | window (vf : Fin 64) | blockmask (vf : Fin 64) (k : Fin 4)
  | trcsize (vf : Fin 64) | trcbase (vf : Fin 64)
  | asidbase (vf : Fin 64) | asidcnt (vf : Fin 64)
  | wqbase (vf : Fin 64) | wqcnt (vf : Fin 64)
  | phbase (vf : Fin 64) | phcnt (vf : Fin 64)
  | ybudget (vf : Fin 64) | bypassLimit (vf : Fin 64)
  | tracefn (vf : Fin 64) | testm (vf : Fin 64) | enable (vf : Fin 64)
  | asid (asid : BitVec 16)
  | phaser (phid : BitVec 16) (k : Fin 4)
  | workqCreate (wq : BitVec 12) (m : Fin 17)
  | workqDestroy (wq : BitVec 12)
  | migEntry (n : Fin 1024) (k : Fin 4)
  | savearea (vf : Fin 64) (q : BitVec 8)
  | fwqCreate (q : BitVec 8) (prio : Fin 8) (asid : BitVec 16) (ringofs : BitVec 9) (ringlog : Fin 10)
  | scrubRate
deriving DecidableEq, Repr

inductive Instr
  -- INT (R279)
  | add (x : IntArgs) | sub (x : IntArgs) | mul (x : IntArgs) | mulh (x : IntArgs) | mulhn (x : IntArgs)
  | div (x : IntArgs) | divn (x : IntArgs) | rem (x : IntArgs) | remn (x : IntArgs)
  | min (x : IntArgs) | max (x : IntArgs) | minn (x : IntArgs) | maxn (x : IntArgs)
  | and (x : RegArgs) | or (x : RegArgs) | xor (x : RegArgs) | andn (x : RegArgs)
  | shl (x : IntArgs) | shr (x : IntArgs) | sar (x : IntArgs) | rot (x : IntArgs)
  | clz (x : UnaryArgs) | ctz (x : UnaryArgs) | popc (x : UnaryArgs) | bswap (x : UnaryArgs)
  | sext (x : ExtArgs) | zext (x : ExtArgs) | sel (x : SelArgs)
  | cmp (x : CmpArgs)
  | pand (x : PredArgs) | por (x : PredArgs) | pxor (x : PredArgs) | pnot (x : PnotArgs)
  -- scalar floating point (R287 to R289)
  | fadd (x : FpArgs) | fsub (x : FpArgs) | fmul (x : FpArgs) | fma (x : FpArgs)
  | fmin (x : FpArgs) | fmax (x : FpArgs) | fcmp (x : FcmpArgs) | fcvt (x : FcvtArgs)
  -- control and system (R293, R294, R298, R341 to R346)
  | nop (g : Guard) | halt (g : Guard) | jmp (x : SrcArgs) | ret (g : Guard) | lbrk (x : LevelArgs)
  | yield (g : Guard) | tret (g : Guard) | trace (x : SrcArgs) | invt (x : Src2Args)
  -- immediates (R281 to R285), loops, traps, control registers, counters
  | addi (x : ImmArgs) | andi (x : ImmArgs) | ori (x : ImmArgs) | xori (x : ImmArgs)
  | shli (x : ShiArgs) | shri (x : ShiArgs) | sari (x : ShiArgs)
  | cmpi0 (x : CmpiArgs) | cmpi1 (x : CmpiArgs) | loop (x : LoopArgs)
  | limm (x : LongArgs) | lhi (x : LongArgs) | trap (x : CodeArgs) | bkpt (x : CodeArgs)
  | crd (x : CtlArgs) | cwr (x : CtlArgs) | time (x : TimeArgs) | timeSet (x : TimeArgs)
  | br (x : BranchArgs) | call (x : BranchArgs)
  -- memory (R303 to R312)
  | lds (x : SpadArgs) | sts (x : SpadArgs) | sig (x : SigArgs)
  | pref (x : MaintArgs) | cln (x : MaintArgs) | inv (x : MaintArgs)
  | str (x : StrArgs) | waita (x : WaitaArgs) | mwc (x : MwcArgs)
  | ldg8 (x : GlobArgs) | ldg16 (x : GlobArgs) | ldg32 (x : GlobArgs) | ldg64 (x : GlobArgs)
  | stg8 (x : GlobArgs) | stg16 (x : GlobArgs) | stg32 (x : GlobArgs) | stg64 (x : GlobArgs)
  | amoAdd (x : AmoArgs) | amoFadd (x : AmoArgs) | amoMin (x : AmoArgs) | amoMax (x : AmoArgs)
  | amoMinn (x : AmoArgs) | amoMaxn (x : AmoArgs) | amoAnd (x : AmoArgs) | amoOr (x : AmoArgs)
  | amoXor (x : AmoArgs) | amoSwap (x : AmoArgs) | cas (x : AmoArgs)
  | fenceAcq (x : FenceArgs) | fenceRel (x : FenceArgs) | fenceFull (x : FenceArgs)
  -- phasers (R314, R315)
  | phReg (x : PhModeArgs) | phDrop (x : PhModeArgs) | phArr (x : SrcArgs)
  | phWait (x : Src2Args) | phAw (x : DestSrcArgs) | phQry (x : DestSrcArgs)
  -- fabric control (R319)
  | cfg (x : CfgArgs) | launch (x : SlotSrcArgs) | launchPh (x : SlotSrc2Args) | lwait (x : SlotSrcArgs)
  | lstop (x : LevelArgs) | acset (x : AcsetArgs) | csetSeed (x : SeedArgs) | csetTen (x : SlotSrcArgs)
  | csetClr (x : LevelArgs) | vget (x : SlotSrc2Args) | vset (x : SlotSrc2Args)
  -- engines (R327 to R339)
  | cpIn (x : SrcArgs) | cpOut (x : SrcArgs) | cpXfr (x : SrcArgs) | cpFill (x : SrcArgs) | cpGath (x : SrcArgs)
  | cpQry (x : SrcArgs)
  | nbZero (x : SrcArgs) | nbCopy (x : SrcArgs) | nbRcopy (x : SrcArgs)
  | nbAxpy (x : NbArgs) | nbAdd (x : NbArgs) | nbMul (x : NbArgs) | nbScale (x : NbArgs)
  | nbSum (x : NbArgs) | nbDot (x : NbArgs) | nbFence (g : Guard)
  | qpush (x : Src2Args) | qpop (x : Reg3Args) | qroom (x : DestSrcArgs)
  | lkSend (x : SrcArgs) | lkRecv (x : SrcArgs) | lkAred (x : AredArgs) | lkWait (x : Reg3Args) | lkAbort (x : SrcArgs)
  -- fabric rows (R351 to R365)
  | rowAdd (r : Row) | rowSub (r : Row) | rowMul (r : Row) | rowMulh (r : Row) | rowAdds (r : Row) | rowSubs (r : Row)
  | rowAnd (r : Row) | rowOr (r : Row) | rowXor (r : Row) | rowAndn (r : Row)
  | rowShl (r : Row) | rowShr (r : Row) | rowSar (r : Row) | rowMin (r : Row) | rowMax (r : Row) | rowAbs (r : Row)
  | rowCmp (r : Row) | rowSel (r : Row) | rowMov (r : Row) | rowPerm (r : Row) | rowPack (r : Row) | rowUnpk (r : Row)
  | rowPopc (r : Row) | rowClz (r : Row) | rowPand (r : Row) | rowPor (r : Row) | rowPnot (r : Row)
  | rowFadd (r : Row) | rowFsub (r : Row) | rowFmul (r : Row) | rowFma (r : Row) | rowFms (r : Row)
  | rowFmin (r : Row) | rowFmax (r : Row) | rowFabs (r : Row) | rowFcmp (r : Row) | rowFcvt (r : Row)
  | rowFsum (r : Row) | rowFmaxh (r : Row) | rowFrcp (r : Row) | rowFrsq (r : Row) | rowFexp2 (r : Row) | rowFlog2 (r : Row)
  | rowLut (r : Row) | rowLuts (r : Row) | rowLutc (r : Row) | rowConst (r : Row) | rowShfl (r : Row) | rowIdx (r : Row)
  -- fabric rows (R368 to R386)
  | rowLd (r : Row) | rowSt (r : Row) | rowLdx (r : Row) | rowStx (r : Row) | rowLdb (r : Row)
  | rowWld (r : Row) | rowWsw (r : Row) | rowDot (r : Row) | rowDots (r : Row)
  | rowAcrd (r : Row) | rowAcz (r : Row) | rowAcadd (r : Row) | rowQnt (r : Row)
  -- events the module brings about by itself
  | regionCycle (c : Nat) | rowResultLanding (c : Nat) | regionCompletion (c : Nat) (k : Fin 4)
  | operandLogLanding (c : Nat) | sequencerBankGrant (c : Nat) | memoryResponse (c : Nat) | waitWake (c : Nat)
  | icacheFill (c : Nat) | secdedWriteback (c : Nat)
  | signalStoreArrival (src dst : Nat) | sigArrival (src dst : Nat) | copyChunk (c : Nat)
  | writeQueueAccept (id : Nat) | sliceAtomic (id : Nat) | sliceRead (id : Nat)
  | llsFill (line : Nat) | llsEviction (line : Nat)
  | hostRecallTimeout (line : Nat) | pageWalk (id : Nat) | shootdownComplete (n : Nat)
  | pullOnFirstTouch (id : Nat) | tqrespResume (vf : Fin 64) (seq : BitVec 32)
  | nbDispatch (id : Nat) | perBankCommand (stack chan bank : Nat) | nbCompletion (id : Nat) | lkTimeout (c : Nat)
  | lineMonitorParse (vf : Fin 64) (q : BitVec 8) | recordReady (vf : Fin 64) (q : BitVec 8)
  | recordCompletion (vf : Fin 64) (q : BitVec 8) (slot : Nat)
  | forcedPreemption (c : Nat) | frameCollection (c : Nat) | timerRelease (n : Nat)
  | queueTagDrain (vf : Fin 64) (q : Option (BitVec 8)) | tracePacketWrite (d : Fin 16)
  | powerOn (r : PowerOnResult)
  | hostCxlRead (line : Nat) (own : Bool) | hostCxlWrite (addr : Nat) (data : HostBytes)
  | hostRecallResponse (line : Nat) (data : Option HostGives)
  | dieFenced (d : Fin 16)
  | skinkScrub | anolePass | placement | journalServe
  -- starts of launch records
  | kernel (vf : Fin 64) (q : BitVec 8) | work (vf : Fin 64) (q : BitVec 8)
  | timerArm (vf : Fin 64) (q : BitVec 8) | timerCancel (vf : Fin 64) (q : BitVec 8)
  | phaserArrive (vf : Fin 64) (q : BitVec 8) | phaserDrop (vf : Fin 64) (q : BitVec 8)
  | wait (vf : Fin 64) (q : BitVec 8) | fence (vf : Fin 64) (q : BitVec 8) | pad (vf : Fin 64) (q : BitVec 8)
  -- events of the host, the links, firmware and the clocks
  | unassignedOpcode (w : BitVec 32)
  | shootdown (asid : BitVec 16) (range : Option (Nat × Nat))
  | linkMessageArrival (port : FlitPlace) (m : LinkMsg) | linkRetry (port : Fin 32) (lastGood : BitVec 16)
  | abortFlitArrival (port : FlitPlace) (group : BitVec 16) (round : BitVec 32)
  | portTrainingAttempt (port : Fin 32) (r : TrainResult) | cxlPortTraining (k : Fin 2) (r : CxlResult)
  | create (vf : Fin 64) | destroy (vf : Fin 64) | reset (vf : Fin 64) | flr (vf : Fin 64) | cxlIoFlr (vf : Fin 64)
  | mbstatWrite (vf : Fin 64)
  | tqheadWrite (vf : Fin 64) (v : BitVec 32) | backgroundFill (n : Fin 1024)
  | tqrespFail (vf : Fin 64) (seq : BitVec 32) | functionDisable (vf : Fin 64)
  | dieFence (d : Fin 16) | dieReset (d : Fin 16) (usable : BitVec 1600)
  | attgoWrite | govstatRead | clockChange (mhz : Nat)
  | registerWrite (t : RegTarget) (v : Word)
  | badFlit (port : FlitBytes) | failedReplay (port : Fin 32)
  | creditAndAcknowledgement (port : Fin 32) (ackseq : BitVec 16) (credits : BitVec 16)
  | unknownCodeRequest (vf : Fin 64) | firmwareRestart
deriving DecidableEq, Repr

end Sys2Proof
end

