-- ==== Sys2Proof/WellFormed.lean ====
section
/-! DEFINITION. Which instructions the encodings allow: the limits of R257, R260 to R264 and of each description
that the types of Syntax.lean leave open. A word that breaks one raises ILL_OPERAND (R258). -/

namespace Sys2Proof

/-- R257: the guard (!p0) is reserved. -/
def Guard.wf (g : Guard) : Bool := !(g.neg && g.idx.val == 0)

/-- R77, R78: the assigned control-register numbers. -/
def ctlAssigned (n : BitVec 12) : Bool :=
  n.toNat ≤ 0x008 || (0x010 ≤ n.toNat && n.toNat ≤ 0x019) || (0x01c ≤ n.toNat && n.toNat ≤ 0x021)

/-- R241: the assigned counter selectors. -/
def timeAssigned (n : BitVec 6) : Bool :=
  n.toNat == 0x00 || n.toNat == 0x01 || (0x04 ≤ n.toNat && n.toNat ≤ 0x07) || (0x10 ≤ n.toNat && n.toNat ≤ 0x23)

/-- R241: the selectors TIME.SET accepts or answers with PRIV. -/
def timeSettable (n : BitVec 6) : Bool := 0x10 ≤ n.toNat && n.toNat ≤ 0x23

/-- R263: an order code of a load or store. -/
def orderWf (o : BitVec 3) : Bool := o.toNat ≤ 5

/-- R263: an order code of AMO, CAS, MWC or FENCE. -/
def scopeWf (o : BitVec 3) : Bool := 1 ≤ o.toNat && o.toNat ≤ 5

/-- R59, R289: NS is allowed only for the targets that R59 names. -/
def ScalarType.nsOk : ScalarType → Bool
  | .bf16 | .fp16 | .e5m2 => true
  | _ => false

/-- R266: a destination code is assigned. -/
def destAssigned (d : BitVec 7) : Bool := d.toNat ≤ 73 || d.toNat == 127

/-- R267: a source code is assigned. -/
def srcAssigned (s : BitVec 8) : Bool := s.toNat ≤ 0x4b || 0x80 ≤ s.toNat

/-- R267: a source code that names a value, not a memory operand. -/
def srcValue (s : BitVec 8) : Bool := srcAssigned s && !(0x44 ≤ s.toNat && s.toNat ≤ 0x47)

/-- R267: a memory operand through an address counter. -/
def srcMem (s : BitVec 8) : Bool := 0x44 ≤ s.toNat && s.toNat ≤ 0x47

/-- R267: what a source field that the row does not read holds. -/
def srcNone (s : BitVec 8) : Bool := s.toNat == 0x4b

/-- R279 to R346: the limits of a sequencer instruction; rows and events are always well formed here. -/
def Instr.seqWf : Instr → Bool
  | .add x | .sub x | .mul x | .mulh x | .mulhn x | .div x | .divn x | .rem x | .remn x
  | .min x | .max x | .minn x | .maxn x | .shl x | .shr x | .sar x | .rot x => x.g.wf
  | .and x | .or x | .xor x | .andn x => x.g.wf
  | .clz x | .ctz x | .popc x | .bswap x => x.g.wf
  | .sext x | .zext x => x.g.wf && x.width.val ≤ 2
  | .sel x => x.g.wf
  | .cmp x => x.g.wf
  | .pand x | .por x | .pxor x => x.g.wf
  | .pnot x => x.g.wf
  | .fadd x | .fsub x | .fmul x | .fma x | .fmin x | .fmax x => x.g.wf
  | .fcmp x => x.g.wf
  | .fcvt x => x.g.wf && (!x.ns || x.dst.nsOk)
  | .nop g | .halt g | .ret g | .yield g | .tret g | .nbFence g => g.wf
  | .jmp x | .trace x | .phArr x | .cpIn x | .cpOut x | .cpXfr x | .cpFill x | .cpGath x | .cpQry x
  | .nbZero x | .nbCopy x | .nbRcopy x | .lkSend x | .lkRecv x | .lkAbort x => x.g.wf
  | .lbrk x | .lstop x | .csetClr x => x.g.wf
  | .invt x | .phWait x | .qpush x => x.g.wf
  | .addi x | .andi x | .ori x | .xori x => x.g.wf
  | .shli x | .shri x | .sari x => x.g.wf && (!x.w || x.count.val < 32)
  | .cmpi0 x | .cmpi1 x => x.g.wf && x.cc.val < 4
  | .loop x => x.g.wf && (2 ≤ x.last.toNat && x.last.toNat ≤ 2047)
  | .limm x => x.g.wf
  | .lhi x => x.g.wf && x.imm.toNat < 65536
  | .trap x | .bkpt x => x.g.wf
  | .crd x | .cwr x => x.g.wf && ctlAssigned x.n
  | .time x => x.g.wf && timeAssigned x.sel
  | .timeSet x => x.g.wf && timeSettable x.sel
  | .br x | .call x => x.g.wf
  | .lds x | .sts x => x.g.wf
  | .sig x => x.g.wf
  | .pref x | .cln x | .inv x => x.g.wf
  | .str x => x.g.wf
  | .waita x => x.g.wf
  | .mwc x => x.g.wf && scopeWf x.order && x.gb.val + x.n1.val ≤ 31
  | .ldg8 x | .ldg16 x | .ldg32 x | .ldg64 x | .stg8 x | .stg16 x | .stg32 x | .stg64 x => x.g.wf && orderWf x.order
  | .amoAdd x | .amoFadd x | .amoMin x | .amoMax x | .amoMinn x | .amoMaxn x | .amoAnd x | .amoOr x
  | .amoXor x | .amoSwap x | .cas x => x.g.wf && scopeWf x.scope
  | .fenceAcq x | .fenceRel x | .fenceFull x => x.g.wf && scopeWf x.scope
  | .phReg x | .phDrop x => x.g.wf && x.mode.val < 3
  | .phAw x | .phQry x | .qroom x => x.g.wf
  | .cfg x => x.g.wf
  | .launch x | .lwait x | .csetTen x => x.g.wf
  | .launchPh x | .vget x | .vset x => x.g.wf
  | .acset x => x.g.wf
  | .csetSeed x => x.g.wf
  | .nbAxpy x | .nbAdd x | .nbMul x | .nbScale x | .nbSum x | .nbDot x => x.g.wf
  | .qpop x | .lkWait x => x.g.wf
  | .lkAred x => x.g.wf
  | _ => true

/-- R268, R352 to R386: whether the row of an opcode reads source A, B, C for data. -/
def rowReads (code : Nat) : Bool × Bool × Bool :=
  if code ≤ 0x0f || code == 0x11 || code == 0x15 then (true, true, false)
  else if code == 0x12 || code == 0x14 then (true, true, true)
  else if code ≤ 0x18 then (true, false, false)
  else if code == 0x1c || code == 0x1d then (true, true, false)
  else if code == 0x1e then (true, false, false)
  else if code == 0x23 || code == 0x24 then (true, true, true)
  else if (0x20 ≤ code && code ≤ 0x26) || code == 0x28 then (true, true, false)
  else if 0x20 ≤ code && code ≤ 0x2f then (true, false, false)
  else if code == 0x30 || code == 0x31 || code == 0x35 then (true, true, false)
  else if code == 0x36 then (true, false, false)
  else if code == 0x43 then (true, true, true)
  else if code == 0x41 || code == 0x42 || code == 0x4b then (true, true, false)
  else if code == 0x40 || code == 0x44 || code == 0x48 || code == 0x4a || code == 0x4e || code == 0x4f then
    (true, false, false)
  else (false, false, false)

/-- R35: the rows that honour a guard: ST, STX, WLD, DOT, DOTS, ACZ, ACADD. -/
def rowGuarded (code : Nat) : Bool :=
  code == 0x41 || code == 0x43 || code == 0x48 || code == 0x4a || code == 0x4b || code == 0x4d || code == 0x4e

/-- R369: the rows whose source A is a memory operand. -/
def rowMemOnly (code : Nat) : Bool := (0x40 ≤ code && code ≤ 0x44) || code == 0x48

/-- R360: element width of an FCVT format code. -/
def cvtWidth (f : Nat) : Nat := if f ≤ 1 then 16 else if f == 0xb then 32 else 8

/-- R360: the format codes of FCVT. -/
def cvtFormat (f : Nat) : Bool := f ≤ 3 || f == 0x9 || f == 0xb

/-- R266: the destination class of a row. -/
def rowDestOk (code : Nat) (d : Nat) : Bool :=
  if code == 0x4a || code == 0x4b || code == 0x4d || code == 0x4e then 64 ≤ d && d ≤ 71
  else if code == 0x48 then d == 72 || d == 73
  else if code == 0x41 || code == 0x43 || code == 0x49 then d == 127
  else d ≤ 63 || d == 127

/-- R269, R270, R348 to R369: the values that MOD and AUX (and FCVT's literal SRCB) may hold. -/
def rowModAuxOk (code : Nat) (r : Row) : Bool :=
  let m := r.mod.toNat
  let x := r.aux.toNat
  if code ≤ 0x18 then
    m < 8 && !((code == 0x15 || code == 0x16) && m % 4 == 3) &&
      (if code == 0x11 then x % 16 ≤ 7 && x / 16 ≤ 2 else if code == 0x16 then x ≤ 1 else x == 0)
  else if code ≤ 0x1e then m == 0 && x == 0
  else if code == 0x29 then
    let l := r.srcB.toNat
    cvtFormat m && cvtFormat (l % 16) && l / 64 == 0 && x ≤ 4 &&
      (l / 16 % 2 == 0 || m == 0 || m == 1 || m == 3) &&
      (l / 32 % 2 == 0 || cvtWidth m != cvtWidth (l % 16))
  else if code ≤ 0x2f then (m == 0 || m == 1 || m == 0xb) && x ≤ 4
  else if code ≤ 0x32 then m == 0 && x ≤ 3
  else if code == 0x34 || code == 0x36 then m == 0
  else if code == 0x35 then m == 0 && x ≤ 7
  else if code ≤ 0x44 then m ≤ 3
  else if code == 0x48 then m == 0
  else if code == 0x49 then m == 0 && x == 0
  else if code == 0x4a then (m ≤ 3 || m == 9) && x == 0
  else if code == 0x4b then ((4 ≤ m && m ≤ 8) || m == 0xa) && x ≤ 1 && (x == 0 || m ≤ 7)
  else if code == 0x4c then m == 0 && x ≤ 31
  else if code == 0x4d then m ≤ 1 && x == 0
  else if code == 0x4e then m == 0 && x ≤ 7 && (x ≤ 3 || x % 4 == 0)
  else (m == 4 || m == 5 || m == 0xa) && x ≤ 4

/-- R267, R348, R368, R369: one source field of a row. -/
def rowSrcOk (reads named : Bool) (s : BitVec 8) : Bool :=
  if reads then srcValue s else if named then s.toNat ≤ 0x43 || 0x80 ≤ s.toNat else srcNone s

/-- R271: the checks CFG makes on one row by itself; slots, buses, counters and WLD spacing are the image's (R22, R98). -/
def rowWf (code : Nat) (r : Row) : Bool :=
  let gd := r.guard.toNat
  let (ra, rb, rc) := rowReads code
  (gd == 0 || (rowGuarded code && gd != 4)) &&
  rowDestOk code r.dest.toNat && rowModAuxOk code r &&
  (if rowMemOnly code then srcMem r.srcA
   else if code == 0x4a || code == 0x4b then srcMem r.srcA || srcValue r.srcA
   else rowSrcOk ra (gd % 4 == 1) r.srcA) &&
  (code == 0x29 || rowSrcOk rb (gd % 4 == 2) r.srcB) && rowSrcOk rc (gd % 4 == 3) r.srcC

/-- R268: the opcode and fields of a fabric row. -/
def Instr.rowParts : Instr → Option (Nat × Row)
  | .rowAdd r => some (0x01, r) | .rowSub r => some (0x02, r) | .rowMul r => some (0x03, r)
  | .rowMulh r => some (0x04, r) | .rowAdds r => some (0x05, r) | .rowSubs r => some (0x06, r)
  | .rowAnd r => some (0x07, r) | .rowOr r => some (0x08, r) | .rowXor r => some (0x09, r)
  | .rowAndn r => some (0x0a, r) | .rowShl r => some (0x0b, r) | .rowShr r => some (0x0c, r)
  | .rowSar r => some (0x0d, r) | .rowMin r => some (0x0e, r) | .rowMax r => some (0x0f, r)
  | .rowAbs r => some (0x10, r) | .rowCmp r => some (0x11, r) | .rowSel r => some (0x12, r)
  | .rowMov r => some (0x13, r) | .rowPerm r => some (0x14, r) | .rowPack r => some (0x15, r)
  | .rowUnpk r => some (0x16, r) | .rowPopc r => some (0x17, r) | .rowClz r => some (0x18, r)
  | .rowPand r => some (0x1c, r) | .rowPor r => some (0x1d, r) | .rowPnot r => some (0x1e, r)
  | .rowFadd r => some (0x20, r) | .rowFsub r => some (0x21, r) | .rowFmul r => some (0x22, r)
  | .rowFma r => some (0x23, r) | .rowFms r => some (0x24, r) | .rowFmin r => some (0x25, r)
  | .rowFmax r => some (0x26, r) | .rowFabs r => some (0x27, r) | .rowFcmp r => some (0x28, r)
  | .rowFcvt r => some (0x29, r) | .rowFsum r => some (0x2a, r) | .rowFmaxh r => some (0x2b, r)
  | .rowFrcp r => some (0x2c, r) | .rowFrsq r => some (0x2d, r) | .rowFexp2 r => some (0x2e, r)
  | .rowFlog2 r => some (0x2f, r) | .rowLut r => some (0x30, r) | .rowLuts r => some (0x31, r)
  | .rowLutc r => some (0x32, r) | .rowConst r => some (0x34, r) | .rowShfl r => some (0x35, r)
  | .rowIdx r => some (0x36, r) | .rowLd r => some (0x40, r) | .rowSt r => some (0x41, r)
  | .rowLdx r => some (0x42, r) | .rowStx r => some (0x43, r) | .rowLdb r => some (0x44, r)
  | .rowWld r => some (0x48, r) | .rowWsw r => some (0x49, r) | .rowDot r => some (0x4a, r)
  | .rowDots r => some (0x4b, r) | .rowAcrd r => some (0x4c, r) | .rowAcz r => some (0x4d, r)
  | .rowAcadd r => some (0x4e, r) | .rowQnt r => some (0x4f, r)
  | _ => none

/-- A sequencer instruction within its limits, or a row within R271; an event is always well formed. -/
def Instr.wf (i : Instr) : Bool :=
  match i.rowParts with
  | some (code, r) => rowWf code r
  | none => i.seqWf

end Sys2Proof
end

