-- ==== Sys2Proof/Decode.lean ====
section
/-! DEFINITION. The decoder of sequencer words (R256 to R264) and fabric rows (R265 to R271), total on any bits and
rejecting by name, then the encoder written from the same tables. -/

namespace Sys2Proof

/-- Bits [hi:lo] of a number. -/
def bitsOf (n hi lo : Nat) : Nat := n / 2 ^ lo % 2 ^ (hi + 1 - lo)

/-- What a sequencer word decodes to (R258): an instruction, an unassigned code (ILL_OP), or a field outside its
limits (ILL_OPERAND), with whether the word is a control transfer, which BRANCH_IN_SLOT checks first. -/
inductive Decoded
  | ok (i : Instr)
  | illOp
  | illOperand (transfer : Bool)
deriving DecidableEq, Repr

/-- R41: the transfers that may not stand in a delay slot. -/
def Instr.isTransfer : Instr → Bool
  | .br _ | .jmp _ | .call _ | .ret _ | .loop _ | .lbrk _ | .tret _ | .halt _ => true
  | _ => false

/-- R258, check 4: the fields are zero where unused and the instruction is within its limits. -/
def Decoded.checked (unusedOk : Bool) (i : Instr) : Decoded :=
  if unusedOk && i.wf then .ok i else .illOperand i.isTransfer

/-- R257: [25] N and [24:22] the predicate. -/
def guardOf (n : Nat) : Guard := { neg := n / 2 ^ 25 % 2 == 1, idx := Fin.ofNat 8 (n / 2 ^ 22) }

/-- R256: [21:17]. -/
def fldD (n : Nat) : Nat := n / 2 ^ 17 % 32
/-- R256: [16:12]. -/
def fldA (n : Nat) : Nat := n / 2 ^ 12 % 32
/-- R256: [11:7]. -/
def fldB (n : Nat) : Nat := n / 2 ^ 7 % 32
/-- R256: [6:0]. -/
def fldFn (n : Nat) : Nat := n % 128
/-- The register a field names. -/
def regOf (f : Nat) : Reg := Fin.ofNat 32 f
/-- The predicate a field names in its low three bits. -/
def predOf (f : Nat) : Pred := Fin.ofNat 8 f
/-- Bit 6, W or T. -/
def bit6 (n : Nat) : Bool := n / 64 % 2 == 1
/-- FP32 or BF16 by the selector T. -/
def fmtOf (t : Bool) : FpFmt := if t then .bf16 else .f32

/-- R289: the scalar type codes. -/
def scalarOf : Nat → Option ScalarType
  | 0x00 => some .bf16 | 0x01 => some .fp16 | 0x02 => some .e4m3 | 0x03 => some .e5m2 | 0x0b => some .fp32
  | 0x10 => some .i32 | 0x11 => some .i64 | 0x12 => some .n32 | 0x13 => some .n64
  | _ => none

/-- R260: major INT. -/
def decodeInt (n : Nat) : Decoded :=
  let x : IntArgs := ⟨guardOf n, regOf (fldD n), regOf (fldA n), regOf (fldB n), bit6 n⟩
  let r : RegArgs := ⟨guardOf n, regOf (fldD n), regOf (fldA n), regOf (fldB n)⟩
  let u : UnaryArgs := ⟨guardOf n, regOf (fldD n), regOf (fldA n), bit6 n⟩
  let e : ExtArgs := ⟨guardOf n, regOf (fldD n), regOf (fldA n), Fin.ofNat 32 (fldB n)⟩
  let b0 := fldB n == 0
  let noW (i : Decoded) : Decoded := if bit6 n then .illOp else i
  match n % 64 with
  | 0x00 => .checked true (.add x) | 0x01 => .checked true (.sub x) | 0x02 => .checked true (.mul x)
  | 0x03 => .checked true (.mulh x) | 0x04 => .checked true (.mulhn x) | 0x05 => .checked true (.div x)
  | 0x06 => .checked true (.divn x) | 0x07 => .checked true (.rem x) | 0x08 => .checked true (.remn x)
  | 0x09 => .checked true (.min x) | 0x0a => .checked true (.max x) | 0x0b => .checked true (.minn x)
  | 0x0c => .checked true (.maxn x)
  | 0x10 => noW (.checked true (.and r)) | 0x11 => noW (.checked true (.or r))
  | 0x12 => noW (.checked true (.xor r)) | 0x13 => noW (.checked true (.andn r))
  | 0x18 => .checked true (.shl x) | 0x19 => .checked true (.shr x) | 0x1a => .checked true (.sar x)
  | 0x1b => .checked true (.rot x)
  | 0x20 => .checked b0 (.clz u) | 0x21 => .checked b0 (.ctz u) | 0x22 => .checked b0 (.popc u)
  | 0x23 => .checked b0 (.bswap u)
  | 0x28 => noW (.checked true (.sext e)) | 0x29 => noW (.checked true (.zext e))
  | op =>
    if 0x38 ≤ op then
      noW (.checked true (.sel ⟨guardOf n, regOf (fldD n), regOf (fldA n), regOf (fldB n), Fin.ofNat 8 op⟩))
    else .illOp

/-- R284: the conditions of CMP. -/
def cmpCondOf : Nat → Option CmpCond
  | 0 => some .eq | 1 => some .ne | 2 => some .lt | 3 => some .ge | 4 => some .le | 5 => some .gt
  | 6 => some .ltn | 7 => some .gen | 8 => some .len | 9 => some .gtn
  | _ => none

/-- R284: major CMP; fn[5:4] other than 0 and cc 10 to 15 are unassigned (R261). -/
def decodeCmp (n : Nat) : Decoded :=
  match cmpCondOf (n % 64) with
  | some cc => .checked (fldD n < 8) (.cmp ⟨guardOf n, predOf (fldD n), regOf (fldA n), regOf (fldB n), bit6 n, cc⟩)
  | none => .illOp

/-- R286: major PRED. -/
def decodePred (n : Nat) : Decoded :=
  let x : PredArgs := ⟨guardOf n, predOf (fldD n), predOf (fldA n), predOf (fldB n)⟩
  let hi0 := fldD n < 8 && fldA n < 8 && fldB n < 8
  match fldFn n with
  | 0 => .checked hi0 (.pand x) | 1 => .checked hi0 (.por x) | 2 => .checked hi0 (.pxor x)
  | 3 => .checked (hi0 && fldB n == 0) (.pnot ⟨guardOf n, predOf (fldD n), predOf (fldA n)⟩)
  | _ => .illOp

/-- R287, R288: major FP. -/
def decodeFp (n : Nat) : Decoded :=
  let x : FpArgs := ⟨guardOf n, regOf (fldD n), regOf (fldA n), regOf (fldB n), fmtOf (bit6 n)⟩
  let fcmp (cc : FcmpCond) : Decoded := .checked (fldD n < 8)
    (.fcmp ⟨guardOf n, predOf (fldD n), regOf (fldA n), regOf (fldB n), fmtOf (bit6 n), cc⟩)
  match n % 64 with
  | 0x00 => .checked true (.fadd x) | 0x01 => .checked true (.fsub x) | 0x02 => .checked true (.fmul x)
  | 0x03 => .checked true (.fma x) | 0x04 => .checked true (.fmin x) | 0x05 => .checked true (.fmax x)
  | 0x10 => fcmp .eq | 0x11 => fcmp .ne | 0x12 => fcmp .lt | 0x13 => fcmp .le | 0x14 => fcmp .gt
  | 0x15 => fcmp .ge | 0x16 => fcmp .un
  | _ => .illOp

/-- R289: major FCVT. -/
def decodeFcvt (n : Nat) : Decoded :=
  match scalarOf (fldB n), scalarOf (n % 32) with
  | some s, some t =>
    .checked (!bit6 n) (.fcvt ⟨guardOf n, regOf (fldD n), regOf (fldA n), s, t, n / 32 % 2 == 1⟩)
  | _, _ => .illOperand false

/-- R261, R293, R294, R298: major CTRL. -/
def decodeCtrl (n : Nat) : Decoded :=
  let g := guardOf n
  let db0 := fldD n == 0 && fldB n == 0
  let all0 := db0 && fldA n == 0
  match fldFn n with
  | 0x00 => .checked all0 (.nop g)
  | 0x01 => .checked all0 (.halt g)
  | 0x02 => .checked db0 (.jmp ⟨g, regOf (fldA n)⟩)
  | 0x03 => .checked all0 (.ret g)
  | 0x08 => .checked all0 (.lbrk ⟨g, 0⟩) | 0x09 => .checked all0 (.lbrk ⟨g, 1⟩)
  | 0x0a => .checked all0 (.lbrk ⟨g, 2⟩) | 0x0b => .checked all0 (.lbrk ⟨g, 3⟩)
  | _ => .illOp

/-- R261, R341 to R346: major SYS, form E. -/
def decodeSys (n : Nat) : Decoded :=
  let g := guardOf n
  let a := fldD n
  let b := fldA n
  let c0 := fldB n == 0
  match fldFn n with
  | 0 => .checked (a == 0 && b == 0 && c0) (.yield g)
  | 1 => .checked (a == 0 && b == 0 && c0) (.tret g)
  | 2 => .checked (b == 0 && c0) (.trace ⟨g, regOf a⟩)
  | 3 => .checked c0 (.invt ⟨g, regOf a, regOf b⟩)
  | _ => .illOp

/-- R262, R282: major SHI. -/
def decodeShi (n : Nat) : Decoded :=
  let x : ShiArgs := ⟨guardOf n, regOf (fldD n), regOf (fldA n), bit6 n, Fin.ofNat 64 n⟩
  let hi0 := n / 2 ^ 9 % 8 == 0
  match n / 2 ^ 7 % 4 with
  | 0 => .checked hi0 (.shli x)
  | 1 => .checked hi0 (.shri x)
  | 2 => .checked hi0 (.sari x)
  | _ => .illOperand false

/-- R263: form M, base and displacement. -/
def globOf (n : Nat) : GlobArgs :=
  ⟨guardOf n, regOf (fldD n), regOf (fldA n), BitVec.ofNat 3 (n / 2 ^ 9), BitVec.ofNat 9 n⟩

/-- R303: LDS and STS; SIZE 4 to 7 is outside the limits. -/
def decodeSpad (n : Nat) (k : SpadArgs → Instr) : Decoded :=
  .checked (n / 2 ^ 9 % 8 < 4) (k ⟨guardOf n, regOf (fldD n), regOf (fldA n), Fin.ofNat 4 (n / 2 ^ 9), BitVec.ofNat 9 n⟩)

/-- R309: major MAINT. -/
def decodeMaint (n : Nat) : Decoded :=
  let x : MaintArgs := ⟨guardOf n, regOf (fldA n), BitVec.ofNat 9 n⟩
  let o0 := n / 2 ^ 9 % 8 == 0
  match fldD n with
  | 0 => .checked o0 (.pref x) | 1 => .checked o0 (.cln x) | 2 => .checked o0 (.inv x)
  | _ => .illOperand false

/-- R308: the conditions of WAITA. -/
def waitaCondOf (n : Nat) : WaitaCond :=
  match n % 4 with | 0 => .eq | 1 => .ne | 2 => .gen | _ => .done

/-- R310: major AMO. -/
def decodeAmo (n : Nat) : Decoded :=
  let x : AmoArgs := ⟨guardOf n, regOf (fldD n), regOf (fldA n), regOf (fldB n), BitVec.ofNat 3 n⟩
  match n / 8 % 16 with
  | 0 => .checked true (.amoAdd x) | 1 => .checked true (.amoFadd x) | 2 => .checked true (.amoMin x)
  | 3 => .checked true (.amoMax x) | 4 => .checked true (.amoMinn x) | 5 => .checked true (.amoMaxn x)
  | 6 => .checked true (.amoAnd x) | 7 => .checked true (.amoOr x) | 8 => .checked true (.amoXor x)
  | 9 => .checked true (.amoSwap x) | 10 => .checked true (.cas x)
  | _ => .illOp

/-- R313: major FENCE. -/
def decodeFence (n : Nat) : Decoded :=
  let x : FenceArgs := ⟨guardOf n, BitVec.ofNat 3 n⟩
  let z := fldD n == 0 && fldA n == 0 && fldB n == 0 && n / 8 % 4 == 0
  match n / 32 % 4 with
  | 1 => .checked z (.fenceAcq x) | 2 => .checked z (.fenceRel x) | 3 => .checked z (.fenceFull x)
  | _ => .illOperand false

/-- R314: major PH. -/
def decodePh (n : Nat) : Decoded :=
  let g := guardOf n
  let a := fldD n
  let b := regOf (fldA n)
  let c := fldB n
  let s0 := n / 4 % 4 == 0
  let m0 := n % 4 == 0
  let md : PhModeArgs := ⟨g, b, Fin.ofNat 4 n⟩
  match n / 16 % 8 with
  | 0 => .checked (s0 && a == 0 && c == 0) (.phReg md)
  | 1 => .checked (s0 && a == 0 && c == 0) (.phDrop md)
  | 2 => .checked (s0 && m0 && a == 0 && c == 0) (.phArr ⟨g, b⟩)
  | 3 => .checked (s0 && m0 && a == 0) (.phWait ⟨g, b, regOf c⟩)
  | 4 => .checked (s0 && m0 && c == 0) (.phAw ⟨g, regOf a, b⟩)
  | 5 => .checked (s0 && m0 && c == 0) (.phQry ⟨g, regOf a, b⟩)
  | _ => .illOp

/-- R264, R319: major FAB. -/
def decodeFab (n : Nat) : Decoded :=
  let g := guardOf n
  let a := fldD n
  let b := fldA n
  let c := fldB n
  let x := n / 4 % 4
  let k : Fin 4 := Fin.ofNat 4 n
  match n / 16 % 8 with
  | 0 => .checked (b < 16 && c == 0 && x == 0) (.cfg ⟨g, regOf a, BitVec.ofNat 4 b, k⟩)
  | 1 =>
    if x % 2 == 1 then .checked (c == 0 && x == 1) (.launchPh ⟨g, regOf a, regOf b, k⟩)
    else .checked (b == 0 && c == 0 && x == 0) (.launch ⟨g, regOf a, k⟩)
  | 2 => .checked (b == 0 && c == 0 && x == 0) (.lwait ⟨g, regOf a, k⟩)
  | 3 => .checked (a == 0 && b == 0 && c == 0 && x == 0) (.lstop ⟨g, k⟩)
  | 4 => .checked (c < 16 && x == 0) (.acset ⟨g, regOf a, regOf b, Fin.ofNat 4 c, Fin.ofNat 4 (c / 4), k⟩)
  | 5 =>
    match x with
    | 0 => .checked (b == 0 && c < 4) (.csetSeed ⟨g, regOf a, Fin.ofNat 4 c, k⟩)
    | 1 => .checked (b == 0 && c == 0) (.csetTen ⟨g, regOf a, k⟩)
    | 2 => .checked (a == 0 && b == 0 && c == 0) (.csetClr ⟨g, k⟩)
    | _ => .illOperand false
  | 6 => .checked (c == 0 && x == 0) (.vget ⟨g, regOf a, regOf b, k⟩)
  | _ => .checked (c == 0 && x == 0) (.vset ⟨g, regOf a, regOf b, k⟩)

/-- R327: major CP. -/
def decodeCp (n : Nat) : Decoded :=
  let x : SrcArgs := ⟨guardOf n, regOf (fldD n)⟩
  let z := fldA n == 0 && fldB n == 0 && n / 8 % 16 == 0
  match n % 8 with
  | 1 => .checked z (.cpIn x) | 2 => .checked z (.cpOut x) | 3 => .checked z (.cpXfr x)
  | 4 => .checked z (.cpFill x) | 5 => .checked z (.cpGath x) | 6 => .checked z (.cpQry x)
  | _ => .illOp

/-- R331: major NB. -/
def decodeNb (n : Nat) : Decoded :=
  let g := guardOf n
  let x : SrcArgs := ⟨g, regOf (fldD n)⟩
  let t := n / 16 % 2 == 1
  let z := fldA n == 0 && fldB n == 0 && n / 32 % 4 == 0
  let y : NbArgs := ⟨g, regOf (fldD n), fmtOf t⟩
  match n % 16 with
  | 0 => .checked (z && !t) (.nbZero x) | 1 => .checked (z && !t) (.nbCopy x) | 2 => .checked (z && !t) (.nbRcopy x)
  | 3 => .checked z (.nbAxpy y) | 4 => .checked z (.nbAdd y) | 5 => .checked z (.nbMul y)
  | 6 => .checked z (.nbScale y) | 7 => .checked z (.nbSum y) | 8 => .checked z (.nbDot y)
  | 9 => .checked (z && !t && fldD n == 0) (.nbFence g)
  | _ => .illOp

/-- R334: major Q. -/
def decodeQ (n : Nat) : Decoded :=
  let g := guardOf n
  let s0 := n / 4 % 32 == 0
  match n % 4 with
  | 0 => .checked (s0 && fldD n == 0) (.qpush ⟨g, regOf (fldA n), regOf (fldB n)⟩)
  | 1 => .checked s0 (.qpop ⟨g, regOf (fldD n), regOf (fldA n), regOf (fldB n)⟩)
  | 2 => .checked (s0 && fldB n == 0) (.qroom ⟨g, regOf (fldD n), regOf (fldA n)⟩)
  | _ => .illOp

/-- R335: major LK. -/
def decodeLk (n : Nat) : Decoded :=
  let g := guardOf n
  let a := regOf (fldD n)
  let t := n / 8 % 2 == 1
  let s0 := n / 16 % 8 == 0
  let bc0 := fldA n == 0 && fldB n == 0
  match n % 8 with
  | 0 => .checked (s0 && !t && bc0) (.lkSend ⟨g, a⟩)
  | 1 => .checked (s0 && !t && bc0) (.lkRecv ⟨g, a⟩)
  | 2 => .checked (s0 && fldA n == 0) (.lkAred ⟨g, a, regOf (fldB n), fmtOf t⟩)
  | 3 => .checked (s0 && !t) (.lkWait ⟨g, a, regOf (fldA n), regOf (fldB n)⟩)
  | 4 => .checked (s0 && !t && bc0) (.lkAbort ⟨g, a⟩)
  | _ => .illOp

/-- R259: the major opcode map. -/
def decodeNat (n : Nat) : Decoded :=
  let g := guardOf n
  let imm : ImmArgs := ⟨g, regOf (fldD n), regOf (fldA n), BitVec.ofNat 12 n⟩
  let cmpi : CmpiArgs := ⟨g, predOf (fldD n), Fin.ofNat 4 (fldD n / 8), regOf (fldA n), BitVec.ofNat 12 n⟩
  let branch : BranchArgs := ⟨g, BitVec.ofNat 22 n⟩
  match n / 2 ^ 26 % 64 with
  | 0x01 => decodeInt n
  | 0x02 => decodeCmp n
  | 0x03 => decodePred n
  | 0x04 => decodeFp n
  | 0x05 => decodeFcvt n
  | 0x06 => decodeCtrl n
  | 0x07 => decodeSys n
  | 0x08 => .checked true (.addi imm)
  | 0x09 => .checked true (.andi imm)
  | 0x0a => .checked true (.ori imm)
  | 0x0b => .checked true (.xori imm)
  | 0x0c => decodeShi n
  | 0x0d => .checked true (.cmpi0 cmpi)
  | 0x0e => .checked true (.cmpi1 cmpi)
  | 0x0f => .checked (fldA n < 4) (.loop ⟨g, regOf (fldD n), Fin.ofNat 4 (fldA n), BitVec.ofNat 12 n⟩)
  | 0x10 => .checked true (.limm ⟨g, regOf (fldD n), BitVec.ofNat 17 n⟩)
  | 0x11 => .checked true (.lhi ⟨g, regOf (fldD n), BitVec.ofNat 17 n⟩)
  | 0x12 =>
    match fldD n with
    | 0 => .checked true (.trap ⟨g, BitVec.ofNat 17 n⟩)
    | 1 => .checked true (.bkpt ⟨g, BitVec.ofNat 17 n⟩)
    | _ => .illOperand false
  | 0x13 => .checked (fldA n == 0) (.crd ⟨g, regOf (fldD n), BitVec.ofNat 12 n⟩)
  | 0x14 => .checked (fldD n == 0) (.cwr ⟨g, regOf (fldA n), BitVec.ofNat 12 n⟩)
  | 0x15 =>
    if bit6 n then .checked (fldD n == 0 && n / 2 ^ 7 % 32 == 0) (.timeSet ⟨g, regOf (fldA n), BitVec.ofNat 6 n⟩)
    else .checked (fldA n == 0 && n / 2 ^ 7 % 32 == 0) (.time ⟨g, regOf (fldD n), BitVec.ofNat 6 n⟩)
  | 0x16 => .checked true (.br branch)
  | 0x17 => .checked true (.call branch)
  | 0x18 => decodeSpad n .lds
  | 0x19 => decodeSpad n .sts
  | 0x1a => .checked (n / 2 ^ 9 % 8 == 0) (.sig ⟨g, regOf (fldD n), regOf (fldA n), BitVec.ofNat 9 n⟩)
  | 0x1b => decodeMaint n
  | 0x1c => .checked (n / 8 % 16 == 0) (.str ⟨g, regOf (fldD n), regOf (fldA n), regOf (fldB n), Fin.ofNat 8 n⟩)
  | 0x1d =>
    .checked (n / 4 % 32 == 0) (.waita ⟨g, regOf (fldD n), regOf (fldA n), regOf (fldB n), waitaCondOf n⟩)
  | 0x1e =>
    .checked (fldB n == 0 && n / 32 % 4 == 0)
      (.mwc ⟨g, regOf (fldD n), regOf (fldA n), BitVec.ofNat 3 (n / 4), Fin.ofNat 4 n⟩)
  | 0x20 => .checked true (.ldg8 (globOf n)) | 0x21 => .checked true (.ldg16 (globOf n))
  | 0x22 => .checked true (.ldg32 (globOf n)) | 0x23 => .checked true (.ldg64 (globOf n))
  | 0x24 => .checked true (.stg8 (globOf n)) | 0x25 => .checked true (.stg16 (globOf n))
  | 0x26 => .checked true (.stg32 (globOf n)) | 0x27 => .checked true (.stg64 (globOf n))
  | 0x28 => decodeAmo n
  | 0x29 => decodeFence n
  | 0x2a => decodePh n
  | 0x2b => decodeFab n
  | 0x2c => decodeCp n
  | 0x2d => decodeNb n
  | 0x2e => decodeQ n
  | 0x2f => decodeLk n
  | _ => .illOp

/-- The sequencer decoder, total on any 32 bits. -/
def decode (w : BitVec 32) : Decoded := decodeNat w.toNat

/-- R265: the fields of a row. -/
def rowFields (n : Nat) : Row :=
  { stage := BitVec.ofNat 7 (n / 2 ^ 57), slot := BitVec.ofNat 5 (n / 2 ^ 52), dest := BitVec.ofNat 7 (n / 2 ^ 37),
    srcA := BitVec.ofNat 8 (n / 2 ^ 29), srcB := BitVec.ofNat 8 (n / 2 ^ 21), srcC := BitVec.ofNat 8 (n / 2 ^ 13),
    mod := BitVec.ofNat 4 (n / 2 ^ 9), guard := BitVec.ofNat 3 (n / 2 ^ 6), aux := BitVec.ofNat 6 n }

/-- R268: the row of an opcode; every code not shown is reserved. -/
def rowOf (code : Nat) (r : Row) : Option Instr :=
  match code with
  | 0x01 => some (.rowAdd r)
  | 0x02 => some (.rowSub r)
  | 0x03 => some (.rowMul r)
  | 0x04 => some (.rowMulh r)
  | 0x05 => some (.rowAdds r)
  | 0x06 => some (.rowSubs r)
  | 0x07 => some (.rowAnd r)
  | 0x08 => some (.rowOr r)
  | 0x09 => some (.rowXor r)
  | 0x0a => some (.rowAndn r)
  | 0x0b => some (.rowShl r)
  | 0x0c => some (.rowShr r)
  | 0x0d => some (.rowSar r)
  | 0x0e => some (.rowMin r)
  | 0x0f => some (.rowMax r)
  | 0x10 => some (.rowAbs r)
  | 0x11 => some (.rowCmp r)
  | 0x12 => some (.rowSel r)
  | 0x13 => some (.rowMov r)
  | 0x14 => some (.rowPerm r)
  | 0x15 => some (.rowPack r)
  | 0x16 => some (.rowUnpk r)
  | 0x17 => some (.rowPopc r)
  | 0x18 => some (.rowClz r)
  | 0x1c => some (.rowPand r)
  | 0x1d => some (.rowPor r)
  | 0x1e => some (.rowPnot r)
  | 0x20 => some (.rowFadd r)
  | 0x21 => some (.rowFsub r)
  | 0x22 => some (.rowFmul r)
  | 0x23 => some (.rowFma r)
  | 0x24 => some (.rowFms r)
  | 0x25 => some (.rowFmin r)
  | 0x26 => some (.rowFmax r)
  | 0x27 => some (.rowFabs r)
  | 0x28 => some (.rowFcmp r)
  | 0x29 => some (.rowFcvt r)
  | 0x2a => some (.rowFsum r)
  | 0x2b => some (.rowFmaxh r)
  | 0x2c => some (.rowFrcp r)
  | 0x2d => some (.rowFrsq r)
  | 0x2e => some (.rowFexp2 r)
  | 0x2f => some (.rowFlog2 r)
  | 0x30 => some (.rowLut r)
  | 0x31 => some (.rowLuts r)
  | 0x32 => some (.rowLutc r)
  | 0x34 => some (.rowConst r)
  | 0x35 => some (.rowShfl r)
  | 0x36 => some (.rowIdx r)
  | 0x40 => some (.rowLd r)
  | 0x41 => some (.rowSt r)
  | 0x42 => some (.rowLdx r)
  | 0x43 => some (.rowStx r)
  | 0x44 => some (.rowLdb r)
  | 0x48 => some (.rowWld r)
  | 0x49 => some (.rowWsw r)
  | 0x4a => some (.rowDot r)
  | 0x4b => some (.rowDots r)
  | 0x4c => some (.rowAcrd r)
  | 0x4d => some (.rowAcz r)
  | 0x4e => some (.rowAcadd r)
  | 0x4f => some (.rowQnt r)
  | _ => none

/-- The row decoder: none is a row that makes CFG fail with CTX_BAD (R271). -/
def decodeRow (w : BitVec 64) : Option Instr :=
  match rowOf (w.toNat / 2 ^ 44 % 256) (rowFields w.toNat) with
  | some i => if i.wf then some i else none
  | none => none

/-- R257: the guard field. -/
def Guard.code (g : Guard) : Nat := (if g.neg then 8 else 0) + g.idx.val

/-- Bits [31:22] of a word: major and guard. -/
def encHead (major : Nat) (g : Guard) : Nat := major * 2 ^ 26 + g.code * 2 ^ 22

/-- Forms A and E (R256): three five-bit fields and seven low bits. -/
def encA (major : Nat) (g : Guard) (d a b fn : Nat) : Nat :=
  encHead major g + d * 2 ^ 17 + a * 2 ^ 12 + b * 2 ^ 7 + fn

/-- Form I. -/
def encI (major : Nat) (g : Guard) (d a imm : Nat) : Nat := encHead major g + d * 2 ^ 17 + a * 2 ^ 12 + imm

/-- Form L. -/
def encL (major : Nat) (g : Guard) (d imm : Nat) : Nat := encHead major g + d * 2 ^ 17 + imm

/-- Form M. -/
def encM (major : Nat) (g : Guard) (d base order imm : Nat) : Nat :=
  encHead major g + d * 2 ^ 17 + base * 2 ^ 12 + order * 2 ^ 9 + imm

/-- Bit 6 of the word. -/
def wBit (w : Bool) : Nat := if w then 64 else 0

/-- T of FP, in place. -/
def FpFmt.code : FpFmt → Nat | .f32 => 0 | .bf16 => 1
/-- R284. -/
def CmpCond.code : CmpCond → Nat
  | .eq => 0 | .ne => 1 | .lt => 2 | .ge => 3 | .le => 4 | .gt => 5 | .ltn => 6 | .gen => 7 | .len => 8 | .gtn => 9
/-- R288. -/
def FcmpCond.code : FcmpCond → Nat
  | .eq => 0x10 | .ne => 0x11 | .lt => 0x12 | .le => 0x13 | .gt => 0x14 | .ge => 0x15 | .un => 0x16
/-- R308. -/
def WaitaCond.code : WaitaCond → Nat | .eq => 0 | .ne => 1 | .gen => 2 | .done => 3
/-- R289. -/
def ScalarType.code : ScalarType → Nat
  | .bf16 => 0x00 | .fp16 => 0x01 | .e4m3 => 0x02 | .e5m2 => 0x03 | .fp32 => 0x0b
  | .i32 => 0x10 | .i64 => 0x11 | .n32 => 0x12 | .n64 => 0x13

def encInt (op : Nat) (x : IntArgs) : Nat := encA 0x01 x.g x.d x.a x.b (wBit x.w + op)
def encReg (op : Nat) (x : RegArgs) : Nat := encA 0x01 x.g x.d x.a x.b op
def encUnary (op : Nat) (x : UnaryArgs) : Nat := encA 0x01 x.g x.d x.a 0 (wBit x.w + op)
def encFp (op : Nat) (x : FpArgs) : Nat := encA 0x04 x.g x.d x.a x.b (x.t.code * 64 + op)
def encImm (major : Nat) (x : ImmArgs) : Nat := encI major x.g x.d x.a x.imm.toNat
def encShi (kind : Nat) (x : ShiArgs) : Nat := encI 0x0c x.g x.d x.a (kind * 2 ^ 7 + wBit x.w + x.count)
def encCmpi (major : Nat) (x : CmpiArgs) : Nat := encI major x.g (x.cc.val * 8 + x.p.val) x.a x.imm.toNat
def encSpad (major : Nat) (x : SpadArgs) : Nat := encM major x.g x.r x.base x.size x.imm.toNat
def encGlob (major : Nat) (x : GlobArgs) : Nat := encM major x.g x.r x.base x.order.toNat x.imm.toNat
def encMaint (op : Nat) (x : MaintArgs) : Nat := encM 0x1b x.g op x.base 0 x.imm.toNat
def encAmo (op : Nat) (x : AmoArgs) : Nat := encA 0x28 x.g x.d x.a x.b (op * 8 + x.scope.toNat)
def encFence (kind : Nat) (x : FenceArgs) : Nat := encA 0x29 x.g 0 0 0 (kind * 32 + x.scope.toNat)
def encPh (op : Nat) (g : Guard) (a b c mode : Nat) : Nat := encA 0x2a g a b c (op * 16 + mode)
def encFab (op x : Nat) (g : Guard) (a b c : Nat) (k : Fin 4) : Nat := encA 0x2b g a b c (op * 16 + x * 4 + k)
def encCp (op : Nat) (x : SrcArgs) : Nat := encA 0x2c x.g x.a 0 0 op
def encNb (op : Nat) (x : SrcArgs) : Nat := encA 0x2d x.g x.a 0 0 op
def encNbT (op : Nat) (x : NbArgs) : Nat := encA 0x2d x.g x.a 0 0 (x.t.code * 16 + op)

/-- The number of an instruction's word, from R256 to R264 and R319 to R346; none for rows and events. -/
def encodeNat : Instr → Option Nat
  | .add x => some (encInt 0x00 x) | .sub x => some (encInt 0x01 x) | .mul x => some (encInt 0x02 x)
  | .mulh x => some (encInt 0x03 x) | .mulhn x => some (encInt 0x04 x) | .div x => some (encInt 0x05 x)
  | .divn x => some (encInt 0x06 x) | .rem x => some (encInt 0x07 x) | .remn x => some (encInt 0x08 x)
  | .min x => some (encInt 0x09 x) | .max x => some (encInt 0x0a x) | .minn x => some (encInt 0x0b x)
  | .maxn x => some (encInt 0x0c x)
  | .and x => some (encReg 0x10 x) | .or x => some (encReg 0x11 x) | .xor x => some (encReg 0x12 x)
  | .andn x => some (encReg 0x13 x)
  | .shl x => some (encInt 0x18 x) | .shr x => some (encInt 0x19 x) | .sar x => some (encInt 0x1a x)
  | .rot x => some (encInt 0x1b x)
  | .clz x => some (encUnary 0x20 x) | .ctz x => some (encUnary 0x21 x) | .popc x => some (encUnary 0x22 x)
  | .bswap x => some (encUnary 0x23 x)
  | .sext x => some (encA 0x01 x.g x.d x.a x.width 0x28) | .zext x => some (encA 0x01 x.g x.d x.a x.width 0x29)
  | .sel x => some (encA 0x01 x.g x.d x.a x.b (0x38 + x.k))
  | .cmp x => some (encA 0x02 x.g x.p x.a x.b (wBit x.w + x.cc.code))
  | .pand x => some (encA 0x03 x.g x.d x.a x.b 0) | .por x => some (encA 0x03 x.g x.d x.a x.b 1)
  | .pxor x => some (encA 0x03 x.g x.d x.a x.b 2) | .pnot x => some (encA 0x03 x.g x.d x.a 0 3)
  | .fadd x => some (encFp 0 x) | .fsub x => some (encFp 1 x) | .fmul x => some (encFp 2 x)
  | .fma x => some (encFp 3 x) | .fmin x => some (encFp 4 x) | .fmax x => some (encFp 5 x)
  | .fcmp x => some (encA 0x04 x.g x.p x.a x.b (x.t.code * 64 + x.cc.code))
  | .fcvt x => some (encA 0x05 x.g x.d x.a x.src.code ((if x.ns then 32 else 0) + x.dst.code))
  | .nop g => some (encA 0x06 g 0 0 0 0x00) | .halt g => some (encA 0x06 g 0 0 0 0x01)
  | .jmp x => some (encA 0x06 x.g 0 x.a 0 0x02) | .ret g => some (encA 0x06 g 0 0 0 0x03)
  | .lbrk x => some (encA 0x06 x.g 0 0 0 (0x08 + x.k))
  | .yield g => some (encA 0x07 g 0 0 0 0) | .tret g => some (encA 0x07 g 0 0 0 1)
  | .trace x => some (encA 0x07 x.g x.a 0 0 2) | .invt x => some (encA 0x07 x.g x.a x.b 0 3)
  | .addi x => some (encImm 0x08 x) | .andi x => some (encImm 0x09 x) | .ori x => some (encImm 0x0a x)
  | .xori x => some (encImm 0x0b x)
  | .shli x => some (encShi 0 x) | .shri x => some (encShi 1 x) | .sari x => some (encShi 2 x)
  | .cmpi0 x => some (encCmpi 0x0d x) | .cmpi1 x => some (encCmpi 0x0e x)
  | .loop x => some (encI 0x0f x.g x.d x.k x.last.toNat)
  | .limm x => some (encL 0x10 x.g x.d x.imm.toNat) | .lhi x => some (encL 0x11 x.g x.d x.imm.toNat)
  | .trap x => some (encL 0x12 x.g 0 x.code.toNat) | .bkpt x => some (encL 0x12 x.g 1 x.code.toNat)
  | .crd x => some (encI 0x13 x.g x.r 0 x.n.toNat) | .cwr x => some (encI 0x14 x.g 0 x.r x.n.toNat)
  | .time x => some (encI 0x15 x.g x.r 0 x.sel.toNat) | .timeSet x => some (encI 0x15 x.g 0 x.r (64 + x.sel.toNat))
  | .br x => some (encHead 0x16 x.g + x.off.toNat) | .call x => some (encHead 0x17 x.g + x.off.toNat)
  | .lds x => some (encSpad 0x18 x) | .sts x => some (encSpad 0x19 x)
  | .sig x => some (encM 0x1a x.g x.s x.base 0 x.imm.toNat)
  | .pref x => some (encMaint 0 x) | .cln x => some (encMaint 1 x) | .inv x => some (encMaint 2 x)
  | .str x => some (encA 0x1c x.g x.a x.b x.c x.n1)
  | .waita x => some (encA 0x1d x.g x.a x.b x.c x.cond.code)
  | .mwc x => some (encA 0x1e x.g x.a x.gb 0 (x.order.toNat * 4 + x.n1))
  | .ldg8 x => some (encGlob 0x20 x) | .ldg16 x => some (encGlob 0x21 x) | .ldg32 x => some (encGlob 0x22 x)
  | .ldg64 x => some (encGlob 0x23 x) | .stg8 x => some (encGlob 0x24 x) | .stg16 x => some (encGlob 0x25 x)
  | .stg32 x => some (encGlob 0x26 x) | .stg64 x => some (encGlob 0x27 x)
  | .amoAdd x => some (encAmo 0 x) | .amoFadd x => some (encAmo 1 x) | .amoMin x => some (encAmo 2 x)
  | .amoMax x => some (encAmo 3 x) | .amoMinn x => some (encAmo 4 x) | .amoMaxn x => some (encAmo 5 x)
  | .amoAnd x => some (encAmo 6 x) | .amoOr x => some (encAmo 7 x) | .amoXor x => some (encAmo 8 x)
  | .amoSwap x => some (encAmo 9 x) | .cas x => some (encAmo 10 x)
  | .fenceAcq x => some (encFence 1 x) | .fenceRel x => some (encFence 2 x) | .fenceFull x => some (encFence 3 x)
  | .phReg x => some (encPh 0 x.g 0 x.b 0 x.mode) | .phDrop x => some (encPh 1 x.g 0 x.b 0 x.mode)
  | .phArr x => some (encPh 2 x.g 0 x.a 0 0) | .phWait x => some (encPh 3 x.g 0 x.a x.b 0)
  | .phAw x => some (encPh 4 x.g x.d x.b 0 0) | .phQry x => some (encPh 5 x.g x.d x.b 0 0)
  | .cfg x => some (encFab 0 0 x.g x.a x.peset.toNat 0 x.k) | .launch x => some (encFab 1 0 x.g x.a 0 0 x.k)
  | .launchPh x => some (encFab 1 1 x.g x.a x.b 0 x.k) | .lwait x => some (encFab 2 0 x.g x.a 0 0 x.k)
  | .lstop x => some (encFab 3 0 x.g 0 0 0 x.k)
  | .acset x => some (encFab 4 0 x.g x.a x.b (x.pe.val * 4 + x.n.val) x.k)
  | .csetSeed x => some (encFab 5 0 x.g x.a 0 x.pe x.k) | .csetTen x => some (encFab 5 1 x.g x.a 0 0 x.k)
  | .csetClr x => some (encFab 5 2 x.g 0 0 0 x.k)
  | .vget x => some (encFab 6 0 x.g x.a x.b 0 x.k) | .vset x => some (encFab 7 0 x.g x.a x.b 0 x.k)
  | .cpIn x => some (encCp 1 x) | .cpOut x => some (encCp 2 x) | .cpXfr x => some (encCp 3 x)
  | .cpFill x => some (encCp 4 x) | .cpGath x => some (encCp 5 x) | .cpQry x => some (encCp 6 x)
  | .nbZero x => some (encNb 0 x) | .nbCopy x => some (encNb 1 x) | .nbRcopy x => some (encNb 2 x)
  | .nbAxpy x => some (encNbT 3 x) | .nbAdd x => some (encNbT 4 x) | .nbMul x => some (encNbT 5 x)
  | .nbScale x => some (encNbT 6 x) | .nbSum x => some (encNbT 7 x) | .nbDot x => some (encNbT 8 x)
  | .nbFence g => some (encA 0x2d g 0 0 0 9)
  | .qpush x => some (encA 0x2e x.g 0 x.a x.b 0) | .qpop x => some (encA 0x2e x.g x.a x.b x.c 1)
  | .qroom x => some (encA 0x2e x.g x.d x.b 0 2)
  | .lkSend x => some (encA 0x2f x.g x.a 0 0 0) | .lkRecv x => some (encA 0x2f x.g x.a 0 0 1)
  | .lkAred x => some (encA 0x2f x.g x.a 0 x.c (x.t.code * 8 + 2))
  | .lkWait x => some (encA 0x2f x.g x.a x.b x.c 3) | .lkAbort x => some (encA 0x2f x.g x.a 0 0 4)
  | _ => none

/-- The word of a sequencer instruction. -/
def encode (i : Instr) : Option (BitVec 32) := (encodeNat i).map (BitVec.ofNat 32)

/-- R265: the number of a row's word. -/
def encodeRowNat (code : Nat) (r : Row) : Nat :=
  r.stage.toNat * 2 ^ 57 + r.slot.toNat * 2 ^ 52 + code * 2 ^ 44 + r.dest.toNat * 2 ^ 37 + r.srcA.toNat * 2 ^ 29
    + r.srcB.toNat * 2 ^ 21 + r.srcC.toNat * 2 ^ 13 + r.mod.toNat * 2 ^ 9 + r.guard.toNat * 2 ^ 6 + r.aux.toNat

/-- The 64 bits of a fabric row. -/
def encodeRow (i : Instr) : Option (BitVec 64) :=
  i.rowParts.map fun (code, r) => BitVec.ofNat 64 (encodeRowNat code r)

/-- The opcode table's numbering: 32 bits are a sequencer word, 64 a fabric row. -/
def decodeTableWord (nbits w : Nat) : Option Instr :=
  if nbits == 64 then decodeRow (BitVec.ofNat 64 w)
  else match decode (BitVec.ofNat 32 w) with
    | .ok i => some i
    | _ => none

end Sys2Proof
end

