-- ==== Sys2Proof/Machine/State.lean ====
section
/-! DEFINITION. Everything the spec gives the module, as plain data, and State.reset. Each field names its rule. -/

namespace Sys2Proof.Machine

/-- Bytes by address, addresses strictly rising, no entry equal to zero, which an unlisted address reads as. -/
abbrev Memory := List Host.Cell

/-- A sparse table: entries by number, numbers strictly rising; an unlisted number holds the table's default. -/
abbrev Tab (α : Type) := List (Nat × α)

/-! ### The sequencer (03_registers_sequencer.md) -/

/-- A general register: data and four two-bit residues (R71). -/
structure GReg where
  data : Word := 0
  res : BitVec 8 := 0
deriving DecidableEq, Repr

/-- Whether the next word stands in a delay slot, and of what transfer (R41, R296). -/
inductive SlotKind | none | untaken | taken
deriving DecidableEq, Repr

/-- A mismatch a check found: the lowest quarter, the residue predicted and the one found (R68, R215). -/
structure ResBad where
  lane : Fin 16
  pred : BitVec 2
  found : BitVec 2
deriving DecidableEq, Repr

/-- An operand-log entry (R76); `val` and `flags` are the result in flight, which the hardware holds in the unit, and
`addr` and `bad` what a late fault's record names; `again` marks an entry that is to be reissued (R42, R217). -/
structure LogEntry where
  word : BitVec 32
  pcw : VAddr
  srcA : GReg
  srcB : GReg
  srcC : GReg
  dest : BitVec 6
  remain : Nat
  fault : Cause := 0
  again : Bool := false
  val : Word := 0
  flags : Flags := 0
  addr : Word := 0
  bad : Option ResBad := none
  phase : Option (BitVec 16 × BitVec 32) := none
deriving DecidableEq, Repr

/-- R73: one loop level. -/
structure LoopLevel where
  lb : VAddr := 0
  le : VAddr := 0
  lc : Word := 0
deriving DecidableEq, Repr

/-- R80: the trap registers. `kind` says in what slot the word at `pc` stands, as long as no write has moved it (log 32). -/
structure TrapRegs where
  vec : VAddr := 0
  pc : VAddr := 0
  npc : VAddr := 0
  done : Bool := false
  reg : Bool := false
  slot : BitVec 2 := 0
  cause : Cause := 0
  info : Word := 0
  kind : Option SlotKind := none
deriving DecidableEq, Repr

/-- R290: an ARITH that is due: the flags of the results that landed, and the word and address of the earliest of them. -/
structure ArithDue where
  flags : Flags
  pcw : VAddr
  word : BitVec 32
deriving DecidableEq, Repr

/-- R82: FFLAGS and RMODE. -/
structure FpRegs where
  enable : Flags := 0
  sticky : Flags := 0
  ftz : Bool := false
  mode : BitVec 2 := 0
deriving DecidableEq, Repr

/-- R83: the identity registers. -/
structure Ident where
  asid : BitVec 16 := 0
  vfid : BitVec 6 := 0
  cellid : BitVec 15 := 0
  rank : BitVec 15 := 0
  origin : BitVec 15 := 0
  gangshape : Word := 0
  codebase : VAddr := 0
  codelen : BitVec 32 := 0
  ctxtab : VAddr := 0
  gangbm : Vector Word 4 := Vector.replicate 4 0
deriving DecidableEq, Repr

/-- R85: ERRINJ. -/
structure ErrInj where
  seq : Bool := false
  cls : BitVec 4 := 0
  lane : BitVec 2 := 0
  pe : BitVec 2 := 0
  arm : Bool := false
deriving DecidableEq, Repr

/-- The sequencer's registers (R71 to R86). -/
structure Seq where
  g : Vector GReg 32 := Vector.replicate 32 {}
  p : BitVec 8 := 1
  loops : Vector LoopLevel 4 := Vector.replicate 4 {}
  lact : BitVec 4 := 0
  pc : VAddr := 0
  npc : VAddr := 0
  slot : SlotKind := .none
  log : List LogEntry := []
  arith : Option ArithDue := none
  testm : Bool := false
  fw : Bool := false
  intrap : Bool := false
  trap : TrapRegs := {}
  fp : FpRegs := {}
  traceFn : Bool := false
  traceEn : Bool := false
  traceMark : Bool := false
  id : Ident := {}
  yreq : Bool := false
  ydeadline : BitVec 32 := 0
  errinj : ErrInj := {}
deriving DecidableEq, Repr

/-! ### Processing elements and region slots (04_registers_fabric.md) -/

/-- R89: a register value. -/
structure FVal where
  data : Word := 0
  p : Bool := true
  flags : Flags := 0
  res : BitVec 8 := 0
deriving DecidableEq, Repr

/-- R95: an accumulator row; `int` is TYPE INT32. -/
structure Acc where
  data : BitVec 256 := 0
  int : Bool := false
  flags : Flags := 0
  res : BitVec 32 := 0
deriving DecidableEq, Repr

/-- R97: a weight bank. -/
structure WBank where
  fmt : BitVec 4 := 0
  elem : Vector Word 8 := Vector.replicate 8 0
  rsc : Vector (BitVec 16) 8 := Vector.replicate 8 0
  t : BitVec 32 := 0
  res : BitVec 64 := 0
deriving DecidableEq, Repr

/-- R99: an address counter. -/
structure AddrCtr where
  s1 : BitVec 20 := 0
  s0 : BitVec 20 := 0
  n0 : BitVec 16 := 1
  base : BitVec 19 := 0
deriving DecidableEq, Repr

/-- R363: one LUT program. -/
structure Lut where
  tt : Word := 0
  sel : List (BitVec 8) := []
deriving DecidableEq, Repr

/-- The functional units of R30 and R93. -/
inductive FUnit | alu | lut | mem | fvs | fvl | xc | dot | acr | wld
deriving DecidableEq, Repr

/-- R94: what a landing slot holds. -/
inductive Payload
  | reg (v : FVal)
  | acc (a : Acc)
  | bank (w : WBank)
deriving DecidableEq, Repr

/-- R93, R94: a landing slot, with the row and region cycle its record would name. -/
structure LandSlot where
  unit : FUnit
  remain : Nat
  bad : Bool := false
  dest : BitVec 7
  slot : BitVec 5
  stage : BitVec 7
  inst : BitVec 48
  pay : Payload
  row : BitVec 64
  k : Fin 4
deriving DecidableEq, Repr

/-- One processing element (R89 to R101) with the rows of its image (R320). -/
structure PE where
  v : Vector FVal 64 := Vector.replicate 64 {}
  bus : FVal := {}
  slots : List LandSlot := []
  acc : Vector Acc 8 := Vector.replicate 8 {}
  bank : Vector WBank 2 := Vector.replicate 2 {}
  act : Bool := false
  ac : Vector AddrCtr 4 := Vector.replicate 4 {}
  luts : List Lut := []
  ff : BitVec 16 := 0
  xs : BitVec 32 := 1
  rows : List (BitVec 64) := []
deriving DecidableEq, Repr

/-- R104: STATE of a region slot. -/
inductive RState | empty | ready | running | done | failed | held
deriving DecidableEq, Repr

/-- R103: the first-fault latch when V = 1. -/
structure FirstFault where
  flags : Flags
  pe : Fin 4
  stage : BitVec 7
  slot : BitVec 5
  inst : BitVec 48
deriving DecidableEq, Repr

/-- R102 to R105: a region slot. `stopRc` is the boundary at which issue ends early (R36, R37, R324), `delay` the cycles
until the first region cycle, the current one included, `stopofs` STOPOFS of R167. -/
structure Region where
  conf : Bool := false
  peset : BitVec 4 := 0
  s : BitVec 7 := 0
  ii : BitVec 6 := 0
  ten : Flags := 0
  ftz : Bool := false
  rimg : VAddr := 0
  rc : Word := 0
  rn : BitVec 48 := 0
  rb : BitVec 6 := 0
  sink : Flags := 0
  ph : Option (BitVec 16) := none
  ffl : Option FirstFault := none
  cause : Cause := 0
  cut : Bool := false
  state : RState := .empty
  pool : Vector Word 128 := Vector.replicate 128 0
  stopRc : Option Nat := none
  launchPc : VAddr := 0
  stopofs : Nat := 0
  delay : Nat := 0
  relAt : Option Nat := none
deriving DecidableEq, Repr

/-! ### Local memories and engines of a cell (05_memories_local.md, 10_queues_engines_traps.md) -/

/-- R117: an instruction-cache line; `parityBad` marks a word whose parity fails. -/
structure ILine where
  tag : Nat
  asid : BitVec 16
  data : Line
  parityBad : Bool := false
deriving DecidableEq, Repr

/-- R118: a data-cache line; `tag` is VA[47:7], and `past` says that the cell's own copy engine has written the line in global
memory since (R149, R150). -/
structure DLine where
  tag : Nat
  asid : BitVec 16
  data : Line
  parityBad : Bool := false
  past : Bool := false
deriving DecidableEq, Repr

/-- R221 to R226: where a line or page goes: a DPA or, with `host`, a host address; its C bit. -/
structure Trans where
  addr : Nat
  host : Bool := false
  cbit : Bool := true
deriving DecidableEq, Repr

/-- R120: a write-combining entry, its mask by byte, the translation of its line, and which of its 64-byte granules are
uncorrectable. -/
structure WcbEntry where
  tag : Nat
  asid : BitVec 16
  data : Line
  mask : BitVec 128
  trans : Trans
  bad : BitVec 2 := 0
deriving DecidableEq, Repr

/-- R111: who has an access of class 3 or 4 to a bank word pending: the cell's copy engine, that of another cell with a
CP.XFR, its link operation, a near-bank command, or a completion word whose operation has left its queue (R211). -/
inductive SpWho | copy | xfr (src : Nat) | link | nb (id : Nat) | word
deriving DecidableEq, Repr

/-- R111: a pending access of class 3 or 4 to a bank word: a write of `size` bytes, or a read where `size` is 0; `count` is
how often in a row its bank has been refused. -/
structure SpReq where
  who : SpWho
  cls : Nat
  off : Nat
  size : Nat := 0
  val : Nat := 0
  count : Nat := 0
deriving DecidableEq, Repr

/-- R200: a copy command between two chunks, with the source words or the destination words of a chunk pending, or with its
completion word pending. -/
inductive CopyStage | idle | reading | writing | ending
deriving DecidableEq, Repr

/-- R199: a copy command, with PROGRESS of R166; `gath` is the gather descriptor once its first chunk has read it (R329),
`got` the scratchpad words that the chunk in progress has read, none for an uncorrectable one. -/
structure CopyCmd where
  gaddr : Word
  soff : Nat
  run : Nat
  nrun : Nat
  gstride : BitVec 32
  sstride : BitVec 32
  cwoff : Nat
  cval : BitVec 56
  op : Fin 8
  dir : Bool
  pattern : Word
  progress : Nat := 0
  gath : List Byte := []
  stage : CopyStage := .idle
  got : List (Nat × Option Word) := []
deriving DecidableEq, Repr

/-- R336, R337: which words of a link operation are pending: none; BUF as it is read for step 0, the records formed of it,
the source of its message, the records that a received segment is added to, their sums, the records of the root's segment,
its rounded values, the bytes of a received message; or its completion word. -/
inductive LinkPhase | rest | form | formed | source | adding | added | root | rooted | taking | ending
deriving DecidableEq, Repr

/-- R208: a link operation, with PROGRESS; `started` while it executes, `noSend` and `noRecv` once its send or its receive waits on
a port that has gone down, from which only an abort ends it (R206, R253), `got` the words read in its phase and `msg` the message it has received. -/
structure LinkCmd where
  group : BitVec 16
  tag : BitVec 16
  round : BitVec 32
  port : Fin 32
  rport : Fin 32
  m : Nat
  pos : Nat
  dcell : BitVec 15
  op : Fin 4
  bf16 : Bool
  step : Nat
  boff : Nat
  len : Nat
  woff : Nat
  cwoff : Nat
  cval : BitVec 56
  started : Bool := false
  noSend : Bool := false
  noRecv : Bool := false
  sent : Bool := false
  rcvd : Bool := false
  progress : Nat := 0
  phase : LinkPhase := .rest
  got : List (Nat × Option Word) := []
  msg : List Byte := []
deriving DecidableEq, Repr

/-- R40: why the sequencer is frozen; `mem` names the request whose answer ends the freeze. -/
inductive Freeze | none | bank | ifetch | logFull | mem (id : Nat) | accept | wait
deriving DecidableEq, Repr

/-- R17: the binding of a cell: function, queue, record, gang. -/
structure Binding where
  vf : Fin 64
  q : BitVec 8
  slot : Nat
  gang : Nat
deriving DecidableEq, Repr

/-- R161, R162: a stop in progress or made; `code` is the frame's, `atSeq` says that the sequencer itself took the cause, so
that it stands where it stopped (R41), `fresh` that the cycle in which it began is not over (R315, R317, R347), `await` is the
SEQ of a replayable record. -/
structure Stop where
  code : Cause
  cycle : Nat
  atSeq : Bool := false
  seqAck : Bool := false
  fresh : Bool := true
  saved : Bool := false
  discard : Bool := false
  await : Option (BitVec 32) := none
deriving DecidableEq, Repr

/-- R242: one PMC event occurrence of a cycle: code, region slot if any, how many. -/
structure PmcEvent where
  code : Nat
  slot : Option (Fin 4)
  n : Nat
deriving DecidableEq, Repr

/-- R242: PSEL. -/
structure PSel where
  en : Bool := false
  rslot : BitVec 2 := 0
  rsel : Bool := false
  event : BitVec 8 := 0
deriving DecidableEq, Repr

/-- R244: the error counters of a cell. -/
structure CellEc where
  spad : BitVec 32 := 0
  icp : BitVec 32 := 0
  dcp : BitVec 32 := 0
  resid : BitVec 32 := 0
deriving DecidableEq, Repr

/-- R245 to R247: the trace state of a cell: pending outcome bits, oldest first, and the START that is due. -/
structure TraceSt where
  bits : List Bool := []
  due : Option (BitVec 2) := none
  moved : Option (BitVec 15) := none
deriving DecidableEq, Repr

/-- R111: a bank refused to an access of the sequencer (class 2) or of a signal-store (class 3) and how often in a row. -/
structure Refusal3 where
  cls : Nat
  bank : Nat
  count : Nat
deriving DecidableEq, Repr

/-- A cell. `opword` is the word that the sequencer issues or is frozen at, `hold` what a frozen instruction keeps (log 4);
`restart` says that a resumed cell has not yet issued its first word (R173), `fired` that its regions have issued in this
cycle (R161), `fpLanded` the floating-point results that have landed in this cycle (R290); `puts` are the accesses to its
scratchpad that operations have pending, in the order in which they came (R111). -/
structure CellSt where
  seq : Seq := {}
  pe : Vector PE 4 := Vector.replicate 4 {}
  region : Vector Region 4 := Vector.replicate 4 {}
  freeze : Freeze := .none
  opword : BitVec 32 := 0
  hold : List Word := []
  bound : Option Binding := none
  prevVf : Option (Fin 64) := none
  halted : Bool := false
  stop : Option Stop := none
  replay : Bool := false
  restart : Bool := false
  fired : Bool := false
  spad : Memory := []
  ecc : List (Nat × Bool) := []
  scrub : List Nat := []
  banks : List Nat := []
  refused : List Refusal3 := []
  puts : List SpReq := []
  icache : List ILine := []
  dcache : List DLine := []
  wcb : List WcbEntry := []
  copyq : List CopyCmd := []
  linkq : List LinkCmd := []
  ccyc : Word := 0
  pmc : Vector Word 8 := Vector.replicate 8 0
  psel : Vector PSel 8 := Vector.replicate 8 {}
  events : List PmcEvent := []
  timeSet : Option (BitVec 6 × Word) := none
  ec : CellEc := {}
  trace : TraceSt := {}
  issued : Bool := false
  wrote : List (BitVec 6) := []
  fpLanded : List ArithDue := []
deriving DecidableEq, Repr

/-! ### Global memory (06_memories_global.md) -/

/-- R127, R128: a valid LLS line. `poison` marks its two granules (R141), `syn` is its line check XOR the CRC of its data
(R138); `soft` and `hard` mark the 16-byte units with a correctable and with an uncorrectable error (R142). -/
structure LlsLine where
  data : Line
  dirty : Bool := false
  poison : BitVec 2 := 0
  writer : Option (Fin 64) := none
  multi : Bool := false
  syn : BitVec 16 := 0
  soft : BitVec 8 := 0
  hard : BitVec 8 := 0
deriving DecidableEq, Repr

/-- R139: metadata of a 64-byte granule: VER, POISON, how many symbols are bad, and LC XOR the CRC of the line. -/
structure Granule where
  ver : BitVec 8 := 0
  poison : Bool := false
  badSyms : Nat := 0
  syn : BitVec 16 := 0
deriving DecidableEq, Repr

/-- R144, R146: what a request asks of its home slice; `off` is the byte in the line. -/
inductive ReqKind
  | read
  | fill
  | fetch
  | alloc
  | write (mask : BitVec 128) (data : Line) (drain : Bool) (bad : BitVec 2)
  | mwc (mask : BitVec 128) (data : Line)
  | atomic (op : Fin 16) (off size : Nat) (b cmp : Word)
deriving DecidableEq, Repr

/-- Where a request stands: with the translation agent, at its home slice, answered, or failed with a cause. -/
inductive ReqStage | walk | slice | done | failed (c : Cause)
deriving DecidableEq, Repr

/-- A request of a cell's sequencer (R129, R226, R300); `grans` are the granules whose poison a read or fill would meet,
`bad` the poisoned granules of the line that came (R141), `noted` marks a drain whose lost source has its record (R233). -/
structure Req where
  cell : Nat
  kind : ReqKind
  line : Nat
  asid : BitVec 16
  vf : Fin 64
  q : BitVec 8
  need : BitVec 3
  trans : Trans := { addr := 0 }
  stage : ReqStage := .walk
  data : Line := 0
  old : Word := 0
  grans : BitVec 2 := 3
  bad : BitVec 2 := 0
  noted : Bool := false
deriving DecidableEq, Repr

/-- R131: a line the host holds. -/
structure DirEntry where
  line : Nat
  owned : Bool
deriving DecidableEq, Repr

/-- R131: a recall in progress and its deadline in device time. -/
structure Recall where
  line : Nat
  deadline : Nat
deriving DecidableEq, Repr

/-- R131, R141, R233: what a port returned to the last host read: the line, its data, and the CXL poison indication. -/
structure HostResp where
  line : Nat
  data : Line
  poison : Bool
deriving DecidableEq, Repr

/-- R226: a leaf a translation agent holds. -/
structure TlbEntry where
  die : Fin 16
  asid : BitVec 16
  base : Nat
  size : Nat
  pte : Word
deriving DecidableEq, Repr

/-- R226: a non-leaf entry a walk cache holds, for the table reached by VA[47:39+...] at a level. -/
structure WalkEntry where
  die : Fin 16
  asid : BitVec 16
  level : Fin 4
  vpre : Nat
  pte : Word
deriving DecidableEq, Repr

/-- R226: a walk in progress at an agent, which waits for the line of an entry: its ASID and VA[47:16]. -/
structure Walking where
  die : Fin 16
  asid : BitVec 16
  page : Nat
deriving DecidableEq, Repr

/-- R225. -/
structure AsidEntry where
  valid : Bool := false
  vf : BitVec 6 := 0
  root : BitVec 29 := 0
deriving DecidableEq, Repr

/-- R227: a shootdown in progress: how many of its passes are done, and the first request number that is younger than
the last of them. -/
structure Shoot where
  asid : BitVec 16
  range : Option (Nat × Nat)
  passes : Nat := 0
  upto : Nat := 0
deriving DecidableEq, Repr

/-- R229: STATE of a migration entry. -/
inductive MigState | free | armed | active | lost
deriving DecidableEq, Repr

/-- R229: a migration entry. -/
structure MigEntry where
  state : MigState := .free
  filled : Nat := 0
  big : Bool := false
  oh : Bool := false
  old : Word := 0
  new : BitVec 41 := 0
  bmap : BitVec 41 := 0
deriving DecidableEq, Repr

/-- R135, R202: where a near-bank command stands: at its controller, with its busy ranges recorded and host copies being
recalled, in the bank queues, with the results of SUM and DOT or with its completion word being written. -/
inductive NbStage | accepted | recalling | executing | results | finished
deriving DecidableEq, Repr

/-- R331, R332: a near-bank command. `rows` pairs the row addresses of each position once checked; `out` collects the
results of SUM and DOT, `info` the paths used, `bad` the first row found poisoned; `buf` holds the rows of a copy between
banks that have been read and not written, with their poisoned granules (R134, R202); `seen` is the number that its translations took among those of the requests (R227). -/
structure NbCmd where
  id : Nat
  cell : Nat
  vf : Fin 64
  q : BitVec 8
  asid : BitVec 16
  op : Fin 16
  bf16 : Bool
  dbase : Word
  xbase : Word
  ybase : Word
  dstride : BitVec 32
  xstride : BitVec 32
  ystride : BitVec 32
  count : Nat
  alpha : BitVec 32
  roff : Nat
  cwoff : Nat
  cval : BitVec 56
  ctrls : List Nat
  stage : NbStage := .accepted
  cause : Cause := 0
  rows : List (Option Nat × Option Nat × Option Nat) := []
  left : Nat := 0
  out : List (Nat × BitVec 32) := []
  info : BitVec 4 := 0
  bad : Option Nat := none
  buf : List (Nat × List Byte × List Bool) := []
  seen : Nat := 0
deriving DecidableEq, Repr

/-- R202: what a per-bank command does for one position of its parent's lists; `src` marks the read of a source row that a copy
writes in another bank. -/
structure BankAct where
  j : Nat
  src : Bool := false
deriving DecidableEq, Repr

/-- R132, R202: a per-bank command: its parent, its bank, and what it has left to do, position by position. -/
structure BankCmd where
  id : Nat
  stack : Nat
  chan : Nat
  bank : Nat
  acts : List BankAct
deriving DecidableEq, Repr

/-- R306, R307: a signal-store in flight; `started` once it has asked for its first bank, from when on a later arrival at
its target waits (R112); `id` is the number that the next request had when it was sent (R147). -/
structure Signal where
  src : Nat
  dst : Nat
  addr : Nat
  words : List Word
  sig : Bool
  vf : Fin 64
  q : BitVec 8
  started : Bool := false
  id : Nat := 0
deriving DecidableEq, Repr

/-- The memory side of the module; `hostBad` are the poisoned granules of host lines (R212), `timedOut` are the lines whose recalls have timed out, with the cycle (R131). -/
structure MemSt where
  dram : Memory := []
  host : Memory := []
  hostBad : Tab (BitVec 2) := []
  gran : Tab Granule := []
  lls : Tab LlsLine := []
  dir : List DirEntry := []
  recalls : List Recall := []
  timedOut : List (Nat × Nat) := []
  hostResp : Option HostResp := none
  reqs : Tab Req := []
  nextReq : Nat := 0
  tlb : List TlbEntry := []
  walks : List WalkEntry := []
  walking : List Walking := []
  asids : Tab AsidEntry := []
  shoots : Tab Shoot := []
  nextShoot : Nat := 0
  mig : Tab MigEntry := []
  nb : List NbCmd := []
  bankQ : List BankCmd := []
  nextNb : Nat := 0
  signals : List Signal := []
  skinkPos : Nat := 0
  skinkPeriod : Word := 86400000000000
  ecLls : BitVec 32 := 0
  ecHbm : BitVec 32 := 0
deriving DecidableEq, Repr

/-! ### Functions, queues and dispatch (09, 10, 11) -/

/-- R236: FSTATE. -/
inductive FState | disabled | enabled | frozen | resetting
deriving DecidableEq, Repr

/-- R214, R218: a trap queue's or the error log's registers. -/
structure TrapQ where
  base : BitVec 29 := 0
  en : Bool := false
  sizelog : BitVec 4 := 4
  tail : BitVec 32 := 0
  head : BitVec 32 := 0
  action : BitVec 2 := 0
  respSeq : BitVec 32 := 0
  lost : BitVec 16 := 0
  nextseq : BitVec 32 := 1
deriving DecidableEq, Repr

/-- R215: the fields of a trap record; `gang`, which the record in memory does not hold, is the gang of its cell. -/
structure Record where
  cause : Cause
  cls : BitVec 2
  reg : Bool := false
  rslot : BitVec 2 := 0
  vf : BitVec 6 := 0
  q : BitVec 8 := 0
  cell : BitVec 15 := 0x7fff
  pe : BitVec 2 := 0
  lane : BitVec 4 := 0
  point : BitVec 8 := 0
  slot : BitVec 5 := 0
  stage : BitVec 7 := 0
  inst : BitVec 48 := 0
  rcyc : Word := 0
  pc : VAddr := 0
  opword : Word := 0
  addr : Word := 0
  info : Word := 0
  gang : Option Nat := none
deriving DecidableEq, Repr

/-- R216, R217: a replayable record that has been written and awaits its response: its SEQ, its cell, that cell's gang, and its
cause. -/
structure Await where
  seq : BitVec 32
  cell : Nat
  gang : Option Nat := none
  cause : Cause := 0
deriving DecidableEq, Repr

/-- R194: a function's mailbox. -/
structure Mailbox where
  req : Vector Word 3 := Vector.replicate 3 0
  dropped : Bool := false
  seq : BitVec 32 := 0
  doneSeq : BitVec 32 := 0
  ovfcnt : BitVec 16 := 0
  ovf : Bool := false
  result : BitVec 8 := 0
deriving DecidableEq, Repr

/-- R236: a function, with its trap queue (R214), mailbox (R194) and trace count (R245); `held` and `await` are its
replayable records held, and written and awaiting a response (R216, R217), `found` the records detected in the current
foundation cycle and `due` those that are to enter the queue, in their order (R216); `flrDone` is what its configuration space shows
of a function-level reset; `disabling` says that the reset under way ends in DISABLED (R237). -/
structure Fn where
  window : BitVec 25 := 0
  blockmask : BitVec 256 := 0
  fatal : Word := 0
  trcsize : BitVec 32 := 0
  trcbase : BitVec 41 := 0
  asidcnt : BitVec 16 := 0
  asidbase : BitVec 16 := 0
  wqcnt : BitVec 16 := 0
  wqbase : BitVec 16 := 0
  phcnt : BitVec 17 := 0
  phbase : BitVec 16 := 0
  ybudget : BitVec 32 := 65536
  bypassLimit : BitVec 8 := 8
  flrseq : BitVec 32 := 0
  tracefn : Bool := false
  testm : Bool := false
  state : FState := .disabled
  tq : TrapQ := {}
  found : List Record := []
  due : List Record := []
  held : List Record := []
  await : List Await := []
  mbox : Mailbox := {}
  trcwr : Word := 0
  msix : Nat := 0
  flrDone : Bool := false
  disabling : Bool := false
deriving DecidableEq, Repr

/-- R234: a phaser. -/
structure Phaser where
  scope : BitVec 3 := 0
  dsw : Int := 0
  dwait : Int := 0
  dsig : Int := 0
  nsw : Nat := 0
  nwait : Nat := 0
  nsig : Nat := 0
  arrived : Nat := 0
  phase : BitVec 32 := 0
deriving DecidableEq, Repr

/-- R184: STATE of a launch queue. -/
inductive QState | free | active | frozen | resetting
deriving DecidableEq, Repr

/-- R181: how far a record has come: `live` is started, `ended` has only its completion word to write. -/
inductive RecStage | parsed | ready | live | ended
deriving DecidableEq, Repr

/-- R178, R179: a parsed record that is not complete; `line0` and `line1` are its lines as read, `slot` its first slot,
counted on from lap to lap of the ring, so that no two records share it. -/
structure Rec where
  slot : Nat
  kind : BitVec 4
  line0 : Line
  line1 : Line := 0
  age : Nat
  stage : RecStage := .parsed
  blocks : List Nat := []
  waitVa : List (Option Trans) := []
  waitSt : List Nat := []
  cause : Cause := 0
deriving DecidableEq, Repr

/-- R184: a launch queue's state block, with the records parsed and not complete; `lap` counts the slots of the laps that
HEAD has completed, and `freeAt` is the ANOPASS from which a block that has been unlinked may be used again (R185). -/
structure Queue where
  next : Option Nat := none
  lgen : Word := 0
  prio : Fin 8 := 0
  state : QState := .free
  cancel : Bool := false
  resv : Bool := false
  par : Bool := true
  fwq : Bool := false
  ringlog : Nat := 0
  ringofs : Nat := 0
  head : Nat := 0
  lap : Nat := 0
  fidx : BitVec 16 := 0
  fcause : Cause := 0
  inflight : Nat := 0
  bypass : Nat := 0
  asid : BitVec 16 := 0
  lastseq : BitVec 32 := 0
  age : Nat := 0
  savearea : Nat := 0
  freeAt : Nat := 0
  recs : List Rec := []
  drain : Option (BitVec 8) := none
deriving DecidableEq, Repr

/-- R185: a run list's head. -/
structure RunHead where
  next : Option Nat := none
  lgen : Word := 0
deriving DecidableEq, Repr

/-- R186: where the Anole's walk stands: on the list of a priority, at a link (none for the head) with the LGEN it was read with, and
the queue that it examines next. -/
structure Walk where
  list : Fin 8 := 7
  link : Option Nat := none
  node : Option Nat := none
  gen : Word := 0
deriving DecidableEq, Repr

/-- R172, R181, R189: how a gang stands. -/
inductive GangSt | running | stopping | held
deriving DecidableEq, Repr

/-- What a stop knows of a region slot while its RC is `rc`: the boundary at which its issue ends early (R324), how long it has
drained (R38), and the address of its LAUNCH (R215). -/
structure RegionNote where
  rc : Word
  stopRc : Option Nat := none
  drained : Nat := 0
  launchPc : VAddr := 0
deriving DecidableEq, Repr

/-- What a stop knows of a rank beyond its frame: in what slot the next word and the word at TRAPPC stand (R41), the operand
log with its results in flight (R287), and what it knows of each region slot. It serves while the frame still says what it said (log 32). `aborts` are the rounds aborted
since the frame was saved (R211), `words` the uncorrectable words of the scratchpad (R113). -/
structure StopNote where
  rank : Nat
  pc : VAddr
  npc : VAddr
  slot : SlotKind
  trapPc : VAddr
  trapNpc : VAddr
  trap : Option SlotKind
  log : List LogEntry
  regions : List RegionNote
  aborts : List (BitVec 16 × BitVec 32) := []
  words : List Nat := []
deriving DecidableEq, Repr

/-- A bound or held gang: its record, its shape, its cells in rank order, and what its stop left: the cells whose frames
are saved, the ranks that had halted, those of them whose regions had completed and those that have stopped for a fatal cause
and left a fenced die (R239); `area` numbers the gang within its queue's save area (log 31), and `finished` says that its
kernel has completed while a cell is kept for inspection (R181). -/
structure Gang where
  vf : Fin 64
  q : BitVec 8
  slot : Nat
  kind : Bool
  w : Nat
  h : Nat
  blocks : List Nat
  cells : List Nat
  state : GangSt := .running
  image : Bool := false
  age : Nat
  fatal : Option Cause := none
  saved : List Nat := []
  halts : List Nat := []
  idle : List Nat := []
  area : Nat := 0
  notes : List StopNote := []
  finished : Bool := false
deriving DecidableEq, Repr

/-- R188: cells reserved for a record, a queue's ready KERNEL or a held gang, which ranks by PRIO and AGE. -/
structure Reserve where
  vf : Fin 64
  q : BitVec 8
  gang : Option Nat := none
  cells : List Nat
  prio : Nat := 0
  age : Nat := 0
deriving DecidableEq, Repr

/-- R191: an armed timer; `slot` the record of a one-shot timer. -/
structure Timer where
  id : Nat
  vf : Fin 64
  q : BitVec 8
  slot : Option Nat
  wq : BitVec 16
  tag : BitVec 16
  when_ : Nat
  period : Nat
  payload : BitVec 256
  released : Nat := 0
  queued : Bool := false
deriving DecidableEq, Repr

/-- R193: who waits for room in a work queue, in order of arrival. -/
inductive Appender
  | cell (c : Nat)
  | record (vf : Fin 64) (q : BitVec 8) (slot : Nat)
  | timer (id : Nat)
deriving DecidableEq, Repr

/-- R193: a work queue that firmware has created. -/
structure WorkQ where
  m : Nat
  base : Nat
  head : Nat := 0
  tail : Nat := 0
  sleepers : List Nat := []
  appenders : List Appender := []
deriving DecidableEq, Repr

/-- R195: a journal entry. -/
structure JEntry where
  seq : BitVec 32
  vf : Fin 64
  r0 : Word
  r1 : Word
  r2 : Word
  auto : Bool := false
deriving DecidableEq, Repr

/-- R238, R239: DSTATE. -/
inductive DState | online | fencing | fenced | resetting
deriving DecidableEq, Repr

/-- R238, R245: a cell die's availability and trace collector; `lost` counts by cell the packets a full buffer refused,
`drops` those an unusable ring lost. `result` is RESULT of firmware's last request for the
die, and `reload` the USABLE that the reset under way loads (R239). -/
structure Die where
  state : DState := .online
  usable : BitVec 1600 := 0
  resets : BitVec 16 := 0
  trace : List (BitVec 6 × BitVec 64) := []
  lost : Tab (BitVec 32) := []
  drops : Tab (BitVec 32) := []
  result : Cause := 0
  reload : Option (BitVec 1600) := none
deriving DecidableEq, Repr

/-- The dispatcher's side of the module. -/
structure DispSt where
  phasers : Tab Phaser := []
  queues : Tab Queue := []
  heads : Vector RunHead 8 := Vector.replicate 8 {}
  anopass : Nat := 0
  walk : Walk := {}
  gangs : Tab Gang := []
  nextGang : Nat := 0
  reserves : List Reserve := []
  timers : List Timer := []
  nextTimer : Nat := 0
  wqs : Tab WorkQ := []
  journal : List JEntry := []
  seqNo : BitVec 32 := 0
  consumed : BitVec 32 := 0
deriving DecidableEq, Repr

/-! ### Links, clocks and power (10, 12, 13) -/

/-- R206, R253: STATE of a Gensel Link port. -/
inductive PortState | down | training | up
deriving DecidableEq, Repr

/-- R205: a Gensel Link flit that this module sends. `msg` is the message that its last flit completes, `cell` the sending
cell, `ackseq` and `credits` what it returns to the partner, `payload` the bytes of a message that it carries. -/
structure Flit where
  fseq : BitVec 16
  typ : BitVec 8
  msg : Option LinkMsg := none
  last : Bool := false
  cell : Nat := 0
  group : BitVec 16 := 0
  round : BitVec 32 := 0
  ackseq : BitVec 16 := 0
  credits : BitVec 16 := 0
  payload : List Byte := []
deriving DecidableEq, Repr

/-- R205 to R207, R252: a port. `missed` are the failed replays in a row of the partner's next flit. `waiting` holds the flits not yet sent, `replay` those sent and not acknowledged, `credits`
the flits the partner has room for, `fseq` the number of the next flit, `ackseq` the highest FSEQ received in order (0xffff before the first, log 99), `replayFrom` the flit a replay started at,
`nak` the last good FSEQ that a credit flit has named for a bad flit, until its successor comes, `freed` the CREDITS still to be
returned for the receive buffer, and `tryAt` the device time from which the next training attempt may start. -/
structure Port where
  state : PortState := .down
  lanes : Fin 5 := 0
  retrains : BitVec 16 := 0
  trained : Bool := false
  digest : BitVec 32 := 0
  fseq : BitVec 16 := 0
  ackseq : BitVec 16 := 0xffff
  credits : Nat := 0
  waiting : List Flit := []
  replay : List Flit := []
  replayFrom : Option (BitVec 16) := none
  nak : Option (BitVec 16) := none
  failed : Nat := 0
  unmatched : List LinkMsg := []
  freed : Nat := 0
  missed : Nat := 0
  tryAt : Nat := 0
deriving DecidableEq, Repr

/-- R254, R255, R240, R249, R250, R252: `romKey` is Delpel's public key in ROM, as RFC 8554 writes an LMS key (log 101). Clocks, power-on and identity; `ffrac` is the part of a foundation cycle that has passed,
in cycles of the arithmetic clock over its MHz, and `fbegun` how many have ended with the last cycle (R2). `ticked` says that a tick
of the timer wheel has come in this cycle (R191), `errDue` are the error-log records still to be written (R218), `report` the words of an attestation report still to be written (R254). -/
structure SysSt where
  devtime : Word := 0
  frac : Nat := 0
  cycle : Nat := 0
  mhz : Nat := 3300
  mhzLow : Nat := 3300
  bootStage : BitVec 8 := 1
  bootErr : BitVec 8 := 0
  bootDone : Bool := false
  stktrn : BitVec 16 := 0
  cxl : Vector CxlResult 2 := Vector.replicate 2 ⟨false, false, 0, 0⟩
  ports : Vector Port 32 := Vector.replicate 32 {}
  eclRetry : BitVec 32 := 0
  aborted : List (BitVec 16 × BitVec 32) := []
  attn : Vector Word 4 := Vector.replicate 4 0
  attaddr : BitVec 41 := 0
  cfgDigest : BitVec 256 := 0
  fwDigest : BitVec 256 := 0
  cfgVersion : BitVec 16 := 0
  fwVersion : BitVec 16 := 0
  idDigest : BitVec 256 := 0
  errLog : TrapQ := {}
  errDue : List Record := []
  ffrac : Nat := 0
  fbegun : Nat := 0
  ticked : Bool := false
  attgo : Bool := false
  report : List Word := []
  romKey : List Byte := []
deriving DecidableEq, Repr

/-! ### The order of steps (the model's own fields, log 4) -/

/-- R23: the firing a row acts for: cell, region slot, PE, instance, rb and region cycle; `quiet` when another row's cause
is the one the record of this cycle carries (R387). -/
structure Firing where
  cell : Nat := 0
  k : Fin 4 := 0
  pe : Fin 4 := 0
  inst : BitVec 48 := 0
  rb : BitVec 6 := 0
  rcyc : Word := 0
  quiet : Bool := false
deriving DecidableEq, Repr

/-- One step still to make in the current cycle: an event, the issue of a cell's next word, the start of a queue's
first unstarted record, the firing of a row, the bank cycles that a cell has left for classes 3 and 4, the hand-out of the
work queues' entries to their sleepers (R193), a last look of a wait whose cell has begun to stop (R315), or the end of the cycle. -/
inductive Task
  | event (i : Instr)
  | issue (c : Nat)
  | start (vf : Fin 64) (q : BitVec 8)
  | fire (f : Firing) (row : Instr)
  | banks (c : Nat)
  | hand
  | look (c : Nat)
  | endCycle
deriving DecidableEq, Repr

/-- Something the outside or an open timing brings, not before cycle `cycle`; `held` marks what has come and has to wait. -/
structure Input where
  cycle : Nat
  ev : Instr
  held : Bool := false
deriving DecidableEq, Repr

/-- The order of the module's steps. -/
structure Sched where
  tasks : List Task := []
  inputs : List Input := []
  cur : Nat := 0
  firing : Firing := {}
deriving DecidableEq, Repr

/-- The whole module. -/
structure State where
  cells : Tab CellSt := []
  mem : MemSt := {}
  fns : Tab Fn := []
  dies : Tab Die := []
  disp : DispSt := {}
  sys : SysSt := {}
  sched : Sched := {}
deriving DecidableEq, Repr

/-- Why a step stops with a fault. The spec gives every fault of the module a next state, so none is needed but this. -/
inductive Fault
  /-- A row fires that R271 rejects, so that no image that CFG accepts holds it. Safe: the spec says no such row ever
  takes effect. -/
  | rowRejected
deriving DecidableEq, Repr

/-- Why the model refuses a step. -/
inductive Refusal
  /-- The instruction has no meaning in this model yet. Safe: nothing is claimed of it. -/
  | notModelled (mnemonic : String)
deriving DecidableEq, Repr

/-- R236: the reset value of a function's entry. -/
def Fn.reset (n : Nat) : Fn :=
  if n == 0 then { blockmask := BitVec.allOnes 256, state := .enabled } else {}

/-- A signature of an empty image: leaf 0, one-time signatures of type 1, a tree of height 20 (type 8), and zeros (log 6). -/
def plainSignature : List Byte := [0, 0, 0, 0, 0, 0, 0, 1] ++ List.replicate 8512 0 ++ [0, 0, 0, 8] ++ List.replicate 640 0

/-- The public key under which that signature verifies: the types, an identifier of zeros and the root (log 6). -/
def plainKey : List Byte := [0, 0, 0, 8, 0, 0, 0, 1] ++ List.replicate 16 0 ++
  [0x9a, 0x94, 0x4c, 0x61, 0x74, 0x1c, 0x95, 0xe2, 0x10, 0x8b, 0x40, 0x8f, 0x0b, 0x0f, 0x24, 0x5a,
   0x52, 0x3a, 0xd3, 0x99, 0xb6, 0x07, 0x9d, 0xf9, 0xe2, 0x4d, 0x69, 0x77, 0xc5, 0xae, 0x63, 0x2c]

/-- The power-on step that runs first (R249): the images are empty and signed, every stack trains and every stage completes;
the cells that are usable are what the argument carries (log 6). -/
def PowerOnResult.plain : PowerOnResult :=
  { cfg := ⟨[], 0, plainSignature⟩, fw := ⟨[], 0, plainSignature⟩, floor := 0, puf := true, stk := 0xffff, cxl0 := ⟨true, true, 6, 16⟩,
    cxl1 := ⟨true, true, 6, 16⟩, usable := List.replicate 16 (BitVec.allOnes 1600), starts := true }

/-- The module right after reset: every field at the value the spec states, or that a log entry names. -/
def State.reset : State :=
  { sys := { romKey := plainKey }, sched := { tasks := [.event (.powerOn PowerOnResult.plain)] } }

end Sys2Proof.Machine
end

