-- ==== Sys2Proof/Machine/Tab.lean ====
section
/-! DEFINITION. Operations of the two containers of State: sparse tables by number, and canonical byte memories. -/

namespace Sys2Proof.Machine

/-- The entry of number `k`, or the default. -/
def tget {α : Type} (d : α) : Tab α → Nat → α
  | [], _ => d
  | (j, x) :: t, k => if k = j then x else tget d t k

/-- The entry of number `k`, if one is listed. -/
def tfind {α : Type} : Tab α → Nat → Option α
  | [], _ => none
  | (j, x) :: t, k => if k = j then some x else tfind t k

/-- Write the entry of number `k`, in order. -/
def tset {α : Type} : Tab α → Nat → α → Tab α
  | [], k, v => [(k, v)]
  | (j, x) :: t, k, v =>
    if k < j then (k, v) :: (j, x) :: t else if k = j then (k, v) :: t else (j, x) :: tset t k v

/-- Remove the entry of number `k`. -/
def terase {α : Type} : Tab α → Nat → Tab α
  | [], _ => []
  | (j, x) :: t, k => if k = j then terase t k else (j, x) :: terase t k

/-- The byte at an address; an unlisted one reads 0. -/
def mget : Memory → Nat → Byte
  | [], _ => 0
  | (b, w) :: t, a => if a = b then w else mget t a

/-- Write a byte, keeping the addresses rising and listing no zero. -/
def mset : Memory → Nat → Byte → Memory
  | [], a, v => if v = 0 then [] else [(a, v)]
  | (b, w) :: t, a, v =>
    if a < b then (if v = 0 then (b, w) :: t else (a, v) :: (b, w) :: t)
    else if a = b then (if v = 0 then t else (a, v) :: t)
    else (b, w) :: mset t a v

/-- The canonical form: addresses strictly rising, no listed zero. -/
def Memory.wf : Memory → Bool
  | [] => true
  | [(_, v)] => decide (v ≠ 0)
  | (a, v) :: (b, w) :: t => decide (a < b) && decide (v ≠ 0) && Memory.wf ((b, w) :: t)

/-- `n` bytes from an address up. -/
def mread (m : Memory) (a : Nat) : Nat → List Byte
  | 0 => []
  | n + 1 => mget m a :: mread m (a + 1) n

/-- Write bytes from an address up. -/
def mwrite (m : Memory) (a : Nat) : List Byte → Memory
  | [] => m
  | b :: t => mwrite (mset m a b) (a + 1) t

/-- The little-endian value of bytes (R7). -/
def leNat : List Byte → Nat
  | [] => 0
  | b :: t => b.toNat + 256 * leNat t

/-- The `n` little-endian bytes of a value. -/
def leBytes (v : Nat) : Nat → List Byte
  | 0 => []
  | n + 1 => BitVec.ofNat 8 v :: leBytes (v / 256) n

/-- A 64-bit word at an address. -/
def mword (m : Memory) (a : Nat) : Word := BitVec.ofNat 64 (leNat (mread m a 8))

/-- Write a 64-bit word. -/
def mwordSet (m : Memory) (a : Nat) (v : Word) : Memory := mwrite m a (leBytes v.toNat 8)

/-- The 128 bytes from an address as a line. -/
def mline (m : Memory) (a : Nat) : Line := BitVec.ofNat 1024 (leNat (mread m a 128))

/-- Write a line's bytes. -/
def mlineSet (m : Memory) (a : Nat) (v : Line) : Memory := mwrite m a (leBytes v.toNat 128)

end Sys2Proof.Machine
end

