-- ==== Sys2Proof/Machine/Bits.lean ====
section
/-! DEFINITION. Bit fields, sign extension, byte order, residues, CRC and the counting operations. -/

namespace Sys2Proof.Machine

/-- Bits [hi:lo] of a word as a number. -/
def wbits (w : Word) (hi lo : Nat) : Nat := bitsOf w.toNat hi lo

/-- A byte address in [47:0] from a word. -/
def vaOf (w : Word) : VAddr := w.setWidth 48

/-- The word address in [47:2]; bits [1:0] are zero (R75). -/
def wordAddr (w : Word) : VAddr := (w.setWidth 48 >>> 2) <<< 2

/-- Residue3 of a 16-bit quarter (R67). -/
def res3 (n : Nat) : BitVec 2 := BitVec.ofNat 2 (n % 65536 % 3)

/-- The residue field of quarter `q` of a data number. -/
def quarterRes (data q : Nat) : BitVec 2 := res3 (data / 65536 ^ q)

/-- The residues of the `n` quarters of a number, quarter q in [2q+1:2q]. -/
def resBits (data : Nat) : Nat → Nat
  | 0 => 0
  | n + 1 => (quarterRes data 0).toNat + 4 * resBits (data / 65536) n

/-- The four residues of a 64-bit value (R67). -/
def resOf (w : Word) : BitVec 8 := BitVec.ofNat 8 (resBits w.toNat 4)

/-- The lowest of `n` quarters whose residue field differs from its data, if any (R72). -/
def firstBad (data res : Nat) : Nat → Nat → Option (Nat × BitVec 2 × BitVec 2)
  | 0, _ => none
  | n + 1, q =>
    let p := BitVec.ofNat 2 res
    let f := quarterRes data 0
    if p = f then firstBad (data / 65536) (res / 4) n (q + 1) else some (q, p, f)

/-- R72, R91: the check of a 64-bit source. -/
def srcBad (data : Word) (res : BitVec 8) : Option ResBad :=
  match firstBad data.toNat res.toNat 4 0 with
  | some (q, p, f) => some ⟨Fin.ofNat 16 q, p, f⟩
  | none => none

/-- A general register holding a value with its own residues (R68). -/
def GReg.of (w : Word) : GReg := { data := w, res := resOf w }

/-- A register value with P set, no flags and its own residues (R26). -/
def FVal.of (w : Word) : FVal := { data := w, res := resOf w }

/-- Sign-extend the low `n` bits of a number to 64 bits. -/
def sextN (n v : Nat) : Word :=
  let x := v % 2 ^ n
  if x < 2 ^ (n - 1) then BitVec.ofNat 64 x else BitVec.ofInt 64 ((x : Int) - (2 ^ n : Nat))

/-- The signed value of the low `n` bits. -/
def sval (n v : Nat) : Int :=
  let x := v % 2 ^ n
  if x < 2 ^ (n - 1) then (x : Int) else (x : Int) - (2 ^ n : Nat)

/-- An integer modulo 2^n. -/
def wrapN (n : Nat) (v : Int) : Nat := (v % ((2 ^ n : Nat) : Int)).toNat

/-- Number of one bits among the low `n`. -/
def popN : Nat → Nat → Nat
  | 0, _ => 0
  | n + 1, v => v % 2 + popN n (v / 2)

/-- Trailing zero bits within `n`. -/
def ctzN : Nat → Nat → Nat
  | 0, _ => 0
  | n + 1, v => if v % 2 = 1 then 0 else 1 + ctzN n (v / 2)

/-- Leading zero bits within `n`. -/
def clzN : Nat → Nat → Nat
  | 0, _ => 0
  | n + 1, v => if v / 2 ^ n % 2 = 1 then 0 else 1 + clzN n v

/-- The bytes of the low `n` bytes in reverse order. -/
def bswapN (n v : Nat) : Nat := leNat (leBytes v n).reverse

/-- R138: CRC-16, polynomial 0x1021, most significant bit first, one bit. -/
def crc16Bit (crc : Nat) : Nat := if crc ≥ 0x8000 then (crc * 2 % 65536).xor 0x1021 else crc * 2

/-- R138: one byte into the CRC. -/
def crc16Byte (crc : Nat) (b : Byte) : Nat :=
  crc16Bit (crc16Bit (crc16Bit (crc16Bit (crc16Bit (crc16Bit (crc16Bit (crc16Bit (crc.xor (b.toNat * 256)))))))))

/-- R138: the line check of 128 bytes from byte 0, initial value 0xffff. -/
def lineCheck (l : Line) : BitVec 16 := BitVec.ofNat 16 ((leBytes l.toNat 128).foldl crc16Byte 0xffff)

/-- R205: CRC-64, polynomial 0x42f0e1eba9ea3693, most significant bit first as R138 has it (DESIGN CHOICE, log 99), one bit. -/
def crc64Bit (crc : Nat) : Nat := if crc ≥ 2 ^ 63 then (crc * 2 % 2 ^ 64).xor 0x42f0e1eba9ea3693 else crc * 2

/-- R205: one byte into the CRC. -/
def crc64Byte (crc : Nat) (b : Byte) : Nat :=
  crc64Bit (crc64Bit (crc64Bit (crc64Bit (crc64Bit (crc64Bit (crc64Bit (crc64Bit (crc.xor (b.toNat * 2 ^ 56)))))))))

/-- R205: the CRC-64 of the first 248 bytes of a flit. -/
def flitCheck (bs : List Byte) : Nat := (bs.take 248).foldl crc64Byte (2 ^ 64 - 1)

/-- The line check an LLS line carries. -/
def LlsLine.check (l : LlsLine) : BitVec 16 := lineCheck l.data ^^^ l.syn

/-- A saturating increment. -/
def satInc {n : Nat} (v : BitVec n) : BitVec n := if v = BitVec.allOnes n then v else v + 1

/-- Bits `off*8` up of a line, `size` bytes. -/
def lineBytes (l : Line) (off size : Nat) : Nat := l.toNat / 256 ^ off % 256 ^ size

/-- The mask of `size` bytes from `off`. -/
def byteMask (off size : Nat) : BitVec 128 := BitVec.ofNat 128 ((2 ^ size - 1) * 2 ^ off)

/-- A line with the value's bytes placed at `off`. -/
def placed (v off : Nat) : Line := BitVec.ofNat 1024 (v * 256 ^ off)

/-- Merge the bytes of `b` where the mask is set over `a`, byte by byte from byte `i`. -/
def mergeFrom (mask : Nat) (a b : Nat) : Nat → Nat
  | 0 => 0
  | n + 1 =>
    (if mask % 2 = 1 then b % 256 else a % 256) + 256 * mergeFrom (mask / 2) (a / 256) (b / 256) n

/-- R119: the bytes of `b` under the mask, the bytes of `a` elsewhere. -/
def mergeLine (mask : BitVec 128) (a b : Line) : Line :=
  BitVec.ofNat 1024 (mergeFrom mask.toNat a.toNat b.toNat 128)

/-- Cause codes of R220. -/
def cIllOp : Cause := 0x01
def cIllOperand : Cause := 0x02
def cBranchInSlot : Cause := 0x03
def cFetchBound : Cause := 0x04
def cMisalign : Cause := 0x05
def cPriv : Cause := 0x06
def cLoopNest : Cause := 0x07
def cSwTrap : Cause := 0x08
def cBkpt : Cause := 0x09
def cCtxBad : Cause := 0x20
def cRegionShape : Cause := 0x21
def cBankClash : Cause := 0x22
def cSpadRange : Cause := 0x23
def cArith : Cause := 0x24
def cAccType : Cause := 0x25
def cXlateMiss : Cause := 0x40
def cXlatePerm : Cause := 0x41
def cAddrIllegal : Cause := 0x42
def cPoison : Cause := 0x43
def cMigrateSrc : Cause := 0x44
def cRemoteUnbound : Cause := 0x45
def cCpFault : Cause := 0x60
def cNbRange : Cause := 0x61
def cNbSubarray : Cause := 0x62
def cNbBank : Cause := 0x63
def cLkTimeout : Cause := 0x64
def cLkAborted : Cause := 0x65
def cRecMalformed : Cause := 0x80
def cRecOpcode : Cause := 0x81
def cRecStraddle : Cause := 0x82
def cDepCancelled : Cause := 0x83
def cJournalOverflow : Cause := 0x84
def cMcResidue : Cause := 0xa0
def cMcSpadEcc : Cause := 0xa1
def cMcLlsEcc : Cause := 0xa2
def cMcHbmUe : Cause := 0xa3
def cMcLinecheck : Cause := 0xa4
def cMcDirtyEvictUe : Cause := 0xa5
def cPreempt : Cause := 0xc0
def cYield : Cause := 0xc1
def cFlrKilled : Cause := 0xc2

end Sys2Proof.Machine
end

