-- ==== Sys2Proof/Machine/Flags.lean ====
section
/-! DEFINITION. The four flags of R54 and the rules that gather them. -/

namespace Sys2Proof.Machine

/-- NV, invalid operation. -/
def flNV : Flags := 8
/-- DZ, division of a finite number by zero. -/
def flDZ : Flags := 4
/-- OF, overflow. -/
def flOF : Flags := 2
/-- UF, underflow. -/
def flUF : Flags := 1

/-- A flag when a condition holds. -/
def flagIf (b : Bool) (f : Flags) : Flags := if b then f else 0

/-- R36: flags that the operation raised and none of its sources carried. -/
def newFlags (raised carried : Flags) : Flags := raised &&& ~~~carried

/-- R290: whether the OR of a landing's flags includes an enabled one. -/
def trapsFlags (raised enable : Flags) : Bool := raised &&& enable != 0

end Sys2Proof.Machine
end

