-- ==== Sys2Proof/Machine/Float.lean ====
section
/-! DEFINITION. Number formats (R46 to R50), exact values, rounding (R55 to R58) and conversions (R59, R60). -/

namespace Sys2Proof.Machine

/-- A floating-point format (R47): mantissa bits, smallest exponent of a unit in the last place, the largest finite
code, the codes of infinity and NaN if it has them, and the bit of the sign. -/
structure Fmt where
  width : Nat
  man : Nat
  bias : Int
  maxCode : Nat
  inf : Option Nat
  nan : Option Nat
deriving DecidableEq, Repr

def fmtF32 : Fmt := ⟨32, 23, 127, 0x7f7fffff, some 0x7f800000, some 0x7fc00000⟩
def fmtBf16 : Fmt := ⟨16, 7, 127, 0x7f7f, some 0x7f80, some 0x7fc0⟩
def fmtF16 : Fmt := ⟨16, 10, 15, 0x7bff, some 0x7c00, some 0x7e00⟩
def fmtE4M3 : Fmt := ⟨8, 3, 7, 0x7e, none, some 0x7f⟩
def fmtE5M2 : Fmt := ⟨8, 2, 15, 0x7b, some 0x7c, some 0x7e⟩
def fmtE3M2 : Fmt := ⟨6, 2, 3, 0x1f, none, none⟩
def fmtE2M3 : Fmt := ⟨6, 3, 1, 0x1f, none, none⟩
def fmtE2M1 : Fmt := ⟨4, 1, 1, 0x7, none, none⟩

/-- R46: the element format of a format code. -/
def fmtOfCode (c : Nat) : Fmt :=
  match c with
  | 0x0 => fmtBf16 | 0x1 => fmtF16 | 0x2 => fmtE4M3 | 0x3 => fmtE5M2 | 0x4 => fmtE4M3 | 0x5 => fmtE5M2
  | 0x6 => fmtE3M2 | 0x7 => fmtE2M3 | 0x8 => fmtE2M1 | 0xa => fmtE2M1 | _ => fmtF32

/-- R58: the formats that flush-to-zero reaches: FP32, BF16 and FP16. -/
def Fmt.flushes (f : Fmt) : Bool := f.width == 32 || f.width == 16

/-- Exponent of the unit in the last place of subnormals. -/
def Fmt.qmin (f : Fmt) : Int := 1 - f.bias - f.man

/-- An exact value: a NaN, an infinity, or (−1)^neg · m · 2^e, where m = 0 is a signed zero. -/
inductive Fp
  | nan
  | inf (neg : Bool)
  | fin (neg : Bool) (m : Nat) (e : Int)
deriving DecidableEq, Repr

/-- R47: the value of a code. -/
def Fmt.value (f : Fmt) (code : Nat) : Fp :=
  let mag := code % 2 ^ (f.width - 1)
  let neg := code / 2 ^ (f.width - 1) % 2 == 1
  let isInf : Bool := match f.inf with | some i => mag == i | none => false
  let isNan : Bool := match f.inf, f.nan with
    | some i, _ => decide (i < mag)
    | none, some n => mag == n
    | none, none => false
  if isNan then .nan
  else if isInf then .inf neg
  else
    let e := mag / 2 ^ f.man
    let m := mag % 2 ^ f.man
    if e = 0 then .fin neg m f.qmin else .fin neg (m + 2 ^ f.man) (f.qmin + (e - 1 : Nat))

/-- R58: a subnormal code. -/
def Fmt.subnormal (f : Fmt) (code : Nat) : Bool :=
  let mag := code % 2 ^ (f.width - 1)
  mag != 0 && mag < 2 ^ f.man

/-- R58: a source read with or without flush-to-zero. -/
def Fmt.read (f : Fmt) (ftz : Bool) (code : Nat) : Fp :=
  if ftz && f.flushes && f.subnormal code then .fin (code / 2 ^ (f.width - 1) % 2 == 1) 0 0 else f.value code

/-! ### Rounding -/

/-- How a result beyond the largest finite value is given: IEEE 754 (R56), saturating or not (R59), or clamped without
a flag (R65, R66). -/
inductive Overflow | ieee | saturate | infinite | clamp
deriving DecidableEq, Repr

/-- How a result is rounded: the code of R55, the XS value drawn for RSR (R57), overflow, flush-to-zero. -/
structure Rounding where
  mode : Nat
  draw : Nat := 0
  ovf : Overflow := .ieee
  ftz : Bool := false
deriving DecidableEq, Repr

/-- R57: one step of the xorshift state. -/
def xorshift (x : BitVec 32) : BitVec 32 :=
  let x := x ^^^ (x <<< 13)
  let x := x ^^^ (x >>> 17)
  x ^^^ (x <<< 5)

/-- Whether the magnitude (m + r / 2^s) with a rest below it rounds away from zero to m + 1. -/
def roundsUp (mode draw : Nat) (neg : Bool) (m r s : Nat) (rest : Bool) : Bool :=
  let exact := r == 0 && !rest
  match mode with
  | 0 => 2 ^ s < 2 * r || (2 * r == 2 ^ s && (rest || m % 2 == 1))
  | 1 => false
  | 2 => !neg && !exact
  | 3 => neg && !exact
  | _ => 2 ^ 32 ≤ r * 2 ^ 32 / 2 ^ s + draw

/-- The magnitude m·2^e, with a rest below its last bit, as a whole number of 2^q: rounded, and whether inexact. -/
def quantise (mode draw : Nat) (neg : Bool) (m : Nat) (e q : Int) (rest : Bool) : Nat × Bool :=
  if q ≤ e then
    let k := m * 2 ^ (e - q).toNat
    (if roundsUp mode draw neg k 0 0 rest then k + 1 else k, rest)
  else
    let s := (q - e).toNat
    let k := m / 2 ^ s
    let r := m % 2 ^ s
    (if roundsUp mode draw neg k r s rest then k + 1 else k, r != 0 || rest)

/-- Exponent of the leading bit of m·2^e. -/
def topExp (m : Nat) (e : Int) : Int := e + Nat.log2 m

/-- R54: the magnitude rounded with an unbounded exponent lies below the smallest normal value; RSR judges by RNE. -/
def Fmt.tiny (f : Fmt) (mode : Nat) (neg : Bool) (m : Nat) (e : Int) (rest : Bool) : Bool :=
  let t := topExp m e
  let emin := 1 - f.bias
  if emin ≤ t then false
  else if t < emin - 1 then true
  else (quantise (if mode = 4 then 0 else mode) 0 neg m e (t - f.man) rest).1 < 2 ^ (f.man + 1)

/-- The code of a sign and magnitude. -/
def Fmt.signed (f : Fmt) (neg : Bool) (mag : Nat) : Nat := if neg then mag + 2 ^ (f.width - 1) else mag

/-- R52: the canonical NaN, or +0 with NV where the format has none. -/
def Fmt.canon (f : Fmt) : Nat × Flags := match f.nan with | some n => (n, 0) | none => (0, flNV)

/-- R56, R57, R59, R65: a finite result beyond the largest finite value. -/
def Fmt.overflow (f : Fmt) (r : Rounding) (neg : Bool) : Nat × Flags :=
  let inf := f.inf.getD f.maxCode
  match r.ovf with
  | .clamp => (f.signed neg f.maxCode, 0)
  | .saturate => (f.signed neg f.maxCode, flOF)
  | .infinite => (f.signed neg inf, flOF)
  | .ieee =>
    let toInf := r.mode = 0 || r.mode = 4 || (r.mode = 2 && !neg) || (r.mode = 3 && neg)
    (f.signed neg (if toInf then inf else f.maxCode), flOF)

/-- R54 to R59: a finite magnitude m·2^e, with a rest below it, rounded once to a format. -/
def Fmt.roundFin (f : Fmt) (r : Rounding) (neg : Bool) (m : Nat) (e : Int) (rest : Bool := false) : Nat × Flags :=
  if m = 0 && !rest then (f.signed neg 0, 0)
  else
    let q := max (topExp m e - f.man) f.qmin
    let (k, inexact) := quantise r.mode r.draw neg m e q rest
    let mag := (q - f.qmin).toNat * 2 ^ f.man + k
    if f.maxCode < mag then f.overflow r neg
    else
      let uf := flagIf (inexact && f.tiny r.mode neg m e rest) flUF
      if r.ftz && f.flushes && mag != 0 && mag < 2 ^ f.man then (f.signed neg 0, flUF)
      else (f.signed neg mag, uf)

/-- R59: an infinite value in a format. -/
def Fmt.roundInf (f : Fmt) (r : Rounding) (neg : Bool) : Nat × Flags :=
  match r.ovf, f.inf with
  | .saturate, none => (f.signed neg f.maxCode, flNV)
  | .saturate, some _ => (f.signed neg f.maxCode, flOF)
  | .clamp, _ => (f.signed neg f.maxCode, 0)
  | _, some i => (f.signed neg i, 0)
  | _, none => (f.signed neg f.maxCode, flNV)

/-- A value in a format, rounded once, with the flags of the rounding. -/
def Fmt.round (f : Fmt) (r : Rounding) : Fp → Nat × Flags
  | .nan => f.canon
  | .inf neg => f.roundInf r neg
  | .fin neg m e => f.roundFin r neg m e

/-- A value in a format with the flags of the operation that gave it. -/
def Fmt.finish (f : Fmt) (r : Rounding) (x : Fp × Flags) : Nat × Flags :=
  let (c, fl) := f.round r x.1
  (c, fl ||| x.2)

/-! ### Exact arithmetic (R53, R54, R56) -/

/-- The value with its sign turned. -/
def Fp.negate : Fp → Fp
  | .nan => .nan
  | .inf n => .inf !n
  | .fin n m e => .fin (!n) m e

/-- The signed whole number of 2^q in a finite value whose exponent is not below q. -/
def Fp.scaled (q : Int) : Fp → Int
  | .fin n m e => let k : Int := (m * 2 ^ (e - q).toNat : Nat); if n then -k else k
  | _ => 0

/-- The exponent of a finite value; a zero has none to give. -/
def Fp.exp? : Fp → Option Int
  | .fin _ m e => if m = 0 then none else some e
  | _ => none

/-- The least exponent of the non-zero finite values. -/
def minExp : List Fp → Option Int
  | [] => none
  | x :: t => match x.exp?, minExp t with
    | some e, some k => some (min e k)
    | some e, none => some e
    | none, k => k

def Fp.isNan : Fp → Bool | .nan => true | _ => false
def Fp.isInf : Fp → Bool | .inf _ => true | _ => false
def Fp.isZero : Fp → Bool | .fin _ m _ => m == 0 | _ => false
def Fp.neg : Fp → Bool | .inf n => n | .fin n _ _ => n | .nan => false

/-- R53: the sign of an exactly zero sum: that of every addend when they agree as zeros, else by the mode. -/
def zeroSign (mode : Nat) (xs : List Fp) : Bool :=
  if xs.all fun x => x.isZero && x.neg then true
  else if xs.all fun x => x.isZero && !x.neg then false
  else mode == 3

/-- R53, R54, R62: the exact sum of values, with NV for infinities of both signs. -/
def sumFp (mode : Nat) (xs : List Fp) : Fp × Flags :=
  if xs.any Fp.isNan then (.nan, 0)
  else if xs.any fun x => x.isInf && x.neg then
    (if xs.any fun x => x.isInf && !x.neg then (.nan, flNV) else (.inf true, 0))
  else if xs.any Fp.isInf then (.inf false, 0)
  else match minExp xs with
    | none => (.fin (zeroSign mode xs) 0 0, 0)
    | some q =>
      let k := xs.foldl (fun a x => a + (if x.isZero then 0 else x.scaled q)) (0 : Int)
      if k = 0 then (.fin (zeroSign mode xs) 0 0, 0) else (.fin (k < 0) k.natAbs q, 0)

/-- R54: the exact product, with NV for zero times infinity. -/
def mulFp : Fp → Fp → Fp × Flags
  | .nan, _ => (.nan, 0)
  | _, .nan => (.nan, 0)
  | .inf a, .inf b => (.inf (a != b), 0)
  | .inf a, .fin b m _ => if m = 0 then (.nan, flNV) else (.inf (a != b), 0)
  | .fin a m _, .inf b => if m = 0 then (.nan, flNV) else (.inf (a != b), 0)
  | .fin a m e, .fin b n f => (.fin (a != b) (m * n) (e + f), 0)

/-- R56: a × b + c without rounding the product. -/
def fmaFp (mode : Nat) (a b c : Fp) : Fp × Flags :=
  let (p, fl) := mulFp a b
  let (s, fs) := sumFp mode [p, c]
  (s, fl ||| fs)

/-- Exact comparison of two numbers: −1, 0 or 1; a NaN compares as nothing. -/
def cmpFp : Fp → Fp → Option Int
  | .nan, _ => none
  | _, .nan => none
  | .inf a, .inf b => some (if a = b then 0 else if a then -1 else 1)
  | .inf a, _ => some (if a then -1 else 1)
  | _, .inf b => some (if b then 1 else -1)
  | x, y =>
    let q := (minExp [x, y]).getD 0
    let d := (if x.isZero then 0 else x.scaled q) - (if y.isZero then 0 else y.scaled q)
    some (if d < 0 then -1 else if d = 0 then 0 else 1)

/-- R53: whether FMIN chooses the first of two values: −0 lies below +0, a NaN loses to a number. -/
def minFirst (x y : Fp) : Bool :=
  match cmpFp x y with
  | none => y.isNan
  | some d => if d = 0 then x.neg || !y.neg else d < 0

/-- R53: whether FMAX chooses the first of two values. -/
def maxFirst (x y : Fp) : Bool :=
  match cmpFp x y with
  | none => y.isNan
  | some d => if d = 0 then !x.neg || y.neg else 0 < d

/-! ### Integers (R59, R60) -/

/-- An integer as an exact value. -/
def fpOfInt (v : Int) : Fp := .fin (v < 0) v.natAbs 0

/-- R60: a value rounded to an integer. -/
def Fp.toInt (r : Rounding) (neg : Bool) (m : Nat) (e : Int) : Int :=
  let k : Int := (quantise r.mode r.draw neg m e 0 false).1
  if neg then -k else k

/-- R60: a value as an integer between two limits, with NV where it lies outside. -/
def Fp.clampInt (r : Rounding) (lo hi : Int) : Fp → Int × Flags
  | .nan => (0, flNV)
  | .inf n => (if n then lo else hi, flNV)
  | .fin n m e =>
    let v := Fp.toInt r n m e
    if v < lo then (lo, flNV) else if hi < v then (hi, flNV) else (v, 0)

/-! ### Shared operations of sequencer and rows -/

/-- A code with a subnormal flushed to zero where FTZ applies. -/
def Fmt.flush (f : Fmt) (ftz : Bool) (code : Nat) : Nat :=
  if ftz && f.flushes && f.subnormal code then f.signed (code / 2 ^ (f.width - 1) % 2 == 1) 0 else code % 2 ^ f.width

/-- R53: the smaller or, with `big`, the larger of two codes. -/
def Fmt.pick (f : Fmt) (ftz big : Bool) (a b : Nat) : Nat :=
  let x := f.read ftz a
  let y := f.read ftz b
  if x.isNan && y.isNan then f.canon.1
  else if (if big then maxFirst x y else minFirst x y) then f.flush ftz a else f.flush ftz b

/-- R288, R359: a floating-point comparison; the conditions 0 to 6 are EQ, NE, LT, LE, GT, GE, UN. -/
def Fmt.compare (f : Fmt) (ftz : Bool) (cc : Nat) (a b : Nat) : Bool :=
  match cmpFp (f.read ftz a) (f.read ftz b) with
  | none => cc = 1 || cc = 6
  | some d => match cc with
    | 0 => d = 0 | 1 => d ≠ 0 | 2 => d < 0 | 3 => d ≤ 0 | 4 => 0 < d | 5 => 0 ≤ d | _ => false

/-- R59, R289, R360: a code of one format in another. Of itself it is the value as it stands; a wider target takes it
exactly; any other saturates, or with NS gives infinities. -/
def Fmt.convert (dst src : Fmt) (r : Rounding) (ns : Bool) (code : Nat) : Nat × Flags :=
  if dst = src then (if (src.value code).isNan then (dst.canon.1, 0) else (src.flush r.ftz code, 0))
  else
    let ovf : Overflow := if src.width < dst.width then .ieee else if ns then .infinite else .saturate
    dst.round { r with ovf := ovf } (src.read r.ftz code)

/-- R60: an integer in a floating-point format. -/
def Fmt.ofInt (dst : Fmt) (r : Rounding) (ns : Bool) (v : Int) : Nat × Flags :=
  dst.round { r with ovf := if ns then .infinite else .saturate } (fpOfInt v)

end Sys2Proof.Machine
end

