-- ==== Sys2Proof/Config.lean ====
section
/-! DEFINITION. What the spec leaves open: constants without a body, so no proof can see their value. -/

namespace Sys2Proof.Config

/-- Which of the two FP32 values that bracket the exact one a transcendental row gives (R362): `true` the one away
from zero. It depends on the row's opcode and the input alone, because one input gives the same bits everywhere. -/
opaque roundAway : Nat → BitVec 32 → Bool

/-- The offset that QNT gives a B4 group holding a NaN, by the group's four values and T; the spec states its elements
and its flag only (R66). -/
opaque b4NanOffset : List (BitVec 32) → BitVec 32 → BitVec 4

/-- Which of the eight lines of a data-cache set a fill displaces; the spec names no rule (R118). -/
opaque dcacheVictim : Nat → Nat → Fin 8

/-- Which of the four lines of an instruction-cache set a fill displaces; the spec names no rule (R117). -/
opaque icacheVictim : Nat → Nat → Fin 4

/-- Which of the sixteen lines of an LLS set an eviction takes; the spec names no rule (R127). -/
opaque llsVictim : Nat → Nat → Fin 16

/-- Whether a CXL read of a line of an old page, in a cycle, ends in a completion error or a timeout, which the host
decides (R233). -/
opaque cxlReadFails : Nat → Nat → Bool

/-- The identity public key, affine x then y, byte by byte (R251, R254). -/
opaque identityKey : Nat → Byte

/-- The attestation signature over the first 0xd0 bytes of a report, byte by byte (R254). -/
opaque attestSignature : List Byte → Nat → Byte

end Sys2Proof.Config
end

