-- ==== Sys2Proof/Machine/Memory.lean ====
section
/-! DEFINITION. Global memory: device physical addresses, the LLS, DRAM with its metadata, the directory, host memory,
what stands before an access and what an accepted write brings about, trap records, and page walks. -/

namespace Sys2Proof.Machine

/-! ### Places (R126, R127) -/

/-- R126: the stack of a DPA. -/
def dpaStack (a : Nat) : Nat := bitsOf a 40 37
/-- R126: the pseudo-channel. -/
def dpaChan (a : Nat) : Nat := (bitsOf a 17 10).xor (bitsOf a 29 22)
/-- R126: the bank. -/
def dpaBank (a : Nat) : Nat := (bitsOf a 21 18).xor (bitsOf a 33 30)
/-- R126: the row of the bank. -/
def dpaRow (a : Nat) : Nat := bitsOf a 36 22
/-- R126: the subarray. -/
def dpaSubarray (a : Nat) : Nat := bitsOf a 36 31
/-- R127: the home slice. -/
def homeSlice (a : Nat) : Nat := dpaStack a * 16 + (bitsOf a 10 7).xor (bitsOf a 14 11)
/-- R127: the set within the slice. -/
def llsSet (a : Nat) : Nat := bitsOf a 25 15

/-! ### Cells, functions and queues in the state -/

def State.cell (s : State) (c : Nat) : CellSt := tget {} s.cells c
def State.setCell (s : State) (c : Nat) (x : CellSt) : State := { s with cells := tset s.cells c x }
def State.modCell (s : State) (c : Nat) (f : CellSt → CellSt) : State := s.setCell c (f (s.cell c))
def State.fn (s : State) (f : Nat) : Fn := tget (Fn.reset f) s.fns f
def State.setFn (s : State) (f : Nat) (x : Fn) : State := { s with fns := tset s.fns f x }
def State.modFn (s : State) (f : Nat) (g : Fn → Fn) : State := s.setFn f (g (s.fn f))
def State.die (s : State) (d : Nat) : Die := tget {} s.dies d
def State.setDie (s : State) (d : Nat) (x : Die) : State := { s with dies := tset s.dies d x }
/-- The number of a launch queue in the table. -/
def qkey (vf : Fin 64) (q : BitVec 8) : Nat := vf.val * 256 + q.toNat
def State.queue (s : State) (vf : Fin 64) (q : BitVec 8) : Queue := tget {} s.disp.queues (qkey vf q)
def State.setQueue (s : State) (vf : Fin 64) (q : BitVec 8) (x : Queue) : State :=
  { s with disp := { s.disp with queues := tset s.disp.queues (qkey vf q) x } }
def State.modQueue (s : State) (vf : Fin 64) (q : BitVec 8) (f : Queue → Queue) : State :=
  s.setQueue vf q (f (s.queue vf q))
/-- Put steps before every other step of the cycle. -/
def State.push (s : State) (ts : List Task) : State := { s with sched := { s.sched with tasks := ts ++ s.sched.tasks } }
/-- Device time in nanoseconds as a number (R240). -/
def State.now (s : State) : Nat := s.sys.devtime.toNat

/-! ### Records as they are detected (R214 to R219) -/

/-- R215: the 512 bits of a record. -/
def Record.toNat (r : Record) (seq : BitVec 32) : Nat :=
  r.cause.toNat + r.cls.toNat * 2 ^ 8 + (if r.reg then 2 ^ 10 else 0) + r.rslot.toNat * 2 ^ 11 + r.vf.toNat * 2 ^ 16
    + r.q.toNat * 2 ^ 24 + r.cell.toNat * 2 ^ 32 + r.pe.toNat * 2 ^ 48 + r.lane.toNat * 2 ^ 52
    + r.point.toNat * 2 ^ 56
    + (r.slot.toNat + r.stage.toNat * 2 ^ 5 + r.inst.toNat * 2 ^ 16) * 2 ^ 64
    + r.rcyc.toNat * 2 ^ 128 + r.pc.toNat * 2 ^ 192 + r.opword.toNat * 2 ^ 256 + r.addr.toNat * 2 ^ 320
    + r.info.toNat * 2 ^ 384 + seq.toNat * 2 ^ 448

/-- R214: free entries of a ring. -/
def TrapQ.free (t : TrapQ) : Nat := 2 ^ t.sizelog.toNat - (t.tail - t.head).toNat

/-- R214: the DPA of the next record. -/
def TrapQ.slotAddr (t : TrapQ) : Nat := t.base.toNat * 4096 + 64 * (t.tail.toNat % 2 ^ t.sizelog.toNat)

/-- R214: the registers after one record written. -/
def TrapQ.advanced (t : TrapQ) : TrapQ := { t with tail := t.tail + 1, nextseq := t.nextseq + 1 }

/-- R216: a record is detected; it enters its function's queue at the end of the foundation cycle. -/
def State.report (s : State) (f : Nat) (r : Record) : State := s.modFn f fun x => { x with found := x.found ++ [r] }

/-- R218: an error-log record is detected; it is a report record. -/
def State.logError (s : State) (r : Record) : State :=
  { s with sys := { s.sys with errDue := s.sys.errDue ++ [{ r with cls := 2 }] } }

/-- R219: an error-log event with its DPA and point of detection. -/
def State.logPoint (s : State) (c : Cause) (point : BitVec 8) (a : Nat) : State :=
  s.logError { cause := c, cls := 2, point := point, addr := BitVec.ofNat 64 a }

/-! ### Lines and granules (R127 to R129, R138, R139, R141, R142) -/

def State.lls (s : State) (n : Nat) : Option LlsLine := tfind s.mem.lls n
def State.gran (s : State) (g : Nat) : Granule := tget {} s.mem.gran g
def State.setGran (s : State) (g : Nat) (x : Granule) : State :=
  { s with mem := { s.mem with gran := tset s.mem.gran g x } }
def State.setLls (s : State) (n : Nat) (x : LlsLine) : State :=
  { s with mem := { s.mem with lls := tset s.mem.lls n x } }

/-- The value of a line: what its slice holds, else DRAM (R129). -/
def State.lineVal (s : State) (n : Nat) : Line :=
  match s.lls n with
  | some l => l.data
  | none => mline s.mem.dram (n * 128)

/-- The two granules of a line as bits. -/
def granBits (lo hi : Bool) : BitVec 2 := BitVec.ofBool hi ++ BitVec.ofBool lo

/-- The poisoned granules of a line (R141). -/
def State.poisonOf (s : State) (n : Nat) : BitVec 2 :=
  match s.lls n with
  | some l => l.poison
  | none => granBits (s.gran (2 * n)).poison (s.gran (2 * n + 1)).poison

/-- Whether a line holds poison (R141). -/
def State.linePoison (s : State) (n : Nat) : Bool := s.poisonOf n != 0

/-- Which of `n` successive units of `size` bytes a mask covers whole. -/
def wholeBits (size : Nat) : Nat → Nat → Nat
  | 0, _ => 0
  | n + 1, m => (if m % 2 ^ size = 2 ^ size - 1 then 1 else 0) + 2 * wholeBits size n (m / 2 ^ size)

/-- The granules that a mask covers whole. -/
def wholeGrans (mask : BitVec 128) : BitVec 2 := BitVec.ofNat 2 (wholeBits 64 2 mask.toNat)
/-- The 16-byte units that a mask covers whole. -/
def wholeUnits (mask : BitVec 128) : BitVec 8 := BitVec.ofNat 8 (wholeBits 16 8 mask.toNat)
/-- The granules that a mask touches. -/
def maskGrans (mask : BitVec 128) : BitVec 2 := granBits (mask.toNat % 2 ^ 64 != 0) (mask.toNat / 2 ^ 64 != 0)
/-- The granules of `size` bytes from an offset of a line. -/
def granOf (off size : Nat) : BitVec 2 := maskGrans (byteMask off size)

/-- R139: a granule is written with the data as read and POISON set. -/
def State.spoil (s : State) (g : Nat) : State :=
  let x := s.gran g
  s.setGran g { x with ver := x.ver + 1, poison := true, badSyms := 0 }

/-- The granules of a line in DRAM that bits name are spoiled. -/
def State.spoilLine (s : State) (n : Nat) (b : BitVec 2) : State :=
  let s := if b.getLsbD 0 then s.spoil (2 * n) else s
  if b.getLsbD 1 then s.spoil (2 * n + 1) else s

/-- R139: a demand read of a DRAM granule: up to four bad symbols are corrected and counted, more are MC_HBM_UE. -/
def State.readGran (s : State) (g : Nat) (point : BitVec 8) : State :=
  let x := s.gran g
  if x.badSyms = 0 then s
  else if x.badSyms ≤ 4 then { s with mem := { s.mem with ecHbm := satInc s.mem.ecHbm } }
  else (s.spoil g).logPoint cMcHbmUe point (g * 64)

/-- R138: the line check of a line in DRAM, verified when it is read; a line that fails it is poisoned. -/
def State.checkDram (s : State) (n : Nat) (point : BitVec 8) : State :=
  if (s.gran (2 * n)).syn = 0 then s
  else
    let clear (g : Nat) (s : State) : State := s.setGran g { s.gran g with syn := 0 }
    (clear (2 * n) (clear (2 * n + 1) (s.spoilLine n 3))).logPoint cMcLinecheck point (n * 128)

/-- R138, R139: a line is read from DRAM. -/
def State.readDram (s : State) (n : Nat) (point : BitVec 8) : State :=
  ((s.readGran (2 * n) 7).readGran (2 * n + 1) 7).checkDram n point

/-- R139, R141: a granule after a write of some of its bytes, all of them or none: a line check written alone raises no VER
(log 98). -/
def Granule.written (g : Granule) (touched whole bad : Bool) : Granule :=
  if touched then { ver := g.ver + 1, poison := bad || (g.poison && !whole), badSyms := 0, syn := 0 } else { g with syn := 0 }

/-- A line's masked bytes are written to DRAM, the granules that `bad` names poisoned. What the line check of the merged line
needs is read first (R138, R139). -/
def State.dramWrite (s : State) (n : Nat) (mask : BitVec 128) (data : Line) (bad : BitVec 2 := 0) : State :=
  let w := wholeGrans mask
  let t := maskGrans mask
  let s := if w.getLsbD 0 then s else s.readGran (2 * n) 7
  let s := if w.getLsbD 1 then s else s.readGran (2 * n + 1) 7
  let v := mergeLine mask (mline s.mem.dram (n * 128)) data
  let s := { s with mem := { s.mem with dram := mlineSet s.mem.dram (n * 128) v } }
  let s := s.setGran (2 * n) ((s.gran (2 * n)).written (t.getLsbD 0) (w.getLsbD 0) (bad.getLsbD 0))
  s.setGran (2 * n + 1) ((s.gran (2 * n + 1)).written (t.getLsbD 1) (w.getLsbD 1) (bad.getLsbD 1))

/-- R128, R138: fill a line from DRAM into its slice, verifying its granules and line check. -/
def State.fillLine (s : State) (n : Nat) : State :=
  let s := s.readDram n 2
  s.setLls n { data := mline s.mem.dram (n * 128), poison := s.poisonOf n }

/-- R141: granules of a line become poisoned; a line in its slice is written back so. -/
def State.poisonGrans (s : State) (n : Nat) (b : BitVec 2) : State :=
  match s.lls n with
  | some l => if b = 0 then s else s.setLls n { l with poison := l.poison ||| b, dirty := true }
  | none => s.spoilLine n b

/-- R244: errors that the LLS has corrected, or has refetched a line for. -/
def State.countLls : State → Nat → State
  | s, 0 => s
  | s, k + 1 => State.countLls { s with mem := { s.mem with ecLls := satInc s.mem.ecLls } } k

/-- R142: a line of a slice is read, but for the 16-byte units in `skip`: what can be corrected is repaired and counted, and a
clean line with an error that cannot is fetched again. -/
def State.soundLine (s : State) (n : Nat) (skip : BitVec 8) : State :=
  match s.lls n with
  | none => s
  | some l =>
    if l.hard &&& ~~~skip ≠ 0 ∧ ¬l.dirty then
      (({ s with mem := { s.mem with lls := terase s.mem.lls n } }).fillLine n).countLls 1
    else if l.soft = 0 then s
    else (s.setLls n { l with soft := 0 }).countLls (popN 8 (l.soft &&& ~~~skip).toNat)

/-- R128, R138, R141, R142: an LLS line after a write under a mask. The tag of the last writer is that of a function: the module's
own writes and the host's leave it, and MULTI needs two functions (log 98). -/
def LlsLine.written (l : LlsLine) (mask : BitVec 128) (data : Line) (vf : Option (Fin 64)) : LlsLine :=
  { data := mergeLine mask l.data data, dirty := true, poison := l.poison &&& ~~~wholeGrans mask,
    writer := vf.or l.writer,
    multi := l.dirty && (l.multi || (vf.isSome && l.writer.isSome && l.writer != vf)),
    syn := 0, soft := l.soft &&& ~~~wholeUnits mask, hard := l.hard &&& ~~~wholeUnits mask }

/-- R141: granules of an LLS line are poisoned. -/
def LlsLine.spoilt (l : LlsLine) (b : BitVec 2) : LlsLine := { l with poison := l.poison ||| b }

/-- A 64-bit word of device memory as its home slice would give it now. -/
def State.dpaWord (s : State) (a : Nat) : Word := BitVec.ofNat 64 (lineBytes (s.lineVal (a / 128)) (a % 128) 8)

/-- R130: a line of host memory as the CXL port reads it. -/
def State.hostLine (s : State) (n : Nat) : Line := mline s.mem.host (n * 128)

/-- R130, R212: the granules of a host line that CXL returns with its poison indication. -/
def State.hostPoison (s : State) (n : Nat) : BitVec 2 := (tfind s.mem.hostBad n).getD 0

/-- R130, R141: a read of the granules of a host line that `need` names. -/
def State.readHost (s : State) (n : Nat) (need : BitVec 2) : Except Cause Line :=
  if s.hostPoison n &&& need ≠ 0 then .error cPoison else .ok (s.hostLine n)

/-- R141: the poisoned granules of a translated line. -/
def State.badGrans (s : State) (t : Trans) : BitVec 2 :=
  if t.host then s.hostPoison (t.addr / 128)
  else match s.lls (t.addr / 128) with
    | some l => l.poison
    | none => s.poisonOf (t.addr / 128)

/-! ### What an accepted write brings about (R176, R182) -/

/-- R178, R179: the number in `n` bytes at an offset of a record. -/
def Rec.num (r : Rec) (off n : Nat) : Nat := lineBytes (if off < 128 then r.line0 else r.line1) (off % 128) n

/-- R182: how a word dependence stands: 0 open, 1 satisfied, 2 cancelled. -/
def depState (kind : Nat) (w value : Word) : Nat :=
  if w.getLsbD 63 then 2
  else if (kind == 2 && value ≤ w) || (kind == 3 && w == value) then 1 else 0

/-- The value of the word at a translated address. -/
def State.wordAt (s : State) (t : Trans) : Word := if t.host then mword s.mem.host t.addr else s.dpaWord t.addr

/-- R182: re-examine one word dependence of a WAIT record whose word lies in line `n` of device or host memory. -/
def depNow (s : State) (host : Bool) (n : Nat) (r : Rec) (i : Nat) (st : Nat) : Nat :=
  match r.waitVa[i]? with
  | some (some t) =>
    if st = 0 ∧ t.host = host ∧ t.addr / 128 = n then
      depState (r.num (0x10 + i) 1) (s.wordAt t) (BitVec.ofNat 64 (r.num (0x38 + 8 * i) 8))
    else st
  | _ => st

/-- R182: re-examine the dependences of a record at a write to line `n`. -/
def Rec.reexamine (s : State) (host : Bool) (n : Nat) (r : Rec) : Rec :=
  if r.kind = 5 ∧ r.stage = .live then { r with waitSt := r.waitSt.mapIdx fun i st => depNow s host n r i st } else r

/-- R182: the words that WAIT records watch in a line that has been written. -/
def State.watch (s : State) (host : Bool) (n : Nat) : State :=
  { s with disp := { s.disp with
    queues := s.disp.queues.map fun (key, q) => (key, { q with recs := q.recs.map (·.reexamine s host n) }) } }

/-- R176: the queues whose HEAD slot, or the slot after it, a seal write to line `n` reaches. -/
def monitorTasks (s : State) (n : Nat) : List Task :=
  s.disp.queues.filterMap fun (key, q) =>
    let f := s.fn (key / 256)
    let base := f.window.toNat * 512
    let size := 2 ^ q.ringlog
    let at_ (j : Nat) : Bool := n = base + q.ringofs + (q.head + j) % size
    if (q.state = .active) && f.state != .disabled && base != 0 && (at_ 0 || at_ 1) then
      some (.event (.lineMonitorParse (Fin.ofNat 64 (key / 256)) (BitVec.ofNat 8 key)))
    else none

/-- R176, R182: the line monitor and the watched words see an accepted write. -/
def State.afterWrite (s : State) (n : Nat) (mask : BitVec 128) : State :=
  let s := s.watch false n
  if mask.getLsbD 127 then s.push (monitorTasks s n) else s

/-- R129, R144: the home slice accepts a write of a line's masked bytes, the granules that `bad` names poisoned. A line present in
the LLS takes it, a miss on a page with C = 1 is filled first, and with C = 0 it goes to DRAM (R128). -/
def State.acceptWrite (s : State) (n : Nat) (mask : BitVec 128) (data : Line) (vf : Option (Fin 64)) (cbit : Bool)
    (bad : BitVec 2 := 0) : State :=
  let s := s.soundLine n (wholeUnits mask)
  let s := match s.lls n with
    | some l => s.setLls n ((l.written mask data vf).spoilt bad)
    | none =>
      if cbit then s.setLls n ((({ data := s.lineVal n, poison := s.poisonOf n : LlsLine }).written mask data vf).spoilt bad)
      else s.dramWrite n mask data bad
  s.afterWrite n mask

/-- R130, R182, R212: a write of a line's masked bytes to host memory, the granules that `bad` names with CXL's poison indication. -/
def State.hostWrite (s : State) (n : Nat) (mask : BitVec 128) (data : Line) (bad : BitVec 2 := 0) : State :=
  let left := s.hostPoison n &&& ~~~wholeGrans mask ||| bad
  ({ s with mem := { s.mem with
      host := mlineSet s.mem.host (n * 128) (mergeLine mask (mline s.mem.host (n * 128)) data)
      hostBad := if left = 0 then terase s.mem.hostBad n else tset s.mem.hostBad n left } }).watch true n

/-- A strong store of up to 8 bytes within one line of device memory by the module itself. -/
def State.storeDpa (s : State) (a size v : Nat) (vf : Option (Fin 64)) : State :=
  s.acceptWrite (a / 128) (byteMask (a % 128) size) (placed (v % 256 ^ size) (a % 128)) vf false

/-- A strong store of 64 aligned bytes by the module itself. -/
def State.store64 (s : State) (a : Nat) (v : Nat) (vf : Option (Fin 64)) : State :=
  s.acceptWrite (a / 128) (byteMask (a % 128) 64) (placed (v % 256 ^ 64) (a % 128)) vf false

/-- Strong stores of successive 8-byte words by the module itself. -/
def State.storeWords (s : State) (a : Nat) (vf : Option (Fin 64)) : List Word → State
  | [] => s
  | w :: t => (s.storeDpa a 8 w.toNat vf).storeWords (a + 8) vf t

/-! ### What stands before an access at its home slice (R128, R131, R136, R230, R231) -/

/-- R229: the line count of a migrating page. -/
def MigEntry.lines (m : MigEntry) : Nat := if m.big then 16384 else 512

/-- R231: the entry that migrates the page of a line, with the line's number in it. -/
def migOf (s : State) (n : Nat) : Option (Nat × MigEntry × Nat) :=
  (s.mem.mig.find? fun (_, m) =>
    m.state != .free && (m.new.toNat / 128 ≤ n && n < m.new.toNat / 128 + m.lines)).map
    fun (i, m) => (i, m, n - m.new.toNat / 128)

/-- R229: a bit of the valid bitmap. -/
def migPulled (s : State) (m : MigEntry) (k : Nat) : Bool :=
  (s.dpaWord (m.bmap.toNat + k / 64 * 8)).getLsbD (k % 64)

/-- R135, R136: whether a line lies in a destination or source row in the busy ranges of a near-bank command. -/
def nbBusy (s : State) (n : Nat) : Bool × Bool :=
  let rows := (s.mem.nb.filter fun c => c.stage = .recalling ∨ c.stage = .executing).flatMap (·.rows)
  let hit (o : Option Nat) : Bool := match o with | some a => n / 8 = a / 1024 | none => false
  (rows.any fun (d, _, _) => hit d, rows.any fun (_, x, y) => hit x || hit y)

/-- What an access to a line meets first; a recall names its line. -/
inductive Gate | ok | recall (n : Nat) | wait | pull | lost | fill | evict
deriving DecidableEq, Repr

/-- R131: how the host holds a line. -/
def dirFind (s : State) (n : Nat) : Option DirEntry := s.mem.dir.find? fun e => e.line = n

/-- R127: whether the line's set already holds sixteen lines. -/
def setFull (s : State) (n : Nat) : Bool :=
  16 ≤ (s.mem.lls.filter fun (m, _) => homeSlice (m * 128) = homeSlice (n * 128) ∧ llsSet (m * 128) = llsSet (n * 128)).length

/-- What a device access to a line meets, in order: a near-bank command (R136), the host's copy (R131), a missing line that is
to be filled (R128, R129). -/
def lineGate (s : State) (n : Nat) (write fillIt : Bool) : Gate :=
  let present := (s.lls n).isSome
  let (dst, src) := nbBusy s n
  let missing : Gate := if fillIt && !present then (if setFull s n then .evict else .fill) else .ok
  if write && (dst || src) then .wait
  else if dst && !present then .wait
  else match dirFind s n with
    | some e => if write || e.owned then .recall n else missing
    | none => missing

/-- R229: the line that holds a bit of the valid bitmap. -/
def MigEntry.bitLine (m : MigEntry) (k : Nat) : Nat := (m.bmap.toNat + k / 64 * 8) / 128

/-- What a device access to a line meets, in order: a migration (R230, R231, R233), of which it reads the valid bit and, where
that is clear, is to set it, and then what stands before the line itself. -/
def State.gate (s : State) (n : Nat) (write fillIt : Bool) : Gate :=
  match migOf s n with
  | some (_, m, k) =>
    if m.state = .armed then .wait
    else match lineGate s (m.bitLine k) (!migPulled s m k) false with
      | .ok =>
        if migPulled s m k then lineGate s n write fillIt
        else if m.state = .lost then .lost else .pull
      | g => g
  | none => lineGate s n write fillIt

/-- R131: start the recall of the host's copy, answered within 1 ms of device time. -/
def State.startRecall (s : State) (n : Nat) : State :=
  if s.mem.recalls.any (·.line = n) then s
  else { s with mem := { s.mem with recalls := s.mem.recalls ++ [⟨n, s.now + 1000000⟩] } }

/-! ### Reads and evictions at a slice (R128, R138, R139, R141, R142) -/

/-- R128, R138, R142: evict a line. Its check is verified and its errors are found; a dirty one is written to DRAM, with POISON
where it is poisoned or uncorrectable, which is reported to its one writer or logged without an owner. -/
def State.evictLine (s : State) (n : Nat) : State :=
  match s.lls n with
  | none => s
  | some l =>
    let t := ({ s with mem := { s.mem with lls := terase s.mem.lls n } }).countLls (popN 8 l.soft.toNat)
    let bad : BitVec 2 := if l.hard ≠ 0 ∨ l.syn ≠ 0 then 3 else l.poison
    let u :=
      if l.dirty then t.dramWrite n (BitVec.allOnes 128) l.data bad
      else if l.hard ≠ 0 then t.countLls 1
      else if l.syn ≠ 0 then t.spoilLine n 3 else t
    if l.hard ≠ 0 then
      if l.dirty then
        match l.multi, l.writer with
        | false, some f =>
          u.report f.val { cause := cMcLlsEcc, cls := 0, vf := BitVec.ofNat 6 f.val, point := 4, addr := BitVec.ofNat 64 (n * 128) }
        | _, _ => u.logPoint cMcDirtyEvictUe 4 (n * 128)
      else u
    else if l.syn ≠ 0 then u.logPoint cMcLinecheck 4 (n * 128) else u

/-- R138, R141, R142: what a read at the slice of the granules that `need` names gives: the line, or the cause its reader takes. -/
def State.readLine (s : State) (n : Nat) (need : BitVec 2 := 3) : Except Cause Line × State :=
  let s := s.soundLine n 0
  match s.lls n with
  | none =>
    let s := s.readDram n 3
    (if s.poisonOf n &&& need ≠ 0 then .error cPoison else .ok (s.lineVal n), s)
  | some l =>
    if l.hard ≠ 0 then (.error cMcLlsEcc, s.setLls n { l with poison := 3 })
    else if l.syn ≠ 0 then
      (.error cPoison, (s.setLls n { l with poison := 3, syn := 0, dirty := true }).logPoint cMcLinecheck 3 (n * 128))
    else (if l.poison &&& need ≠ 0 then .error cPoison else .ok l.data, s)

/-- R212: a CXL port runs CXL.mem and CXL.cache only in 256-byte flit mode. -/
def State.cxlReach (s : State) : Bool := (s.sys.cxl[0].up && s.sys.cxl[0].flit256) || (s.sys.cxl[1].up && s.sys.cxl[1].flit256)

/-- R231: set the valid bit of a pulled line and count it in FILLED. -/
def State.markPulled (s : State) (i : Nat) (m : MigEntry) (k : Nat) : State :=
  let a := m.bmap.toNat + k / 64 * 8
  let s := s.storeDpa a 8 ((s.dpaWord a) ||| (1 <<< (k % 64))).toNat none
  { s with mem := { s.mem with mig := tset s.mem.mig i { m with filled := m.filled + 1 } } }

/-- R233: the old page has no source: no port for a host page, a CXL error or timeout, or a stack that has not trained. -/
def pullFails (s : State) (m : MigEntry) (line : Nat) : Bool :=
  if m.oh then !s.cxlReach || Config.cxlReadFails s.sys.cycle line else !s.sys.stktrn.getLsbD (dpaStack m.old.toNat)

/-- R231, R233: pull line `k` of a migrating page, which is line `n`, from the old page: it is installed as the value,
poisoned as the old line is, its bit set and FILLED raised; without a source the entry becomes LOST. -/
def State.pullLine (s : State) (i : Nat) (m : MigEntry) (k n : Nat) : State :=
  let old := m.old.toNat / 128 + k
  if pullFails s m old then { s with mem := { s.mem with mig := tset s.mem.mig i { m with state := .lost } } }
  else
    let (v, bad, s) : Line × BitVec 2 × State :=
      if m.oh then (s.hostLine old, s.hostPoison old, s)
      else match s.readLine old with
        | (.ok l, t) => (l, 0, t)
        | (.error c, t) => (t.lineVal old, if c = cMcLlsEcc then 3 else t.poisonOf old, t)
    let s := s.setLls n { data := v, dirty := true, poison := bad }
    (s.watch false n).markPulled i m k

/-! ### Opening a line for an access (R127 to R131, R136, R231) -/

/-- Why an access by an engine does not go on: it waits, or it fails with a cause at an address. -/
inductive Hold | wait | fail (c : Cause) (a : Word)
deriving DecidableEq, Repr

/-- R127: the lines that the set of a line holds. -/
def setLines (s : State) (n : Nat) : List Nat :=
  (s.mem.lls.filter fun (m, _) => homeSlice (m * 128) = homeSlice (n * 128) ∧ llsSet (m * 128) = llsSet (n * 128)).map (·.1)

/-- R127: the line that an eviction for a line takes; the spec names no rule. -/
def State.victim (s : State) (n : Nat) : Nat :=
  (setLines s n).getD (Config.llsVictim s.sys.cycle (homeSlice (n * 128) * 2048 + llsSet (n * 128))).val n

/-- R231: the line of the old page that a pull reads, if it lies in device memory. -/
def pullSource (s : State) (n : Nat) : Option Nat :=
  match migOf s n with
  | some (_, m, k) => if m.oh then none else some (m.old.toNat / 128 + k)
  | none => none

/-- R131: the old line of a pull that the host owns and must give back first. -/
def pullRecall (s : State) (n : Nat) : Option Nat :=
  match pullSource s n with
  | some o => match dirFind s o with | some e => if e.owned then some o else none | none => none
  | none => none

/-- R231: a line that has a free place in its set is pulled. -/
def State.pullNow (s : State) (n : Nat) : State :=
  match migOf s n with
  | some (i, m, k) => s.pullLine i m k n
  | none => s

/-- One thing that stands before an access to a line, settled; none when nothing does. -/
def State.settle (s : State) (n : Nat) : Gate → Option Hold × State
  | .ok => (none, s)
  | .recall m => (some .wait, s.startRecall m)
  | .wait => (some .wait, s)
  | .lost => (some (.fail cMigrateSrc 0), s)
  | .fill => (none, s.fillLine n)
  | .evict => (none, s.evictLine (s.victim n))
  | .pull =>
    if (s.lls n).isNone && setFull s n then (none, s.evictLine (s.victim n))
    else match pullRecall s n with
      | some o => (some .wait, s.startRecall o)
      | none => (none, s.pullNow n)

/-- R231: what a write that covers its whole line meets: it fills nothing, and of an unpulled line it sets the bit
without reading, in the state in which it goes on. -/
def State.gateWhole (s : State) (n : Nat) (cbit : Bool) : Gate × State :=
  match s.gate n true cbit with
  | .fill => (.ok, s)
  | .pull =>
    match migOf s n with
    | some (i, m, k) =>
      let t := s.markPulled i m k
      match t.gate n true cbit with
      | .ok | .fill => (.ok, t)
      | g => (g, s)
    | none => (.pull, s)
  | g => (g, s)

/-- What an access to a line meets, by whether it is a write and covers the line. -/
def State.gateFor (s : State) (n : Nat) (write fillIt whole : Bool) : Gate × State :=
  if write && whole then s.gateWhole n fillIt else (s.gate n write fillIt, s)

/-- Whether a request writes. -/
def Req.writes (r : Req) : Bool :=
  match r.kind with | .write .. | .mwc .. | .atomic .. => true | _ => false

/-- R129: the writes, atomics and MWCs of sequencers that stand at a home slice, those before number `upto`. -/
def State.queueLoad (s : State) (slice upto : Nat) : Nat :=
  (s.mem.reqs.filter fun (j, q) =>
    j < upto && q.stage == .slice && q.writes && !q.trans.host && homeSlice q.trans.addr = slice).length

/-- R129: the write queue of a line's home slice has an entry for a write by an engine, the host or the module itself. -/
def State.queueRoom (s : State) (n : Nat) : Bool := s.queueLoad (homeSlice (n * 128)) s.mem.nextReq < 64

/-- R128 to R131, R231: open a line, step by step; the fuel bounds an eviction, a pull, an eviction and a fill. -/
def State.openFrom (s : State) (n : Nat) (write fillIt whole : Bool) : Nat → Option Hold × State
  | 0 => (some .wait, s)
  | f + 1 =>
    match s.gateFor n write fillIt whole with
    | (.ok, t) => (none, t)
    | (g, t) =>
      match t.settle n g with
      | (none, t) => t.openFrom n write fillIt whole f
      | (some h, t) => (some h, t)

/-- R138, R139, R142, R231: an access to a line of a migrating page reads its valid bit, where nothing stands before that read: the
cause that the access takes if the bitmap cannot be read (log 109). -/
def State.bitsRead (s : State) (n : Nat) : Option Cause × State :=
  match migOf s n with
  | some (_, m, k) =>
    if m.state = .armed ∨ lineGate s (m.bitLine k) false false ≠ .ok then (none, s)
    else match s.readLine (m.bitLine k) (granOf ((m.bmap.toNat + k / 64 * 8) % 128) 8) with
      | (.ok _, s) => (none, s)
      | (.error c, s) => (some c, s)
  | none => (none, s)

/-- R128 to R131, R231: open a line for an access, which has an entry of the slice's queue if it is a write. -/
def State.openLine (s : State) (n : Nat) (write fillIt whole : Bool) (fuel : Nat) : Option Hold × State :=
  if write && !s.queueRoom n then (some .wait, s)
  else match s.bitsRead n with
    | (some c, s) => (some (.fail c 0), s)
    | (none, s) => s.openFrom n write fillIt whole fuel

/-- A line of device memory as an engine reads its granules. -/
def State.readDev (s : State) (n : Nat) (fillIt : Bool) (need : BitVec 2 := 3) : Except Hold Line × State :=
  match s.openLine n false fillIt false 6 with
  | (some h, t) => (.error h, t)
  | (none, t) =>
    match t.readLine n need with
    | (.ok l, u) => (.ok l, u)
    | (.error c, u) => (.error (.fail c (BitVec.ofNat 64 (n * 128))), u)

/-- A write by an engine of a line's masked bytes, the granules that `bad` names poisoned. -/
def State.writeDev (s : State) (n : Nat) (mask : BitVec 128) (data : Line) (vf : Option (Fin 64)) (cbit : Bool)
    (bad : BitVec 2 := 0) : Option Hold × State :=
  match s.openLine n true cbit (mask == BitVec.allOnes 128) 6 with
  | (some h, t) => (some h, t)
  | (none, t) => (none, t.acceptWrite n mask data vf cbit bad)

/-- R131: the lines that an access of the module itself is to read or write are open, and what it reads is verified. Where one is
not, the module waits. -/
def State.openFor (s : State) (write : Bool) : List Nat → Bool × State
  | [] => (true, s)
  | n :: t =>
    match s.openLine n write false false 6 with
    | (some _, s) => (false, s)
    | (none, s) => (if write then s else (s.readLine n 0).2).openFor write t

/-- R131, R233: what an access that has to wait leaves of the state that it has come to: the recalls that it needs, and the
migrations that it has found without a source. -/
def State.keepWaits (s t : State) : State :=
  { s with mem := { s.mem with
      recalls := t.mem.recalls
      walking := t.mem.walking
      mig := s.mem.mig.map fun (i, m) =>
        (i, if (tget {} t.mem.mig i).state = .lost then { m with state := .lost } else m) } }

/-- R131: an access of the module itself that goes on once its lines are open. -/
def State.whenOpen (s : State) (write : Bool) (ls : List Nat) (go : State → State) : State :=
  match s.openFor write ls with
  | (true, t) => go t
  | (false, t) => s.keepWaits t

/-- The lines of `size` bytes from an address. -/
def linesOf (a size : Nat) : List Nat := (List.range ((a + size + 127) / 128 - a / 128)).map (a / 128 + ·)

/-! ### Records enter their queues (R214, R216, R218) -/

/-- R216: write one record to the function's ring, which has room, once its line is open. -/
def State.writeRecord (s : State) (f : Nat) (r : Record) : Bool × State :=
  let t := (s.fn f).tq
  match s.openFor true [t.slotAddr / 128] with
  | (false, s) => (false, s)
  | (true, s) => (true, (s.store64 t.slotAddr (r.toNat t.nextseq) none).modFn f fun x => { x with tq := x.tq.advanced, msix := x.msix + 1 })

/-- R87: FATAL after a fatal record that found no entry. -/
def fatalImage (old : Word) (r : Record) : Word :=
  if old.getLsbD 63 then old ||| (1 <<< 62)
  else BitVec.ofNat 64 (2 ^ 63 + r.q.toNat * 2 ^ 32 + r.cell.toNat * 2 ^ 8 + r.cause.toNat)

/-- R216: every queue of a function becomes FROZEN. -/
def State.freezeAll (s : State) (f : Nat) (c : Cause) : State :=
  { s with disp := { s.disp with queues := s.disp.queues.map fun (key, q) =>
      if key / 256 = f ∧ (q.state = .active ∨ q.state = .frozen) then
        (key, { q with state := .frozen, fcause := c, fidx := 0xffff }) else (key, q) } }

/-- R216: a replayable record is written, and awaits its response. -/
def State.writeReplayable (s : State) (f : Nat) (r : Record) : Bool × State :=
  match s.writeRecord f r with
  | (true, s') => (true, s'.modFn f fun y => { y with await := y.await ++ [⟨(s.fn f).tq.nextseq, r.cell.toNat, r.gang, r.cause⟩] })
  | p => p

/-- R216: a record enters its function's trap queue by its class; false while its line is not open. A fatal one without an entry
freezes a function that is ENABLED; one that is RESETTING or DISABLED stays so (R237, log 110). -/
def State.enter (s : State) (f : Nat) (r : Record) : Bool × State :=
  let x := s.fn f
  let room := if x.tq.en then x.tq.free else 0
  if r.cls = 0 then
    if 1 ≤ room then s.writeRecord f r
    else (true, (s.modFn f fun x =>
      { x with fatal := fatalImage x.fatal r, state := if x.state = .enabled then .frozen else x.state }).freezeAll f r.cause)
  else if r.cls = 1 then
    if 5 ≤ room ∧ x.held = [] then s.writeReplayable f r
    else (true, s.modFn f fun y => { y with held := y.held ++ [r] })
  else if 5 ≤ room then s.writeRecord f r
  else (true, s.modFn f fun y => { y with tq := { y.tq with lost := satInc y.tq.lost } })

/-- R216: held replayable records are written, in the order detected, as entries free. -/
def State.writeHeld (s : State) (f : Nat) : List Record → State
  | [] => s.modFn f fun y => { y with held := [] }
  | r :: t =>
    let x := s.fn f
    let stay (s : State) : State := s.modFn f fun y => { y with held := r :: t }
    if x.tq.en ∧ 5 ≤ x.tq.free then
      match s.writeReplayable f r with
      | (true, s) => s.writeHeld f t
      | (false, s) => stay s
    else stay s

/-- R216: give the held records the entries that are free. -/
def State.releaseHeld (s : State) (f : Nat) : State :=
  match (s.fn f).held with
  | [] => s
  | l => s.writeHeld f l

/-- R216: records that are due enter, in their order. -/
def State.enterDue (s : State) (f : Nat) : List Record → State
  | [] => s.modFn f fun y => { y with due := [] }
  | r :: t =>
    match s.enter f r with
    | (true, s) => s.enterDue f t
    | (false, s) => s.modFn f fun y => { y with due := r :: t }

/-- R216: the place of a record among those of one foundation cycle: by cell, its sequencer first, then by region slot. -/
def Record.rank (r : Record) : Nat := r.cell.toNat * 8 + if r.reg then 1 + r.rslot.toNat else 0

/-- A record in its place among others, after those of its rank. -/
def Record.among (r : Record) : List Record → List Record
  | [] => [r]
  | h :: t => if h.rank ≤ r.rank then h :: r.among t else r :: h :: t

/-- R216: the records detected in one foundation cycle, in their order. -/
def inRank (l : List Record) : List Record := l.foldl (fun t r => r.among t) []

/-- R216: a function's records at the end of a cycle; `last` where a foundation cycle ends with it. -/
def State.enterRecords (s : State) (last : Bool) (f : Nat) : State :=
  let s := if last then s.modFn f fun x => { x with due := x.due ++ inRank x.found, found := [] } else s
  let s := s.releaseHeld f
  match (s.fn f).due with
  | [] => s
  | l => s.enterDue f l

/-- R218: the error-log records that are due are written; one that finds the log full is dropped. -/
def State.enterErrors (s : State) : List Record → State
  | [] => { s with sys := { s.sys with errDue := [] } }
  | r :: t =>
    let q := s.sys.errLog
    if q.en && 1 ≤ q.free then
      match s.openFor true [q.slotAddr / 128] with
      | (false, s) => { s with sys := { s.sys with errDue := r :: t } }
      | (true, s) =>
        let s := s.store64 q.slotAddr (r.toNat q.nextseq) none
        (({ s with sys := { s.sys with errLog := q.advanced } }).modFn 0 fun x => { x with msix := x.msix + 1 }).enterErrors t
    else ({ s with sys := { s.sys with errLog := { q with lost := satInc q.lost } } }).enterErrors t

/-- R216, R218: the records of every function, and of the error log, at the end of a cycle. -/
def State.recordsEnter (s : State) (last : Bool) : State :=
  let s := s.fns.foldl (fun s (f, _) => s.enterRecords last f) s
  match s.sys.errDue with
  | [] => s
  | l => s.enterErrors l

/-! ### Page walks (R221 to R226) -/

/-- R221: lowest VA bit indexed at a level. -/
def levelShift (l : Nat) : Nat := if l = 3 then 39 else if l = 2 then 30 else if l = 1 then 21 else 16
/-- R221: the entry index of a VA at a level. -/
def levelIndex (l va : Nat) : Nat := va / 2 ^ levelShift l % (if l = 0 then 32 else 512)

/-- R222: permission bits of a leaf, R in bit 0, W in 1, X in 2. -/
def ptePerm (p : Word) : Nat := wbits p 3 1

/-- R223: a leaf at a level is malformed. -/
def leafMalformed (l : Nat) (p : Word) : Bool :=
  let b (i : Nat) : Bool := p.getLsbD i
  l == 3 || wbits p 63 62 != 0 || wbits p 15 10 != 0 ||
  (!b 9 && wbits p 49 41 != 0) ||
  (l == 2 && wbits p 29 16 != 0) || (l == 1 && wbits p 20 16 != 0) ||
  wbits p 55 50 + wbits p 61 56 != 63 ||
  (b 5 && (l != 1 || b 9 || !b 6)) ||
  (b 7 && (b 6 || b 9 || l == 2))

/-- R223: a non-leaf entry at a level is malformed. -/
def tableMalformed (l : Nat) (p : Word) : Bool :=
  l == 0 || wbits p 7 1 != 0 || wbits p 16 9 != 0 || wbits p 63 50 != 0 || (l != 1 && wbits p 20 17 != 0)

/-- R223: the next table's DPA. -/
def nextTable (p : Word) : Nat := wbits p 49 17 * 256

/-- R224: the outcome of a leaf for a function, a need (R, W, X bits) and whether host pages are forbidden (R130). -/
def leafOutcome (p : Word) (level vf va need : Nat) (noHost : Bool) : Except Cause Trans :=
  if wbits p 61 56 ≠ vf then .error cXlatePerm
  else if (ptePerm p).land need ≠ need then .error cXlatePerm
  else if noHost && p.getLsbD 9 then .error cXlatePerm
  else .ok { addr := wbits p 49 16 * 65536 + va % 2 ^ levelShift level, host := p.getLsbD 9, cbit := p.getLsbD 4 }

/-- R226: the leaf a translation agent holds for a VA. -/
def tlbFind (s : State) (die : Nat) (asid : BitVec 16) (va : Nat) : Option (Word × Nat) :=
  (s.mem.tlb.find? fun e => e.die.val = die ∧ e.asid = asid ∧ e.base ≤ va ∧ va < e.base + 2 ^ levelShift e.size).map
    fun e => (e.pte, e.size)

/-- R226: the non-leaf entry a walk cache holds. -/
def walkFind (s : State) (die : Nat) (asid : BitVec 16) (level va : Nat) : Option Word :=
  (s.mem.walks.find? fun e =>
    e.die.val = die ∧ e.asid = asid ∧ e.level.val = level ∧ e.vpre = va / 2 ^ levelShift level).map (·.pte)

/-- R224, R226: the entry at a DPA that a walk meets at a level: the walk cache's, or a strong load at its home slice. -/
def State.walkEntry (s : State) (die : Nat) (asid : BitVec 16) (l va a : Nat) : Except Hold Word × State :=
  match walkFind s die asid l va with
  | some p => (.ok p, s)
  | none =>
    match s.readDev (a / 128) false (granOf (a % 128) 8) with
    | (.ok v, s) => (.ok (BitVec.ofNat 64 (lineBytes v (a % 128) 8)), s)
    | (.error h, s) => (.error h, s)

/-- R224: how an entry ends a walk at level `l`: a cause or a leaf; none for a table. -/
def entryEnd (l : Nat) (p : Word) : Option (Except Hold (Word × Nat)) :=
  if !p.getLsbD 0 then some (.error (.fail cXlateMiss 0))
  else if p.getLsbD 8 then some (if leafMalformed l p then .error (.fail cXlatePerm 0) else .ok (p, l))
  else if tableMalformed l p then some (.error (.fail cXlatePerm 0)) else none

/-- R221, R224: the walk from a level down: the leaf and its level, and the tables passed. -/
def State.walkFrom (s : State) (die : Nat) (asid : BitVec 16) (va : Nat) : Nat → Nat →
    Except Hold (Word × Nat) × List (Nat × Word) × State
  | 0, base =>
    match s.walkEntry die asid 0 va (base + 8 * levelIndex 0 va) with
    | (.error h, s) => (.error h, [], s)
    | (.ok p, s) => ((entryEnd 0 p).getD (.error (.fail cXlatePerm 0)), [], s)
  | l + 1, base =>
    match s.walkEntry die asid (l + 1) va (base + 8 * levelIndex (l + 1) va) with
    | (.error h, s) => (.error h, [], s)
    | (.ok p, s) =>
      match entryEnd (l + 1) p with
      | some e => (e, [], s)
      | none =>
        let (e, ws, s) := s.walkFrom die asid va l (nextTable p)
        (e, (l + 1, p) :: ws, s)

/-- The first `n` of those in a list that have a property, and all the others. -/
def capped {α : Type} (p : α → Bool) : Nat → List α → List α
  | _, [] => []
  | 0, x :: t => if p x then capped p 0 t else x :: capped p 0 t
  | n + 1, x :: t => x :: capped p (if p x then n else n + 1) t

/-- R226: a translation agent keeps a leaf and the tables that led to it. -/
def State.keepWalk (s : State) (die : Nat) (asid : BitVec 16) (va : Nat) (p : Word) (l : Nat) (ws : List (Nat × Word)) : State :=
  let d : Fin 16 := Fin.ofNat 16 die
  let t : TlbEntry := { die := d, asid := asid, base := va / 2 ^ levelShift l * 2 ^ levelShift l, size := l, pte := p }
  let ns := ws.filterMap fun (lv, q) =>
    if (walkFind s die asid lv va).isSome then none
    else some ({ die := d, asid := asid, level := Fin.ofNat 4 lv, vpre := va / 2 ^ levelShift lv, pte := q } : WalkEntry)
  { s with mem := { s.mem with tlb := capped (·.die == d) 16384 (t :: s.mem.tlb), walks := capped (·.die == d) 512 (ns ++ s.mem.walks) } }

/-- A cause that a walk's leaf gives, as a failure. -/
def leafEnd (p : Word) (level vf va need : Nat) (noHost : Bool) : Except Hold Trans :=
  match leafOutcome p level vf va need noHost with
  | .ok t => .ok t
  | .error c => .error (.fail c 0)

/-- R221, R226: a walk of an agent: the leaf and its level, with what the agent keeps, or why there is none. -/
def State.walk (s : State) (die : Nat) (asid : BitVec 16) (va : Nat) : Except Hold (Word × Nat) × State :=
  match s.walkFrom die asid va 3 ((tget {} s.mem.asids asid.toNat).root.toNat * 4096) with
  | (.error h, _, s) => (.error h, s)
  | (.ok (p, l), ws, s) => (.ok (p, l), s.keepWalk die asid va p l ws)

/-- R226: the walks that an agent has in progress. -/
def State.walksOf (s : State) (die : Nat) : Nat := (s.mem.walking.filter (·.die == Fin.ofNat 16 die)).length

/-- R224 to R226: translate a VA for an ASID at a die's agent, walking when its TLB misses; R225: an ASID that is not
VALID translates nothing. A walk that has to wait for an entry's line is in progress until it ends: a miss of its page joins it,
and a miss that finds 64 in progress waits for one to end. -/
def State.translate (s : State) (die : Nat) (asid : BitVec 16) (va need : Nat) (noHost : Bool) :
    Except Hold Trans × State :=
  let a := tget {} s.mem.asids asid.toNat
  let w : Walking := ⟨Fin.ofNat 16 die, asid, va / 65536⟩
  if !a.valid then (.error (.fail cXlateMiss 0), s)
  else match tlbFind s die asid va with
    | some (p, l) => (leafEnd p l a.vf.toNat va need noHost, s)
    | none =>
      if s.mem.walking.contains w ∨ 64 ≤ s.walksOf die then (.error .wait, s)
      else match s.walk die asid va with
        | (.error .wait, s) => (.error .wait, { s with mem := { s.mem with walking := s.mem.walking ++ [w] } })
        | (.error h, s) => (.error h, s)
        | (.ok (p, l), s) => (leafEnd p l a.vf.toNat va need noHost, s)

/-- R226, R227: the walks in progress go on, and end where nothing stands before them any more; a miss that waits looks again. -/
def State.goWalks (s : State) : List Walking → State
  | [] => s
  | w :: t =>
    if (tget {} s.mem.asids w.asid.toNat).valid then
      match s.walk w.die.val w.asid (w.page * 65536) with
      | (.error .wait, u) => (s.keepWaits u).goWalks t
      | (_, s) => ({ s with mem := { s.mem with walking := s.mem.walking.filter (· != w) } }).goWalks t
    else ({ s with mem := { s.mem with walking := s.mem.walking.filter (· != w) } }).goWalks t

end Sys2Proof.Machine
end

