-- ==== Sys2Proof/Machine/Ops.lean ====
section
/-! DEFINITION. The named operations of a cell's sequencer: registers, the operand log, the program counter with its
delay slots and loops, the trace, taking an exception and returning from one, and the stop of a cell. -/

namespace Sys2Proof.Machine

/-! ### Registers (R71) -/

/-- R71: a general register; g0 reads zero. -/
def CellSt.greg (x : CellSt) (r : Reg) : GReg := if r.val = 0 then {} else x.seq.g[r]
/-- R277: X(n). -/
def CellSt.gval (x : CellSt) (r : Reg) : Word := (x.greg r).data
/-- R71: a predicate; p0 reads 1. -/
def CellSt.pval (x : CellSt) (k : Pred) : Bool := k.val = 0 || x.seq.p.getLsbD k.val
/-- R71: write a general register with residues of its data; g0 discards. -/
def CellSt.setG (x : CellSt) (r : Reg) (v : Word) : CellSt :=
  if r.val = 0 then x else { x with seq := { x.seq with g := x.seq.g.set r.val (GReg.of v) r.isLt } }
/-- One bit of a bit vector replaced. -/
def setBit {n : Nat} (v : BitVec n) (i : Nat) (b : Bool) : BitVec n :=
  if b then v ||| (BitVec.ofNat n (2 ^ i)) else v &&& ~~~(BitVec.ofNat n (2 ^ i))
/-- R71: write a predicate; p0 discards. -/
def CellSt.setP (x : CellSt) (k : Pred) (b : Bool) : CellSt :=
  if k.val = 0 then x else { x with seq := { x.seq with p := setBit x.seq.p k.val b } }
/-- R76: write the destination a log entry names. -/
def CellSt.setDest (x : CellSt) (d : BitVec 6) (v : Word) : CellSt :=
  if d.toNat < 32 then x.setG (Fin.ofNat 32 d.toNat) v
  else if d.toNat < 40 then x.setP (Fin.ofNat 8 d.toNat) (v.getLsbD 0)
  else x
def destG (r : Reg) : BitVec 6 := BitVec.ofNat 6 r.val
def destP (k : Pred) : BitVec 6 := BitVec.ofNat 6 (32 + k.val)
def destNone : BitVec 6 := 63

/-- The encoded word of an instruction, as a log entry or record holds it. -/
def wordOf (i : Instr) : BitVec 32 := (encode i).getD 0

/-! ### The operand log (R42, R76, R273, R85, R290) -/

/-- R85: whether an armed injection takes a sequencer result of a class. -/
def CellSt.injects (x : CellSt) (cls : Option Nat) : Bool :=
  x.seq.errinj.arm && x.seq.errinj.seq && cls == some x.seq.errinj.cls.toNat
def CellSt.disarm (x : CellSt) : CellSt := { x with seq := { x.seq with errinj := { x.seq.errinj with arm := false } } }
/-- R85: the mismatch of a 64-bit result whose predicted residue has 1 added. -/
def injected (v : Word) : ResBad :=
  let f := BitVec.ofNat 2 (v.toNat % 3)
  { lane := 0, pred := BitVec.ofNat 2 ((v.toNat + 1) % 3), found := f }
/-- R244: count a residue mismatch. -/
def CellSt.countRes (x : CellSt) : CellSt := { x with ec := { x.ec with resid := satInc x.ec.resid } }

/-- R277: Write(d, v, 1): the result stands from the next issue cycle on. The results of CALL, CRD, TIME, LWAIT, WAITA, LK.WAIT,
PH.AW, PH.QRY, CP.QRY, QPOP and QROOM, which R69 puts in no class, come here and are never injected (log 13). -/
def CellSt.write1 (x : CellSt) (r : Reg) (v : Word) : CellSt :=
  if r.val = 0 then x else { x.setG r v with wrote := destG r :: x.wrote }

/-- The fields of a word's register operands. -/
def wordA (w : BitVec 32) : Reg := Fin.ofNat 32 (bitsOf w.toNat 16 12)
def wordB (w : BitVec 32) : Reg := Fin.ofNat 32 (bitsOf w.toNat 11 7)
def wordD (w : BitVec 32) : Reg := Fin.ofNat 32 (bitsOf w.toNat 21 17)

/-- R76: what an entry records of a field of its word: the register that it names, if the instruction reads it. -/
def CellSt.logSrc (x : CellSt) (srcs : List Reg) (r : Reg) : GReg := if srcs.contains r then x.greg r else {}

/-- R76: the sources of an instruction of latency 1; those of SEL are the one it has selected (log 13). -/
def CellSt.logSrcs (x : CellSt) (i : Instr) (srcs : List Reg) : GReg × GReg × GReg :=
  let w := wordOf i
  match i with
  | .sel y => let v := x.greg (if x.pval y.k then y.a else y.b); (v, v, {})
  | _ => (x.logSrc srcs (wordA w), x.logSrc srcs (wordB w), x.logSrc srcs (wordD w))

/-- R42, R85: a result of latency 1 whose residue is injected does not land: its entry is a late fault of the next issue
cycle. It takes the injection before a logged result that lands in its cycle (log 13). -/
def CellSt.inject1 (x : CellSt) (i : Instr) (srcs : List Reg) (r : Reg) (v : Word) : CellSt :=
  let (a, b, k) := x.logSrcs i srcs
  let e : LogEntry := { word := wordOf i, pcw := x.seq.pc, srcA := a, srcB := b, srcC := k, dest := destG r, remain := 1,
                        fault := cMcResidue, val := v, bad := some (injected v) }
  let y := x.disarm.countRes
  { y with seq := { y.seq with log := y.seq.log ++ [e] } }

/-- R277: PWrite(k, b) with latency 1. -/
def CellSt.pwrite1 (x : CellSt) (k : Pred) (b : Bool) : CellSt := { x.setP k b with wrote := destP k :: x.wrote }

/-- R42, R76: an instruction of latency above 1 records itself. -/
def CellSt.pushLog (x : CellSt) (e : LogEntry) : CellSt := { x with seq := { x.seq with log := x.seq.log ++ [e] } }

/-- R69, R85: the class of the result of a logged instruction; VGET's, which R69 does not name, has none (log 13). -/
def logClass : Instr → Option Nat
  | .mul _ | .mulh _ | .mulhn _ => some 3
  | .div _ | .divn _ | .rem _ | .remn _ => some 4
  | .fadd _ | .fsub _ | .fmul _ | .fma _ | .fcvt _ => some 0xa
  | .fmin _ | .fmax _ => some 7
  | _ => none

/-- R290: the floating-point instructions. -/
def isScalarFp : Instr → Bool
  | .fadd _ | .fsub _ | .fmul _ | .fma _ | .fmin _ | .fmax _ | .fcmp _ | .fcvt _ => true
  | _ => false

/-- R290: a floating-point result that lands joins those of its cycle. -/
def CellSt.landFp (x : CellSt) (e : LogEntry) : CellSt :=
  match decode e.word with
  | .ok i => if isScalarFp i then { x with fpLanded := x.fpLanded ++ [⟨e.flags, e.pcw, e.word⟩] } else x
  | _ => x

/-- R273, R290: one entry whose turn to land has come: it lands and leaves, or stays with its fault. A result written
in the same cycle by a later instruction stands. A result for g0 takes no injection (log 13). An entry that stays has REMAIN 0
(log 115). -/
def CellSt.landEntry (x : CellSt) (e : LogEntry) : CellSt × List LogEntry :=
  if e.fault ≠ 0 then (x, [{ e with remain := 0 }])
  else
    let cls := match decode e.word with | .ok i => logClass i | _ => none
    if e.dest ≠ 0 ∧ x.injects cls then
      (x.disarm.countRes, [{ e with remain := 0, fault := cMcResidue, bad := some (injected e.val) }])
    else
      let y := if x.wrote.contains e.dest then x else x.setDest e.dest e.val
      (({ y with seq := { y.seq with fp := { y.seq.fp with sticky := y.seq.fp.sticky ||| e.flags } } }).landFp e, [])

/-- R290: the results that have landed in one cycle: if the flags of one of them trap, ARITH is due, with the flags of all
and the address of the earliest. One that is due already takes the flags in (log 91). -/
def CellSt.closeFp (x : CellSt) : CellSt :=
  let fl := x.fpLanded.foldl (fun f e => f ||| e.flags) 0
  match x.fpLanded with
  | [] => x
  | e :: _ =>
    let due := if fl &&& x.seq.fp.enable = 0 then x.seq.arith
      else some (match x.seq.arith with | some a => { a with flags := a.flags ||| fl } | none => { e with flags := fl })
    { x with fpLanded := [], seq := { x.seq with arith := due } }

/-- One issue cycle of the log: every entry counts down and those due land, oldest first. -/
def CellSt.tickFrom (x : CellSt) : List LogEntry → CellSt × List LogEntry
  | [] => (x, [])
  | e :: t =>
    if e.remain = 0 ∨ e.phase ≠ none then
      let (y, r) := x.tickFrom t
      (y, e :: r)
    else if e.remain = 1 then
      let (y, k) := x.landEntry e
      let (z, r) := y.tickFrom t
      (z, k ++ r)
    else
      let (y, r) := x.tickFrom t
      (y, { e with remain := e.remain - 1 } :: r)

/-- R273: the end of an issue cycle for the operand log. -/
def CellSt.tickLog (x : CellSt) : CellSt :=
  let (y, l) := x.tickFrom x.seq.log
  { y with seq := { y.seq with log := l }, wrote := [] }.closeFp

/-- R42: every other entry runs to its landing. -/
def CellSt.runLog (x : CellSt) : Nat → CellSt
  | 0 => x
  | n + 1 => (x.tickLog).runLog n

/-- R42: whether an entry's fault is due and not yet serviced. -/
def LogEntry.due (e : LogEntry) : Bool := e.fault != 0 && e.remain == 0 && !e.again

/-- R42: the oldest entry whose fault is due now. -/
def CellSt.dueFault (x : CellSt) : Option LogEntry := x.seq.log.find? LogEntry.due

/-! ### PMC events (R243) -/

def CellSt.ev (x : CellSt) (code : Nat) (slot : Option (Fin 4)) (n : Nat) : CellSt :=
  { x with events := x.events ++ [⟨code, slot, n⟩] }
def State.ev (s : State) (c code : Nat) : State := s.modCell c fun x => x.ev code none 1

/-! ### The trace (R245 to R247) -/

/-- R86: packets are emitted while FN and EN are 1. -/
def CellSt.tracing (x : CellSt) : Bool := x.seq.traceFn && x.seq.traceEn

/-- R246: a word address as an offset from CODEBASE. -/
def CellSt.ofs (x : CellSt) (a : VAddr) : Nat := ((a - x.seq.id.codebase).toNat / 4) % 2 ^ 30

/-- R245: put a packet in the die's collector, after a GAP when packets were lost; a full buffer drops and counts it. -/
def State.collect (s : State) (c : Nat) (typ payload : Nat) : State :=
  let d := s.die (c / 1600)
  let vf := (s.cell c).seq.id.vfid
  let pkt (t p : Nat) : BitVec 6 × BitVec 64 := (vf, BitVec.ofNat 64 (t * 2 ^ 60 + c * 2 ^ 45 + p % 2 ^ 45))
  let lost := tget 0 d.lost c
  let room := d.trace.length + (if lost = 0 then 1 else 2) ≤ 4096
  if room then
    let gap := if lost = 0 then [] else [pkt 0xa lost.toNat]
    let s := s.setDie (c / 1600) { d with trace := d.trace ++ gap ++ [pkt typ payload], lost := terase d.lost c }
    if lost = 0 ∨ typ = 0x1 then s else s.modCell c fun x => { x with trace := { x.trace with due := some 3 } }
  else s.setDie (c / 1600) { d with lost := tset d.lost c (satInc lost) }

/-- The number of a list of bits, oldest in bit 0. -/
def bitsNat : List Bool → Nat
  | [] => 0
  | b :: t => (if b then 1 else 0) + 2 * bitsNat t

/-- R246: BHIST for the pending outcome bits. -/
def State.flushBits (s : State) (c : Nat) : State :=
  let bs := (s.cell c).trace.bits
  if bs = [] then s
  else (s.modCell c fun x => { x with trace := { x.trace with bits := [] } }).collect c 0x2
    (bitsNat bs + (bs.length - 1) * 2 ^ 32)

/-- R246: emit a packet of a tracing cell, after its pending bits. -/
def State.emit (s : State) (c typ payload : Nat) : State :=
  if (s.cell c).tracing then (s.flushBits c).collect c typ payload else s

/-- R247: record one outcome bit; 32 pending leave at once. -/
def State.outcome (s : State) (c : Nat) (b : Bool) : State :=
  if (s.cell c).tracing then
    let s := s.modCell c fun x => { x with trace := { x.trace with bits := x.trace.bits ++ [b] } }
    if 32 ≤ (s.cell c).trace.bits.length then s.flushBits c else s
  else s

/-- Record outcome bits in issue order. -/
def State.outcomes (s : State) (c : Nat) : List Bool → State
  | [] => s
  | b :: t => (s.outcome c b).outcomes c t

/-- R246: START before the first issue that is due one. -/
def State.startPacket (s : State) (c : Nat) : State :=
  let x := s.cell c
  match x.trace.due with
  | some why =>
    if x.tracing && x.seq.lact == 0 && x.seq.slot == .none then
      let s := s.modCell c fun y => { y with trace := { y.trace with due := none } }
      s.emit c 0x1 (x.ofs x.seq.pc + why.toNat * 2 ^ 30 + (if x.seq.traceMark then 2 ^ 32 else 0))
    else s
  | none => s

/-! ### Program counter, delay slots and loops (R41, R74, R75, R291, R296, R297) -/

/-- R296: the loop-end step at a word's address for levels k − 1 down to 0: the redirection and the outcome bits. -/
def Seq.loopEnd (q : Seq) (a : VAddr) : Nat → Seq × Option VAddr × List Bool
  | 0 => (q, none, [])
  | k + 1 =>
    let l := q.loops[(Fin.ofNat 4 k).val]
    if q.lact.getLsbD k && l.le == a then
      let q' := { q with loops := q.loops.set (Fin.ofNat 4 k).val { l with lc := l.lc - 1 } }
      if l.lc - 1 ≠ 0 then (q', some l.lb, [true])
      else
        let (r, t, bs) := ({ q' with lact := setBit q'.lact k false }).loopEnd a k
        (r, t, false :: bs)
    else q.loopEnd a k

/-- The sequencer after a word that is no transfer has issued: the delay slot of a taken transfer takes no loop step. -/
def Seq.next (q : Seq) : Seq × List Bool :=
  match q.slot with
  | .taken => ({ q with pc := q.npc, npc := q.npc + 4, slot := .none }, [])
  | _ =>
    let (r, t, bs) := q.loopEnd q.pc 4
    let n := t.getD r.npc
    ({ r with pc := n, npc := n + 4, slot := .none }, bs)

/-- R291: after a taken transfer the slot issues, then the target. -/
def Seq.taken (q : Seq) (t : VAddr) : Seq := { q with pc := q.npc, npc := t, slot := .taken }

/-- R297: after a transfer that is not taken the slot issues, then what a loop step at this word selects. -/
def Seq.untaken (q : Seq) : Seq × List Bool :=
  let (r, t, bs) := q.loopEnd q.pc 4
  ({ r with pc := r.npc, npc := t.getD (r.npc + 4), slot := .untaken }, bs)

/-- The end of an instruction's issue: the freeze and what it held are gone. -/
def CellSt.issuedNow (x : CellSt) : CellSt := { x with freeze := .none, hold := [], issued := true }.ev 0x02 none 1

/-- An instruction that is no transfer has issued (R296). -/
def State.advance (s : State) (c : Nat) : State :=
  let (q, bs) := (s.cell c).seq.next
  let s := (s.modCell c fun x => { x with seq := q }.issuedNow).outcomes c bs
  bs.foldl (fun s _ => s.ev c 0x09) s

/-- A transfer to `t` is taken. -/
def State.take (s : State) (c : Nat) (t : VAddr) : State :=
  s.modCell c fun x => ({ x with seq := x.seq.taken t }.issuedNow).ev 0x08 none 1

/-- A transfer is not taken. -/
def State.fall (s : State) (c : Nat) : State :=
  let (q, bs) := (s.cell c).seq.untaken
  let s := (s.modCell c fun x => { x with seq := q }.issuedNow).outcomes c bs
  bs.foldl (fun s _ => s.ev c 0x09) s

/-! ### Stops (R161, R181) -/

/-- R193: a cell leaves every list of sleepers and appenders. -/
def State.leaveLists (s : State) (c : Nat) : State :=
  { s with disp := { s.disp with wqs := s.disp.wqs.map fun (n, w) =>
      (n, { w with sleepers := w.sleepers.filter (· ≠ c), appenders := w.appenders.filter (· ≠ .cell c) }) } }

/-- R220: the class of a cause that a sequencer takes to the trap queue: 1 replayable, 0 fatal. -/
def causeClass (c : Cause) : BitVec 2 := if c = cXlateMiss ∨ c = cMigrateSrc ∨ c = cMcResidue then 1 else 0

/-- R163, R171, R196: which of two codes a frame takes: a discard before a fatal cause, that before a replayable one, and
that before PREEMPT and YIELD. -/
def codeRank (c : Cause) : Nat :=
  if c = cFlrKilled then 3 else if c = cPreempt ∨ c = cYield then 0 else if causeClass c = 1 then 1 else 2

/-- R161, R163: a cell's stop begins, or a weightier cause replaces the code of one under way. Where the regions of the cell
have issued their cycle already, the first cycle of the stop for them is the next (log 92). -/
def State.stopCell (s : State) (c : Nat) (code : Cause) : State :=
  s.modCell c fun x => { x with restart := false, stop :=
    match x.stop with
    | none => some { code := code, cycle := s.sys.cycle + (if x.fired then 1 else 0) }
    | some t => if codeRank t.code < codeRank code then some { t with code := code } else some t }

/-- R181: a fatal cause of a gang's cell freezes its kernel's queue and marks the gang. -/
def State.fatalFor (s : State) (b : Binding) (cause : Cause) : State :=
  let s := s.modQueue b.vf b.q fun q =>
    if q.state = .active then { q with state := .frozen, fcause := cause, fidx := BitVec.ofNat 16 (b.slot % 2 ^ q.ringlog) } else q
  match tfind s.disp.gangs b.gang with
  | none => s
  | some g => { s with disp := { s.disp with gangs := tset s.disp.gangs b.gang { g with fatal := g.fatal.or (some cause) } } }

/-- R181: a fatal stop of a cell freezes its kernel's queue and marks its gang. -/
def State.kernelFatal (s : State) (c : Nat) (cause : Cause) : State :=
  match (s.cell c).bound with
  | none => s
  | some b => s.fatalFor b cause

/-- R215: the fields of a record that name a cell's function, queue and number. -/
def State.cellRecord (s : State) (c : Nat) (cause : Cause) (cls : BitVec 2) : Record :=
  let x := s.cell c
  { cause := cause, cls := cls, vf := x.seq.id.vfid, q := (x.bound.map (·.q)).getD 0, cell := BitVec.ofNat 15 c,
    gang := x.bound.map (·.gang) }

/-- R215: what a residue mismatch adds to a record. -/
def Record.withBad (r : Record) : Option ResBad → Record
  | none => r
  | some b => { r with lane := BitVec.ofNat 4 b.lane.val, info := BitVec.ofNat 64 (b.pred.toNat + 4 * b.found.toNat) }

/-! ### Taking an exception and returning from one (R80, R81) -/

/-- R81: a vectored in-program trap: the trap registers are set and issue continues at TRAPVEC. The cycle of a precise one is no
issue cycle for the operand log (log 116). -/
def State.trapEntry (s : State) (c : Nat) (cause : Cause) (done reg : Bool) (slot : BitVec 2) (info : Word)
    (pc npc : VAddr) : State :=
  let x := s.cell c
  let s := s.emit c 0x4 (x.ofs pc + cause.toNat * 2 ^ 30 + (if done then 2 ^ 38 else 0))
  let s := s.emit c 0x3 (x.ofs x.seq.trap.vec)
  s.modCell c fun y =>
    { y with freeze := .none, hold := [], seq := { y.seq with
        trap := { vec := y.seq.trap.vec, pc := pc, npc := npc, done := done, reg := reg, slot := slot, cause := cause, info := info,
                  kind := some y.seq.slot }
        intrap := true, pc := y.seq.trap.vec, npc := y.seq.trap.vec + 4, slot := .none } }

/-- R81: whether an in-program cause is vectored. -/
def CellSt.vectored (x : CellSt) : Bool := x.seq.trap.vec != 0 && !x.seq.intrap

/-- R80, R290: TRAPINFO of ARITH from the sequencer. -/
def ArithDue.info (a : ArithDue) : Word := BitVec.ofNat 64 (a.flags.toNat * 2 ^ 60 + a.pcw.toNat)

/-- R81, R290: ARITH that is due is taken before any word issues, if it is vectored, and is due no more; one that is not
vectored is given back. -/
def State.vectorArith (s : State) (c : Nat) : Option ArithDue × State :=
  let x := s.cell c
  let s := s.modCell c fun y => { y with seq := { y.seq with arith := none } }
  match x.seq.arith with
  | some a => if x.vectored then (none, s.trapEntry c cArith false false 0 a.info x.seq.pc x.seq.npc) else (some a, s)
  | none => (none, s)

/-- R42, R215: the record of a cause of the sequencer: it names the oldest entry found faulting, and an ARITH that is not
vectored outranks a replayable one (log 91). -/
def State.seqRecord (s : State) (c : Nat) (a : Option ArithDue) (r : Record) : Record :=
  let r := match (s.cell c).seq.log.find? fun e => e.fault ≠ 0 ∧ ¬e.again with
    | some e => { (s.cellRecord c e.fault (causeClass e.fault)) with pc := e.pcw, opword := e.word.setWidth 64, addr := e.addr }.withBad e.bad
    | none => r
  match a with
  | some a => if r.cls = 0 then r else { (s.cellRecord c cArith 0) with pc := a.pcw, opword := a.word.setWidth 64 }
  | none => r

/-- R42, R161, R181: a cause of the sequencer goes to the trap queue: every other log entry lands, and the cell stops. -/
def State.seqFault (s : State) (c : Nat) (cause : Cause) (pc : VAddr) (word addr : Word) (bad : Option ResBad) : State :=
  let s := s.modCell c fun x => x.runLog 24
  let (a, s) := s.vectorArith c
  let r := s.seqRecord c a ({ (s.cellRecord c cause (causeClass cause)) with pc := pc, opword := word, addr := addr }.withBad bad)
  let s := (s.report (s.cell c).seq.id.vfid.toNat r).modCell c fun y => { y with freeze := .none, hold := [] }
  let s := (s.stopCell c r.cause).modCell c fun y => { y with stop := y.stop.map fun t => { t with atSeq := true } }
  if r.cls = 0 then s.kernelFatal c r.cause else s

/-- R81, R302: a precise cause of the instruction at PC, which has no effect. -/
def State.raise (s : State) (c : Nat) (i : Instr) (cause : Cause) (info : Word) (bad : Option ResBad := none) : State :=
  let x := s.cell c
  if (cause = cMisalign ∨ cause = cArith) ∧ x.vectored then
    s.trapEntry c cause false false 0 info x.seq.pc x.seq.npc
  else s.seqFault c cause x.seq.pc ((wordOf i).setWidth 64) info bad

/-- R81: SW_TRAP, BKPT and a region's ARITH are taken after the instruction has completed, at the step that follows it. -/
def State.raiseDone (s : State) (c : Nat) (i : Instr) (cause : Cause) (reg : Bool) (slot : BitVec 2) (info : Word) : State :=
  let pc := (s.cell c).seq.pc
  let s := s.advance c
  if (s.cell c).vectored then s.trapEntry c cause true reg slot info pc (s.cell c).seq.pc
  else s.seqFault c cause pc ((wordOf i).setWidth 64) 0 none

/-- R81, R290: ARITH of the results that landed with a trapped flag, before any word issues. -/
def State.arithTrap (s : State) (c : Nat) : State :=
  match s.vectorArith c with
  | (some a, s) => s.seqFault c cArith a.pcw (a.word.setWidth 64) 0 none
  | (none, s) => s

/-- R42, R290: what is due in this issue cycle before any word issues: an ARITH, and the fault of a logged entry, in the
issue cycle in which its result would have been readable. -/
def State.lateFault (s : State) (c : Nat) : State :=
  let s := s.arithTrap c
  match (s.cell c).dueFault with
  | none => s
  | some e => if (s.cell c).stop.any (·.atSeq) then s else s.seqFault c e.fault e.pcw (e.word.setWidth 64) e.addr e.bad

/-- R41: in what slot the word at TRAPPC stands. After a write of TRAPPC or TRAPNPC, a word whose successor is not the next
in order stands in that of a taken transfer (log 32). -/
def TrapRegs.slotKind (t : TrapRegs) : SlotKind :=
  if t.done then .none else t.kind.getD (if t.npc = t.pc + 4 then .none else .taken)

/-- R81: TRET clears INTRAP and resumes. -/
def State.trapReturn (s : State) (c : Nat) : State :=
  let x := s.cell c
  let t := x.seq.trap
  let (pc, npc) := if t.done then (t.npc, t.npc + 4) else (t.pc, t.npc)
  let s := (s.emit c 0x3 (x.ofs pc)).emit c 0x3 (x.ofs npc)
  s.modCell c fun y => { y with seq := { y.seq with
    intrap := false, pc := pc, npc := npc, slot := t.slotKind } }.issuedNow

/-! ### Freezes (R40, R84) -/

/-- R40: a sequencer frozen at a word that it has taken up; a full operand log or a miss leaves none taken up. -/
def Freeze.inWord : Freeze → Bool
  | .bank | .mem _ | .accept | .wait => true
  | .none | .ifetch | .logFull => false

/-- R116, R193: what has ended a wait stands in what it keeps: the word of a WAITA or LK.WAIT, the entry of a QPOP or its cause. -/
def CellSt.ended (x : CellSt) : Bool :=
  match x.hold with | k :: _ => k == 2 || k == 9 || k == 10 | [] => false

/-- R40: the sequencer freezes at this instruction. -/
def State.freezeAt (s : State) (c : Nat) (f : Freeze) : State := s.modCell c fun x => { x with freeze := f }

/-- R84: a cell that stands in a wait instruction yields; with `fresh`, what comes about in this cycle may still end the wait. -/
def State.yieldAt (s : State) (c : Nat) (fresh : Bool) : State :=
  (s.stopCell c cYield).modCell c fun x => { x with stop := x.stop.map fun t => { t with fresh := fresh } }

/-- R40, R84: a wait freeze, keeping what the instruction read at issue; with a yield requested the cell yields in the cycle in
which the freeze begins. One whose cell is stopping already waits in no list (R193). -/
def State.waitAt (s : State) (c : Nat) (hold : List Word) : State :=
  let s := s.modCell c fun x => { x with freeze := .wait, hold := hold }
  match (s.cell c).stop with
  | none => if (s.cell c).seq.yreq then (s.yieldAt c false).leaveLists c else s
  | some t => if t.fresh then s else s.leaveLists c

end Sys2Proof.Machine
end

