-- ==== Sys2Proof/Machine/Operands.lean ====
section
/-! DEFINITION. How a sequencer instruction issues (R257, R258, R72, R277): the checks before any effect, the reads of
its operands, and the ways in which a result is written. -/

namespace Sys2Proof.Machine

/-- The outcome of a step. -/
abbrev Out := Host.Outcome State Fault Refusal

/-- R257: whether an instruction takes effect. -/
def CellSt.guardTrue (x : CellSt) (g : Guard) : Bool := x.pval g.idx != g.neg

/-- R72: the first source register that fails its check, in operand order (log 95: the rule does not say which register a
record names when two fail). -/
def CellSt.badSrc (x : CellSt) : List Reg → Option ResBad
  | [] => none
  | r :: t => match srcBad (x.gval r) (x.greg r).res with
    | some b => some b
    | none => x.badSrc t

/-- R257, R291, R295: an instruction with a false guard; a transfer with a slot is not taken and records its bit. -/
def State.skip (s : State) (c : Nat) (i : Instr) : State :=
  match i with
  | .br _ | .call _ | .jmp _ | .ret _ | .loop _ => (s.outcome c false).fall c
  | .lbrk _ => (s.outcome c false).advance c
  | _ => s.advance c

/-- R258, R257, R72: the checks of an instruction, in order, and then its effect at the current cell. The guard of one that is
frozen in its wait has been found true, whatever has landed since (R294). -/
def State.issueAs (s : State) (i : Instr) (g : Guard) (srcs : List Reg) (eff : Nat → State → State) : Out :=
  let c := s.sched.cur
  let x := s.cell c
  .next <|
    if i.isTransfer && x.seq.slot != .none then s.raise c i cBranchInSlot 0
    else if !i.wf then s.raise c i cIllOperand 0
    else if !x.guardTrue g && x.freeze != .wait then s.skip c i
    else match x.badSrc srcs with
      | some b => (s.modCell c CellSt.countRes).raise c i cMcResidue 0 (some b)
      | none => eff c s

/-- R40: the sequencer freezes while all eight log entries are in use; what is in flight goes on (log 8). -/
def State.freezeLog (s : State) (c : Nat) : State := s.modCell c fun x => { x with freeze := .logFull, issued := true }

/-- R40, R42: whether the operand log is full. -/
def CellSt.logFull (x : CellSt) : Bool := 8 ≤ x.seq.log.length

/-- R277: an instruction whose one effect is Write(d, v, 1). A result whose residue is injected needs an operand-log
entry (R40, log 13). -/
def State.writeOp (s : State) (i : Instr) (g : Guard) (srcs : List Reg) (d : Reg) (cls : Option Nat)
    (v : CellSt → Word) : Out :=
  s.issueAs i g srcs fun c s =>
    let y := s.cell c
    if d.val ≠ 0 ∧ y.injects cls then
      if y.logFull then s.freezeLog c else (s.modCell c fun x => x.inject1 i srcs d (v x)).advance c
    else (s.modCell c fun x => x.write1 d (v x)).advance c

/-- R277: an instruction whose one effect is PWrite(k, b) with latency 1. -/
def State.predOp (s : State) (i : Instr) (g : Guard) (srcs : List Reg) (k : Pred) (b : CellSt → Bool) : Out :=
  s.issueAs i g srcs fun c s => (s.modCell c fun x => x.pwrite1 k (b x)).advance c

/-- R42, R76: an instruction of latency above 1 computes on operands read at issue and records itself. -/
def State.logOp (s : State) (i : Instr) (g : Guard) (srcs : List Reg) (dest : BitVec 6) (lat : Nat)
    (a b k : CellSt → GReg) (r : CellSt → Word × Flags) : Out :=
  s.issueAs i g srcs fun c s =>
    if (s.cell c).logFull then s.freezeLog c
    else (s.modCell c fun x =>
      x.pushLog { word := wordOf i, pcw := x.seq.pc, srcA := a x, srcB := b x, srcC := k x, dest := dest, remain := lat,
                  val := (r x).1, flags := (r x).2 }).advance c

/-- No operand. -/
def noReg (_ : CellSt) : GReg := {}

/-! ### Widths (R278) -/

/-- The width of an INT operation. -/
def widthOf (w : Bool) : Nat := if w then 32 else 64

/-- R278: the unsigned view of a source. -/
def unsignedOf (w : Bool) (v : Word) : Nat := v.toNat % 2 ^ widthOf w

/-- R278: the signed view of a source. -/
def signedOf (w : Bool) (v : Word) : Int := sval (widthOf w) v.toNat

/-- R278: the value written: the whole result, or the sign-extended low half. -/
def resultOf (w : Bool) (v : Int) : Word := sextN (widthOf w) (wrapN (widthOf w) v)

/-- R281: a sign-extended 12-bit immediate. -/
def imm12 (v : BitVec 12) : Word := v.signExtend 64

/-! ### Effective addresses (R123, R124, R299) -/

/-- R263, R299: base plus scaled displacement. -/
def CellSt.ea (x : CellSt) (base : Reg) (imm : BitVec 9) (scale : Nat) : Word :=
  x.gval base + imm.signExtend 64 * BitVec.ofNat 64 scale

/-- R123: the path of an address. -/
def pathOf (a : Word) : Nat := wbits a 63 60

/-- R123: whether an address is legal. -/
def legalAddr (fw : Bool) (a : Word) : Bool :=
  match pathOf a with
  | 0 => wbits a 59 48 == 0
  | 1 => wbits a 59 19 == 0
  | 2 => wbits a 59 48 == 0 && wbits a 31 19 == 0 && wbits a 47 32 < 25600
  | 3 => wbits a 59 41 == 0 && fw
  | _ => false

/-- R124: a legal address on one of the paths an instruction accepts. -/
def CellSt.addrOk (x : CellSt) (paths : List Nat) (a : Word) : Bool :=
  legalAddr x.seq.fw a && paths.contains (pathOf a)

/-- R123: the scratchpad offset of a path-0x1 or path-0x2 address. -/
def offOf (a : Word) : Nat := wbits a 18 0

/-- R123: the target cell of a path-0x2 address. -/
def cellOf (a : Word) : Nat := wbits a 47 32

/-- R18: whether a cell is bound to the sender's gang. -/
def State.sameGang (s : State) (c t : Nat) : Bool :=
  match (s.cell c).bound, (s.cell t).bound with
  | some a, some b => a.gang = b.gang
  | _, _ => false

end Sys2Proof.Machine
end

