-- ==== Sys2Proof/Machine/Access.lean ====
section
/-! DEFINITION. The local memories of a cell (R108 to R121): bank words and their sharing, caches, the write-combining
buffer, and the requests that its sequencer has at the translation agent and the home slices. -/

namespace Sys2Proof.Machine

/-! ### Scratchpad words (R108, R109, R113) -/

/-- R108: the bank of a scratchpad offset. -/
def bankOf (off : Nat) : Nat := off / 8 % 128

/-- R108: the word that holds an offset. -/
def CellSt.spWord (x : CellSt) (off : Nat) : Word := mword x.spad (off / 8 * 8)

/-- R113: an uncorrectable word. -/
def CellSt.spBad (x : CellSt) (off : Nat) : Bool := tfind x.ecc (off / 8) = some true

/-- R113, R244: a read of a word; one bit in error is corrected, counted and scheduled for write-back. -/
def CellSt.spNote (x : CellSt) (off : Nat) : CellSt :=
  if tfind x.ecc (off / 8) = some false then
    { x with ec := { x.ec with spad := satInc x.ec.spad }, scrub := (off / 8) :: x.scrub.filter (· ≠ off / 8) }.ev 0x40 none 1
  else x

/-- R308: whether a word satisfies a WAITA. -/
def waitaHolds (w cmp : Word) : Nat → Bool
  | 0 => w = cmp
  | 1 => w ≠ cmp
  | 2 => cmp ≤ w
  | _ => w.getLsbD 63 || wbits w 55 0 = wbits cmp 55 0

/-- R116, R338: what a frozen WAITA keeps, [1, offset, comparand, condition], or LK.WAIT, with its deadline behind, and [2, word]
once a written word has satisfied it: none does once a stop has begun (R84), but for a WAITA's in the cycle in which it
begins (R317). -/
def CellSt.spWake (x : CellSt) (off : Nat) : CellSt :=
  match x.hold with
  | 1 :: a :: cmp :: cond :: more =>
    if x.freeze = .wait ∧ (x.stop.all fun t => t.fresh && more.isEmpty) ∧ a.toNat / 8 = off / 8 ∧
        waitaHolds (x.spWord off) cmp cond.toNat then
      { x with hold := [2, x.spWord off] } else x
  | _ => x

/-- R109: `size` bytes of one word are replaced; its check bits are fresh. -/
def CellSt.spPut (x : CellSt) (off size : Nat) (v : Nat) : CellSt :=
  { x with spad := mwrite x.spad off (leBytes v size), ecc := terase x.ecc (off / 8), scrub := x.scrub.filter (· ≠ off / 8) }

/-- R109: a bank cycle that writes `size` bytes of one word. -/
def CellSt.spWrite (x : CellSt) (off size : Nat) (v : Nat) : CellSt :=
  ((if size < 8 then x.spNote off else x).spPut off size v).spWake off

/-- Successive words read. -/
def CellSt.spWords (x : CellSt) (off : Nat) : Nat → List Word
  | 0 => []
  | n + 1 => x.spWord off :: x.spWords (off + 8) n

/-- The offsets of `n` words from one up. -/
def wordOffs (off : Nat) : Nat → List Nat
  | 0 => []
  | n + 1 => off :: wordOffs (off + 8) n

/-- R113: whether one of `n` words is uncorrectable. -/
def CellSt.spBads (x : CellSt) (off n : Nat) : Bool := (wordOffs off n).any x.spBad

/-- R113: reads of `n` words. -/
def CellSt.spNotes (x : CellSt) (off n : Nat) : CellSt := (wordOffs off n).foldl CellSt.spNote x

/-- R115: the success form of a completion word. -/
def doneWord (info : BitVec 4) (val : BitVec 56) : Word := BitVec.ofNat 64 (info.toNat * 2 ^ 56 + val.toNat)

/-- R115: the error form of a completion word. -/
def errorWord (progress : Nat) (c : Cause) : Word := BitVec.ofNat 64 (2 ^ 63 + progress % 2 ^ 40 * 256 + c.toNat)

/-! ### Bank cycles (R111) -/

/-- The bank is in use this cycle: by the fabric as its number, by another class as its number plus 128. -/
def CellSt.bankUsed (x : CellSt) (b : Nat) : Bool := x.banks.contains b || x.banks.contains (b + 128)

/-- R111: the refusals in a row of a class at a bank. -/
def CellSt.refusals (x : CellSt) (cls b : Nat) : Nat :=
  ((x.refused.find? fun r => r.cls = cls ∧ r.bank = b).map (·.count)).getD 0

/-- R111: the classes with an access that has been refused a bank 32 times in a row. -/
def CellSt.earned (x : CellSt) (b : Nat) : List Nat :=
  ((x.refused.filter fun r => r.bank = b ∧ 32 ≤ r.count).map (·.cls)) ++
    (x.puts.filter fun p => bankOf p.off = b ∧ 32 ≤ p.count).map (·.cls)

/-- R111: another access has earned this bank's next free cycle ahead of the order; `own` is the count of the access that asks. -/
def CellSt.outranked (x : CellSt) (cls own b : Nat) : Bool := (x.earned b).any fun k => own < 32 || k < cls

/-- R111: whether a class gets a bank in this cycle. -/
def CellSt.bankFree (x : CellSt) (cls b : Nat) : Bool := !x.bankUsed b && !x.outranked cls (x.refusals cls b) b

/-- R111: a class takes its banks; its counts there restart. -/
def CellSt.useBanks (x : CellSt) (cls : Nat) (bs : List Nat) : CellSt :=
  { x with banks := bs.map (· + 128) ++ x.banks, refused := x.refused.filter fun r => ¬(r.cls = cls ∧ bs.contains r.bank) }

/-- R111, R243: a class is refused a bank; a refusal by the fabric alone adds no count. -/
def CellSt.refuse (x : CellSt) (cls b : Nat) : CellSt :=
  let x := x.ev 0x38 none 1
  if x.banks.contains b then x
  else { x with refused := ⟨cls, b, x.refusals cls b + 1⟩ :: x.refused.filter fun r => ¬(r.cls = cls ∧ r.bank = b) }

/-- R111: a class asks for several banks at once and gets all or none. -/
def CellSt.askBanks (x : CellSt) (cls : Nat) (bs : List Nat) : Bool × CellSt :=
  if bs.all (x.bankFree cls) then (true, x.useBanks cls bs)
  else (false, (bs.filter fun b => !x.bankFree cls b).foldl (fun x b => x.refuse cls b) x)

/-- R111: the counts of a class lapse when it stops asking. -/
def CellSt.lapse (x : CellSt) (cls : Nat) : CellSt := { x with refused := x.refused.filter (·.cls ≠ cls) }

/-- R111: an operation has accesses pending at this cell. -/
def CellSt.pending (x : CellSt) (who : SpWho) : Bool := x.puts.any (·.who == who)

/-- Accesses to be served join those pending. -/
def CellSt.addPuts (x : CellSt) (ps : List SpReq) : CellSt := { x with puts := x.puts ++ ps }

/-- R113: an operation at the head of its queue gets a word that it reads, or learns that a word cannot be corrected. -/
def CellSt.spGive (x : CellSt) (who : SpWho) (off : Nat) (w : Option Word) : CellSt :=
  match who, x.copyq, x.linkq with
  | .copy, k :: t, _ => { x with copyq := { k with got := (off, w) :: k.got } :: t }
  | .link, _, k :: t => { x with linkq := { k with got := (off, w) :: k.got } :: t }
  | _, _, _ => x

/-- R109, R113: an access that has its bank; a write of part of a word that cannot be corrected does not take place. -/
def CellSt.perform (x : CellSt) (p : SpReq) : CellSt :=
  if p.size = 0 then (x.spNote p.off).spGive p.who p.off (if x.spBad p.off then none else some (x.spWord p.off))
  else if p.size < 8 ∧ x.spBad p.off then x.spGive p.who p.off none
  else x.spWrite p.off p.size p.val

/-- R111, R112: the pending accesses of a class that this cycle serves, at most eight of one operation and one in each bank that it
asks for (log 21): the cell, the accesses left and those served, the last first. -/
def CellSt.serveFrom (x : CellSt) (cls : Nat) (asked : List (SpWho × Nat)) (won : List SpReq) :
    List SpReq → CellSt × List SpReq × List SpReq
  | [] => (x, [], won)
  | p :: t =>
    let b := bankOf p.off
    if p.cls ≠ cls ∨ asked.contains (p.who, b) ∨ 8 ≤ (won.filter (·.who == p.who)).length then
      let (y, l, w) := x.serveFrom cls asked won t
      (y, p :: l, w)
    else if x.bankUsed b ∨ x.outranked cls p.count b then
      let (y, l, w) := (x.ev 0x38 none 1).serveFrom cls ((p.who, b) :: asked) won t
      (y, { p with count := if x.banks.contains b then p.count else p.count + 1 } :: l, w)
    else
      ({ x with banks := (b + 128) :: x.banks }.perform p).serveFrom cls ((p.who, b) :: asked) (p :: won) t

/-- R40, R111: the sequencer's access to banks: granted, it goes on with the cell; refused, it freezes. -/
def State.withBanks (s : State) (c : Nat) (bs : List Nat) (go : State → State) : State :=
  let (ok, x) := (s.cell c).askBanks 2 bs
  let s := s.setCell c x
  if ok then go s else s.freezeAt c .bank

/-! ### Data cache and write-combining buffer (R118 to R121) -/

/-- The number of the line of a virtual address. -/
def vline (a : Word) : Nat := wbits a 47 7

/-- R118: the cached copy of a line. -/
def CellSt.dfind (x : CellSt) (tag : Nat) : Option DLine :=
  x.dcache.find? fun l => l.tag = tag ∧ l.asid = x.seq.id.asid

/-- R118: a line whose parity fails is invalidated and counted, to be fetched again. -/
def CellSt.dcheck (x : CellSt) (tag : Nat) : CellSt :=
  match x.dfind tag with
  | some l => if l.parityBad then
      { x with dcache := x.dcache.filter (· ≠ l), ec := { x.ec with dcp := satInc x.ec.dcp } } else x
  | none => x

/-- R121: the cached copy of a line goes. -/
def CellSt.ddrop (x : CellSt) (tag : Nat) : CellSt :=
  { x with dcache := x.dcache.filter fun l => ¬(l.tag = tag ∧ l.asid = x.seq.id.asid) }

/-- R119: a cached copy, if present, takes bytes. -/
def CellSt.dpatch (x : CellSt) (tag : Nat) (mask : BitVec 128) (v : Line) : CellSt :=
  { x with dcache := x.dcache.map fun l =>
      if l.tag = tag ∧ l.asid = x.seq.id.asid then { l with data := mergeLine mask l.data v } else l }

/-- R141, R305: a strong load refreshes a cached copy; the copy goes if a granule of the line, that the load did not read, is
poisoned (log 119). -/
def CellSt.drefresh (x : CellSt) (tag : Nat) (v : Line) (bad : BitVec 2) : CellSt :=
  if bad = 0 then x.dpatch tag (BitVec.allOnes 128) v else x.ddrop tag

/-- R150: a copy that the cell's own copy engine has overtaken goes. -/
def CellSt.dpast (x : CellSt) (tag : Nat) : CellSt :=
  { x with dcache := x.dcache.filter fun l => ¬(l.tag = tag ∧ l.asid = x.seq.id.asid ∧ l.past) }

/-- R149, R150: the cell's own copy engine has written a line of global memory. -/
def CellSt.dpassed (x : CellSt) (tag : Nat) : CellSt :=
  { x with dcache := x.dcache.map fun l => if l.tag = tag ∧ l.asid = x.seq.id.asid then { l with past := true } else l }

/-- R118: a line enters its set, in place of one the spec leaves open when the set holds eight. -/
def CellSt.dfill (x : CellSt) (c cycle tag : Nat) (v : Line) : CellSt :=
  let set := x.dcache.filter (·.tag % 32 = tag % 32)
  let out := if 8 ≤ set.length then set[(Config.dcacheVictim cycle (c * 32 + tag % 32)).val]? else none
  let rest := match out with | some l => x.dcache.filter (· ≠ l) | none => x.dcache
  { x with dcache := rest ++ [{ tag := tag, asid := x.seq.id.asid, data := v }] }

/-- R119: the WCB entry of a line. -/
def CellSt.wfind (x : CellSt) (tag : Nat) : Option WcbEntry :=
  x.wcb.find? fun e => e.tag = tag ∧ e.asid = x.seq.id.asid

/-- R119: a weak store merges into its entry. -/
def CellSt.wmerge (x : CellSt) (tag : Nat) (mask : BitVec 128) (v : Line) : CellSt :=
  { x with wcb := x.wcb.map fun e =>
      if e.tag = tag ∧ e.asid = x.seq.id.asid then { e with data := mergeLine mask e.data v, mask := e.mask ||| mask } else e }

/-- R119: bytes of a line with the WCB entry's bytes over it. -/
def CellSt.overlay (x : CellSt) (tag : Nat) (l : Line) : Line :=
  match x.wfind tag with | some e => mergeLine e.mask l e.data | none => l

/-! ### Requests (R129, R226, R300) -/

/-- A new request, numbered in the order of the module. -/
def State.addReq (s : State) (r : Req) : State :=
  { s with mem := { s.mem with reqs := tset s.mem.reqs s.mem.nextReq r, nextReq := s.mem.nextReq + 1 } }

/-- The number that the next request will have. -/
def State.nextId (s : State) : Nat := s.mem.nextReq

def State.req (s : State) (id : Nat) : Option Req := tfind s.mem.reqs id
def State.setReq (s : State) (id : Nat) (r : Req) : State := { s with mem := { s.mem with reqs := tset s.mem.reqs id r } }
def State.dropReq (s : State) (id : Nat) : State := { s with mem := { s.mem with reqs := terase s.mem.reqs id } }

/-- A request of a cell for the line of an address: to be translated on path 0, at its slice on path 3, which has no C bit: it is
served as on a page with C = 0 (log 97). -/
def State.mkReq (s : State) (c : Nat) (kind : ReqKind) (a : Word) (need : BitVec 3) : Req :=
  let x := s.cell c
  { cell := c, kind := kind, line := if pathOf a = 3 then wbits a 40 7 else vline a, asid := x.seq.id.asid,
    vf := Fin.ofNat 64 x.seq.id.vfid.toNat, q := (x.bound.map (·.q)).getD 0, need := need,
    trans := { addr := wbits a 40 7 * 128, cbit := false }, stage := if pathOf a = 3 then .slice else .walk }

/-- R40: a request is sent and the sequencer freezes until it is answered. -/
def State.sendFreeze (s : State) (c : Nat) (r : Req) : State := (s.addReq r).freezeAt c (.mem s.nextId)

/-- A write-class request of a cell that is not yet accepted. -/
def Req.unaccepted (r : Req) (c : Nat) : Bool := r.cell = c && (r.stage == .walk || r.stage == .slice) && r.writes

/-- Write-class requests of a cell not yet accepted. -/
def State.pendingWrites (s : State) (c : Nat) : Bool := s.mem.reqs.any fun (_, r) => r.unaccepted c

/-- R119, R153: fills of a line that the cell has asked for are asked for again, behind the drain of its entry. -/
def State.askAgain (s : State) (c : Nat) (tag : Nat) (asid : BitVec 16) : Tab Req → State
  | [] => s
  | (id, r) :: t =>
    let s :=
      if r.cell = c ∧ r.kind = .fill ∧ r.line = tag ∧ r.asid = asid then
        let new := s.nextId
        ((s.dropReq id).addReq { r with stage := .walk }).modCell c fun x => { x with freeze := if x.freeze = .mem id then .mem new else x.freeze }
      else s
    s.askAgain c tag asid t

/-- R119, R120: one entry drains to its home slice as a masked write. A cached copy of the line takes its bytes, or goes if they
cannot be corrected. -/
def State.drainEntry (s : State) (c : Nat) (e : WcbEntry) : State :=
  let s := s.modCell c fun x => if e.bad = 0 then x.dpatch e.tag e.mask e.data else x.ddrop e.tag
  let x := s.cell c
  let r : Req := { cell := c, kind := .write e.mask e.data true e.bad, line := e.tag, asid := e.asid,
                   vf := Fin.ofNat 64 x.seq.id.vfid.toNat, q := (x.bound.map (·.q)).getD 0, need := 2, trans := e.trans,
                   stage := .slice }
  ((s.addReq r).modCell c fun x => { x with wcb := x.wcb.filter (· ≠ e) }.ev 0x22 none 1).askAgain c e.tag e.asid s.mem.reqs

/-- R119, R120: the entry of a line, if any, drains. -/
def State.drainLine (s : State) (c tag : Nat) : State :=
  match (s.cell c).wfind tag with | some e => s.drainEntry c e | none => s

/-- R120: an entry that is found uncorrectable drains. -/
def State.drainBad (s : State) (c tag : Nat) : State :=
  match (s.cell c).wfind tag with | some e => if e.bad = 0 then s else s.drainEntry c e | none => s

/-- R120: entries drain in allocation order. -/
def State.drainList (s : State) (c : Nat) : List WcbEntry → State
  | [] => s
  | e :: t => (s.drainEntry c e).drainList c t

/-- R120: every entry drains. -/
def State.drainAll (s : State) (c : Nat) : State := s.drainList c (s.cell c).wcb

/-- R147: nothing that a release waits for is left: no entry, no write on its way, no signal-store in flight. -/
def State.released (s : State) (c : Nat) : Bool :=
  (s.cell c).wcb.isEmpty && !s.pendingWrites c && !s.mem.signals.any (·.src = c)

/-- R146, R147, R306: a release at a scope, 0 being none: at cell scope it completes once the signal-stores to the cell itself have
been written, and at block scope or wider the buffer drains and it completes once that is accepted. -/
def State.release (s : State) (c scope : Nat) : Bool × State :=
  if scope = 0 then (true, s)
  else if scope = 1 then (!s.mem.signals.any (fun g => g.src = c ∧ g.dst = c), s)
  else
    let s := s.drainAll c
    (s.released c, s)

/-- R147, R121: an acquire at a scope: at block scope or wider the data cache is invalidated. -/
def State.acquire (s : State) (c scope : Nat) : State :=
  if scope ≤ 1 then s else s.modCell c fun x => { x with dcache := [] }

/-- R40, R146: an instruction that is a release waits for it, frozen as a wait with what it has read, and then goes on. -/
def State.afterRelease (s : State) (c scope : Nat) (go : State → State) (hold : List Word := []) : State :=
  let (ok, s) := s.release c scope
  if ok then go s else s.waitAt c hold

/-! ### Reads of several words by an instruction (R306, R318) -/

/-- What the reads of earlier cycles left, frozen on a bank: [5, mask, w0, …]. -/
def heldWords (x : CellSt) (n : Nat) : Nat × List Word :=
  match x.freeze, x.hold with
  | .bank, 5 :: m :: ws => (m.toNat, ws)
  | _, _ => (0, List.replicate n 0)

/-- The reads of one cycle: each word still wanted whose bank is free. -/
def readStep (x : CellSt) (off : Nat) : Nat → Nat → List Word → CellSt × Nat × List Word
  | _, m, [] => (x, m, [])
  | j, m, w :: t =>
    let o := off + 8 * j
    if m.testBit j then
      let (y, m', r) := readStep x off (j + 1) m t
      (y, m', w :: r)
    else
      let (ok, y) := x.askBanks 2 [bankOf o]
      let (z, m', r) := readStep (if ok then y.spNote o else y) off (j + 1) (if ok then m + 2 ^ j else m) t
      (z, m', (if ok then x.spWord o else 0) :: r)

/-- R306, R318: `n` words from an offset read as class-2 requests, frozen until every one has been granted; an
uncorrectable one is MC_SPAD_ECC at the instruction. -/
def State.readWords (s : State) (c : Nat) (i : Instr) (a : Word) (off n : Nat) (go : List Word → State → State) : State :=
  let y := s.cell c
  let (m, ws) := heldWords y n
  let (z, m', ws') := readStep y off 0 m ws
  let s := s.setCell c z
  if m' ≠ 2 ^ n - 1 then s.modCell c fun z => { z with freeze := .bank, hold := 5 :: BitVec.ofNat 64 m' :: ws' }
  else if y.spBads off n then s.raise c i cMcSpadEcc a
  else go ws' s

end Sys2Proof.Machine
end

