-- ==== Sys2Proof/Machine/Control.lean ====
section
/-! DEFINITION. Transfers, loops, HALT, traps, control registers, counters and the system instructions
(R291 to R298, R340 to R346). -/

namespace Sys2Proof.Machine

/-! ### Transfers (R291 to R298) -/

/-- R247: the outcome bit of a transfer, recorded when its guard is not p0. -/
def State.guardBit (s : State) (c : Nat) (g : Guard) (taken : Bool) : State :=
  if g.idx.val = 0 then s else s.outcome c taken

/-- R292: the target of form B. -/
def branchTarget (pc : VAddr) (off : BitVec 22) : VAddr := pc + off.signExtend 48 * 4

/-- R291, R292: BR. -/
def execBr (x : BranchArgs) (s : State) : Out :=
  s.issueAs (.br x) x.g [] fun c s => (s.guardBit c x.g true).take c (branchTarget (s.cell c).seq.pc x.off)

/-- R292: CALL writes the address after its slot to g31. -/
def execCall (x : BranchArgs) (s : State) : Out :=
  s.issueAs (.call x) x.g [] fun c s =>
    let pc := (s.cell c).seq.pc
    let s := s.modCell c fun y => y.write1 31 (pc.setWidth 64 + 8)
    (s.guardBit c x.g true).take c (branchTarget pc x.off)

/-- R293, R246: an indirect transfer to a target that is checked before it takes effect. -/
def State.indirect (s : State) (c : Nat) (i : Instr) (g : Guard) (t : Word) : State :=
  if wbits t 63 48 ≠ 0 then s.raise c i cAddrIllegal t
  else if wbits t 1 0 ≠ 0 then s.raise c i cMisalign t
  else ((s.guardBit c g true).emit c 0x3 ((s.cell c).ofs (wordAddr t))).take c (wordAddr t)

/-- R293: JMP. -/
def execJmp (x : SrcArgs) (s : State) : Out :=
  s.issueAs (.jmp x) x.g [x.a] fun c s => s.indirect c (.jmp x) x.g ((s.cell c).gval x.a)

/-- R293: RET. -/
def execRet (g : Guard) (s : State) : Out :=
  s.issueAs (.ret g) g [31] fun c s => s.indirect c (.ret g) g ((s.cell c).gval 31)

/-- R294: NOP. -/
def execNop (g : Guard) (s : State) : Out := s.issueAs (.nop g) g [] fun c s => s.advance c

/-- R294: no copy, near-bank or link command of a cell is without its completion word. -/
def State.enginesIdle (s : State) (c : Nat) : Bool :=
  (s.cell c).copyq.isEmpty && (s.cell c).linkq.isEmpty && !s.mem.nb.any (·.cell = c)

/-- R40: a wait in which what is in flight goes on to its landing (log 8). -/
def State.waitRunning (s : State) (c : Nat) : State := (s.modCell c fun x => { x with issued := true }).waitAt c []

/-- R294: HALT. -/
def execHalt (g : Guard) (s : State) : Out :=
  s.issueAs (.halt g) g [] fun c s =>
    if !(s.cell c).seq.log.isEmpty then s.waitRunning c
    else if !s.enginesIdle c then s.waitAt c []
    else s.afterRelease c 4 fun s =>
      (s.emit c 0x9 ((s.cell c).ofs (s.cell c).seq.pc)).modCell c fun x => { x.issuedNow with halted := true }

/-- R295: LOOP. -/
def execLoop (x : LoopArgs) (s : State) : Out :=
  s.issueAs (.loop x) x.g [x.d] fun c s =>
    let q := (s.cell c).seq
    if q.lact.toNat / 2 ^ x.k.val ≠ 0 then s.raise c (.loop x) cLoopNest 0
    else
      let cnt := (s.cell c).gval x.d
      let le := q.pc + x.last.setWidth 48 * 4
      let l : LoopLevel := { lb := q.pc + 8, le := le, lc := cnt }
      let s := s.modCell c fun y => { y with seq := { y.seq with
        loops := y.seq.loops.set x.k.val l, lact := if cnt = 0 then y.seq.lact else setBit y.seq.lact x.k.val true } }
      let s := s.outcome c (cnt ≠ 0)
      if cnt = 0 then s.take c (le + 4) else s.fall c

/-- R298: the levels from k up are closed. -/
def closeLoops (q : Seq) (k : Nat) : Seq :=
  let loops := (List.finRange 4).foldl (fun (v : Vector LoopLevel 4) j =>
    if k ≤ j.val then v.set j.val { v[j.val] with lc := 0 } else v) q.loops
  { q with loops := loops, lact := BitVec.ofNat 4 (q.lact.toNat % 2 ^ k) }

/-- R298: LBRK. -/
def execLbrk (x : LevelArgs) (s : State) : Out :=
  s.issueAs (.lbrk x) x.g [] fun c s =>
    let q := (s.cell c).seq
    if q.lact.getLsbD x.k.val then
      let t := q.loops[x.k.val].le + 4
      (s.guardBit c x.g true).modCell c fun y =>
        { y with seq := { closeLoops y.seq x.k.val with pc := t, npc := t + 4, slot := .none } }.issuedNow.ev 0x08 none 1
    else (s.guardBit c x.g false).advance c

/-! ### Traps, YIELD, TRACE, INVT (R340 to R342, R345, R346) -/

/-- R340: TRAP. -/
def execTrap (x : CodeArgs) (s : State) : Out :=
  s.issueAs (.trap x) x.g [] fun c s => s.raiseDone c (.trap x) cSwTrap false 0 (x.code.setWidth 64)

/-- R340: BKPT. -/
def execBkpt (x : CodeArgs) (s : State) : Out :=
  s.issueAs (.bkpt x) x.g [] fun c s => s.raiseDone c (.bkpt x) cBkpt false 0 (x.code.setWidth 64)

/-- R341: YIELD. With a request it waits for an empty operand log, issues as a release and stops the cell. -/
def execYield (g : Guard) (s : State) : Out :=
  s.issueAs (.yield g) g [] fun c s =>
    if !(s.cell c).seq.yreq then s.advance c
    else if !(s.cell c).seq.log.isEmpty then s.modCell c fun x => { x with freeze := .wait, hold := [], issued := true }
    else ((s.drainAll c).advance c).stopCell c cYield

/-- R342: TRET. -/
def execTret (g : Guard) (s : State) : Out :=
  s.issueAs (.tret g) g [] fun c s =>
    if (s.cell c).seq.intrap then s.trapReturn c else s.raise c (.tret g) cIllOperand 0

/-- R345: TRACE. -/
def execTrace (x : SrcArgs) (s : State) : Out :=
  s.issueAs (.trace x) x.g [x.a] fun c s =>
    let y := s.cell c
    (if y.seq.traceMark then s.emit c 0x8 (y.gval x.a).toNat else s).advance c

/-- R227: a shootdown begins. -/
def State.addShoot (s : State) (h : Shoot) : State :=
  { s with mem := { s.mem with shoots := tset s.mem.shoots s.mem.nextShoot h, nextShoot := s.mem.nextShoot + 1 } }

/-- R346: INVT. Frozen, it keeps [3, the number of its shootdown]. -/
def execInvt (x : Src2Args) (s : State) : Out :=
  s.issueAs (.invt x) x.g [x.a, x.b] fun c s =>
    let y := s.cell c
    match y.freeze, y.hold with
    | .wait, [3, n] =>
      if (tfind s.mem.shoots n.toNat).isSome then s.waitAt c [3, n] else s.advance c
    | _, _ =>
      let a := y.gval x.a
      let b := y.gval x.b
      let start (r : Option (Nat × Nat)) : State :=
        (s.addShoot { asid := y.seq.id.asid, range := r }).waitAt c [3, BitVec.ofNat 64 s.mem.nextShoot]
      if x.b.val = 0 then start none
      else if !y.addrOk [0] a then s.raise c (.invt x) cAddrIllegal a
      else if b = 0 then s.advance c
      else start (some (a.toNat, a.toNat + b.toNat))

/-! ### Control registers (R77 to R87, R343) -/

/-- The number of a Boolean. -/
def bit (b : Bool) : Nat := if b then 1 else 0

/-- A Boolean of each region slot, slot k in bit k. -/
def CellSt.slotBits (x : CellSt) (f : Region → Bool) : Nat :=
  bit (f x.region[0]) + 2 * bit (f x.region[1]) + 4 * bit (f x.region[2]) + 8 * bit (f x.region[3])

/-- R104: STATUS.RBUSY: RUNNING or HELD. -/
def Region.busy (r : Region) : Bool := r.state = .running || r.state = .held

/-- R79: STATUS. -/
def CellSt.status (x : CellSt) : Word :=
  BitVec.ofNat 64 (bit x.seq.intrap + 2 * bit x.seq.fw + 4 * bit x.seq.testm + 16 * x.seq.lact.toNat
    + 256 * x.slotBits Region.busy + 4096 * x.slotBits (·.conf) + 65536 * x.seq.log.length)

/-- R80: TRAPCAUSE. -/
def TrapRegs.causeWord (t : TrapRegs) : Word :=
  BitVec.ofNat 64 (t.cause.toNat + 256 * t.slot.toNat + 1024 * bit t.reg + 2048 * bit t.done)

/-- R82: FFLAGS. -/
def FpRegs.fflags (f : FpRegs) : Word := BitVec.ofNat 64 (f.sticky.toNat + 256 * f.enable.toNat)
/-- R82: RMODE. -/
def FpRegs.rmode (f : FpRegs) : Word := BitVec.ofNat 64 (f.mode.toNat + 8 * bit f.ftz)
/-- R85: ERRINJ. -/
def ErrInj.word (e : ErrInj) : Word :=
  BitVec.ofNat 64 (bit e.arm + 4 * e.pe.toNat + 16 * e.lane.toNat + 256 * e.cls.toNat + 4096 * bit e.seq)
/-- R86: TRACECTL. -/
def Seq.traceCtl (q : Seq) : Word := BitVec.ofNat 64 (bit q.traceEn + 2 * bit q.traceMark + 256 * bit q.traceFn)

/-- R77: a control register as CRD reads it. -/
def State.ctlRead (s : State) (c n : Nat) : Word :=
  let x := s.cell c
  let q := x.seq
  match n with
  | 0x000 => x.status
  | 0x001 => q.trap.vec.setWidth 64
  | 0x002 => q.trap.pc.setWidth 64
  | 0x003 => q.trap.npc.setWidth 64
  | 0x004 => q.trap.causeWord
  | 0x005 => q.trap.info
  | 0x006 => q.fp.fflags
  | 0x007 => q.fp.rmode
  | 0x008 => q.traceCtl
  | 0x010 => q.id.asid.setWidth 64
  | 0x011 => q.id.vfid.setWidth 64
  | 0x012 => q.id.cellid.setWidth 64
  | 0x013 => BitVec.ofNat 64 (q.id.origin.toNat + q.id.rank.toNat * 2 ^ 32)
  | 0x014 => q.id.gangshape
  | 0x015 => q.id.codebase.setWidth 64
  | 0x016 => q.id.codelen.setWidth 64
  | 0x017 => q.id.ctxtab.setWidth 64
  | 0x018 => BitVec.ofNat 64 (bit q.yreq)
  | 0x019 => q.ydeadline.setWidth 64
  | 0x01c => q.id.gangbm[0]
  | 0x01d => q.id.gangbm[1]
  | 0x01e => q.id.gangbm[2]
  | 0x01f => q.id.gangbm[3]
  | 0x020 => q.errinj.word
  | _ => (s.fn q.id.vfid.toNat).fatal

/-- R343: CRD. FATAL is read by firmware only (R78). -/
def execCrd (x : CtlArgs) (s : State) : Out :=
  s.issueAs (.crd x) x.g [] fun c s =>
    if x.n.toNat = 0x021 ∧ !(s.cell c).seq.fw then s.raise c (.crd x) cPriv 0
    else (s.modCell c fun y => y.write1 x.r (s.ctlRead c x.n.toNat)).advance c

/-- R77, R78: whether a write is PRIV. -/
def ctlPriv (q : Seq) (n : Nat) : Bool :=
  if n ≤ 0x008 then false else if n = 0x020 then !(q.testm || q.fw) else if n = 0x021 then !q.fw else true

/-- R55, R85: the values that a write rejects. -/
def ctlRejects (n : Nat) (v : Word) : Bool :=
  (n = 0x007 && 4 ≤ wbits v 2 0) || (n = 0x020 && 0xd ≤ wbits v 11 8)

/-- R80: TRAPCAUSE as written. -/
def TrapRegs.withCause (t : TrapRegs) (v : Word) : TrapRegs :=
  { t with done := v.getLsbD 11, reg := v.getLsbD 10, slot := BitVec.ofNat 2 (wbits v 9 8), cause := v.setWidth 8 }

/-- R85: ERRINJ as written. -/
def errInjOf (v : Word) : ErrInj :=
  { seq := v.getLsbD 12, cls := BitVec.ofNat 4 (wbits v 11 8), lane := BitVec.ofNat 2 (wbits v 5 4),
    pe := BitVec.ofNat 2 (wbits v 3 2), arm := v.getLsbD 0 }

/-- R82: FFLAGS and RMODE as written. -/
def FpRegs.withFlags (f : FpRegs) (v : Word) : FpRegs :=
  { f with enable := BitVec.ofNat 4 (wbits v 11 8), sticky := BitVec.ofNat 4 (wbits v 3 0) }
def FpRegs.withMode (f : FpRegs) (v : Word) : FpRegs :=
  { f with ftz := v.getLsbD 3, mode := BitVec.ofNat 2 (wbits v 1 0) }

/-- R78, R86: the sequencer after a write that is allowed; read-only and reserved fields keep their value. -/
def Seq.ctlWrite (q : Seq) (n : Nat) (v : Word) : Seq :=
  match n with
  | 0x000 => { q with intrap := v.getLsbD 0 }
  | 0x001 => { q with trap := { q.trap with vec := wordAddr v } }
  | 0x002 => { q with trap := { q.trap with pc := wordAddr v, kind := none } }
  | 0x003 => { q with trap := { q.trap with npc := wordAddr v, kind := none } }
  | 0x004 => { q with trap := q.trap.withCause v }
  | 0x005 => { q with trap := { q.trap with info := v } }
  | 0x006 => { q with fp := q.fp.withFlags v }
  | 0x007 => { q with fp := q.fp.withMode v }
  | 0x008 => { q with traceEn := v.getLsbD 0, traceMark := v.getLsbD 1 }
  | 0x020 => { q with errinj := errInjOf v }
  | _ => q

/-- R246: what a write of TRACECTL emits, and the START that enabling makes due. -/
def State.traceWrite (s : State) (c : Nat) (v : Word) : State :=
  let q := (s.cell c).seq
  let en := v.getLsbD 0
  let mark := v.getLsbD 1
  let s := if q.traceMark ≠ mark || (q.traceEn && !en) then s.emit c 0xb (bit en + 2 * bit mark) else s
  s.modCell c fun y => { y with trace := { y.trace with
    due := if !en then none else if !q.traceEn then some 2 else y.trace.due } }

/-- R343: CWR. -/
def execCwr (x : CtlArgs) (s : State) : Out :=
  s.issueAs (.cwr x) x.g [x.r] fun c s =>
    let y := s.cell c
    let n := x.n.toNat
    let v := y.gval x.r
    if ctlPriv y.seq n then s.raise c (.cwr x) cPriv 0
    else if ctlRejects n v then s.raise c (.cwr x) cIllOperand 0
    else
      let s := if n = 0x008 then s.traceWrite c v else s
      let s := if n = 0x021 then s.modFn y.seq.id.vfid.toNat fun f => { f with fatal := v &&& 0xc0000fff007fffff } else s
      (s.modCell c fun y => { y with seq := y.seq.ctlWrite n v }).advance c

/-! ### Counters (R240 to R244, R344) -/

/-- R242: PSEL. -/
def PSel.word (p : PSel) : Word :=
  BitVec.ofNat 64 (p.event.toNat + 512 * bit p.rsel + 1024 * p.rslot.toNat + 4096 * bit p.en)

/-- R243: the events that are not reserved. -/
def pmcEvent (e : Nat) : Bool :=
  e ≤ 0x09 || (0x10 ≤ e && e ≤ 0x14) || (0x20 ≤ e && e ≤ 0x24) || (0x30 ≤ e && e ≤ 0x33) || e = 0x38 || e = 0x40

/-- R242: a value that PSEL takes. -/
def pselOk (v : Word) : Bool := wbits v 63 13 = 0 && !v.getLsbD 8 && pmcEvent (wbits v 7 0)

/-- R242: PSEL as written. -/
def pselOf (v : Word) : PSel :=
  { en := v.getLsbD 12, rslot := BitVec.ofNat 2 (wbits v 11 10), rsel := v.getLsbD 9, event := v.setWidth 8 }

/-- R241: a counter as it stood at the start of the cycle; the cell's regions advance after its sequencer has issued. -/
def State.counter (s : State) (c sel : Nat) : Word :=
  let x := s.cell c
  if sel = 0x00 then s.sys.devtime
  else if sel = 0x01 then x.ccyc
  else if sel < 0x10 then x.region[(Fin.ofNat 4 sel).val].rc
  else if sel < 0x18 then x.pmc[(Fin.ofNat 8 sel).val]
  else if sel < 0x20 then x.psel[(Fin.ofNat 8 sel).val].word
  else match sel with
    | 0x20 => x.ec.spad.setWidth 64
    | 0x21 => x.ec.icp.setWidth 64
    | 0x22 => x.ec.dcp.setWidth 64
    | _ => x.ec.resid.setWidth 64

/-- R344: TIME. The error counters are read by firmware only. -/
def execTime (x : TimeArgs) (s : State) : Out :=
  s.issueAs (.time x) x.g [] fun c s =>
    if 0x20 ≤ x.sel.toNat ∧ !(s.cell c).seq.fw then s.raise c (.time x) cPriv 0
    else (s.modCell c fun y => y.write1 x.r (s.counter c x.sel.toNat)).advance c

/-- R344: TIME.SET writes at the end of the cycle. -/
def execTimeSet (x : TimeArgs) (s : State) : Out :=
  s.issueAs (.timeSet x) x.g [x.r] fun c s =>
    let v := (s.cell c).gval x.r
    let n := x.sel.toNat
    if 0x20 ≤ n then s.raise c (.timeSet x) cPriv 0
    else if 0x18 ≤ n ∧ !pselOk v then s.raise c (.timeSet x) cIllOperand 0
    else (s.modCell c fun y => { y with timeSet := some (x.sel, v) }).advance c

end Sys2Proof.Machine
end

