-- ==== Sys2Proof/Machine/SeqMem.lean ====
section
/-! DEFINITION. Memory instructions, atomics, fences and phasers of the sequencer (R299 to R317, R234, R235). -/

namespace Sys2Proof.Machine

/-! ### Checks and forms (R299) -/

/-- R299, checks 2 and 3: the path of an address, and its alignment. -/
def State.addrChecked (s : State) (c : Nat) (i : Instr) (paths : List Nat) (a : Word) (aligned : Bool)
    (go : State) : State :=
  if !(s.cell c).addrOk paths a then s.raise c i cAddrIllegal a
  else if !aligned then s.raise c i cMisalign a
  else go

/-- Whether an address is a multiple of a size. -/
def alignedTo (a : Word) (n : Nat) : Bool := a.toNat % n = 0

/-- R301: a memory instruction's log entry. -/
def memEntry (x : CellSt) (i : Instr) (dest : BitVec 6) (lat : Nat) (ra rb : GReg) (a : Word) : LogEntry :=
  { word := wordOf i, pcw := x.seq.pc, srcA := ra, srcB := rb, srcC := {}, dest := dest, remain := lat, addr := a }

/-- R301: an access that was performed: its data stands in SRCC and lands. -/
def LogEntry.got (e : LogEntry) (v : Word) : LogEntry := { e with srcC := GReg.of v, val := v }

/-- R301: an access that failed: a late fault at its landing cycle. -/
def LogEntry.failed (e : LogEntry) (f : Cause) : LogEntry := { e with fault := f }

/-- A log entry is made and the instruction issues. -/
def State.logged (s : State) (c : Nat) (e : LogEntry) : State := (s.modCell c fun x => x.pushLog e).advance c

/-- The answer of the request that the sequencer is frozen on, if it has come. -/
def State.answer (s : State) (c : Nat) : Option (Nat × Option Req) :=
  match (s.cell c).freeze with
  | .mem id => some (id, s.req id)
  | _ => none

/-! ### Scratchpad (R303) -/

/-- R303: the byte count of a SIZE code. -/
def sizeOf (k : Fin 4) : Nat := 2 ^ k.val

/-- R303: LDS. -/
def execLds (x : SpadArgs) (s : State) : Out :=
  s.issueAs (.lds x) x.g [x.base] fun c s =>
    let y := s.cell c
    let n := sizeOf x.size
    let a := y.ea x.base x.imm n
    let off := offOf a
    s.addrChecked c (.lds x) [1] a (alignedTo a n) <|
      if y.logFull then s.freezeLog c
      else s.withBanks c [bankOf off] fun s =>
        let e := memEntry y (.lds x) (destG x.r) 3 (y.greg x.base) {} a
        if y.spBad off then s.logged c (e.failed cMcSpadEcc)
        else
          let v := BitVec.ofNat 64 ((y.spWord off).toNat / 256 ^ (off % 8) % 256 ^ n)
          (s.modCell c fun z => z.spNote off).logged c (e.got v)

/-- R303: STS. -/
def execSts (x : SpadArgs) (s : State) : Out :=
  s.issueAs (.sts x) x.g [x.base, x.r] fun c s =>
    let y := s.cell c
    let n := sizeOf x.size
    let a := y.ea x.base x.imm n
    let off := offOf a
    s.addrChecked c (.sts x) [1] a (alignedTo a n) <|
      s.withBanks c [bankOf off] fun s =>
        if n < 8 && y.spBad off then s.raise c (.sts x) cMcSpadEcc a
        else (s.modCell c fun z => z.spWrite off n ((y.gval x.r).toNat % 256 ^ n)).advance c

/-! ### Global loads and stores (R304, R305) -/

/-- The bytes of an access out of a line. -/
def accessVal (l : Line) (a : Word) (n : Nat) : Word := BitVec.ofNat 64 (lineBytes l (a.toNat % 128) n)

/-- R305: the start of a load: a hit answers at once, anything else is asked for. -/
def State.startLoad (s : State) (c : Nat) (a : Word) (n order : Nat) (e : LogEntry) : State :=
  let read (s : State) : State := s.sendFreeze c { s.mkReq c .read a 1 with grans := granOf (a.toNat % 128) n }
  if pathOf a = 3 then read s
  else
    let tag := vline a
    let s := if order = 0 then s.drainBad c tag else (s.drainLine c tag).modCell c fun y => y.dpast tag
    if 2 ≤ order then read s
    else
      let s := s.modCell c fun y => y.dcheck tag
      match (s.cell c).dfind tag with
      | some l => (s.ev c 0x20).logged c (e.got (accessVal ((s.cell c).overlay tag l.data) a n))
      | none => (s.ev c 0x21).sendFreeze c (s.mkReq c .fill a 1)

/-- R305: the end of a load whose line has come: a fill enters the data cache, a strong load refreshes a copy. -/
def State.endLoad (s : State) (c : Nat) (a : Word) (n : Nat) (r : Req) (e : LogEntry) : State :=
  let tag := vline a
  match r.kind with
  | .fill =>
    let v := (s.cell c).overlay tag r.data
    (s.modCell c fun y => y.dfill c s.sys.cycle tag r.data).logged c (e.got (accessVal v a n))
  | _ =>
    let s := if pathOf a = 0 then s.modCell c fun y => y.drefresh tag r.data r.bad else s
    s.logged c (e.got (accessVal r.data a n))

/-- R304, R305: LDG of n bytes. -/
def loadOp (i : Instr) (x : GlobArgs) (n : Nat) (s : State) : Out :=
  s.issueAs i x.g [x.base] fun c s =>
    let y := s.cell c
    let a := y.ea x.base x.imm n
    let e := memEntry y i (destG x.r) 6 (y.greg x.base) {} a
    s.addrChecked c i [0, 3] a (alignedTo a n) <|
      if y.logFull then s.freezeLog c
      else match s.answer c with
        | some (id, some r) =>
          match r.stage with
          | .done => (s.dropReq id).endLoad c a n r e
          | .failed f => (s.dropReq id).logged c (e.failed f)
          | _ => s
        | _ => s.startLoad c a n x.order.toNat e

/-- R305: the end of a weak store that allocates its entry. -/
def State.allocEntry (s : State) (c tag : Nat) (t : Trans) (mask : BitVec 128) (v : Line) : State :=
  s.modCell c fun y =>
    let e : WcbEntry := { tag := tag, asid := y.seq.id.asid, data := mergeLine mask 0 v, mask := mask, trans := t }
    CellSt.dpatch { y with wcb := y.wcb ++ [e] } tag mask v

/-- R304, R305, R302: STG of n bytes. -/
def storeOp (i : Instr) (x : GlobArgs) (n : Nat) (s : State) : Out :=
  s.issueAs i x.g [x.base, x.r] fun c s =>
    let y := s.cell c
    let a := y.ea x.base x.imm n
    let off := a.toNat % 128
    let mask := byteMask off n
    let v := placed ((y.gval x.r).toNat % 256 ^ n) off
    let tag := vline a
    let weak := pathOf a = 0 && x.order.toNat = 0
    s.addrChecked c i [0, 3] a (alignedTo a n) <|
      match s.answer c with
      | some (id, some r) =>
        match r.stage with
        | .failed f => (s.dropReq id).raise c i f a
        | .done =>
          if weak then
            (if s.pendingWrites c then s else ((s.dropReq id).allocEntry c tag r.trans mask v).advance c)
          else
            let s := s.dropReq id
            (if pathOf a = 0 then s.modCell c fun z => z.dpatch tag mask v else s).advance c
        | _ => s
      | _ =>
        if weak then
          let s := s.drainBad c tag
          match (s.cell c).wfind tag with
          | some _ => (s.modCell c fun z => (z.wmerge tag mask v).dpatch tag mask v).advance c
          | none =>
            let s := match (s.cell c).wcb with
              | e :: _ => if 256 ≤ (s.cell c).wcb.length then s.drainEntry c e else s
              | [] => s
            s.sendFreeze c (s.mkReq c .alloc a 2)
        else
          let s := if pathOf a = 0 then s.drainLine c tag else s
          s.sendFreeze c (s.mkReq c (.write mask v false 0) a 2)

/-- R304: LDG.8. -/
def execLdg8 (x : GlobArgs) (s : State) : Out := loadOp (.ldg8 x) x 1 s
/-- R304: LDG.16. -/
def execLdg16 (x : GlobArgs) (s : State) : Out := loadOp (.ldg16 x) x 2 s
/-- R304: LDG.32. -/
def execLdg32 (x : GlobArgs) (s : State) : Out := loadOp (.ldg32 x) x 4 s
/-- R304: LDG.64. -/
def execLdg64 (x : GlobArgs) (s : State) : Out := loadOp (.ldg64 x) x 8 s
/-- R304: STG.8. -/
def execStg8 (x : GlobArgs) (s : State) : Out := storeOp (.stg8 x) x 1 s
/-- R304: STG.16. -/
def execStg16 (x : GlobArgs) (s : State) : Out := storeOp (.stg16 x) x 2 s
/-- R304: STG.32. -/
def execStg32 (x : GlobArgs) (s : State) : Out := storeOp (.stg32 x) x 4 s
/-- R304: STG.64. -/
def execStg64 (x : GlobArgs) (s : State) : Out := storeOp (.stg64 x) x 8 s

/-! ### Signal-stores (R306, R307) -/

/-- A signal-store leaves for its target. -/
def State.sendSignal (s : State) (c : Nat) (a : Word) (ws : List Word) (sig : Bool) : State :=
  let x := s.cell c
  { s with mem := { s.mem with signals := s.mem.signals ++
      [{ src := c, dst := cellOf a, addr := offOf a, words := ws, sig := sig, vf := Fin.ofNat 64 x.seq.id.vfid.toNat,
         q := (x.bound.map (·.q)).getD 0, id := s.nextId }] } }

/-- R306: STR. -/
def execStr (x : StrArgs) (s : State) : Out :=
  s.issueAs (.str x) x.g [x.a, x.b, x.c] fun c s =>
    let y := s.cell c
    let n := x.n1.val + 1
    let ta := y.gval x.a
    let sa := y.gval x.b
    let off := offOf sa
    if !y.addrOk [2] ta then s.raise c (.str x) cAddrIllegal ta
    else if !y.addrOk [1] sa || 0x80000 < off + 8 * n then s.raise c (.str x) cAddrIllegal sa
    else if 0x80000 < offOf ta + 8 * n + 8 then s.raise c (.str x) cAddrIllegal ta
    else if !alignedTo ta 8 then s.raise c (.str x) cMisalign ta
    else if !alignedTo sa 8 then s.raise c (.str x) cMisalign sa
    else if !s.sameGang c (cellOf ta) then s.raise c (.str x) cRemoteUnbound ta
    else
      s.readWords c (.str x) sa off n fun ws s =>
        (s.sendSignal c ta (ws ++ [y.gval x.c]) false).advance c

/-- R307: SIG. -/
def execSig (x : SigArgs) (s : State) : Out :=
  s.issueAs (.sig x) x.g [x.base, x.s] fun c s =>
    let y := s.cell c
    let a := y.ea x.base x.imm 8
    s.addrChecked c (.sig x) [2] a (alignedTo a 8) <|
      if !s.sameGang c (cellOf a) then s.raise c (.sig x) cRemoteUnbound a
      else (s.sendSignal c a [y.gval x.s] true).advance c

/-! ### WAITA (R308) -/

/-- The number of a condition. -/
def waitaCode : WaitaCond → Nat
  | .eq => 0 | .ne => 1 | .gen => 2 | .done => 3

/-- R308: WAITA; what it keeps while frozen is described at CellSt.spWake. It needs a log entry only for the late fault of a
word that cannot be corrected (R113), with X(b) in SRCA and X(c) in SRCB (log 115). -/
def execWaita (x : WaitaArgs) (s : State) : Out :=
  s.issueAs (.waita x) x.g [x.b, x.c] fun c s =>
    let y := s.cell c
    let a := y.gval x.b
    let cmp := y.gval x.c
    let k := waitaCode x.cond
    match y.freeze, y.hold with
    | .wait, [2, w] => (s.modCell c fun z => z.write1 x.a w).advance c
    | .wait, [1, o, m, z] => s.waitAt c [1, o, m, z]
    | _, _ =>
      s.addrChecked c (.waita x) [1] a (alignedTo a 8) <|
        s.withBanks c [bankOf (offOf a)] fun s =>
          let w := y.spWord (offOf a)
          let s := s.modCell c fun z => z.spNote (offOf a)
          if y.spBad (offOf a) then
            if y.logFull then s.freezeLog c else s.logged c ((memEntry y (.waita x) (destG x.a) 1 (y.greg x.b) (y.greg x.c) a).failed cMcSpadEcc)
          else if waitaHolds w cmp k then (s.modCell c fun z => z.write1 x.a w).advance c
          else s.waitAt c [1, BitVec.ofNat 64 (offOf a), cmp, BitVec.ofNat 64 k]

/-! ### Cache maintenance (R309) -/

/-- R309: PREF, CLN and INV have no effect on path 0x3. -/
def maintOp (i : Instr) (x : MaintArgs) (go : Nat → Word → State → State) (s : State) : Out :=
  s.issueAs i x.g [x.base] fun c s =>
    let a := (s.cell c).ea x.base x.imm 128
    s.addrChecked c i [0, 3] a true <| if pathOf a = 3 then s.advance c else go c a s

/-- R233, R302: a drain that an instruction has asked for has not been accepted: the entry stands as before. -/
def State.undrain (s : State) (c : Nat) (r : Req) : State :=
  match r.kind with
  | .write mask data _ bad => s.modCell c fun x =>
      { x with wcb := { tag := r.line, asid := r.asid, mask := mask, data := data, trans := r.trans, bad := bad } :: x.wcb }
  | _ => s

/-- R302, R309: the WCB entry of a line drains, and then the instruction ends; a drain that fails is precise. -/
def State.drainThen (s : State) (c : Nat) (i : Instr) (a : Word) (fin : State → State) : State :=
  let tag := vline a
  match s.answer c with
  | some (id, some r) =>
    match r.stage with
    | .done => fin (s.dropReq id)
    | .failed f => ((s.dropReq id).undrain c r).raise c i f a
    | _ => s
  | _ =>
    match (s.cell c).wfind tag with
    | some e => (s.drainEntry c e).freezeAt c (.mem s.nextId)
    | none => fin s

/-- R309: PREF fills the line if it is absent; it does not wait. -/
def execPref (x : MaintArgs) (s : State) : Out :=
  maintOp (.pref x) x (fun c a s =>
    let s := s.modCell c fun y => y.dcheck (vline a)
    (if ((s.cell c).dfind (vline a)).isSome then s else s.addReq (s.mkReq c .fill a 1)).advance c) s

/-- R309: CLN. -/
def execCln (x : MaintArgs) (s : State) : Out :=
  maintOp (.cln x) x (fun c a s => s.drainThen c (.cln x) a (·.advance c)) s

/-- R309: INV. -/
def execInv (x : MaintArgs) (s : State) : Out :=
  maintOp (.inv x) x (fun c a s => s.drainThen c (.inv x) a fun s => (s.modCell c fun y => y.ddrop (vline a)).advance c) s

/-! ### Atomics and MWC (R310 to R312) -/

/-- R119: the cached copy of the line of an atomic goes. -/
def State.dropCopy (s : State) (c : Nat) (a : Word) : State :=
  if pathOf a = 3 then s else s.modCell c fun y => y.ddrop (vline a)

/-- R119: what an atomic does first: the entry of the line drains and the cached copy goes. -/
def State.claimLine (s : State) (c : Nat) (a : Word) : State :=
  if pathOf a = 3 then s else (s.drainLine c (vline a)).dropCopy c a

/-- R119, R153: an atomic has been performed: a copy that a fill has brought in the meantime is as old as it was. -/
def State.performedAt (s : State) (c id : Nat) (a : Word) : State := (s.dropReq id).dropCopy c a

/-- R310, R311: an atomic; `op` is the code of R310. -/
def amoOp (i : Instr) (x : AmoArgs) (op : Fin 16) (s : State) : Out :=
  s.issueAs i x.g (if op.val = 10 then [x.a, x.b, x.d] else [x.a, x.b]) fun c s =>
    let y := s.cell c
    let a := y.gval x.a
    let n := if op.val = 1 then 4 else 8
    let cmp := if op.val = 10 then y.greg x.d else {}
    let e := { memEntry y i (destG x.d) 6 (y.greg x.a) (y.greg x.b) a with srcC := cmp }
    s.addrChecked c i [0, 3] a (alignedTo a n) <|
      if y.logFull then s.freezeLog c
      else match s.answer c with
        | some (id, some r) =>
          match r.stage with
          | .done => (s.performedAt c id a).logged c (e.got r.old)
          | .failed f => (s.dropReq id).logged c (e.failed f)
          | _ => s
        | _ =>
          let s := s.claimLine c a
          let off := a.toNat % 128
          s.sendFreeze c { s.mkReq c (.atomic op off n (y.gval x.b) cmp.data) a 3 with grans := granOf off n }

/-- R311: AMO.ADD. -/
def execAmoAdd (x : AmoArgs) (s : State) : Out := amoOp (.amoAdd x) x 0 s
/-- R311: AMO.FADD. -/
def execAmoFadd (x : AmoArgs) (s : State) : Out := amoOp (.amoFadd x) x 1 s
/-- R311: AMO.MIN. -/
def execAmoMin (x : AmoArgs) (s : State) : Out := amoOp (.amoMin x) x 2 s
/-- R311: AMO.MAX. -/
def execAmoMax (x : AmoArgs) (s : State) : Out := amoOp (.amoMax x) x 3 s
/-- R311: AMO.MINN. -/
def execAmoMinn (x : AmoArgs) (s : State) : Out := amoOp (.amoMinn x) x 4 s
/-- R311: AMO.MAXN. -/
def execAmoMaxn (x : AmoArgs) (s : State) : Out := amoOp (.amoMaxn x) x 5 s
/-- R311: AMO.AND. -/
def execAmoAnd (x : AmoArgs) (s : State) : Out := amoOp (.amoAnd x) x 6 s
/-- R311: AMO.OR. -/
def execAmoOr (x : AmoArgs) (s : State) : Out := amoOp (.amoOr x) x 7 s
/-- R311: AMO.XOR. -/
def execAmoXor (x : AmoArgs) (s : State) : Out := amoOp (.amoXor x) x 8 s
/-- R311: AMO.SWAP. -/
def execAmoSwap (x : AmoArgs) (s : State) : Out := amoOp (.amoSwap x) x 9 s
/-- R311: CAS. -/
def execCas (x : AmoArgs) (s : State) : Out := amoOp (.cas x) x 10 s

/-- R312: the registers that MWC reads. -/
def mwcRegs (gb : Reg) (n1 : Fin 4) : List Reg := (List.range (n1.val + 1)).map fun j => Fin.ofNat 32 (gb.val + j)

/-- Words side by side, the first lowest. -/
def wordsNat : List Word → Nat
  | [] => 0
  | w :: t => w.toNat + 2 ^ 64 * wordsNat t

/-- R312: MWC. -/
def execMwc (x : MwcArgs) (s : State) : Out :=
  s.issueAs (.mwc x) x.g (x.a :: mwcRegs x.gb x.n1) fun c s =>
    let y := s.cell c
    let a := y.gval x.a
    let n := x.n1.val + 1
    let off := a.toNat % 128
    s.addrChecked c (.mwc x) [0, 3] a (alignedTo a 8 && off / 8 + n ≤ 16) <|
      match s.answer c with
      | some (id, some r) =>
        match r.stage with
        | .done => (s.performedAt c id a).advance c
        | .failed f => (s.dropReq id).raise c (.mwc x) f a
        | _ => s
      | _ =>
        let s := s.claimLine c a
        let mask := byteMask off (8 * n)
        s.sendFreeze c { s.mkReq c (.mwc mask (placed (wordsNat ((mwcRegs x.gb x.n1).map y.gval)) off)) a 3 with grans := maskGrans mask }

/-! ### Fences (R313) -/

/-- R313: the instructions whose log entries a fence waits for. -/
def isMemory : Instr → Bool
  | .lds _ | .ldg8 _ | .ldg16 _ | .ldg32 _ | .ldg64 _ | .waita _
  | .amoAdd _ | .amoFadd _ | .amoMin _ | .amoMax _ | .amoMinn _ | .amoMaxn _ | .amoAnd _ | .amoOr _ | .amoXor _
  | .amoSwap _ | .cas _ => true
  | _ => false

/-- R301: the address that a memory instruction's entry names. -/
def LogEntry.access (e : LogEntry) : Word :=
  match decode e.word with
  | .ok (.lds x) => e.srcA.data + x.imm.signExtend 64 * BitVec.ofNat 64 (sizeOf x.size)
  | .ok (.ldg8 x) => e.srcA.data + x.imm.signExtend 64
  | .ok (.ldg16 x) => e.srcA.data + x.imm.signExtend 64 * 2
  | .ok (.ldg32 x) => e.srcA.data + x.imm.signExtend 64 * 4
  | .ok (.ldg64 x) => e.srcA.data + x.imm.signExtend 64 * 8
  | .ok i => if isMemory i then e.srcA.data else 0
  | _ => 0

/-- R313: an earlier memory instruction has not landed. -/
def CellSt.memPending (x : CellSt) : Bool :=
  x.seq.log.any fun e => match decode e.word with | .ok i => isMemory i | _ => false

/-- R313: FENCE of a kind. -/
def fenceOp (i : Instr) (x : FenceArgs) (rel acq : Bool) (s : State) : Out :=
  s.issueAs i x.g [] fun c s =>
    let sc := x.scope.toNat
    if (s.cell c).memPending then s.waitRunning c
    else s.afterRelease c (if rel then sc else 0) fun s => (s.acquire c (if acq then sc else 1)).advance c

/-- R313: FENCE.ACQ. -/
def execFenceAcq (x : FenceArgs) (s : State) : Out := fenceOp (.fenceAcq x) x false true s
/-- R313: FENCE.REL. -/
def execFenceRel (x : FenceArgs) (s : State) : Out := fenceOp (.fenceRel x) x true false s
/-- R313: FENCE.FULL. -/
def execFenceFull (x : FenceArgs) (s : State) : Out := fenceOp (.fenceFull x) x true true s

/-! ### Phasers (R234, R235, R314 to R316) -/

def State.phaser (s : State) (n : Nat) : Phaser := tget {} s.disp.phasers n
def State.setPhaser (s : State) (n : Nat) (p : Phaser) : State :=
  { s with disp := { s.disp with phasers := tset s.disp.phasers n p } }

/-- R236: a phaser of a function's range. -/
def Fn.ownsPhaser (f : Fn) (n : Nat) : Bool := f.phbase.toNat ≤ n && n < f.phbase.toNat + f.phcnt.toNat

/-- A count with its pending change. -/
def addPending (n : Nat) (d : Int) : Nat := ((n : Int) + d).toNat

/-- R235: the phaser advances: the pending changes join the counts. -/
def Phaser.advance (p : Phaser) : Phaser :=
  { p with phase := p.phase + 1, arrived := 0, nsig := addPending p.nsig p.dsig, nwait := addPending p.nwait p.dwait,
           nsw := addPending p.nsw p.dsw, dsig := 0, dwait := 0, dsw := 0 }

/-- R235: a phaser whose arrivals are complete advances. -/
def Phaser.settle (p : Phaser) : Phaser := if 1 ≤ p.nsig + p.nsw ∧ p.arrived = p.nsig + p.nsw then p.advance else p

/-- R235: one arrival. -/
def Phaser.arrive (p : Phaser) : Phaser := (if 131070 ≤ p.arrived then p else { p with arrived := p.arrived + 1 }).settle

/-- R235: the pending count of a mode after a registration or a drop, if it stays within the limits. -/
def Phaser.change (p : Phaser) (mode : Fin 4) (d : Int) : Option Phaser :=
  let ok (n : Nat) (e : Int) : Bool := decide (0 ≤ (n : Int) + e + d) && decide ((n : Int) + e + d ≤ 65535)
  if mode.val = 0 then (if ok p.nsig p.dsig then some { p with dsig := p.dsig + d } else none)
  else if mode.val = 1 then (if ok p.nwait p.dwait then some { p with dwait := p.dwait + d } else none)
  else (if ok p.nsw p.dsw then some { p with dsw := p.dsw + d } else none)

/-- R235: PH.DROP: a signalling member also arrives. -/
def Phaser.drop (p : Phaser) (mode : Fin 4) : Option Phaser :=
  (p.change mode (-1)).map fun q => if mode.val = 1 then q else q.arrive

/-- R235: whether a phase has passed. -/
def Phaser.passed (p : Phaser) (v : BitVec 32) : Bool :=
  let d := (p.phase - v).toNat
  1 ≤ d && d < 2 ^ 31

/-- The order code of a phaser's scope. -/
def Phaser.order (p : Phaser) : Nat := p.scope.toNat + 1

/-- R314: a PH instruction on a phaser of the function's range. -/
def State.phOp (s : State) (i : Instr) (g : Guard) (b : Reg) (srcs : List Reg)
    (go : Nat → Nat → Phaser → State → State) : Out :=
  s.issueAs i g (b :: srcs) fun c s =>
    let n := ((s.cell c).gval b).toNat % 65536
    if (s.fn (s.cell c).seq.id.vfid.toNat).ownsPhaser n then go c n (s.phaser n) s else s.raise c i cIllOperand 0

/-- R315: PH.REG. -/
def execPhReg (x : PhModeArgs) (s : State) : Out :=
  s.phOp (.phReg x) x.g x.b [] fun c n p s =>
    match p.change x.mode 1 with
    | some q => (s.setPhaser n q).advance c
    | none => s.raise c (.phReg x) cIllOperand 0

/-- R315: PH.DROP; of a signalling mode it is a release first. -/
def execPhDrop (x : PhModeArgs) (s : State) : Out :=
  s.phOp (.phDrop x) x.g x.b [] fun c n p s =>
    match p.drop x.mode with
    | some q => s.afterRelease c (if x.mode.val = 1 then 0 else p.order) fun s => (s.setPhaser n q).advance c
    | none => s.raise c (.phDrop x) cIllOperand 0

/-- R315: PH.ARR. -/
def execPhArr (x : SrcArgs) (s : State) : Out :=
  s.phOp (.phArr x) x.g x.a [] fun c n p s =>
    s.afterRelease c p.order fun s => (s.setPhaser n (s.phaser n).arrive).advance c

/-- R315: PH.WAIT. -/
def execPhWait (x : Src2Args) (s : State) : Out :=
  s.phOp (.phWait x) x.g x.a [x.b] fun c _ p s =>
    if p.passed (((s.cell c).gval x.b).setWidth 32) then (s.acquire c p.order).advance c else s.waitAt c []

/-- R315, R316: PH.AW. It arrives only with room for the entry that a stop saves it as (log 93); frozen after its arrival
it keeps [6, the phase the arrival was counted in, the phaser, its own word]. -/
def execPhAw (x : DestSrcArgs) (s : State) : Out :=
  s.phOp (.phAw x) x.g x.b [] fun c n p s =>
    let wait (u : Word) (s : State) : State :=
      if (s.phaser n).passed (u.setWidth 32) then
        ((s.acquire c p.order).modCell c fun y =>
          y.write1 x.d ((u.setWidth 32 + 1 : BitVec 32).setWidth 64)).advance c
      else s.waitAt c [6, u, BitVec.ofNat 64 n, (wordOf (.phAw x)).setWidth 64]
    match (s.cell c).freeze, (s.cell c).hold with
    | .wait, [6, u, _, _] => wait u s
    | _, _ => if (s.cell c).logFull then s.freezeLog c else s.afterRelease c p.order fun s =>
        wait ((s.phaser n).phase.setWidth 64) (s.setPhaser n (s.phaser n).arrive)

/-- R315: PH.QRY. -/
def execPhQry (x : DestSrcArgs) (s : State) : Out :=
  s.phOp (.phQry x) x.g x.b [] fun c _ p s =>
    (s.modCell c fun y => y.write1 x.d (p.phase.setWidth 64)).advance c

end Sys2Proof.Machine
end

