-- ==== Sys2Proof/Machine/Engines.lean ====
section
/-! DEFINITION. Commands to the copy engine and the stack controllers, and the work-queue instructions
(R193, R198, R199, R203, R204, R318, R327 to R334). -/

namespace Sys2Proof.Machine

/-! ### Descriptors (R318) -/

/-- A field of a descriptor: `n` bytes at an offset of its words. -/
def descNum (ws : List Word) (off n : Nat) : Nat := wordsNat ws / 256 ^ off % 256 ^ n

/-- R318: a descriptor or entry of `n` words read at issue; while the instruction is frozen after that it keeps [7, w0, …]. -/
def State.readDesc (s : State) (c : Nat) (i : Instr) (a : Word) (n align : Nat) (go : List Word → State → State) : State :=
  match (s.cell c).freeze, (s.cell c).hold with
  | .wait, 7 :: ws | .accept, 7 :: ws => go ws s
  | _, _ =>
    if !(s.cell c).addrOk [1] a || 0x80000 < offOf a + 8 * n then s.raise c i cAddrIllegal a
    else if !alignedTo a align then s.raise c i cMisalign a
    else s.readWords c i a (offOf a) n go

/-- R146, R318: a command that starts an operation waits for its release and for room, and then issues. -/
def State.issueCommand (s : State) (c : Nat) (ws : List Word) (room : State → Bool) (go : State → State) : State :=
  s.afterRelease c 4 (fun s => if room s then go s else s.waitAt c (7 :: ws)) (7 :: ws)

/-! ### Copy commands (R199, R327) -/

/-- R199: the entry that a descriptor's words name. -/
def copyOf (ws : List Word) (op : Fin 8) : CopyCmd :=
  let f := descNum ws
  { gaddr := BitVec.ofNat 64 (f 0x00 8), soff := f 0x08 4, run := f 0x0c 4, nrun := f 0x10 4,
    gstride := BitVec.ofNat 32 (f 0x14 4), sstride := BitVec.ofNat 32 (f 0x18 4), cwoff := f 0x1c 4,
    cval := BitVec.ofNat 56 (f 0x20 7), op := op, dir := f 0x27 1 / 16 % 2 == 1, pattern := BitVec.ofNat 64 (f 0x28 8) }

/-- R199, R327: the limits of a copy command; the descriptor's OP and reserved bits are 0. -/
def copyOk (ws : List Word) (k : CopyCmd) : Bool :=
  let top := descNum ws 0x27 1
  let fill := k.op.val == 4
  top % 16 == 0 && top / 32 == 0 && k.gaddr.toNat % 8 == 0 &&
  k.soff % 8 == 0 && k.soff < 0x80000 && k.cwoff % 8 == 0 && k.cwoff < 0x80000 &&
  k.run % 8 == 0 && 8 ≤ k.run && k.run ≤ 65536 && 1 ≤ k.nrun && k.nrun ≤ 65536 &&
  k.gstride.toNat % 8 == 0 && k.sstride.toNat % 8 == 0 &&
  (fill || (!k.dir && k.pattern == 0)) && (k.op.val != 5 || k.gstride == 0) &&
  (!fill || (if k.dir then k.soff == 0 else k.gaddr == 0))

/-- R124: the path of GADDR: 2 for XFR, none for a fill of the scratchpad, 0 otherwise. -/
def copyPathOk (x : CellSt) (k : CopyCmd) : Bool :=
  if k.op.val == 3 then x.addrOk [2] k.gaddr
  else if k.op.val == 4 && !k.dir then true
  else x.addrOk [0] k.gaddr

/-- R327: a copy command issues. -/
def copyOp (i : Instr) (x : SrcArgs) (op : Fin 8) (s : State) : Out :=
  s.issueAs i x.g [x.a] fun c s =>
    s.readDesc c i ((s.cell c).gval x.a) 6 8 fun ws s =>
      let k := copyOf ws op
      if !copyOk ws k then s.raise c i cIllOperand 0
      else if !copyPathOk (s.cell c) k then s.raise c i cAddrIllegal k.gaddr
      else if op.val == 3 && !s.sameGang c (cellOf k.gaddr) then s.raise c i cRemoteUnbound k.gaddr
      else s.issueCommand c ws (fun s => (s.cell c).copyq.length < 4) fun s =>
        (s.modCell c fun y => { y with copyq := y.copyq ++ [k] }).advance c

/-- R328: CP.IN. -/
def execCpIn (x : SrcArgs) (s : State) : Out := copyOp (.cpIn x) x 1 s
/-- R328: CP.OUT. -/
def execCpOut (x : SrcArgs) (s : State) : Out := copyOp (.cpOut x) x 2 s
/-- R328: CP.XFR. -/
def execCpXfr (x : SrcArgs) (s : State) : Out := copyOp (.cpXfr x) x 3 s
/-- R328: CP.FILL. -/
def execCpFill (x : SrcArgs) (s : State) : Out := copyOp (.cpFill x) x 4 s
/-- R329: CP.GATH. -/
def execCpGath (x : SrcArgs) (s : State) : Out := copyOp (.cpGath x) x 5 s

/-- R330: CP.QRY. -/
def execCpQry (x : SrcArgs) (s : State) : Out :=
  s.issueAs (.cpQry x) x.g [] fun c s =>
    let q := (s.cell c).copyq
    let p := (q.head?.map (·.progress)).getD 0
    (s.modCell c fun y => y.write1 x.a (BitVec.ofNat 64 (q.length + p % 2 ^ 40 * 256))).advance c

/-! ### Near-bank commands (R331, R203, R204) -/

/-- R332: which of D, X, Y, ALPHA, ROFF an operation uses. -/
def nbUses (op : Nat) : Bool × Bool × Bool × Bool × Bool :=
  match op with
  | 0 => (true, false, false, false, false)
  | 1 | 2 => (true, true, false, false, false)
  | 3 => (true, true, true, true, false)
  | 4 | 5 => (true, true, true, false, false)
  | 6 => (true, true, false, true, false)
  | 7 => (false, true, false, false, true)
  | _ => (false, true, true, false, true)

/-- R331: the command that a descriptor's words name. -/
def nbOf (s : State) (c : Nat) (ws : List Word) (op : Fin 16) (bf16 : Bool) : NbCmd :=
  let f := descNum ws
  let x := s.cell c
  { id := s.mem.nextNb, cell := c, vf := Fin.ofNat 64 x.seq.id.vfid.toNat, q := (x.bound.map (·.q)).getD 0,
    asid := x.seq.id.asid, op := op, bf16 := bf16, dbase := BitVec.ofNat 64 (f 0 8), xbase := BitVec.ofNat 64 (f 8 8),
    ybase := BitVec.ofNat 64 (f 0x10 8), dstride := BitVec.ofNat 32 (f 0x18 4), xstride := BitVec.ofNat 32 (f 0x1c 4),
    ystride := BitVec.ofNat 32 (f 0x20 4), count := f 0x24 2, alpha := BitVec.ofNat 32 (f 0x28 4), roff := f 0x2c 4,
    cwoff := f 0x30 4, cval := BitVec.ofNat 56 (f 0x38 7), ctrls := [] }

/-- R331: the limits of a near-bank descriptor. -/
def nbOk (ws : List Word) (k : NbCmd) : Bool :=
  let (ud, ux, uy, ua, ur) := nbUses k.op.val
  1 ≤ k.count && k.count ≤ 2048 && k.roff % 8 == 0 && k.roff < 0x80000 && k.roff + 4 * k.count ≤ 0x80000 &&
  k.cwoff % 8 == 0 && k.cwoff < 0x80000 && descNum ws 0x26 2 == 0 && descNum ws 0x34 4 == 0 && descNum ws 0x3f 1 == 0 &&
  (ud || (k.dbase == 0 && k.dstride == 0)) && (ux || (k.xbase == 0 && k.xstride == 0)) &&
  (uy || (k.ybase == 0 && k.ystride == 0)) && (ua || k.alpha == 0) && (ur || k.roff == 0)

/-- The base addresses of the lists an operation uses. -/
def nbBases (k : NbCmd) : List (Word × Bool) :=
  let (ud, ux, uy, _, _) := nbUses k.op.val
  (if ud then [(k.dbase, true)] else []) ++ (if ux then [(k.xbase, false)] else []) ++ (if uy then [(k.ybase, false)] else [])

/-- R203: the stack of a list's first row; one that fails translation is taken to lie in the cell's home stack. None while the
translation waits. -/
def nbStack (s : State) (c : Nat) (asid : BitVec 16) (b : Word × Bool) : Option Nat × State :=
  match s.translate (c / 1600) asid (wbits b.1 47 0) (if b.2 then 2 else 1) true with
  | (.ok t, s) => (some (dpaStack t.addr), s)
  | (.error .wait, s) => (none, s)
  | (.error (.fail _ _), s) => (some (c / 1600), s)

/-- R203: the stacks a command uses, each once. -/
def nbStacks (s : State) (c : Nat) (asid : BitVec 16) : List (Word × Bool) → Option (List Nat) × State
  | [] => (some [], s)
  | b :: t =>
    match nbStack s c asid b with
    | (none, s) => (none, s)
    | (some k, s) => match nbStacks s c asid t with
      | (none, s) => (none, s)
      | (some ks, s) => (some (if ks.contains k then ks else k :: ks), s)

/-- R204: near-bank commands of a cell that are not complete. -/
def State.nbOut (s : State) (c : Nat) : Nat := (s.mem.nb.filter (·.cell = c)).length

/-- R203: commands that a stack controller holds. -/
def State.ctrlLoad (s : State) (k : Nat) : Nat := (s.mem.nb.filter (·.ctrls.contains k)).length

/-- R203, R318, R331: a near-bank command issues; while the translations of its first rows are on their way it is frozen as for
acceptance. -/
def nbOp (i : Instr) (g : Guard) (a : Reg) (op : Fin 16) (bf16 : Bool) (s : State) : Out :=
  s.issueAs i g [a] fun c s =>
    s.readDesc c i ((s.cell c).gval a) 8 8 fun ws s =>
      let k := nbOf s c ws op bf16
      if !nbOk ws k then s.raise c i cIllOperand 0
      else match (nbBases k).find? fun b => !(s.cell c).addrOk [0] b.1 with
        | some b => s.raise c i cAddrIllegal b.1
        | none =>
          match nbStacks s c k.asid (nbBases k) with
          | (none, s) => s.modCell c fun x => { x with freeze := .accept, hold := 7 :: ws }
          | (some ks, s) => s.issueCommand c ws (fun s => s.nbOut c < 16 && ks.all fun j => s.ctrlLoad j < 48) fun s =>
              State.advance { s with mem := { s.mem with nb := s.mem.nb ++ [{ nbOf s c ws op bf16 with ctrls := ks }],
                                                         nextNb := s.mem.nextNb + 1 } } c

/-- R332: NB.ZERO. -/
def execNbZero (x : SrcArgs) (s : State) : Out := nbOp (.nbZero x) x.g x.a 0 false s
/-- R332: NB.COPY. -/
def execNbCopy (x : SrcArgs) (s : State) : Out := nbOp (.nbCopy x) x.g x.a 1 false s
/-- R332: NB.RCOPY. -/
def execNbRcopy (x : SrcArgs) (s : State) : Out := nbOp (.nbRcopy x) x.g x.a 2 false s

/-- R331: the selector T. -/
def isBf16 : FpFmt → Bool | .bf16 => true | .f32 => false

/-- R332: NB.AXPY. -/
def execNbAxpy (x : NbArgs) (s : State) : Out := nbOp (.nbAxpy x) x.g x.a 3 (isBf16 x.t) s
/-- R332: NB.ADD. -/
def execNbAdd (x : NbArgs) (s : State) : Out := nbOp (.nbAdd x) x.g x.a 4 (isBf16 x.t) s
/-- R332: NB.MUL. -/
def execNbMul (x : NbArgs) (s : State) : Out := nbOp (.nbMul x) x.g x.a 5 (isBf16 x.t) s
/-- R332: NB.SCALE. -/
def execNbScale (x : NbArgs) (s : State) : Out := nbOp (.nbScale x) x.g x.a 6 (isBf16 x.t) s
/-- R332: NB.SUM. -/
def execNbSum (x : NbArgs) (s : State) : Out := nbOp (.nbSum x) x.g x.a 7 (isBf16 x.t) s
/-- R332: NB.DOT. -/
def execNbDot (x : NbArgs) (s : State) : Out := nbOp (.nbDot x) x.g x.a 8 (isBf16 x.t) s

/-- R333: NB.FENCE. -/
def execNbFence (g : Guard) (s : State) : Out :=
  s.issueAs (.nbFence g) g [] fun c s =>
    if s.nbOut c = 0 then (s.acquire c 4).advance c else s.waitAt c []

/-! ### Work queues (R193, R334) -/

def State.setWq (s : State) (n : Nat) (w : WorkQ) : State := { s with disp := { s.disp with wqs := tset s.disp.wqs n w } }

/-- R193: entries held. -/
def WorkQ.held (w : WorkQ) : Nat := w.tail - w.head
/-- R193: entries that fit. -/
def WorkQ.room (w : WorkQ) : Nat := 2 ^ w.m - w.held
/-- R193: the DPA of an entry. -/
def WorkQ.slot (w : WorkQ) (n : Nat) : Nat := w.base + 64 * (n % 2 ^ w.m)

/-- R236: a created work queue of a function's range. -/
def State.ownWq (s : State) (f : Fn) (n : Nat) : Option WorkQ :=
  if f.wqbase.toNat ≤ n ∧ n < f.wqbase.toNat + f.wqcnt.toNat then tfind s.disp.wqs n else none

/-- R193: one entry is appended. -/
def State.wqAppend (s : State) (n : Nat) (v : Nat) (vf : Option (Fin 64)) : State :=
  match tfind s.disp.wqs n with
  | none => s
  | some w => (s.store64 (w.slot w.tail) v vf).setWq n { w with tail := w.tail + 1 }

/-- R193: whether an appender of `k` entries may go now, and the queue with it in the list while it may not. -/
def WorkQ.turn (w : WorkQ) (who : Appender) (k : Nat) : Bool × WorkQ :=
  let first := match w.appenders with | [] => true | h :: _ => h == who
  if first && k ≤ w.room then (true, { w with appenders := w.appenders.filter (· ≠ who) })
  else (false, if w.appenders.contains who then w else { w with appenders := w.appenders ++ [who] })

/-- R131, R193: an appender takes its turn when the lines of its entries are open besides; until then it stands in the list. -/
def State.wqTurn (s : State) (n : Nat) (w : WorkQ) (who : Appender) (k : Nat) : Bool × State :=
  match w.turn who k with
  | (false, w) => (false, s.setWq n w)
  | (true, v) => match s.openFor true ((List.range k).map fun j => w.slot (w.tail + j) / 128) with
    | (true, s) => (true, s.setWq n v)
    | (false, s) => (false, s.setWq n (if w.appenders.contains who then w else { w with appenders := w.appenders ++ [who] }))

/-- R334: the work queue that an instruction names. -/
def State.wqOf (s : State) (c : Nat) (v : Word) : Option (Nat × WorkQ) :=
  if 4096 ≤ v.toNat then none
  else (s.ownWq (s.fn (s.cell c).seq.id.vfid.toNat) v.toNat).map fun w => (v.toNat, w)

/-- R299, R334: the checks of an entry address. -/
def State.entryChecked (s : State) (c : Nat) (i : Instr) (a : Word) (go : State) : State :=
  if !(s.cell c).addrOk [1] a || 0x80000 < offOf a + 64 then s.raise c i cAddrIllegal a
  else if !alignedTo a 64 then s.raise c i cMisalign a
  else go

/-- R334: QPUSH. -/
def execQpush (x : Src2Args) (s : State) : Out :=
  s.issueAs (.qpush x) x.g [x.a, x.b] fun c s =>
    let e := (s.cell c).gval x.b
    s.entryChecked c (.qpush x) e <|
      match s.wqOf c ((s.cell c).gval x.a) with
      | none => s.raise c (.qpush x) cIllOperand 0
      | some (n, _) => s.readDesc c (.qpush x) e 8 64 fun ws s =>
        match tfind s.disp.wqs n with
        | none => s.raise c (.qpush x) cIllOperand 0
        | some w =>
          let (ok, s) := s.wqTurn n w (.cell c) 1
          if ok then (s.wqAppend n (wordsNat ws) (some (Fin.ofNat 64 (s.cell c).seq.id.vfid.toNat))).advance c
          else s.waitAt c (7 :: ws)

/-- R111, R334: the words of a taken entry that have not been written yet, each in a bank cycle of its own. -/
def entryStep (x : CellSt) (off : Nat) : Nat → Nat → List Word → CellSt × Nat
  | _, m, [] => (x, m)
  | j, m, w :: t =>
    if m.testBit j then entryStep x off (j + 1) m t
    else match x.askBanks 2 [bankOf (off + 8 * j)] with
      | (true, y) => entryStep (y.spWrite (off + 8 * j) 8 w.toNat) off (j + 1) (m + 2 ^ j) t
      | (false, y) => entryStep y off (j + 1) m t

/-- R334: an entry that has been taken is written out, and then d lands; frozen on a bank QPOP keeps
[8, entries left, the words written, w0, …]. -/
def State.writeEntry (s : State) (c : Nat) (d : Reg) (off : Nat) (left : Word) (m : Nat) (ws : List Word) : State :=
  let (x, m) := entryStep (s.cell c) off 0 m ws
  if m = 255 then (s.setCell c (x.write1 d left)).advance c
  else s.setCell c { x with freeze := .bank, hold := 8 :: left :: BitVec.ofNat 64 m :: ws }

/-- R138, R139, R142, R193: the head entry of a work queue, read at its home slice. -/
def State.entryAt (s : State) (w : WorkQ) : Except Hold (List Word) × State :=
  let a := w.slot w.head
  match s.readDev (a / 128) false (granOf (a % 128) 64) with
  | (.ok l, s) => (.ok ((List.range 8).map fun j => BitVec.ofNat 64 (lineBytes l (a % 128 + 8 * j) 8)), s)
  | (.error h, s) => (.error h, s)

/-- R334: QPOP. Asleep and handed an entry it keeps [9, entries left, w0, …], and [10, cause] if the entry cannot be read: it stays
in the queue, and the cause is precise (log 111). -/
def execQpop (x : Reg3Args) (s : State) : Out :=
  s.issueAs (.qpop x) x.g [x.b, x.c] fun c s =>
    let e := (s.cell c).gval x.c
    match (s.cell c).freeze, (s.cell c).hold with
    | .bank, 8 :: left :: m :: ws => s.writeEntry c x.a (offOf e) left m.toNat ws
    | .wait, 9 :: left :: ws => s.writeEntry c x.a (offOf e) left 0 ws
    | .wait, [10, f] => s.raise c (.qpop x) (f.setWidth 8) e
    | _, _ =>
      s.entryChecked c (.qpop x) e <|
        match s.wqOf c ((s.cell c).gval x.b) with
        | none => s.raise c (.qpop x) cIllOperand 0
        | some (n, w) =>
          let first := match w.sleepers with | [] => true | h :: _ => h == c
          let awake := w.sleepers.filter (· ≠ c)
          match (if first && w.head < w.tail then s.entryAt w else (.error .wait, s)) with
          | (.ok ws, s) =>
            (s.setWq n { w with head := w.head + 1, sleepers := awake }).writeEntry c x.a (offOf e) (BitVec.ofNat 64 (w.held - 1)) 0 ws
          | (.error (.fail f _), s) => (s.setWq n { w with sleepers := awake }).raise c (.qpop x) f e
          | (.error .wait, s) =>
            (s.setWq n (if w.sleepers.contains c then w else { w with sleepers := w.sleepers ++ [c] })).waitAt c []

/-- R193: a sleeper is handed the head entry of its queue, if it has one that can be read now. -/
def State.handTo (s : State) (n c : Nat) : Bool × State :=
  match tfind s.disp.wqs n with
  | none => (false, s)
  | some w =>
    if w.tail ≤ w.head then (false, s)
    else
      let awake := w.sleepers.filter (· ≠ c)
      match s.entryAt w with
      | (.error .wait, t) => (false, s.keepWaits t)
      | (.error (.fail f _), s) => (true, (s.setWq n { w with sleepers := awake }).modCell c fun x => { x with hold := [10, f.setWidth 64] })
      | (.ok ws, s) => (true, (s.setWq n { w with head := w.head + 1, sleepers := awake }).modCell c fun x =>
          { x with hold := 9 :: BitVec.ofNat 64 (w.held - 1) :: ws })

/-- R193: the sleepers of a queue are handed its entries, in the order in which they slept, one to each. -/
def State.handFrom (s : State) (n : Nat) : List Nat → State
  | [] => s
  | c :: t => match s.handTo n c with
    | (true, s) => s.handFrom n t
    | (false, s) => s

/-- R193: every work queue hands out its entries. -/
def State.handAll (s : State) : State := s.disp.wqs.foldl (fun s (n, w) => s.handFrom n w.sleepers) s

/-- R334: QROOM. -/
def execQroom (x : DestSrcArgs) (s : State) : Out :=
  s.issueAs (.qroom x) x.g [x.b] fun c s =>
    match s.wqOf c ((s.cell c).gval x.b) with
    | none => s.raise c (.qroom x) cIllOperand 0
    | some (_, w) => (s.modCell c fun y => y.write1 x.d (BitVec.ofNat 64 w.room)).advance c

end Sys2Proof.Machine
end

