-- ==== Sys2Proof/Machine/Links.lean ====
section
/-! DEFINITION. Gensel Link operations and ports (R205 to R211, R253, R335 to R339). -/

namespace Sys2Proof.Machine

/-! ### Element records (R209, R210) -/

/-- R209: an element record as a number of 48 bytes: the sum in [319:0], NAN, PINF, NINF, ALLNZ in [323:320]. -/
def linkRecord (f : Fmt) (code : Nat) : Nat :=
  match f.value code with
  | .nan => 2 ^ 320
  | .inf n => if n then 2 ^ 322 else 2 ^ 321
  | .fin n m e =>
    let k : Int := (m * 2 ^ (e + 149).toNat : Nat)
    wrapN 320 (if n then -k else k) + (if n && m == 0 then 2 ^ 323 else 0)

/-- R209: two records added. -/
def linkAdd (a b : Nat) : Nat :=
  let fa := a / 2 ^ 320 % 16
  let fb := b / 2 ^ 320 % 16
  (a + b) % 2 ^ 320 + (fa.lor fb % 8 + fa.land fb / 8 * 8) * 2 ^ 320

/-- R210: a record rounded once to a format. -/
def linkRound (f : Fmt) (r : Nat) : Nat :=
  let fl := r / 2 ^ 320 % 16
  let inf := f.inf.getD 0
  if fl.testBit 0 || (fl.testBit 1 && fl.testBit 2) then f.canon.1
  else if fl.testBit 1 then f.signed false inf
  else if fl.testBit 2 then f.signed true inf
  else
    let v : Int := sval 320 (r % 2 ^ 320)
    if v = 0 then f.signed (fl.testBit 3) 0 else (f.roundFin { mode := 0 } (v < 0) v.natAbs (-149)).1

/-! ### Scratchpad bytes of a link operation (R108, R111) -/

/-- The words that `n` bytes from an offset touch. -/
def spTouched (off n : Nat) : List Nat :=
  if n = 0 then [] else (List.range ((off + n - 1) / 8 - off / 8 + 1)).map fun j => (off / 8 + j) * 8

/-- R111: the reads that the words of a range need. -/
def readsOf (who : SpWho) (off n : Nat) : List SpReq := (spTouched off n).map fun w => { who := who, cls := 4, off := w }

/-- R111: the writes, word by word, that bytes from an offset need; the fuel counts words. -/
def writesOf (who : SpWho) (cls off : Nat) (bs : List Byte) : Nat → List SpReq
  | 0 => []
  | f + 1 =>
    let k := min bs.length (8 - off % 8)
    if k = 0 then []
    else { who := who, cls := cls, off := off, size := k, val := leNat (bs.take k) } :: writesOf who cls (off + k) (bs.drop k) f

/-- The bytes of a range whose words have been read; none if one of them cannot be corrected. -/
def gotBytes (got : List (Nat × Option Word)) (off n : Nat) : Option (List Byte) :=
  if got.any (·.2.isNone) then none
  else
    let ws := (spTouched off n).map fun w => ((got.find? (·.1 = w)).bind (·.2)).getD 0
    some (((ws.flatMap fun w => leBytes w.toNat 8).drop (off % 8)).take n)

/-! ### The steps of an all-reduce (R337) -/

/-- R337: a segment's first element and the one after its last. -/
def LinkCmd.seg (k : LinkCmd) (q : Int) : Nat × Nat :=
  let j := (q % (k.m : Int)).toNat
  (j * k.len / k.m, (j + 1) * k.len / k.m)

def LinkCmd.fmt (k : LinkCmd) : Fmt := if k.bf16 then fmtBf16 else fmtF32
/-- Bytes of an element of BUF. -/
def LinkCmd.width (k : LinkCmd) : Nat := if k.bf16 then 2 else 4
/-- R337: whether the step is one of the reduce-scatter. -/
def LinkCmd.reducing (k : LinkCmd) : Bool := k.step + 2 ≤ k.m

/-- R337: the segments that a step sends and receives. -/
def LinkCmd.sendSeg (k : LinkCmd) : Nat × Nat :=
  if k.reducing then k.seg ((k.pos : Int) - k.step) else k.seg ((k.pos : Int) + 1 - (k.step - (k.m - 1) : Nat))
def LinkCmd.recvSeg (k : LinkCmd) : Nat × Nat :=
  if k.reducing then k.seg ((k.pos : Int) - k.step - 1) else k.seg ((k.pos : Int) - (k.step - (k.m - 1) : Nat))

/-- The scratchpad range of a segment: records in the work area, or values in BUF. -/
def LinkCmd.range (k : LinkCmd) (rec : Bool) (g : Nat × Nat) : Nat × Nat :=
  if rec then (k.woff + 48 * g.1, 48 * (g.2 - g.1)) else (k.boff + k.width * g.1, k.width * (g.2 - g.1))

/-- Elements of a byte string, `w` bytes each. -/
def elementsOf (w : Nat) (bs : List Byte) : Nat → List Nat
  | 0 => []
  | n + 1 => leNat (bs.take w) :: elementsOf w (bs.drop w) n

/-- R337: at step 0 every element of BUF becomes its own record. -/
def LinkCmd.records (k : LinkCmd) (bs : List Byte) : List Byte :=
  (elementsOf k.width bs k.len).flatMap fun e => leBytes (linkRecord k.fmt e) 48

/-- R337: the records of a segment with those of a message added. -/
def LinkCmd.sums (k : LinkCmd) (old data : List Byte) : List Byte :=
  let n := k.recvSeg.2 - k.recvSeg.1
  (List.zipWith linkAdd (elementsOf 48 old n) (elementsOf 48 data n)).flatMap fun r => leBytes r 48

/-- R337: the segment that this module is the root of, and its rounded values. -/
def LinkCmd.rootSeg (k : LinkCmd) : Nat × Nat := k.seg ((k.pos : Int) + 1)
def LinkCmd.rounds (k : LinkCmd) (bs : List Byte) : List Byte :=
  (elementsOf 48 bs (k.rootSeg.2 - k.rootSeg.1)).flatMap fun r => leBytes (linkRound k.fmt r) k.width

/-! ### Ports and flits (R205 to R207) -/

def State.port (s : State) (p : Fin 32) : Port := s.sys.ports[p.val]
def State.setPort (s : State) (p : Fin 32) (x : Port) : State :=
  { s with sys := { s.sys with ports := s.sys.ports.set p.val x p.isLt } }
def State.modPort (s : State) (p : Fin 32) (f : Port → Port) : State := s.setPort p (f (s.port p))

/-- R205: the 256 bytes of a flit, its CRC-64 last. -/
def Flit.bytes (f : Flit) : List Byte :=
  let bs := leBytes f.typ.toNat 2 ++ leBytes f.fseq.toNat 2 ++ leBytes f.ackseq.toNat 2 ++ leBytes f.credits.toNat 2 ++
    (f.payload ++ List.replicate 240 0).take 240
  bs ++ leBytes (flitCheck bs) 8

/-- R205, R206: whether received bytes are no flit: a CRC that differs, or a TYPE above 4. -/
def flitCorrupt (bs : List Byte) : Bool :=
  bs.length ≠ 256 || leNat ((bs.drop 248).take 8) ≠ flitCheck bs || leNat (bs.take 1) > 4

/-- R205, R206: waiting flits are sent while the replay buffer and the partner have room; the first returns the credits of
the receive buffer. -/
def Port.pump (p : Port) : Nat → Port
  | 0 => p
  | n + 1 =>
    match p.waiting with
    | [] => p
    | f :: t =>
      if 128 ≤ p.replay.length || p.credits = 0 then p
      else ({ p with waiting := t, fseq := p.fseq + 1, credits := p.credits - 1, freed := 0,
                     replay := p.replay ++ [{ f with fseq := p.fseq, ackseq := p.ackseq,
                                                     credits := BitVec.ofNat 16 p.freed }] }).pump n

/-- Flits are handed to a port. -/
def State.sendFlits (s : State) (p : Fin 32) (fs : List Flit) : State :=
  s.modPort p fun x => ({ x with waiting := x.waiting ++ fs }).pump 128

/-- R205, R207: how many flits carry a message; a message of no data takes one. -/
def flitsOf (m : LinkMsg) : Nat := max 1 ((m.data.length + 239) / 240)

/-- R205, R207: the flits of a message. -/
def messageFlits (c : Nat) (m : LinkMsg) : List Flit :=
  (List.range (flitsOf m)).map fun j =>
    { fseq := 0, typ := if m.kind = 2 then 2 else 1, msg := if j + 1 = flitsOf m then some m else none,
      last := j + 1 = flitsOf m, cell := c, group := m.group, round := m.round,
      payload := (m.data.drop (240 * j)).take 240 }

/-- The flit of an abort (R205, R211). -/
def abortFlit (g : BitVec 16) (r : BitVec 32) : Flit := { fseq := 0, typ := 3, group := g, round := r }

/-- R211, R339: the abort flit leaves on the UP ports of a set. -/
def State.flood (s : State) (ps : List (Fin 32)) (g : BitVec 16) (r : BitVec 32) : State :=
  ps.foldl (fun s p => if (s.port p).state = .up then s.sendFlits p [abortFlit g r] else s) s

/-- R339: whether a pair is among those the module has aborted. -/
def State.isAborted (s : State) (g : BitVec 16) (r : BitVec 32) : Bool := s.sys.aborted.contains (g, r)

/-- R339: a pair joins the last 256. -/
def State.recordAbort (s : State) (g : BitVec 16) (r : BitVec 32) : State :=
  { s with sys := { s.sys with aborted := (((g, r) :: s.sys.aborted.filter (· ≠ (g, r))).take 256) } }

/-! ### Link operations (R207, R208, R211, R336, R337) -/

/-- R336, R337: the messages an operation has delivered. -/
def LinkCmd.delivered (k : LinkCmd) : Nat := bit k.sent + bit k.rcvd

/-- R115, R336, R337: the word of a completed operation. -/
def LinkCmd.success (k : LinkCmd) : Word := doneWord 0 (if k.op.val = 2 then k.cval + BitVec.ofNat 56 k.step else k.cval)

/-- R336, R337: whether everything an operation does has been done. -/
def LinkCmd.complete (k : LinkCmd) : Bool :=
  if k.op.val = 0 then k.sent else if k.op.val = 1 then k.rcvd else k.sent && k.rcvd

/-- The operation at the head of a cell's queue, changed. -/
def CellSt.linkHead (x : CellSt) (k : LinkCmd) : CellSt := { x with linkq := k :: x.linkq.tail }

/-- R207: the operation at the head goes on to a phase with accesses of its own. -/
def CellSt.linkPhase (x : CellSt) (k : LinkCmd) (p : LinkPhase) (ps : List SpReq) : CellSt :=
  (x.linkHead { k with phase := p, got := [] }).addPuts ps

/-- R198, R207: the operation at the head ends with its completion word. -/
def CellSt.endLink (x : CellSt) (k : LinkCmd) (w : Word) : CellSt :=
  x.linkPhase { k with msg := [] } .ending [{ who := .link, cls := 4, off := k.cwoff, size := 8, val := w.toNat }]

/-- R113, R115: the operation at the head fails. -/
def CellSt.linkFail (x : CellSt) (k : LinkCmd) (c : Cause) : CellSt := x.endLink k (errorWord k.delivered c)

/-- R207, R336, R337: whether a message is the one that an operation receives. -/
def LinkCmd.wants (k : LinkCmd) (c : Nat) (m : LinkMsg) : Bool :=
  m.dcell.toNat = c && m.group = k.group && m.round = k.round &&
    (if k.op.val = 1 then m.kind = 0 && m.tag = k.tag else k.op.val = 2 && m.kind = 2 && m.tag.toNat = k.step)

/-- R336, R337: the port on which an operation receives. -/
def LinkCmd.recvPort (k : LinkCmd) : Fin 32 := if k.op.val = 2 then k.rport else k.port

/-- The message that an operation sends, with its source range. -/
def LinkCmd.source (k : LinkCmd) : Nat × Nat :=
  if k.op.val = 0 then (k.boff, k.len) else k.range k.reducing k.sendSeg

/-- R336, R337: the message of an operation. -/
def LinkCmd.message (k : LinkCmd) (data : List Byte) : LinkMsg :=
  { kind := k.op.val, group := k.group, round := k.round, tag := if k.op.val = 2 then BitVec.ofNat 16 k.step else k.tag,
    dcell := k.dcell, data := data }

/-- R207: whether an operation writes or applies a message that has come whole. -/
def LinkCmd.applying (k : LinkCmd) : Bool :=
  match k.phase with
  | .adding | .added | .root | .rooted | .taking | .ending => true
  | .rest | .form | .formed | .source => false

/-- R206, R253: the part of an operation that meets a port that is not UP waits on it and is not resumed. -/
def LinkCmd.onPorts (k : LinkCmd) (up : Fin 32 → Bool) : LinkCmd :=
  { k with noSend := k.noSend || (k.op.val ≠ 1 && !k.sent && !up k.port),
           noRecv := k.noRecv || (k.op.val ≠ 0 && !k.rcvd && !k.applying && !up k.recvPort) }

/-- R336, R337: the operation at the head reads the message that it sends, if its port is UP. -/
def State.linkSource (s : State) (c : Nat) (k : LinkCmd) : State :=
  let sends := k.op.val ≠ 1 && !k.sent && !k.noSend && (s.port k.port).state = .up
  s.modCell c fun x => if sends then x.linkPhase k .source (readsOf .link k.source.1 k.source.2) else x.linkPhase k .rest []

/-- R207, R336, R337: the operation at the head of a cell's queue begins: a step 0 forms its records first. -/
def State.linkBegin (s : State) (c : Nat) (k : LinkCmd) : State :=
  let k := ({ k with started := true } : LinkCmd).onPorts fun p => (s.port p).state = .up
  if k.op.val = 2 && k.step = 0 && !k.sent && !k.rcvd then
    s.modCell c fun x => x.linkPhase k .form (readsOf .link k.boff (k.width * k.len))
  else s.linkSource c k

/-- R112, R336, R337: a message is written, or its segment read to be added to it. -/
def State.deliver (s : State) (c : Nat) (k : LinkCmd) (m : LinkMsg) : State :=
  s.modCell c fun x =>
    if k.op.val = 2 && k.reducing then
      let (off, len) := k.range true k.recvSeg
      x.linkPhase { k with msg := m.data } .adding (readsOf .link off len)
    else
      let (off, bs) := if k.op.val = 1 then (k.boff, m.data.take k.len)
        else ((k.range false k.recvSeg).1, m.data.take (k.range false k.recvSeg).2)
      x.linkPhase { k with msg := m.data } .taking (writesOf .link 3 off bs (bs.length + 1))

/-- R207: an operation takes the first unmatched message it wants from a port that is UP, unless its cell stops; the flits that held
it are room for the partner. -/
def State.takeHeld (s : State) (c : Nat) (k : LinkCmd) : State :=
  if k.op.val = 0 || k.rcvd || k.noRecv || (s.cell c).stop.isSome || (s.port k.recvPort).state ≠ .up then s
  else match (s.port k.recvPort).unmatched.find? (k.wants c) with
    | none => s
    | some m =>
      (s.modPort k.recvPort fun p => { p with unmatched := p.unmatched.erase m, freed := p.freed + flitsOf m }).deliver c k m

/-- R336, R337: the message has been written or applied. -/
def CellSt.linkTaken (x : CellSt) (k : LinkCmd) : CellSt :=
  (x.linkPhase { k with rcvd := true, msg := [] } .rest []).ev 0x32 none 1

/-- R113, R115: a phase whose words have been read goes on with their bytes, or the operation fails. -/
def State.withGot (s : State) (c : Nat) (k : LinkCmd) (r : Nat × Nat) (go : List Byte → State) : State :=
  match gotBytes k.got r.1 r.2 with
  | none => s.modCell c fun x => x.linkFail k cMcSpadEcc
  | some bs => go bs

/-- R113: a phase whose words have been written, or one of them could not be. -/
def State.withPut (s : State) (c : Nat) (k : LinkCmd) (go : State) : State :=
  if k.got.any (·.2.isNone) then s.modCell c fun x => x.linkFail k cMcSpadEcc else go

/-- R207, R336, R337: the operation at the head of a cell's queue goes on, once none of its accesses is pending. -/
def State.linkNext (s : State) (c : Nat) : State :=
  match (s.cell c).linkq with
  | [] => s
  | k :: t =>
    let set (p : LinkPhase) (ps : List SpReq) : State := s.modCell c fun x => x.linkPhase k p ps
    let taken := s.modCell c fun x => x.linkTaken k
    if (s.cell c).pending .link then s
    else match k.phase with
      | .rest =>
        if !k.started then (if (s.cell c).stop.isSome then s else s.linkBegin c k)
        else if k.complete then s.modCell c fun x => x.endLink k k.success
        else s.takeHeld c k
      | .form => s.withGot c k (k.boff, k.width * k.len) fun bs => set .formed (writesOf .link 3 k.woff (k.records bs) (6 * k.len + 1))
      | .formed => s.withPut c k (s.linkSource c k)
      | .source => s.withGot c k k.source fun bs =>
          let s := set .rest []
          if !k.noSend && (s.port k.port).state = .up then s.sendFlits k.port (messageFlits c (k.message bs)) else s
      | .adding => s.withGot c k (k.range true k.recvSeg) fun bs =>
          set .added (writesOf .link 3 (k.range true k.recvSeg).1 (k.sums bs k.msg) (6 * k.len + 1))
      | .added => s.withPut c k <|
          if k.step + 2 = k.m then set .root (readsOf .link (k.range true k.rootSeg).1 (k.range true k.rootSeg).2) else taken
      | .root => s.withGot c k (k.range true k.rootSeg) fun bs =>
          set .rooted (writesOf .link 3 (k.range false k.rootSeg).1 (k.rounds bs) (k.width * k.len + 1))
      | .rooted | .taking => s.withPut c k taken
      | .ending => s.modCell c fun x => { x with linkq := t }

/-- R211: an operation that an abort of a round ends: one that has its completion word keeps it. -/
def LinkCmd.aborts (k : LinkCmd) (g : BitVec 16) (r : BitVec 32) : Bool := k.group = g && k.round = r && k.phase != .ending

/-- R211: the operations of an aborted round end in the error form, and their queue entries are freed. -/
def CellSt.abortLinks (x : CellSt) (g : BitVec 16) (r : BitVec 32) : CellSt :=
  let gone := x.linkq.filter (·.aborts g r)
  let cut := match x.linkq with | k :: _ => k.aborts g r | [] => false
  ({ x with linkq := x.linkq.filter fun k => !k.aborts g r, puts := if cut then x.puts.filter (·.who != SpWho.link) else x.puts }).addPuts
    (gone.map fun (k : LinkCmd) =>
      ({ who := .word, cls := 4, off := k.cwoff, size := 8, val := (errorWord k.delivered cLkAborted).toNat } : SpReq))

/-- R211: a frame in the save area whose operations of a round end when it is resumed. -/
def StopNote.aborting (n : StopNote) (g : BitVec 16) (r : BitVec 32) : StopNote := { n with aborts := n.aborts ++ [(g, r)] }

/-- R211, R339: every operation of a group and round ends, in every cell and in every frame, and the pair is recorded. -/
def State.abortRound (s : State) (g : BitVec 16) (r : BitVec 32) : State :=
  State.recordAbort { s with
    cells := s.cells.map fun (n, x) => (n, if x.stop.any (·.saved) then x else CellSt.abortLinks x g r)
    disp := { s.disp with gangs := s.disp.gangs.map fun (n, y) => (n, { y with notes := y.notes.map (·.aborting g r) }) } } g r

/-! ### Instructions (R335 to R339) -/

/-- R208, R335: the operation that a descriptor's words name. -/
def linkOf (ws : List Word) (op : Fin 4) (bf16 : Bool) (step : Nat) : LinkCmd :=
  let f := descNum ws
  { group := BitVec.ofNat 16 (f 0 2), tag := BitVec.ofNat 16 (f 2 2), round := BitVec.ofNat 32 (f 4 4),
    port := Fin.ofNat 32 (f 8 1), rport := Fin.ofNat 32 (f 9 1), m := f 0xa 1, pos := f 0xb 1,
    dcell := BitVec.ofNat 15 (f 0xc 2), op := op, bf16 := bf16, step := step, boff := f 0x10 4, len := f 0x14 4,
    woff := f 0x18 4, cwoff := f 0x1c 4, cval := BitVec.ofNat 56 (f 0x20 7) }

/-- R335: a scratchpad offset of a descriptor with the bytes it names. -/
def linkRange (off n : Nat) : Bool := off % 8 = 0 && off < 0x80000 && off + n ≤ 0x80000

/-- R335: the limits of a descriptor; `op` 0 SEND, 1 RECV, 2 ARED, 3 ABORT. -/
def linkOk (ws : List Word) (op : Nat) (k : LinkCmd) : Bool :=
  let f := descNum ws
  let used (b : Bool) (v : Nat) : Bool := b || v = 0
  f 0xe 2 = 0 && f 0x2c 20 = 0 && f 0x27 1 = 0 && f 0xd 1 < 128 && f 8 1 < 32 && f 9 1 < 32 &&
  used (op < 2) (f 2 2) && used (op < 3) (f 8 1) && used (op = 2) (f 9 1) && used (op = 2) (f 0xa 1) && used (op = 2) (f 0xb 1) &&
  used (op = 0 || op = 2) (f 0xc 2) && used (op < 3) (f 0x10 4) && used (op < 3) (f 0x14 4) && used (op = 2) (f 0x18 4) &&
  used (op < 3) (f 0x1c 4) && used (op < 3) (f 0x20 8) && used (op = 3) (f 0x28 4) && linkRange k.cwoff 8 &&
  (if op < 2 then k.len % 8 = 0 && 8 ≤ k.len && k.len ≤ 65536 && linkRange k.boff k.len
   else if op = 2 then
     2 ≤ k.m && k.m ≤ 64 && k.pos < k.m && 1 ≤ k.len && 48 * ((k.len + k.m - 1) / k.m) ≤ 65536 &&
       linkRange k.boff (k.width * k.len) && linkRange k.woff (48 * k.len)
   else true)

/-- R335: a link operation issues. -/
def linkOp (i : Instr) (g : Guard) (a : Reg) (srcs : List Reg) (op : Fin 4) (bf16 : Bool) (step : CellSt → Nat) (s : State) :
    Out :=
  s.issueAs i g (a :: srcs) fun c s =>
    s.readDesc c i ((s.cell c).gval a) 8 8 fun ws s =>
      let k := linkOf ws op bf16 (step (s.cell c))
      if !linkOk ws op.val k || (op.val = 2 && 2 * k.m ≤ k.step + 2) then s.raise c i cIllOperand 0
      else s.issueCommand c ws (fun s => (s.cell c).linkq.length < 4) fun s =>
        (s.modCell c fun y => { y with linkq := y.linkq ++ [k] }).advance c

/-- R336: LK.SEND. -/
def execLkSend (x : SrcArgs) (s : State) : Out := linkOp (.lkSend x) x.g x.a [] 0 false (fun _ => 0) s
/-- R336: LK.RECV. -/
def execLkRecv (x : SrcArgs) (s : State) : Out := linkOp (.lkRecv x) x.g x.a [] 1 false (fun _ => 0) s
/-- R337: LK.ARED. -/
def execLkAred (x : AredArgs) (s : State) : Out :=
  linkOp (.lkAred x) x.g x.a [x.c] 2 (isBf16 x.t) (fun y => (y.gval x.c).toNat) s

/-- R338: what LK.WAIT returns when its limit passes. -/
def timeoutWord : Word := 0x8000000000000064

/-- R338: LK.WAIT; frozen it keeps [1, offset, comparand, 3, limit], and [2, value] once its wait is over. A limit past the last
device time is that time (log 108), and a word that cannot be corrected is logged with X(a) and X(b) (log 115). -/
def execLkWait (x : Reg3Args) (s : State) : Out :=
  s.issueAs (.lkWait x) x.g [x.a, x.b, x.c] fun c s =>
    let y := s.cell c
    let a := y.gval x.b
    let cmp := y.gval x.a
    match y.freeze, y.hold with
    | .wait, [2, w] => (s.modCell c fun z => z.write1 x.a w).advance c
    | .wait, 1 :: rest => s.waitAt c (1 :: rest)
    | _, _ =>
      s.addrChecked c (.lkWait x) [1] a (alignedTo a 8) <|
        s.withBanks c [bankOf (offOf a)] fun s =>
          let w := y.spWord (offOf a)
          let s := s.modCell c fun z => z.spNote (offOf a)
          if y.spBad (offOf a) then
            if y.logFull then s.freezeLog c
            else s.logged c ((memEntry y (.lkWait x) (destG x.a) 1 (y.greg x.a) (y.greg x.b) a).failed cMcSpadEcc)
          else if waitaHolds w cmp 3 then (s.modCell c fun z => z.write1 x.a w).advance c
          else
            let limit := min (s.now + (y.gval x.c).toNat) (2 ^ 64 - 1)
            if limit ≤ s.now then (s.modCell c fun z => z.write1 x.a timeoutWord).advance c
            else s.waitAt c [1, BitVec.ofNat 64 (offOf a), cmp, 3, BitVec.ofNat 64 limit]

/-- The ports of PMASK. -/
def maskPorts (m : Nat) : List (Fin 32) := (List.finRange 32).filter fun p => m.testBit p.val

/-- R339: LK.ABORT. -/
def execLkAbort (x : SrcArgs) (s : State) : Out :=
  s.issueAs (.lkAbort x) x.g [x.a] fun c s =>
    s.readDesc c (.lkAbort x) ((s.cell c).gval x.a) 8 8 fun ws s =>
      let k := linkOf ws 3 false 0
      if !linkOk ws 3 k then s.raise c (.lkAbort x) cIllOperand 0
      else ((s.abortRound k.group k.round).flood (maskPorts (descNum ws 0x28 4)) k.group k.round).advance c

/-! ### Events of the ports -/

/-- R338: an LK.WAIT whose limit has come returns the timeout value, unless its word has been written. -/
def execLkTimeout (c : Nat) (s : State) : Out :=
  .next <| match (s.cell c).freeze, (s.cell c).hold with
    | .wait, [1, _, _, _, limit] =>
      if limit ≤ s.sys.devtime ∧ (s.cell c).stop = none then s.modCell c fun x => { x with hold := [2, timeoutWord] } else s
    | _, _ => s

/-- R207: bytes of unmatched messages that a port holds. -/
def Port.heldBytes (p : Port) : Nat := (p.unmatched.map (·.data.length)).foldl (· + ·) 0

/-- R207: the flits of a message leave the receive buffer: room for the partner. -/
def State.freeFlits (s : State) (port : Fin 32) (n : Nat) : State := s.modPort port fun p => { p with freed := p.freed + n }

/-- R206: whether a flit that comes whole at a port is the one after the last good; another is discarded, and a credit flit
names the last good one. -/
def Port.inOrder (p : Port) (fseq : BitVec 16) : Bool := fseq = p.ackseq + 1

/-- R206: the port names the last good flit, and every flit from here to its successor is discarded. -/
def State.nakFlit (s : State) (port : Fin 32) : State := s.modPort port fun p => { p with nak := some p.ackseq }

/-- R205, R206: flits have come in order. -/
def State.ackFlits (s : State) (port : Fin 32) (n : Nat) : State :=
  s.modPort port fun p => { p with ackseq := p.ackseq + BitVec.ofNat 16 n, nak := none, missed := 0 }

/-- R207, R336: the operation that executes in a cell takes a message as it arrives at a port: it wants it, and none of the messages
that the port holds. -/
def State.takes (s : State) (port : Fin 32) (m : LinkMsg) (k : LinkCmd) : Bool :=
  let c := m.dcell.toNat
  (s.cell c).stop.isNone && k.started && !k.noRecv && !k.rcvd && k.phase == .rest && k.op.val != 0 && k.recvPort == port &&
    k.wants c m && !(s.port port).unmatched.any (k.wants c)

/-- R207, R211, R336, R337: the flits of a message, the first of them numbered, arrive at an UP port: out of order they are
discarded; an aborted round's message is discarded, one that the executing operation of its cell wants is delivered, any
other is held. The sender's credits keep one that does not fit from arriving. -/
def execLinkMessageArrival (p0 : FlitPlace) (m : LinkMsg) (s : State) : Out :=
  .next <|
    let port := p0.port
    let p := s.port port
    if p.state ≠ .up then s
    else if !p.inOrder p0.fseq then s.nakFlit port
    else
      let good := s.ackFlits port (flitsOf m)
      let held := if p.heldBytes + m.data.length ≤ 262144 then good.modPort port fun p => { p with unmatched := p.unmatched ++ [m] } else s
      if s.isAborted m.group m.round then good.freeFlits port (flitsOf m)
      else match (s.cell m.dcell.toNat).linkq with
        | k :: _ => if s.takes port m k then (good.freeFlits port (flitsOf m)).deliver m.dcell.toNat k m else held
        | [] => held

/-- R206: the flits of a replay buffer after an acknowledgement, and those it acknowledges. -/
def splitAcked (seq : BitVec 16) : List Flit → Option (List Flit × List Flit)
  | [] => none
  | f :: t =>
    if f.fseq = seq then some ([f], t)
    else match splitAcked seq t with
      | some (a, b) => some (f :: a, b)
      | none => none

/-- R336: the partner has acknowledged the last flit of a message. -/
def State.messageSent (s : State) (f : Flit) : State :=
  match f.last, f.msg, (s.cell f.cell).linkq with
  | true, some m, k :: _ =>
    if k.started && !k.sent && k.op.val = m.kind && k.group = m.group && k.round = m.round &&
        m.tag = (k.message []).tag && k.op.val ≠ 1 then
      s.modCell f.cell fun x => (x.ev 0x32 none 1).linkHead { k with sent := true }
    else s
  | _, _, _ => s

/-- R206: flits up to one are acknowledged. -/
def State.acknowledge (s : State) (port : Fin 32) (seq : BitVec 16) : State :=
  match splitAcked seq (s.port port).replay with
  | none => s
  | some (done, rest) =>
    done.foldl State.messageSent (s.modPort port fun p => { p with replay := rest, failed := 0, replayFrom := none })

/-- R336: acknowledged flits leave the replay buffer, and credits let more be sent. -/
def execCreditAndAcknowledgement (port : Fin 32) (ackseq credits : BitVec 16) (s : State) : Out :=
  .next <|
    if (s.port port).state ≠ .up then s
    else (s.acknowledge port ackseq).modPort port fun p => ({ p with credits := p.credits + credits.toNat }).pump 128

/-- R206, R253: operations in execution that use a port wait on it for good. -/
def CellSt.linkDown (x : CellSt) (port : Fin 32) : CellSt :=
  match x.linkq with
  | k :: t => if k.started then { x with linkq := (k.onPorts fun p => p ≠ port) :: t } else x
  | [] => x

/-- R253: 10 ms of device time, in nanoseconds. -/
def trainEvery : Nat := 10000000

/-- R253: an attempt of a port starts; each after its first since power-on counts. -/
def Port.attempt (p : Port) (now : Nat) : Port :=
  { p with state := .training, lanes := 0, trained := true, tryAt := now + trainEvery,
           retrains := if p.trained then satInc p.retrains else p.retrains }

/-- R206, R253: a port goes down and re-enters TRAINING: what it was sending is discarded, its numbering restarts. -/
def State.portDown (s : State) (port : Fin 32) : State :=
  let s := s.modPort port fun p =>
    ({ p with fseq := 0, ackseq := 0xffff, credits := 0, waiting := [], replay := [], replayFrom := none, nak := none,
              failed := 0, missed := 0 }).attempt s.now
  { s with cells := s.cells.map fun (n, x) => (n, CellSt.linkDown x port) }

/-- R206, R244: the flits from one on are replayed. A replay of the same flit again follows one that failed. -/
def State.replayPort (s : State) (port : Fin 32) (seq : BitVec 16) : State :=
  let p := s.port port
  let failed := if p.replayFrom = some seq then p.failed + 1 else 0
  let s := { s with sys := { s.sys with eclRetry := satInc s.sys.eclRetry } }
  if 8 ≤ failed then s.portDown port else s.setPort port { p with replayFrom := some seq, failed := failed }

/-- R206: a credit flit names the last good FSEQ, and the sender replays from the flit after it. -/
def execLinkRetry (port : Fin 32) (lastGood : BitVec 16) (s : State) : Out :=
  .next <|
    if (s.port port).state ≠ .up then s
    else
      let s := s.acknowledge port lastGood
      match (s.port port).replay with
      | [] => s
      | f :: _ => s.replayPort port f.fseq

/-- R206: a replay of the partner's next flit has failed; after eight in a row the port goes down. -/
def State.missFlit (s : State) (port : Fin 32) : State :=
  if 8 ≤ (s.port port).missed + 1 then s.portDown port else s.modPort port fun p => { p with missed := p.missed + 1 }

/-- R206: a flit that gets no answer is replayed, and the replay of one that the partner keeps has failed where nothing of this
port's own is to be replayed; after eight replays in a row that fail the port goes down (log 112). -/
def execFailedReplay (port : Fin 32) (s : State) : Out :=
  .next <|
    match (s.port port).state, (s.port port).replay with
    | .up, f :: _ => s.replayPort port f.fseq
    | .up, [] => s.missFlit port
    | _, _ => s

/-- R206: a flit with a CRC mismatch or a gap in FSEQ is discarded with every later one, and a credit flit names the last good
one; a replay that comes with a mismatch has failed. A flit that is neither is not this event's. -/
def execBadFlit (flit : FlitBytes) (s : State) : Out :=
  .next <|
    let p := s.port flit.port
    let bytes := flit.bytes
    let sequenced := decide (leNat (bytes.take 1) ∈ [1, 2, 3])
    if p.state ≠ .up then s
    else if flitCorrupt bytes then (if p.nak = some p.ackseq then s.missFlit flit.port else s.nakFlit flit.port)
    else if sequenced && !p.inOrder (BitVec.ofNat 16 (leNat ((bytes.drop 2).take 2))) then s.nakFlit flit.port
    else s

/-- R206, R339: an abort flit that comes in order ends its round once, and is forwarded on the other UP ports. -/
def execAbortFlitArrival (p0 : FlitPlace) (g : BitVec 16) (r : BitVec 32) (s : State) : Out :=
  .next <|
    let port := p0.port
    if (s.port port).state ≠ .up then s
    else if !(s.port port).inOrder p0.fseq then s.nakFlit port
    else
      let s := (s.ackFlits port 1).freeFlits port 1
      if s.isAborted g r then s else (s.abortRound g r).flood ((List.finRange 32).filter (· ≠ port)) g r

/-- R253: once the module is READY an attempt starts every 10 ms while a port is DOWN. One that nothing has ended by then ends
with the port DOWN (log 113). -/
def Port.train (p : Port) (now : Nat) : Port :=
  if now < p.tryAt then p
  else match p.state with
    | .down => p.attempt now
    | .training => { p with state := .down, lanes := 0 }
    | .up => p

/-- R253: the training attempts of the ports. -/
def State.startTraining (s : State) : State :=
  if !s.sys.bootDone then s
  else { s with sys := { s.sys with ports := s.sys.ports.map fun p => p.train s.now } }

/-- R253: the attempt of a port in TRAINING ends: it comes UP with the lanes that pass, or DOWN until the next. -/
def execPortTrainingAttempt (port : Fin 32) (r : TrainResult) (s : State) : Out :=
  .next <| s.modPort port fun p =>
    if p.state ≠ .training then p
    else if r.lanes.val = 0 then { p with state := .down, lanes := 0 }
    else { p with state := .up, lanes := r.lanes, digest := r.digest }

end Sys2Proof.Machine
end

