-- ==== Sys2Proof/Machine/Paths.lean ====
section
/-! DEFINITION. Reads and writes that the module's own engines make of global memory: what stands before a line is
settled in place, and what cannot be settled now is waited for (R130, R131, R224). -/

namespace Sys2Proof.Machine

/-- A failure is reported at the address the program named (R215). -/
def Hold.atAddr (a : Word) : Hold → Hold
  | .wait => .wait
  | .fail c _ => .fail c a

/-- R224, R130: the line of a virtual address as an engine of a die reads the granules of `size` bytes from there. A page in
host memory needs a CXL port (R212). -/
def State.readGlobal (s : State) (die : Nat) (asid : BitVec 16) (a : Nat) (size : Nat := 8) : Except Hold Line × State :=
  let w := BitVec.ofNat 64 a
  match s.translate die asid (a / 128 * 128) 1 false with
  | (.error h, s) => (.error (h.atAddr w), s)
  | (.ok t, s) =>
    if t.host then
      if !s.cxlReach then (.error .wait, s)
      else match s.readHost (t.addr / 128) (granOf (a % 128) size) with
        | .ok l => (.ok l, s)
        | .error c => (.error (.fail c w), s)
    else match s.readDev (t.addr / 128) t.cbit (granOf (a % 128) size) with
      | (.ok l, s) => (.ok l, s)
      | (.error h, s) => (.error (h.atAddr w), s)

/-- R131: the host has not answered for the line, and this access has waited for it. -/
def State.recallLost (s : State) (n : Nat) : Bool := s.mem.timedOut.any fun (m, t) => m = n ∧ s.sys.cycle ≤ t + 1

/-- R224, R130: a write of an engine of a die to the masked bytes of the line of a virtual address; one that has waited for a host
that did not answer meets POISON (R131). -/
def State.writeGlobal (s : State) (die : Nat) (asid : BitVec 16) (a : Nat) (mask : BitVec 128) (data : Line)
    (vf : Option (Fin 64)) : Option Hold × State :=
  let w := BitVec.ofNat 64 a
  match s.translate die asid (a / 128 * 128) 2 false with
  | (.error h, s) => (some (h.atAddr w), s)
  | (.ok t, s) =>
    if t.host then (if s.cxlReach then (none, s.hostWrite (t.addr / 128) mask data) else (some .wait, s))
    else if s.recallLost (t.addr / 128) then (some (.fail cPoison w), s)
    else match s.writeDev (t.addr / 128) mask data vf t.cbit with
      | (none, s) => (none, s)
      | (some h, s) => (some (h.atAddr w), s)

/-- The bytes of a line from an offset. -/
def lineList (l : Line) (off n : Nat) : List Byte := ((leBytes l.toNat 128).drop off).take n

/-- `n` bytes from a virtual address up; the fuel counts lines. -/
def State.readSpan (s : State) (die : Nat) (asid : BitVec 16) : Nat → Nat → Nat → Except Hold (List Byte) × State
  | 0, _, _ => (.ok [], s)
  | f + 1, a, n =>
    if n = 0 then (.ok [], s)
    else
      let k := min n (128 - a % 128)
      match s.readGlobal die asid a k with
      | (.error h, s) => (.error h, s)
      | (.ok l, s) =>
        match s.readSpan die asid f (a + k) (n - k) with
        | (.error h, s) => (.error h, s)
        | (.ok t, s) => (.ok (lineList l (a % 128) k ++ t), s)

/-- `n` bytes from a virtual address up. -/
def State.readBytes (s : State) (die : Nat) (asid : BitVec 16) (a n : Nat) : Except Hold (List Byte) × State :=
  s.readSpan die asid (n / 128 + 2) a n

end Sys2Proof.Machine
end

