-- ==== Sys2Proof/Machine/CellEvents.lean ====
section
/-! DEFINITION. What happens inside a cell without an instruction of its own: landings of the operand log, the ends of
freezes, instruction-cache fills, corrected write-backs, arrivals of signal-stores and the copy engine (R44, R111 to
R117, R198 to R201, R273, R300, R306, R307, R328, R329). -/

namespace Sys2Proof.Machine

/-! ### The sequencer's results and freezes -/

/-- R273: the end of an issue cycle lands what is due in the operand log. -/
def execOperandLogLanding (c : Nat) (s : State) : Out :=
  .next (if (s.cell c).issued then s.modCell c fun x => { x.tickLog with issued := false } else s)

/-- A frozen sequencer takes its instruction up again. -/
def State.retry (s : State) (c : Nat) (p : Freeze → Bool) : State :=
  if p (s.cell c).freeze then s.push [.issue c] else s

/-- R111: a sequencer frozen on a bank asks again, and with the bank granted its access goes on. -/
def execSequencerBankGrant (c : Nat) (s : State) : Out := .next (s.retry c fun f => f == .bank)

/-- Whether the request that a sequencer is frozen on has been answered. -/
def State.answered (s : State) (c : Nat) : Bool :=
  match (s.cell c).freeze with
  | .mem id => match s.req id with
    | some r => r.stage != .walk && r.stage != .slice
    | none => true
  | _ => false

/-- R300: data or an acceptance has reached the sequencer, and the freeze ends. -/
def execMemoryResponse (c : Nat) (s : State) : Out := .next (if s.answered c then s.push [.issue c] else s)

/-- R45: a frozen wait instruction looks at its condition again, and completes when it holds. -/
def execWaitWake (c : Nat) (s : State) : Out := .next (s.retry c fun f => f == .wait)

/-! ### Instruction fetch (R43, R44, R117) -/

/-- R117: the cached line of a word address. -/
def CellSt.ifind (x : CellSt) (tag : Nat) : Option ILine :=
  x.icache.find? fun l => l.tag = tag ∧ l.asid = x.seq.id.asid

/-- R117: a line whose parity fails is invalidated and counted. -/
def CellSt.icheck (x : CellSt) (tag : Nat) : CellSt :=
  match x.ifind tag with
  | some l => if l.parityBad then
      { x with icache := x.icache.filter (· ≠ l), ec := { x.ec with icp := satInc x.ec.icp } } else x
  | none => x

/-- R117: a line enters its set of four, in place of one the spec leaves open. -/
def CellSt.ifill (x : CellSt) (c cycle tag : Nat) (v : Line) : CellSt :=
  if (x.ifind tag).isSome then x
  else
    let set := x.icache.filter (·.tag % 64 = tag % 64)
    let out := if 4 ≤ set.length then set[(Config.icacheVictim cycle (c * 64 + tag % 64)).val]? else none
    let rest := match out with | some l => x.icache.filter (· ≠ l) | none => x.icache
    { x with icache := rest ++ [{ tag := tag, asid := x.seq.id.asid, data := v }] }

/-- R44: cells of one die whose kernels run the same code image in the same address space. -/
def sameCode (s : State) (c d : Nat) : Bool :=
  let a := (s.cell c).seq.id
  let b := (s.cell d).seq.id
  c / 1600 = d / 1600 && (s.cell d).bound.isSome && a.codebase = b.codebase && a.codelen = b.codelen && a.asid = b.asid

/-- A fetch of a cell for a line, whether answered or not. -/
def State.fetchOf (s : State) (c tag : Nat) : Option (Nat × Req) :=
  s.mem.reqs.find? fun (_, r) => r.cell = c && r.kind == .fetch && r.line = tag

/-- R44: the line of a fetch reaches every cell that runs the same code image; those that did not ask count it. -/
def State.multicast (s : State) (c tag : Nat) (v : Line) : State :=
  s.cells.foldl (fun s (d, _) =>
    if sameCode s c d then
      let s := if d = c ∨ (s.fetchOf d tag).isSome ∨ ((s.cell d).ifind tag).isSome then s else s.ev d 0x24
      s.modCell d fun x => x.ifill d s.sys.cycle tag v
    else s) s

/-- R43, R44, R117: an answered fetch of a cell: the line is delivered, or its failure is precise at the word that the
sequencer waits to issue. -/
def execIcacheFill (c : Nat) (s : State) : Out :=
  match s.mem.reqs.find? fun (_, r) => r.cell = c && r.kind == .fetch && (r.stage != .walk && r.stage != .slice) with
  | none => .next s
  | some (id, r) =>
    let s := s.dropReq id
    let x := s.cell c
    match r.stage with
    | .failed f =>
      if x.freeze = .ifetch ∧ x.seq.id.asid = r.asid ∧ vline (x.seq.pc.setWidth 64) = r.line then
        .next (s.seqFault c f x.seq.pc 0 (x.seq.pc.setWidth 64) none)
      else .next s
    | _ => .next (if x.seq.id.asid = r.asid then s.multicast c r.line r.data else s)

/-- R258, R260 to R264: a word with a reserved major or an unassigned function code. -/
def execUnassignedOpcode (w : BitVec 32) (s : State) : Out :=
  let c := s.sched.cur
  .next (s.seqFault c cIllOp (s.cell c).seq.pc (w.setWidth 64) 0 none)

/-! ### Corrected words (R113) -/

/-- R113: the oldest corrected word is written back when its bank is free, one a cycle (log 117). -/
def execSecdedWriteback (c : Nat) (s : State) : Out :=
  let x := s.cell c
  .next <| match x.scrub.reverse with
    | [] => s
    | w :: _ =>
      if x.bankFree 5 (bankOf (8 * w)) then
        let y := x.useBanks 5 [bankOf (8 * w)]
        s.setCell c { y with scrub := y.scrub.filter (· ≠ w),
                             ecc := if tfind y.ecc w = some false then terase y.ecc w else y.ecc }
      else s

/-! ### Signal-stores (R112, R156, R306, R307) -/

/-- R156: the oldest signal-store on its way from one cell to another. -/
def State.headSignal (s : State) (src dst : Nat) : Option Signal :=
  s.mem.signals.find? fun g => g.src = src ∧ g.dst = dst

/-- R112: an earlier arrival at the target, a signal-store or a link delivery, has words left to write. -/
def State.arrivalBusy (s : State) (g : Signal) : Bool :=
  s.mem.signals.any (fun h => h.dst = g.dst && h.started && h != g) || (!g.started && (s.cell g.dst).puts.any (·.cls = 3))

/-- The oldest signal-store of a pair becomes what is left of it, or is gone. -/
def replaceSignal (g : Signal) (h : Option Signal) : List Signal → List Signal
  | [] => []
  | k :: t => if k = g then h.toList ++ t else k :: replaceSignal g h t

/-- R112: an arrival's words in order, each in its bank cycle, as far as the banks allow; the words left. -/
def CellSt.arrive (x : CellSt) (off : Nat) : List Word → CellSt × Nat × List Word
  | [] => (x, off, [])
  | w :: t =>
    match x.askBanks 3 [bankOf off] with
    | (true, y) => (y.spWrite off 8 w.toNat).arrive (off + 8) t
    | (false, y) => (y, off, w :: t)

/-- R306: an STR at its target: data words, then the signal word. -/
def execSignalStoreArrival (src dst : Nat) (s : State) : Out :=
  match s.headSignal src dst with
  | none => .next s
  | some g =>
    if g.sig || s.arrivalBusy g then .next s
    else
      let (x, off, rest) := (s.cell dst).arrive g.addr g.words
      let done := rest.isEmpty
      let h := if done then none else some { g with addr := off, words := rest, started := true }
      let s := s.setCell dst (if done then x.ev 0x33 none 1 else x)
      .next { s with mem := { s.mem with signals := replaceSignal g h s.mem.signals } }

/-- R307: a SIG at its target adds to its word in one bank cycle. -/
def execSigArrival (src dst : Nat) (s : State) : Out :=
  match s.headSignal src dst with
  | none => .next s
  | some g =>
    if !g.sig || s.arrivalBusy g then .next s
    else
      match (s.cell dst).askBanks 3 [bankOf g.addr] with
      | (false, x) =>
        let s := s.setCell dst x
        .next { s with mem := { s.mem with signals := replaceSignal g (some { g with started := true }) s.mem.signals } }
      | (true, x) =>
        let x := x.spNote g.addr
        let x := if x.spBad g.addr then x
          else x.spWrite g.addr 8 (x.spWord g.addr + (g.words.headD 0)).toNat
        let s := s.setCell dst (x.ev 0x33 none 1)
        .next { s with mem := { s.mem with signals := replaceSignal g none s.mem.signals } }

/-! ### The copy engine (R198 to R201, R328, R329) -/

/-- R200: payload bytes of a command. -/
def CopyCmd.total (k : CopyCmd) : Nat := k.run * k.nrun

/-- R200: the global or remote address of a payload byte, as a signed number. -/
def CopyCmd.gpos (k : CopyCmd) (pos : Nat) : Int := k.gaddr.toNat + (pos / k.run : Nat) * k.gstride.toInt + (pos % k.run : Nat)

/-- R200: the scratchpad offset of a payload byte. -/
def CopyCmd.spos (k : CopyCmd) (pos : Nat) : Int := k.soff + (pos / k.run : Nat) * k.sstride.toInt + (pos % k.run : Nat)

/-- The virtual address of a payload byte. -/
def CopyCmd.va (k : CopyCmd) (pos : Nat) : Nat := wrapN 48 (k.gpos pos)

/-- R201: the offset in the target's scratchpad. -/
def CopyCmd.rpos (k : CopyCmd) (pos : Nat) : Int := k.gpos pos - (k.gaddr.toNat - offOf k.gaddr : Nat)

/-- R200: a chunk in pieces of one run and one line: where each starts and its bytes. The fuel counts pieces. -/
def CopyCmd.pieces (k : CopyCmd) (stop : Nat) : Nat → Nat → List (Nat × Nat)
  | 0, _ => []
  | f + 1, pos =>
    if stop ≤ pos then []
    else
      let n := min (min (k.run - pos % k.run) (stop - pos)) (128 - k.va pos % 128)
      (pos, n) :: k.pieces stop f (pos + n)

/-- R200: a range lies in the scratchpad. -/
def inSpad (a : Int) (n : Nat) : Bool := decide (0 ≤ a) && decide (a + n ≤ 0x80000)

/-- R200: whether the scratchpad sides of a chunk's pieces lie in the scratchpad. -/
def CopyCmd.spadOk (k : CopyCmd) (ps : List (Nat × Nat)) : Bool :=
  ps.all fun (pos, n) =>
    ((k.op.val == 4 && k.dir) || inSpad (k.spos pos) n) && (k.op.val != 3 || inSpad (k.rpos pos) n)

/-- R328: the payload comes from the cell's own scratchpad. -/
def CopyCmd.fromSpad (k : CopyCmd) : Bool := k.op.val == 2 || k.op.val == 3

/-- R328: the payload goes to global memory. -/
def CopyCmd.toGlobal (k : CopyCmd) : Bool := k.op.val == 2 || (k.op.val == 4 && k.dir)

/-- R328: the cell whose scratchpad takes the payload, and the offset of a payload byte there. -/
def CopyCmd.dest (k : CopyCmd) (c : Nat) : Nat := if k.op.val = 3 then cellOf k.gaddr else c
def CopyCmd.dpos (k : CopyCmd) (pos : Nat) : Int := if k.op.val = 3 then k.rpos pos else k.spos pos

/-- R200: the chunk that the command has reached, in pieces. -/
def CopyCmd.chunk (k : CopyCmd) : List (Nat × Nat) := k.pieces (min k.total (k.progress + 4096)) 1024 k.progress

/-- R329: a number of the gather descriptor. -/
def CopyCmd.gnum (k : CopyCmd) (off n : Nat) : Nat := leNat ((k.gath.drop off).take n)

/-- R329: bytes of an element. -/
def CopyCmd.esz (k : CopyCmd) : Nat := 2 ^ k.gnum 0x20 1

/-- R329: the reserved fields and the ESZ of a gather descriptor. -/
def CopyCmd.gathOk (k : CopyCmd) : Bool :=
  k.gnum 0x20 1 < 4 && k.gnum 0x21 3 == 0 && k.gnum 0x28 24 == 0

/-- An engine's read of a number of `n` bytes. -/
def State.readNum (s : State) (die : Nat) (asid : BitVec 16) (a n : Nat) : Except Hold Nat × State :=
  match s.readBytes die asid (a % 2 ^ 48) n with
  | (.ok bs, s) => (.ok (leNat bs), s)
  | (.error h, s) => (.error h, s)

/-- R329: the elements from index `j` up of one row of the matrix, placed in the row of the tile; `n` are left. -/
def State.gathElems (s : State) (die : Nat) (asid : BitVec 16) (k : CopyCmd) : Nat → Nat → List Byte →
    Except Hold (List Byte) × State
  | 0, _, row => (.ok row, s)
  | n + 1, j, row =>
    match s.readNum die asid (k.gnum 8 8 + 4 * j) 4 with
    | (.error h, s) => (.error h, s)
    | (.ok col, s) =>
      let col0 := k.gnum 0x1c 4
      if k.gnum 0x24 4 ≤ col then (.error (.fail cCpFault 0), s)
      else if col0 ≤ col ∧ col < col0 + k.run / k.esz then
        match s.readBytes die asid ((k.gnum 0x10 8 + k.esz * j) % 2 ^ 48) k.esz with
        | (.error h, s) => (.error h, s)
        | (.ok v, s) =>
          let o := (col - col0) * k.esz
          s.gathElems die asid k n (j + 1) (row.take o ++ v ++ row.drop (o + k.esz))
      else s.gathElems die asid k n (j + 1) row

/-- R329: one row of the tile. -/
def State.gathRow (s : State) (die : Nat) (asid : BitVec 16) (k : CopyCmd) (r : Nat) : Except Hold (List Byte) × State :=
  let p := k.gnum 0 8 + 4 * (k.gnum 0x18 4 + r)
  match s.readNum die asid p 4 with
  | (.error h, s) => (.error h, s)
  | (.ok a, s) =>
    match s.readNum die asid (p + 4) 4 with
    | (.error h, s) => (.error h, s)
    | (.ok b, s) =>
      if b < a then (.error (.fail cCpFault 0), s)
      else s.gathElems die asid k (b - a) a (List.replicate k.run 0)

/-- R328: the bytes of one piece of a chunk from its source; those of the scratchpad have been read. -/
def State.pieceBytes (s : State) (c : Nat) (k : CopyCmd) (pos n : Nat) : Except Hold (List Byte) × State :=
  let asid := (s.cell c).seq.id.asid
  match k.op.val with
  | 1 => s.readBytes (c / 1600) asid (k.va pos) n
  | 4 => (.ok ((List.replicate (n / 8) (leBytes k.pattern.toNat 8)).flatten), s)
  | 5 =>
    match s.gathRow (c / 1600) asid k (pos / k.run) with
    | (.ok row, s) => (.ok ((row.drop (pos % k.run)).take n), s)
    | (.error h, s) => (.error h, s)
  | _ => (match gotBytes k.got (k.spos pos).toNat n with
    | some bs => .ok bs
    | none => .error (.fail cMcSpadEcc 0), s)

/-- R200: the bytes of every piece of a chunk are read. -/
def State.readPieces (s : State) (c : Nat) (k : CopyCmd) : List (Nat × Nat) →
    Except Hold (List (Nat × List Byte)) × State
  | [] => (.ok [], s)
  | (pos, n) :: t =>
    match s.pieceBytes c k pos n with
    | (.error h, s) => (.error h, s)
    | (.ok bs, s) =>
      match s.readPieces c k t with
      | (.error h, s) => (.error h, s)
      | (.ok r, s) => (.ok ((pos, bs) :: r), s)

/-- The words of bytes, eight to a word. -/
def byteWords : Nat → List Byte → List Word
  | 0, _ => []
  | n + 1, bs => BitVec.ofNat 64 (leNat (bs.take 8)) :: byteWords n (bs.drop 8)

/-- R328: one piece is written to global memory. A cached copy of its line in this cell is overtaken. -/
def State.putPiece (s : State) (c : Nat) (k : CopyCmd) (pos : Nat) (bs : List Byte) : Option Hold × State :=
  let id := (s.cell c).seq.id
  let a := k.va pos
  match s.writeGlobal (c / 1600) id.asid a (byteMask (a % 128) bs.length) (placed (leNat bs) (a % 128))
      (some (Fin.ofNat 64 id.vfid.toNat)) with
  | (none, s) => (none, s.modCell c fun x => (x.dpassed (a / 128)).ev 0x30 none (bs.length / 8))
  | (some h, s) => (some h, s)

/-- R200: every piece of a chunk is written to global memory. -/
def State.putPieces (s : State) (c : Nat) (k : CopyCmd) : List (Nat × List Byte) → Option Hold × State
  | [] => (none, s)
  | (pos, bs) :: t =>
    match s.putPiece c k pos bs with
    | (none, s) => s.putPieces c k t
    | (some h, s) => (some h, s)

/-- R329: the gather descriptor is read when the first chunk is reached. -/
def State.withGath (s : State) (c : Nat) (k : CopyCmd) : Except Hold CopyCmd × State :=
  if k.op.val ≠ 5 ∨ k.gath ≠ [] then (.ok k, s)
  else match s.readBytes (c / 1600) (s.cell c).seq.id.asid k.gaddr.toNat 64 with
    | (.error h, s) => (.error h, s)
    | (.ok bs, s) =>
      let k := { k with gath := bs }
      (if k.gathOk then .ok k else .error (.fail cCpFault 0), s)

/-- R200: the command at the head of a cell's copy queue, changed. -/
def State.copyHead (s : State) (c : Nat) (k : CopyCmd) : State := s.modCell c fun x => { x with copyq := k :: x.copyq.tail }

/-- R111, R201: accesses of class 4 of the payload of a cell's command at a cell's scratchpad. -/
def State.copyPuts (s : State) (d : Nat) (ps : List SpReq) : State := s.modCell d fun x => x.addPuts ps

/-- R200, R201: the words of a chunk start on their way to where they go. -/
def State.writeChunk (s : State) (c : Nat) (k : CopyCmd) : Option Hold × State :=
  match s.readPieces c k k.chunk with
  | (.error h, s) => (some h, s)
  | (.ok ps, s) =>
    let s := s.copyHead c { k with stage := .writing, got := [] }
    if k.toGlobal then s.putPieces c k ps
    else
      let who := if k.op.val = 3 then SpWho.xfr c else .copy
      (none, s.copyPuts (k.dest c) (ps.flatMap fun (pos, bs) => writesOf who 4 (k.dpos pos).toNat bs (bs.length / 8 + 1)))

/-- R200: a chunk is reached: it fails, or its scratchpad words are read, or it is written. -/
def State.startChunk (s : State) (c : Nat) (k : CopyCmd) : Option Hold × State :=
  if k.op.val = 3 ∧ !s.sameGang c (cellOf k.gaddr) then (some (.fail cRemoteUnbound 0), s)
  else match s.withGath c k with
    | (.error h, s) => (some h, s)
    | (.ok k, s) =>
      if !k.spadOk k.chunk then (some (.fail cCpFault 0), s)
      else if k.fromSpad then
        (none, (s.copyHead c { k with stage := .reading, got := [] }).copyPuts c
          (k.chunk.flatMap fun (pos, n) => readsOf .copy (k.spos pos).toNat n))
      else s.writeChunk c k

/-- R115, R198: a command's payload is done with, and its completion word is to be written. -/
def State.copyDone (s : State) (c : Nat) (k : CopyCmd) (w : Word) : State :=
  (s.copyHead c { k with stage := .ending, got := [] }).copyPuts c
    [{ who := .copy, cls := 4, off := k.cwoff, size := 8, val := w.toNat }]

/-- R200: what a chunk's step has come to: a step that has to wait for a line has not been made, but for the recalls that it
has asked for. -/
def State.chunkStep (s : State) (c : Nat) (k : CopyCmd) : Option Hold × State → State
  | (some .wait, t) => s.keepWaits t
  | (some (.fail f _), t) => t.copyDone c k (errorWord k.progress f)
  | (none, t) => t

/-- R200, R201: every word of a chunk has been written. -/
def State.chunkDone (s : State) (c : Nat) (k : CopyCmd) : State :=
  if k.op.val = 3 ∧ !s.sameGang c (cellOf k.gaddr) then s.copyDone c k (errorWord k.progress cRemoteUnbound)
  else s.copyHead c { k with stage := .idle, progress := min k.total (k.progress + 4096), got := [] }

/-- R198, R200: the engine goes on with its oldest command, once none of its accesses is pending; with a stop it begins no
chunk. The entry is free when its completion word has been written. -/
def execCopyChunk (c : Nat) (s : State) : Out :=
  .next <| match (s.cell c).copyq with
  | [] => s
  | k :: t =>
    if (s.cell c).pending .copy then s
    else match k.stage with
      | .idle =>
        if k.total ≤ k.progress then s.copyDone c k (doneWord 0 k.cval)
        else if (s.cell c).stop.isSome then s
        else s.chunkStep c k (s.startChunk c k)
      | .reading => s.chunkStep c k (s.writeChunk c k)
      | .writing => if k.op.val = 3 ∧ (s.cell (k.dest c)).pending (.xfr c) then s else s.chunkDone c k
      | .ending => s.modCell c fun x => { x with copyq := t }

/-! ### Bank cycles of classes 3 and 4 (R111, R112, R201) -/

/-- R113, R243: what an access that has been served means to its operation: a payload word that a copy engine has written counts
at the engine's cell, and a result narrower than its word fails its near-bank command where that word cannot be corrected. -/
def State.wordServed (s : State) (c : Nat) (x : CellSt) (p : SpReq) : State :=
  match p.who with
  | .copy =>
    let writing := match x.copyq with | k :: _ => k.stage == .writing | [] => false
    if writing && p.size ≠ 0 then s.ev c 0x30 else s
  | .xfr src => s.ev src 0x30
  | .nb id =>
    if p.size < 8 ∧ x.spBad p.off then
      { s with mem := { s.mem with nb := s.mem.nb.map fun k => if k.id = id then { k with cause := cMcSpadEcc } else k } }
    else s
  | .link | .word => s

/-- R111, R112: the pending accesses of a cell's operations in this cycle, link deliveries before the others and not while a
signal-store is being written; then the link operation goes on. -/
def State.serveBanks (s : State) (c : Nat) : State :=
  let x := s.cell c
  let busy := s.mem.signals.any fun g => g.dst = c && g.started
  let (y, l, _) := if busy then (x, x.puts, []) else x.serveFrom 3 [] [] x.puts
  let (z, l, won) := y.serveFrom 4 [] [] l
  (won.foldl (fun s p => s.wordServed c x p) (s.setCell c { z with puts := l })).linkNext c

end Sys2Proof.Machine
end

