-- ==== Sys2Proof/Machine/FpOps.lean ====
section
/-! DEFINITION. Scalar floating-point instructions of the sequencer (R287 to R290). -/

namespace Sys2Proof.Machine

/-- R287: the format that the selector T names. -/
def fpFmt : FpFmt → Fmt
  | .f32 => fmtF32
  | .bf16 => fmtBf16

/-- R82, R287: the rounding that RMODE asks for, as it stands at issue. -/
def CellSt.rounding (x : CellSt) : Rounding := { mode := x.seq.fp.mode.toNat, ftz := x.seq.fp.ftz }

/-- A result and its flags as a log entry carries them: every bit above the width is 0 (R287). -/
def codeWord (r : Nat × Flags) : Word × Flags := (BitVec.ofNat 64 r.1, r.2)

/-- R287: an operation of latency 4 on the values of a, b and the old d. -/
def fpOp (i : Instr) (x : FpArgs) (useD : Bool) (f : Nat → Fp → Fp → Fp → Fp × Flags) (s : State) : Out :=
  let m := fpFmt x.t
  s.logOp i x.g (if useD then [x.a, x.b, x.d] else [x.a, x.b]) (destG x.d) 4 (·.greg x.a) (·.greg x.b)
    (if useD then (·.greg x.d) else noReg) fun y =>
      let rd (r : Reg) : Fp := m.read y.seq.fp.ftz (y.gval r).toNat
      codeWord (m.finish y.rounding (f y.seq.fp.mode.toNat (rd x.a) (rd x.b) (rd x.d)))

/-- R287: FMIN and FMAX. -/
def fpPick (i : Instr) (x : FpArgs) (big : Bool) (s : State) : Out :=
  s.logOp i x.g [x.a, x.b] (destG x.d) 4 (·.greg x.a) (·.greg x.b) noReg fun y =>
    codeWord ((fpFmt x.t).pick y.seq.fp.ftz big (y.gval x.a).toNat (y.gval x.b).toNat, 0)

/-- R288: the order of the conditions. -/
def fcmpCode : FcmpCond → Nat
  | .eq => 0 | .ne => 1 | .lt => 2 | .le => 3 | .gt => 4 | .ge => 5 | .un => 6

/-- R289: the format of a floating type. -/
def scalarFmt : ScalarType → Option Fmt
  | .bf16 => some fmtBf16 | .fp16 => some fmtF16 | .e4m3 => some fmtE4M3 | .e5m2 => some fmtE5M2
  | .fp32 => some fmtF32 | _ => none

/-- R289: width and signedness of an integer type. -/
def scalarInt : ScalarType → Nat × Bool
  | .i32 => (32, true) | .i64 => (64, true) | .n32 => (32, false) | _ => (64, false)

/-- R289: an integer in its target, zero-extended but for i32. -/
def scalarExtend (t : ScalarType) (v : Int) : Word :=
  let (w, sg) := scalarInt t
  if sg then sextN w (wrapN w v) else BitVec.ofNat 64 (wrapN w v)

/-- R289: the least and greatest values of an integer type. -/
def scalarLimits (t : ScalarType) : Int × Int :=
  let (w, sg) := scalarInt t
  if sg then (-2 ^ (w - 1), 2 ^ (w - 1) - 1) else (0, 2 ^ w - 1)

/-- R289: the value and flags of a conversion. -/
def fcvtVal (src dst : ScalarType) (ns : Bool) (r : Rounding) (a : Word) : Word × Flags :=
  match scalarFmt src, scalarFmt dst with
  | some f, some g => codeWord (g.convert f r ns a.toNat)
  | some f, none =>
    let (v, fl) := (f.read r.ftz a.toNat).clampInt r (scalarLimits dst).1 (scalarLimits dst).2
    (scalarExtend dst v, fl)
  | none, t =>
    let (w, sg) := scalarInt src
    let v : Int := if sg then sval w a.toNat else (a.toNat % 2 ^ w : Nat)
    match t with
    | some g => codeWord (g.ofInt r ns v)
    | none =>
      let (lo, hi) := scalarLimits dst
      if v < lo then (scalarExtend dst lo, flNV) else if hi < v then (scalarExtend dst hi, flNV) else (scalarExtend dst v, 0)

/-- R287, FADD: a + b. -/
def execFadd (x : FpArgs) (s : State) : Out := fpOp (.fadd x) x false (fun m a b _ => sumFp m [a, b]) s

/-- R287, FSUB: a − b. -/
def execFsub (x : FpArgs) (s : State) : Out := fpOp (.fsub x) x false (fun m a b _ => sumFp m [a, b.negate]) s

/-- R287, FMUL: a × b. -/
def execFmul (x : FpArgs) (s : State) : Out := fpOp (.fmul x) x false (fun _ a b _ => mulFp a b) s

/-- R287, FMA: a × b + d, the product not rounded. -/
def execFma (x : FpArgs) (s : State) : Out := fpOp (.fma x) x true (fun m a b d => fmaFp m a b d) s

/-- R287, FMIN. -/
def execFmin (x : FpArgs) (s : State) : Out := fpPick (.fmin x) x false s

/-- R287, FMAX. -/
def execFmax (x : FpArgs) (s : State) : Out := fpPick (.fmax x) x true s

/-- R288, FCMP: into a predicate, with latency 4 and no flag. -/
def execFcmp (x : FcmpArgs) (s : State) : Out :=
  s.logOp (.fcmp x) x.g [x.a, x.b] (destP x.p) 4 (·.greg x.a) (·.greg x.b) noReg fun y =>
    (if (fpFmt x.t).compare y.seq.fp.ftz (fcmpCode x.cc) (y.gval x.a).toNat (y.gval x.b).toNat then 1 else 0, 0)

/-- R289, FCVT. -/
def execFcvt (x : FcvtArgs) (s : State) : Out :=
  s.logOp (.fcvt x) x.g [x.a] (destG x.d) 4 (·.greg x.a) noReg noReg fun y =>
    fcvtVal x.src x.dst x.ns y.rounding (y.gval x.a)

end Sys2Proof.Machine
end

