-- ==== Sys2Proof/Machine/IntOps.lean ====
section
/-! DEFINITION. Integer, comparison and predicate instructions of the sequencer (R278 to R286). -/

namespace Sys2Proof.Machine

/-! ### Results -/

/-- R280: quotient and remainder of two w-bit sources. -/
def divRem (w : Bool) (signed : Bool) (a b : Word) : Int × Int :=
  let x : Int := if signed then signedOf w a else unsignedOf w a
  let y : Int := if signed then signedOf w b else unsignedOf w b
  if y = 0 then (2 ^ widthOf w - 1, x)
  else if signed && x = -2 ^ (widthOf w - 1) && y = -1 then (x, 0)
  else (x.tdiv y, x - x.tdiv y * y)

/-- R279: a·2^k modulo 2^w. -/
def shlVal (w : Bool) (a : Word) (k : Nat) : Word := resultOf w (unsignedOf w a * 2 ^ k : Nat)
/-- R279: a div 2^k, unsigned. -/
def shrVal (w : Bool) (a : Word) (k : Nat) : Word := resultOf w (unsignedOf w a / 2 ^ k : Nat)
/-- R279: floor of a / 2^k, signed. -/
def sarVal (w : Bool) (a : Word) (k : Nat) : Word := resultOf w (signedOf w a / (2 ^ k : Nat))
/-- R279: a rotated left by k within w bits. -/
def rotVal (w : Bool) (a : Word) (k : Nat) : Word :=
  resultOf w (unsignedOf w a * 2 ^ k % 2 ^ widthOf w + unsignedOf w a / 2 ^ (widthOf w - k) : Nat)
/-- R279: the shift count in a register. -/
def shiftCount (w : Bool) (b : Word) : Nat := b.toNat % widthOf w
/-- R279: the width code of SEXT and ZEXT. -/
def keptWidth (k : Fin 32) : Nat := if k.val = 0 then 8 else if k.val = 1 then 16 else 32

/-- R284: a comparison of two w-bit sources. -/
def cmpHolds (w : Bool) (cc : CmpCond) (a b : Word) : Bool :=
  let x := unsignedOf w a
  let y := unsignedOf w b
  let i := signedOf w a
  let j := signedOf w b
  match cc with
  | .eq => x = y | .ne => x ≠ y
  | .lt => i < j | .ge => j ≤ i | .le => i ≤ j | .gt => j < i
  | .ltn => x < y | .gen => y ≤ x | .len => x ≤ y | .gtn => y < x

/-- R285: the conditions of CMPI0. -/
def cmpi0Cond (k : Fin 4) : CmpCond := match k.val with | 0 => .eq | 1 => .ne | 2 => .lt | _ => .ge
/-- R285: the conditions of CMPI1. -/
def cmpi1Cond (k : Fin 4) : CmpCond := match k.val with | 0 => .ltn | 1 => .gen | 2 => .le | _ => .gt

/-! ### Shared forms -/

/-- R279: an operation of latency 1 on two general registers. -/
def intOp (i : Instr) (x : IntArgs) (cls : Nat) (f : Bool → Word → Word → Word) (s : State) : Out :=
  s.writeOp i x.g [x.a, x.b] x.d (some cls) fun y => f x.w (y.gval x.a) (y.gval x.b)

/-- R279: an operation on two general registers without a `.W` form. -/
def regOp (i : Instr) (x : RegArgs) (f : Word → Word → Word) (s : State) : Out :=
  s.writeOp i x.g [x.a, x.b] x.d (some 5) fun y => f (y.gval x.a) (y.gval x.b)

/-- R279: a multiply or divide, recorded in the operand log. -/
def longOp (i : Instr) (x : IntArgs) (lat : Nat) (f : Bool → Word → Word → Word) (s : State) : Out :=
  s.logOp i x.g [x.a, x.b] (destG x.d) lat (·.greg x.a) (·.greg x.b) noReg fun y =>
    (f x.w (y.gval x.a) (y.gval x.b), 0)

/-- R279: an operation of latency 1 on one general register, computed within w bits. -/
def unaryOp (i : Instr) (x : UnaryArgs) (cls : Option Nat) (f : Nat → Nat → Nat) (s : State) : Out :=
  s.writeOp i x.g [x.a] x.d cls fun y => resultOf x.w (f (widthOf x.w) (unsignedOf x.w (y.gval x.a)) : Nat)

/-- R281: an operation on a register and a sign-extended immediate. -/
def immOp (i : Instr) (x : ImmArgs) (cls : Nat) (f : Word → Word → Word) (s : State) : Out :=
  s.writeOp i x.g [x.a] x.d (some cls) fun y => f (y.gval x.a) (imm12 x.imm)

/-- R282: a shift by an immediate count. -/
def shiOp (i : Instr) (x : ShiArgs) (f : Bool → Word → Nat → Word) (s : State) : Out :=
  s.writeOp i x.g [x.a] x.d (some 6) fun y => f x.w (y.gval x.a) x.count.val

/-- R286: an operation on two predicates. -/
def predBinOp (i : Instr) (x : PredArgs) (f : Bool → Bool → Bool) (s : State) : Out :=
  s.predOp i x.g [] x.d fun y => f (y.pval x.a) (y.pval x.b)

/-! ### Meanings -/

/-- R279, ADD: a + b modulo 2^w. -/
def execAdd (x : IntArgs) (s : State) : Out :=
  intOp (.add x) x 0 (fun w a b => resultOf w (unsignedOf w a + unsignedOf w b : Nat)) s

/-- R279, SUB: a − b modulo 2^w. -/
def execSub (x : IntArgs) (s : State) : Out :=
  intOp (.sub x) x 1 (fun w a b => resultOf w ((unsignedOf w a : Int) - unsignedOf w b)) s

/-- R279, MUL: the low w bits of the product. -/
def execMul (x : IntArgs) (s : State) : Out :=
  longOp (.mul x) x 3 (fun w a b => resultOf w (unsignedOf w a * unsignedOf w b : Nat)) s

/-- R279, MULH: the high w bits of the signed product. -/
def execMulh (x : IntArgs) (s : State) : Out :=
  longOp (.mulh x) x 3 (fun w a b => resultOf w (signedOf w a * signedOf w b / (2 ^ widthOf w : Nat))) s

/-- R279, MULHN: the high w bits of the unsigned product. -/
def execMulhn (x : IntArgs) (s : State) : Out :=
  longOp (.mulhn x) x 3 (fun w a b => resultOf w (unsignedOf w a * unsignedOf w b / 2 ^ widthOf w : Nat)) s

/-- R280, DIV: the signed quotient. -/
def execDiv (x : IntArgs) (s : State) : Out :=
  longOp (.div x) x 24 (fun w a b => resultOf w (divRem w true a b).1) s

/-- R280, DIVN: the unsigned quotient. -/
def execDivn (x : IntArgs) (s : State) : Out :=
  longOp (.divn x) x 24 (fun w a b => resultOf w (divRem w false a b).1) s

/-- R280, REM: the signed remainder. -/
def execRem (x : IntArgs) (s : State) : Out :=
  longOp (.rem x) x 24 (fun w a b => resultOf w (divRem w true a b).2) s

/-- R280, REMN: the unsigned remainder. -/
def execRemn (x : IntArgs) (s : State) : Out :=
  longOp (.remn x) x 24 (fun w a b => resultOf w (divRem w false a b).2) s

/-- R279, MIN: the smaller, signed. -/
def execMin (x : IntArgs) (s : State) : Out :=
  intOp (.min x) x 7 (fun w a b => resultOf w (min (signedOf w a) (signedOf w b))) s

/-- R279, MAX: the larger, signed. -/
def execMax (x : IntArgs) (s : State) : Out :=
  intOp (.max x) x 7 (fun w a b => resultOf w (max (signedOf w a) (signedOf w b))) s

/-- R279, MINN: the smaller, unsigned. -/
def execMinn (x : IntArgs) (s : State) : Out :=
  intOp (.minn x) x 7 (fun w a b => resultOf w (min (unsignedOf w a) (unsignedOf w b) : Nat)) s

/-- R279, MAXN: the larger, unsigned. -/
def execMaxn (x : IntArgs) (s : State) : Out :=
  intOp (.maxn x) x 7 (fun w a b => resultOf w (max (unsignedOf w a) (unsignedOf w b) : Nat)) s

/-- R279, AND. -/
def execAnd (x : RegArgs) (s : State) : Out :=
  regOp (.and x) x (fun a b => a &&& b) s

/-- R279, OR. -/
def execOr (x : RegArgs) (s : State) : Out :=
  regOp (.or x) x (fun a b => a ||| b) s

/-- R279, XOR. -/
def execXor (x : RegArgs) (s : State) : Out :=
  regOp (.xor x) x (fun a b => a ^^^ b) s

/-- R279, ANDN. -/
def execAndn (x : RegArgs) (s : State) : Out :=
  regOp (.andn x) x (fun a b => a &&& ~~~b) s

/-- R279, SHL: by the count in b. -/
def execShl (x : IntArgs) (s : State) : Out :=
  intOp (.shl x) x 6 (fun w a b => shlVal w a (shiftCount w b)) s

/-- R279, SHR: by the count in b. -/
def execShr (x : IntArgs) (s : State) : Out :=
  intOp (.shr x) x 6 (fun w a b => shrVal w a (shiftCount w b)) s

/-- R279, SAR: by the count in b. -/
def execSar (x : IntArgs) (s : State) : Out :=
  intOp (.sar x) x 6 (fun w a b => sarVal w a (shiftCount w b)) s

/-- R279, ROT: by the count in b. -/
def execRot (x : IntArgs) (s : State) : Out :=
  intOp (.rot x) x 6 (fun w a b => rotVal w a (shiftCount w b)) s

/-- R279, CLZ: the number of leading zero bits of a. -/
def execClz (x : UnaryArgs) (s : State) : Out :=
  unaryOp (.clz x) x none clzN s

/-- R279, CTZ: the number of trailing zero bits of a. -/
def execCtz (x : UnaryArgs) (s : State) : Out :=
  unaryOp (.ctz x) x none ctzN s

/-- R279, POPC: the number of one bits of a. -/
def execPopc (x : UnaryArgs) (s : State) : Out :=
  unaryOp (.popc x) x none popN s

/-- R279, BSWAP: the bytes of a in reverse order. -/
def execBswap (x : UnaryArgs) (s : State) : Out :=
  unaryOp (.bswap x) x (some 8) (fun w v => bswapN (w / 8) v) s

/-- R279, SEXT: the low n bits, sign-extended. -/
def execSext (x : ExtArgs) (s : State) : Out :=
  s.writeOp (.sext x) x.g [x.a] x.d (some 9) fun y => sextN (keptWidth x.width) (y.gval x.a).toNat

/-- R279, ZEXT: the low n bits. -/
def execZext (x : ExtArgs) (s : State) : Out :=
  s.writeOp (.zext x) x.g [x.a] x.d (some 9) fun y => BitVec.ofNat 64 ((y.gval x.a).toNat % 2 ^ keptWidth x.width)

/-- R279, SEL: a if the predicate is 1, else b. -/
def execSel (x : SelArgs) (s : State) : Out :=
  s.writeOp (.sel x) x.g [x.a, x.b] x.d (some 7) fun y => if y.pval x.k then y.gval x.a else y.gval x.b

/-- R284, CMP. -/
def execCmp (x : CmpArgs) (s : State) : Out :=
  s.predOp (.cmp x) x.g [x.a, x.b] x.p fun y => cmpHolds x.w x.cc (y.gval x.a) (y.gval x.b)

/-- R286, PAND. -/
def execPand (x : PredArgs) (s : State) : Out :=
  predBinOp (.pand x) x (fun a b => a && b) s

/-- R286, POR. -/
def execPor (x : PredArgs) (s : State) : Out :=
  predBinOp (.por x) x (fun a b => a || b) s

/-- R286, PXOR. -/
def execPxor (x : PredArgs) (s : State) : Out :=
  predBinOp (.pxor x) x (fun a b => a != b) s

/-- R286, PNOT. -/
def execPnot (x : PnotArgs) (s : State) : Out :=
  s.predOp (.pnot x) x.g [] x.d fun y => !y.pval x.a

/-- R281, ADDI. -/
def execAddi (x : ImmArgs) (s : State) : Out :=
  immOp (.addi x) x 0 (fun a b => a + b) s

/-- R281, ANDI. -/
def execAndi (x : ImmArgs) (s : State) : Out :=
  immOp (.andi x) x 5 (fun a b => a &&& b) s

/-- R281, ORI. -/
def execOri (x : ImmArgs) (s : State) : Out :=
  immOp (.ori x) x 5 (fun a b => a ||| b) s

/-- R281, XORI. -/
def execXori (x : ImmArgs) (s : State) : Out :=
  immOp (.xori x) x 5 (fun a b => a ^^^ b) s

/-- R282, SHLI. -/
def execShli (x : ShiArgs) (s : State) : Out :=
  shiOp (.shli x) x shlVal s

/-- R282, SHRI. -/
def execShri (x : ShiArgs) (s : State) : Out :=
  shiOp (.shri x) x shrVal s

/-- R282, SARI. -/
def execSari (x : ShiArgs) (s : State) : Out :=
  shiOp (.sari x) x sarVal s

/-- R285, CMPI of major CMPI0. -/
def execCmpi0 (x : CmpiArgs) (s : State) : Out :=
  s.predOp (.cmpi0 x) x.g [x.a] x.p fun y => cmpHolds false (cmpi0Cond x.cc) (y.gval x.a) (imm12 x.imm)

/-- R285, CMPI of major CMPI1. -/
def execCmpi1 (x : CmpiArgs) (s : State) : Out :=
  s.predOp (.cmpi1 x) x.g [x.a] x.p fun y => cmpHolds false (cmpi1Cond x.cc) (y.gval x.a) (imm12 x.imm)

/-- R283, LIMM: the sign-extended 17-bit immediate. -/
def execLimm (x : LongArgs) (s : State) : Out :=
  s.writeOp (.limm x) x.g [] x.d none fun _ => x.imm.signExtend 64

/-- R283, LHI: X(d) shifted left by 16 plus the immediate. Its class is Shift, as R283 has it, not R69's Constant (log 13). -/
def execLhi (x : LongArgs) (s : State) : Out :=
  s.writeOp (.lhi x) x.g [x.d] x.d (some 6) fun y => (y.gval x.d <<< 16) + x.imm.setWidth 64

/-- R42: the instructions of latency 1 whose results belong to a class that an injection takes (R85). -/
def reissueShort (i : Instr) (s : State) : Option Out :=
  match i with
  | .add x => some (execAdd x s) | .sub x => some (execSub x s) | .min x => some (execMin x s) | .max x => some (execMax x s)
  | .minn x => some (execMinn x s) | .maxn x => some (execMaxn x s) | .and x => some (execAnd x s) | .or x => some (execOr x s)
  | .xor x => some (execXor x s) | .andn x => some (execAndn x s) | .shl x => some (execShl x s) | .shr x => some (execShr x s)
  | .sar x => some (execSar x s) | .rot x => some (execRot x s) | .bswap x => some (execBswap x s)
  | .sext x => some (execSext x s) | .zext x => some (execZext x s) | .sel x => some (execSel x s)
  | .addi x => some (execAddi x s) | .andi x => some (execAndi x s) | .ori x => some (execOri x s) | .xori x => some (execXori x s)
  | .shli x => some (execShli x s) | .shri x => some (execShri x s) | .sari x => some (execSari x s) | .lhi x => some (execLhi x s)
  | _ => none

end Sys2Proof.Machine
end

