-- ==== Sys2Proof/Machine/Fabric.lean ====
section
/-! DEFINITION. Region control: context images and CFG, LAUNCH, LWAIT, LSTOP, ACSET, CSET, VGET, VSET
(R19 to R22, R98, R99, R105, R106, R271, R319 to R326, R363). -/

namespace Sys2Proof.Machine

/-! ### Context images (R320) -/

/-- A field of a byte image: `n` bytes at an offset. -/
def numAt (v off n : Nat) : Nat := v / 256 ^ off % 256 ^ n

/-- R19: the PE sets of a region. -/
def peSetOk (b : BitVec 4) : Bool := [1, 2, 4, 8, 3, 12, 5, 10, 15].contains b.toNat

/-- R99: an address counter of 16 bytes, unless a reserved bit is set. -/
def acOf (v : Nat) : Option AddrCtr :=
  if bitsOf v 31 19 ≠ 0 ∨ bitsOf v 63 48 ≠ 0 ∨ bitsOf v 95 84 ≠ 0 ∨ bitsOf v 127 116 ≠ 0 then none
  else some { s1 := BitVec.ofNat 20 (bitsOf v 115 96), s0 := BitVec.ofNat 20 (bitsOf v 83 64),
              n0 := BitVec.ofNat 16 (bitsOf v 47 32), base := BitVec.ofNat 19 v }

/-- The members of a PE set, ascending. -/
def peList (b : BitVec 4) : List (Fin 4) := (List.finRange 4).filter fun p => b.getLsbD p.val

/-- R320: whether PEOFF of a PE of the set names a section. -/
def peOffOk (off : Nat) : Bool := off % 64 = 0 && 0x440 ≤ off && off ≤ 0xffc0

/-- R320: the length of a section, when it lies in the image. -/
def sectionLen (off nrows : Nat) : Option Nat :=
  if nrows ≤ 32 ∧ off + 0x150 + 8 * nrows ≤ 0x10000 then some (0x150 + 8 * nrows) else none

/-- R321, step 4: one section; none is one that is not laid out by R320. -/
def State.readSection (s : State) (die : Nat) (asid : BitVec 16) (va off : Nat) : Except Hold (Option Nat) × State :=
  if !peOffOk off then (.ok none, s)
  else match s.readBytes die asid (va + off) 2 with
    | (.error h, s) => (.error h, s)
    | (.ok n, s) =>
      match sectionLen off (leNat n) with
      | none => (.ok none, s)
      | some len =>
        match s.readBytes die asid (va + off) len with
        | (.error h, s) => (.error h, s)
        | (.ok b, s) => (.ok (some (leNat b)), s)

/-- R321, step 4: the sections of the PEs of the set. -/
def State.readSections (s : State) (die : Nat) (asid : BitVec 16) (va head : Nat) :
    List (Fin 4) → Except Hold (List (Fin 4 × Option Nat)) × State
  | [] => (.ok [], s)
  | p :: t =>
    match s.readSection die asid va (numAt head (0x10 + 4 * p.val) 4) with
    | (.error h, s) => (.error h, s)
    | (.ok n, s) =>
      match s.readSections die asid va head t with
      | (.error h, s) => (.error h, s)
      | (.ok r, s) => (.ok ((p, n) :: r), s)

/-- R321, step 4: the header with its constants, and the sections. -/
def State.readImage (s : State) (die : Nat) (asid : BitVec 16) (va : Nat) (b : BitVec 4) :
    Except Hold (Nat × List (Fin 4 × Option Nat)) × State :=
  match s.readBytes die asid va 0x440 with
  | (.error h, s) => (.error h, s)
  | (.ok hd, s) =>
    match s.readSections die asid va (leNat hd) (peList b) with
    | (.error h, s) => (.error h, s)
    | (.ok r, s) => (.ok (leNat hd, r), s)

/-- R363: an input selector of LUT j. -/
def lutSelOk (j sel : Nat) : Bool :=
  sel < 0x80 || (0x80 ≤ sel && sel < 0x80 + j && sel < 0x90) || (0x90 ≤ sel && sel ≤ 0xa3)

/-- R363: LUT j of a section. -/
def lutOf (sec j : Nat) : Lut :=
  { tt := BitVec.ofNat 64 (numAt sec (0x50 + 16 * j) 8),
    sel := (List.range 6).map fun i => BitVec.ofNat 8 (numAt sec (0x58 + 16 * j + i) 1) }

/-- R363: the limits of LUT j. -/
def lutOk (sec j : Nat) : Bool :=
  numAt sec (0x5e + 16 * j) 2 = 0 && (lutOf sec j).sel.all fun v => lutSelOk j v.toNat

/-- R267: the source codes that a row reads or names; FCVT's SRCB is a literal. -/
def rowSrcs (code : Nat) (r : Row) : List Nat :=
  if code = 0x29 then [r.srcA.toNat] else [r.srcA.toNat, r.srcB.toNat, r.srcC.toNat]

/-- R22, R26: a source of a row within its region: its bus, and counters with n0 of at least 1. -/
def srcInRegion (b : BitVec 4) (ac : Nat → AddrCtr) (v : Nat) : Bool :=
  if 0x40 ≤ v ∧ v ≤ 0x43 then b.getLsbD (v - 0x40)
  else if 0x44 ≤ v ∧ v ≤ 0x47 then (ac (v - 0x44)).n0 != 0
  else if v = 0x49 ∨ v = 0x4a then (ac 0).n0 != 0
  else true

/-- R22, R271: one row of an image. -/
def rowOk (ii : Nat) (b : BitVec 4) (ac : Nat → AddrCtr) (w : BitVec 64) : Bool :=
  match decodeRow w with
  | none => false
  | some i => match i.rowParts with
    | none => false
    | some (code, r) => r.slot.toNat < ii && (rowSrcs code r).all (srcInRegion b ac)

/-- R265: the slot, stage and opcode of a row's word. -/
def wordSlot (w : BitVec 64) : Nat := bitsOf w.toNat 56 52
def wordStage (w : BitVec 64) : Nat := bitsOf w.toNat 63 57
def wordCode (w : BitVec 64) : Nat := bitsOf w.toNat 51 44

/-- No number twice. -/
def noRepeat : List Nat → Bool
  | [] => true
  | a :: t => !t.contains a && noRepeat t

/-- R98: the spacing of a PE's WLD rows. -/
def wldOk (ii : Nat) (rows : List (BitVec 64)) : Bool :=
  let ws := (rows.filter fun w => wordCode w = 0x48).map wordSlot
  ws.isEmpty || (8 ≤ ii && ws.all fun a => ws.all fun b => a = b || (8 ≤ (a + ii - b) % ii && 8 ≤ (b + ii - a) % ii))

/-- R320: what a section gives its PE. -/
structure PeImg where
  ff : BitVec 16
  ac : Vector AddrCtr 4
  luts : List Lut
  rows : List (BitVec 64)
deriving DecidableEq, Repr

/-- R321, step 5: one section against R22, R98, R99, R271 and R363. -/
def peImgOf (ii : Nat) (b : BitVec 4) (sec : Nat) : Option PeImg :=
  let nrows := numAt sec 0 2
  match acOf (numAt sec 0x10 16), acOf (numAt sec 0x20 16), acOf (numAt sec 0x30 16), acOf (numAt sec 0x40 16) with
  | some a0, some a1, some a2, some a3 =>
    let ac : Vector AddrCtr 4 := #v[a0, a1, a2, a3]
    let rows := (List.range nrows).map fun j => BitVec.ofNat 64 (numAt sec (0x150 + 8 * j) 8)
    if nrows ≤ ii && numAt sec 4 12 = 0 && (List.range 16).all (lutOk sec) &&
        rows.all (rowOk ii b fun j => ac[(Fin.ofNat 4 j).val]) && noRepeat (rows.map wordSlot) && wldOk ii rows then
      some { ff := BitVec.ofNat 16 (numAt sec 2 2), ac := ac, luts := (List.range 16).map (lutOf sec), rows := rows }
    else none
  | _, _, _, _ => none

/-- A context image that passes every check. -/
structure RegionImg where
  ii : Nat
  ten : Flags
  ftz : Bool
  s : Nat
  pool : Vector Word 128
  pes : List (Fin 4 × PeImg)
deriving DecidableEq, Repr

/-- R321, step 5: every section passes. -/
def peImgs (ii : Nat) (b : BitVec 4) : List (Fin 4 × Option Nat) → Option (List (Fin 4 × PeImg))
  | [] => some []
  | (p, sec) :: t => do
    let n ← sec
    let i ← peImgOf ii b n
    let r ← peImgs ii b t
    some ((p, i) :: r)

/-- R320: the header's limits. -/
def headOk (b : BitVec 4) (h : Nat) : Bool :=
  numAt h 0 1 = 1 && 1 ≤ numAt h 1 1 && numAt h 1 1 ≤ 32 && numAt h 2 1 = b.toNat && bitsOf (numAt h 3 1) 3 1 = 0 &&
  numAt h 4 12 = 0 && numAt h 0x20 32 = 0 &&
  (List.finRange 4).all fun p => b.getLsbD p.val || numAt h (0x10 + 4 * p.val) 4 = 0

/-- R321, step 5: the image, or none for CTX_BAD. -/
def imageOf (b : BitVec 4) (h : Nat) (secs : List (Fin 4 × Option Nat)) : Option RegionImg :=
  let ii := numAt h 1 1
  if !headOk b h then none
  else (peImgs ii b secs).map fun pes =>
    { ii := ii, ten := BitVec.ofNat 4 (bitsOf (numAt h 3 1) 7 4), ftz := numAt h 3 1 % 2 = 1,
      s := (pes.flatMap fun p => p.2.rows.map wordStage).foldl max 0,
      pool := Vector.ofFn fun k => BitVec.ofNat 64 (numAt h (0x40 + 8 * k.val) 8), pes := pes }

/-! ### CFG (R319 to R321) -/

def CellSt.setRegion (x : CellSt) (k : Fin 4) (r : Region) : CellSt := { x with region := x.region.set k.val r k.isLt }
def CellSt.setPe (x : CellSt) (p : Fin 4) (e : PE) : CellSt := { x with pe := x.pe.set p.val e p.isLt }

/-- R102, R104: a slot that loses its configuration. -/
def Region.emptied (r : Region) : Region := { r with conf := false, state := .empty }

/-- R321: what the PEs of a region take from an image; `init` when CFG loads it, false at a frame's reload. -/
def CellSt.takePes (x : CellSt) (init : Bool) : List (Fin 4 × PeImg) → CellSt
  | [] => x
  | (p, i) :: t =>
    let e := x.pe[p.val]
    let e := { e with rows := i.rows, luts := i.luts }
    let e := if init then { e with ff := i.ff, ac := i.ac } else e
    (x.setPe p e).takePes init t

/-- R102: other configured slots whose PE set overlaps are emptied. -/
def CellSt.dropOverlap (x : CellSt) (k : Fin 4) (b : BitVec 4) : CellSt :=
  { x with region := Vector.ofFn fun j =>
      if j ≠ k ∧ x.region[j].conf ∧ x.region[j].peset &&& b ≠ 0 then (x.region[j]).emptied else x.region[j] }

/-- R321: CFG succeeds. -/
def CellSt.configure (x : CellSt) (k : Fin 4) (b : BitVec 4) (va : VAddr) (i : RegionImg) : CellSt :=
  let r := x.region[k.val]
  ((x.dropOverlap k b).setRegion k
    { r with conf := true, peset := b, s := BitVec.ofNat 7 i.s, ii := BitVec.ofNat 6 i.ii, ten := i.ten, ftz := i.ftz,
             rimg := va, cause := 0, cut := false, state := .ready, pool := i.pool }).takePes true i.pes

/-- R20, R321: slot k or a PE of b belongs to a RUNNING region. -/
def CellSt.cfgBusy (x : CellSt) (k : Fin 4) (b : BitVec 4) : Bool :=
  (List.finRange 4).any fun j => x.region[j].state = .running && (j = k || x.region[j].peset &&& b != 0)

/-- R321: CFG. -/
def execCfg (x : CfgArgs) (s : State) : Out :=
  s.issueAs (.cfg x) x.g [x.a] fun c s =>
    let y := s.cell c
    let a := y.gval x.a
    let lose (s : State) : State := s.modCell c fun z => z.setRegion x.k (z.region[x.k.val]).emptied
    if y.cfgBusy x.k x.peset then s.waitAt c []
    else if !peSetOk x.peset then (lose s).raise c (.cfg x) cRegionShape 0
    else s.addrChecked c (.cfg x) [0] a (alignedTo a 64) <|
      match s.readImage (c / 1600) y.seq.id.asid (wbits a 47 0) x.peset with
      | (.error .wait, s) => s.freezeAt c .accept
      | (.error (.fail f v), s) => s.raise c (.cfg x) f v
      | (.ok (h, secs), s) =>
        match imageOf x.peset h secs with
        | none => (lose s).raise c (.cfg x) cCtxBad 0
        | some i => (s.modCell c fun z => z.configure x.k x.peset (vaOf a) i).advance c

/-! ### LAUNCH, LWAIT, LSTOP (R322 to R324) -/

/-- R24: where issue ends when nothing ends it early. -/
def Region.limit (r : Region) : Nat := if r.rn = 0 then 0 else (r.rn.toNat + r.s.toNat) * r.ii.toNat

/-- R24, R36, R37, R324: the region cycle at which issue ends. -/
def Region.endAt (r : Region) : Nat := match r.stopRc with | some t => min t r.limit | none => r.limit

/-- R25: the rotating base of a window. -/
def rbOf (window : Nat) : BitVec 6 := BitVec.ofNat 6 ((48 - window % 48) % 48)

/-- R102: RB while issue has not ended. -/
def Region.withRb (r : Region) : Region :=
  if r.rn ≠ 0 ∧ r.rc.toNat < r.limit then { r with rb := rbOf (r.rc.toNat / r.ii.toNat) } else r

/-- R322: the PEs of a launched region lose their landing slots and bus latches. -/
def CellSt.clearPes (x : CellSt) : List (Fin 4) → CellSt
  | [] => x
  | p :: t =>
    let e := x.pe[p.val]
    (x.setPe p { e with slots := [], bus := {} }).clearPes t

/-- R21, R322: the region starts; its cycle 0 is the cycle after this one. -/
def CellSt.launch (x : CellSt) (k : Fin 4) (n : Word) (ph : Option (BitVec 16)) : CellSt :=
  let r := x.region[k.val]
  (x.setRegion k { r with rn := n.setWidth 48, rc := 0, rb := 0, sink := 0, ffl := none, ph := ph, state := .running,
                          cause := 0, cut := false, stopRc := none, launchPc := x.seq.pc, delay := 1,
                          relAt := none }).clearPes (peList r.peset)

/-- R322: LAUNCH with or without a phaser. -/
def launchOp (i : Instr) (g : Guard) (a : Reg) (b : Option Reg) (k : Fin 4) (s : State) : Out :=
  s.issueAs i g (a :: b.toList) fun c s =>
    let y := s.cell c
    let n := y.gval a
    let ph := b.map fun r => (y.gval r).setWidth 16
    let foreign : Bool := match ph with
      | some p => !(s.fn y.seq.id.vfid.toNat).ownsPhaser p.toNat
      | none => false
    if !(y.region[k.val]).conf || wbits n 63 48 != 0 || foreign then s.raise c i cIllOperand 0
    else if (y.region[k.val]).state = .running then s.waitAt c []
    else ((s.emit c 0x6 (k.val + n.toNat % 2 ^ 43 * 4)).modCell c fun z => z.launch k n ph).advance c

/-- R322: LAUNCH. -/
def execLaunch (x : SlotSrcArgs) (s : State) : Out := launchOp (.launch x) x.g x.a none x.k s
/-- R322: LAUNCH.PH. -/
def execLaunchPh (x : SlotSrc2Args) (s : State) : Out := launchOp (.launchPh x) x.g x.a (some x.b) x.k s

/-- R104: the code of STATE. -/
def RState.code : RState → Nat
  | .empty => 0 | .ready => 1 | .running => 2 | .done => 3 | .failed => 4 | .held => 5

/-- R323: the status that LWAIT writes. -/
def Region.status (r : Region) : Word :=
  BitVec.ofNat 64 (r.cause.toNat + r.state.code * 2 ^ 8 + bit r.cut * 2 ^ 11 + r.rc.toNat % 2 ^ 48 * 2 ^ 16)

/-- R80: TRAPINFO for ARITH from a region. -/
def Region.arithInfo (r : Region) : Word :=
  match r.ffl with
  | none => BitVec.ofNat 64 (r.sink.toNat * 2 ^ 60)
  | some f => BitVec.ofNat 64 (r.sink.toNat * 2 ^ 60 + f.pe.val * 2 ^ 58 + f.slot.toNat * 2 ^ 53 + f.stage.toNat * 2 ^ 46
      + f.inst.toNat % 2 ^ 46)

/-- R323: LWAIT. -/
def execLwait (x : SlotSrcArgs) (s : State) : Out :=
  s.issueAs (.lwait x) x.g [] fun c s =>
    let r := (s.cell c).region[x.k.val]
    if r.state = .running then s.waitAt c []
    else
      let s := s.modCell c fun z => z.write1 x.a r.status
      if r.cause = cArith then s.raiseDone c (.lwait x) cArith true (BitVec.ofNat 2 x.k.val) r.arithInfo
      else s.advance c

/-- The first multiple of the initiation interval from a region cycle on. -/
def boundaryFrom (t ii : Nat) : Nat := (t + ii - 1) / ii * ii

/-- R324: LSTOP on a running region whose issue has not ended. -/
def Region.lstop (r : Region) : Region :=
  if r.state = .running ∧ r.rc.toNat < r.endAt then
    let t := r.rc.toNat + (if r.delay = 0 then 1 else 0)
    { r with stopRc := some (min r.endAt (boundaryFrom t r.ii.toNat)) }
  else r

/-- R324: LSTOP. -/
def execLstop (x : LevelArgs) (s : State) : Out :=
  s.issueAs (.lstop x) x.g [] fun c s =>
    (s.modCell c fun z => z.setRegion x.k (z.region[x.k.val]).lstop).advance c

/-! ### ACSET, CSET, VGET, VSET (R325, R326) -/

/-- R106, R325: a slot, and a PE of it if one is named, that the sequencer may reach. -/
def CellSt.slotFree (x : CellSt) (k : Fin 4) (p : Option (Fin 4)) : Bool :=
  let r := x.region[k.val]
  !r.busy && match p with | some p => r.peset.getLsbD p.val | none => true

/-- R325: an instruction that acts on a slot in its issue cycle, or raises ILL_OPERAND. -/
def slotOp (i : Instr) (g : Guard) (srcs : List Reg) (k : Fin 4) (p : CellSt → Option (Fin 4))
    (go : CellSt → Option CellSt) (s : State) : Out :=
  s.issueAs i g srcs fun c s =>
    let y := s.cell c
    if !y.slotFree k (p y) then s.raise c i cIllOperand 0
    else match go y with
      | none => s.raise c i cIllOperand 0
      | some z => (s.setCell c z).advance c

/-- R325: ACSET. -/
def execAcset (x : AcsetArgs) (s : State) : Out :=
  slotOp (.acset x) x.g [x.a, x.b] x.k (fun _ => some x.pe) (fun y =>
    match acOf ((y.gval x.b).toNat * 2 ^ 64 + (y.gval x.a).toNat) with
    | none => none
    | some ac =>
      let e := y.pe[x.pe.val]
      if ac.n0 = 0 then none else some (y.setPe x.pe { e with ac := e.ac.set x.n.val ac x.n.isLt })) s

/-- R101: a seed as it is stored. -/
def seedOf (v : Word) : BitVec 32 := if v.setWidth 32 = (0 : BitVec 32) then 1 else v.setWidth 32

/-- R325: CSET.SEED. -/
def execCsetSeed (x : SeedArgs) (s : State) : Out :=
  slotOp (.csetSeed x) x.g [x.a] x.k (fun _ => some x.pe) (fun y =>
    let e := y.pe[x.pe.val]
    some (y.setPe x.pe { e with xs := seedOf (y.gval x.a) })) s

/-- R325: CSET.TEN. -/
def execCsetTen (x : SlotSrcArgs) (s : State) : Out :=
  slotOp (.csetTen x) x.g [x.a] x.k (fun _ => none) (fun y =>
    let r := y.region[x.k.val]
    some (y.setRegion x.k { r with ten := (y.gval x.a).setWidth 4 })) s

/-- R325: CSET.CLR. -/
def execCsetClr (x : LevelArgs) (s : State) : Out :=
  slotOp (.csetClr x) x.g [] x.k (fun _ => none) (fun y =>
    let r := y.region[x.k.val]
    some (y.setRegion x.k { r with sink := 0, ffl := none })) s

/-- R326: the parts of a selector, unless a bit outside them is set. -/
def selParts (v : Word) : Option (Fin 4 × Nat × Nat) :=
  if wbits v 63 18 ≠ 0 ∨ wbits v 15 12 ≠ 0 then none
  else some (Fin.ofNat 4 (wbits v 17 16), wbits v 11 8, wbits v 7 0)

/-- R89: a tag: P in bit 4, FLAGS below. -/
def FVal.tag (v : FVal) : Nat := bit v.p * 16 + v.flags.toNat

/-- R326: word w of a weight bank. -/
def WBank.item (b : WBank) (w : Nat) : Option Word :=
  let rsc (j : Nat) : Nat := (b.rsc[(Fin.ofNat 8 j).val]).toNat
  if w < 8 then some b.elem[(Fin.ofNat 8 w).val]
  else if w < 10 then
    let j := 4 * (w - 8)
    some (BitVec.ofNat 64 (rsc j + rsc (j + 1) * 2 ^ 16 + rsc (j + 2) * 2 ^ 32 + rsc (j + 3) * 2 ^ 48))
  else if w = 10 then some (b.t.setWidth 64)
  else if w = 11 then some (b.fmt.setWidth 64)
  else none

/-- R326: the item of a KIND and INDEX; none is reserved. -/
def PE.item (e : PE) (kind idx : Nat) : Option Word :=
  let acc (j : Nat) : Acc := e.acc[(Fin.ofNat 8 j).val]
  match kind with
  | 0 => if idx < 64 then some (e.v[(Fin.ofNat 64 idx).val]).data else none
  | 1 => if idx < 64 then some (BitVec.ofNat 64 (e.v[(Fin.ofNat 64 idx).val]).tag) else none
  | 2 => if idx < 64 then some (BitVec.ofNat 64 ((acc (idx / 8)).data.toNat / 2 ^ (32 * (idx % 8)) % 2 ^ 32)) else none
  | 3 => if idx < 8 then some (BitVec.ofNat 64 (bit (acc idx).int * 16 + (acc idx).flags.toNat)) else none
  | 4 => if idx < 32 then (e.bank[(Fin.ofNat 2 (idx / 16)).val]).item (idx % 16) else none
  | 5 => match idx with
    | 0 => some (e.xs.setWidth 64)
    | 1 => some (e.ff.setWidth 64)
    | 2 => some (BitVec.ofNat 64 (bit e.act))
    | 3 => some e.bus.data
    | 4 => some (BitVec.ofNat 64 e.bus.tag)
    | _ => none
  | _ => none

/-- R325, R91: the residue check of a register or latch that VGET reads. -/
def PE.itemBad (e : PE) (kind idx : Nat) : Option ResBad :=
  let v := e.v[(Fin.ofNat 64 idx).val]
  if kind = 0 then srcBad v.data v.res
  else if kind = 5 ∧ idx = 3 then srcBad e.bus.data e.bus.res
  else none

/-- R325: VGET. Its entry keeps the value read in SRCC, as R301 has a load keep its data (log 30). -/
def execVget (x : SlotSrc2Args) (s : State) : Out :=
  s.issueAs (.vget x) x.g [x.b] fun c s =>
    let y := s.cell c
    match selParts (y.gval x.b) with
    | none => s.raise c (.vget x) cIllOperand 0
    | some (p, kind, idx) =>
      let pe := y.pe[p.val]
      match pe.item kind idx with
      | none => s.raise c (.vget x) cIllOperand 0
      | some v =>
        if !y.slotFree x.k (some p) then s.raise c (.vget x) cIllOperand 0
        else if y.logFull then s.freezeLog c
        else
          let e : LogEntry := { word := wordOf (.vget x), pcw := y.seq.pc, srcA := {}, srcB := y.greg x.b,
                                srcC := GReg.of v, dest := destG x.a, remain := 2, val := v }
          match pe.itemBad kind idx with
          | some b => (s.modCell c CellSt.countRes).logged c { e with fault := cMcResidue, bad := some b }
          | none => s.logged c e

/-- R325, R326: what VSET writes. -/
def PE.vset (e : PE) (kind idx : Nat) (v : Word) : Option PE :=
  let i := Fin.ofNat 64 idx
  let o := e.v[i.val]
  if 64 ≤ idx then none
  else if kind = 0 then some { e with v := e.v.set i.val { o with data := v, res := resOf v } i.isLt }
  else if kind = 1 then some { e with v := e.v.set i.val { o with p := v.getLsbD 4, flags := v.setWidth 4 } i.isLt }
  else none

/-- R325: VSET. -/
def execVset (x : SlotSrc2Args) (s : State) : Out :=
  slotOp (.vset x) x.g [x.a, x.b] x.k (fun y => (selParts (y.gval x.b)).map (·.1)) (fun y =>
    match selParts (y.gval x.b) with
    | none => none
    | some (p, kind, idx) => ((y.pe[p.val]).vset kind idx (y.gval x.a)).map fun e => y.setPe p e) s

end Sys2Proof.Machine
end

