-- ==== Sys2Proof/Machine/Rows.lean ====
section
/-! DEFINITION. How a fabric row fires (R23 to R37, R89 to R96, R113, R348 to R350, R370): its operands and checks, its
landing slot, its flags, and the stops of its region. -/

namespace Sys2Proof.Machine

/-- What a firing row sees: its cell, firing, fields, region slot and PE. -/
structure RowCtx where
  x : CellSt
  f : Firing
  r : Row
  reg : Region
  pe : PE
deriving DecidableEq, Repr

/-- R23: a row of a firing. -/
def State.ctxOf (s : State) (f : Firing) (r : Row) : RowCtx :=
  let x := s.cell f.cell
  { x := x, f := f, r := r, reg := x.region[f.k.val], pe := x.pe[f.pe.val] }

/-! ### Operands (R25 to R28, R267, R370) -/

/-- R25, R90: the physical entry of a register name under a rotating base. -/
def physReg (n rb : Nat) : Nat := if n < 16 then n else 16 + (n - 16 + rb) % 48

/-- R28: the address through a counter in the firing's instance. -/
def RowCtx.address (cx : RowCtx) (k : Nat) (d : Int) : Int :=
  let a := cx.pe.ac[(Fin.ofNat 4 k).val]
  let i := cx.f.inst.toNat
  let n := a.n0.toNat
  (a.base.toNat : Int) + (i % n : Nat) * a.s0.toInt + (i / n : Nat) * a.s1.toInt + d

/-- R370: the displacement of a memory row. -/
def rowDisp (r : Row) : Int := 8 * r.aux.toInt

/-- R26, R267: the value of a source code; a memory operand is that of DOT and DOTS. -/
def RowCtx.src (cx : RowCtx) (code : BitVec 8) : FVal :=
  let v := code.toNat
  let i := cx.f.inst.toNat
  let n0 := (cx.pe.ac[0]).n0.toNat
  if v < 0x40 then cx.pe.v[(Fin.ofNat 64 (physReg v cx.f.rb.toNat)).val]
  else if v < 0x44 then (cx.x.pe[(Fin.ofNat 4 v).val]).bus
  else if v < 0x48 then FVal.of (cx.x.spWord (cx.address (v - 0x44) 0).toNat)
  else if v = 0x48 then FVal.of (BitVec.ofNat 64 i)
  else if v = 0x49 then FVal.of (BitVec.ofNat 64 (i % n0))
  else if v = 0x4a then FVal.of (BitVec.ofNat 64 (i / n0))
  else if v < 0x80 then FVal.of 0
  else FVal.of cx.reg.pool[(Fin.ofNat 128 v).val]

def RowCtx.a (cx : RowCtx) : FVal := cx.src cx.r.srcA
def RowCtx.b (cx : RowCtx) : FVal := cx.src cx.r.srcB
def RowCtx.c (cx : RowCtx) : FVal := cx.src cx.r.srcC

/-- R26, R27: whether a source code names a register or a bus, which alone are checked. -/
def srcChecked (code : BitVec 8) : Bool := code.toNat < 0x44

/-- R91, R368: the sources that a row reads for data or for its guard, in order. -/
def rowSources (code : Nat) (r : Row) : List (BitVec 8) :=
  let (ra, rb, rc) := rowReads code
  let g := r.guard.toNat % 4
  (if ra || g == 1 then [r.srcA] else []) ++ (if (rb || g == 2) && code != 0x29 then [r.srcB] else []) ++
    (if rc || g == 3 then [r.srcC] else [])

/-- R91: the first source whose residues fail, in the order A, B, C, and its lowest failing quarter (log 95: the rule does not
say which source a record names when two fail). -/
def RowCtx.badSource (cx : RowCtx) (code : Nat) : Option ResBad :=
  ((rowSources code cx.r).filter srcChecked).findSome? fun s => let v := cx.src s; srcBad v.data v.res

/-- R35: whether a row's guard lets it write. -/
def RowCtx.guard (cx : RowCtx) : Bool :=
  let g := cx.r.guard.toNat
  let p := match g % 4 with
    | 1 => (cx.r.srcA.toNat ≥ 0x44 && cx.r.srcA.toNat < 0x48) || cx.a.p
    | 2 => cx.b.p
    | _ => cx.c.p
  g == 0 || p == decide (g < 4)

/-! ### Accesses (R370, R371) -/

/-- R351, R269: the lane width in bits that MOD gives. -/
def rowWidth (r : Row) : Nat := 8 * 2 ^ (r.mod.toNat % 4)

/-- A value cut into `n` lanes of `w` bits, lane 0 first. -/
def lanes (w v : Nat) : Nat → List Nat
  | 0 => []
  | n + 1 => v % 2 ^ w :: lanes w (v / 2 ^ w) n

/-- Lanes of `w` bits put together, lane 0 lowest. -/
def joinLanes (w : Nat) : List Nat → Nat
  | [] => 0
  | a :: t => a % 2 ^ w + 2 ^ w * joinLanes w t

/-- The lanes of a 64-bit value. -/
def wordLanes (w : Nat) (v : Word) : List Nat := lanes w v.toNat (64 / w)

/-- R370: the accesses of a firing, in lane order: address, bytes, alignment. -/
def RowCtx.accesses (cx : RowCtx) (code : Nat) : List (Int × Nat × Nat) :=
  let k := cx.r.srcA.toNat
  if !(0x44 ≤ k && k ≤ 0x47) then []
  else if code = 0x4a ∨ code = 0x4b then [(cx.address (k - 0x44) 0, 8, 8)]
  else
    let ea := cx.address (k - 0x44) (rowDisp cx.r)
    let n := 2 ^ (cx.r.mod.toNat % 4)
    if code = 0x48 then [(ea, 96, 8)]
    else if code = 0x42 ∨ code = 0x43 then
      (wordLanes (rowWidth cx.r) cx.b.data).map fun (b : Nat) => (ea + ((b * n : Nat) : Int), n, n)
    else [(ea, n, n)]

/-- R370: an access outside the scratchpad or out of alignment. -/
def accessBad : Int × Nat × Nat → Bool
  | (a, n, k) => a < 0 || a % (k : Int) ≠ 0 || 0x80000 < a + n

/-- R370: the first failing address. -/
def RowCtx.badAddress (cx : RowCtx) (code : Nat) : Option Int := ((cx.accesses code).find? accessBad).map (·.1)

/-- R371: the bank words that an access touches. -/
def accessWords : Int × Nat × Nat → List Nat
  | (a, n, _) => (List.range ((a.toNat % 8 + n + 7) / 8)).map fun j => a.toNat / 8 * 8 + 8 * j

/-- R371: the distinct bank words of a firing. -/
def RowCtx.words (cx : RowCtx) (code : Nat) : List Nat := ((cx.accesses code).flatMap accessWords).eraseDups

/-- R113: the address of the first access of a firing that meets an uncorrectable word: any for a load, a narrower one for
a store; a firing whose guard is false reads and writes nothing. -/
def RowCtx.eccAt (cx : RowCtx) (code : Nat) : Option Int :=
  let whole := (code = 0x41 || code = 0x43) && cx.r.mod.toNat % 4 = 3
  if whole || (rowGuarded code && !cx.guard) then none
  else ((cx.accesses code).find? fun a => (accessWords a).any cx.x.spBad).map (·.1)

/-! ### Units (R30, R93, R272) -/

/-- R30, R272: the unit and latency of a row that makes a landing slot. -/
def rowUnit (code : Nat) : Option (FUnit × Nat) :=
  if code = 0x29 then some (.fvs, 2)
  else if 0x20 ≤ code ∧ code ≤ 0x2b then some (.fvl, 4)
  else if 0x2c ≤ code ∧ code ≤ 0x2f then some (.xc, 6)
  else if 0x30 ≤ code ∧ code ≤ 0x32 then some (.lut, 1)
  else if code = 0x40 ∨ code = 0x42 ∨ code = 0x44 then some (.mem, 3)
  else if code = 0x48 then some (.wld, 8)
  else if code = 0x4a ∨ code = 0x4b ∨ code = 0x4d ∨ code = 0x4e then some (.dot, 5)
  else if code = 0x4c ∨ code = 0x4f then some (.acr, 6)
  else if code = 0x41 ∨ code = 0x43 ∨ code = 0x49 then none
  else some (.alu, 1)

/-- R90: the physical destination of a row. -/
def RowCtx.dest (cx : RowCtx) : BitVec 7 :=
  let d := cx.r.dest.toNat
  if 16 ≤ d ∧ d < 64 then BitVec.ofNat 7 (physReg d cx.f.rb.toNat) else cx.r.dest

/-- The word of a row. -/
def rowWord (i : Instr) : BitVec 64 := (encodeRow i).getD 0

/-- R93, R94: the landing slot of a firing. -/
def RowCtx.slot (cx : RowCtx) (i : Instr) (u : FUnit) (remain : Nat) (bad : Bool) (pay : Payload) : LandSlot :=
  { unit := u, remain := remain, bad := bad, dest := cx.dest, slot := cx.r.slot, stage := cx.r.stage, inst := cx.f.inst,
    pay := pay, row := rowWord i, k := cx.f.k }

/-- The firing's PE, changed. -/
def State.modPe (s : State) (f : Firing) (g : PE → PE) : State :=
  s.modCell f.cell fun x => x.setPe f.pe (g x.pe[f.pe.val])

/-- The firing's region slot, changed. -/
def State.modRegion (s : State) (c : Nat) (k : Fin 4) (g : Region → Region) : State :=
  s.modCell c fun x => x.setRegion k (g x.region[k.val])

/-- A landing slot is taken. -/
def State.addSlot (s : State) (f : Firing) (l : LandSlot) : State := s.modPe f fun e => { e with slots := e.slots ++ [l] }

/-! ### Accumulators and weight banks (R61, R95 to R98, R386) -/

/-- R97: the weight bank that ACT selects. -/
def RowCtx.wbank (cx : RowCtx) : WBank := cx.pe.bank[(Fin.ofNat 2 cx.pe.act.toNat).val]

/-- R96: the accumulator row that DEST names as a pending firing left it, if one is pending. -/
def RowCtx.pending (cx : RowCtx) : Option Acc :=
  ((cx.pe.slots.filter fun l => !l.bad && l.unit == .dot && l.dest == cx.r.dest).getLast?).bind fun l =>
    match l.pay with | .acc a => some a | _ => none

/-- An accumulator row as it has landed. -/
def RowCtx.landed (cx : RowCtx) (n : Nat) : Acc := cx.pe.acc[(Fin.ofNat 8 n).val]

/-- R96: the accumulator row that DEST names, as a DOT-unit firing sees it. -/
def RowCtx.accSeen (cx : RowCtx) : Acc := cx.pending.getD (cx.landed cx.r.dest.toNat)

/-- R61: K of a pairing of a weight format with an activation format, and whether the accumulator is INT32. -/
def pairing (w a : Nat) : Option (Nat × Bool) :=
  if w ≤ 1 then (if a = w then some (4, false) else none)
  else if w ≤ 3 then (if a = 2 ∨ a = 3 then some (8, false) else none)
  else if w ≤ 7 then (if 4 ≤ a ∧ a ≤ 7 then some (8, false) else none)
  else if w = 8 then (if a = 8 then some (16, false) else if 4 ≤ a ∧ a ≤ 7 then some (8, false) else none)
  else if w = 9 then (if a = 9 then some (8, true) else none)
  else if w = 0xa then (if a = 0xa then some (16, false) else none)
  else none

/-- R385: the first row of a QNT's group. -/
def RowCtx.group (cx : RowCtx) : Nat := 4 * (cx.a.data.toNat % 2)

/-- R61, R379, R385: the types that DOT, DOTS and QNT require; a firing whose guard is false makes no such check. -/
def RowCtx.typeOk (cx : RowCtx) (code : Nat) : Bool :=
  if code = 0x4a ∨ code = 0x4b then
    !cx.guard || (match pairing cx.wbank.fmt.toNat cx.r.mod.toNat with
      | some (_, int) => int == cx.accSeen.int
      | none => false)
  else if code = 0x4f then (List.range 4).all fun m => !(cx.landed (cx.group + m)).int
  else true

/-- R386: the check of `n` quarters of an accumulator row from quarter `q`. -/
def Acc.bad (a : Acc) (q n : Nat) : Option ResBad :=
  match firstBad (a.data.toNat / 65536 ^ q) (a.res.toNat / 4 ^ q) n q with
  | some (k, p, f) => some ⟨Fin.ofNat 16 k, p, f⟩
  | none => none

/-- R386: the check of the element words of a weight bank. -/
def WBank.bad (b : WBank) : Option ResBad :=
  (List.range 8).findSome? fun j =>
    srcBad b.elem[(Fin.ofNat 8 j).val] (BitVec.ofNat 8 (b.res.toNat / 256 ^ j))

/-- R170: the check of a landing payload, which only a restore from a poisoned granule makes fail. -/
def Payload.bad : Payload → Option ResBad
  | .reg v => srcBad v.data v.res
  | .acc a => a.bad 0 16
  | .bank w => w.bad

/-- R386: what a row reads from the array and checks. -/
def RowCtx.badArray (cx : RowCtx) (code : Nat) : Option ResBad :=
  let x := cx.r.aux.toNat
  let row := cx.landed cx.r.dest.toNat
  let fresh := cx.pending.isNone
  if code = 0x4a ∨ code = 0x4b then
    if !cx.guard then none else ((if fresh then row.bad 0 16 else none).or cx.wbank.bad)
  else if code = 0x4e then
    if !cx.guard || !fresh then none else if x / 4 % 2 = 1 then row.bad 0 16 else row.bad (4 * (x % 4)) 4
  else if code = 0x4c then (cx.landed (x % 8)).bad (4 * (x / 8 % 4)) 4
  else if code = 0x4f then
    let h := if cx.r.mod.toNat = 0xa then [2 * (cx.a.data.toNat / 2 % 2), 2 * (cx.a.data.toNat / 2 % 2) + 1] else [0, 1, 2, 3]
    h.findSome? fun m => (cx.landed (cx.group + m)).bad 0 16
  else none

/-- R91, R386: the first check of what a row reads that fails. -/
def RowCtx.badRead (cx : RowCtx) (code : Nat) : Option ResBad := (cx.badSource code).or (cx.badArray code)

/-! ### Records and stops (R33, R36, R37, R215) -/

/-- R215: a record that names a firing. -/
def State.rowRecord (s : State) (cx : RowCtx) (i : Instr) (cause : Cause) (cls : BitVec 2) (addr info : Word) : Record :=
  { (s.cellRecord cx.f.cell cause cls) with
    reg := true, rslot := BitVec.ofNat 2 cx.f.k.val, pe := BitVec.ofNat 2 cx.f.pe.val, slot := cx.r.slot, stage := cx.r.stage,
    inst := cx.f.inst, rcyc := cx.f.rcyc, pc := cx.reg.launchPc, opword := rowWord i, addr := addr, info := info }

/-- R36, R37: issue ends at the next iteration boundary after the last region cycle that issued. -/
def Region.halt (r : Region) (cause : Cause) : Region :=
  { r with cause := if r.cause = 0 then cause else r.cause,
           stopRc := some (min r.endAt (((r.rc.toNat - 1) / r.ii.toNat + 1) * r.ii.toNat)) }

/-- R37, R113, R387: a firing that a check fails: the record, and the stop of its region; a quiet one leaves both to the
firing that the record of this cycle names. -/
def State.rowFails (s : State) (cx : RowCtx) (i : Instr) (cause : Cause) (addr : Word) (bad : Option ResBad) : State :=
  if cx.f.quiet then s
  else
    (s.report (s.cell cx.f.cell).seq.id.vfid.toNat ((s.rowRecord cx i cause 2 addr 0).withBad bad)).modRegion cx.f.cell cx.f.k
      fun r => r.halt cause

/-- R33, R102, R379: a region stops FAILED at once, at a boundary with the rb of its window: its landing slots are kept and
do not land. -/
def State.failRegion (s : State) (c : Nat) (k : Fin 4) (cause : Cause) : State :=
  let s := s.modRegion c k fun r => { r.withRb with state := .failed, cause := cause, cut := false }
  s.emit c 0x7 (k.val + 4 * 4 + (((s.cell c).region[k.val]).rc.toNat % 2 ^ 40) * 2 ^ 5)

/-- R33, R161, R370, R379: a fatal fault at a firing. -/
def State.rowFatal (s : State) (cx : RowCtx) (i : Instr) (cause : Cause) (addr info : Word) : State :=
  let s := s.report (s.cell cx.f.cell).seq.id.vfid.toNat (s.rowRecord cx i cause 0 addr info)
  ((s.failRegion cx.f.cell cx.f.k cause).stopCell cx.f.cell cause).kernelFatal cx.f.cell cause

/-! ### Firing -/

/-- R103: the first-fault latch takes a firing that raised a flag which none of its sources carried. -/
def State.latch (s : State) (cx : RowCtx) (fresh : Flags) : State :=
  if fresh = 0 then s
  else s.modRegion cx.f.cell cx.f.k fun r =>
    match r.ffl with
    | some _ => r
    | none => { r with ffl := some { flags := fresh, pe := cx.f.pe, stage := cx.r.stage, slot := cx.r.slot, inst := cx.f.inst } }

/-- R349: a register result formed from data, the sources read and the flags raised. -/
def resultVal (data : Word) (srcs : List FVal) (raised : Flags) : FVal :=
  { data := data, p := srcs.all (·.p), flags := srcs.foldl (fun f v => f ||| v.flags) raised, res := resOf data }

/-- A register result enters its landing slot; its new flags enter the latch. -/
def State.putVal (s : State) (cx : RowCtx) (i : Instr) (code : Nat) (v : FVal) (fresh : Flags) : State :=
  match rowUnit code with
  | some (u, l) => (s.addSlot cx.f (cx.slot i u l false (.reg v))).latch cx fresh
  | none => s

/-- R349: a result of sources and raised flags. -/
def State.putResult (s : State) (cx : RowCtx) (i : Instr) (code : Nat) (data : Word) (srcs : List FVal) (raised : Flags) :
    State :=
  s.putVal cx i code (resultVal data srcs raised) (newFlags raised (srcs.foldl (fun f v => f ||| v.flags) 0))

/-- R91, R94, R113: a firing that a check fails has no effect but its BAD slot, if it has one. -/
def State.badSlot (s : State) (cx : RowCtx) (i : Instr) (code : Nat) : State :=
  match rowUnit code with
  | some (u, l) =>
    if l = 1 || (rowGuarded code && !cx.guard) then s
    else
      let pay : Payload := if u = .dot then .acc {} else if u = .wld then .bank {} else .reg {}
      s.addSlot cx.f (cx.slot i u 0 true pay)
  | none => s

/-- R243: the PMC events of a firing. -/
def CellSt.rowEvents (x : CellSt) (cx : RowCtx) (code : Nat) : CellSt :=
  let k := some cx.f.k
  let x := x.ev 0x10 k 1
  let x := if code = 0x4a ∨ code = 0x4b then x.ev 0x12 k 1 else x
  if rowGuarded code && !cx.guard then x.ev 0x14 k 1 else x

/-- R23, R91, R113, R370, R387: a row fires: its checks in the order of R387, and then its effect. -/
def State.fireRow (s : State) (i : Instr) (code : Nat) (r : Row) (eff : RowCtx → State → State) : Out :=
  if !i.wf then .fault .rowRejected
  else .next <|
    let cx := s.ctxOf s.sched.firing r
    match cx.badAddress code with
    | some a => s.rowFatal cx i cSpadRange (BitVec.ofInt 64 a) 0
    | none =>
      if !cx.typeOk code then s.rowFatal cx i cAccType 0 0
      else
        let s := s.modCell cx.f.cell fun x => x.rowEvents cx code
        match cx.eccAt code with
        | some a => (s.badSlot cx i code).rowFails cx i cMcSpadEcc (BitVec.ofInt 64 a) none
        | none => match cx.badRead code with
          | some b => (((s.modCell cx.f.cell CellSt.countRes).badSlot cx i code).rowFails cx i cMcResidue 0 (some b))
          | none => eff cx s

end Sys2Proof.Machine
end

