-- ==== Sys2Proof/Machine/RowAlu.lean ====
section
/-! DEFINITION. The integer-lane, predicate, LUT, CONST, SHFL and IDX rows (R351 to R356, R363 to R365). -/

namespace Sys2Proof.Machine

/-! ### Shared forms -/

/-- R351: MOD[2], U. -/
def rowUns (r : Row) : Bool := r.mod.toNat / 4 % 2 == 1

/-- Lanes of `w` bits as a 64-bit value. -/
def laneWord (w : Nat) (l : List Nat) : Word := BitVec.ofNat 64 (joinLanes w l)

/-- R349, R351: a row on A and B, lane by lane. -/
def laneRow2 (i : Instr) (code : Nat) (r : Row) (f : Nat → Nat → Nat → Nat) (s : State) : Out :=
  s.fireRow i code r fun cx s =>
    let w := rowWidth r
    s.putResult cx i code (laneWord w (List.zipWith (f w) (wordLanes w cx.a.data) (wordLanes w cx.b.data))) [cx.a, cx.b] 0

/-- R349, R351: a row on A, lane by lane. -/
def laneRow1 (i : Instr) (code : Nat) (r : Row) (f : Nat → Nat → Nat) (s : State) : Out :=
  s.fireRow i code r fun cx s =>
    let w := rowWidth r
    s.putResult cx i code (laneWord w ((wordLanes w cx.a.data).map (f w))) [cx.a] 0

/-- R349: a row on the whole of A and B. -/
def wholeRow (i : Instr) (code : Nat) (r : Row) (f : Word → Word → Word) (s : State) : Out :=
  s.fireRow i code r fun cx s => s.putResult cx i code (f cx.a.data cx.b.data) [cx.a, cx.b] 0

/-- R349: a result whose P the row sets itself. -/
def predRow (i : Instr) (code : Nat) (r : Row) (f : RowCtx → Word × Bool) (srcs : RowCtx → List FVal) (s : State) : Out :=
  s.fireRow i code r fun cx s =>
    s.putVal cx i code { resultVal (f cx).1 (srcs cx) 0 with p := (f cx).2 } 0

/-- R352: an exact result clamped to the lane's range. -/
def clampLane (u : Bool) (w : Nat) (v : Int) : Nat :=
  let lo : Int := if u then 0 else -2 ^ (w - 1)
  let hi : Int := if u then 2 ^ w - 1 else 2 ^ (w - 1) - 1
  wrapN w (if v < lo then lo else if hi < v then hi else v)

/-- R351: the value of a lane by U. -/
def laneVal (u : Bool) (w v : Nat) : Int := if u then (v : Int) else sval w v

/-! ### Integer lanes (R352) -/

/-- R352, ADD: a_k + b_k mod 2^w. -/
def execRowAdd (r : Row) (s : State) : Out := laneRow2 (.rowAdd r) 0x01 r (fun w a b => (a + b) % 2 ^ w) s

/-- R352, SUB: a_k − b_k mod 2^w. -/
def execRowSub (r : Row) (s : State) : Out := laneRow2 (.rowSub r) 0x02 r (fun w a b => wrapN w ((a : Int) - b)) s

/-- R352, MUL: the low w bits of the product. -/
def execRowMul (r : Row) (s : State) : Out := laneRow2 (.rowMul r) 0x03 r (fun w a b => a * b % 2 ^ w) s

/-- R352, MULH: the high w bits of the 2w-bit product, signed or by U unsigned. -/
def execRowMulh (r : Row) (s : State) : Out :=
  laneRow2 (.rowMulh r) 0x04 r
    (fun w a b => wrapN w (laneVal (rowUns r) w a * laneVal (rowUns r) w b / (2 ^ w : Nat))) s

/-- R352, ADDS: a_k + b_k clamped. -/
def execRowAdds (r : Row) (s : State) : Out :=
  laneRow2 (.rowAdds r) 0x05 r
    (fun w a b => clampLane (rowUns r) w (laneVal (rowUns r) w a + laneVal (rowUns r) w b)) s

/-- R352, SUBS: a_k − b_k clamped. -/
def execRowSubs (r : Row) (s : State) : Out :=
  laneRow2 (.rowSubs r) 0x06 r
    (fun w a b => clampLane (rowUns r) w (laneVal (rowUns r) w a - laneVal (rowUns r) w b)) s

/-- R352, AND. -/
def execRowAnd (r : Row) (s : State) : Out := wholeRow (.rowAnd r) 0x07 r (fun a b => a &&& b) s

/-- R352, OR. -/
def execRowOr (r : Row) (s : State) : Out := wholeRow (.rowOr r) 0x08 r (fun a b => a ||| b) s

/-- R352, XOR. -/
def execRowXor (r : Row) (s : State) : Out := wholeRow (.rowXor r) 0x09 r (fun a b => a ^^^ b) s

/-- R352, ANDN: A AND NOT B. -/
def execRowAndn (r : Row) (s : State) : Out := wholeRow (.rowAndn r) 0x0a r (fun a b => a &&& ~~~b) s

/-- R352, SHL: each lane by the count in its own lane of B. -/
def execRowShl (r : Row) (s : State) : Out := laneRow2 (.rowShl r) 0x0b r (fun w a b => a * 2 ^ (b % w) % 2 ^ w) s

/-- R352, SHR. -/
def execRowShr (r : Row) (s : State) : Out := laneRow2 (.rowShr r) 0x0c r (fun w a b => a / 2 ^ (b % w)) s

/-- R352, SAR: the floor of the signed lane. -/
def execRowSar (r : Row) (s : State) : Out :=
  laneRow2 (.rowSar r) 0x0d r (fun w a b => wrapN w (sval w a / (2 ^ (b % w) : Nat))) s

/-- R352, MIN: the smaller lane, signed or by U unsigned. -/
def execRowMin (r : Row) (s : State) : Out :=
  laneRow2 (.rowMin r) 0x0e r (fun w a b => if laneVal (rowUns r) w b < laneVal (rowUns r) w a then b else a) s

/-- R352, MAX: the larger lane. -/
def execRowMax (r : Row) (s : State) : Out :=
  laneRow2 (.rowMax r) 0x0f r (fun w a b => if laneVal (rowUns r) w a < laneVal (rowUns r) w b then b else a) s

/-- R352, ABS: the magnitude of the signed lane, modulo 2^w. -/
def execRowAbs (r : Row) (s : State) : Out := laneRow1 (.rowAbs r) 0x10 r (fun w a => wrapN w (sval w a).natAbs) s

/-- R353: whether a lane meets a condition. -/
def laneHolds (cc : Nat) (u : Bool) (w a b : Nat) : Bool :=
  let x := laneVal u w a
  let y := laneVal u w b
  match cc with
  | 0 => a = b
  | 1 => a ≠ b
  | 2 => x < y
  | 3 => y ≤ x
  | 4 => x ≤ y
  | 5 => y < x
  | 6 => a.land b ≠ 0
  | _ => a.land b = 0

/-- R353: the truths of the lanes of a CMP. -/
def cmpLanes (cx : RowCtx) : List Bool :=
  let w := rowWidth cx.r
  List.zipWith (laneHolds (cx.r.aux.toNat % 16) (rowUns cx.r) w) (wordLanes w cx.a.data) (wordLanes w cx.b.data)

/-- R353: how AUX[5:4] forms P from the truths. -/
def cmpReduce (how : Nat) (l : List Bool) : Bool :=
  match how with
  | 0 => l.headD true
  | 1 => l.all id
  | _ => l.any id

/-- R353, CMP: a mask of lanes, and P from the comparison alone. -/
def execRowCmp (r : Row) (s : State) : Out :=
  predRow (.rowCmp r) 0x11 r
    (fun cx => (laneWord (rowWidth r) ((cmpLanes cx).map fun b => if b then 2 ^ rowWidth r - 1 else 0),
                cmpReduce (r.aux.toNat / 16) (cmpLanes cx)))
    (fun cx => [cx.a, cx.b]) s

/-- R354, SEL: the value of A where P of C is 1, of B otherwise, with the flags of C. -/
def execRowSel (r : Row) (s : State) : Out :=
  s.fireRow (.rowSel r) 0x12 r fun cx s =>
    let v := if cx.c.p then cx.a else cx.b
    s.putVal cx (.rowSel r) 0x12 { data := v.data, p := v.p, flags := v.flags ||| cx.c.flags, res := resOf v.data } 0

/-- R354, MOV: the value of A unchanged. -/
def execRowMov (r : Row) (s : State) : Out :=
  s.fireRow (.rowMov r) 0x13 r fun cx s => s.putVal cx (.rowMov r) 0x13 { cx.a with res := resOf cx.a.data } 0

/-- R355: one byte of a PERM: of the sixteen bytes of A and C, or 0. -/
def permByte (ac b : Nat) : Nat := if 128 ≤ b then 0 else ac / 256 ^ (b % 16) % 256

/-- R355, PERM. -/
def execRowPerm (r : Row) (s : State) : Out :=
  s.fireRow (.rowPerm r) 0x14 r fun cx s =>
    let ac := cx.a.data.toNat + 2 ^ 64 * cx.c.data.toNat
    s.putResult cx (.rowPerm r) 0x14 (laneWord 8 ((wordLanes 8 cx.b.data).map (permByte ac))) [cx.a, cx.b, cx.c] 0

/-- R355, PACK: the low halves of the double lanes of A, then of B. -/
def execRowPack (r : Row) (s : State) : Out :=
  s.fireRow (.rowPack r) 0x15 r fun cx s =>
    let w := rowWidth r
    s.putResult cx (.rowPack r) 0x15 (laneWord w (wordLanes (2 * w) cx.a.data ++ wordLanes (2 * w) cx.b.data)) [cx.a, cx.b] 0

/-- R355, UNPK: the low or high half of the lanes of A, extended to double width. -/
def execRowUnpk (r : Row) (s : State) : Out :=
  s.fireRow (.rowUnpk r) 0x16 r fun cx s =>
    let w := rowWidth r
    let n := 64 / w / 2
    let l := ((wordLanes w cx.a.data).drop (r.aux.toNat % 2 * n)).take n
    s.putResult cx (.rowUnpk r) 0x16 (laneWord (2 * w) (l.map fun v => wrapN (2 * w) (laneVal (rowUns r) w v))) [cx.a] 0

/-- R352, POPC: the one bits of a lane. -/
def execRowPopc (r : Row) (s : State) : Out := laneRow1 (.rowPopc r) 0x17 r popN s

/-- R352, CLZ: the leading zero bits of a lane. -/
def execRowClz (r : Row) (s : State) : Out := laneRow1 (.rowClz r) 0x18 r clzN s

/-! ### Predicate rows (R356) -/

/-- R356, PAND: the data of A, the AND of the predicates. -/
def execRowPand (r : Row) (s : State) : Out :=
  predRow (.rowPand r) 0x1c r (fun cx => (cx.a.data, cx.a.p && cx.b.p)) (fun cx => [cx.a, cx.b]) s

/-- R356, POR. -/
def execRowPor (r : Row) (s : State) : Out :=
  predRow (.rowPor r) 0x1d r (fun cx => (cx.a.data, cx.a.p || cx.b.p)) (fun cx => [cx.a, cx.b]) s

/-- R356, PNOT. -/
def execRowPnot (r : Row) (s : State) : Out :=
  predRow (.rowPnot r) 0x1e r (fun cx => (cx.a.data, !cx.a.p)) (fun cx => [cx.a]) s

/-! ### The LUT patch (R363, R364) -/

/-- R363: the input a selector names; `o` holds the outputs of the LUTs already computed. -/
def lutIn (a b : FVal) (ff o : Nat) (n : Nat) : Bool :=
  if n < 0x40 then a.data.toNat.testBit n
  else if n < 0x80 then b.data.toNat.testBit (n - 0x40)
  else if n < 0x90 then o.testBit (n - 0x80)
  else if n < 0xa0 then ff.testBit (n - 0x90)
  else if n = 0xa2 then a.p
  else if n = 0xa3 then b.p
  else n == 0xa1

/-- R363: the truth-table index of a list of selectors. -/
def lutIndex (a b : FVal) (ff o : Nat) : List (BitVec 8) → Nat
  | [] => 0
  | q :: t => (lutIn a b ff o q.toNat).toNat + 2 * lutIndex a b ff o t

/-- R363: the outputs, in ascending order from LUT `j`. -/
def lutOuts (a b : FVal) (ff : Nat) : List Lut → Nat → Nat → Nat
  | [], _, o => o
  | l :: t, j, o =>
    lutOuts a b ff t (j + 1) (o + (l.tt.toNat.testBit (lutIndex a b ff o l.sel)).toNat * 2 ^ j)

/-- R363: the word whose bit j is the output of LUT j. -/
def RowCtx.lut (cx : RowCtx) : Nat := lutOuts cx.a cx.b cx.pe.ff.toNat (cx.pe.luts.take 16) 0 0

/-- R364: a 16-bit word in quarter q. -/
def inQuarter (o : Nat) (r : Row) : Word := BitVec.ofNat 64 (o * 2 ^ (16 * (r.aux.toNat % 4)))

/-- R364, LUT. -/
def execRowLut (r : Row) (s : State) : Out :=
  s.fireRow (.rowLut r) 0x30 r fun cx s => s.putResult cx (.rowLut r) 0x30 (inQuarter cx.lut r) [cx.a, cx.b] 0

/-- R364, LUTS: as LUT, and the flip-flops take the outputs. -/
def execRowLuts (r : Row) (s : State) : Out :=
  s.fireRow (.rowLuts r) 0x31 r fun cx s =>
    (s.putResult cx (.rowLuts r) 0x31 (inQuarter cx.lut r) [cx.a, cx.b] 0).modPe cx.f fun e =>
      { e with ff := BitVec.ofNat 16 cx.lut }

/-- R364, LUTC: the flip-flops. -/
def execRowLutc (r : Row) (s : State) : Out :=
  s.fireRow (.rowLutc r) 0x32 r fun cx s => s.putResult cx (.rowLutc r) 0x32 (inQuarter cx.pe.ff.toNat r) [] 0

/-! ### CONST, SHFL, IDX (R365) -/

/-- R365, CONST: the sign-extended AUX. -/
def execRowConst (r : Row) (s : State) : Out :=
  s.fireRow (.rowConst r) 0x34 r fun cx s => s.putResult cx (.rowConst r) 0x34 (r.aux.signExtend 64) [] 0

/-- R365, SHFL: eight of the sixteen bytes of A and B from byte o. -/
def execRowShfl (r : Row) (s : State) : Out :=
  s.fireRow (.rowShfl r) 0x35 r fun cx s =>
    let v := (cx.a.data.toNat + 2 ^ 64 * cx.b.data.toNat) / 256 ^ (r.aux.toNat % 8)
    s.putResult cx (.rowShfl r) 0x35 (BitVec.ofNat 64 v) [cx.a, cx.b] 0

/-- R365, IDX: lane k is lane 0 of A plus k·step. -/
def execRowIdx (r : Row) (s : State) : Out :=
  s.fireRow (.rowIdx r) 0x36 r fun cx s =>
    let w := 8 * 2 ^ (r.aux.toNat % 4)
    let a := cx.a.data.toNat % 2 ^ w
    s.putResult cx (.rowIdx r) 0x36
      (laneWord w ((List.range (64 / w)).map fun k => (a + k * (r.aux.toNat / 4)) % 2 ^ w)) [cx.a] 0

end Sys2Proof.Machine
end

