-- ==== Sys2Proof/Machine/RowFp.lean ====
section
/-! DEFINITION. The floating-point rows (R357 to R362). -/

namespace Sys2Proof.Machine

/-- R357: the format that MOD names. -/
def rowFmt (r : Row) : Fmt := fmtOfCode r.mod.toNat

/-- R57, R101: the XS values that `n` lanes draw under RSR, and the state after them. -/
def draws : Nat → BitVec 32 → List Nat × BitVec 32
  | 0, x => ([], x)
  | n + 1, x =>
    let y := xorshift x
    let (l, z) := draws n y
    (y.toNat :: l, z)

/-- R101: XS steps `n` times under RSR. -/
def State.stepXs (s : State) (cx : RowCtx) (mode n : Nat) : State :=
  if mode = 4 then s.modPe cx.f fun e => { e with xs := (draws n cx.pe.xs).2 } else s

/-- The rounding of lane `k` of a firing (R55, R57, R58). -/
def RowCtx.roundingAt (cx : RowCtx) (k : Nat) : Rounding :=
  { mode := cx.r.aux.toNat % 8, draw := ((draws (k + 1) cx.pe.xs).1.getD k 0), ftz := cx.reg.ftz }

/-- The codes of the lanes of a source. -/
def fpLanes (m : Fmt) (v : FVal) : List Nat := wordLanes m.width v.data

/-- R357: a result of lane codes and the flags they raised. -/
def State.putFp (s : State) (cx : RowCtx) (i : Instr) (code : Nat) (w : Nat) (l : List (Nat × Flags)) (srcs : List FVal) :
    State :=
  s.putResult cx i code (laneWord w (l.map (·.1))) srcs (l.foldl (fun f p => f ||| p.2) 0)

/-- R358: a lane operation that rounds once in each lane. -/
def fpRow (i : Instr) (code : Nat) (r : Row) (useC : Bool) (f : Nat → Fp → Fp → Fp → Fp × Flags) (s : State) : Out :=
  s.fireRow i code r fun cx s =>
    let m := rowFmt r
    let n := 64 / m.width
    let rd (v : FVal) (k : Nat) : Fp := m.read cx.reg.ftz ((fpLanes m v).getD k 0)
    let l := (List.range n).map fun k =>
      let q := cx.roundingAt k
      m.finish q (f q.mode (rd cx.a k) (rd cx.b k) (if useC then rd cx.c k else .nan))
    (s.putFp cx i code m.width l (if useC then [cx.a, cx.b, cx.c] else [cx.a, cx.b])).stepXs cx (r.aux.toNat % 8) n

/-- R358, R359: a lane operation on two codes that rounds nothing. -/
def fpExact2 (i : Instr) (code : Nat) (r : Row) (f : Fmt → Bool → Nat → Nat → Nat) (s : State) : Out :=
  s.fireRow i code r fun cx s =>
    let m := rowFmt r
    s.putFp cx i code m.width
      ((List.zipWith (f m cx.reg.ftz) (fpLanes m cx.a) (fpLanes m cx.b)).map fun v => (v, 0)) [cx.a, cx.b]

/-- R358, FADD: a + b. -/
def execRowFadd (r : Row) (s : State) : Out := fpRow (.rowFadd r) 0x20 r false (fun m a b _ => sumFp m [a, b]) s

/-- R358, FSUB: a − b. -/
def execRowFsub (r : Row) (s : State) : Out := fpRow (.rowFsub r) 0x21 r false (fun m a b _ => sumFp m [a, b.negate]) s

/-- R358, FMUL: a × b. -/
def execRowFmul (r : Row) (s : State) : Out := fpRow (.rowFmul r) 0x22 r false (fun _ a b _ => mulFp a b) s

/-- R358, FMA: a × b + c. -/
def execRowFma (r : Row) (s : State) : Out := fpRow (.rowFma r) 0x23 r true (fun m a b c => fmaFp m a b c) s

/-- R358, FMS: a × b − c. -/
def execRowFms (r : Row) (s : State) : Out := fpRow (.rowFms r) 0x24 r true (fun m a b c => fmaFp m a b c.negate) s

/-- R358, FMIN. -/
def execRowFmin (r : Row) (s : State) : Out := fpExact2 (.rowFmin r) 0x25 r (fun m z a b => m.pick z false a b) s

/-- R358, FMAX. -/
def execRowFmax (r : Row) (s : State) : Out := fpExact2 (.rowFmax r) 0x26 r (fun m z a b => m.pick z true a b) s

/-- R358: a code with its sign cleared; a NaN gives the canonical NaN. -/
def absCode (m : Fmt) (ftz : Bool) (a : Nat) : Nat :=
  if (m.value a).isNan then m.canon.1 else m.flush ftz a % 2 ^ (m.width - 1)

/-- R358, FABS. -/
def execRowFabs (r : Row) (s : State) : Out :=
  s.fireRow (.rowFabs r) 0x27 r fun cx s =>
    let m := rowFmt r
    s.putFp cx (.rowFabs r) 0x27 m.width ((fpLanes m cx.a).map fun a => (absCode m cx.reg.ftz a, 0)) [cx.a]

/-- R359: the relation code of two codes. -/
def relation (m : Fmt) (ftz : Bool) (a b : Nat) : Nat :=
  match cmpFp (m.read ftz a) (m.read ftz b) with
  | none => 8
  | some d => if d = 0 then 1 else if d < 0 then 2 else 4

/-- R359, FCMP. -/
def execRowFcmp (r : Row) (s : State) : Out := fpExact2 (.rowFcmp r) 0x28 r relation s

/-! ### FCVT (R360) -/

/-- R360: one element converted between the formats of two codes. -/
def cvtElem (src dst : Nat) (ns : Bool) (q : Rounding) (v : Nat) : Nat × Flags :=
  if src = 9 ∧ dst = 9 then (v, 0)
  else if src = 9 then (fmtOfCode dst).ofInt q ns (sval 8 v)
  else if dst = 9 then
    let (k, fl) := ((fmtOfCode src).read q.ftz v).clampInt q (-128) 127
    (wrapN 8 k, fl)
  else (fmtOfCode dst).convert (fmtOfCode src) q ns v

/-- R360: the elements that FCVT converts, with their results. -/
def RowCtx.cvt (cx : RowCtx) : List (Nat × Flags) :=
  let l := cx.r.srcB.toNat
  let src := l % 16
  let dst := cx.r.mod.toNat
  let n := 64 / max (cvtWidth src) (cvtWidth dst)
  let p := if l / 32 % 2 = 1 then 64 / cvtWidth src - n else 0
  ((List.range n).zip ((wordLanes (cvtWidth src) cx.a.data).drop p)).map fun (k, v) =>
    cvtElem src dst (l / 16 % 2 == 1) (cx.roundingAt k) v

/-- R360, FCVT. -/
def execRowFcvt (r : Row) (s : State) : Out :=
  s.fireRow (.rowFcvt r) 0x29 r fun cx s =>
    let src := r.srcB.toNat % 16
    let dst := r.mod.toNat
    let n := 64 / max (cvtWidth src) (cvtWidth dst)
    let p := if r.srcB.toNat / 32 % 2 = 1 then 64 / cvtWidth dst - n else 0
    (s.putFp cx (.rowFcvt r) 0x29 (cvtWidth dst) (List.replicate p (0, 0) ++ cx.cvt) [cx.a]).stepXs cx
      (if src = dst then 0 else r.aux.toNat % 8) n

/-! ### FSUM and FMAXH (R361) -/

/-- R361, FSUM: the exact sum of the lanes, rounded once, in lane 0. -/
def execRowFsum (r : Row) (s : State) : Out :=
  s.fireRow (.rowFsum r) 0x2a r fun cx s =>
    let m := rowFmt r
    let q := cx.roundingAt 0
    (s.putFp cx (.rowFsum r) 0x2a m.width [m.finish q (sumFp q.mode ((fpLanes m cx.a).map (m.read cx.reg.ftz)))]
      [cx.a]).stepXs cx q.mode 1

/-- R361, FMAXH: the largest lane in lane 0. -/
def execRowFmaxh (r : Row) (s : State) : Out :=
  s.fireRow (.rowFmaxh r) 0x2b r fun cx s =>
    let m := rowFmt r
    let l := fpLanes m cx.a
    s.putFp cx (.rowFmaxh r) 0x2b m.width [(l.tail.foldl (m.pick cx.reg.ftz true) (l.headD 0), 0)] [cx.a]

/-! ### Transcendental rows (R362) -/

/-- What a transcendental row computes: a special value, or a magnitude m·2^e with, maybe, a rest below its last bit. -/
inductive Near
  | special (x : Fp) (fl : Flags)
  | mag (neg : Bool) (m : Nat) (e : Int) (rest : Bool)
deriving DecidableEq, Repr

/-- The integer square root, bit by bit from bit `b`. -/
def isqrt (n : Nat) : Nat → Nat → Nat
  | 0, r => r
  | b + 1, r => let t := r + 2 ^ b; isqrt n b (if t * t ≤ n then t else r)

/-- Bits of the fixed-point series below. -/
def seriesBits : Nat := 320

/-- The sum of 1 / (k·2^k) for k from `k` up, `n` terms, in units of 2^−320: ln 2. -/
def ln2From : Nat → Nat → Nat
  | 0, _ => 0
  | n + 1, k => 2 ^ seriesBits / (k * 2 ^ k) + ln2From n (k + 1)

/-- ln 2 in units of 2^−320. -/
def ln2Fixed : Nat := ln2From 330 1

/-- The Taylor series of e^t from a term on; t and the terms are in units of 2^−320. -/
def expFrom (t : Nat) : Nat → Nat → Nat → Nat
  | 0, _, term => term
  | n + 1, k, term => term + expFrom t n (k + 1) (term * t / 2 ^ seriesBits / k)

/-- The series of atanh z from a power on; z², the powers in units of 2^−320. -/
def atanhFrom (zz : Nat) : Nat → Nat → Nat → Nat
  | 0, _, _ => 0
  | n + 1, k, pow => pow / k + atanhFrom zz n (k + 2) (pow * zz / 2 ^ seriesBits)

/-- R362, FRCP of a value. -/
def rcpOf : Fp → Near
  | .nan => .special .nan 0
  | .inf n => .special (.fin n 0 0) 0
  | .fin n m e =>
    if m = 0 then .special (.inf n) flDZ else .mag n (2 ^ 96 / m) (-e - 96) (2 ^ 96 % m ≠ 0)

/-- R362, FRSQ of a value. -/
def rsqOf : Fp → Near
  | .nan => .special .nan 0
  | .inf n => if n then .special .nan flNV else .special (.fin false 0 0) 0
  | .fin n m e =>
    if m = 0 then .special (.inf n) 0
    else if n then .special .nan flNV
    else
      let (m, e) := if e % 2 = 0 then (m, e) else (2 * m, e - 1)
      let q := isqrt (2 ^ 192 / m) 97 0
      .mag false q (-(e / 2) - 96) (q * q * m ≠ 2 ^ 192)

/-- 2^(num / 2^p) for a fraction below 1, in units of 2^−304, not exact unless the fraction is 0. -/
def exp2Frac (num p : Nat) : Nat :=
  expFrom (num * ln2Fixed / 2 ^ p) 80 1 (2 ^ seriesBits) / 2 ^ 16

/-- R362, FEXP2 of a value. -/
def exp2Of : Fp → Near
  | .nan => .special .nan 0
  | .inf n => if n then .special (.fin false 0 0) 0 else .special (.inf false) 0
  | .fin n m e =>
    if m = 0 then .mag false 1 0 false
    else if 9 ≤ topExp m e then .mag false 1 (if n then -600 else 600) true
    else
      let p := (-e).toNat
      let v : Int := (if n then -1 else 1) * (m * 2 ^ e.toNat : Nat)
      let k := v / (2 ^ p : Nat)
      let f := (v % (2 ^ p : Nat)).toNat
      if f = 0 then .mag false 1 k false else .mag false (exp2Frac f p) (k - 304) true

/-- log2 of m / 2^t with 2^t < m < 2^(t+1), in units of 2^−320. -/
def log2Frac (m t : Nat) : Nat :=
  let z := (m - 2 ^ t) * 2 ^ seriesBits / (m + 2 ^ t)
  2 * atanhFrom (z * z / 2 ^ seriesBits) 110 1 z * 2 ^ seriesBits / ln2Fixed

/-- R362, FLOG2 of a value. -/
def log2Of : Fp → Near
  | .nan => .special .nan 0
  | .inf n => if n then .special .nan flNV else .special (.inf false) 0
  | .fin n m e =>
    if m = 0 then .special (.inf true) flDZ
    else if n then .special .nan flNV
    else
      let t := Nat.log2 m
      let k := e + t
      if m = 2 ^ t then .special (fpOfInt k) 0
      else
        let v := k * (2 ^ seriesBits : Nat) + log2Frac m t
        .mag (v < 0) (v.natAbs / 2 ^ 16) (-304) true

/-- R362: one of the two FP32 values that bracket a magnitude, and infinity beyond the largest finite value. -/
def bracket (code input : Nat) (ftz neg : Bool) (m : Nat) (e : Int) (rest : Bool) : Nat × Flags :=
  let away := fmtF32.roundFin { mode := if neg then 3 else 2, ftz := ftz } neg m e rest
  if away.2 &&& flOF ≠ 0 || Config.roundAway code (BitVec.ofNat 32 input) then away
  else fmtF32.roundFin { mode := 1, ftz := ftz } neg m e rest

/-- R362: a transcendental lane in its format. -/
def nearCode (f : Fmt) (code input : Nat) (ftz : Bool) : Near → Nat × Flags
  | .special x fl => f.finish { mode := 0, ftz := ftz } (x, fl)
  | .mag neg m e rest =>
    if f = fmtF32 then bracket code input ftz neg m e rest else f.roundFin { mode := 0, ftz := ftz } neg m e rest

/-- R362: a transcendental row. -/
def transRow (i : Instr) (code : Nat) (r : Row) (f : Fp → Near) (s : State) : Out :=
  s.fireRow i code r fun cx s =>
    let m := rowFmt r
    s.putFp cx i code m.width
      ((fpLanes m cx.a).map fun v => nearCode m code v cx.reg.ftz (f (m.read cx.reg.ftz v))) [cx.a]

/-- R362, FRCP. -/
def execRowFrcp (r : Row) (s : State) : Out := transRow (.rowFrcp r) 0x2c r rcpOf s

/-- R362, FRSQ. -/
def execRowFrsq (r : Row) (s : State) : Out := transRow (.rowFrsq r) 0x2d r rsqOf s

/-- R362, FEXP2. -/
def execRowFexp2 (r : Row) (s : State) : Out := transRow (.rowFexp2 r) 0x2e r exp2Of s

/-- R362, FLOG2. -/
def execRowFlog2 (r : Row) (s : State) : Out := transRow (.rowFlog2 r) 0x2f r log2Of s

end Sys2Proof.Machine
end

