-- ==== Sys2Proof/Machine/RowMem.lean ====
section
/-! DEFINITION. The rows that reach the scratchpad, the weight banks and the accumulators (R368 to R386). -/

namespace Sys2Proof.Machine

/-! ### Loads and stores (R370 to R375) -/

/-- The element of an access, as a number. -/
def CellSt.spElem (x : CellSt) : Int × Nat × Nat → Nat
  | (a, n, _) => leNat (mread x.spad a.toNat n)

/-- R113: the words that a firing reads are noted. -/
def State.noteWords (s : State) (cx : RowCtx) (code : Nat) : State :=
  s.modCell cx.f.cell fun x => (cx.words code).foldl CellSt.spNote x

/-- R372, LD: the bytes at ea, the higher bits 0. -/
def execRowLd (r : Row) (s : State) : Out :=
  s.fireRow (.rowLd r) 0x40 r fun cx s =>
    (s.noteWords cx 0x40).putVal cx (.rowLd r) 0x40
      (FVal.of (BitVec.ofNat 64 (((cx.accesses 0x40).map cx.x.spElem).headD 0))) 0

/-- R372, LDB: the element at ea in every lane. -/
def execRowLdb (r : Row) (s : State) : Out :=
  s.fireRow (.rowLdb r) 0x44 r fun cx s =>
    let w := rowWidth r
    (s.noteWords cx 0x44).putVal cx (.rowLdb r) 0x44
      (FVal.of (laneWord w (List.replicate (64 / w) (((cx.accesses 0x44).map cx.x.spElem).headD 0)))) 0

/-- R373, LDX: one element gathered into each lane, with the P and flags of the indices. -/
def execRowLdx (r : Row) (s : State) : Out :=
  s.fireRow (.rowLdx r) 0x42 r fun cx s =>
    (s.noteWords cx 0x42).putResult cx (.rowLdx r) 0x42 (laneWord (rowWidth r) ((cx.accesses 0x42).map cx.x.spElem)) [cx.b] 0

/-- R36, R374, R375: the flags of a stored value go to the sink; an enabled one stops the region. -/
def State.sinkFlags (s : State) (cx : RowCtx) (fl : Flags) : State :=
  s.modRegion cx.f.cell cx.f.k fun r =>
    let r := { r with sink := r.sink ||| fl }
    if trapsFlags fl r.ten then r.halt cArith else r

/-- The elements of a store, merged into their words in lane order. -/
def CellSt.spMerge (x : CellSt) : List ((Int × Nat × Nat) × Nat) → CellSt
  | [] => x
  | ((a, n, _), v) :: t => ((if n < 8 then x.spNote a.toNat else x).spPut a.toNat n v).spMerge t

/-- R109, R375: the elements of a store: the lanes that share a word merge in its one bank cycle, and then the word is examined
(R116). -/
def CellSt.spStores (x : CellSt) (l : List ((Int × Nat × Nat) × Nat)) : CellSt :=
  (l.map fun p => p.1.1.toNat / 8 * 8).eraseDups.foldl CellSt.spWake (x.spMerge l)

/-- R374, ST: the low bytes of B at ea. -/
def execRowSt (r : Row) (s : State) : Out :=
  s.fireRow (.rowSt r) 0x41 r fun cx s =>
    if !cx.guard then s
    else (s.modCell cx.f.cell fun x => x.spStores ((cx.accesses 0x41).map fun a => (a, cx.b.data.toNat))).sinkFlags cx cx.b.flags

/-- R375, STX: each lane of C at its own address; a higher lane stands over a lower one. -/
def execRowStx (r : Row) (s : State) : Out :=
  s.fireRow (.rowStx r) 0x43 r fun cx s =>
    if !cx.guard then s
    else (s.modCell cx.f.cell fun x =>
      x.spStores ((cx.accesses 0x43).zip (wordLanes (rowWidth r) cx.c.data))).sinkFlags cx cx.c.flags

/-! ### Weight banks (R376, R377) -/

/-- R168: a weight-bank image of 96 bytes. -/
def bankOfImage (v : Nat) : WBank :=
  { fmt := BitVec.ofNat 4 (v / 256 ^ 84), elem := Vector.ofFn fun j => BitVec.ofNat 64 (v / 2 ^ (64 * j.val)),
    rsc := Vector.ofFn fun j => BitVec.ofNat 16 (v / 256 ^ 64 / 2 ^ (16 * j.val)), t := BitVec.ofNat 32 (v / 256 ^ 80),
    res := BitVec.ofNat 64 (resBits (v % 256 ^ 64) 32) }

/-- R376, WLD: the image enters a landing slot. -/
def execRowWld (r : Row) (s : State) : Out :=
  s.fireRow (.rowWld r) 0x48 r fun cx s =>
    if !cx.guard then s
    else
      let v := ((cx.accesses 0x48).map cx.x.spElem).headD 0
      (s.noteWords cx 0x48).addSlot cx.f (cx.slot (.rowWld r) .wld 8 false (.bank (bankOfImage v)))

/-- R377, WSW: the other bank is selected from the next cycle on. -/
def execRowWsw (r : Row) (s : State) : Out :=
  s.fireRow (.rowWsw r) 0x49 r fun cx s => s.modPe cx.f fun e => { e with act := !e.act }

/-! ### Elements (R48 to R51, R378) -/

/-- A value times 2^k. -/
def Fp.scale (k : Int) : Fp → Fp
  | .fin n m e => .fin n m (e + k)
  | x => x

/-- R49, R378: the codes of the elements of a word in a format. -/
def elemCodes (fmt : Nat) (w : Word) : List Nat :=
  if fmt ≤ 1 then wordLanes 16 w
  else if fmt = 8 ∨ fmt = 0xa then wordLanes 4 w
  else if fmt = 6 ∨ fmt = 7 then (wordLanes 8 w).map (· % 64)
  else wordLanes 8 w

/-- R48: an element under an E8M0 scale. -/
def mxValue (f : Fmt) (scale v : Nat) : Fp :=
  if scale % 256 = 0xff then .nan else (f.value v).scale ((scale % 256 : Nat) - 127)

/-- R50: element `k` of a B4 word under its offset word and tensor scale. -/
def b4Value (offs : Nat) (t : Fp) (k v : Nat) : Fp × Flags :=
  mulFp ((fmtE2M1.value v).scale ((offs / 16 ^ (k / 4) % 16 : Nat) - 8)) t

/-- R378: the value of element `k`, whose code is `v`, of a floating format under a scale word and tensor scale. -/
def elemValue (fmt scale : Nat) (t : Fp) (k v : Nat) : Fp × Flags :=
  if fmt = 0xa then b4Value scale t k v
  else if 4 ≤ fmt ∧ fmt ≤ 8 then (mxValue (fmtOfCode fmt) scale v, 0)
  else ((fmtOfCode fmt).value v, 0)

/-- Elements `h·n` to `h·n + n − 1` of a word with their values. -/
def elemValues (fmt scale : Nat) (t : Fp) (w : Word) (h n : Nat) : List (Fp × Flags) :=
  (((elemCodes fmt w).drop (h * n)).take n).mapIdx fun k v => elemValue fmt scale t (h * n + k) v

/-! ### Dot products (R62, R64, R379, R384) -/

/-- The outputs of an accumulator row. -/
def Acc.outs (a : Acc) : List Nat := lanes 32 a.data.toNat 8

/-- An accumulator row of outputs. -/
def accOf (outs : List (Nat × Flags)) (int : Bool) (fl : Flags) : Acc :=
  let d := joinLanes 32 (outs.map (·.1))
  { data := BitVec.ofNat 256 d, int := int, flags := fl, res := BitVec.ofNat 32 (resBits d 16) }

/-- The flags of a list of results. -/
def flagsOf {α : Type} (l : List (α × Flags)) : Flags := l.foldl (fun f p => f ||| p.2) 0

/-- R62: one output of a floating firing: the exact sum of the accumulator and the products, rounded once. -/
def dotOutput (acc : Nat) (a w : List (Fp × Flags)) : Nat × Flags :=
  let ps := List.zipWith (fun x y => mulFp x.1 y.1) a w
  let (c, fl) := fmtF32.finish { mode := 0 } (sumFp 0 (fmtF32.value acc :: ps.map (·.1)))
  (c, fl ||| flagsOf ps ||| flagsOf a ||| flagsOf w)

/-- R64: an INT32 output: it wraps, and OF is raised outside the range. -/
def intOutput (acc : Nat) (add : Int) : Nat × Flags :=
  let v := sval 32 acc + add
  (wrapN 32 v, flagIf (v < -2 ^ 31 || 2 ^ 31 ≤ v) flOF)

/-- R378, R379: the outputs of a DOT or DOTS firing. -/
def RowCtx.dotOuts (cx : RowCtx) (scaled : Bool) : List (Nat × Flags) :=
  let b := cx.wbank
  let wf := b.fmt.toNat
  let af := cx.r.mod.toNat
  let (k, int) := (pairing wf af).getD (0, false)
  let h := if k = 8 ∧ wf = 8 then cx.r.aux.toNat % 2 else 0
  let sb := if scaled then cx.b.data.toNat else 0
  let a := elemValues af (if af = 0xa then sb % 2 ^ 16 else sb) (fmtF32.value (sb / 2 ^ 32)) cx.a.data 0 k
  (List.zip cx.accSeen.outs (b.elem.toList.zip b.rsc.toList)).map fun (acc, e, rsc) =>
    if int then
      intOutput acc ((List.zipWith (fun x y => sval 8 x * sval 8 y) ((wordLanes 8 cx.a.data).take k) (wordLanes 8 e)).sum)
    else dotOutput acc a (elemValues wf rsc.toNat (fmtF32.value b.t.toNat) e h k)

/-- R379, R380: an accumulator row enters its landing slot; flags that no source carried enter the latch. -/
def State.putAcc (s : State) (cx : RowCtx) (i : Instr) (a : Acc) (fresh : Flags) : State :=
  (s.addSlot cx.f (cx.slot i .dot 5 false (.acc a))).latch cx fresh

/-- R379: a DOT or DOTS firing. For the first-fault latch (R36, R103) its sources are A, and B of DOTS; the row that it
accumulates into is none (log 14). -/
def dotRow (i : Instr) (code : Nat) (r : Row) (scaled : Bool) (s : State) : Out :=
  s.fireRow i code r fun cx s =>
    if !cx.guard then s
    else
      let outs := cx.dotOuts scaled
      let carried := if scaled then cx.a.flags ||| cx.b.flags else cx.a.flags
      let row := cx.accSeen
      (s.noteWords cx code).putAcc cx i (accOf outs row.int (row.flags ||| flagsOf outs ||| carried))
        (newFlags (flagsOf outs) carried)

/-- R379, DOT. -/
def execRowDot (r : Row) (s : State) : Out := dotRow (.rowDot r) 0x4a r false s

/-- R379, DOTS: with the scale of B. -/
def execRowDots (r : Row) (s : State) : Out := dotRow (.rowDots r) 0x4b r true s

/-! ### Accumulators (R381 to R385) -/

/-- R382, ACRD: two outputs of a row as it has landed. -/
def execRowAcrd (r : Row) (s : State) : Out :=
  s.fireRow (.rowAcrd r) 0x4c r fun cx s =>
    let a := cx.landed (r.aux.toNat % 8)
    s.putVal cx (.rowAcrd r) 0x4c
      { FVal.of (BitVec.ofNat 64 (a.data.toNat / 2 ^ (64 * (r.aux.toNat / 8 % 4)))) with flags := a.flags } 0

/-- R383, ACZ: the row is cleared and typed. -/
def execRowAcz (r : Row) (s : State) : Out :=
  s.fireRow (.rowAcz r) 0x4d r fun cx s =>
    if !cx.guard then s else s.putAcc cx (.rowAcz r) { int := r.mod.toNat == 1 } 0

/-- R384: output `j` of a row after an ACADD. -/
def RowCtx.addend (cx : RowCtx) (j acc : Nat) : Nat × Flags :=
  let x := cx.r.aux.toNat
  let v := cx.a.data.toNat
  let bc := x / 4 % 2 = 1
  if !bc && j / 2 ≠ x % 4 then (acc, 0)
  else
    let l := if bc || j % 2 = 0 then v % 2 ^ 32 else v / 2 ^ 32
    if cx.accSeen.int then intOutput acc (sval 32 l)
    else fmtF32.finish { mode := 0 } (sumFp 0 [fmtF32.value acc, fmtF32.value l])

/-- R384, ACADD: lanes of A added to outputs of the row, which is no source for the first-fault latch (log 14). -/
def execRowAcadd (r : Row) (s : State) : Out :=
  s.fireRow (.rowAcadd r) 0x4e r fun cx s =>
    if !cx.guard then s
    else
      let row := cx.accSeen
      let outs := row.outs.mapIdx cx.addend
      s.putAcc cx (.rowAcadd r) (accOf outs row.int (row.flags ||| flagsOf outs ||| cx.a.flags))
        (newFlags (flagsOf outs) cx.a.flags)

/-- R385: the 32 values of a QNT's group, as FP32 codes. -/
def RowCtx.groupCodes (cx : RowCtx) : List Nat := (List.range 4).flatMap fun m => (cx.landed (cx.group + m)).outs

/-- The exponent of the leading bit of the largest magnitude; none when every value is zero. -/
def topOf : List Fp → Option Int
  | [] => none
  | .fin _ m e :: t => if m = 0 then topOf t else some (match topOf t with | some k => max k (topExp m e) | none => topExp m e)
  | _ :: t => topOf t

/-- R65: an element of a shared scale, clamped without a flag. -/
def qntElem (f : Fmt) (q : Rounding) (x : Fp) (k : Int) (rest : Bool) : Nat :=
  match x with
  | .fin n m e => (f.roundFin { q with ovf := .clamp, ftz := false } n m (e - k) rest).1
  | .inf n => f.signed n f.maxCode
  | .nan => 0

/-- R65: the scale, the elements from `first` and the flag of an MXFP8 block. -/
def qntMx (f : Fmt) (emax : Int) (vs : List Fp) (first : Nat) (q : Nat → Rounding) : Nat × List Nat × Flags :=
  if vs.any fun x => x.isNan || x.isInf then (0xff, List.replicate 8 0, flagIf (vs.any Fp.isInf) flNV)
  else match topOf vs with
    | none => (0, List.replicate 8 0, 0)
    | some t =>
      let x := max (t - emax) (-127)
      ((x + 127).toNat, ((vs.drop first).take 8).mapIdx (fun k v => qntElem f (q k) v x false), 0)

/-- R66: v / T with, maybe, a rest below its last bit. -/
def b4Quotient : Fp → Fp → Fp × Bool
  | .fin n m e, .fin k d f => if d = 0 then (.nan, false) else (.fin (n != k) (m * 2 ^ 64 / d) (e - f - 64), m * 2 ^ 64 % d ≠ 0)
  | .inf n, .fin k _ _ => (.inf (n != k), false)
  | _, _ => (.nan, false)

/-- R66: the offset, elements and flag of one group of four; `base` is the number of its first element. The offset is a free
value with a NaN, and 15 with an infinite value (log 17). -/
def qntGroup (codes : List Nat) (t : Nat) (base : Nat) (q : Nat → Rounding) : Nat × List Nat × Flags :=
  let us := codes.map fun v => b4Quotient (fmtF32.value v) (fmtF32.value t)
  if us.any (·.1.isNan) then
    ((Config.b4NanOffset (codes.map (BitVec.ofNat 32)) (BitVec.ofNat 32 t)).toNat, List.replicate 4 0, flNV)
  else
    let big := us.any (·.1.isInf)
    let e : Int := if big then 15 else match topOf (us.map (·.1)) with
      | none => 0
      | some k => max 0 (min 15 (k - 2 + 8))
    (e.toNat, us.mapIdx (fun k u => qntElem fmtE2M1 (q (base + k)) u.1 (e - 8) u.2), flagIf big flNV)

/-- R66: the offset word, the elements and the flag of sixteen values. -/
def qntB4 (vs : List Nat) (t : Nat) (q : Nat → Rounding) : Nat × List Nat × Flags :=
  let unusable : Bool := match fmtF32.value t with | .fin _ m _ => m == 0 | _ => true
  if unusable then (0, List.replicate 16 0, flNV)
  else
    let gs := (List.range 4).map fun g => qntGroup ((vs.drop (4 * g)).take 4) t (4 * g) q
    (joinLanes 4 (gs.map (·.1)), gs.flatMap (·.2.1), gs.foldl (fun f g => f ||| g.2.2) 0)

/-- R385, QNT. The rows that it reads are sources for the first-fault latch (log 14). -/
def execRowQnt (r : Row) (s : State) : Out :=
  s.fireRow (.rowQnt r) 0x4f r fun cx s =>
    let ctl := cx.a.data.toNat
    let q := ctl / 2 % 4
    let sc := ctl / 8 % 2 = 1
    let b4 := r.mod.toNat = 0xa
    let vs := cx.groupCodes
    let (scale, els, nv) :=
      if b4 then qntB4 ((vs.drop (16 * (q % 2))).take 16) (ctl / 2 ^ 32) cx.roundingAt
      else
        let f := fmtOfCode r.mod.toNat
        qntMx f (if r.mod.toNat = 4 then 8 else 15) (vs.map fmtF32.value) (8 * q) cx.roundingAt
    let v := if sc then scale else joinLanes (if b4 then 4 else 8) els
    let fl := (List.range 4).foldl (fun f m => f ||| (cx.landed (cx.group + m)).flags) cx.a.flags
    (s.putVal cx (.rowQnt r) 0x4f { FVal.of (BitVec.ofNat 64 v) with p := cx.a.p, flags := fl ||| nv }
      (newFlags nv fl)).stepXs cx (if sc then 0 else r.aux.toNat % 8) (if b4 then 16 else 8)

end Sys2Proof.Machine
end

