-- ==== Sys2Proof/Machine/Regions.lean ====
section
/-! DEFINITION. A region cycle of a cell (R23, R33, R38), the landings at its end (R29 to R31, R37, R85) and the
completion of a region (R24). -/

namespace Sys2Proof.Machine

/-! ### The firings of a cycle (R23) -/

/-- A firing that R23 names: who fires, the opcode, the fields and the row. -/
structure Shot where
  f : Firing
  code : Nat
  r : Row
  i : Instr
deriving DecidableEq, Repr

/-- What a firing sees. -/
def State.shotCtx (s : State) (h : Shot) : RowCtx := s.ctxOf h.f h.r

/-- R23: a region that issues in this cycle. -/
def Region.issuing (r : Region) : Bool := r.state == .running && r.delay == 0 && r.rc.toNat < r.endAt

/-- R23: the row of a PE in a slot. -/
def PE.rowAt (e : PE) (slot : Nat) : Option (Nat × Row × Instr) :=
  e.rows.findSome? fun w => match decodeRow w with
    | some i => match i.rowParts with
      | some (code, r) => if r.slot.toNat = slot then some (code, r, i) else none
      | none => none
    | none => none

/-- R23: the firing of PE p of region slot k, or whether a row of it does not fire. -/
def CellSt.shotOf (x : CellSt) (c : Nat) (k p : Fin 4) : Option Shot × Bool :=
  let r := x.region[k.val]
  if !(r.issuing && r.peset.getLsbD p.val) then (none, false)
  else match (x.pe[p.val]).rowAt (r.rc.toNat % r.ii.toNat) with
    | none => (none, false)
    | some (code, row, i) =>
      let w := r.rc.toNat / r.ii.toNat
      let g := row.stage.toNat
      if g ≤ w ∧ w - g < r.rn.toNat then
        (some ⟨{ cell := c, k := k, pe := p, inst := BitVec.ofNat 48 (w - g), rb := rbOf w, rcyc := r.rc }, code, row, i⟩, false)
      else (none, true)

/-- The PEs and region slots of a cell, PE by PE. -/
def pePairs : List (Fin 4 × Fin 4) := (List.finRange 4).flatMap fun p => (List.finRange 4).map fun k => (k, p)

/-- R23: the firings of a cell in this cycle, in ascending PE order. -/
def State.shots (s : State) (c : Nat) : List Shot :=
  pePairs.filterMap fun (k, p) => ((s.cell c).shotOf c k p).1

/-- R371: the banks of a firing, one for each bank word. -/
def State.shotBanks (s : State) (h : Shot) : List Nat := ((s.shotCtx h).words h.code).map bankOf

/-- R111: the banks that the fabric takes in this cycle. -/
def State.fabricBanks (s : State) (c : Nat) : List Nat :=
  if (s.cell c).restart then [] else (s.shots c).flatMap s.shotBanks

/-! ### Stops at a cycle (R33, R38, R163) -/

/-- R38, R163: whether a region stops HELD in this cycle: at a boundary, where a failure of its own that falls due goes first. -/
def CellSt.meetsHold (x : CellSt) (cycle : Nat) (r : Region) : Bool :=
  x.stop.any (·.cycle ≤ cycle) && r.state == .running && r.delay == 0 && r.cause == 0 &&
    (r.rc.toNat % r.ii.toNat == 0 || r.limit ≤ r.rc.toNat)

/-- R38, R104, R167: the region stops HELD. -/
def State.holdRegion (s : State) (c : Nat) (k : Fin 4) : State :=
  let x := s.cell c
  if x.meetsHold s.sys.cycle x.region[k.val] then
    let t := (x.stop.map (·.cycle)).getD s.sys.cycle
    s.modRegion c k fun r => { r.withRb with state := .held, stopofs := s.sys.cycle - t }
  else s

/-- R38: every region of the cell that meets the stop here. -/
def State.holdRegions (s : State) (c : Nat) : State := (List.finRange 4).foldl (fun s k => s.holdRegion c k) s

/-- R370: a region with a firing outside the scratchpad or out of alignment stops at once. -/
def State.failRange (s : State) (c : Nat) (k : Fin 4) : State :=
  match (s.shots c).find? fun h => h.f.k = k ∧ ((s.shotCtx h).badAddress h.code).isSome with
  | some h => s.rowFatal (s.shotCtx h) h.i cSpadRange (BitVec.ofInt 64 (((s.shotCtx h).badAddress h.code).getD 0)) 0
  | none => s

/-- R379, R385: a region with a firing that the types refuse stops at once. -/
def State.failType (s : State) (c : Nat) (k : Fin 4) : State :=
  match (s.shots c).find? fun h => h.f.k = k ∧ !(s.shotCtx h).typeOk h.code with
  | some h => s.rowFatal (s.shotCtx h) h.i cAccType 0 0
  | none => s

/-- R215: the second row of a BANK_CLASH. -/
def Shot.info (h : Shot) : Word :=
  BitVec.ofNat 64 (h.f.pe.val + h.r.slot.toNat * 2 ^ 2 + h.r.stage.toNat * 2 ^ 7 + h.f.inst.toNat * 2 ^ 14)

/-- R33, R371: one clash of this cycle stops every region with a row in a bank that two words or rows reach. -/
def State.failClash (s : State) (c : Nat) : State :=
  let touches := (s.shots c).flatMap fun h => (s.shotBanks h).map fun b => (b, h)
  let clashing := touches.filter fun (b, _) => 2 ≤ (touches.filter fun t => t.1 = b).length
  match clashing with
  | [] => s
  | (b, h) :: _ =>
    let second := ((clashing.find? fun t => t.1 = b ∧ t.2 ≠ h).map (·.2)).getD h
    let s := s.rowFatal (s.shotCtx h) h.i cBankClash 0 second.info
    (List.finRange 4).foldl (fun s k =>
      if k ≠ h.f.k ∧ clashing.any (fun t => t.2.f.k = k) then s.failRegion c k cBankClash else s) s

/-! ### The region cycle -/

/-- R91, R113: the firing of a region that the record of this cycle names when checks fail: an uncorrectable word first. -/
def State.leadFailure (s : State) (hs : List Shot) : Option (Fin 4) :=
  ((hs.find? fun h => ((s.shotCtx h).eccAt h.code).isSome).or
    (hs.find? fun h => ((s.shotCtx h).badRead h.code).isSome)).map (·.f.pe)

/-- A region's firings of this cycle as steps still to make. -/
def State.fireTasks (s : State) (c : Nat) : List Task :=
  let hs := s.shots c
  hs.map fun h =>
    let lead := s.leadFailure (hs.filter fun g => g.f.k = h.f.k)
    .fire { h.f with quiet := match lead with | some p => p ≠ h.f.pe | none => false } h.i

/-- R23, R24, R102: the region cycle that has issued is counted, with the events of R243. -/
def State.countRegion (s : State) (c : Nat) (k : Fin 4) : State :=
  let x := s.cell c
  if (x.region[k.val]).issuing then
    let off := ((List.finRange 4).filter fun p => (x.shotOf c k p).2).length
    let banks := (((s.shots c).filter fun h => h.f.k = k).flatMap s.shotBanks).length
    s.modCell c fun x =>
      let r := x.region[k.val]
      ((x.setRegion k { r.withRb with rc := r.rc + 1 }).ev 0x11 (some k) off).ev 0x13 (some k) banks
  else s

/-- R23, R33, R38, R387: a region cycle of a cell: its stops, then its firings in ascending PE order. -/
def execRegionCycle (c : Nat) (s : State) : Out :=
  .next <|
    if (s.cell c).restart then s else
    let s := s.holdRegions c
    let s := (List.finRange 4).foldl (fun s k => s.failRange c k) s
    let s := s.failClash c
    let s := (List.finRange 4).foldl (fun s k => s.failType c k) s
    let s := s.holdRegions c
    let ts := s.fireTasks c
    let s := ((List.finRange 4).foldl (fun s k => s.countRegion c k) s).modCell c fun x => { x with fired := true }
    { s with sched := { s.sched with tasks := ts ++ s.sched.tasks } }

/-! ### Landings (R29 to R31, R37, R68, R85) -/

/-- R69, R85: the prediction class of a row; none is checker-computed or constant. -/
def rowClass (code : Nat) (int : Bool) : Option Nat :=
  if code = 0x01 then some 0
  else if code = 0x02 ∨ code = 0x10 then some 1
  else if code = 0x05 ∨ code = 0x06 then some 2
  else if code = 0x03 ∨ code = 0x04 then some 3
  else if (0x07 ≤ code ∧ code ≤ 0x0a) ∨ (0x1c ≤ code ∧ code ≤ 0x1e) then some 5
  else if 0x0b ≤ code ∧ code ≤ 0x0d then some 6
  else if [0x0e, 0x0f, 0x12, 0x13, 0x25, 0x26, 0x27, 0x2b, 0x44, 0x4c].contains code then some 7
  else if [0x14, 0x15, 0x16, 0x35].contains code then some 8
  else if (0x20 ≤ code ∧ code ≤ 0x24) ∨ code = 0x29 ∨ code = 0x2a ∨ code = 0x4f then some 0xa
  else if code = 0x4e then some (if int then 0 else 0xa)
  else if 0x2c ≤ code ∧ code ≤ 0x2f then some 0xb
  else if code = 0x4a ∨ code = 0x4b then some 0xc
  else none

/-- R68, R366, R380, R382, R385: the width in bits of a result's checked elements; that of UNPK is its source width, that of ACRD
32 and that of SHFL 64 (log 114). -/
def rowElem (code : Nat) (r : Row) : Nat :=
  if code = 0x4a ∨ code = 0x4b ∨ code = 0x4c ∨ code = 0x4e then 32
  else if (0x07 ≤ code ∧ code ≤ 0x0a) ∨ (0x12 ≤ code ∧ code ≤ 0x14) then 64
  else if code ≤ 0x18 ∨ code = 0x44 then max 16 (rowWidth r)
  else if code = 0x4f then 16
  else if 0x20 ≤ code ∧ code ≤ 0x2f then (if r.mod.toNat = 0xb then 32 else 16)
  else 64

/-- The data of a landing slot's payload, and whether it is an INT32 accumulator row. -/
def Payload.bits : Payload → Nat × Bool
  | .reg v => (v.data.toNat, false)
  | .acc a => (a.data.toNat, a.int)
  | .bank _ => (0, false)

/-- R37, R68, R85: the mismatch of an injected residue, if the armed injection takes this landing. -/
def CellSt.landInject (x : CellSt) (p : Fin 4) (l : LandSlot) : Option ResBad :=
  let e := x.seq.errinj
  match rowOf (l.row.toNat / 2 ^ 44 % 256) (rowFields l.row.toNat) with
  | none => none
  | some i => match i.rowParts with
    | none => none
    | some (code, r) =>
      let (d, int) := l.pay.bits
      if e.arm && !e.seq && e.pe.toNat == p.val && rowClass code int == some e.cls.toNat then
        let n := rowElem code r / 16
        let q := e.lane.toNat / n * n
        let found := d / 65536 ^ q % 65536 ^ n % 3
        some ⟨Fin.ofNat 16 q, BitVec.ofNat 2 ((found + 1) % 3), BitVec.ofNat 2 found⟩
      else none

/-- R29 to R31, R68, R92: a result is written where its slot says, with residues formed from its data. -/
def PE.land (e : PE) (l : LandSlot) : PE :=
  let d := l.dest.toNat
  match l.pay with
  | .reg v =>
    let v := { v with res := resOf v.data }
    let e := { e with bus := v }
    if d < 64 then { e with v := e.v.set (Fin.ofNat 64 d).val v (Fin.ofNat 64 d).isLt } else e
  | .acc a =>
    let a := { a with res := BitVec.ofNat 32 (resBits a.data.toNat 16) }
    { e with acc := e.acc.set (Fin.ofNat 8 d).val a (Fin.ofNat 8 d).isLt }
  | .bank w => { e with bank := e.bank.set (Fin.ofNat 2 (d - 72)).val w (Fin.ofNat 2 (d - 72)).isLt }

/-- R37, R215: the record of a landing that its check fails. -/
def State.landRecord (s : State) (c : Nat) (p : Fin 4) (l : LandSlot) (b : ResBad) : Record :=
  let r := (s.cell c).region[l.k.val]
  { (s.cellRecord c cMcResidue 2) with
    reg := true, rslot := BitVec.ofNat 2 l.k.val, pe := BitVec.ofNat 2 p.val, slot := l.slot, stage := l.stage,
    inst := l.inst, rcyc := BitVec.ofNat 64 ((l.inst.toNat + l.stage.toNat) * r.ii.toNat + l.slot.toNat),
    pc := r.launchPc, opword := l.row }.withBad (some b)

/-- R37, R170: one landing: the result stands, or its check fails and its slot, if it has one, stays BAD. -/
def State.landOne (s : State) (c : Nat) (p : Fin 4) (l : LandSlot) : State × List LandSlot :=
  let inject := (s.cell c).landInject p l
  match l.pay.bad.or inject with
  | none => (s.modCell c fun x => x.setPe p ((x.pe[p.val]).land l), [])
  | some b =>
    let s := s.report (s.cell c).seq.id.vfid.toNat (s.landRecord c p l b)
    let s := (s.modCell c fun x => (if inject.isSome then x.disarm else x).countRes).modRegion c l.k fun r => r.halt cMcResidue
    (s, if l.unit = .alu ∨ l.unit = .lut then [] else [{ l with bad := true, remain := 0 }])

/-- R29, R94: the landing slots of a PE at the end of a region cycle, in issue order. -/
def State.landFrom (s : State) (c : Nat) (p : Fin 4) : List LandSlot → State × List LandSlot
  | [] => (s, [])
  | l :: t =>
    if l.bad then
      let (s, k) := s.landFrom c p t
      (s, l :: k)
    else if l.remain ≤ 1 then
      let (s, j) := s.landOne c p l
      let (s, k) := s.landFrom c p t
      (s, j ++ k)
    else
      let (s, k) := s.landFrom c p t
      (s, { l with remain := l.remain - 1 } :: k)

/-- Whether a PE belongs to a region whose cycles count. -/
def CellSt.running (x : CellSt) (p : Fin 4) : Bool :=
  (List.finRange 4).any fun k =>
    let r := x.region[k.val]
    r.state == .running && r.delay == 0 && r.peset.getLsbD p.val

/-- The landings of one PE. -/
def State.landPe (s : State) (c : Nat) (p : Fin 4) : State :=
  if (s.cell c).running p then
    let (s, k) := s.landFrom c p ((s.cell c).pe[p.val]).slots
    s.modCell c fun x => let e := x.pe[p.val]; x.setPe p { e with slots := k }
  else s

/-- R29, R31: the landings of a cell at the end of a cycle, PE by PE. -/
def execRowResultLanding (c : Nat) (s : State) : Out :=
  .next (if (s.cell c).restart then s else (List.finRange 4).foldl (fun s p => s.landPe c p) s)

/-! ### Completion (R24, R104) -/

/-- R24: whether every landing slot of a region's PEs has landed. -/
def CellSt.allLanded (x : CellSt) (r : Region) : Bool := (peList r.peset).all fun p => (x.pe[p.val]).slots.all (·.bad)

/-- R24, R102, R104: the slot's state as its region completes. -/
def Region.completed (r : Region) : Region :=
  let ok := r.cause = 0
  let b := r.withRb
  { b with state := if ok then .done else .failed, cut := ok && r.rn != 0 && r.rc.toNat < r.limit, stopRc := none,
           relAt := none }

/-- R147: what a region's release waits for is left: a signal-store or write that its cell had under way when the release began. -/
def State.relWaits (s : State) (c scope m : Nat) : Bool :=
  s.mem.signals.any (fun g => g.src = c && g.id ≤ m && (scope != 1 || g.dst = c)) ||
    scope != 1 && s.mem.reqs.any fun (id, r) => id ≤ m && r.unaccepted c

/-- R146, R147, R152: the release that a region's arrival at its phaser is. At block scope or wider the cell's buffer drains as it
begins, and it is complete once what was under way then is accepted. -/
def State.regionRelease (s : State) (c : Nat) (k : Fin 4) : Bool × State :=
  let r := (s.cell c).region[k.val]
  match (if r.cause = 0 then r.ph else none) with
  | none => (true, s)
  | some n =>
    let scope := (s.phaser n.toNat).order
    match r.relAt with
    | some m => (!s.relWaits c scope m, s)
    | none =>
      let s := if scope = 1 then s else s.drainAll c
      let m := s.nextId
      if s.relWaits c scope m then
        (false, ({ s with mem := { s.mem with nextReq := m + 1 } }).modRegion c k fun r => { r with relAt := some m })
      else (true, s)

/-- R24: the region's arrival at the phaser it names, made on completion as DONE. -/
def State.regionArrives (s : State) (r : Region) : State :=
  match r.ph with
  | some n => if r.cause = 0 then s.setPhaser n.toNat (s.phaser n.toNat).arrive else s
  | none => s

/-- R24, R146: a region whose issue has ended and whose slots have landed completes, with the release that its arrival is
(log 107). -/
def execRegionCompletion (c : Nat) (k : Fin 4) (s : State) : Out :=
  .next <|
    let x := s.cell c
    let r := x.region[k.val]
    if r.state ≠ .running ∨ x.restart then s
    else if r.delay ≠ 0 then s.modRegion c k fun r => { r with delay := r.delay - 1 }
    else if r.endAt ≤ r.rc.toNat ∧ x.allLanded r then
      match s.regionRelease c k with
      | (false, s) => s
      | (true, s) => ((s.modRegion c k Region.completed).regionArrives r).emit c 0x7
          (k.val + (r.completed.state.code) * 4 + (r.rc.toNat % 2 ^ 40) * 2 ^ 5)
    else s

end Sys2Proof.Machine
end

