-- ==== Sys2Proof/Machine/Frames.lean ====
section
/-! DEFINITION. The frames that a stopped cell leaves and is resumed from (R164 to R173, R301, R316). -/

namespace Sys2Proof.Machine

/-- A word of a frame, and whether its granule of the save area is poisoned (R170). -/
abbrev FWord := Word × Bool

/-- Words of a frame that fail no check. -/
def plainWords (ws : List Word) : List FWord := ws.map fun w => (w, false)

/-- A number as a word of a frame. -/
def numWord (n : Nat) : Word := BitVec.ofNat 64 n

/-- R170: a general register or operand-log source. -/
def GReg.saved (r : GReg) : FWord := (r.data, (srcBad r.data r.res).isSome)

/-- R170: residues that never pass stand in for those of a poisoned granule. -/
def GReg.restored (w : FWord) : GReg := if w.2 then { data := w.1, res := 0xff } else GReg.of w.1

/-! ### Saving the cell (R164 to R166) -/

/-- R165: an operand-log entry. -/
def LogEntry.saved (e : LogEntry) (age : Nat) : List FWord :=
  plainWords [numWord (1 + age * 2 + e.remain * 2 ^ 4 + e.dest.toNat * 2 ^ 9 + e.fault.toNat * 2 ^ 16 + e.word.toNat * 2 ^ 32),
    e.pcw.setWidth 64] ++ [e.srcA.saved, e.srcB.saved, e.srcC.saved]

/-- R165: the operand log, eight entries. -/
def logSaved (l : List LogEntry) : List FWord :=
  ((l.mapIdx fun j e => e.saved j).flatten ++ plainWords (List.replicate 40 0)).take 40

/-- R166, R199: a copy command. -/
def CopyCmd.saved (k : CopyCmd) : List Word :=
  [k.gaddr, numWord (k.soff + k.run * 2 ^ 32), numWord (k.nrun + k.gstride.toNat * 2 ^ 32),
   numWord (k.sstride.toNat + k.cwoff * 2 ^ 32), numWord (k.cval.toNat + k.op.val * 2 ^ 56 + bit k.dir * 2 ^ 60), k.pattern,
   numWord k.progress, 1]

/-- R166, R208: a link operation. -/
def LinkCmd.saved (k : LinkCmd) : List Word :=
  [numWord (k.group.toNat + k.tag.toNat * 2 ^ 16 + k.round.toNat * 2 ^ 32),
   numWord (k.port.val + k.rport.val * 2 ^ 8 + k.m * 2 ^ 16 + k.pos * 2 ^ 24 + k.dcell.toNat * 2 ^ 32
     + (k.op.val + 4 * bit k.bf16) * 2 ^ 48 + k.step * 2 ^ 56),
   numWord (k.boff + k.len * 2 ^ 32), numWord (k.woff + k.cwoff * 2 ^ 32), k.cval.setWidth 64,
   numWord (bit k.sent + 2 * bit k.rcvd), numWord k.delivered, 2]

/-- R166: the engine area, eight records. -/
def CellSt.enginesSaved (x : CellSt) : List Word :=
  (x.copyq.flatMap CopyCmd.saved ++ x.linkq.flatMap LinkCmd.saved ++ List.replicate 64 0).take 64

/-- R104, R164: a slot that the frame holds. -/
def Region.present (r : Region) : Bool := r.state != .empty

/-- R164: the region map. -/
def CellSt.regionMap (x : CellSt) : Word :=
  numWord ((List.finRange 4).map fun k =>
    let r := x.region[k.val]
    if r.present then (1 + r.peset.toNat * 16) * 256 ^ k.val else 0).sum

/-- R164: the part of the frame before the region frames, 0x700 bytes. -/
def CellSt.headSaved (x : CellSt) (code : Cause) (q : BitVec 8) (image : Nat) : List FWord :=
  let s := x.seq
  let loops := s.loops.toList.flatMap fun l => [l.lb.setWidth 64, l.le.setWidth 64, l.lc]
  plainWords [numWord (code.toNat + 0x100), numWord (s.id.vfid.toNat + q.toNat * 2 ^ 16), x.regionMap, numWord image, 0, 0, 0, 0]
  ++ (List.finRange 32).map (fun r => (x.greg r).saved)
  ++ plainWords ([s.p.setWidth 64 ||| 1, s.pc.setWidth 64, s.npc.setWidth 64, 0] ++ loops
      ++ [x.status, s.trap.vec.setWidth 64, s.trap.pc.setWidth 64, s.trap.npc.setWidth 64, s.trap.causeWord, s.trap.info,
          s.fp.fflags, s.fp.rmode, s.traceCtl, s.errinj.word])
  ++ logSaved s.log ++ plainWords (x.enginesSaved ++ List.replicate 54 0)

/-! ### Saving a region (R167 to R169) -/

/-- R102: RCFG. -/
def Region.cfgWord (r : Region) : Word :=
  numWord (bit r.ftz + r.ten.toNat * 2 ^ 4 + r.ii.toNat * 2 ^ 8 + r.s.toNat * 2 ^ 16 + r.peset.toNat * 2 ^ 24
    + bit r.conf * 2 ^ 31)

/-- R103: RFFL, low word first. -/
def Region.fflWords (r : Region) : List Word :=
  match r.ffl with
  | none => [0, 0]
  | some f => [f.inst.setWidth 64,
      numWord (f.slot.toNat + f.stage.toNat * 2 ^ 7 + f.pe.val * 2 ^ 14 + f.flags.toNat * 2 ^ 16 + 2 ^ 63)]

/-- R104, R167: RSTAT, with HELD as RUNNING. -/
def Region.statWord (r : Region) : Word :=
  numWord ((if r.state = .held then 2 else r.state.code) + bit r.cut * 8 + r.cause.toNat * 256)

/-- R167: the header of a region frame. -/
def Region.headSaved (r : Region) (k : Fin 4) : List Word :=
  [r.rc, r.rn.setWidth 64, r.cfgWord, r.rimg.setWidth 64] ++ r.fflWords ++
  [r.statWord, numWord (r.rb.toNat + r.sink.toNat * 2 ^ 8 + (match r.ph with | some n => n.toNat * 2 ^ 16 + 2 ^ 32 | none => 0)
     + k.val * 2 ^ 33 + r.stopofs % 32 * 2 ^ 35)]

/-- Words of byte numbers, eight to a word. -/
def tagWords (ts : List Nat) (n : Nat) : List Word :=
  (List.range n).map fun j => numWord ((List.range 8).map fun i => ts.getD (8 * j + i) 0 % 256 * 256 ^ i).sum

/-- R170: a register value. -/
def FVal.saved (v : FVal) : FWord := (v.data, (srcBad v.data v.res).isSome)

/-- R99: an address counter. -/
def AddrCtr.saved (a : AddrCtr) : List Word :=
  [numWord (a.base.toNat + a.n0.toNat * 2 ^ 32), numWord (a.s0.toNat + a.s1.toNat * 2 ^ 32)]

/-- R91, R95: an accumulator's check fails. -/
def Acc.off (a : Acc) : Bool := (firstBad a.data.toNat a.res.toNat 16 0).isSome

/-- R95, R170: an accumulator's data. -/
def Acc.saved (a : Acc) : List FWord := (List.range 4).map fun j => (numWord (a.data.toNat / 2 ^ (64 * j)), a.off)

/-- R168: an accumulator's tag. -/
def Acc.tag (a : Acc) : Nat := bit a.int * 16 + a.flags.toNat

/-- R168, R170: a weight-bank image, whose element words are checked. -/
def WBank.saved (b : WBank) : List FWord :=
  b.elem.toList.mapIdx (fun j w => (w, (srcBad w (BitVec.ofNat 8 (b.res.toNat / 256 ^ j))).isSome)) ++
    plainWords [(b.item 8).getD 0, (b.item 9).getD 0, numWord (b.t.toNat + b.fmt.toNat * 2 ^ 32), 0]

/-- R93: the code and the latency of a unit that landing slots name. -/
def unitCode : FUnit → Nat × Nat
  | .mem => (0, 3) | .fvs => (1, 2) | .fvl => (2, 4) | .xc => (3, 6) | .dot => (4, 5) | .acr => (5, 6) | .wld => (6, 8)
  | .alu => (7, 1) | .lut => (7, 1)

/-- R93: the unit of a code. -/
def unitOf (n : Nat) : FUnit :=
  match n with
  | 0 => .mem | 1 => .fvs | 2 => .fvl | 3 => .xc | 4 => .dot | 5 => .acr | _ => .wld

/-- R169: the payload of a landing slot. -/
def Payload.saved : Payload → List FWord
  | .reg v => [v.saved, (numWord v.tag, false)]
  | .acc a => a.saved ++ [(numWord a.tag, false)]
  | .bank w => w.saved

/-- R169: a landing slot's table entry; its age follows from its stamp and the region cycle. -/
def LandSlot.saved (l : LandSlot) (ii rc payoff : Nat) : Word :=
  let age := rc - ((l.inst.toNat + l.stage.toNat) * ii + l.slot.toNat)
  numWord (1 + (unitCode l.unit).1 * 2 + age % 64 * 2 ^ 4 + bit l.bad * 2 ^ 10 + l.dest.toNat * 2 ^ 11 + l.slot.toNat * 2 ^ 18
    + l.stage.toNat * 2 ^ 23 + payoff * 2 ^ 32)

/-- R169: the table entries and the payloads of a PE's slots, from a payload offset on. -/
def slotsSaved (ii rc : Nat) : Nat → List LandSlot → List Word × List FWord
  | _, [] => ([], [])
  | off, l :: t =>
    let p := l.pay.saved
    let (ws, ps) := slotsSaved ii rc (off + p.length) t
    (l.saved ii rc off :: ws, p ++ ps)

/-- R168: a PE section, 192 words. -/
def PE.saved (e : PE) (ii rc : Nat) : List FWord :=
  let (tab, pays) := slotsSaved ii rc 0 e.slots
  e.v.toList.map FVal.saved ++ plainWords (tagWords (e.v.toList.map FVal.tag) 8) ++ [e.bus.saved, (numWord e.bus.tag, false)]
  ++ plainWords (e.ac.toList.flatMap AddrCtr.saved ++ [numWord (e.xs.toNat + e.ff.toNat * 2 ^ 32 + bit e.act * 2 ^ 48), 0])
  ++ e.acc.toList.flatMap Acc.saved ++ plainWords (tagWords (e.acc.toList.map Acc.tag) 1 ++ [0]) ++ e.bank.toList.flatMap WBank.saved
  ++ plainWords ((tab ++ List.replicate 16 0).take 16) ++ (pays ++ plainWords (List.replicate 34 0)).take 34

/-- R167: the frame of one slot. -/
def CellSt.regionSaved (x : CellSt) (k : Fin 4) : List FWord :=
  let r := x.region[k.val]
  if r.present then plainWords (r.headSaved k) ++ (peList r.peset).flatMap fun p => (x.pe[p.val]).saved r.ii.toNat r.rc.toNat
  else []

/-- R164: the cell frame, as far as it is in use. -/
def CellSt.frame (x : CellSt) (code : Cause) (q : BitVec 8) (image : Nat) : List FWord :=
  x.headSaved code q image ++ (List.finRange 4).flatMap x.regionSaved

/-- How many of the values saved in these words fail their check. -/
def failing (ws : List FWord) : Nat := ws.countP (·.2)

/-- R170: how many checks a landing-slot payload fails. -/
def Payload.failing : Payload → Nat
  | .acc a => bit a.off
  | p => Machine.failing p.saved

/-- R170: how many checks the save of a PE fails. -/
def PE.failing (e : PE) : Nat :=
  Machine.failing (e.v.toList.map FVal.saved ++ [e.bus.saved] ++ e.bank.toList.flatMap WBank.saved)
    + e.acc.toList.countP Acc.off + (e.slots.map fun l => l.pay.failing).sum

/-- R170, R244: the residue mismatches that the save of a cell finds. -/
def CellSt.failing (x : CellSt) : Nat :=
  Machine.failing (x.headSaved 0 0 0) + ((List.finRange 4).map fun k =>
    let r := x.region[k.val]
    if r.present then ((peList r.peset).map fun p => (x.pe[p.val]).failing).sum else 0).sum

/-- R244: residue mismatches are counted. -/
def CellSt.countSome (x : CellSt) : Nat → CellSt
  | 0 => x
  | n + 1 => x.countRes.countSome n

/-- R38: how many cycles a region has gone on landing with its issue ended. -/
def CellSt.drained (x : CellSt) (r : Region) : Nat :=
  ((peList r.peset).flatMap fun p => (x.pe[p.val]).slots.map fun l =>
    let issue := (l.inst.toNat + l.stage.toNat) * r.ii.toNat + l.slot.toNat
    if l.bad then 0 else (unitCode l.unit).2 - l.remain - (r.rc.toNat - issue)).foldl max 0

/-- R113, R244: a frame save reads every word: those with one bit in error are corrected and counted. -/
def CellSt.noteAll (x : CellSt) : CellSt := x.ecc.foldl (fun x e => x.spNote (8 * e.1)) x

/-- R113: the numbers of the uncorrectable words. -/
def CellSt.badWords (x : CellSt) : List Nat := x.ecc.filterMap fun e => if e.2 then some e.1 else none

/-- What the stop of a cell notes of it. -/
def CellSt.note (x : CellSt) (rank : Nat) : StopNote :=
  { rank := rank, pc := x.seq.pc, npc := x.seq.npc, slot := x.seq.slot, trapPc := x.seq.trap.pc, trapNpc := x.seq.trap.npc,
    trap := x.seq.trap.kind, log := x.seq.log, regions := x.region.toList.map fun r => ⟨r.rc, r.stopRc, x.drained r, r.launchPc⟩,
    words := x.badWords }

/-- The note of a rank. -/
def Gang.noteOf (g : Gang) (rank : Nat) : Option StopNote := g.notes.find? (·.rank = rank)

/-! ### The save area (R162, R172) -/

/-- R162: words written through path 0x3, a granule at a time; one with a value that failed its check is poisoned. -/
def State.writeWords (s : State) (a : Nat) : Nat → List FWord → State
  | 0, _ => s
  | f + 1, ws =>
    if ws = [] then s
    else
      let g := ws.take 8
      let s := s.store64 a (wordsNat (g.map (·.1))) none
      let s := if g.any (·.2) then s.poisonGrans (a / 128) (granOf (a % 128) 64) else s
      s.writeWords (a + 64) f (ws.drop 8)

/-- R170: whether the granule of the save area at an address is poisoned. -/
def State.granBad (s : State) (a : Nat) : Bool := s.badGrans { addr := a } &&& granOf (a % 128) 8 != 0

/-- R173: words read back. -/
def State.readFrame (s : State) (a : Nat) : Nat → List FWord
  | 0 => []
  | n + 1 => (s.dpaWord a, s.granBad a) :: s.readFrame (a + 8) n

/-- Where a gang's frames and scratchpad images stand; the spec leaves their places in the save area open (log 31). -/
def Queue.frames (q : Queue) : Nat := (q.savearea + 8191) / 8192 * 8192
def Gang.frameAt (g : Gang) (q : Queue) (rank : Nat) : Nat := q.frames + (g.area * 25600 + rank) * 8192
def Gang.imageAt (g : Gang) (q : Queue) (rank : Nat) : Nat := q.frames + 2 ^ 32 + (g.area * 25600 + rank) * 2 ^ 19

/-- R113, R172: the words of a scratchpad image, from an offset on. -/
def CellSt.imageWords (x : CellSt) (off : Nat) : Nat → List FWord
  | 0 => []
  | n + 1 => (x.spWord off, x.spBad off) :: x.imageWords (off + 8) n

/-- R172: the scratchpad image of a cell is written. -/
def State.writeImage (s : State) (c a : Nat) : State :=
  (s.modCell c CellSt.noteAll).writeWords a 8192 ((s.cell c).imageWords 0 65536)

/-- R113: whether a word of a poisoned granule is the uncorrectable one that the save found; all eight are where it found none
(log 43). -/
def wordLost (found : List Nat) (w : Nat) : Bool := found.contains w || !found.any fun v => v / 8 = w / 8

/-- R113, R172: the words of an image written back; what could not be corrected has uncorrectable check bits again. -/
def CellSt.takeImage (x : CellSt) (found : List Nat) (off : Nat) : List FWord → CellSt
  | [] => x
  | (w, bad) :: t =>
    let x := { x with spad := mwrite x.spad off (leBytes w.toNat 8) }
    CellSt.takeImage (if bad && wordLost found (off / 8) then { x with ecc := tset x.ecc (off / 8) true } else x) found (off + 8) t

/-! ### Restoring a region (R105, R167 to R169, R173) -/

/-- A word of what is restored. -/
def fwAt (ws : List FWord) (i : Nat) : FWord := ws.getD i (0, false)
/-- Bits of a word of what is restored. -/
def fbits (ws : List FWord) (i hi lo : Nat) : Nat := wbits (fwAt ws i).1 hi lo

/-- R168: byte `i` of the tags that start at a word. -/
def tagAt (ws : List FWord) (w i : Nat) : Nat := fbits ws (w + i / 8) (i % 8 * 8 + 7) (i % 8 * 8)

/-- R168, R170: a register value with its tag. -/
def FVal.restored (w : FWord) (tag : Nat) : FVal :=
  { data := w.1, p := tag / 16 % 2 = 1, flags := BitVec.ofNat 4 tag, res := (GReg.restored w).res }

/-- R168, R170: an accumulator row from four words and a tag. -/
def Acc.restored (ws : List FWord) (i tag : Nat) : Acc :=
  let data := wordsNat ((ws.drop i).take 4 |>.map (·.1))
  { data := BitVec.ofNat 256 data, int := tag / 16 % 2 = 1, flags := BitVec.ofNat 4 tag,
    res := if ((ws.drop i).take 4).any (·.2) then BitVec.allOnes 32 else BitVec.ofNat 32 (resBits data 16) }

/-- R168, R170: a weight bank from its image. -/
def WBank.restored (ws : List FWord) (i : Nat) : WBank :=
  let elem : Vector Word 8 := Vector.ofFn fun j => (fwAt ws (i + j.val)).1
  { fmt := BitVec.ofNat 4 (fbits ws (i + 10) 35 32), elem := elem
    rsc := Vector.ofFn fun j => BitVec.ofNat 16 (fbits ws (i + 8 + j.val / 4) (j.val % 4 * 16 + 15) (j.val % 4 * 16))
    t := BitVec.ofNat 32 (fbits ws (i + 10) 31 0)
    res := BitVec.ofNat 64 ((List.range 8).map fun j => (GReg.restored (fwAt ws (i + j))).res.toNat * 256 ^ j).sum }

/-- R169: a payload of a unit at a word. -/
def Payload.restored (ws : List FWord) (u : FUnit) (i : Nat) : Payload :=
  match u with
  | .dot => .acc (Acc.restored ws i (fbits ws (i + 4) 7 0))
  | .wld => .bank (WBank.restored ws i)
  | _ => .reg (FVal.restored (fwAt ws i) (fbits ws (i + 1) 7 0))

/-- R169: the landing slots that a PE section holds; their rows are those of the reloaded image. A slot of a region that has
drained for a while lands as early as it would have (R38, log 94). -/
def slotsRestored (ws : List FWord) (k : Fin 4) (ii rc drained : Nat) (rows : List (BitVec 64)) (dead : Bool) :
    List LandSlot :=
  (List.range 16).filterMap fun j =>
    let i := 142 + j
    if fbits ws i 0 0 = 0 then none
    else
      let u := unitOf (fbits ws i 3 1)
      let age := fbits ws i 9 4
      let bad := fbits ws i 10 10 = 1 || dead
      let slot := fbits ws i 22 18
      let stage := fbits ws i 29 23
      some { unit := u, remain := if bad then 0 else (unitCode u).2 - age - drained, bad := bad, dest := BitVec.ofNat 7 (fbits ws i 17 11),
             slot := BitVec.ofNat 5 slot, stage := BitVec.ofNat 7 stage, inst := BitVec.ofNat 48 ((rc - age) / ii - stage),
             pay := Payload.restored ws u (158 + fbits ws i 39 32),
             row := (rows.find? fun w => wordSlot w = slot && wordStage w = stage).getD 0, k := k }

/-- R168: a PE from its section. -/
def PE.restored (e : PE) (ws : List FWord) (k : Fin 4) (ii rc drained : Nat) (dead : Bool) : PE :=
  { e with
    v := Vector.ofFn fun j => FVal.restored (fwAt ws j.val) (tagAt ws 64 j.val)
    bus := FVal.restored (fwAt ws 72) (fbits ws 73 7 0)
    ac := Vector.ofFn fun j => (acOf ((fwAt ws (75 + 2 * j.val)).1.toNat * 2 ^ 64 + (fwAt ws (74 + 2 * j.val)).1.toNat)).getD {}
    xs := BitVec.ofNat 32 (fbits ws 82 31 0), ff := BitVec.ofNat 16 (fbits ws 82 47 32), act := fbits ws 82 48 48 = 1
    acc := Vector.ofFn fun j => Acc.restored ws (84 + 4 * j.val) (tagAt ws 116 j.val)
    bank := Vector.ofFn fun j => WBank.restored ws (118 + 12 * j.val)
    slots := slotsRestored ws k ii rc drained e.rows dead }

/-- R103: RFFL from its two words. -/
def fflRestored (lo hi : Word) : Option FirstFault :=
  if !hi.getLsbD 63 then none
  else some { flags := BitVec.ofNat 4 (wbits hi 19 16), pe := Fin.ofNat 4 (wbits hi 15 14), stage := BitVec.ofNat 7 (wbits hi 13 7),
              slot := BitVec.ofNat 5 (wbits hi 4 0), inst := BitVec.ofNat 48 (wbits lo 47 0) }

/-- R104: STATE of its code. -/
def stateOf (n : Nat) : RState :=
  match n with | 0 => .empty | 1 => .ready | 2 => .running | 3 => .done | _ => .failed

/-- R167: a slot from its header, and what its stop noted of it. -/
def Region.restored (r : Region) (ws : List FWord) (m : RegionNote) : Region :=
  { r with
    rc := (fwAt ws 0).1, rn := BitVec.ofNat 48 (fbits ws 1 47 0), ftz := fbits ws 2 0 0 = 1, ten := BitVec.ofNat 4 (fbits ws 2 7 4)
    ii := BitVec.ofNat 6 (fbits ws 2 13 8), s := BitVec.ofNat 7 (fbits ws 2 22 16), peset := BitVec.ofNat 4 (fbits ws 2 27 24)
    conf := fbits ws 2 31 31 = 1, rimg := BitVec.ofNat 48 (fbits ws 3 47 0)
    ffl := fflRestored (fwAt ws 4).1 (fwAt ws 5).1, cause := BitVec.ofNat 8 (fbits ws 6 15 8), cut := fbits ws 6 3 3 = 1
    state := stateOf (fbits ws 6 2 0), rb := BitVec.ofNat 6 (fbits ws 7 5 0), sink := BitVec.ofNat 4 (fbits ws 7 11 8)
    ph := if fbits ws 7 32 32 = 1 then some (BitVec.ofNat 16 (fbits ws 7 31 16)) else none
    stopofs := fbits ws 7 39 35, delay := if stateOf (fbits ws 6 2 0) = .running then fbits ws 7 39 35 else 0
    stopRc := m.stopRc, launchPc := m.launchPc, relAt := none }

/-- R168: the PE sections of a slot, from a word on. -/
def CellSt.restorePes (x : CellSt) (k : Fin 4) (ii rc drained : Nat) (dead : Bool) : List (Fin 4) → List FWord → CellSt
  | [], _ => x
  | p :: t, ws => (x.setPe p ((x.pe[p.val]).restored ws k ii rc drained dead)).restorePes k ii rc drained dead t (ws.drop 192)

/-- R105: the reload of an image: it is waited for, it fails with a cause, or it gives rows, constants and FTZ. -/
def State.reload (s : State) (c : Nat) (r : Region) : Except Hold RegionImg × State :=
  match s.readImage (c / 1600) (s.cell c).seq.id.asid r.rimg.toNat r.peset with
  | (.error h, s) => (.error h, s)
  | (.ok (h, secs), s) =>
    match imageOf r.peset h secs with
    | none => (.error (.fail cCtxBad 0), s)
    | some i => (.ok i, s)

/-- R105: the report of a failed reload. -/
def State.reloadReport (s : State) (c : Nat) (k : Fin 4) (f : Cause) : State :=
  s.report (s.cell c).seq.id.vfid.toNat { s.cellRecord c f 2 with reg := true, rslot := BitVec.ofNat 2 k.val }

/-- What a stop noted of a region slot, if its RC is still the one of the frame. -/
def StopNote.region (n : Option StopNote) (k : Fin 4) (rc : Word) : RegionNote :=
  match n.bind fun m => m.regions[k.val]? with
  | some r => if r.rc = rc then r else { rc := rc }
  | none => { rc := rc }

/-- R105, R173, step 3: one slot from its region frame: whether its reload failed and it had been running, or none when the
reload has to wait. -/
def State.restoreRegion (s : State) (c : Nat) (k : Fin 4) (n : Option StopNote) (ws : List FWord) : Option Bool × State :=
  let m := StopNote.region n k (fwAt ws 0).1
  let r := ((s.cell c).region[k.val]).restored ws m
  let ii := max r.ii.toNat 1
  let pes (dead : Bool) (x : CellSt) : CellSt := x.restorePes k ii r.rc.toNat m.drained dead (peList r.peset) (ws.drop 8)
  if !r.conf then (some false, s.modCell c fun x => pes true (x.setRegion k r))
  else match s.reload c r with
    | (.error .wait, s) => (none, s)
    | (.error (.fail f _), s) =>
      (some (r.state = .running), (s.modCell c fun x =>
        pes true (x.setRegion k { r with conf := false, state := .failed, cause := f, delay := 0 })).reloadReport c k f)
    | (.ok i, s) =>
      (some false, s.modCell c fun x =>
        pes false ((x.setRegion k { r with pool := i.pool, ftz := i.ftz }).takePes false i.pes))

/-- R164: the length in words of a slot's region frame, by the region map. -/
def slotWords (map : Word) (k : Nat) : Nat :=
  if wbits map (8 * k) (8 * k) = 0 then 0 else 8 + 192 * popN 4 (wbits map (8 * k + 7) (8 * k + 4))

/-- R173, step 3: every slot that the frame holds, in ascending number: those whose loop has ended by a failed reload. -/
def State.restoreRegions (s : State) (c : Nat) (map : Word) (n : Option StopNote) : List (Fin 4) → List FWord →
    Option (List (Fin 4)) × State
  | [], _ => (some [], s)
  | k :: t, ws =>
    let len := slotWords map k.val
    if len = 0 then s.restoreRegions c map n t ws
    else match s.restoreRegion c k n (ws.take len) with
      | (none, s) => (none, s)
      | (some b, s) => match s.restoreRegions c map n t (ws.drop len) with
        | (none, s) => (none, s)
        | (some l, s) => (some (if b then k :: l else l), s)

/-! ### Restoring the cell (R164 to R166, R173, R301, R316) -/

/-- R42: a logged source in the register that a field of its word names; a field that names none is left. -/
def CellSt.stageReg (x : CellSt) (r : Reg) (v : GReg) : CellSt := if v = {} then x else x.setG r v.data

/-- R42: a sequencer that holds an entry's logged sources, to compute its result again. -/
def LogEntry.stage (e : LogEntry) (fp : FpRegs) : State :=
  let x : CellSt := { seq := { p := if e.word.getLsbD 25 then 1 else 0xff, fp := fp } }
  { cells := [(0, ((x.stageReg (wordD e.word) e.srcC).stageReg (wordA e.word) e.srcA).stageReg (wordB e.word) e.srcB)] }

/-- R42: the instructions of one source or more whose logged result is computed from their sources. -/
def reissue (i : Instr) (s : State) : Option Out :=
  match i with
  | .mul x => some (execMul x s) | .mulh x => some (execMulh x s) | .mulhn x => some (execMulhn x s)
  | .div x => some (execDiv x s) | .divn x => some (execDivn x s) | .rem x => some (execRem x s) | .remn x => some (execRemn x s)
  | .fadd x => some (execFadd x s) | .fsub x => some (execFsub x s) | .fmul x => some (execFmul x s)
  | .fma x => some (execFma x s) | .fmin x => some (execFmin x s) | .fmax x => some (execFmax x s)
  | .fcmp x => some (execFcmp x s) | .fcvt x => some (execFcvt x s)
  | _ => reissueShort i s

/-- R42: the result and flags of an entry from its logged sources; those of an access or of VGET stand in SRCC. -/
def LogEntry.result (e : LogEntry) (fp : FpRegs) : Word × Flags :=
  match decode e.word with
  | .ok i =>
    match reissue i (e.stage fp) with
    | some (.next t) => match (t.cell 0).seq.log with
      | r :: _ => (r.val, r.flags)
      | [] => ((t.cell 0).gval (wordD e.word), 0)
    | _ => (e.srcC.data, 0)
  | _ => (e.srcC.data, 0)

/-- R72: a logged source that fails its check. -/
def LogEntry.srcBad (e : LogEntry) : Option ResBad :=
  ((Machine.srcBad e.srcA.data e.srcA.res).or (Machine.srcBad e.srcB.data e.srcB.res)).or (Machine.srcBad e.srcC.data e.srcC.res)

/-- R287: the result in flight of an entry: the one that the stop noted of it, else computed again from its sources (log 20). -/
def LogEntry.known (e : LogEntry) (fp : FpRegs) (kept : List LogEntry) : Word × Flags :=
  match kept.find? fun k => k.word = e.word ∧ k.pcw = e.pcw ∧ k.srcA.data = e.srcA.data ∧ k.srcB.data = e.srcB.data ∧
      k.srcC.data = e.srcC.data with
  | some k => (k.val, k.flags)
  | none => e.result fp

/-- R301, R316: an entry as it goes on after a restore. -/
def LogEntry.revive (e : LogEntry) (fp : FpRegs) (kept : List LogEntry) : LogEntry :=
  let (v, f) := e.known fp kept
  let e := { e with val := v, flags := f, addr := e.access }
  if e.fault ≠ 0 then e
  else match e.srcBad, decode e.word with
    | some b, _ => { e with fault := cMcResidue, bad := some b }
    | none, .ok (.phAw _) => { e with phase := some (e.srcB.data.setWidth 16, e.srcC.data.setWidth 32) }
    | none, _ => e

/-- R165: the entries in use, from the word at which the log stands. -/
def logRestored (ws : List FWord) (fp : FpRegs) (kept : List LogEntry) : List LogEntry :=
  (List.range 8).filterMap fun j =>
    let i := 5 * j
    if fbits ws i 0 0 = 0 then none
    else
      let e : LogEntry :=
        { word := BitVec.ofNat 32 (fbits ws i 63 32), pcw := wordAddr (fwAt ws (i + 1)).1
          srcA := GReg.restored (fwAt ws (i + 2)), srcB := GReg.restored (fwAt ws (i + 3)), srcC := GReg.restored (fwAt ws (i + 4))
          dest := BitVec.ofNat 6 (fbits ws i 14 9), remain := fbits ws i 8 4, fault := BitVec.ofNat 8 (fbits ws i 23 16) }
      some (e.revive fp kept)

/-- R166: the copy commands of the engine area. -/
def copiesRestored (ws : List FWord) : List CopyCmd :=
  (List.range 8).filterMap fun j =>
    let r := ((ws.drop (8 * j)).take 8).map (·.1)
    if wbits (r.getD 7 0) 7 0 = 1 then
      some { copyOf r (Fin.ofNat 8 (wbits (r.getD 4 0) 59 56)) with progress := (r.getD 6 0).toNat }
    else none

/-- R166: the link operations of the engine area. -/
def linksRestored (ws : List FWord) : List LinkCmd :=
  (List.range 8).filterMap fun j =>
    let r := ((ws.drop (8 * j)).take 8).map (·.1)
    let w := r.getD 1 0
    if wbits (r.getD 7 0) 7 0 = 2 then
      some { linkOf r (Fin.ofNat 4 (wbits w 49 48)) (w.getLsbD 50) (wbits w 63 56) with
             sent := (r.getD 5 0).getLsbD 0, rcvd := (r.getD 5 0).getLsbD 1, progress := (r.getD 6 0).toNat }
    else none

/-- R41: in what slot the word at `pc` stands: as the stop noted, else, where its successor is not the next in order, in that
of a taken transfer (log 32). -/
def slotOf (pc npc : VAddr) (n : Option StopNote) : SlotKind :=
  match n with
  | some m => if m.pc = pc ∧ m.npc = npc then m.slot else if npc = pc + 4 then .none else .taken
  | none => if npc = pc + 4 then .none else .taken

/-- R164, R173, step 4: the sequencer from the frame; reserved bits of its words are ignored (R9). -/
def Seq.restored (q : Seq) (ws : List FWord) (n : Option StopNote) : Seq :=
  let w (i : Nat) : Word := (fwAt ws i).1
  let fp := (q.fp.withFlags (w 62)).withMode (w 63)
  let tpc := wordAddr (w 58)
  let tnpc := wordAddr (w 59)
  { q with
    g := Vector.ofFn fun j => if j.val = 0 then {} else GReg.restored (fwAt ws (8 + j.val))
    p := (w 40).setWidth 8 ||| 1, pc := wordAddr (w 41), npc := wordAddr (w 42)
    slot := slotOf (wordAddr (w 41)) (wordAddr (w 42)) n
    loops := Vector.ofFn fun j =>
      { lb := wordAddr (w (44 + 3 * j.val)), le := wordAddr (w (45 + 3 * j.val)), lc := w (46 + 3 * j.val) }
    intrap := (w 56).getLsbD 0, lact := BitVec.ofNat 4 (wbits (w 56) 7 4)
    trap := { q.trap.withCause (w 60) with vec := wordAddr (w 57), pc := tpc, npc := tnpc, info := w 61,
                                           kind := n.bind fun m => if m.trapPc = tpc ∧ m.trapNpc = tnpc then m.trap else none }
    fp := fp, traceEn := (w 64).getLsbD 0, traceMark := (w 64).getLsbD 1, errinj := errInjOf (w 65)
    log := logRestored (ws.drop 66) fp ((n.map (·.log)).getD []) }

/-- R244: the residue mismatches that a restore finds in the operand log. -/
def CellSt.countLog (x : CellSt) : CellSt :=
  x.seq.log.foldl (fun x e => if e.fault ≠ 0 ∧ e.bad ≠ none then x.countRes else x) x

/-- R246: the START of a resume, after a MOVE when the gang has changed cells; NPC follows for a delay slot. -/
def State.startResume (s : State) (c was : Nat) : State :=
  let x := s.cell c
  if x.halted then s
  else
  let s := if was = c then s else s.emit c 0xc was
  let inSlot := x.seq.slot != .none
  let s := s.emit c 0x1 (x.ofs x.seq.pc + 2 ^ 30 * 1 + (if x.seq.traceMark then 2 ^ 32 else 0) + (if inSlot then 2 ^ 33 else 0))
  if inSlot then s.emit c 0x3 (x.ofs x.seq.npc) else s

/-- R246: the end of a region's loop in the trace. -/
def State.emitEnd (s : State) (c : Nat) (k : Fin 4) : State :=
  let r := (s.cell c).region[k.val]
  s.emit c 0x7 (k.val + r.state.code * 4 + (r.rc.toNat % 2 ^ 40) * 2 ^ 5)

/-- R211: the operations of rounds aborted while the frame stood end. -/
def CellSt.abortAll (x : CellSt) (gs : List (BitVec 16 × BitVec 32)) : CellSt := gs.foldl (fun x p => x.abortLinks p.1 p.2) x

/-- R164: how many words of a frame are in use, by its region map. -/
def frameWords (map : Word) : Nat := min 1024 (224 + ((List.range 4).map (slotWords map)).sum)

/-- R173, steps 3 to 5: a bound cell goes on from the frame at an address, which cell `was` left; false when a line of the frame
or a reload has to wait. Nothing is read beyond the last region frame (R164). -/
def State.restoreCell (s : State) (c was a : Nat) (note : Option StopNote) : Bool × State :=
  match s.openFor false (linesOf a 1792) with
  | (false, s) => (false, s)
  | (true, s) =>
  let n := frameWords (s.dpaWord (a + 16))
  match s.openFor false (linesOf (a + 1792) (8 * n - 1792)) with
  | (false, s) => (false, s)
  | (true, s) =>
    let ws := s.readFrame a n
    match s.restoreRegions c (fwAt ws 2).1 note (List.finRange 4) (ws.drop 224) with
    | (none, s) => (false, s)
    | (some ended, s) =>
      let s := s.modCell c fun x =>
        ({ x with seq := x.seq.restored ws note, copyq := copiesRestored (ws.drop 106), linkq := linksRestored (ws.drop 106),
                  restart := true }.countLog).abortAll (match note with | some m => m.aborts | none => [])
      (true, ended.foldl (fun s k => s.emitEnd c k) (s.startResume c was))

end Sys2Proof.Machine
end

