-- ==== Sys2Proof/Machine/MemEvents.lean ====
section
/-! DEFINITION. What the translation agents, the home slices, the directory and the host bring about (R127 to R142,
R224 to R233, R160). A request that something stands before stays as it is, and the event comes again. -/

namespace Sys2Proof.Machine

/-! ### Answers to requests -/

/-- R300: a request has its answer: the sequencer that is frozen on it and the fetch agent find it; a line that PREF asked
for enters the data cache; any other request is gone. -/
def State.finish (s : State) (id : Nat) (r : Req) : State :=
  let x := s.cell r.cell
  if x.freeze = .mem id ∨ r.kind = .fetch then s.setReq id r
  else
    let s := s.dropReq id
    if r.kind = .fill ∧ r.stage = .done ∧ x.seq.id.asid = r.asid ∧ (x.dfind r.line).isNone then
      s.modCell r.cell fun x => x.dfill r.cell s.sys.cycle r.line r.data
    else s

def Req.failed (r : Req) (c : Cause) : Req := { r with stage := .failed c }
/-- The line that a read gives, and which of its granules are poisoned. -/
def Req.gave (r : Req) (l : Line) (bad : BitVec 2 := 0) : Req := { r with stage := .done, data := l, bad := bad }

/-- The line of device or host memory that a translated request names. -/
def Req.place (r : Req) : Nat := r.trans.addr / 128

/-- R125, R129: an older write of the cell to the same line has not been accepted. -/
def State.olderWrite (s : State) (id : Nat) (r : Req) : Bool :=
  s.mem.reqs.any fun (j, q) =>
    j < id && q.cell = r.cell && q.stage == .slice && q.writes && q.trans.host = r.trans.host && q.place = r.place

/-- R120: a drain that no instruction waits for. -/
def State.bareDrain (s : State) (id : Nat) (r : Req) : Bool :=
  match r.kind with | .write _ _ d _ => d && (s.cell r.cell).freeze != .mem id | _ => false

/-- A request that stands at its slice and behind no older write goes on, with the valid bit of a migrating line read; one whose
bit cannot be read takes POISON or MC_LLS_ECC, but for a drain, which waits (log 109). -/
def State.atSlice (s : State) (id : Nat) (go : Req → State → State) : Out :=
  match s.req id with
  | none => .next s
  | some r =>
    .next (if r.stage ≠ .slice ∨ s.olderWrite id r then s
      else if r.trans.host then go r s
      else match s.bitsRead r.place with
        | (some c, s) => if s.bareDrain id r then s else s.finish id (r.failed c)
        | (none, s) => go r s)

/-- R120, R233: a drain that no instruction waits for, at a line whose source is lost, waits for the source. Its function has one
report of it (log 100). -/
def State.drainLost (s : State) (id : Nat) (r : Req) : State :=
  if r.noted then s
  else (s.setReq id { r with noted := true }).report r.vf.val
    { cause := cMigrateSrc, cls := 2, vf := BitVec.ofNat 6 r.vf.val, q := r.q, cell := BitVec.ofNat 15 r.cell, point := 9,
      addr := BitVec.ofNat 64 (r.line * 128) }

/-- What a request that is not let through meets: a recall begins, a lost source fails it, anything else is waited for. -/
def State.turnedAway (s : State) (id : Nat) (r : Req) : Gate → State
  | .recall n => s.startRecall n
  | .lost => if s.bareDrain id r then s.drainLost id r else s.finish id (r.failed cMigrateSrc)
  | _ => s

/-! ### Translation (R224, R226) -/

/-- R224: the agent of the cell's die translates a request; a walk that waits stays as it is. -/
def execPageWalk (id : Nat) (s : State) : Out :=
  .next <| match s.req id with
  | none => s
  | some r =>
    if r.stage ≠ .walk then s
    else
      let noHost := match r.kind with | .mwc .. | .atomic .. => true | _ => false
      match s.translate (r.cell / 1600) r.asid (r.line * 128) r.need.toNat noHost with
      | (.error .wait, s) => s
      | (.error (.fail c _), s) => s.finish id (r.failed c)
      | (.ok t, s) =>
        let r := { r with trans := t }
        if r.kind = .alloc then s.finish id { r with stage := .done } else s.setReq id { r with stage := .slice }

/-! ### Reads at a slice (R129 to R131, R150) -/

/-- R150: a home slice serves a read or a line fill; a host page is read through a CXL port (R130). -/
def execSliceRead (id : Nat) (s : State) : Out :=
  s.atSlice id fun r s =>
    if r.writes || r.kind == .alloc then s
    else if r.trans.host then
      if !s.cxlReach then s
      else match s.readHost r.place r.grans with
        | .ok l => s.finish id (r.gave l (s.badGrans r.trans))
        | .error c => s.finish id (r.failed c)
    else match s.gate r.place false r.trans.cbit with
      | .ok =>
        match s.readLine r.place r.grans with
        | (.ok l, s) => s.finish id (r.gave l (s.badGrans r.trans))
        | (.error c, s) => s.finish id (r.failed c)
      | g => s.turnedAway id r g

/-! ### Writes at a slice (R120, R129) -/

/-- R120: an uncorrectable WCB entry has been drained: its affected granules are poisoned and its function has a report. -/
def State.badDrain (s : State) (r : Req) (bad : BitVec 2) : State :=
  (if r.trans.host then s else s.poisonGrans r.place bad).report r.vf.val
    { cause := cMcSpadEcc, cls := 2, vf := BitVec.ofNat 6 r.vf.val, q := r.q, cell := BitVec.ofNat 15 r.cell, point := 9,
      addr := BitVec.ofNat 64 (r.line * 128) }

/-- R129: the write queue of a request's home slice holds 64 entries; a write behind so many older ones is not yet in it. -/
def State.queued (s : State) (id : Nat) (r : Req) : Bool :=
  s.queueLoad (homeSlice r.trans.addr) id < 64

/-- R129: a home slice's write queue accepts a write, or a CXL port takes it for a host page. -/
def execWriteQueueAccept (id : Nat) (s : State) : Out :=
  s.atSlice id fun r s =>
    match r.kind with
    | .write mask data _ bad =>
      let ended (s : State) : State := (if bad = 0 then s else s.badDrain r bad).finish id { r with stage := .done }
      if r.trans.host then (if s.cxlReach then ended (s.hostWrite r.place mask data bad) else s)
      else if !s.queued id r then s
      else match s.gateFor r.place true r.trans.cbit (mask == BitVec.allOnes 128) with
        | (.ok, s) => ended (s.acceptWrite r.place mask data (some r.vf) r.trans.cbit)
        | (g, s) => s.turnedAway id r g
    | _ => s

/-- R311: what an atomic leaves in its bytes; none when a CAS does not match. -/
def atomicNew (op : Nat) (old b cmp : Word) : Option Word :=
  match op with
  | 0 => some (old + b)
  | 1 => some (BitVec.ofNat 64 (fmtF32.finish { mode := 0 }
      (sumFp 0 [fmtF32.value (wbits old 31 0), fmtF32.value (wbits b 31 0)])).1)
  | 2 => some (if old.toInt ≤ b.toInt then old else b)
  | 3 => some (if old.toInt ≤ b.toInt then b else old)
  | 4 => some (if old ≤ b then old else b)
  | 5 => some (if old ≤ b then b else old)
  | 6 => some (old &&& b)
  | 7 => some (old ||| b)
  | 8 => some (old ^^^ b)
  | 9 => some b
  | _ => if old = cmp then some b else none

/-- R129: on a page with C = 0 the line is written back and left invalid. -/
def State.writeBack (s : State) (r : Req) : State := if r.trans.cbit then s else s.evictLine r.place

/-- R129, R159, R311: an atomic, CAS or MWC executes in the write queue of its home slice, on the line it holds there; what it
answers and what it leaves of the line come from what it finds. -/
def State.inPlace (s : State) (id : Nat) (r : Req) (act : Line → State → State × Req) : State :=
  if !s.queued id r then s
  else match s.gate r.place true true with
    | .ok =>
      match s.readLine r.place r.grans with
      | (.error c, s) => (s.writeBack r).finish id (r.failed c)
      | (.ok l, s) =>
        let (s, r) := act l s
        (s.writeBack r).finish id r
    | g => s.turnedAway id r g

/-- R129, R159, R311, R312: an atomic, CAS or MWC executes. -/
def execSliceAtomic (id : Nat) (s : State) : Out :=
  s.atSlice id fun r s =>
    match r.kind with
    | .mwc mask data =>
      s.inPlace id r fun _ s => (s.acceptWrite r.place mask data (some r.vf) true, { r with stage := .done })
    | .atomic op off size b cmp =>
      s.inPlace id r fun l s =>
        let old := BitVec.ofNat 64 (lineBytes l off size)
        (match atomicNew op.val old b cmp with
          | some v => s.acceptWrite r.place (byteMask off size) (placed (v.toNat % 256 ^ size) off) (some r.vf) true
          | none => s, { r with stage := .done, old := old })
    | _ => s

/-! ### Fills, evictions and pulls (R128, R138, R142, R231, R232) -/

/-- R128, R138: a line that is missing, and that nothing stands before, is filled from DRAM. -/
def execLlsFill (line : Nat) (s : State) : Out :=
  .next (if s.gate line false true = .fill then s.fillLine line else s)

/-- R142: a line leaves its slice, written back if it is dirty. -/
def execLlsEviction (line : Nat) (s : State) : Out := .next (s.evictLine line)

/-- R231: the first access to an unpulled line of an ACTIVE entry pulls it. -/
def execPullOnFirstTouch (id : Nat) (s : State) : Out :=
  s.atSlice id fun r s =>
    if r.trans.host then s
    else match s.gate r.place r.writes true with
      | .pull => (s.settle r.place .pull).2
      | _ => s

/-- R229: the first line of a page whose bit is clear, searched word by word of the bitmap. -/
def nextUnpulled (s : State) (m : MigEntry) : Option Nat :=
  ((List.range (m.lines / 64)).find? fun j => s.dpaWord (m.bmap.toNat + 8 * j) != BitVec.allOnes 64).bind fun j =>
    ((List.range 64).find? fun b => !(s.dpaWord (m.bmap.toNat + 8 * j)).getLsbD b).map fun b => 64 * j + b

/-- R138, R139, R232: the lines of the bitmap up to that of a bit are read, as far as nothing stands before them. -/
def State.scan (s : State) : List Nat → Option Hold × State
  | [] => (none, s)
  | n :: t =>
    match s.readDev n false with
    | (.ok _, s) => s.scan t
    | (.error h, s) => (some h, s)

/-- R232: the background engine reads the bitmap and pulls the next unpulled line of an ACTIVE entry; what the host holds of the
lines that it needs is recalled (R131). -/
def execBackgroundFill (n : Fin 1024) (s : State) : Out :=
  let m := tget {} s.mem.mig n.val
  if m.state ≠ .active then .next s
  else match nextUnpulled s m with
    | none => .next s
    | some k =>
      let line := m.new.toNat / 128 + k
      match s.scan ((List.range (k / 1024 + 1)).map (m.bmap.toNat / 128 + ·)) with
      | (some _, s) => .next s
      | (none, s) =>
        .next (match s.gate line false false with
          | .pull => (s.settle line .pull).2
          | .recall o => s.startRecall o
          | _ => s)

/-! ### The Skink (R140) -/

/-- The granule that the Skink reads next, in DPA order. -/
def State.skinkGran (s : State) : Nat := s.mem.skinkPos % 2 ^ 35

/-- R140: one granule: a corrected error is written back, an uncorrectable one becomes poisoned and is logged. Nothing
comes between the read and the conditional write here, so VER is unchanged. -/
def execSkinkScrub (s : State) : Out :=
  let g := s.skinkGran
  let x := s.gran g
  let s := { s with mem := { s.mem with skinkPos := s.mem.skinkPos + 1 } }
  .next (if x.badSyms = 0 then s
    else if x.badSyms ≤ 4 then
      let s := s.setGran g { x with ver := x.ver + 1, badSyms := 0 }
      { s with mem := { s.mem with ecHbm := satInc s.mem.ecHbm } }
    else (s.spoil g).logPoint cMcHbmUe 6 (g * 64))

/-! ### The directory and the host (R131, R160, R213) -/

/-- The host's copy of a line is gone, and with it the recall. -/
def State.forget (s : State) (n : Nat) : State :=
  { s with mem := { s.mem with dir := s.mem.dir.filter (·.line ≠ n), recalls := s.mem.recalls.filter (·.line ≠ n) } }

/-- R230, R231: a line that the host gives back stands in a migrating page: its whole-line write waits while the entry is ARMED, and
sets the bit of an unpulled line. None while it waits. -/
def State.giveBack (s : State) (n : Nat) : Option State :=
  match migOf s n with
  | none => some s
  | some (i, m, k) =>
    if m.state = .armed then none
    else if migPulled s m k then some s
    else if lineGate s (m.bitLine k) true false = .ok then some (s.markPulled i m k) else none

/-- An event that what stands before it does not let happen comes again in the next cycle. -/
def State.again (s : State) (i : Instr) : State :=
  { s with sched := { s.sched with inputs := s.sched.inputs ++ [⟨s.sys.cycle + 1, i, true⟩] } }

/-- R131, R212: the host answers a back-invalidate, with its data when it owned the line, and that with CXL's poison indication
where it is poisoned. -/
def execHostRecallResponse (line : Nat) (data : Option HostGives) (s : State) : Out :=
  .next <|
    if s.mem.recalls.any (·.line = line) then
      let owned := match dirFind s line with | some e => e.owned | none => false
      match data, owned with
      | some d, true =>
        match s.giveBack line with
        | some t => (t.forget line).acceptWrite line (BitVec.allOnes 128) d.line none false (if d.poison then 3 else 0)
        | none => s.again (.hostRecallResponse line data)
      | _, _ => s.forget line
    else s

/-- R131: the accesses that wait for a line receive POISON; a drain of the write-combining buffer takes no fault. -/
def State.failWaiting (s : State) (n : Nat) : Tab Req → State
  | [] => s
  | (id, r) :: t =>
    let drain := match r.kind with | .write _ _ d _ => d | _ => false
    let s := if r.stage = .slice ∧ !r.trans.host ∧ r.place = n ∧ !drain then s.finish id (r.failed cPoison) else s
    s.failWaiting n t

/-- R131: the lines whose recalls have timed out in this cycle and the one before, for the engines that have waited. -/
def State.lately (s : State) (n : Nat) : List (Nat × Nat) :=
  (n, s.sys.cycle) :: s.mem.timedOut.filter fun p => s.sys.cycle ≤ p.2 + 1

/-- R131, R213: a recall unanswered for 1 ms: the line is poisoned and the timeout is logged. -/
def execHostRecallTimeout (line : Nat) (s : State) : Out :=
  if s.mem.recalls.any fun k => k.line = line ∧ k.deadline ≤ s.now then
    let s := (s.forget line).poisonGrans line 3
    let s := { s with mem := { s.mem with timedOut := s.lately line } }
    .next ((s.logPoint cPoison 8 (line * 128)).failWaiting line s.mem.reqs)
  else .next s

/-- R131: the oldest line of a stack that the host holds, when its directory has no free entry. -/
def dirOldest (s : State) (n : Nat) : Option Nat :=
  let held := s.mem.dir.filter fun e => dpaStack (e.line * 128) = dpaStack (n * 128)
  if 65536 ≤ held.length then held.head?.map (·.line) else none

/-- R131: the directory records how the host holds a line. -/
def State.hold (s : State) (n : Nat) (own : Bool) : State :=
  { s with mem := { s.mem with dir := s.mem.dir.filter (·.line ≠ n) ++ [⟨n, own⟩] } }

/-- R131, R141: the answer to a host read, with CXL's poison indication where the line is poisoned. -/
def State.answerHost (s : State) (n : Nat) (l : Line) (bad : Bool) : State :=
  { s with mem := { s.mem with hostResp := some ⟨n, l, bad⟩ } }

/-- R212, R249: the host's CXL.mem reaches the module: a port in 256-byte flit mode, and READY. -/
def State.hostMem (s : State) : Bool := s.cxlReach && s.sys.bootDone

/-- R131, R160: a host CXL.mem read of a line, to be held shared or owned. It is served as a strong read, and the
directory records it. A line of a LOST entry is answered with poison and not recorded (R233). The ports run CXL.mem only
in 256-byte flit mode (R212). -/
def execHostCxlRead (line : Nat) (own : Bool) (s : State) : Out :=
  let n := line % 2 ^ 34
  let held := dirFind s n
  let own := own || held.any (·.owned)
  .next <|
    if !s.hostMem || held.any (·.owned) then s
    else match (if held.isSome then none else dirOldest s n) with
      | some o => (s.startRecall o).again (.hostCxlRead line own)
      | none =>
        match s.readDev n false with
        | (.error .wait, s) => s.again (.hostCxlRead line own)
        | (.error (.fail c _), s) =>
          let s := s.answerHost n (s.lineVal n) true
          if c = cMigrateSrc then s else s.hold n own
        | (.ok l, s) => (s.answerHost n l false).hold n own

/-- R160: an earlier host write to the line waits, so a later one does too. -/
def State.hostBehind (s : State) (n : Nat) : Bool :=
  s.sched.inputs.any fun i => match i.ev with
    | .hostCxlWrite a d => i.held && !d.bytes.isEmpty && a / 128 ≤ n && n ≤ (a + d.bytes.length - 1) / 128
    | _ => false

/-- R160, R212: a host CXL.mem write, line by line; one with CXL's poison indication poisons the granules that it touches (R141).
The fuel counts lines. -/
def State.hostStore (s : State) (bad : Bool) : Nat → Nat → List Byte → State
  | 0, _, _ => s
  | _ + 1, _, [] => s
  | f + 1, a, bs =>
    let n := a / 128
    let off := a % 128
    let k := min bs.length (128 - off)
    let mask := byteMask off k
    if s.hostBehind n then s.again (.hostCxlWrite a ⟨bs, bad⟩)
    else match (s.forget n).writeDev n mask (placed (leNat (bs.take k)) off) none false (if bad then maskGrans mask else 0) with
      | (none, s) => s.hostStore bad f (a + k) (bs.drop k)
      | (some _, t) => (s.keepWaits t).again (.hostCxlWrite a ⟨bs, bad⟩)

/-- R131, R160: a host CXL.mem write: the host gives up its own copy, and the write is accepted at the home slice. -/
def execHostCxlWrite (addr : Nat) (data : HostBytes) (s : State) : Out :=
  .next (if s.hostMem then s.hostStore data.poison (data.bytes.length / 128 + 2) (addr % 2 ^ 41) data.bytes else s)

/-! ### Shootdowns (R227) -/

/-- R227: a range of addresses overlaps a shootdown's. -/
def Shoot.hits (h : Shoot) (base size : Nat) : Bool :=
  match h.range with
  | none => true
  | some (lo, hi) => base < hi && lo < base + size

/-- R227, steps 1 and 2: the translations of the ASID that overlap the range go from every agent, and its walks in progress deliver
nothing: a miss that waits on one starts it again. -/
def State.dropXlate (s : State) (h : Shoot) : State :=
  { s with mem := { s.mem with
      tlb := s.mem.tlb.filter fun e => ¬(e.asid = h.asid ∧ h.hits e.base (2 ^ levelShift e.size)),
      walks := s.mem.walks.filter fun e =>
        ¬(e.asid = h.asid ∧ h.hits (e.vpre * 2 ^ levelShift e.level.val) (2 ^ levelShift e.level.val))
      walking := s.mem.walking.filter (·.asid ≠ h.asid) } }

/-- R227, step 3: one cell bound to the ASID: its cached lines of the ASID are invalidated and its entries drained. -/
def State.flushAsid (s : State) (asid : BitVec 16) (c : Nat) : State :=
  let x := s.cell c
  if x.bound.isSome ∧ x.seq.id.asid = asid then
    (s.modCell c fun x => { x with dcache := x.dcache.filter (·.asid ≠ asid),
                                   icache := x.icache.filter (·.asid ≠ asid) }).drainList c (x.wcb.filter (·.asid = asid))
  else s

/-- R227, step 3: every cell. -/
def State.flushCells (s : State) (asid : BitVec 16) : State := s.cells.foldl (fun s (c, _) => s.flushAsid asid c) s

/-- R227, step 4: an access that may have been translated before the last pass is not done, or a near-bank command. -/
def State.shootWaits (s : State) (h : Shoot) : Bool :=
  (s.mem.reqs.any fun (id, r) => id < h.upto && r.asid = h.asid && (r.stage == .slice || r.stage == .done)) ||
  s.mem.nb.any fun k => k.asid = h.asid && (k.stage == .recalling || k.stage == .executing) && k.seen < h.upto

/-- R227: a shootdown of an ASID, or of a range of its addresses, begins. -/
def execShootdown (asid : BitVec 16) (range : Option (Nat × Nat)) (s : State) : Out :=
  .next { s with mem := { s.mem with shoots := tset s.mem.shoots s.mem.nextShoot { asid := asid, range := range },
                                     nextShoot := s.mem.nextShoot + 1 } }

/-- R227, R228: a pass removes the old translations and empties the cells; once what was translated before it has been
accepted a second pass takes the entries allocated since, and once that too is accepted the shootdown completes. -/
def execShootdownComplete (n : Nat) (s : State) : Out :=
  match tfind s.mem.shoots n with
  | none => .next s
  | some h =>
    if h.passes ≠ 0 ∧ s.shootWaits h then .next s
    else if 2 ≤ h.passes then .next { s with mem := { s.mem with shoots := terase s.mem.shoots n } }
    else
      let s := (if h.passes = 0 then s.dropXlate h else s).flushCells h.asid
      .next { s with mem := { s.mem with
        shoots := tset s.mem.shoots n { h with passes := h.passes + 1, upto := s.mem.nextReq } } }

end Sys2Proof.Machine
end

