-- ==== Sys2Proof/Machine/Fetch.lean ====
section
/-! DEFINITION. What comes before a word issues: the replay of a resumed log, late faults, the stop of the sequencer,
and the fetch of the word (R42 to R44, R84, R161, R217, R258, R301, R316). -/

namespace Sys2Proof.Machine

/-! ### Replay (R42, R217, R301) -/

/-- How the reissue of a logged instruction ends. -/
inductive Redo
  | wait
  | got (v : Word) (f : Flags)
  | bad (c : Cause)
deriving DecidableEq, Repr

/-- What a failed access of the module's own does to a reissue. -/
def Hold.redo : Hold → Redo
  | .wait => .wait
  | .fail c _ => .bad c

/-- R301: the line of a logged global address, on path 0 or 3, as a reader of `n` bytes of it gets it. -/
def State.redoLine (s : State) (c : Nat) (a : Word) (n : Nat) : Except Hold Line × State :=
  if pathOf a = 3 then s.readDev (wbits a 40 7) false (granOf (a.toNat % 128) n)
  else s.readGlobal (c / 1600) (s.cell c).seq.id.asid (wbits a 47 0) n

/-- R141: the poisoned granules of the line of a logged global address, as its agent translates it now. -/
def State.redoBad (s : State) (c : Nat) (a : Word) : BitVec 2 :=
  match (s.translate (c / 1600) (s.cell c).seq.id.asid (wbits a 47 0) 1 false).1 with
  | .ok t => s.badGrans t
  | .error _ => 0

/-- R243, R301: a logged load of `n` bytes is performed afresh: a weak one may hit, and fills the data cache as its first
issue would have; a strong one refreshes a cached copy. -/
def State.redoLoad (s : State) (c : Nat) (x : GlobArgs) (e : LogEntry) (n : Nat) : Redo × State :=
  let a := e.srcA.data + x.imm.signExtend 64 * numWord n
  let tag := vline a
  let weak := pathOf a = 0 ∧ x.order.toNat < 2
  let s := if weak then s.modCell c fun y => (if x.order.toNat = 0 then y else y.dpast tag).dcheck tag else s
  match (s.cell c).dfind tag, decide weak with
  | some l, true => (.got (accessVal ((s.cell c).overlay tag l.data) a n) 0, s.ev c 0x20)
  | _, _ =>
    match (if weak then s.redoLine c (a &&& ~~~127) 128 else s.redoLine c a n) with
    | (.error h, s) => (h.redo, if weak && h != .wait then s.ev c 0x21 else s)
    | (.ok l, s) =>
      let v := (s.cell c).overlay tag l
      if weak then
        (.got (accessVal v a n) 0, (s.modCell c fun y => y.dfill c s.sys.cycle tag v).ev c 0x21)
      else (.got (accessVal l a n) 0, if pathOf a = 0 then s.modCell c fun y => y.drefresh tag l (s.redoBad c a) else s)

/-- R311: a logged atomic at its home slice. -/
def State.redoAtomic (s : State) (c : Nat) (e : LogEntry) (op : Nat) : Redo × State :=
  let x := s.cell c
  let a := e.srcA.data
  let n := if op = 1 then 4 else 8
  let (t, s) : Except Hold Trans × State :=
    if pathOf a = 3 then (.ok { addr := wbits a 40 0, cbit := false }, s)
    else s.translate (c / 1600) x.seq.id.asid (wbits a 47 0) 3 true
  let s := if pathOf a = 3 then s else s.modCell c fun y => y.ddrop (vline a)
  match t with
  | .error h => (h.redo, s)
  | .ok t =>
    let line := t.addr / 128
    match s.openLine line true true false 6 with
    | (some h, s) => (h.redo, s)
    | (none, s) =>
      let back (s : State) : State := if t.cbit then s else s.evictLine line
      match s.readLine line (granOf (a.toNat % 128) n) with
      | (.error f, s) => (.bad f, back s)
      | (.ok l, s) =>
        let off := a.toNat % 128
        let old := BitVec.ofNat 64 (lineBytes l off n)
        let s := match atomicNew op old e.srcB.data e.srcC.data with
          | some v => s.acceptWrite line (byteMask off n) (placed (v.toNat % 256 ^ n) off)
              (some (Fin.ofNat 64 x.seq.id.vfid.toNat)) true
          | none => s
        (.got old 0, back s)

/-- R111: a reissued access to a word of the scratchpad has its bank, or is refused it. -/
def State.redoBank (s : State) (c off : Nat) (go : State → Redo × State) : Redo × State :=
  let (ok, x) := (s.cell c).askBanks 2 [bankOf off]
  if ok then go (s.setCell c { x with freeze := .none }) else (.wait, s.setCell c { x with freeze := .bank })

/-- R301: a logged scratchpad load. -/
def State.redoLds (s : State) (c : Nat) (x : SpadArgs) (e : LogEntry) : Redo × State :=
  let n := sizeOf x.size
  let off := offOf (e.srcA.data + x.imm.signExtend 64 * numWord n)
  s.redoBank c off fun s =>
    if (s.cell c).spBad off then (.bad cMcSpadEcc, s)
    else (.got (BitVec.ofNat 64 (((s.cell c).spWord off).toNat / 256 ^ (off % 8) % 256 ^ n)) 0,
          s.modCell c fun y => y.spNote off)

/-- R116, R308: a logged WAITA reads its word again, waits for a write that satisfies it, and goes on with that word. -/
def State.redoWaita (s : State) (c : Nat) (x : WaitaArgs) (e : LogEntry) : Redo × State :=
  let off := offOf e.srcA.data
  let k := waitaCode x.cond
  match (s.cell c).freeze, (s.cell c).hold with
  | .wait, [2, w] => (.got w 0, s.modCell c fun y => { y with freeze := .none, hold := [] })
  | .wait, _ => (.wait, s)
  | _, _ => s.redoBank c off fun s =>
    let w := (s.cell c).spWord off
    if (s.cell c).spBad off then (.bad cMcSpadEcc, s)
    else
      let s := s.modCell c fun y => y.spNote off
      if waitaHolds w e.srcB.data k then (.got w 0, s)
      else (.wait, s.waitAt c [1, BitVec.ofNat 64 off, e.srcB.data, BitVec.ofNat 64 k])

/-- R42: a logged instruction is reissued from its logged operands. -/
def State.redo (s : State) (c : Nat) (e : LogEntry) : Redo × State :=
  match e.srcBad, decode e.word with
  | some _, _ => (.bad cMcResidue, s.modCell c CellSt.countRes)
  | none, .ok (.lds x) => s.redoLds c x e
  | none, .ok (.waita x) => s.redoWaita c x e
  | none, .ok (.ldg8 x) => s.redoLoad c x e 1
  | none, .ok (.ldg16 x) => s.redoLoad c x e 2
  | none, .ok (.ldg32 x) => s.redoLoad c x e 4
  | none, .ok (.ldg64 x) => s.redoLoad c x e 8
  | none, .ok (.amoAdd _) => s.redoAtomic c e 0
  | none, .ok (.amoFadd _) => s.redoAtomic c e 1
  | none, .ok (.amoMin _) => s.redoAtomic c e 2
  | none, .ok (.amoMax _) => s.redoAtomic c e 3
  | none, .ok (.amoMinn _) => s.redoAtomic c e 4
  | none, .ok (.amoMaxn _) => s.redoAtomic c e 5
  | none, .ok (.amoAnd _) => s.redoAtomic c e 6
  | none, .ok (.amoOr _) => s.redoAtomic c e 7
  | none, .ok (.amoXor _) => s.redoAtomic c e 8
  | none, .ok (.amoSwap _) => s.redoAtomic c e 9
  | none, .ok (.cas _) => s.redoAtomic c e 10
  | none, _ => (.got e.val e.flags, s)

/-- R42: the entries from the oldest on that are to be reissued: each lands, or keeps the fault it meets again. -/
def State.replayFrom (s : State) (c : Nat) : List LogEntry → State × List LogEntry
  | [] => (s, [])
  | e :: t =>
    if !e.again then
      let (s, r) := s.replayFrom c t
      (s, e :: r)
    else match s.redo c e with
      | (.wait, s) => (s, e :: t)
      | (.bad f, s) =>
        let (s, r) := s.replayFrom c t
        (s, { e with fault := f, remain := 0, again := false, bad := e.srcBad, addr := e.access } :: r)
      | (.got v f, s) =>
        let (x, k) := (s.cell c).landEntry { e with val := v, flags := f, fault := 0, again := false }
        let (s, r) := (s.setCell c x).replayFrom c t
        (s, k ++ r)

/-- R42, R217: the replay of a resumed log, before any further instruction issues; frozen meanwhile as its first entry to be
reissued is, on a line (R300), a bank or a wait. -/
def State.replayLog (s : State) (c : Nat) : State :=
  let (s, l) := s.replayFrom c (s.cell c).seq.log
  let left := l.any (·.again)
  s.modCell c fun x =>
    let f := if !left then Freeze.none else if x.freeze = .bank ∨ x.freeze = .wait then x.freeze else .accept
    CellSt.closeFp { x with seq := { x.seq with log := l }, wrote := [], replay := left, freeze := f }

/-! ### The stop of the sequencer (R41, R84, R111, R161, R300, R317) -/

/-- R315 to R317, R347: a frozen wait that what comes about in the cycle of a stop may still end: a WAITA, a PH.WAIT, a PH.AW
that has arrived, one restored after its arrival, or a QPOP. -/
def CellSt.mayEnd (x : CellSt) : Bool :=
  match x.hold, decode x.opword with
  | [1, _, _, _], _ => true
  | _, .ok (.phWait _) | 6 :: _, .ok (.phAw _) | _, .ok (.qpop _) => true
  | _, _ => x.seq.log.any fun e => e.phase.isSome

/-- R41, R84, R161, R300: the sequencer stops before this word: where it took a cause itself, at a boundary that is not
between a transfer and its slot, or at a wait instruction that has not ended. -/
def CellSt.mustStop (x : CellSt) : Bool :=
  match x.stop with
  | none => false
  | some t => match x.freeze with
    | .wait => !x.ended && !(t.fresh && x.mayEnd)
    | .none | .logFull | .ifetch => t.atSeq || x.seq.slot == .none
    | _ => false

/-- R120, R161, R193: a stopped sequencer leaves the lists it waits in, and acknowledges once its WCB has drained, or was
discarded. -/
def State.stopSeq (s : State) (c : Nat) : State :=
  let s := s.leaveLists c
  match (s.cell c).stop with
  | none => s
  | some t =>
    if t.seqAck then s
    else if t.discard then s.modCell c fun x => { x.lapse 2 with wcb := [], stop := some { t with seqAck := true } }
    else
      let s := s.drainAll c
      if s.released c then s.modCell c fun x => { x.lapse 2 with stop := some { t with seqAck := true } } else s

/-! ### The word (R43, R44, R117, R258) -/

/-- R43: an address in the code image. -/
def CellSt.inImage (x : CellSt) (a : VAddr) : Bool :=
  x.seq.id.codebase ≤ a && a.toNat < x.seq.id.codebase.toNat + x.seq.id.codelen.toNat

/-- A word of a line. -/
def lineWord (l : Line) (a : VAddr) : BitVec 32 := BitVec.ofNat 32 (lineBytes l (a.toNat % 128) 4)

/-- R44: the fetch agent is asked for the line of the next word. -/
def State.askFetch (s : State) (c : Nat) : State :=
  let pc := (s.cell c).seq.pc.setWidth 64
  let s := s.modCell c fun x => { x with freeze := .ifetch }
  if (s.fetchOf c (vline pc)).isSome then s else (s.addReq (s.mkReq c .fetch pc 4)).ev c 0x23

/-- R43, R117: the word that a frozen sequencer has taken up, or the word at PC, or what is done until it is here. -/
def State.fetchWord (s : State) (c : Nat) : Option (BitVec 32) × State :=
  let x := s.cell c
  let pc := x.seq.pc
  if x.freeze.inWord then (some x.opword, s)
  else if !x.inImage pc then (none, s.seqFault c cFetchBound pc 0 0 none)
  else
    let tag := vline (pc.setWidth 64)
    let s := s.modCell c fun y => y.icheck tag
    match (s.cell c).ifind tag with
    | some l =>
      let w := lineWord l.data pc
      (some w, (s.startPacket c).modCell c fun y => { y with opword := w })
    | none => (none, s.askFetch c)

/-- R316: a PH.AW restored after its arrival: it lands once its phase has passed, with the acquire. -/
def State.restoredPhase (s : State) (c : Nat) (e : LogEntry) (n : BitVec 16) (u : BitVec 32) : State :=
  let p := s.phaser n.toNat
  if p.passed u then
    (s.acquire c p.order).modCell c fun x =>
      let x := x.setDest e.dest ((u + 1).setWidth 64)
      { x with freeze := .none, hold := [], seq := { x.seq with log := x.seq.log.filter (· ≠ e) } }
  else s.waitAt c []

/-- The instruction that a cell would issue next, if its line is cached. -/
def CellSt.nextInstr (x : CellSt) : Option Instr :=
  match x.ifind (vline (x.seq.pc.setWidth 64)) with
  | some l => match decode (lineWord l.data x.seq.pc) with | .ok i => some i | _ => none
  | none => none

/-- R190: in the cycle in which YDEADLINE reaches 0 nothing issues at a boundary but a YIELD, which wins. -/
def CellSt.deadlineHolds (x : CellSt) : Bool :=
  x.seq.yreq && x.seq.ydeadline == 0 && x.stop.isNone && x.seq.slot == .none && !x.freeze.inWord &&
    match x.nextInstr with
    | some (.yield g) => !(x.guardTrue g && x.seq.log.isEmpty)
    | _ => true

/-- R42, R163: a late fault or an ARITH is due that the sequencer is still to take. -/
def CellSt.causeDue (x : CellSt) : Bool :=
  (x.dueFault.isSome || x.seq.arith.isSome) && x.stop.all fun t => !t.atSeq && !t.seqAck

/-- R116, R300: a replay stops only where it waits as a WAITA does; on a line or a bank the stop waits. -/
def State.prepareReplay (s : State) (c : Nat) : State :=
  if (s.cell c).freeze = .wait ∧ (s.cell c).mustStop then s.stopSeq c else s.replayLog c

/-- What a cell's sequencer does in this cycle before a word issues, and the word if one does. -/
def State.prepare (s : State) (c : Nat) : Option (BitVec 32) × State :=
  let x := s.cell c
  if x.bound.isNone then (none, s)
  else if x.halted then (none, s.stopSeq c)
  else if x.replay then (none, s.prepareReplay c)
  else if x.causeDue then (none, s.lateFault c)
  else if x.mustStop then (none, s.stopSeq c)
  else if x.deadlineHolds then (none, s)
  else match x.seq.log.findSome? fun e => e.phase.map fun p => (e, p) with
    | some (e, n, u) => (none, s.restoredPhase c e n u)
    | none => s.fetchWord c

/-- R41, R258: a word with a field outside its limits, which in a slot may first be a control transfer. -/
def State.badWord (s : State) (c : Nat) (w : BitVec 32) (transfer : Bool) : State :=
  let x := s.cell c
  s.seqFault c (if transfer && x.seq.slot != .none then cBranchInSlot else cIllOperand) x.seq.pc (w.setWidth 64) 0 none

end Sys2Proof.Machine
end

