-- ==== Sys2Proof/Machine/Sha.lean ====
section
/-! DEFINITION. SHA-256, which R250, R251 and R254 name and the spec does not write out (PRESUMED: FIPS 180-4, log 101). Its
constants are computed from the primes that they stand for. -/

namespace Sys2Proof.Machine

/-- The first 64 primes. -/
def shaPrimes : List Nat := (List.range 312).filter fun n => 2 ≤ n && (List.range n).all fun d => d < 2 || n % d != 0

/-- The greatest number whose `k`-th power is not above `n`, bit by bit below 2^`b`. -/
def rootBits (k n : Nat) : Nat → Nat → Nat
  | 0, r => r
  | b + 1, r => rootBits k n b (if (r + 2 ^ b) ^ k ≤ n then r + 2 ^ b else r)

/-- 32 bits of the fractional part of the `k`-th root of a prime. -/
def shaConst (k p : Nat) : BitVec 32 := BitVec.ofNat 32 (rootBits k (p * 2 ^ (32 * k)) 37 0)

/-- Three rotations of a word, or two and a shift, exclusive-ored. -/
def shaMix (x : BitVec 32) (a b c : Nat) (shift : Bool) : BitVec 32 :=
  x.rotateRight a ^^^ x.rotateRight b ^^^ (if shift then x >>> c else x.rotateRight c)

/-- The schedule of a block, the last word first. -/
def shaSchedule : Nat → List (BitVec 32) → List (BitVec 32)
  | 0, ws => ws
  | n + 1, ws =>
    let w (j : Nat) : BitVec 32 := ws.getD (j - 1) 0
    shaSchedule n ((shaMix (w 2) 17 19 10 true + w 7 + shaMix (w 15) 7 18 3 true + w 16) :: ws)

/-- One round on the eight working words. -/
def shaRound (v : List (BitVec 32)) (kw : BitVec 32) : List (BitVec 32) :=
  match v with
  | [a, b, c, d, e, f, g, h] =>
    let t := h + shaMix e 6 11 25 false + ((e &&& f) ^^^ (~~~e &&& g)) + kw
    (t + shaMix a 2 13 22 false + ((a &&& b) ^^^ (a &&& c) ^^^ (b &&& c))) :: a :: b :: c :: (d + t) :: [e, f, g]
  | _ => v

/-- Numbers of `w` bytes, the most significant byte first. -/
def bigWords (w : Nat) : Nat → List Byte → List Nat
  | 0, _ => []
  | n + 1, bs => leNat (bs.take w).reverse :: bigWords w n (bs.drop w)

/-- One 64-byte block. -/
def shaBlock (ks : List (BitVec 32)) (h : List (BitVec 32)) (bs : List Byte) : List (BitVec 32) :=
  let ws := (shaSchedule 48 (((bigWords 4 16 bs).map (BitVec.ofNat 32)).reverse)).reverse
  List.zipWith (· + ·) h ((List.zipWith (· + ·) ks ws).foldl shaRound h)

/-- Blocks, one after another; the fuel counts them. -/
def shaBlocks (ks : List (BitVec 32)) : Nat → List (BitVec 32) → List Byte → List (BitVec 32)
  | 0, h, _ => h
  | n + 1, h, bs => shaBlocks ks n (shaBlock ks h (bs.take 64)) (bs.drop 64)

/-- A message with its padding: a one bit, zeros and its length in bits. -/
def shaPadded (bs : List Byte) : List Byte :=
  bs ++ [0x80] ++ List.replicate ((119 - bs.length % 64) % 64) 0 ++ (leBytes (8 * bs.length) 8).reverse

/-- The digest, its first byte in the lowest bits, as a byte string stands in memory. -/
def sha256 (bs : List Byte) : BitVec 256 :=
  let m := shaPadded bs
  let h := shaBlocks (shaPrimes.map (shaConst 3)) (m.length / 64) ((shaPrimes.take 8).map (shaConst 2)) m
  BitVec.ofNat 256 (leNat (h.flatMap fun w => (leBytes w.toNat 4).reverse))

end Sys2Proof.Machine
end

