-- ==== Sys2Proof/Machine/Lms.lean ====
section
/-! DEFINITION. The check of an LMS signature, which R250 names with RFC 8554, SHA-256 and a tree height of 20 and the spec does
not write out (PRESUMED: RFC 8554, log 101). -/

namespace Sys2Proof.Machine

/-- A number in `n` bytes, the most significant first. -/
def bigBytes (n v : Nat) : List Byte := (leBytes v n).reverse

/-- The number in bytes, the most significant first. -/
def bigNat (bs : List Byte) : Nat := leNat bs.reverse

/-- A digest as 32 bytes. -/
def shaBytes (bs : List Byte) : List Byte := leBytes (sha256 bs).toNat 32

/-- RFC 8554, 4.1: the bits of a digit, the number of chains, and the shift of the checksum. -/
structure OtsParams where
  w : Nat
  p : Nat
  ls : Nat
deriving DecidableEq, Repr

/-- RFC 8554, 4.1: the one-time signatures with SHA-256, by type. -/
def otsParams (type : Nat) : Option OtsParams :=
  match type with
  | 1 => some ⟨1, 265, 7⟩
  | 2 => some ⟨2, 133, 6⟩
  | 3 => some ⟨4, 67, 4⟩
  | 4 => some ⟨8, 34, 0⟩
  | _ => none

/-- RFC 8554, 3.1.3: digit `i` of a byte string. -/
def OtsParams.digit (o : OtsParams) (s : List Byte) (i : Nat) : Nat :=
  (s.getD (i * o.w / 8) 0).toNat / 2 ^ (8 - (o.w * (i % (8 / o.w)) + o.w)) % 2 ^ o.w

/-- RFC 8554, 4.4: the checksum of a digest. -/
def OtsParams.checksum (o : OtsParams) (q : List Byte) : Nat :=
  ((List.range (256 / o.w)).map fun i => 2 ^ o.w - 1 - o.digit q i).sum * 2 ^ o.ls

/-- RFC 8554, 4.3: `n` steps of a chain from step `j` on. -/
def otsChain (head : List Byte) : Nat → Nat → List Byte → List Byte
  | _, 0, t => t
  | j, n + 1, t => otsChain head (j + 1) n (shaBytes (head ++ bigBytes 1 j ++ t))

/-- RFC 8554, 4.6: the one-time public key that a signature of a message stands for; `head` is the key's identifier and the number
of its leaf. -/
def OtsParams.key (o : OtsParams) (head c y msg : List Byte) : List Byte :=
  let q := shaBytes (head ++ [0x81, 0x81] ++ c ++ msg)
  let s := q ++ bigBytes 2 (o.checksum q)
  let z := (List.range o.p).flatMap fun i =>
    otsChain (head ++ bigBytes 2 i) (o.digit s i) (2 ^ o.w - 1 - o.digit s i) ((y.drop (32 * i)).take 32)
  shaBytes (head ++ [0x80, 0x80] ++ z)

/-- RFC 8554, 5.4.2: from a node up to the root. -/
def lmsUp (id : List Byte) : Nat → Nat → List Byte → List Byte → List Byte
  | 0, _, t, _ => t
  | h + 1, node, t, path =>
    let sib := path.take 32
    let kids := if node % 2 = 1 then sib ++ t else t ++ sib
    lmsUp id h (node / 2) (shaBytes (id ++ bigBytes 4 (node / 2) ++ [0x83, 0x83] ++ kids)) (path.drop 32)

/-- RFC 8554, 5.4.2: the root that a signature of a message stands for, in a tree of height 20. -/
def OtsParams.root (o : OtsParams) (id sig msg : List Byte) : List Byte :=
  let leaf := sig.take 4
  let node := 2 ^ 20 + bigNat leaf
  let k := o.key (id ++ leaf) ((sig.drop 8).take 32) ((sig.drop 40).take (32 * o.p)) msg
  lmsUp id 20 node (shaBytes (id ++ bigBytes 4 node ++ [0x82, 0x82] ++ k)) (sig.drop (44 + 32 * o.p))

/-- R250: an LMS signature of a message verifies against a public key: the type of a tree of height 20 (8), that of the one-time
signature, the identifier in 16 bytes and the root in 32. -/
def lmsVerifies (key sig msg : List Byte) : Bool :=
  match otsParams (bigNat ((key.drop 4).take 4)) with
  | none => false
  | some o =>
    key.length == 56 && bigNat (key.take 4) == 8 && sig.length == 684 + 32 * o.p && (sig.drop 4).take 4 == (key.drop 4).take 4 &&
      bigNat ((sig.drop (40 + 32 * o.p)).take 4) == 8 && bigNat (sig.take 4) < 2 ^ 20 &&
      o.root ((key.drop 8).take 16) sig msg == key.drop 24

end Sys2Proof.Machine
end

