-- ==== Sys2Proof/Machine/Launch.lean ====
section
/-! DEFINITION. Launch records: the line monitor, the limits of each kind, their starts and their completion
(R174 to R183, R191, R193). -/

namespace Sys2Proof.Machine

/-! ### Slots and records (R174 to R177) -/

/-- R174: the line of slot `j` of a ring. -/
def slotLine (f : Fn) (q : Queue) (j : Nat) : Nat := f.window.toNat * 512 + q.ringofs + j

/-- R175: fields of a seal. -/
def sealPar (l : Line) : Bool := l.getLsbD 1023
def sealExt (l : Line) : Bool := l.getLsbD 1022
def sealRes (l : Line) : Nat := bitsOf l.toNat 1021 1020
def sealKind (l : Line) : Nat := bitsOf l.toNat 1019 1016

/-- R178, R224: the die whose agent translates a function's launch-record addresses: the one at its window's stack. -/
def queueDie (f : Fn) : Nat := dpaStack (f.window.toNat * 65536)

/-- R123: a legal path-0x0 address. -/
def legalVa (a : Nat) : Bool := a < 2 ^ 48

/-- R179: bytes of a record that are reserved. -/
def Rec.zero (r : Rec) (off n : Nat) : Bool := r.num off n == 0

/-- R178: the completion header. -/
def Rec.headOk (r : Rec) : Bool := legalVa (r.num 0 8) && r.num 0 8 % 8 == 0

/-- R83, R179: GANG in the layout of GANGSHAPE. -/
def gangOk (v : Nat) : Bool :=
  let w := bitsOf v 3 0
  let h := bitsOf v 7 4
  let k := bitsOf v 24 16
  bitsOf v 15 8 == 0 && bitsOf v 62 25 == 0 &&
  (if bitsOf v 63 63 == 0 then k == 0 && 1 ≤ w && w ≤ 10 && 1 ≤ h && h ≤ 10 else w == 0 && h == 0 && 1 ≤ k && k ≤ 256)

/-- R179: the limits of KERNEL. -/
def Rec.kernelOk (r : Rec) : Bool :=
  let base := r.num 0x10 8
  let len := r.num 0x18 4
  let tab := r.num 0x20 8
  let gang := r.num 0x28 8
  base != 0 && legalVa base && base % 4 == 0 && len != 0 && len % 4 == 0 && r.num 0x1c 4 < len / 4 &&
  legalVa tab && tab % 64 == 0 && gangOk gang && legalVa (r.num 0x30 8) &&
  (bitsOf gang 63 63 == 1 || r.num 0x30 8 == 0) && r.zero 0x38 71 && r.zero 0xc0 63

/-- R179: the limits of WORK. -/
def Rec.workOk (s : State) (f : Fn) (r : Rec) : Bool :=
  (s.ownWq f (r.num 0x10 2)).isSome && 1 ≤ r.num 0x12 2 && r.num 0x12 2 ≤ 64 && r.zero 0x14 4 &&
  legalVa (r.num 0x18 8) && r.num 0x18 8 % 64 == 0 && r.zero 0x20 95

/-- R179: the limits of TIMER. -/
def Rec.timerOk (s : State) (f : Fn) (r : Rec) : Bool :=
  let period := r.num 0x18 8
  let none_ := r.num 0x20 2 == 0xffff
  (period == 0 || 1000 ≤ period) && (none_ || (s.ownWq f (r.num 0x20 2)).isSome) && (period == 0 || !none_) &&
  r.num 0x24 1 ≤ 1 && r.zero 0x25 3 && r.zero 0x48 55

/-- R179: the limits of PHASER. -/
def Rec.phaserOk (f : Fn) (r : Rec) : Bool := f.ownsPhaser (r.num 0x10 2) && r.num 0x12 1 ≤ 1 && r.zero 0x13 108

/-- R179: the limits of one dependence of WAIT. -/
def Rec.depOk (f : Fn) (r : Rec) (i : Nat) : Bool :=
  let t := r.num (0x18 + 8 * i) 8
  let v := r.num (0x38 + 8 * i) 8
  match r.num (0x10 + i) 1 with
  | 0 => t == 0 && v == 0
  | 1 => t < 65536 && f.ownsPhaser t && v < 2 ^ 32
  | 2 | 3 => legalVa t && t % 8 == 0
  | _ => false

/-- R177, check 3: every limit of a record; PAD's bytes are ignored. -/
def Rec.limitsOk (s : State) (f : Fn) (r : Rec) : Bool :=
  match r.kind.toNat with
  | 0 => true
  | 1 => r.headOk && r.kernelOk
  | 2 => r.headOk && r.workOk s f
  | 3 => r.headOk && r.timerOk s f
  | 4 => r.headOk && r.phaserOk f
  | 5 => r.headOk && (List.range 4).all (r.depOk f) && r.zero 0x14 4 && r.zero 0x58 39
  | _ => r.headOk && r.num 0x10 1 < 2 && r.zero 0x11 110

/-- R177, check 3: the seals of a record's lines. -/
def sealsOk (l0 : Line) (l1 : Option Line) : Bool :=
  sealRes l0 == 0 && (sealExt l0 == (sealKind l0 == 1)) &&
  match l1 with | none => true | some l => sealKind l == 0xf && sealRes l == 0 && !sealExt l

/-! ### The line monitor (R176, R177) -/

/-- R215: the window offset of a record's first slot. -/
def slotOffset (q : Queue) (slot : Nat) : Nat := (q.ringofs + slot % 2 ^ q.ringlog) * 128

/-- R177, R179: a queue freezes with a fatal record that names it. -/
def State.freezeQueue (s : State) (vf : Fin 64) (q : BitVec 8) (slot : Nat) (c : Cause) (a : Nat) : State :=
  (s.modQueue vf q fun x => { x with state := .frozen, fcause := c, fidx := BitVec.ofNat 16 (slot % 2 ^ x.ringlog) }).report vf.val
    { cause := c, cls := 0, vf := BitVec.ofNat 6 vf.val, q := q, addr := BitVec.ofNat 64 a }

/-- R175, R176: HEAD passes a record of `n` slots; the parity flips as it passes the last slot. -/
def Queue.passed (q : Queue) (n : Nat) : Queue :=
  let h := q.head + n
  if 2 ^ q.ringlog ≤ h then { q with head := h - 2 ^ q.ringlog, lap := q.lap + 2 ^ q.ringlog, par := !q.par } else { q with head := h }

/-- R184: AGE is the parse of the oldest KERNEL still unplaced. -/
def Queue.reaged (x : Queue) : Queue :=
  { x with age := ((x.recs.find? fun r => r.kind = 1 ∧ (r.stage = .parsed ∨ r.stage = .ready)).map (·.age)).getD 0 }

/-- R184: a parsed record joins its queue; a KERNEL sets AGE anew. -/
def Queue.joined (q : Queue) (r : Rec) : Queue :=
  let x := { q with recs := q.recs ++ [r] }
  if r.kind = 1 then x.reaged else x

/-- R176: the monitor looks at the HEAD slot of a queue, parses the record there if it has been produced, and looks
again. It looks later where a line of the slot is not open. A line found mismatched, poisoned or uncorrectable is parsed as it
stands, and a WINDOW of 0 is none (log 118). -/
def execLineMonitorParse (vf : Fin 64) (q : BitVec 8) (s : State) : Out :=
  let f := s.fn vf.val
  let x := s.queue vf q
  let n0 := slotLine f x x.head
  let n1 := slotLine f x (x.head + 1)
  if x.state ≠ .active ∨ f.state = .disabled ∨ f.window = 0 then .next s
  else match s.openFor false (if sealExt (s.lineVal n0) ∧ x.head + 1 < 2 ^ x.ringlog then [n0, n1] else [n0]) with
    | (false, s) => .next (s.again (.lineMonitorParse vf q))
    | (true, s) =>
      let l0 := s.lineVal n0
      let l1 := s.lineVal n1
      let fail (c : Cause) : Out := .next (s.freezeQueue vf q x.head c (slotOffset x x.head))
      if sealPar l0 ≠ x.par then .next s
      else if 7 ≤ sealKind l0 then fail cRecOpcode
      else if sealExt l0 ∧ x.head + 1 = 2 ^ x.ringlog then fail cRecStraddle
      else if sealExt l0 ∧ sealPar l1 ≠ x.par then .next s
      else
        let r : Rec := { slot := x.lap + x.head, kind := BitVec.ofNat 4 (sealKind l0), line0 := l0, line1 := if sealExt l0 then l1 else 0,
                         age := s.now }
        if !sealsOk l0 (if sealExt l0 then some l1 else none) || !r.limitsOk s f then fail cRecMalformed
        else
          let s := s.setQueue vf q ((x.joined r).passed (if sealExt l0 then 2 else 1))
          .next (s.push [.event (.lineMonitorParse vf q)])

/-! ### Starts (R179 to R183) -/

/-- R181: the first record of a queue that has not started. -/
def Queue.first (q : Queue) : Option Rec := q.recs.find? fun r => r.stage == .parsed || r.stage == .ready

/-- A record as it stands now. -/
def State.setRec (s : State) (vf : Fin 64) (q : BitVec 8) (r : Rec) : State :=
  s.modQueue vf q fun x => { x with recs := x.recs.map fun y => if y.slot = r.slot then r else y }

/-- A record that has only to complete, with a cause or with success. -/
def State.recOver (s : State) (vf : Fin 64) (q : BitVec 8) (r : Rec) (c : Cause) : State :=
  s.setRec vf q { r with stage := .ended, cause := c }

/-- R179: a record fails at start. -/
def State.failRec (s : State) (vf : Fin 64) (q : BitVec 8) (r : Rec) (c : Cause) (a : Nat) : State :=
  (s.recOver vf q r c).freezeQueue vf q r.slot c a

/-- R179: what an access of a starting record's operands meets: it is waited for, or it fails the record. -/
def State.recHold (s : State) (vf : Fin 64) (q : BitVec 8) (r : Rec) : Hold → State
  | .wait => s
  | .fail c a => s.failRec vf q r c a.toNat

/-- R181, R183: the start of a queue's first unstarted record of a kind; with CANCEL set a record completes without effect,
but for a FENCE that resumes. -/
def State.starting (s : State) (vf : Fin 64) (q : BitVec 8) (kind : Nat) (go : Queue → Rec → State) : Out :=
  let x := s.queue vf q
  match x.first with
  | none => .next s
  | some r =>
    if x.state ≠ .active ∨ r.kind.toNat ≠ kind then .next s
    else if x.cancel ∧ kind ≠ 0 ∧ ¬(kind = 6 ∧ r.num 0x10 1 = 1) then .next (s.recOver vf q r cDepCancelled)
    else .next (go x r)

/-- R179, R180: the limits of a context image table. -/
def ctxTableOk (bs : List Byte) (n : Nat) : Bool :=
  (List.range n).all fun j =>
    let a := leNat ((bs.drop (8 * j)).take 8)
    legalVa a && a % 64 == 0

/-- R179, R180: the context image table is read: what it meets, or whether it is within its limits. -/
def State.readCtx (s : State) (die : Nat) (asid : BitVec 16) (a : Nat) : Except Hold Bool × State :=
  if a = 0 then (.ok true, s)
  else match s.readBytes die asid a 8 with
    | (.error h, s) => (.error h, s)
    | (.ok bs, s) =>
      let n := leNat bs
      if n = 0 ∨ 63 < n then (.ok false, s)
      else match s.readBytes die asid (a + 8) (8 * n) with
        | (.error h, s) => (.error h, s)
        | (.ok t, s) => (.ok (ctxTableOk t n), s)

/-- R179: the numbers of a block list. -/
def blockList (bs : List Byte) (k : Nat) : List Nat := (List.range k).map fun j => leNat ((bs.drop (2 * j)).take 2)

/-- Numbers that rise strictly. -/
def rising : List Nat → Bool
  | a :: b :: t => a < b && rising (b :: t)
  | _ => true

/-- R179: the block list is read. -/
def State.readBlocks (s : State) (die : Nat) (asid : BitVec 16) (a k : Nat) : Except Hold (List Nat) × State :=
  if a = 0 then (.ok [], s)
  else match s.readBytes die asid a (2 * k) with
    | (.error h, s) => (.error h, s)
    | (.ok bs, s) => (.ok (blockList bs k), s)

/-- R179, R180: a KERNEL becomes ready: its block list and its context image table are read. -/
def execRecordReady (vf : Fin 64) (q : BitVec 8) (s : State) : Out :=
  s.starting vf q 1 fun x r =>
    if r.stage ≠ .parsed then s
    else
      let die := queueDie (s.fn vf.val)
      match s.readBlocks die x.asid (r.num 0x30 8) (bitsOf (r.num 0x28 8) 24 16) with
      | (.error h, s) => s.recHold vf q r h
      | (.ok bl, s) =>
        if !(rising bl && bl.all (· < 256)) then s.failRec vf q r cRecMalformed (slotOffset x r.slot)
        else match s.readCtx die x.asid (r.num 0x20 8) with
          | (.error h, s) => s.recHold vf q r h
          | (.ok false, s) => s.failRec vf q r cRecMalformed (slotOffset x r.slot)
          | (.ok true, s) => s.setRec vf q { r with stage := .ready, blocks := bl }

/-- R193: entries of 64 bytes are appended in order. -/
def State.wqAppends (s : State) (n : Nat) (vf : Fin 64) : Nat → List Byte → State
  | 0, _ => s
  | k + 1, bs => (s.wqAppend n (leNat (bs.take 64)) (some vf)).wqAppends n vf k (bs.drop 64)

/-- R181, R193: WORK reads its entries and, once its turn has come and they all fit, appends them. -/
def execWork (vf : Fin 64) (q : BitVec 8) (s : State) : Out :=
  s.starting vf q 2 fun x r =>
    let n := r.num 0x10 2
    let k := r.num 0x12 2
    match tfind s.disp.wqs n with
    | none => s.failRec vf q r cRecMalformed (slotOffset x r.slot)
    | some w =>
      match s.wqTurn n w (.record vf q r.slot) k with
      | (false, s) => s
      | (true, t) => match t.readBytes (queueDie (s.fn vf.val)) x.asid (r.num 0x18 8) (64 * k) with
        | (.error .wait, u) => s.keepWaits u
        | (.error (.fail c a), t) => t.failRec vf q r c a.toNat
        | (.ok bs, t) => (t.wqAppends n vf k bs).recOver vf q r 0

/-- R181, R191: TIMER with OP 0 arms a timer when the wheel has room; a periodic one completes its record at once. -/
def execTimerArm (vf : Fin 64) (q : BitVec 8) (s : State) : Out :=
  s.starting vf q 3 fun _ r =>
    if r.num 0x24 1 ≠ 0 ∨ 1024 ≤ s.disp.timers.length then s
    else
      let period := r.num 0x18 8
      let t : Timer :=
        { id := s.disp.nextTimer, vf := vf, q := q, slot := if period = 0 then some r.slot else none,
          wq := BitVec.ofNat 16 (r.num 0x20 2), tag := BitVec.ofNat 16 (r.num 0x22 2), when_ := r.num 0x10 8, period := period,
          payload := BitVec.ofNat 256 (r.num 0x28 32) }
      let s := { s with disp := { s.disp with timers := s.disp.timers ++ [t], nextTimer := s.disp.nextTimer + 1 } }
      if period = 0 then s.setRec vf q { r with stage := .live } else s.recOver vf q r 0

/-- R181: TIMER with OP 1 removes the function's periodic timer of its WQ and TAG. -/
def execTimerCancel (vf : Fin 64) (q : BitVec 8) (s : State) : Out :=
  s.starting vf q 3 fun _ r =>
    if r.num 0x24 1 ≠ 1 then s
    else
      let hit (t : Timer) : Bool :=
        t.vf = vf && t.period != 0 && t.wq.toNat == r.num 0x20 2 && t.tag.toNat == r.num 0x22 2
      let gone := s.disp.timers.find? hit
      let s := { s with disp := { s.disp with timers := s.disp.timers.filter fun t => some t ≠ gone } }
      s.recOver vf q r 0

/-- R179, R181, R235: PHASER with OP 0 arrives on behalf of the host. -/
def execPhaserArrive (vf : Fin 64) (q : BitVec 8) (s : State) : Out :=
  s.starting vf q 4 fun _ r =>
    if r.num 0x12 1 ≠ 0 then s
    else
      let n := r.num 0x10 2
      (s.setPhaser n (s.phaser n).arrive).recOver vf q r 0

/-- R179, R235: PHASER with OP 1 drops a signal-only member; one that breaks the phaser's limits is malformed. -/
def execPhaserDrop (vf : Fin 64) (q : BitVec 8) (s : State) : Out :=
  s.starting vf q 4 fun x r =>
    if r.num 0x12 1 ≠ 1 then s
    else
      let n := r.num 0x10 2
      match (s.phaser n).drop 0 with
      | some p => (s.setPhaser n p).recOver vf q r 0
      | none => s.failRec vf q r cRecMalformed (slotOffset x r.slot)

/-- R179, R182: the words of a WAIT are translated and examined, from dependence `i` on. -/
def State.startDeps (s : State) (die : Nat) (asid : BitVec 16) (r : Rec) :
    Nat → Nat → Except Hold (List (Option Trans × Nat)) × State
  | 0, _ => (.ok [], s)
  | k + 1, i =>
    let kind := r.num (0x10 + i) 1
    let rest (s : State) (d : Option Trans × Nat) : Except Hold (List (Option Trans × Nat)) × State :=
      match s.startDeps die asid r k (i + 1) with
      | (.error h, s) => (.error h, s)
      | (.ok l, s) => (.ok (d :: l), s)
    if kind < 2 then rest s (none, if kind = 0 then 1 else 0)
    else
      let a := r.num (0x18 + 8 * i) 8
      match s.readGlobal die asid a with
      | (.error h, s) => (.error h, s)
      | (.ok l, s) =>
        let st := depState kind (BitVec.ofNat 64 (lineBytes l (a % 128) 8)) (BitVec.ofNat 64 (r.num (0x38 + 8 * i) 8))
        match s.translate die asid a 1 false with
        | (.ok t, s) => rest s (some t, st)
        | (.error h, s) => (.error h, s)

/-- R179, R181, R182: WAIT starts. -/
def execWait (vf : Fin 64) (q : BitVec 8) (s : State) : Out :=
  s.starting vf q 5 fun x r =>
    match s.startDeps (queueDie (s.fn vf.val)) x.asid r 4 0 with
    | (.error h, s) => s.recHold vf q r h
    | (.ok ds, s) => s.setRec vf q { r with stage := .live, waitVa := ds.map (·.1), waitSt := ds.map (·.2) }

/-- R181, R183: FENCE waits until every earlier record has completed; with RESUME it clears CANCEL. -/
def execFence (vf : Fin 64) (q : BitVec 8) (s : State) : Out :=
  s.starting vf q 6 fun x r =>
    if x.recs.head? ≠ some r then s
    else (s.modQueue vf q fun y => if r.num 0x10 1 = 1 then { y with cancel := false } else y).recOver vf q r 0

/-- R181: PAD. -/
def execPad (vf : Fin 64) (q : BitVec 8) (s : State) : Out := s.starting vf q 0 fun _ r => s.recOver vf q r 0

/-! ### Dependences and completion words (R178, R182, R183) -/

/-- R182: how a dependence of a started WAIT stands. -/
def Rec.depNow (s : State) (r : Rec) (i : Nat) : Nat :=
  if r.num (0x10 + i) 1 = 1 then
    (if (s.phaser (r.num (0x18 + 8 * i) 8)).passed (BitVec.ofNat 32 (r.num (0x38 + 8 * i) 8)) then 1 else 0)
  else r.waitSt.getD i 0

/-- R181: whether a started WAIT completes, and with what cause. -/
def Rec.waitEnds (s : State) (r : Rec) : Option Cause :=
  let ds := (List.range 4).map (r.depNow s)
  if ds.contains 2 then some cDepCancelled else if ds.all (· == 1) then some 0 else none

/-- R178: a record's completion word; false while it has to wait for its line. -/
def State.writeCompletion (s : State) (vf : Fin 64) (q : BitVec 8) (r : Rec) : Bool × State :=
  let x := s.queue vf q
  let a := r.num 0 8
  if r.kind = 0 ∨ a = 0 then (true, s)
  else
    let w := if r.cause = 0 then doneWord 0 (BitVec.ofNat 56 (r.num 8 8)) else errorWord 0 r.cause
    match s.writeGlobal (queueDie (s.fn vf.val)) x.asid a (byteMask (a % 128) 8) (placed w.toNat (a % 128)) (some vf) with
    | (none, s) => (true, s)
    | (some .wait, s) => (false, s)
    | (some (.fail c _), s) =>
      (true, s.report vf.val { cause := c, cls := 2, vf := BitVec.ofNat 6 vf.val, q := q, point := 10, addr := BitVec.ofNat 64 a,
                               info := BitVec.ofNat 64 (slotOffset x r.slot) })

/-- R178: a completed record gets its word and leaves its queue; false while the word has to wait. -/
def State.completeRec (s : State) (vf : Fin 64) (q : BitVec 8) (r : Rec) : Bool × State :=
  match s.writeCompletion vf q r with
  | (false, s) => (false, s)
  | (true, s) => (true, s.modQueue vf q fun x => { x with recs := x.recs.filter (·.slot ≠ r.slot) })

end Sys2Proof.Machine
end

