-- ==== Sys2Proof/Machine/Place.lean ====
section
/-! DEFINITION. The run lists, placement, binding and resume of gangs, yield requests, the collection of frames, the
completion of records and the timer wheel (R15 to R17, R161 to R163, R171 to R173, R181 to R192). -/

namespace Sys2Proof.Machine

/-! ### Cells and blocks (R15, R16, R238) -/

/-- R15: the cell at a row and column of a block. -/
def blockCell (b r c : Nat) : Nat := b / 16 * 1600 + (b % 16 / 4 * 10 + r) * 40 + b % 4 * 10 + c
/-- R15: the block of a cell. -/
def cellBlock (c : Nat) : Nat := c / 1600 * 16 + c % 1600 / 40 / 10 * 4 + c % 40 / 10
/-- R16: the cells of a block in rank order. -/
def blockCells (b : Nat) : List Nat := (List.range 100).map fun j => blockCell b (j / 10) (j % 10)
/-- R16: the cells of a rectangle in rank order. -/
def rectCells (b row col w h : Nat) : List Nat := (List.range (w * h)).map fun j => blockCell b (row + j / w) (col + j % w)
/-- R187: the rectangles of a block, by rising (row, column). -/
def rectSpots (b w h : Nat) : List (List Nat) :=
  (List.range (11 - h)).flatMap fun row => (List.range (11 - w)).map fun col => rectCells b row col w h

/-- R238: a cell that the dispatcher does not treat as occupied for ever. -/
def State.cellUsable (s : State) (c : Nat) : Bool := (s.die (c / 1600)).state == .online && (s.die (c / 1600)).usable.getLsbD (c % 1600)
/-- R187: a usable cell that is not bound. -/
def State.cellOpen (s : State) (c : Nat) : Bool := s.cellUsable c && (s.cell c).bound.isNone

/-! ### What waits to be placed (R172, R187) -/

/-- R172, R187: a queue's ready KERNEL, or a held gang, with its rank, its shape and the cells it must have, if any. -/
structure Want where
  prio : Nat
  age : Nat
  vf : Fin 64
  q : BitVec 8
  gang : Option Nat := none
  kind : Bool
  w : Nat
  h : Nat
  k : Nat
  list : List Nat := []
  own : List Nat := []
deriving DecidableEq, Repr

/-- R187: by PRIO, highest first, then by AGE, oldest first, then by the lower (VFID, QIDX). -/
def Want.before (a b : Want) : Bool :=
  b.prio < a.prio || (a.prio == b.prio && (a.age < b.age || (a.age == b.age && qkey a.vf a.q < qkey b.vf b.q)))

/-- R179: the shape in a KERNEL's GANG. -/
def Rec.kind1 (r : Rec) : Bool := bitsOf (r.num 0x28 8) 63 63 == 1

/-- R181, R187: the queue's ready KERNEL, if it may be bound. -/
def Queue.want (x : Queue) (vf : Fin 64) (q : BitVec 8) : Option Want :=
  match x.first with
  | some r =>
    let g := r.num 0x28 8
    if x.state = .active ∧ r.kind = 1 ∧ r.stage = .ready ∧ x.inflight < 16 ∧ ¬x.cancel then
      some { prio := x.prio.val, age := r.age, vf := vf, q := q, kind := r.kind1, w := bitsOf g 3 0, h := bitsOf g 7 4,
             k := bitsOf g 24 16, list := r.blocks }
    else none
  | none => none

/-- R17: whether a cell is bound to a gang. -/
def State.isOf (s : State) (n c : Nat) : Bool := (s.cell c).bound.any (·.gang == n)

/-- R216, R217: whether a replayable record of a gang, or of its cell `c`, is on its way, is held or awaits its response. -/
def State.gangAwaits (s : State) (vf : Fin 64) (n : Option Nat) (c : Option Nat) : Bool :=
  let f := s.fn vf.val
  let at_ (k : Nat) : Bool := c.all (· == k)
  f.await.any (fun a => a.gang == n && at_ a.cell) ||
    (f.found ++ f.due ++ f.held).any fun r => r.cls == 1 && r.gang == n && at_ r.cell.toNat

/-- R172, R181, R217: a held gang that may be resumed, none of its cells still waiting for a response or bound to be
inspected; without an image it goes back to its own cells. -/
def State.gangWant (s : State) (n : Nat) (g : Gang) : Option Want :=
  let x := s.queue g.vf g.q
  if g.state = .held ∧ g.fatal = none ∧ ¬g.cells.any (s.isOf n) ∧ ¬s.gangAwaits g.vf (some n) none ∧ (x.state = .active ∨ x.state = .frozen) then
    some { prio := x.prio.val, age := g.age, vf := g.vf, q := g.q, gang := some n, kind := g.kind, w := g.w, h := g.h,
           k := g.blocks.length, own := if g.image then [] else g.cells }
  else none

/-- A want takes its place among ranked ones. -/
def rankIn (w : Want) : List Want → List Want
  | [] => [w]
  | u :: t => if w.before u then w :: u :: t else u :: rankIn w t

/-- R187, R236, R249: the wants of ENABLED functions, ranked; none before READY. -/
def State.wants (s : State) : List Want :=
  if !s.sys.bootDone then []
  else
    let gs := s.disp.gangs.filterMap fun (n, g) => s.gangWant n g
    let rs := s.disp.queues.filterMap fun (key, x) => x.want (Fin.ofNat 64 (key / 256)) (BitVec.ofNat 8 key)
    ((gs ++ rs).filter fun w => (s.fn w.vf.val).state = .enabled).foldl (fun l w => rankIn w l) []

/-! ### Where a want fits (R187, R188) -/

/-- R236: the blocks a function may use. -/
def State.blocksOf (s : State) (vf : Fin 64) : List Nat := (List.range 256).filter fun b => (s.fn vf.val).blockmask.getLsbD b

/-- R172: the cells that stay reserved for held gangs. -/
def State.heldCells (s : State) (p : Gang → Bool) : List Nat :=
  s.disp.gangs.flatMap fun (_, g) => if g.state = .held ∧ ¬g.image ∧ p g then g.cells else []

/-- R172: whether a held gang ranks below a want. -/
def State.gangBelow (s : State) (w : Want) (g : Gang) : Bool :=
  w.before { prio := (s.queue g.vf g.q).prio.val, age := g.age, vf := g.vf, q := g.q, kind := g.kind, w := 0, h := 0, k := 0 }

/-- R188: the rank of a reserving record. -/
def Reserve.want (r : Reserve) : Want := { prio := r.prio, age := r.age, vf := r.vf, q := r.q, kind := false, w := 0, h := 0, k := 0 }

/-- R188: whether a want is the record that a reservation is for. -/
def Reserve.isFor (r : Reserve) (w : Want) : Bool := r.vf == w.vf && r.q == w.q && r.gang == w.gang && r.age == w.age

/-- R188: the cells that reservations keep from a want: the blocks reserved for another record, unless it ranks below, until that
record is placed. -/
def State.reservedFrom (s : State) (w : Want) : List Nat :=
  s.disp.reserves.flatMap fun r =>
    if r.isFor w ∨ w.before r.want then [] else (r.cells.map cellBlock).eraseDups.flatMap blockCells

/-- R187: where a want fits on the cells that a test allows: its blocks and its cells in rank order. -/
def State.fitOn (s : State) (w : Want) (av : Nat → Bool) : Option (List Nat × List Nat) :=
  if w.own ≠ [] then (if w.own.all fun c => av c && (s.fn w.vf.val).blockmask.getLsbD (cellBlock c) then some ((w.own.map cellBlock).eraseDups, w.own) else none)
  else if w.kind then
    let free := (s.blocksOf w.vf).filter fun b => (blockCells b).all av
    let bs := if w.list = [] then free.take w.k else w.list
    if bs.length = w.k ∧ bs.all free.contains then some (bs, bs.flatMap blockCells) else none
  else
    (((s.blocksOf w.vf).flatMap fun b => rectSpots b w.w w.h).find? (·.all av)).map fun cs => ((cs.map cellBlock).eraseDups, cs)

/-- R172, R187: where a want fits: on free cells, or, if it needs them, on those of held gangs ranked below it; `more` are
cells that count as free besides. -/
def State.fit (s : State) (w : Want) (more : List Nat) : Option (List Nat × List Nat) :=
  let off := s.reservedFrom w
  let base (c : Nat) : Bool := s.cellUsable c && ((s.cell c).bound.isNone || more.contains c) && !off.contains c
  let mine := w.own
  let kept := s.heldCells fun _ => true
  let firm := s.heldCells fun g => !s.gangBelow w g
  (s.fitOn w fun c => base c && (mine.contains c || !kept.contains c)).or
    (s.fitOn w fun c => base c && (mine.contains c || !firm.contains c))

/-! ### Reservations (R188) -/

/-- The first of the lists with the fewest members that pass a test. -/
def leastOf (p : Nat → Bool) : List (List Nat) → Option (List Nat)
  | [] => none
  | a :: t => match leastOf p t with
    | none => some a
    | some b => if (a.filter p).length ≤ (b.filter p).length then some a else some b

/-- R188: the blocks with the fewest occupied cells, the lowest of them first; `l` is ranked already. -/
def blockIn (p : Nat → Bool) (b : Nat) : List Nat → List Nat
  | [] => [b]
  | u :: t => if ((blockCells b).filter p).length < ((blockCells u).filter p).length then b :: u :: t else u :: blockIn p b t

/-- R188: the cells that would be reserved for a want. -/
def State.reserveSpot (s : State) (w : Want) : Option (List Nat) :=
  let taken := (s.disp.reserves.flatMap fun r => r.cells.map cellBlock).eraseDups
  let bs := (s.blocksOf w.vf).filter fun b => !taken.contains b
  let busy (c : Nat) : Bool := !s.cellOpen c || (s.heldCells fun _ => true).contains c
  let sound (cs : List Nat) : Bool := cs.all s.cellUsable
  if w.own ≠ [] then (if w.own.all fun c => bs.contains (cellBlock c) then some w.own else none)
  else if w.kind then
    let ok := bs.filter fun b => sound (blockCells b)
    let l := if w.list = [] then (ok.foldl (fun l b => blockIn busy b l) []).take w.k else w.list
    if l.length = w.k ∧ l.all ok.contains then some (l.flatMap blockCells) else none
  else leastOf busy ((bs.flatMap fun b => rectSpots b w.w w.h).filter sound)

/-- R188: a want whose queue has been passed over BYPASS_LIMIT times gets its reservation. -/
def State.reserveDue (s : State) (w : Want) : State :=
  let x := s.queue w.vf w.q
  if x.resv ∨ x.bypass < (s.fn w.vf.val).bypassLimit.toNat then s
  else match s.reserveSpot w with
    | none => s
    | some cs =>
      let s := s.modQueue w.vf w.q fun x => { x with resv := true }
      { s with disp := { s.disp with reserves := s.disp.reserves ++ [{ vf := w.vf, q := w.q, gang := w.gang, cells := cs, prio := w.prio, age := w.age }] } }

/-- R188: an admission passes over the wants ranked above it; each of their queues counts it once. -/
def State.passOver (s : State) (ws : List Want) (w : Want) : State :=
  let keys := ((ws.filter (·.before w)).map fun u => (u.vf, u.q)).eraseDups.filter (· ≠ (w.vf, w.q))
  keys.foldl (fun s (vf, q) => s.modQueue vf q fun x => { x with bypass := min 255 (x.bypass + 1) }) s

/-- R188: placement clears BYPASS and the reservation, but for those of another record of the queue that has reserved cells. -/
def State.placed (s : State) (w : Want) : State :=
  let s := { s with disp := { s.disp with reserves := s.disp.reserves.filter fun r => !r.isFor w } }
  if s.disp.reserves.any fun r => r.vf == w.vf && r.q == w.q then s
  else s.modQueue w.vf w.q fun x => { x with bypass := 0, resv := false }

/-! ### Yield requests (R84, R189) -/

/-- R189: a gang that runs and may be asked to yield. -/
def Gang.asked (g : Gang) : Bool := g.state == .running && !g.finished

/-- R84, R189: one cell is asked to yield; a sequencer that stands in a wait instruction that has not ended yields there. -/
def State.askCell (s : State) (vf : Fin 64) (c : Nat) : State :=
  let s := s.modCell c fun x => { x with seq := { x.seq with yreq := true, ydeadline := (s.fn vf.val).ybudget } }
  if (s.cell c).freeze = .wait ∧ ¬(s.cell c).ended ∧ (s.cell c).stop = none then s.yieldAt c true else s

def State.setGang (s : State) (n : Nat) (g : Gang) : State := { s with disp := { s.disp with gangs := tset s.disp.gangs n g } }

/-- R189: every cell of a gang is asked in one cycle. -/
def State.askGang (s : State) (n : Nat) (g : Gang) : State :=
  if g.asked then (g.cells.foldl (fun s c => s.askCell g.vf c) s).setGang n { g with state := .stopping } else s

/-- R189: the rank of a gang among gangs. -/
def State.gangRank (s : State) (g : Gang) : Want :=
  { prio := (s.queue g.vf g.q).prio.val, age := g.age, vf := g.vf, q := g.q, kind := false, w := 0, h := 0, k := 0 }

/-- The gangs in rising rank. -/
def State.risingGangs (s : State) : List (Nat × Gang) :=
  s.disp.gangs.foldl (fun l x => ins x l) []
where
  /-- A gang takes its place. -/
  ins (x : Nat × Gang) : List (Nat × Gang) → List (Nat × Gang)
    | [] => [x]
    | y :: t => if (s.gangRank y.2).before (s.gangRank x.2) then x :: y :: t else y :: ins x t

/-- R188: the gangs on reserved cells are asked, in rising rank. -/
def State.askReserved (s : State) : State :=
  let cs := s.disp.reserves.flatMap (·.cells)
  s.risingGangs.foldl (fun s (n, g) => if g.cells.any cs.contains then s.askGang n g else s) s

/-- R171, R217: the cells of a gang that come free once it is stopped. -/
def State.leaving (s : State) (g : Gang) : List Nat := g.cells.filter fun c => !(s.cell c).stop.any fun t => codeRank t.code != 0

/-- R189: for a want that fits neither on free cells nor on those about to be freed, the lowest-ranked running gang of
lower PRIO whose cells would let it fit is asked. -/
def State.askFor (s : State) (w : Want) : State :=
  let leaving := s.disp.gangs.flatMap fun (_, g) => if g.state = .stopping then s.leaving g else []
  if (s.fit w leaving).isSome then s
  else match s.risingGangs.find? fun (_, g) =>
      g.asked && (s.queue g.vf g.q).prio.val < w.prio && (s.fit w (leaving ++ s.leaving g)).isSome with
    | some (n, g) => s.askGang n g
    | none => s

/-! ### Binding (R17, R71, R83, R88, R107, R121, R122) -/

/-- R102, R107: a slot after a bind for the same function. -/
def Region.rebound (r : Region) : Region := { ffl := r.ffl, cause := r.cause, cut := r.cut, pool := r.pool }

/-- R88, R107, R121, R122, R242, R244: what a bind for a function leaves of a cell. -/
def CellSt.kept (x : CellSt) (vf : Fin 64) : CellSt :=
  if x.prevVf = some vf then
    { spad := x.spad, ecc := x.ecc, scrub := x.scrub, pe := x.pe, region := x.region.map Region.rebound, ec := x.ec, prevVf := some vf }
  else { ec := x.ec, prevVf := some vf }

/-- R83: GANGBM0 to GANGBM3. -/
def gangMap (kind : Bool) (blocks : List Nat) : Vector Word 4 :=
  Vector.ofFn fun j =>
    if kind then numWord (((blocks.filter fun b => b / 64 = j.val).map fun b => 2 ^ (b % 64)).sum) else 0

/-- R83: the identity of a rank's cell. -/
def Gang.ident (g : Gang) (x : Queue) (r : Rec) (rank c : Nat) : Ident :=
  { asid := x.asid, vfid := BitVec.ofNat 6 g.vf.val, cellid := BitVec.ofNat 15 c, rank := BitVec.ofNat 15 rank
    origin := BitVec.ofNat 15 (g.cells.headD 0), gangshape := numWord (r.num 0x28 8), codebase := BitVec.ofNat 48 (r.num 0x10 8)
    codelen := BitVec.ofNat 32 (r.num 0x18 4), ctxtab := BitVec.ofNat 48 (r.num 0x20 8), gangbm := gangMap g.kind g.blocks }

/-- R71, R75: g1 to g8 of a KERNEL's arguments. -/
def Rec.args (r : Rec) : Vector GReg 32 :=
  Vector.ofFn fun j => if 1 ≤ j.val ∧ j.val ≤ 8 then GReg.of (numWord (r.num (0x80 + 8 * (j.val - 1)) 8)) else {}

/-- R117, R122: what a cell has asked to read before a bind is not delivered to it after that (log 119). -/
def State.dropReads (s : State) (c : Nat) : State :=
  { s with mem := { s.mem with reqs := s.mem.reqs.filter fun (_, r) => r.cell ≠ c || r.writes } }

/-- R17, R88: one cell of a gang is bound. -/
def State.bindCell (s : State) (n : Nat) (g : Gang) (r : Rec) (rank c : Nat) : State :=
  let s := s.dropReads c
  let f := s.fn g.vf.val
  let x := s.queue g.vf g.q
  let pc := BitVec.ofNat 48 (r.num 0x10 8 + 4 * r.num 0x1c 4)
  s.modCell c fun y =>
    { y.kept g.vf with
      bound := some { vf := g.vf, q := g.q, slot := g.slot, gang := n }
      seq := { g := r.args, pc := pc, npc := pc + 4, fw := x.fwq, testm := f.testm, traceFn := f.tracefn, id := g.ident x r rank c } }

/-- Numbers with their positions. -/
def ranked (cs : List Nat) : List (Nat × Nat) := cs.mapIdx fun j c => (j, c)

/-- R172: the lines that the images of a gang's cells and the words that name them stand in. -/
def State.imageLines (s : State) (g : Gang) : List Nat :=
  let x := s.queue g.vf g.q
  (ranked g.cells).flatMap fun (j, _) => (g.frameAt x j + 0x18) / 128 :: linesOf (g.imageAt x j) 524288

/-- R172: a gang's cells are given away: an image of each is written, and the frames name it; false while a line is not open. -/
def State.imageGang (s : State) (n : Nat) (g : Gang) : Bool × State :=
  match s.openFor true (s.imageLines g) with
  | (false, s) => (false, s)
  | (true, s) =>
    let x := s.queue g.vf g.q
    let new := (ranked g.cells).filter fun (j, _) => s.dpaWord (g.frameAt x j + 0x18) = 0
    let found (t : StopNote) : StopNote :=
      match new.find? (·.1 = t.rank) with | some (_, c) => { t with words := (s.cell c).badWords } | none => t
    let s := new.foldl (fun s (j, c) =>
      (s.writeImage c (g.imageAt x j)).storeDpa (g.frameAt x j + 0x18) 8 (g.imageAt x j) none) s
    (true, s.setGang n { g with image := true, notes := g.notes.map found })

/-- R172: the held gangs with a cell among those to be bound. -/
def State.heldOn (s : State) (self : Option Nat) (cs : List Nat) : Tab Gang :=
  s.disp.gangs.filter fun (n, g) => g.state = .held ∧ ¬g.image ∧ some n ≠ self ∧ g.cells.any cs.contains

/-- R172: held gangs give their cells up, one after another; false while one cannot. -/
def State.imageGangs (s : State) : Tab Gang → Bool × State
  | [] => (true, s)
  | (n, g) :: t => match s.imageGang n g with
    | (true, s) => s.imageGangs t
    | (false, s) => (false, s)

/-- R172: every held gang with a cell among those to be bound gives its cells up. -/
def State.evictHeld (s : State) (self : Option Nat) (cs : List Nat) : Bool × State := s.imageGangs (s.heldOn self cs)

/-- The lowest place in a queue's save area that no gang of it has (log 31). -/
def State.freeArea (s : State) (vf : Fin 64) (q : BitVec 8) : Nat :=
  let used := s.disp.gangs.filterMap fun (_, g) => if g.vf = vf ∧ g.q = q then some g.area else none
  ((List.range 17).find? fun j => !used.contains j).getD 16

/-- R17, R181: a KERNEL starts on the cells found for it, which held gangs have given up. -/
def State.bindGang (s : State) (w : Want) (r : Rec) (blocks cells : List Nat) : State :=
  let n := s.disp.nextGang
  let g : Gang := { vf := w.vf, q := w.q, slot := r.slot, kind := w.kind, w := w.w, h := w.h, blocks := blocks, cells := cells,
                    age := r.age, area := s.freeArea w.vf w.q }
  let s := (ranked cells).foldl (fun s (j, c) => s.bindCell n g r j c) s
  let s := { s.setGang n g with disp := { (s.setGang n g).disp with nextGang := n + 1 } }
  ((s.setRec w.vf w.q { r with stage := .live }).modQueue w.vf w.q fun x =>
    ({ x with inflight := x.inflight + 1 } : Queue).reaged).placed w

/-- R181, R187: a queue's ready KERNEL starts when its gang fits; the wants ranked above it are passed over. -/
def execKernel (vf : Fin 64) (q : BitVec 8) (s : State) : Out :=
  s.starting vf q 1 fun x r =>
    let ws := s.wants
    match x.want vf q with
    | none => s
    | some w =>
      if !ws.contains w then s
      else match s.fit w [] with
        | none => s
        | some (bs, cs) => match s.evictHeld none cs with
          | (true, t) => (t.passOver ws w).bindGang w r bs cs
          | (false, t) => s.keepWaits t

/-! ### Resume (R173) -/

/-- R42, R217: the entries whose faults have been reported, and then serviced, are to be reissued. -/
def CellSt.clearFaults (x : CellSt) : CellSt :=
  let l := x.seq.log.map fun e => if e.fault ≠ 0 ∧ e.remain = 0 then { e with again := true } else e
  { x with seq := { x.seq with log := l }, replay := l.any (·.again) }

/-- R173: the cells of a gang that resumes, one after another; false when one has to wait. `old` is the gang as it was
held. -/
def State.resumeCells (s : State) (n : Nat) (old g : Gang) (r : Rec) : List (Nat × Nat) → Bool × State
  | [] => (true, s)
  | (j, c) :: t =>
    let x := s.queue g.vf g.q
    let s := s.bindCell n g r j c
    let found := match old.noteOf j with | some m => m.words | none => []
    match (if old.image then s.openFor false (linesOf (old.imageAt x j) 524288) else (true, s)) with
    | (false, s) => (false, s)
    | (true, s) =>
    let s := if old.image then
        s.modCell c fun y => { y with spad := [], ecc := [], scrub := [] }.takeImage found 0 (s.readFrame (old.imageAt x j) 65536)
      else s
    let s := s.modCell c fun y => { y with halted := old.halts.contains j }
    match s.restoreCell c (old.cells.getD j c) (old.frameAt x j) (old.noteOf j) with
    | (false, s) => (false, s)
    | (true, s) => (s.modCell c CellSt.clearFaults).resumeCells n old g r t

/-- R173: a held gang is bound again, whole; if a reload has to wait for a line, nothing but its recall has begun. -/
def State.resumeGang (s : State) (ws : List Want) (w : Want) (n : Nat) (old : Gang) (blocks cells : List Nat) : Bool × State :=
  match (s.queue w.vf w.q).recs.find? (·.slot = old.slot) with
  | none => (false, s)
  | some r =>
    let g := { old with blocks := blocks, cells := cells, state := .running, image := false, saved := [], halts := [], idle := [], notes := [] }
    match s.evictHeld (some n) cells with
    | (false, t) => (false, s.keepWaits t)
    | (true, t) => match (t.setGang n g).resumeCells n old g r (ranked cells) with
      | (false, t) => (false, s.keepWaits t)
      | (true, t) => (true, (t.passOver ws w).placed w)

/-! ### Placement (R187 to R189) -/

/-- One want is admitted: a record by the start of its queue, a held gang by its resume, and then placement goes on; where that has
to wait for a line, placement waits with it. False for a gang whose record is gone. -/
def State.bindWant (s : State) (ws : List Want) (w : Want) (fit : List Nat × List Nat) : Bool × State :=
  match w.gang with
  | none => match s.evictHeld none fit.2 with
    | (true, _) => (true, s.push [.start w.vf w.q, .event .placement])
    | (false, t) => (true, s.keepWaits t)
  | some n => match tfind s.disp.gangs n with
    | none => (false, s)
    | some g =>
      if (s.queue w.vf w.q).recs.all (·.slot ≠ g.slot) then (false, s)
      else match s.resumeGang ws w n g fit.1 fit.2 with
        | (false, s) => (true, s)
        | (true, s) => (true, s.push [.event .placement])

/-- R187: the wants from the highest rank down: the first that fits is admitted, and then placement goes on. -/
def State.placeFrom (s : State) (ws : List Want) : List Want → State
  | [] => (ws.foldl (fun s w => if (s.fit w []).isSome then s else s.askFor w) s).askReserved
  | w :: t => match s.fit w [] with
    | none => s.placeFrom ws t
    | some f => match s.bindWant ws w f with
      | (true, s) => s
      | (false, s) => s.placeFrom ws t

/-- R187, R188: placement. -/
def execPlacement (s : State) : Out :=
  let ws := s.wants
  let s := ws.foldl (fun s w => s.reserveDue w) s
  .next (s.placeFrom ws ws)

/-! ### The Anole (R185, R186) -/

/-- R186: a link of a priority's list, none for its head: NEXT and LGEN. -/
def State.readLink (s : State) (p : Fin 8) : Option Nat → Option Nat × Word
  | none => ((s.disp.heads[p.val]).next, (s.disp.heads[p.val]).lgen)
  | some key => let x := tget {} s.disp.queues key; (x.next, x.lgen)

/-- R186: a walk at the head of a list. -/
def State.walkHead (s : State) (p : Fin 8) : Walk :=
  { list := p, link := none, node := (s.readLink p none).1, gen := (s.readLink p none).2 }

/-- R186: what an examined queue's first unstarted record is offered. -/
def State.offer (s : State) (key : Nat) : List Task :=
  let vf : Fin 64 := Fin.ofNat 64 (key / 256)
  let q := BitVec.ofNat 8 key
  let x := tget {} s.disp.queues key
  match x.first with
  | none => []
  | some r =>
    if x.state ≠ .active ∨ (s.fn vf.val).state ≠ .enabled then []
    else if r.kind = 1 ∧ ¬x.cancel then (if r.stage = .parsed then [.event (.recordReady vf q)] else [])
    else [.start vf q]

/-- R186: a walk goes on from a list that has no more queues to the next; a pass is complete after list 0, and another begins. -/
def State.walkOn (s : State) (w : Walk) : Nat → State
  | 0 => { s with disp := { s.disp with walk := w } }
  | f + 1 =>
    if w.node.isSome then { s with disp := { s.disp with walk := w } }
    else if w.list = 0 then { s with disp := { s.disp with walk := s.walkHead 7, anopass := s.disp.anopass + 1 } }
    else s.walkOn (s.walkHead (w.list - 1)) f

/-- R186: the link of an examined queue: a splice that has moved the link before it starts the list again. -/
def State.walkPast (s : State) (w : Walk) (key : Nat) : Walk :=
  if (s.readLink w.list w.link).2 ≠ w.gen then s.walkHead w.list
  else { list := w.list, link := some key, node := (s.readLink w.list (some key)).1, gen := (s.readLink w.list (some key)).2 }

/-- R186: the Anole examines the next queue of its pass over the lists, from priority 7 down. -/
def execAnolePass (s : State) : Out :=
  let w := s.disp.walk
  .next <| match w.node with
  | none => s.walkOn w 8
  | some key => (s.walkOn (s.walkPast w key) 8).push (s.offer key)

/-! ### Stops and frames (R161 to R163, R190) -/

/-- R190: forced pre-emption begins as YDEADLINE reaches 0, unless the cell has begun to stop. -/
def execForcedPreemption (c : Nat) (s : State) : Out :=
  let x := s.cell c
  .next (if x.bound.isSome ∧ x.seq.yreq ∧ x.seq.ydeadline = 0 ∧ x.stop = none then s.stopCell c cPreempt else s)

/-- R161, R207: a link operation stands at a message boundary: it has not begun, or no message of it is in progress. -/
def LinkCmd.atRest (k : LinkCmd) : Bool :=
  k.phase == .rest && !k.complete && (!k.started || k.noSend || k.sent || k.op.val == 1)

/-- R161: every engine class of a stopped cell but its sequencer has reached its point, and no word of an operation is on its way
into the cell. -/
def State.enginesStopped (s : State) (c : Nat) : Bool :=
  let x := s.cell c
  ((List.finRange 4).all fun k => x.region[k.val].state != .running) && !s.mem.nb.any (·.cell = c) && x.puts.isEmpty &&
    (x.copyq.head?.all fun k => k.stage == .idle) && x.linkq.head?.all LinkCmd.atRest

/-- R301, R316: a PH.AW that has arrived and waits goes on as an entry of the operand log. -/
def State.savePhase (s : State) (c : Nat) : State :=
  let x := s.cell c
  match x.hold with
  | [6, u, n, w] =>
    let word : BitVec 32 := w.setWidth 32
    let e : LogEntry := { word := word, pcw := x.seq.pc, srcA := {}, srcB := x.greg (wordA word), srcC := GReg.of u,
                          dest := destG (wordD word), remain := 1, phase := some (n.setWidth 16, u.setWidth 32) }
    let (q, bs) := x.seq.next
    (s.modCell c fun y => { y with seq := { q with log := y.seq.log ++ [e] }, hold := [], freeze := .none }).outcomes c bs
  | _ => s

/-- R216, R217: whether a cell's replayable record is on its way, is held or awaits its response. -/
def State.awaiting (s : State) (c : Nat) : Bool :=
  s.gangAwaits (Fin.ofNat 64 (s.cell c).seq.id.vfid.toNat) ((s.cell c).bound.map (·.gang)) (some c)

/-- R181: a cell that has stopped for a fatal cause. -/
def State.stoppedFatal (s : State) (c : Nat) : Bool :=
  match (s.cell c).stop with
  | some t => t.saved && (codeRank t.code == 2 || (codeRank t.code == 1 && !s.awaiting c))
  | none => false

/-- R162, R181: a cell that is free to be bound again. -/
def CellSt.freed (x : CellSt) : CellSt :=
  { x with bound := none, stop := none, halted := false, freeze := .none, hold := [], replay := false, copyq := [], linkq := [], puts := [] }

/-- R162, R171, R217: a cell that was pre-empted or has yielded is free; one stopped for a cause stays bound. -/
def CellSt.stopFreed (x : CellSt) : CellSt := if x.stop.any fun t => codeRank t.code == 0 then x.freed else x

/-- The ranks of a gang whose cells are so. -/
def State.ranksOf (s : State) (g : Gang) (p : CellSt → Bool) : List Nat :=
  (ranked g.cells).filterMap fun (j, c) => if p (s.cell c) then some j else none

/-- R162, R172, R189: a gang asked to stop, all of whose cells have reported, is stopped: its cells are free but for R172. -/
def State.gangStopped (s : State) (n : Nat) : State :=
  match tfind s.disp.gangs n with
  | none => s
  | some g =>
    let out (c : Nat) : Bool := (s.cell c).stop.any fun t => t.saved && codeRank t.code != 3
    if g.state = .stopping ∧ g.cells.all out then
      let halts := s.ranksOf g fun x => x.halted
      let idle := s.ranksOf g fun x => x.halted && x.region.toList.all fun r => !r.busy
      let h := { g with state := .held, halts := halts, idle := idle }
      match (if g.image then s.imageGang n h else (true, s.setGang n h)) with
      | (true, t) => g.cells.foldl (fun s c => s.modCell c CellSt.stopFreed) t
      | (false, t) => s.keepWaits t
    else s

/-- R162, R172: the lines that the collection of a cell writes. -/
def Gang.frameLines (g : Gang) (x : Queue) (rank : Nat) (map : Word) : List Nat :=
  linesOf (g.frameAt x rank) (8 * frameWords map) ++ if g.image then linesOf (g.imageAt x rank) 524288 else []

/-- R162: the frame of a stopped cell is written, and its image if the gang gives its cells up, once their lines are open; a
discarded one is not. -/
def State.collectFrame (s : State) (c : Nat) (b : Binding) (t : Stop) : State :=
  match tfind s.disp.gangs b.gang with
  | none => s
  | some g =>
    let x := s.queue b.vf b.q
    let rank := (s.cell c).seq.id.rank.toNat
    let image := if g.image then g.imageAt x rank else 0
    s.whenOpen true (if t.code = cFlrKilled then [] else g.frameLines x rank (s.cell c).regionMap) fun s =>
      let s := s.savePhase c
      let s := s.emit c 0x5 ((s.cell c).ofs (s.cell c).seq.pc + t.code.toNat * 2 ^ 30)
      let s := if t.code = cFlrKilled then s
        else
          let s := (s.writeWords (g.frameAt x rank) 1024 ((s.cell c).frame t.code b.q image)).modCell c fun y =>
            y.countSome y.failing
          if g.image then s.writeImage c image else s
      let s := s.modCell c fun y =>
        { y with stop := some { t with saved := true }, seq := { y.seq with yreq := false, ydeadline := 0 } }
      (s.setGang b.gang { g with saved := g.saved ++ [rank], notes := (s.cell c).note rank :: g.notes.filter (·.rank ≠ rank) }).gangStopped b.gang

/-- R162: once every class has acknowledged, the collector saves the cell; a gang may be asked after it. -/
def execFrameCollection (c : Nat) (s : State) : Out :=
  .next <|
    match (s.cell c).stop, (s.cell c).bound with
    | some t, some b =>
      if t.saved then s.gangStopped b.gang
      else if t.seqAck && s.enginesStopped c then s.collectFrame c b t
      else s
    | _, _ => s

/-! ### Completion (R178, R181, R183) -/

/-- R181: every cell of a gang has halted or stopped for a fatal cause, and every region has completed. -/
def State.gangDone (s : State) (n : Nat) (g : Gang) : Bool :=
  if g.state = .held then
    g.fatal.isSome && (ranked g.cells).all fun (j, c) => g.idle.contains j || (s.isOf n c && s.stoppedFatal c)
  else g.cells.all fun c =>
    let x := s.cell c
    ((x.halted && x.stop.isNone) || s.stoppedFatal c) && (List.finRange 4).all fun k => !x.region[k.val].busy || s.stoppedFatal c

/-- R181: a gang whose kernel has completed is released, but for one with a cell kept for inspection. -/
def State.releaseGang (s : State) (n : Nat) (g : Gang) : State :=
  let s := s.modQueue g.vf g.q fun x => { x with inflight := x.inflight - 1 }
  if g.cells.any fun c => s.isOf n c && s.stoppedFatal c then s.setGang n { g with finished := true }
  else
    let s := g.cells.foldl (fun s c => s.modCell c CellSt.freed) s
    { s with disp := { s.disp with gangs := terase s.disp.gangs n } }

/-- R181: a KERNEL completes. -/
def State.completeKernel (s : State) (vf : Fin 64) (q : BitVec 8) (r : Rec) : State :=
  match s.disp.gangs.find? fun (_, g) => g.vf = vf ∧ g.q = q ∧ g.slot = r.slot ∧ ¬g.finished with
  | none => s
  | some (n, g) =>
    if !s.gangDone n g then s
    else match s.completeRec vf q { r with cause := g.fatal.getD 0 } with
      | (false, s) => s
      | (true, s) => s.releaseGang n g

/-- R181, R183: a record completes if what it waits for has come about. A cancelled WAIT sets CANCEL. -/
def execRecordCompletion (vf : Fin 64) (q : BitVec 8) (slot : Nat) (s : State) : Out :=
  .next <|
    match (s.queue vf q).recs.find? (·.slot = slot) with
    | none => s
    | some r =>
      match r.stage, r.kind.toNat with
      | .ended, _ => (s.completeRec vf q r).2
      | .live, 1 => s.completeKernel vf q r
      | .live, 5 => match r.waitEnds s with
        | none => s
        | some c => match s.completeRec vf q { r with cause := c } with
          | (false, s) => s
          | (true, s) => if c = 0 then s else s.modQueue vf q fun x => { x with cancel := true }
      | _, _ => s

/-! ### The timer wheel (R191, R192) -/

/-- R191: the releases that have fallen due at a tick. -/
def Timer.due (t : Timer) (tick : Nat) : Nat :=
  if tick < t.when_ then 0 else if t.period = 0 then 1 else (tick - t.when_) / t.period + 1

/-- R191: the entry of a release. -/
def Timer.entry (t : Timer) (n now : Nat) : Nat :=
  t.payload.toNat + n % 2 ^ 64 * 2 ^ 256 + (n - t.released - 1) % 2 ^ 32 * 2 ^ 320 + t.tag.toNat * 2 ^ 352 + now * 2 ^ 384

/-- R191, R192: a release has been made: a one-shot timer leaves the wheel and its record completes. -/
def State.timerMade (s : State) (t : Timer) (n : Nat) : State :=
  let ts := if t.period = 0 then s.disp.timers.filter (·.id ≠ t.id)
    else s.disp.timers.map fun u => if u.id = t.id then { u with released := n } else u
  let s := { s with disp := { s.disp with timers := ts } }
  match t.slot with
  | none => s
  | some j => match (s.queue t.vf t.q).recs.find? (·.slot = j) with
    | some r => s.recOver t.vf t.q r 0
    | none => s

/-- R191 to R193: at a tick, the release of a timer that is due is made if its queue runs and the work queue has room in
its turn; else it is held. -/
def execTimerRelease (n : Nat) (s : State) : Out :=
  .next <|
    match s.disp.timers.find? (·.id = n) with
    | none => s
    | some t =>
      let k := t.due (s.now / 1000 * 1000)
      if !s.sys.ticked ∨ k ≤ t.released ∨ (s.queue t.vf t.q).state ≠ .active then s
      else if t.wq = 0xffff then s.timerMade t k
      else match tfind s.disp.wqs t.wq.toNat with
        | none => s
        | some w => match s.wqTurn t.wq.toNat w (.timer t.id) 1 with
          | (true, s) => (s.wqAppend t.wq.toNat (t.entry k s.now) (some t.vf)).timerMade t k
          | (false, s) => s

end Sys2Proof.Machine
end

