-- ==== Sys2Proof/Machine/Requests.lean ====
section
/-! DEFINITION. The submission mailbox and its journal, the reset of queues and functions, and the answers to trap
records (R193 to R197, R214 to R217, R236, R237). -/

namespace Sys2Proof.Machine

/-! ### Commits (R194, R195) -/

def State.modMbox (s : State) (f : Nat) (g : Mailbox → Mailbox) : State := s.modFn f fun x => { x with mbox := g x.mbox }

/-- R195: a commit is captured, or lost when 256 entries are unconsumed. -/
def State.commit (s : State) (vf : Fin 64) (r0 r1 r2 : Word) (auto : Bool) : State :=
  if 256 ≤ s.disp.journal.length then
    s.modMbox vf.val fun m => { m with ovfcnt := satInc m.ovfcnt, ovf := true, dropped := true }
  else
    let n := s.disp.seqNo + 1
    let e : JEntry := { seq := n, vf := vf, r0 := r0, r1 := r1, r2 := r2, auto := auto }
    ({ s with disp := { s.disp with journal := s.disp.journal ++ [e], seqNo := n } }).modMbox vf.val fun m =>
      { m with seq := n, dropped := false }

/-- R194: CODE of the request a function has written. -/
def State.mbCode (s : State) (vf : Fin 64) : Nat := wbits (s.fn vf.val).mbox.req[0] 63 56

/-- R249: before READY only CXL.io of the physical function answers. -/
def State.answers (s : State) (vf : Fin 64) : Bool := s.sys.bootDone || vf = 0

/-- R194: a write to MBDOOR commits what MBREQ0 to MBREQ2 hold; each kind of request is an event of its own, which occurs
only where MBREQ0 has its CODE. -/
def State.door (s : State) (vf : Fin 64) (p : Nat → Bool) : State :=
  let r := (s.fn vf.val).mbox.req
  if p (s.mbCode vf) && s.answers vf then s.commit vf r[0] r[1] r[2] false else s

/-- R194: a commit with CODE 0x01. -/
def execCreate (vf : Fin 64) (s : State) : Out := .next (s.door vf (· == 1))
/-- R194: a commit with CODE 0x02. -/
def execDestroy (vf : Fin 64) (s : State) : Out := .next (s.door vf (· == 2))
/-- R194: a commit with CODE 0x03. -/
def execReset (vf : Fin 64) (s : State) : Out := .next (s.door vf (· == 3))
/-- R194: a commit with CODE 0x04. -/
def execFlr (vf : Fin 64) (s : State) : Out := .next (s.door vf (· == 4))
/-- R194: a commit with an unknown CODE. -/
def execUnknownCodeRequest (vf : Fin 64) (s : State) : Out := .next (s.door vf fun c => c == 0 || 4 < c)

/-- R194, R197: the CXL.io function-level reset of a virtual function commits an FLR on its behalf. -/
def execCxlIoFlr (vf : Fin 64) (s : State) : Out :=
  .next (if vf.val = 0 ∨ ¬s.sys.bootDone then s
    else (s.modFn vf.val fun f => { f with flrDone := false }).commit vf (numWord (4 * 2 ^ 56 + vf.val)) 0 0 true)

/-- R194: a host write of 1 to MBSTAT.OVF. -/
def execMbstatWrite (vf : Fin 64) (s : State) : Out := .next (s.modMbox vf.val fun m => { m with ovf := false })

/-! ### Run lists (R185) -/

/-- R185: a new queue is linked at the head of its priority's list. -/
def State.spliceInsert (s : State) (vf : Fin 64) (q : BitVec 8) : State :=
  let x := s.queue vf q
  let h := s.disp.heads[x.prio.val]
  let s := s.setQueue vf q { x with next := h.next, lgen := x.lgen + 1 }
  { s with disp := { s.disp with heads := s.disp.heads.set x.prio.val { next := some (qkey vf q), lgen := h.lgen + 1 } x.prio.isLt } }

/-- R185: a queue is unlinked from the link before it; its own link stays, for a walk that stands on it. -/
def State.spliceRemove (s : State) (vf : Fin 64) (q : BitVec 8) : State :=
  let key := some (qkey vf q)
  let n := (s.queue vf q).next
  { s with disp := { s.disp with
      heads := s.disp.heads.map fun h => if h.next = key then { next := n, lgen := h.lgen + 1 } else h
      queues := s.disp.queues.map fun (k, x) =>
        (k, if x.next = key ∧ x.state ≠ .free then { x with next := n, lgen := x.lgen + 1 } else x) } }

/-! ### Zeroing (R175, R196, R197) -/

/-- Zeros are written to `n` lines of device memory. -/
def State.zeroLines (s : State) (a : Nat) : Nat → State
  | 0 => s
  | n + 1 => (s.acceptWrite a (BitVec.allOnes 128) 0 none false).zeroLines (a + 1) n

/-- R174, R175: the lines of a queue's ring. -/
def ringLines (f : Fn) (x : Queue) : List Nat :=
  if f.window = 0 then [] else (List.range (2 ^ x.ringlog)).map fun j => slotLine f x 0 + j

/-- R175: the ring of a queue is zeroed. -/
def State.zeroRing (s : State) (f : Fn) (x : Queue) : State :=
  if f.window = 0 then s else s.zeroLines (slotLine f x 0) (2 ^ x.ringlog)

/-! ### Stopping what belongs to a queue or a function (R196, R197) -/

/-- R196, R217: the replayable records of a gang whose frames are discarded are no longer on their way, held or awaited. -/
def State.dropRecords (s : State) (vf : Fin 64) (n : Nat) : State :=
  let other (r : Record) : Bool := !(r.cls == 1 && r.gang == some n)
  s.modFn vf.val fun f =>
    { f with found := f.found.filter other, due := f.due.filter other, held := f.held.filter other,
             await := f.await.filter (·.gang != some n) }

/-- R196, R197: a cell of a gang whose frames are discarded; `flr` discards its WCB as well. -/
def State.killCell (s : State) (flr : Bool) (c : Nat) : State :=
  (s.stopCell c cFlrKilled).modCell c fun x =>
    { x with stop := x.stop.map fun t => { t with discard := t.discard || flr } }

/-- R196: the pairs of the link operations that a frame holds, but for those whose round has been aborted since. -/
def State.framePairs (s : State) (n : Nat) (g : Gang) : List (BitVec 16 × BitVec 32) :=
  let x := s.queue g.vf g.q
  (ranked g.cells).flatMap fun (j, c) =>
    if s.isOf n c then []
    else
      let gone := match g.noteOf j with | some m => m.aborts | none => []
      ((linksRestored (((s.readFrame (g.frameAt x j) 1024).drop 106))).map fun k => (k.group, k.round)).filter fun p => !gone.contains p

/-- R196, R197: the module sends the abort flit of each round once, on every port that is UP. -/
def State.floodPairs (s : State) (ps : List (BitVec 16 × BitVec 32)) : State :=
  ps.eraseDups.foldl (fun s (g, r) => (s.recordAbort g r).flood (List.finRange 32) g r) s

/-- R196, R197: one gang: the cells bound to it are pre-empted, and a held one is gone with its frames. -/
def State.killGang (s : State) (flr : Bool) (n : Nat) (g : Gang) : State :=
  let s := (if g.state = .held then s.floodPairs (s.framePairs n g) else s).dropRecords g.vf n
  if g.cells.any (s.isOf n) then
    (g.cells.foldl (fun s c => if s.isOf n c then s.killCell flr c else s) s).setGang n { g with state := .stopping }
  else { s with disp := { s.disp with gangs := terase s.disp.gangs n } }

/-- R188, R192, R193, R196: a queue's timers, its reservation and its places in lists go. -/
def State.dropClaims (s : State) (vf : Fin 64) (q : BitVec 8) : State :=
  let mine (who : Appender) : Bool := match who with
    | .record v p _ => v = vf && p = q
    | .timer id => s.disp.timers.any fun t => t.id = id && t.vf = vf && t.q = q
    | .cell _ => false
  { s with disp := { s.disp with
      wqs := s.disp.wqs.map fun (n, w) => (n, { w with appenders := w.appenders.filter fun a => !mine a })
      timers := s.disp.timers.filter fun t => ¬(t.vf = vf ∧ t.q = q)
      reserves := s.disp.reserves.filter fun r => ¬(r.vf = vf ∧ r.q = q) } }

/-- R196, steps 1 to 3: a queue becomes RESETTING, its records go and its gangs are pre-empted. -/
def State.stopQueue (s : State) (vf : Fin 64) (flr : Bool) (q : BitVec 8) : State :=
  let s := s.dropClaims vf q
  let s := s.modQueue vf q fun x => { x with state := .resetting, recs := [], resv := false }
  s.disp.gangs.foldl (fun s (n, g) => if g.vf = vf ∧ g.q = q then s.killGang flr n g else s) s

/-- The queues of a function that are not FREE. -/
def State.liveQueues (s : State) (vf : Fin 64) : List (BitVec 8) :=
  s.disp.queues.filterMap fun (key, x) => if key / 256 = vf.val ∧ x.state ≠ .free then some (BitVec.ofNat 8 key) else none

/-- R197, steps 1 to 3, R237. -/
def State.stopFunction (s : State) (vf : Fin 64) : State :=
  (s.liveQueues vf).foldl (fun s q => s.stopQueue vf true q) (s.modFn vf.val fun f => { f with state := .resetting })

/-! ### Drains (R196, R197) -/

/-- R196, step 4: whether a queue's requests, or a function's, are still held anywhere. -/
def State.tagHeld (s : State) (vf : Fin 64) (q : Option (BitVec 8)) : Bool :=
  let tag (v : Fin 64) (p : BitVec 8) : Bool := v == vf && q.all (· == p)
  s.mem.reqs.any (fun (_, r) => tag r.vf r.q && (r.stage == .walk || r.stage == .slice)) ||
    s.mem.nb.any (fun k => tag k.vf k.q) || s.mem.signals.any fun g => tag g.vf g.q

/-- R196, step 3: every cell of the gangs has reported. -/
def State.gangsQuiet (s : State) (vf : Fin 64) (q : Option (BitVec 8)) : Bool :=
  s.disp.gangs.all fun (n, g) => !(g.vf = vf && q.all (· == g.q)) ||
    g.cells.all fun c => ((s.cell c).bound.map (·.gang)) != some n || (s.cell c).stop.any (·.saved)

/-- R196, R197: the gangs are released; `molt` resets their cells as well. Their link operations end unfinished, and their
rounds are aborted. -/
def State.freeGangs (s : State) (vf : Fin 64) (q : Option (BitVec 8)) (molt : Bool) : State :=
  let gone := s.disp.gangs.filter fun (_, g) => g.vf = vf && q.all (· == g.q)
  let cells := gone.flatMap fun (n, g) => g.cells.filter fun c => ((s.cell c).bound.map (·.gang)) = some n
  let s := s.floodPairs (cells.flatMap fun c => (s.cell c).linkq.map fun k => (k.group, k.round))
  let s := cells.foldl (fun s c => s.modCell c fun x => if molt then { ec := x.ec } else x.freed) s
  { s with disp := { s.disp with gangs := s.disp.gangs.filter fun (n, _) => !gone.any fun h => h.1 = n } }

/-- R196, steps 5 and 6: the fields of a queue after its reset. -/
def Queue.cleared (x : Queue) : Queue :=
  { x with recs := [], head := 0, lap := 0, fidx := 0, fcause := 0, inflight := 0, bypass := 0, age := 0, cancel := false, par := true,
           resv := false, drain := none }

/-- R196, steps 4 to 6: a queue's reset or destruction ends, once the lines of its ring are open. -/
def State.finishQueue (s : State) (vf : Fin 64) (q : BitVec 8) : State :=
  let x := s.queue vf q
  s.whenOpen true (ringLines (s.fn vf.val) x) fun s =>
    let s := (s.freeGangs vf (some q) false).zeroRing (s.fn vf.val) x
    if x.drain = some 2 then
      (s.spliceRemove vf q).modQueue vf q fun x => { x.cleared with state := .free, freeAt := s.disp.anopass + 2 }
    else s.modQueue vf q fun x => { x.cleared with state := .active }

/-- The leaves of a table at a level, with its size code. -/
def State.leaves (s : State) : Nat → Nat → List Word
  | 0, base => (List.range 32).filterMap fun j =>
      let p := s.dpaWord (base + 8 * j)
      if p.getLsbD 0 then some p else none
  | l + 1, base => (List.range 512).flatMap fun j =>
      let p := s.dpaWord (base + 8 * j)
      if !p.getLsbD 0 then [] else if p.getLsbD 8 then [p] else s.leaves l (nextTable p)

/-- R229: whether a migration entry is of a page that a function's tables map to the new place with MIG = 1. -/
def State.ownsMig (s : State) (vf : Fin 64) (m : MigEntry) : Bool :=
  s.mem.asids.any fun (_, a) => a.valid && a.vf.toNat == vf.val &&
    (s.leaves 3 (a.root.toNat * 4096)).any fun p => p.getLsbD 7 && wbits p 40 16 == m.new.toNat / 65536

/-- R197, step 5, R225, R227, R229, R234: phasers, translations and migrations of a function. -/
def State.clearTables (s : State) (vf : Fin 64) : State :=
  let f := s.fn vf.val
  let mig := s.mem.mig.map fun (n, m) => (n, if m.state != .free && s.ownsMig vf m then { m with state := MigState.free } else m)
  let gone := s.mem.asids.filterMap fun (n, a) => if a.vf.toNat = vf.val ∧ a.valid then some n else none
  { s with
    mem := { s.mem with
      mig := mig
      asids := s.mem.asids.map fun (n, a) => (n, if gone.contains n then { a with valid := false } else a)
      tlb := s.mem.tlb.filter fun e => !gone.contains e.asid.toNat
      walks := s.mem.walks.filter fun e => !gone.contains e.asid.toNat
      walking := s.mem.walking.filter fun w => !gone.contains w.asid.toNat }
    disp := { s.disp with
      phasers := s.disp.phasers.filter fun (n, _) => !f.ownsPhaser n
      wqs := s.disp.wqs.map fun (n, w) =>
        if f.wqbase.toNat ≤ n ∧ n < f.wqbase.toNat + f.wqcnt.toNat then (n, { m := w.m, base := w.base }) else (n, w) } }

/-- R122, R197: the cells that a function has had are molted. -/
def State.moltOf (s : State) (vf : Fin 64) : State :=
  { s with cells := s.cells.map fun (c, x) => (c, if x.bound = none ∧ x.prevVf = some vf then { ec := x.ec } else x) }

/-- R214, R218: a ring of records after a function-level reset. -/
def TrapQ.emptied (t : TrapQ) : TrapQ := { base := t.base, sizelog := t.sizelog }

/-- R11, R194, R214, R236: what a function-level reset leaves of a function's entry, its trap queue and its mailbox. -/
def Fn.cleared (f : Fn) : Fn :=
  { f with fatal := 0, tracefn := false, testm := false, found := [], due := [], held := [], await := [], disabling := false,
           state := if f.disabling then .disabled else .enabled, tq := f.tq.emptied, mbox := {} }

/-- R197, R218: the reset of the physical function empties its error log. -/
def State.clearLog (s : State) (vf : Fin 64) : State :=
  if vf = 0 then { s with sys := { s.sys with errLog := s.sys.errLog.emptied, errDue := [] } } else s

/-- R197: a function's queues are unlinked and FREE; SAVEAREA is firmware's (R184). -/
def State.freeQueues (s : State) (vf : Fin 64) : State :=
  (s.liveQueues vf).foldl (fun s q =>
    (s.spliceRemove vf q).modQueue vf q fun x =>
      { next := x.next, lgen := x.lgen, lastseq := x.lastseq, savearea := x.savearea, freeAt := s.disp.anopass + 2 }) s

/-- R197: the lines of a function's window. -/
def Fn.windowLines (f : Fn) : List Nat := if f.window = 0 then [] else (List.range 512).map fun j => f.window.toNat * 512 + j

/-- R197, steps 4 to 6: a function-level reset, or a move to DISABLED, ends, once the lines of the window are open. -/
def State.finishFunction (s : State) (vf : Fin 64) : State :=
  let f := s.fn vf.val
  s.whenOpen true f.windowLines fun s =>
    let s := (((s.freeGangs vf none true).moltOf vf).clearTables vf).freeQueues vf
    ((if f.window = 0 then s else s.zeroLines (f.window.toNat * 512) 512).modFn vf.val Fn.cleared).clearLog vf

/-- R196, R197: once every gang has reported and the counts of the tag are zero, the reset of a queue, or without a queue
that of the function, is carried to its end. -/
def execQueueTagDrain (vf : Fin 64) (q : Option (BitVec 8)) (s : State) : Out :=
  .next <|
    if s.tagHeld vf q || !s.gangsQuiet vf q then s
    else match q with
      | some p => if (s.queue vf p).state = .resetting ∧ (s.queue vf p).drain ≠ none then s.finishQueue vf p else s
      | none => if (s.fn vf.val).state = .resetting then s.finishFunction vf else s

/-! ### Serving the journal (R194, R195, R237) -/

/-- R195: the completion of the entry being served is posted to a function's MBSTAT. -/
def State.post (s : State) (f : Nat) (e : JEntry) (r : Cause) : State :=
  ({ s with disp := { s.disp with journal := s.disp.journal.filter (·.seq ≠ e.seq), consumed := e.seq } }).modMbox f fun m =>
    { m with doneSeq := e.seq, result := r }

/-- R174: the slots of two rings overlap. -/
def ringsMeet (o1 l1 o2 l2 : Nat) : Bool := o1 < o2 + 2 ^ l2 && o2 < o1 + 2 ^ l1

/-- R194: the fields of a request. -/
def JEntry.code (e : JEntry) : Nat := wbits e.r0 63 56
def JEntry.qidx (e : JEntry) : BitVec 8 := e.r0.setWidth 8

/-- R174, R194, R225, R236: whether a CREATE is well formed. -/
def State.createOk (s : State) (e : JEntry) : Bool :=
  let f := s.fn e.vf.val
  let asid := wbits e.r0 31 16
  let a := tget {} s.mem.asids asid
  let ofs := wbits e.r1 8 0
  let lg := wbits e.r1 19 16
  wbits e.r0 15 11 == 0 && wbits e.r0 55 32 == 0 && wbits e.r1 15 9 == 0 && wbits e.r1 63 20 == 0 && e.r2 == 0 &&
  2 ≤ lg && lg ≤ 9 && ofs % 2 ^ lg == 0 && ofs + 2 ^ lg ≤ 512 &&
  a.valid && a.vf.toNat == e.vf.val && f.asidbase.toNat ≤ asid && asid < f.asidbase.toNat + f.asidcnt.toNat &&
  (s.queue e.vf e.qidx).state == .free &&
  s.disp.queues.all fun (key, x) => key / 256 != e.vf.val || x.state == .free || !ringsMeet ofs lg x.ringofs x.ringlog

/-- R184, R194: the fields that a CREATE names. -/
def JEntry.queue (e : JEntry) : Queue :=
  { prio := Fin.ofNat 8 (wbits e.r0 10 8), state := .active, ringlog := wbits e.r1 19 16, ringofs := wbits e.r1 8 0,
    asid := BitVec.ofNat 16 (wbits e.r0 31 16), lastseq := e.seq }

/-- R184, R194: a CREATE takes effect; SAVEAREA stays firmware's. -/
def State.applyCreate (s : State) (e : JEntry) : State :=
  let x : Queue := { e.queue with savearea := (s.queue e.vf e.qidx).savearea }
  ((s.setQueue e.vf e.qidx x).zeroRing (s.fn e.vf.val) x).spliceInsert e.vf e.qidx

/-- R194, R195: a DESTROY or RESET: it is begun once, and is completed when the queue has left RESETTING. -/
def State.serveReset (s : State) (e : JEntry) : State :=
  let x := s.queue e.vf e.qidx
  if wbits e.r0 55 8 ≠ 0 ∨ e.r1 ≠ 0 ∨ e.r2 ≠ 0 then s.post e.vf.val e cRecMalformed
  else if x.lastseq < e.seq then
    if x.state = .free then s.post e.vf.val e cRecMalformed
    else (s.modQueue e.vf e.qidx fun x => { x with lastseq := e.seq, drain := some (BitVec.ofNat 8 e.code) }).stopQueue e.vf false e.qidx
  else if x.state = .resetting then s
  else s.post e.vf.val e 0

/-- R195, R197: an FLR: it is begun once, and its completion is posted to the physical function, and for a CXL.io reset in
the function's configuration space. -/
def State.serveFlr (s : State) (e : JEntry) : State :=
  let t : Fin 64 := Fin.ofNat 64 (wbits e.r0 5 0)
  let done (s : State) : State :=
    (if e.auto then s.modFn t.val fun f => { f with flrDone := true } else s).post 0 e 0
  if (e.vf.val ≠ 0 ∧ ¬e.auto) ∨ wbits e.r0 55 6 ≠ 0 ∨ e.r1 ≠ 0 ∨ e.r2 ≠ 0 then s.post e.vf.val e cRecMalformed
  else if (s.fn t.val).state = .disabled then done s
  else if (s.fn t.val).flrseq < e.seq then
    (s.modFn t.val fun f => { f with flrseq := e.seq }).stopFunction t
  else if (s.fn t.val).state = .resetting then s
  else done s

/-- R194, R195, R237: firmware serves the entry with the lowest SEQ. The commits of a function that is being reset are
served after it. -/
def execJournalServe (s : State) : Out :=
  .next <| if !s.sys.bootDone then s else
    match s.disp.journal with
    | [] => s
    | e :: _ =>
      let f := s.fn e.vf.val
      if f.state = .resetting ∧ e.code ≠ 4 then s
      else if f.state = .disabled ∧ ¬(e.code = 4 ∧ e.auto) then s.post e.vf.val e (if e.code = 4 then 0 else cRecMalformed)
      else match e.code with
        | 1 =>
          let x := s.queue e.vf e.qidx
          if x.lastseq = e.seq then s.post e.vf.val e 0
          else if !s.createOk e then s.post e.vf.val e cRecMalformed
          else if s.disp.anopass < x.freeAt then s
          else s.whenOpen true (ringLines (s.fn e.vf.val) e.queue) fun s => (s.applyCreate e).post e.vf.val e 0
        | 2 | 3 => s.serveReset e
        | 4 => s.serveFlr e
        | _ => s.post e.vf.val e cRecMalformed

/-- R195: firmware restarts: what it keeps is the journal, CONSUMED and the state blocks, and it takes every queue and
function that it finds RESETTING up from the first step of the reset. -/
def execFirmwareRestart (s : State) : Out :=
  let s1 := s.disp.queues.foldl (fun s (key, x) =>
    if x.state = .resetting ∧ x.drain ≠ none then s.stopQueue (Fin.ofNat 64 (key / 256)) false (BitVec.ofNat 8 key) else s) s
  .next ((List.finRange 64).foldl (fun s vf => if (s.fn vf.val).state = .resetting then s.stopFunction vf else s) s1)

/-- R237: firmware moves an ENABLED or FROZEN function to DISABLED. A request made while the function is RESETTING takes
effect as the reset completes, which has emptied everything that the move would empty. -/
def execFunctionDisable (vf : Fin 64) (s : State) : Out :=
  .next <|
    match (s.fn vf.val).state with
    | .disabled => s
    | .resetting => s.modFn vf.val fun f => { f with disabling := true }
    | _ => (s.modFn vf.val fun f => { f with disabling := true }).stopFunction vf

/-! ### Answers to trap records (R214, R216, R217) -/

/-- R214: a write of HEAD, ignored beyond TAIL. -/
def TrapQ.withHead (t : TrapQ) (v : BitVec 32) : TrapQ := if v - t.head ≤ t.tail - t.head then { t with head := v } else t

/-- R214, R216: the host consumes records, and held ones take the entries that come free. -/
def execTqheadWrite (vf : Fin 64) (v : BitVec 32) (s : State) : Out :=
  .next ((s.modFn vf.val fun f => { f with tq := f.tq.withHead v }).releaseHeld vf.val)

/-- R217: the written record that a response names. -/
def State.answeredBy (s : State) (vf : Fin 64) (seq : BitVec 32) : Option Await := (s.fn vf.val).await.find? (·.seq = seq)

/-- R214, R217: TQRESP after a response; ACTION of one that is ignored reads 0. -/
def State.respond (s : State) (vf : Fin 64) (seq : BitVec 32) (action : BitVec 2) : State :=
  s.modFn vf.val fun f =>
    { f with tq := { f.tq with respSeq := seq, action := action }, await := f.await.filter (·.seq ≠ seq) }

/-- R173, R217: the frame of a stopped cell is restored in place, and its operand log is replayed. -/
def State.resumeInPlace (s : State) (c : Nat) (b : Binding) (g : Gang) : Bool × State :=
  let x := s.queue b.vf b.q
  let rank := (s.cell c).seq.id.rank.toNat
  let s := s.modCell c fun y => { y with stop := none, freeze := .none, hold := [], replay := false, copyq := [], linkq := [] }
  match s.restoreCell c c (g.frameAt x rank) (g.noteOf rank) with
  | (false, s) => (false, s)
  | (true, s) =>
    (true, (s.modCell c CellSt.clearFaults).setGang b.gang { g with saved := g.saved.filter (· ≠ rank) })

/-- R189, R217: a cell of a gang that has been asked to yield is resumed with its gang, as one that was pre-empted. -/
def CellSt.answered (x : CellSt) (held : Bool) : CellSt :=
  if held then x.freed else { x with stop := x.stop.map fun t => { t with code := cPreempt } }

/-- R189, R217, R239: a response with ACTION 1. One that comes before the frame is saved acts once it is, and a gang that is
stopping or stopped, or whose cell has left a fenced die, is resumed only whole. -/
def execTqrespResume (vf : Fin 64) (seq : BitVec 32) (s : State) : Out :=
  .next <|
    match s.answeredBy vf seq with
    | none => s.respond vf seq 0
    | some a =>
      let c := a.cell
      let wait := s.again (.tqrespResume vf seq)
      match (s.cell c).stop, (s.cell c).bound with
      | some t, some b =>
        if a.gang ≠ some b.gang then s.respond vf seq 1
        else if !t.saved then wait
        else if codeRank t.code ≠ 1 then s.respond vf seq 1
        else match tfind s.disp.gangs b.gang with
          | none => s.respond vf seq 1
          | some g =>
            if g.state ≠ .running then (s.modCell c fun x => x.answered (g.state = .held)).respond vf seq 1
            else match s.resumeInPlace c b g with
              | (false, t) => wait.keepWaits t
              | (true, t) => t.respond vf seq 1
      | _, _ => s.respond vf seq 1

/-- R181, R239: the fault of a cell that has left a fenced die becomes fatal: its rank is as one that has stopped. -/
def State.awayFatal (s : State) (a : Await) : State :=
  match a.gang.bind fun n => (tfind s.disp.gangs n).map fun g => (n, g) with
  | some (n, g) =>
    (s.setGang n { g with idle := g.idle ++ (ranked g.cells).filterMap fun (j, c) => if c = a.cell then some j else none }).fatalFor
      ⟨g.vf, g.q, g.slot, n⟩ a.cause
  | none => s

/-- R217: a response with ACTION 2 makes the fault fatal. -/
def execTqrespFail (vf : Fin 64) (seq : BitVec 32) (s : State) : Out :=
  .next <|
    match s.answeredBy vf seq with
    | none => s.respond vf seq 0
    | some a =>
      let s := s.respond vf seq 2
      match (s.cell a.cell).stop, (s.cell a.cell).bound with
      | some t, some b =>
        if a.gang ≠ some b.gang then s.awayFatal a else if codeRank t.code = 1 then s.fatalFor b t.code else s
      | _, _ => s.awayFatal a

end Sys2Proof.Machine
end

