-- ==== Sys2Proof/Machine/Module.lean ====
section
/-! DEFINITION. Events of the module as a whole: cell dies, the trace collector, power-on, ports, attestation, the clock
and the registers that the host and firmware write (R214, R225, R229, R234, R236 to R239, R245, R249 to R255). -/

namespace Sys2Proof.Machine

/-! ### Cell dies (R238, R239) -/

/-- A cell of a die. -/
def onDie (d : Fin 16) (c : Nat) : Bool := c / 1600 == d.val

/-- R239, step 2: a gang that runs is pre-empted by force, with an image. -/
def State.forceGang (s : State) (n : Nat) (g : Gang) : State :=
  if g.state = .held then s
  else (g.cells.foldl (fun s c => if (s.cell c).bound.isSome then s.stopCell c cPreempt else s) s).setGang n
    { g with state := .stopping, image := true }

/-- R239: how a request about a die has completed. -/
def State.dieResult (s : State) (d : Fin 16) (c : Cause) : State := s.setDie d.val { s.die d.val with result := c }

/-- R239: firmware fences a die that is ONLINE; any other request is malformed and has no effect. -/
def execDieFence (d : Fin 16) (s : State) : Out :=
  .next <|
    if (s.die d.val).state ≠ .online then s.dieResult d cRecMalformed
    else
      let s := s.setDie d.val { s.die d.val with state := .fencing, result := 0 }
      s.disp.gangs.foldl (fun s (n, g) => if g.cells.any (onDie d) then s.forceGang n g else s) s

/-- R172, R239: the held gangs that are to give up cells of a die. -/
def State.heldAt (s : State) (d : Fin 16) : Tab Gang :=
  s.disp.gangs.filter fun (_, g) => g.state = .held ∧ ¬g.image ∧ g.cells.any (onDie d)

/-- R239, step 3: a gang has no cell on the die that still runs: it is stopped whole, or its cells there have stopped. -/
def State.offDie (s : State) (d : Fin 16) (n : Nat) (g : Gang) : Bool :=
  g.state = .held || g.cells.all fun c => !onDie d c || !s.isOf n c || s.stoppedFatal c

/-- R181, R239: what a gang keeps as its cells leave a die: those that have stopped for a fatal cause are as ones that have
completed. -/
def State.leftDie (s : State) (d : Fin 16) (n : Nat) (g : Gang) : Gang :=
  { g with idle := g.idle ++ (ranked g.cells).filterMap fun (j, c) =>
      if onDie d c && s.isOf n c && s.stoppedFatal c then some j else none }

/-- R239, step 3: requests of the die's cells, and packets of its collector, that are still on their way. -/
def State.dieHolds (s : State) (d : Fin 16) : Bool :=
  s.mem.reqs.any (fun (_, r) => onDie d r.cell && (r.stage == .walk || r.stage == .slice)) ||
    s.mem.nb.any (fun k => onDie d k.cell) || s.mem.signals.any (fun g => onDie d g.src || onDie d g.dst) ||
    !(s.die d.val).trace.isEmpty

/-- R226: what a die's translation agent holds is lost. -/
def State.loseAgent (s : State) (d : Fin 16) : State :=
  { s with mem := { s.mem with tlb := s.mem.tlb.filter (·.die ≠ d), walks := s.mem.walks.filter (·.die ≠ d), walking := s.mem.walking.filter (·.die ≠ d) } }

/-- R181, R217, R239: a FENCING die whose gangs are stopped, their images written, and whose requests have drained becomes FENCED;
cells kept for inspection or for a response are released, their frames staying in the save area. -/
def execDieFenced (d : Fin 16) (s : State) : Out :=
  .next <|
    if (s.die d.val).state ≠ .fencing then s
    else match s.imageGangs (s.heldAt d) with
      | (false, t) => s.keepWaits t
      | (true, s) =>
        if (s.disp.gangs.all fun (n, g) => s.offDie d n g) ∧ ¬s.dieHolds d then
          let s := { s with disp := { s.disp with gangs := s.disp.gangs.map fun (n, g) => (n, s.leftDie d n g) } }
          let s := { s with cells := s.cells.map fun (c, x) => (c, if onDie d c then CellSt.freed x else x) }
          (s.loseAgent d).setDie d.val { s.die d.val with state := .fenced }
        else s

/-- R107, R122, R244: a molted cell keeps its error counters only. -/
def CellSt.molted (x : CellSt) : CellSt := { ec := x.ec }

/-- R239: firmware resets a FENCED die: it is RESETTING while its cells are molted; any other request is malformed and has no
effect. -/
def execDieReset (d : Fin 16) (usable : BitVec 1600) (s : State) : Out :=
  .next <|
    let e := s.die d.val
    if e.state ≠ .fenced then s.dieResult d cRecMalformed
    else
      let s := { s with cells := s.cells.map fun (c, x) => (c, if onDie d c then CellSt.molted x else x) }
      (s.loseAgent d).setDie d.val { e with state := .resetting, reload := some usable, resets := satInc e.resets, result := 0 }

/-- R239: a die that has been reset gets its USABLE and is ONLINE. -/
def Die.reloaded (e : Die) : Die :=
  match e.reload with
  | some u => { e with state := .online, usable := u, reload := none }
  | none => e

/-! ### The trace collector (R245) -/

/-- R245: a function's ring is usable. -/
def Fn.ringOk (f : Fn) : Bool :=
  let n := f.trcsize.toNat
  (List.range 19).any (fun j => n == 2 ^ (12 + j)) && f.trcbase.toNat % max n 1 == 0

/-- R245: where a function's next packet lies. -/
def Fn.packetAt (f : Fn) : Nat := f.trcbase.toNat + f.trcwr.toNat % f.trcsize.toNat

/-- R245: a packet is written whole, before TRCWR passes it. -/
def State.writePacket (s : State) (vf : Nat) (w : BitVec 64) : State :=
  (s.storeDpa (s.fn vf).packetAt 8 w.toNat none).modFn vf fun f => { f with trcwr := f.trcwr + 8 }

/-- R245: how many packets are lost with a packet: a GAP stands for those that it counts. -/
def packetCount (w : BitVec 64) : Nat := if wbits w 63 60 = 0xa then wbits w 31 0 else 1

/-- R245: a count of lost packets, saturating. -/
def lostMore (n : BitVec 32) (k : Nat) : BitVec 32 := BitVec.ofNat 32 (min (2 ^ 32 - 1) (n.toNat + k))

/-- R245, R246: the oldest packet of a die's collector goes to its function's ring, once the line there is open. One for an unusable
ring is lost and counted, and a GAP with the count goes before the first that the ring takes again. -/
def execTracePacketWrite (d : Fin 16) (s : State) : Out :=
  .next <|
    let e := s.die d.val
    match e.trace with
    | [] => s
    | (vf, w) :: t =>
      let c := wbits w 59 45
      let n := tget 0 e.drops c
      if !(s.fn vf.toNat).ringOk then s.setDie d.val { e with trace := t, drops := tset e.drops c (lostMore n (packetCount w)) }
      else s.whenOpen true [(s.fn vf.toNat).packetAt / 128] fun s =>
        if n ≠ 0 then
          ((s.setDie d.val { e with drops := terase e.drops c }).writePacket vf.toNat
            (numWord (0xa * 2 ^ 60 + c * 2 ^ 45 + n.toNat))).modCell c fun x => { x with trace := { x.trace with due := some 3 } }
        else (s.setDie d.val { e with trace := t }).writePacket vf.toNat w

/-! ### Power-on, ports, attestation and the clock (R249 to R255) -/

/-- R250: an image's signature verifies against the key in ROM. -/
def signedBy (key : List Byte) (i : BootImage) : Bool := lmsVerifies key i.signature i.bytes

/-- R250: what the boot ROM finds of the images, the configuration image first. -/
def romError (key : List Byte) (r : PowerOnResult) : Option Nat :=
  if !signedBy key r.cfg then some 1 else if r.cfg.version < r.floor then some 3
  else if !signedBy key r.fw then some 2 else if r.fw.version < r.floor then some 3 else none

/-- R249 to R251: the stage at which a power-on stops, with its ERR; none if it reaches READY. -/
def bootEnd (key : List Byte) (r : PowerOnResult) : Option (Nat × Nat) :=
  match romError key r with
  | some e => some (2, e)
  | none => if !r.puf then some (3, 4) else if r.stk ≠ 0xffff then some (4, 5) else if !r.starts then some (6, 6) else none

/-- R249: a stage is begun unless the power-on stops before it. -/
def bootBegins (key : List Byte) (r : PowerOnResult) (stage : Nat) : Bool :=
  match bootEnd key r with | none => true | some (st, _) => stage ≤ st

/-- R249: a stage is completed unless the power-on stops at it or before it. -/
def bootPasses (key : List Byte) (r : PowerOnResult) (stage : Nat) : Bool :=
  match bootEnd key r with | none => true | some (st, _) => stage < st

/-- R238, R249: the dies as STACKS leaves them. -/
def bootDies (usable : List (BitVec 1600)) : Tab Die := (List.range 16).map fun d => (d, { usable := usable.getD d 0 })

/-- R251: the identity digest. -/
def identityDigest : BitVec 256 := sha256 ((List.range 96).map Config.identityKey)

/-- R249 to R253: what power-on leaves in the module's status; ports start their first training attempt at READY. -/
def SysSt.booted (y : SysSt) (r : PowerOnResult) : SysSt :=
  let key := y.romKey
  { cycle := y.cycle, romKey := key
    bootStage := match bootEnd key r with | none => 0x0f | some (st, _) => BitVec.ofNat 8 st
    bootErr := match bootEnd key r with | none => 0 | some (_, e) => BitVec.ofNat 8 e
    bootDone := bootPasses key r 0x0f
    stktrn := if bootBegins key r 4 then r.stk else 0
    cxl := if bootPasses key r 5 then #v[r.cxl0, r.cxl1] else Vector.replicate 2 ⟨false, false, 0, 0⟩
    cfgDigest := sha256 r.cfg.bytes, cfgVersion := r.cfg.version
    fwDigest := if signedBy key r.cfg && r.floor ≤ r.cfg.version then sha256 r.fw.bytes else 0
    fwVersion := if signedBy key r.cfg && r.floor ≤ r.cfg.version then r.fw.version else 0
    idDigest := if bootPasses key r 3 then identityDigest else 0
    ports := Vector.replicate 32 (if bootPasses key r 0x0f then ({} : Port).attempt 0 else {}) }

/-- R249 to R253: the module leaves power-on: every register is at its reset value, the stages run in order, and a failed one
stops the module with its cause in BOOTSTAT. -/
def execPowerOn (r : PowerOnResult) (s : State) : Out :=
  .next { dies := if bootPasses s.sys.romKey r 4 then bootDies r.usable else [], mem := { host := s.mem.host, hostBad := s.mem.hostBad },
          sys := s.sys.booted r, sched := { tasks := s.sched.tasks, inputs := s.sched.inputs } }

/-- R212, R252: a host port trains and negotiates, or loses its link. -/
def execCxlPortTraining (k : Fin 2) (r : CxlResult) (s : State) : Out :=
  .next { s with sys := { s.sys with cxl := s.sys.cxl.set k.val r k.isLt } }

/-- R252: BOOTSTAT. -/
def SysSt.bootstat (y : SysSt) : Nat := y.bootStage.toNat + y.bootErr.toNat * 2 ^ 8 + bit y.bootDone * 2 ^ 16

/-- R254: the report up to the signature. -/
def State.attestHead (s : State) : List Byte :=
  let y := s.sys
  y.attn.toList.flatMap (fun w => leBytes w.toNat 8) ++ leBytes y.cfgDigest.toNat 32 ++ leBytes y.fwDigest.toNat 32 ++
    leBytes (y.cfgVersion.toNat + y.fwVersion.toNat * 2 ^ 16) 4 ++ leBytes y.bootstat 4 ++ leBytes y.devtime.toNat 8 ++
    (List.range 96).map Config.identityKey

/-- R254: the whole report. -/
def State.attestReport (s : State) : List Byte :=
  s.attestHead ++ (List.range 96).map (Config.attestSignature s.attestHead)

/-- R254: a write to ATTGO. A 1 signs a report, which is then written; while it is being written ATTGO takes no write. -/
def State.writeAttgo (s : State) (v : Word) : State :=
  if v = 1 ∧ ¬s.sys.attgo then
    { s with sys := { s.sys with attgo := true, report := byteWords 38 s.attestReport } }
  else s

/-- R254: the host writes 1 to ATTGO; a write of another value is a register write. -/
def execAttgoWrite (s : State) : Out := .next (s.writeAttgo 1)

/-- R254: the report is written once its lines are open, and ATTGO reads 0. -/
def State.reportOn (s : State) : State :=
  if s.sys.attgo then
    let a := s.sys.attaddr.toNat / 4096 * 4096
    s.whenOpen true (linesOf a 304) fun s =>
      let s := s.storeWords a none s.sys.report
      { s with sys := { s.sys with attgo := false, report := [] } }
  else s

/-- R255: a read of GOVSTAT restarts its lowest value. -/
def execGovstatRead (s : State) : Out := .next { s with sys := { s.sys with mhzLow := s.sys.mhz } }

/-- R255: the governor's settings, 1.0 to 3.3 GHz in steps of 100 MHz. -/
def mhzOk (m : Nat) : Bool := 1000 ≤ m && m ≤ 3300 && m % 100 == 0

/-- R240, R255: the governor changes the arithmetic clock between two cycles; the parts of a nanosecond and of a foundation cycle
that have passed stay what they were. -/
def execClockChange (mhz : Nat) (s : State) : Out :=
  .next (if mhzOk mhz then
    let y := s.sys
    { s with sys := { y with mhz := mhz, mhzLow := min y.mhzLow mhz, frac := y.frac * mhz / max y.mhz 1,
                             ffrac := y.ffrac * mhz / max y.mhz 1 } } else s)

/-! ### Register writes (R11, R140, R193, R194, R214, R218, R225, R229, R234, R236, R254) -/

/-- R214: TQCFG or ELCFG; a SIZELOG outside 4 to 12 is not taken. -/
def TrapQ.withCfg (t : TrapQ) (v : Word) : TrapQ :=
  let n := wbits v 3 0
  { t with en := v.getLsbD 8, sizelog := if 4 ≤ n ∧ n ≤ 12 then BitVec.ofNat 4 n else t.sizelog }

/-- What a function's registers mirror in the cells bound to it. -/
def State.mirror (s : State) (vf : Fin 64) (f : Seq → Seq) : State :=
  { s with cells := s.cells.map fun (c, x) => (c, if x.bound.map (·.vf) = some vf then { x with seq := f x.seq } else x) }

/-- R86: every cell bound to a function mirrors its TRACEFN. -/
def State.mirrorTrace (s : State) (vf : Fin 64) : State := s.mirror vf fun q => { q with traceFn := (s.fn vf.val).tracefn }

/-- R79, R85: every cell bound to a function mirrors its TESTM, whose clearing clears ERRINJ. -/
def State.mirrorTest (s : State) (vf : Fin 64) : State :=
  let t := (s.fn vf.val).testm
  s.mirror vf fun q => { q with testm := t, errinj := if q.testm && !t then {} else q.errinj }

/-- R234, R235: firmware's fields of a phaser record, word by word; new counts may complete the phase. -/
def Phaser.withWord (p : Phaser) (k : Fin 4) (v : Word) : Phaser :=
  match k.val with
  | 0 => { p with phase := v.setWidth 32 }
  | 1 => ({ p with nsig := wbits v 31 16, nwait := wbits v 47 32, nsw := wbits v 63 48 } : Phaser).settle
  | 2 => p
  | _ => if wbits v 2 0 ≤ 4 then { p with scope := v.setWidth 3 } else p

/-- R229: STATE of a migration entry as firmware writes it; LOST is not firmware's. -/
def migState (old : MigState) (n : Nat) : MigState :=
  match n with | 0 => .free | 1 => .armed | 2 => .active | _ => old

/-- R229, R230: firmware's fields of a migration entry, word by word; arming sets FILLED to 0. -/
def MigEntry.withWord (m : MigEntry) (k : Fin 4) (v : Word) : MigEntry :=
  match k.val with
  | 0 => { m with bmap := v.setWidth 41 }
  | 1 => { m with new := v.setWidth 41 }
  | 2 => { m with old := v }
  | _ =>
    let st := migState m.state (wbits v 49 48)
    { m with state := st, filled := if st = .armed then 0 else m.filled, big := v.getLsbD 32, oh := v.getLsbD 31 }

/-- R174: a ring of the physical function overlaps that of another of its queues. -/
def State.fwOverlap (s : State) (ofs lg : Nat) : Bool :=
  s.disp.queues.any fun (key, x) => key / 256 = 0 && x.state != .free && ringsMeet ofs lg x.ringofs x.ringlog

/-- R174, R184: firmware's own queue of the physical function. A block that is not free, or not free for two passes of the Anole,
or a ring that is not one, makes none. -/
def State.fwQueue (s : State) (q : BitVec 8) (prio : Fin 8) (asid : BitVec 16) (ofs : BitVec 9) (lg : Fin 10) : State :=
  let o := s.queue 0 q
  let x : Queue :=
    { prio := prio, state := .active, fwq := true, ringlog := lg.val, ringofs := ofs.toNat, asid := asid,
      lastseq := o.lastseq, savearea := o.savearea }
  if o.state ≠ .free ∨ s.disp.anopass < o.freeAt ∨ lg.val < 2 ∨ ofs.toNat % 2 ^ lg.val ≠ 0 ∨ 512 < ofs.toNat + 2 ^ lg.val ∨
      s.fwOverlap ofs.toNat lg.val then s
  else s.whenOpen true (ringLines (s.fn 0) x) fun s => ((s.setQueue 0 q x).zeroRing (s.fn 0) x).spliceInsert 0 q

/-- R237: a function that leaves DISABLED has every queue FREE, FATAL 0 and an empty trap queue whose EN is 0. -/
def State.enableFn (s : State) (vf : Fin 64) : State :=
  match (s.fn vf.val).state with
  | .disabled => (s.freeQueues vf).modFn vf.val fun f =>
      { f with state := .enabled, fatal := 0, tq := f.tq.emptied, found := [], due := [], held := [], await := [] }
  | .frozen => s.modFn vf.val fun f => { f with state := .enabled }
  | _ => s

/-- R225: firmware's fields of an ASID entry. -/
def asidOf (v : Word) : AsidEntry :=
  { valid := v.getLsbD 63, vf := BitVec.ofNat 6 (wbits v 46 41), root := BitVec.ofNat 29 (wbits v 40 12) }

/-- R249: the registers of the physical function's CXL.io page that the host writes, before READY as after it. -/
def hostPf : RegTarget → Bool
  | .mbreq vf _ => vf = 0
  | .elhead | .attn _ | .attaddr | .attgo => true
  | _ => false

/-- R11: a write to a register or table entry that has no event of its own changes its writable fields. -/
def execRegisterWrite (t : RegTarget) (v : Word) (s : State) : Out :=
  .next <| if !s.sys.bootDone && !hostPf t then s else
    match t with
    | .mbreq vf k => s.modMbox vf.val fun m => { m with req := m.req.set k.val v k.isLt }
    | .tqbase vf => s.modFn vf.val fun f => { f with tq := { f.tq with base := BitVec.ofNat 29 (wbits v 40 12) } }
    | .tqcfg vf => (s.modFn vf.val fun f => { f with tq := f.tq.withCfg v }).releaseHeld vf.val
    | .elbase => { s with sys := { s.sys with errLog := { s.sys.errLog with base := BitVec.ofNat 29 (wbits v 40 12) } } }
    | .elcfg => { s with sys := { s.sys with errLog := s.sys.errLog.withCfg v } }
    | .elhead => { s with sys := { s.sys with errLog := s.sys.errLog.withHead (v.setWidth 32) } }
    | .attn k => { s with sys := { s.sys with attn := s.sys.attn.set k.val v k.isLt } }
    | .attaddr => { s with sys := { s.sys with attaddr := BitVec.ofNat 41 (wbits v 40 12 * 4096) } }
    | .attgo => s.writeAttgo v
    | .window vf => s.modFn vf.val fun f => { f with window := v.setWidth 25 }
    | .blockmask vf k => s.modFn vf.val fun f =>
        { f with blockmask := (f.blockmask &&& ~~~(BitVec.ofNat 256 ((2 ^ 64 - 1) * 2 ^ (64 * k.val)))) |||
                              BitVec.ofNat 256 (v.toNat * 2 ^ (64 * k.val)) }
    | .trcsize vf => s.modFn vf.val fun f => { f with trcsize := v.setWidth 32 }
    | .trcbase vf => s.modFn vf.val fun f => { f with trcbase := v.setWidth 41 }
    | .asidbase vf => s.modFn vf.val fun f => { f with asidbase := v.setWidth 16 }
    | .asidcnt vf => s.modFn vf.val fun f => { f with asidcnt := v.setWidth 16 }
    | .wqbase vf => s.modFn vf.val fun f => { f with wqbase := v.setWidth 16 }
    | .wqcnt vf => s.modFn vf.val fun f => { f with wqcnt := v.setWidth 16 }
    | .phbase vf => s.modFn vf.val fun f => { f with phbase := v.setWidth 16 }
    | .phcnt vf => s.modFn vf.val fun f => { f with phcnt := v.setWidth 17 }
    | .ybudget vf => s.modFn vf.val fun f => { f with ybudget := v.setWidth 32 }
    | .bypassLimit vf => s.modFn vf.val fun f => if wbits v 7 0 = 0 then f else { f with bypassLimit := v.setWidth 8 }
    | .tracefn vf => (s.modFn vf.val fun f => { f with tracefn := v.getLsbD 0 }).mirrorTrace vf
    | .testm vf => (s.modFn vf.val fun f => { f with testm := v.getLsbD 0 }).mirrorTest vf
    | .enable vf => s.enableFn vf
    | .asid a => { s with mem := { s.mem with asids := tset s.mem.asids a.toNat (asidOf v) } }
    | .phaser n k => s.setPhaser n.toNat ((s.phaser n.toNat).withWord k v)
    | .workqCreate n m =>
      if m.val < 4 then s else s.setWq n.toNat { m := m.val, base := wbits v 40 6 * 64 }
    | .workqDestroy n => { s with disp := { s.disp with wqs := terase s.disp.wqs n.toNat } }
    | .migEntry n k => { s with mem := { s.mem with mig := tset s.mem.mig n.val ((tget {} s.mem.mig n.val).withWord k v) } }
    | .savearea vf q => s.modQueue vf q fun x => { x with savearea := wbits v 40 0 }
    | .fwqCreate q prio asid ofs lg => s.fwQueue q prio asid ofs lg
    | .scrubRate => { s with mem := { s.mem with skinkPeriod := v } }

end Sys2Proof.Machine
end

