-- ==== Sys2Proof/Machine/NbEvents.lean ====
section
/-! DEFINITION. The stack controllers and the near-bank units: checks, dispatch, per-bank commands and completion
(R132 to R136, R202, R332). -/

namespace Sys2Proof.Machine

/-- A near-bank command that is accepted and not complete. -/
def State.nbFind (s : State) (id : Nat) : Option NbCmd := s.mem.nb.find? (·.id = id)

/-- The command as it stands now. -/
def State.setNb (s : State) (k : NbCmd) : State :=
  { s with mem := { s.mem with nb := s.mem.nb.map fun j => if j.id = k.id then k else j } }

/-! ### The checks (R133) -/

/-- A row list: its base, its stride, and whether its rows are destinations. -/
structure RowList where
  base : Word
  stride : BitVec 32
  dest : Bool
deriving DecidableEq, Repr

/-- R332: the lists that a command uses, D, X and Y in this order. -/
def NbCmd.lists (k : NbCmd) : List RowList :=
  let (ud, ux, uy, _, _) := nbUses k.op.val
  (if ud then [⟨k.dbase, k.dstride, true⟩] else []) ++ (if ux then [⟨k.xbase, k.xstride, false⟩] else []) ++
  (if uy then [⟨k.ybase, k.ystride, false⟩] else [])

/-- R331: the virtual address of row j of a list. -/
def RowList.va (l : RowList) (j : Nat) : Nat := wrapN 48 (l.base.toNat + j * l.stride.toInt)

/-- R133: base and stride are multiples of 1 KiB. -/
def RowList.aligned (l : RowList) : Bool := l.base.toNat % 1024 == 0 && l.stride.toNat % 1024 == 0

/-- A row translated: its DPA, and whether its page is a 2 MiB page with NBC set. -/
structure RowAt where
  dpa : Nat
  nbc : Bool
deriving DecidableEq, Repr

/-- R133, R226: one row through the agent of a die. -/
def State.rowAt (s : State) (die : Nat) (asid : BitVec 16) (l : RowList) (j : Nat) : Except Hold RowAt × State :=
  match s.translate die asid (l.va j) (if l.dest then 2 else 1) true with
  | (.error h, s) => (.error h, s)
  | (.ok t, s) =>
    match tlbFind s die asid (l.va j) with
    | some (p, level) => (.ok ⟨t.addr, level == 1 && p.getLsbD 5⟩, s)
    | none => (.ok ⟨t.addr, false⟩, s)

/-- The rows of one list from row j up; the first that does not translate ends it. -/
def State.rowsAt (s : State) (die : Nat) (asid : BitVec 16) (l : RowList) : Nat → Nat → Except Hold (List RowAt) × State
  | 0, _ => (.ok [], s)
  | n + 1, j =>
    match s.rowAt die asid l j with
    | (.error h, s) => (.error h, s)
    | (.ok r, s) =>
      match s.rowsAt die asid l n (j + 1) with
      | (.error h, s) => (.error h, s)
      | (.ok t, s) => (.ok (r :: t), s)

/-- The rows of every list. -/
def State.allRowsAt (s : State) (die : Nat) (asid : BitVec 16) (n : Nat) :
    List RowList → Except Hold (List (List RowAt)) × State
  | [] => (.ok [], s)
  | l :: t =>
    match s.rowsAt die asid l n 0 with
    | (.error h, s) => (.error h, s)
    | (.ok r, s) =>
      match s.allRowsAt die asid n t with
      | (.error h, s) => (.error h, s)
      | (.ok rs, s) => (.ok (r :: rs), s)

/-- R133: every row of a list lies in the page of its first row. -/
def RowList.onePage (l : RowList) (n : Nat) : Bool := (List.range n).all fun j => l.va j / 2 ^ 21 == l.va 0 / 2 ^ 21

/-- R126: rows of one bank. -/
def sameBank (a b : Nat) : Bool := dpaStack a == dpaStack b && dpaChan a == dpaChan b && dpaBank a == dpaBank b

/-- R133: rows of one subarray. -/
def sameSubarray (a b : Nat) : Bool := sameBank a b && dpaSubarray a == dpaSubarray b

/-- Row j of every list. -/
def rowsOf (rs : List (List RowAt)) (j : Nat) : List Nat := rs.filterMap fun r => (r[j]?).map (·.dpa)

/-- R133: whether the rows of each position are related as the operation needs. -/
def rowsAgree (rs : List (List RowAt)) (n : Nat) (p : Nat → Nat → Bool) : Bool :=
  (List.range n).all fun j => match rowsOf rs j with
    | [] => true
    | a :: t => t.all (p a)

/-- R133: the checks in the order of the table; the rows by list when they all pass. -/
def State.nbChecks (s : State) (k : NbCmd) : Except Hold (List (List RowAt)) × State :=
  let ls := k.lists
  let op := k.op.val
  if !ls.all RowList.aligned then (.error (.fail cNbRange 0), s)
  else match s.allRowsAt (k.ctrls.headD 0) k.asid k.count ls with
    | (.error h, s) => (.error h, s)
    | (.ok rs, s) =>
      if !rs.all (fun r => r.all (·.nbc)) then (.error (.fail cNbRange 0), s)
      else if !ls.all (fun l => l.onePage k.count) then (.error (.fail cNbRange 0), s)
      else if op == 2 && !rowsAgree rs k.count sameSubarray then (.error (.fail cNbSubarray 0), s)
      else if 3 ≤ op && !rowsAgree rs k.count sameBank then (.error (.fail cNbBank 0), s)
      else (.ok rs, s)

/-! ### Dispatch (R135) -/

/-- The rows of position j as D, X and Y. -/
def NbCmd.position (k : NbCmd) (rs : List (List RowAt)) (j : Nat) : Option Nat × Option Nat × Option Nat :=
  let (ud, ux, _, _, _) := nbUses k.op.val
  let r := rowsOf rs j
  let d := if ud then 1 else 0
  let x := if ux then d + 1 else d
  (if ud then r[0]? else none, if ux then r[d]? else none, r[x]?)

/-- Whether a line lies in one of the rows of a command. -/
def NbCmd.covers (k : NbCmd) (n : Nat) : Bool :=
  let hit (o : Option Nat) : Bool := match o with | some a => n / 8 = a / 1024 | none => false
  k.rows.any fun (d, x, y) => hit d || hit x || hit y

/-- R135: a dirty line is written back and left clean; a poisoned one poisons its granules. -/
def State.cleanLine (s : State) (n : Nat) : State :=
  match s.lls n with
  | none => s
  | some l =>
    if l.dirty then
      let s := s.evictLine n
      s.setLls n { data := s.lineVal n, poison := s.poisonOf n, writer := l.writer }
    else s

/-- R135: every line of the LLS that a command's rows cover. -/
def State.cleanRows (s : State) (k : NbCmd) : State :=
  s.mem.lls.foldl (fun s (n, _) => if k.covers n then s.cleanLine n else s) s

/-- The row whose bank executes the command of a position: the destination, or the first source. -/
def homeRow : Option Nat × Option Nat × Option Nat → Nat
  | (some d, _, _) => d
  | (none, some x, _) => x
  | (none, none, y) => y.getD 0

/-- R134: a copy whose source row lies in another bank than its destination: the two rows. -/
def NbCmd.across (k : NbCmd) (r : Option Nat × Option Nat × Option Nat) : Option (Nat × Nat) :=
  match k.op.val, r with
  | 1, (some d, some x, _) => if sameBank x d then none else some (x, d)
  | _, _ => none

/-- R202: where a bank lies. -/
abbrev BankAt := Nat × Nat × Nat

/-- R126: the bank of a row. -/
def bankAt (a : Nat) : BankAt := (dpaStack a, dpaChan a, dpaBank a)

/-- R134, R202: what the banks do for a command, position by position; a copy between banks reads its source first. -/
def NbCmd.acts (k : NbCmd) : List (BankAt × BankAct) :=
  (k.rows.zipIdx).flatMap fun (r, j) =>
    (match k.across r with | some (x, _) => [(bankAt x, ⟨j, true⟩)] | none => []) ++ [(bankAt (homeRow r), ⟨j, false⟩)]

/-- R132, R202: the per-bank commands, one for each bank that the rows use. -/
def NbCmd.bankCmds (k : NbCmd) : List BankCmd :=
  (k.acts.map (·.1)).eraseDups.map fun b =>
    { id := k.id, stack := b.1, chan := b.2.1, bank := b.2.2, acts := (k.acts.filter (·.1 == b)).map (·.2) }

/-- R202: an earlier command at a controller of this one has not been dispatched. -/
def State.nbBehind (s : State) (k : NbCmd) : Bool :=
  s.mem.nb.any fun j => j.id < k.id && (j.stage == .accepted || j.stage == .recalling) && j.ctrls.any k.ctrls.contains

/-- R131, R135: a command whose rows have been checked: lines that the host holds are recalled, and once there are none the
LLS is cleaned and the per-bank commands are issued. -/
def State.nbIssue (s : State) (k : NbCmd) : State :=
  match s.mem.dir.filter fun e => k.covers e.line with
  | [] =>
    let s := (s.cleanRows k).setNb { k with stage := .executing, left := k.acts.length }
    { s with mem := { s.mem with bankQ := s.mem.bankQ ++ k.bankCmds } }
  | es => es.foldl (fun s e => s.startRecall e.line) s

/-- R133, R135, R202: the controller checks the oldest command it holds, records its busy ranges, recalls the lines that the
host holds, cleans the LLS and splits the command. A translation that waits leaves the command as it is. -/
def execNbDispatch (id : Nat) (s : State) : Out :=
  .next <| match s.nbFind id with
  | none => s
  | some k =>
    if s.nbBehind k then s
    else match k.stage with
      | .accepted =>
        match s.nbChecks k with
        | (.error .wait, s) => s
        | (.error (.fail c _), s) => s.setNb { k with stage := .results, cause := c }
        | (.ok rs, s) =>
          let k := { k with rows := (List.range k.count).map (k.position rs), seen := s.nextId, stage := .recalling }
          (({ s with mem := { s.mem with nextReq := s.mem.nextReq + 1 } }).setNb k).nbIssue k
      | .recalling => s.nbIssue k
      | .executing | .results | .finished => s

/-! ### Per-bank commands (R132, R134, R202, R332) -/

/-- The numbers of `n` elements of `w` bytes. -/
def elemsOf (w : Nat) : Nat → List Byte → List Nat
  | 0, _ => []
  | n + 1, bs => leNat (bs.take w) :: elemsOf w n (bs.drop w)

/-- R332: element type and bytes of an element. -/
def NbCmd.fmt (k : NbCmd) : Fmt × Nat := if k.bf16 then (fmtBf16, 2) else (fmtF32, 4)

/-- R332: one element of an arithmetic command: exact, rounded once. -/
def nbElem (op : Nat) (f : Fmt) (alpha x y : Fp) : Nat :=
  let v := match op with
    | 3 => fmaFp 0 alpha x y
    | 4 => sumFp 0 [x, y]
    | 5 => mulFp x y
    | _ => mulFp alpha x
  (f.finish { mode := 0 } v).1

/-- R332: the bytes of row D. -/
def NbCmd.destRow (k : NbCmd) (x y : List Byte) : List Byte :=
  let (f, w) := k.fmt
  let n := 1024 / w
  match k.op.val with
  | 0 => List.replicate 1024 0
  | 1 | 2 => x
  | 6 => ((elemsOf w n x).map fun a => leBytes (nbElem 6 f (fmtF32.value k.alpha.toNat) (f.value a) (.fin false 0 0)) w).flatten
  | op => (List.zipWith (fun a b => leBytes (nbElem op f (fmtF32.value k.alpha.toNat) (f.value a) (f.value b)) w)
      (elemsOf w n x) (elemsOf w n y)).flatten

/-- R332: out[j] of SUM and DOT. -/
def NbCmd.sumRow (k : NbCmd) (x y : List Byte) : BitVec 32 :=
  let (f, w) := k.fmt
  let n := 1024 / w
  let xs := (elemsOf w n x).map f.value
  let ts := if k.op.val = 7 then xs else List.zipWith (fun a b => (mulFp a (f.value b)).1) xs (elemsOf w n y)
  BitVec.ofNat 32 (fmtF32.finish { mode := 0 } (sumFp 0 ts)).1

/-- R139: a row of DRAM read for a command, and the granules found poisoned. -/
def State.readRow (s : State) (o : Option Nat) : List Byte × List Bool × State :=
  match o with
  | none => (List.replicate 1024 0, List.replicate 16 false, s)
  | some a =>
    let g := a / 1024 * 16
    let s := (List.range 16).foldl (fun s i => s.readGran (g + i) 7) s
    (mread s.mem.dram (a / 1024 * 1024) 1024, (List.range 16).map fun i => (s.gran (g + i)).poison, s)

/-- R141, R332: a row written, its granules poisoned where they are produced from poisoned ones. -/
def State.writeRow (s : State) (a : Nat) (bs : List Byte) (bad : List Bool) : State :=
  (List.range 8).foldl (fun s i =>
    s.dramWrite (a / 1024 * 8 + i) (BitVec.allOnes 128) (BitVec.ofNat 1024 (leNat ((bs.drop (128 * i)).take 128)))
      (granBits (bad.getD (2 * i) false) (bad.getD (2 * i + 1) false))) s

/-- R134: the INFO bit of the path of a row pair. -/
def copyPath (x d : Nat) : BitVec 4 :=
  if sameSubarray x d then 1 else if sameBank x d then 2 else if dpaStack x == dpaStack d then 4 else 8

/-- The lesser of two positions, where there are any. -/
def leastPos (o : Option Nat) (j : Nat) : Option Nat :=
  match o with | some i => some (min i j) | none => some j

/-- R134, R202: a source row has been read, and is held until its destination's bank writes it. -/
def State.sourceDone (s : State) (k : NbCmd) (j x : Nat) : State :=
  let (bs, bad, s) := s.readRow (some x)
  s.setNb { k with left := k.left - 1, buf := k.buf ++ [(j, bs, bad)] }

/-- R332: a per-bank command does its position of its parent, with the rows it reads. -/
def State.rowDone (s : State) (k : NbCmd) (j : Nat) (xs ys : List Byte) (bad : List Bool) : State :=
  let (d, x, _) := (k.rows[j]?).getD (none, none, none)
  let s := match d with | some a => s.writeRow a (k.destRow xs ys) bad | none => s
  let info := match k.op.val, x, d with | 1, some a, some b => k.info ||| copyPath a b | _, _, _ => k.info
  s.setNb { k with
    left := k.left - 1, info := info, out := if d.isNone then k.out ++ [(j, k.sumRow xs ys)] else k.out
    bad := if bad.contains true then leastPos k.bad j else k.bad, buf := k.buf.filter (·.1 ≠ j) }

/-- R132, R202: the commands in the four-entry queue of a bank; those behind them wait at the controller. -/
def State.bankQueue (s : State) (stack chan bank : Nat) : List BankCmd :=
  (s.mem.bankQ.filter fun b => b.stack = stack ∧ b.chan = chan ∧ b.bank = bank).take 4

/-- R134: whether a position of a command copies between two banks of a stack. -/
def NbCmd.through (k : NbCmd) (stack j : Nat) : Bool :=
  match k.across ((k.rows[j]?).getD (none, none, none)) with
  | some (x, d) => dpaStack x = stack && dpaStack d = stack
  | none => false

/-- R132: the rows that stand in the 64 KiB transfer buffer of a stack, or will before a read that comes later in dispatch
order: those on their way between banks of the stack. -/
def State.inTransfer (s : State) (stack : Nat) (id j : Nat) : Nat :=
  let reads (b : BankCmd) (p : BankAct → Bool) : Nat := match s.nbFind b.id with
    | some k => (b.acts.filter fun a => a.src && k.through stack a.j && p a).length
    | none => 0
  ((s.mem.nb.map fun k => (k.buf.filter fun e => k.through stack e.1).length) ++
    ((s.mem.bankQ.takeWhile (·.id ≠ id)).map fun b => reads b fun _ => true) ++
    ((s.mem.bankQ.filter (·.id = id)).map fun b => reads b fun a => a.j < j)).sum

/-- R134, R202: what an act of a per-bank command comes to: none while its source row has not been read, or while the transfer
buffer has no room. -/
def State.bankStep (s : State) (k : NbCmd) (b : BankAct) : Option State :=
  let r := (k.rows[b.j]?).getD (none, none, none)
  match k.across r with
  | some (x, d) =>
    if b.src then
      if dpaStack x = dpaStack d ∧ 64 ≤ s.inTransfer (dpaStack x) k.id b.j then none else some (s.sourceDone k b.j x)
    else (k.buf.find? (·.1 = b.j)).map fun e => s.rowDone k b.j e.2.1 (List.replicate 1024 0) e.2.2
  | none =>
    let (xs, xp, s) := s.readRow r.2.1
    let (ys, yp, s) := s.readRow r.2.2
    some (s.rowDone k b.j xs ys (List.zipWith (fun a b => a || b) xp yp))

/-- R202: the acts of a per-bank command, as far as they can go now, and those left. -/
def State.bankRun (s : State) (id : Nat) : List BankAct → State × List BankAct
  | [] => (s, [])
  | a :: t =>
    match s.nbFind id with
    | none => (s, [])
    | some k => match s.bankStep k a with
      | some s => s.bankRun id t
      | none => (s, a :: t)

/-- A per-bank command becomes what is left of it, or is gone. -/
def replaceCmd (b : BankCmd) (left : List BankAct) : List BankCmd → List BankCmd
  | [] => []
  | h :: t => if h = b then (if left.isEmpty then t else { b with acts := left } :: t) else h :: replaceCmd b left t

/-- R158, R202: a bank executes the oldest per-bank command of its queue. -/
def execPerBankCommand (stack chan bank : Nat) (s : State) : Out :=
  .next <| match s.bankQueue stack chan bank with
  | [] => s
  | b :: _ =>
    let (t, left) := s.bankRun b.id b.acts
    { t with mem := { t.mem with bankQ := replaceCmd b left t.mem.bankQ } }

/-! ### Completion (R135, R332) -/

/-- R135: the lines of the destination rows leave the LLS. -/
def State.dropRows (s : State) (k : NbCmd) : State :=
  { s with mem := { s.mem with lls := s.mem.lls.filter fun (n, _) =>
      !(k.rows.any fun (d, _, _) => match d with | some a => n / 8 = a / 1024 | none => false) } }

/-- R182: the words that WAIT records watch in the destination rows are examined again. -/
def State.watchRows (s : State) (k : NbCmd) : State :=
  (k.rows.flatMap fun (d, _, _) => match d with | some a => (List.range 8).map (a / 1024 * 8 + ·) | none => []).foldl
    (fun s n => s.watch false n) s

/-- R332: out[j]. -/
def NbCmd.outAt (k : NbCmd) (j : Nat) : BitVec 32 :=
  (k.out.filterMap fun p => if p.1 = j then some p.2 else none).headD 0

/-- R332: the results of SUM and DOT as bytes, in the order of their positions. -/
def NbCmd.outBytes (k : NbCmd) : List Byte :=
  ((List.range k.count).map fun j =>
    leBytes (k.outAt j).toNat 4).flatten

/-- R111, R332: the results as accesses of class 4, whole words where two of them fill one. -/
def NbCmd.outPuts (k : NbCmd) : List SpReq :=
  if k.cause ≠ 0 ∨ k.op.val < 7 then [] else writesOf (.nb k.id) 4 k.roff k.outBytes (k.count + 1)

/-- R115, R133, R141: the completion word. A last result that could not be written leaves its row incomplete (R113). -/
def NbCmd.word (k : NbCmd) : Word :=
  if k.cause ≠ 0 ∧ k.cause ≠ cMcSpadEcc then errorWord 0 k.cause
  else match k.bad with
    | some j => errorWord j cPoison
    | none => if k.cause ≠ 0 then errorWord (k.count - 1) k.cause else doneWord k.info k.cval

/-- R115, R135: a command whose positions are all done: the lines of its destination rows are invalidated, its busy ranges end and
its results are written; then, or when it was rejected, its completion word; and with that it is complete. -/
def execNbCompletion (id : Nat) (s : State) : Out :=
  .next <| match s.nbFind id with
  | none => s
  | some k =>
    if (s.cell k.cell).pending (.nb id) then s
    else match k.stage with
      | .executing =>
        if k.left = 0 then
          (((s.dropRows k).watchRows k).setNb { k with stage := .results }).modCell k.cell fun x => x.addPuts k.outPuts
        else s
      | .results =>
        (s.setNb { k with stage := .finished }).modCell k.cell fun x =>
          x.addPuts [{ who := .nb id, cls := 4, off := k.cwoff, size := 8, val := k.word.toNat }]
      | .finished =>
        ({ s with mem := { s.mem with nb := s.mem.nb.filter (·.id ≠ id) } }).ev k.cell 0x31
      | .accepted | .recalling => s

end Sys2Proof.Machine
end

