-- ==== Sys2Proof/Machine/Cycle.lean ====
section
/-! DEFINITION. The order of the steps of an arithmetic-clock cycle, and what its beginning and its end bring about
(R84, R111, R186, R191, R240 to R243; the order itself is log 4's). -/

namespace Sys2Proof.Machine

/-! ### The beginning of a cycle -/

/-- R173: a resumed cell whose first word is there to issue, or that issues none for now, goes on in this cycle. -/
def CellSt.restarted (x : CellSt) : CellSt :=
  let ready := x.halted ||
    (if x.replay then x.freeze = .wait else x.causeDue || x.nextInstr.isSome || x.seq.log.any fun e => e.phase.isSome)
  { x with restart := x.restart && !ready }

/-- R84, R111: what a bound cell's cycle begins with: the banks that its fabric takes, and one cycle less to the deadline. -/
def State.beginCell (s : State) (c : Nat) : State :=
  if (s.cell c).bound.isNone then s
  else
    let s := s.modCell c CellSt.restarted
    let bs := s.fabricBanks c
    (s.modCell c fun x =>
      { x with banks := bs, seq := { x.seq with
          ydeadline := if x.seq.yreq ∧ x.seq.ydeadline ≠ 0 then x.seq.ydeadline - 1 else x.seq.ydeadline } })

/-- R192, R193: whether an appender still waits for room. -/
def State.stillWaits (s : State) : Appender → Bool
  | .cell c => (s.cell c).bound.isSome
  | .record vf q j => (s.queue vf q).state == .active && (s.queue vf q).recs.any (·.slot == j)
  | .timer id => s.disp.timers.any fun t => t.id == id && (s.queue t.vf t.q).state == .active

/-- R193: those that no longer wait leave the lists. -/
def State.pruneWqs (s : State) : State :=
  { s with disp := { s.disp with wqs := s.disp.wqs.map fun (n, w) =>
      (n, { w with appenders := w.appenders.filter s.stillWaits }) } }

/-- The inputs that are due, those that have had to wait first, and the rest. -/
def dueInputs (now : Nat) (l : List Input) : List Task × List Input :=
  let due := l.filter fun i => i.cycle ≤ now
  (((due.filter (·.held)) ++ due.filter (!·.held)).map fun i => .event i.ev, l.filter fun i => now < i.cycle)

/-- R226, R239, R253, R254: what the module goes on with by itself: walks, training attempts, a report, dies that have been reset. -/
def State.moduleOn (s : State) : State :=
  let s := (s.goWalks s.mem.walking).startTraining.reportOn
  { s with dies := s.dies.map fun (d, e) => (d, Die.reloaded e) }

/-- R40, R300: what a bound cell's sequencer does in a cycle, by how it stands. -/
def State.seqTasks (s : State) (c : Nat) (x : CellSt) : List Task :=
  match x.freeze with
  | .none | .logFull | .ifetch | .accept => [.issue c]
  | .mem _ => if s.answered c then [.event (.memoryResponse c)] else []
  | .bank => [.event (.sequencerBankGrant c)]
  | .wait => [.event (.waitWake c)]

/-- The steps of a cell's cycle: its sequencer, a deadline, its copy engine, its fabric, its landings, its caches, its
collector. -/
def State.cellTasks (s : State) (c : Nat) (x : CellSt) : List Task :=
  if x.bound.isNone then []
  else
    s.seqTasks c x ++ (if x.seq.yreq then [.event (.forcedPreemption c)] else [])
      ++ (if x.copyq.isEmpty then [] else [.event (.copyChunk c)])
      ++ [.event (.regionCycle c), .event (.rowResultLanding c)]
      ++ (List.finRange 4).map (fun k => .event (.regionCompletion c k))
      ++ [.event (.operandLogLanding c)]
      ++ (if s.mem.reqs.any fun (_, r) => r.cell = c && r.kind == .fetch then [.event (.icacheFill c)] else [])
      ++ (if x.stop.isSome then [.event (.frameCollection c)] else [])

/-- R111: classes 3 and 4 of the cells whose operations have accesses or may come to have some, and then class 5. -/
def State.bankTasks (s : State) : List Task :=
  (s.cells.filterMap fun (c, x) =>
    if x.bound.isSome ∧ ¬(x.puts.isEmpty ∧ x.linkq.isEmpty ∧ x.copyq.isEmpty) then some (.banks c) else none)
  ++ s.cells.filterMap fun (c, x) => if x.bound.isSome ∧ ¬x.scrub.isEmpty then some (.event (.secdedWriteback c)) else none

/-- R347: the limits of frozen LK.WAITs, looked at once everything that may write their words has. -/
def State.limitTasks (s : State) : List Task :=
  s.cells.filterMap fun (c, x) => if x.bound.isSome ∧ x.freeze = .wait then some (.event (.lkTimeout c)) else none

/-- R315, R347: the last looks of the waits whose cells begin to stop in this cycle. -/
def State.lookTasks (s : State) : List Task :=
  s.cells.filterMap fun (c, x) => if x.bound.isSome then some (.look c) else none

/-- R112, R156: the arrivals of signal-stores, pair by pair. -/
def State.arrivalTasks (s : State) : List Task :=
  ((s.mem.signals.map fun g => (g.src, g.dst)).eraseDups).filterMap fun (a, b) =>
    (s.headSignal a b).map fun g => .event (if g.sig then .sigArrival a b else .signalStoreArrival a b)

/-- A request at its slice, by its kind. -/
def sliceTask (id : Nat) (r : Req) : Task :=
  .event (match r.kind with
    | .write .. => .writeQueueAccept id
    | .mwc .. | .atomic .. => .sliceAtomic id
    | _ => .sliceRead id)

/-- R129, R150: what a request at its slice meets first. -/
def State.sliceGate (s : State) (r : Req) : Gate :=
  match r.kind with
  | .write mask .. => (s.gateFor r.place true r.trans.cbit (mask == BitVec.allOnes 128)).1
  | .mwc .. | .atomic .. => s.gate r.place true true
  | _ => s.gate r.place false r.trans.cbit

/-- The steps of a request: its translation; at its slice what stands before it, and then it. -/
def State.reqTasks (s : State) (id : Nat) (r : Req) : List Task :=
  match r.stage with
  | .walk => [.event (.pageWalk id)]
  | .slice =>
    if r.trans.host then [sliceTask id r]
    else match s.sliceGate r with
      | .fill => [.event (.llsFill r.place), sliceTask id r]
      | .evict => [.event (.llsEviction (s.victim r.place)), .event (.llsFill r.place), sliceTask id r]
      | .pull => [.event (.pullOnFirstTouch id), sliceTask id r]
      | _ => [sliceTask id r]
  | _ => []

/-- R131, R227: shootdowns and recalls. -/
def State.memTasks (s : State) : List Task :=
  s.mem.reqs.flatMap (fun (id, r) => s.reqTasks id r)
    ++ s.mem.shoots.map (fun (n, _) => .event (.shootdownComplete n))
    ++ s.mem.recalls.filterMap fun r => if r.deadline ≤ s.now then some (.event (.hostRecallTimeout r.line)) else none

/-- R202: near-bank commands at their controllers, the heads of the bank queues, and commands that are done. -/
def State.nbTasks (s : State) : List Task :=
  (s.mem.nb.filterMap fun k => if k.stage = .accepted ∨ k.stage = .recalling then some (.event (.nbDispatch k.id)) else none)
    ++ ((s.mem.bankQ.map fun b => (b.stack, b.chan, b.bank)).eraseDups.map fun (a, b, c) => .event (.perBankCommand a b c))
    ++ s.mem.nb.filterMap fun k => if k.stage = .accepted ∨ k.stage = .recalling then none else some (.event (.nbCompletion k.id))

/-- R181: the completions that a queue's records may come to. -/
def Queue.doneTasks (x : Queue) (key : Nat) : List Task :=
  x.recs.filterMap fun r =>
    if r.stage = .ended ∨ r.stage = .live then
      some (.event (.recordCompletion (Fin.ofNat 64 (key / 256)) (BitVec.ofNat 8 key) r.slot)) else none

/-- R196, R197: the resets that may end. -/
def State.drainTasks (s : State) : List Task :=
  (s.disp.queues.filterMap fun (key, x) =>
      if x.state = .resetting ∧ x.drain ≠ none then
        some (.event (.queueTagDrain (Fin.ofNat 64 (key / 256)) (some (BitVec.ofNat 8 key)))) else none)
    ++ s.fns.filterMap fun (n, f) =>
      if f.state = .resetting then some (.event (.queueTagDrain (Fin.ofNat 64 n) none)) else none

/-- The dispatcher's steps: completions, timers, a pass of the Anole, placement, resets and the journal. -/
def State.dispTasks (s : State) : List Task :=
  s.disp.queues.flatMap (fun (key, x) => x.doneTasks key)
    ++ s.disp.timers.map (fun t => .event (.timerRelease t.id))
    ++ (if s.disp.queues.isEmpty ∨ ¬s.sys.bootDone then [] else [.event .anolePass, .event .placement])
    ++ s.drainTasks
    ++ (if s.disp.journal.isEmpty then [] else [.event .journalServe])

/-- R239, R245: what the dies do. -/
def State.dieTasks (s : State) : List Task :=
  s.dies.flatMap fun (d, e) =>
    List.replicate (min e.trace.length s.sys.fbegun) (.event (.tracePacketWrite (Fin.ofNat 16 d)))
      ++ (if e.state = .fencing then [.event (.dieFenced (Fin.ofNat 16 d))] else [])

/-- R140: the Skink is due at its next granule. -/
def State.skinkTasks (s : State) : List Task :=
  let p := s.mem.skinkPeriod.toNat
  if p ≠ 0 ∧ s.mem.skinkPos < s.now * 2 ^ 35 / p then [.event .skinkScrub] else []

/-- A cycle begins: its steps are laid out. -/
def State.beginCycle (s : State) : State :=
  let (ins, rest) := dueInputs s.sys.cycle s.sched.inputs
  let s := (s.cells.foldl (fun s (c, _) => s.beginCell c) s.moduleOn).pruneWqs
  let ts := ins ++ s.cells.flatMap (fun (c, x) => s.cellTasks c x) ++ s.arrivalTasks ++ s.memTasks ++ s.nbTasks ++ s.bankTasks
    ++ s.dispTasks ++ s.dieTasks ++ s.skinkTasks ++ s.limitTasks
    ++ .hand :: s.lookTasks ++ [.endCycle]
  { s with sched := { s.sched with tasks := s.sched.tasks ++ ts, inputs := rest } }

/-! ### The end of a cycle (R240 to R243, R300) -/

/-- R243, R300: the events of a frozen cycle. -/
def freezeEvents : Freeze → List PmcEvent
  | .none => []
  | .ifetch => [⟨0x03, none, 1⟩]
  | .mem _ | .accept => [⟨0x03, none, 1⟩, ⟨0x04, none, 1⟩]
  | .bank => [⟨0x03, none, 1⟩, ⟨0x05, none, 1⟩]
  | .logFull => [⟨0x03, none, 1⟩, ⟨0x06, none, 1⟩]
  | .wait => [⟨0x03, none, 1⟩, ⟨0x07, none, 1⟩]

/-- R242, R243: whether a selection counts an event. -/
def PSel.counts (p : PSel) (e : PmcEvent) : Bool :=
  p.en && p.event.toNat == e.code && (!p.rsel || match e.slot with | some k => k.val == p.rslot.toNat | none => true)

/-- R241, R242: a counter after a cycle; one that TIME.SET writes takes its value and drops the cycle's events. -/
def CellSt.countCycle (x : CellSt) (es : List PmcEvent) : CellSt :=
  let set (k : Fin 8) : Option Nat := x.timeSet.bind fun (n, _) => if n.toNat % 8 = k.val then some n.toNat else none
  let v := (x.timeSet.map (·.2)).getD 0
  { x with
    pmc := Vector.ofFn fun k => match set k with
      | some n => if n < 0x18 then v else x.pmc[k.val]
      | none => x.pmc[k.val] + numWord (((es.filter (x.psel[k.val]).counts).map (·.n)).sum)
    psel := Vector.ofFn fun k => match set k with
      | some n => if n < 0x18 then x.psel[k.val] else pselOf v
      | none => x.psel[k.val]
    timeSet := none }

/-- R240 to R243: the end of a bound cell's cycle. -/
def CellSt.endCycle (x : CellSt) : CellSt :=
  if x.bound.isNone then { x with events := [], timeSet := none, banks := [], fired := false }
  else
    let es := ⟨0x01, none, 1⟩ :: freezeEvents (if x.halted then .none else x.freeze) ++ x.events
    { x.countCycle es with ccyc := x.ccyc + 1, events := [], banks := [], fired := false }

/-- R2, R191, R240, R255: device time, the timer wheel's ticks and the foundation clock of 2.2 GHz after a cycle of the arithmetic
clock. -/
def SysSt.tick (y : SysSt) : SysSt :=
  let t := y.frac + 1000
  let d := y.devtime + numWord (t / y.mhz)
  let f := y.ffrac + 2200
  { y with cycle := y.cycle + 1, devtime := d, frac := t % y.mhz, ticked := d.toNat / 1000 ≠ y.devtime.toNat / 1000,
           ffrac := f % y.mhz, fbegun := f / y.mhz }

/-- R193, R347: at the end of the cycle in which its stop begins a waiting cell leaves the lists it waits in. -/
def State.endStops (s : State) : State :=
  s.cells.foldl (fun s (c, x) =>
    if x.stop.any (·.fresh) then
      (if x.freeze = .wait then s.leaveLists c else s).modCell c fun y =>
        { y with stop := y.stop.map fun t => { t with fresh := false } }
    else s) s

/-- A cycle ends, and the records found in it enter their queues as foundation cycles do. -/
def State.endCycle (s : State) : State :=
  let s := s.endStops
  let s := { s with cells := s.cells.map fun (c, x) => (c, CellSt.endCycle x), sys := s.sys.tick }
  s.recordsEnter (s.sys.fbegun ≠ 0)

/-! ### Starts of records (R179, R181) -/

/-- R181: the first unstarted record of a queue starts, by its KIND and, for TIMER and PHASER, its OP. -/
def startRecord (vf : Fin 64) (q : BitVec 8) (s : State) : Out :=
  match (s.queue vf q).first with
  | none => .next s
  | some r =>
    match r.kind.toNat with
    | 0 => execPad vf q s
    | 1 => execKernel vf q s
    | 2 => execWork vf q s
    | 3 => if r.num 0x24 1 = 0 then execTimerArm vf q s else execTimerCancel vf q s
    | 4 => if r.num 0x12 1 = 0 then execPhaserArrive vf q s else execPhaserDrop vf q s
    | 5 => execWait vf q s
    | 6 => execFence vf q s
    | _ => .next s

end Sys2Proof.Machine
end

