-- ==== Sys2Proof/Machine/Dispatch.lean ====
section
/-! DEFINITION. One arm a constructor: what each step of the opcode table does. -/

namespace Sys2Proof.Machine

/-- The meaning of an instruction, row or event. -/
def exec (i : Instr) (s : State) : Host.Outcome State Fault Refusal :=
  match i with
  | .add x => Sys2Proof.Machine.execAdd x s
  | .sub x => Sys2Proof.Machine.execSub x s
  | .mul x => Sys2Proof.Machine.execMul x s
  | .mulh x => Sys2Proof.Machine.execMulh x s
  | .mulhn x => Sys2Proof.Machine.execMulhn x s
  | .div x => Sys2Proof.Machine.execDiv x s
  | .divn x => Sys2Proof.Machine.execDivn x s
  | .rem x => Sys2Proof.Machine.execRem x s
  | .remn x => Sys2Proof.Machine.execRemn x s
  | .min x => Sys2Proof.Machine.execMin x s
  | .max x => Sys2Proof.Machine.execMax x s
  | .minn x => Sys2Proof.Machine.execMinn x s
  | .maxn x => Sys2Proof.Machine.execMaxn x s
  | .and x => Sys2Proof.Machine.execAnd x s
  | .or x => Sys2Proof.Machine.execOr x s
  | .xor x => Sys2Proof.Machine.execXor x s
  | .andn x => Sys2Proof.Machine.execAndn x s
  | .shl x => Sys2Proof.Machine.execShl x s
  | .shr x => Sys2Proof.Machine.execShr x s
  | .sar x => Sys2Proof.Machine.execSar x s
  | .rot x => Sys2Proof.Machine.execRot x s
  | .clz x => Sys2Proof.Machine.execClz x s
  | .ctz x => Sys2Proof.Machine.execCtz x s
  | .popc x => Sys2Proof.Machine.execPopc x s
  | .bswap x => Sys2Proof.Machine.execBswap x s
  | .sext x => Sys2Proof.Machine.execSext x s
  | .zext x => Sys2Proof.Machine.execZext x s
  | .sel x => Sys2Proof.Machine.execSel x s
  | .cmp x => Sys2Proof.Machine.execCmp x s
  | .pand x => Sys2Proof.Machine.execPand x s
  | .por x => Sys2Proof.Machine.execPor x s
  | .pxor x => Sys2Proof.Machine.execPxor x s
  | .pnot x => Sys2Proof.Machine.execPnot x s
  | .fadd x => Sys2Proof.Machine.execFadd x s
  | .fsub x => Sys2Proof.Machine.execFsub x s
  | .fmul x => Sys2Proof.Machine.execFmul x s
  | .fma x => Sys2Proof.Machine.execFma x s
  | .fmin x => Sys2Proof.Machine.execFmin x s
  | .fmax x => Sys2Proof.Machine.execFmax x s
  | .fcmp x => Sys2Proof.Machine.execFcmp x s
  | .fcvt x => Sys2Proof.Machine.execFcvt x s
  | .nop g => Sys2Proof.Machine.execNop g s
  | .halt g => Sys2Proof.Machine.execHalt g s
  | .jmp x => Sys2Proof.Machine.execJmp x s
  | .ret g => Sys2Proof.Machine.execRet g s
  | .lbrk x => Sys2Proof.Machine.execLbrk x s
  | .yield g => Sys2Proof.Machine.execYield g s
  | .tret g => Sys2Proof.Machine.execTret g s
  | .trace x => Sys2Proof.Machine.execTrace x s
  | .invt x => Sys2Proof.Machine.execInvt x s
  | .addi x => Sys2Proof.Machine.execAddi x s
  | .andi x => Sys2Proof.Machine.execAndi x s
  | .ori x => Sys2Proof.Machine.execOri x s
  | .xori x => Sys2Proof.Machine.execXori x s
  | .shli x => Sys2Proof.Machine.execShli x s
  | .shri x => Sys2Proof.Machine.execShri x s
  | .sari x => Sys2Proof.Machine.execSari x s
  | .cmpi0 x => Sys2Proof.Machine.execCmpi0 x s
  | .cmpi1 x => Sys2Proof.Machine.execCmpi1 x s
  | .loop x => Sys2Proof.Machine.execLoop x s
  | .limm x => Sys2Proof.Machine.execLimm x s
  | .lhi x => Sys2Proof.Machine.execLhi x s
  | .trap x => Sys2Proof.Machine.execTrap x s
  | .bkpt x => Sys2Proof.Machine.execBkpt x s
  | .crd x => Sys2Proof.Machine.execCrd x s
  | .cwr x => Sys2Proof.Machine.execCwr x s
  | .time x => Sys2Proof.Machine.execTime x s
  | .timeSet x => Sys2Proof.Machine.execTimeSet x s
  | .br x => Sys2Proof.Machine.execBr x s
  | .call x => Sys2Proof.Machine.execCall x s
  | .lds x => Sys2Proof.Machine.execLds x s
  | .sts x => Sys2Proof.Machine.execSts x s
  | .sig x => Sys2Proof.Machine.execSig x s
  | .pref x => Sys2Proof.Machine.execPref x s
  | .cln x => Sys2Proof.Machine.execCln x s
  | .inv x => Sys2Proof.Machine.execInv x s
  | .str x => Sys2Proof.Machine.execStr x s
  | .waita x => Sys2Proof.Machine.execWaita x s
  | .mwc x => Sys2Proof.Machine.execMwc x s
  | .ldg8 x => Sys2Proof.Machine.execLdg8 x s
  | .ldg16 x => Sys2Proof.Machine.execLdg16 x s
  | .ldg32 x => Sys2Proof.Machine.execLdg32 x s
  | .ldg64 x => Sys2Proof.Machine.execLdg64 x s
  | .stg8 x => Sys2Proof.Machine.execStg8 x s
  | .stg16 x => Sys2Proof.Machine.execStg16 x s
  | .stg32 x => Sys2Proof.Machine.execStg32 x s
  | .stg64 x => Sys2Proof.Machine.execStg64 x s
  | .amoAdd x => Sys2Proof.Machine.execAmoAdd x s
  | .amoFadd x => Sys2Proof.Machine.execAmoFadd x s
  | .amoMin x => Sys2Proof.Machine.execAmoMin x s
  | .amoMax x => Sys2Proof.Machine.execAmoMax x s
  | .amoMinn x => Sys2Proof.Machine.execAmoMinn x s
  | .amoMaxn x => Sys2Proof.Machine.execAmoMaxn x s
  | .amoAnd x => Sys2Proof.Machine.execAmoAnd x s
  | .amoOr x => Sys2Proof.Machine.execAmoOr x s
  | .amoXor x => Sys2Proof.Machine.execAmoXor x s
  | .amoSwap x => Sys2Proof.Machine.execAmoSwap x s
  | .cas x => Sys2Proof.Machine.execCas x s
  | .fenceAcq x => Sys2Proof.Machine.execFenceAcq x s
  | .fenceRel x => Sys2Proof.Machine.execFenceRel x s
  | .fenceFull x => Sys2Proof.Machine.execFenceFull x s
  | .phReg x => Sys2Proof.Machine.execPhReg x s
  | .phDrop x => Sys2Proof.Machine.execPhDrop x s
  | .phArr x => Sys2Proof.Machine.execPhArr x s
  | .phWait x => Sys2Proof.Machine.execPhWait x s
  | .phAw x => Sys2Proof.Machine.execPhAw x s
  | .phQry x => Sys2Proof.Machine.execPhQry x s
  | .cfg x => Sys2Proof.Machine.execCfg x s
  | .launch x => Sys2Proof.Machine.execLaunch x s
  | .launchPh x => Sys2Proof.Machine.execLaunchPh x s
  | .lwait x => Sys2Proof.Machine.execLwait x s
  | .lstop x => Sys2Proof.Machine.execLstop x s
  | .acset x => Sys2Proof.Machine.execAcset x s
  | .csetSeed x => Sys2Proof.Machine.execCsetSeed x s
  | .csetTen x => Sys2Proof.Machine.execCsetTen x s
  | .csetClr x => Sys2Proof.Machine.execCsetClr x s
  | .vget x => Sys2Proof.Machine.execVget x s
  | .vset x => Sys2Proof.Machine.execVset x s
  | .cpIn x => Sys2Proof.Machine.execCpIn x s
  | .cpOut x => Sys2Proof.Machine.execCpOut x s
  | .cpXfr x => Sys2Proof.Machine.execCpXfr x s
  | .cpFill x => Sys2Proof.Machine.execCpFill x s
  | .cpGath x => Sys2Proof.Machine.execCpGath x s
  | .cpQry x => Sys2Proof.Machine.execCpQry x s
  | .nbZero x => Sys2Proof.Machine.execNbZero x s
  | .nbCopy x => Sys2Proof.Machine.execNbCopy x s
  | .nbRcopy x => Sys2Proof.Machine.execNbRcopy x s
  | .nbAxpy x => Sys2Proof.Machine.execNbAxpy x s
  | .nbAdd x => Sys2Proof.Machine.execNbAdd x s
  | .nbMul x => Sys2Proof.Machine.execNbMul x s
  | .nbScale x => Sys2Proof.Machine.execNbScale x s
  | .nbSum x => Sys2Proof.Machine.execNbSum x s
  | .nbDot x => Sys2Proof.Machine.execNbDot x s
  | .nbFence g => Sys2Proof.Machine.execNbFence g s
  | .qpush x => Sys2Proof.Machine.execQpush x s
  | .qpop x => Sys2Proof.Machine.execQpop x s
  | .qroom x => Sys2Proof.Machine.execQroom x s
  | .lkSend x => Sys2Proof.Machine.execLkSend x s
  | .lkRecv x => Sys2Proof.Machine.execLkRecv x s
  | .lkAred x => Sys2Proof.Machine.execLkAred x s
  | .lkWait x => Sys2Proof.Machine.execLkWait x s
  | .lkAbort x => Sys2Proof.Machine.execLkAbort x s
  | .rowAdd r => Sys2Proof.Machine.execRowAdd r s
  | .rowSub r => Sys2Proof.Machine.execRowSub r s
  | .rowMul r => Sys2Proof.Machine.execRowMul r s
  | .rowMulh r => Sys2Proof.Machine.execRowMulh r s
  | .rowAdds r => Sys2Proof.Machine.execRowAdds r s
  | .rowSubs r => Sys2Proof.Machine.execRowSubs r s
  | .rowAnd r => Sys2Proof.Machine.execRowAnd r s
  | .rowOr r => Sys2Proof.Machine.execRowOr r s
  | .rowXor r => Sys2Proof.Machine.execRowXor r s
  | .rowAndn r => Sys2Proof.Machine.execRowAndn r s
  | .rowShl r => Sys2Proof.Machine.execRowShl r s
  | .rowShr r => Sys2Proof.Machine.execRowShr r s
  | .rowSar r => Sys2Proof.Machine.execRowSar r s
  | .rowMin r => Sys2Proof.Machine.execRowMin r s
  | .rowMax r => Sys2Proof.Machine.execRowMax r s
  | .rowAbs r => Sys2Proof.Machine.execRowAbs r s
  | .rowCmp r => Sys2Proof.Machine.execRowCmp r s
  | .rowSel r => Sys2Proof.Machine.execRowSel r s
  | .rowMov r => Sys2Proof.Machine.execRowMov r s
  | .rowPerm r => Sys2Proof.Machine.execRowPerm r s
  | .rowPack r => Sys2Proof.Machine.execRowPack r s
  | .rowUnpk r => Sys2Proof.Machine.execRowUnpk r s
  | .rowPopc r => Sys2Proof.Machine.execRowPopc r s
  | .rowClz r => Sys2Proof.Machine.execRowClz r s
  | .rowPand r => Sys2Proof.Machine.execRowPand r s
  | .rowPor r => Sys2Proof.Machine.execRowPor r s
  | .rowPnot r => Sys2Proof.Machine.execRowPnot r s
  | .rowFadd r => Sys2Proof.Machine.execRowFadd r s
  | .rowFsub r => Sys2Proof.Machine.execRowFsub r s
  | .rowFmul r => Sys2Proof.Machine.execRowFmul r s
  | .rowFma r => Sys2Proof.Machine.execRowFma r s
  | .rowFms r => Sys2Proof.Machine.execRowFms r s
  | .rowFmin r => Sys2Proof.Machine.execRowFmin r s
  | .rowFmax r => Sys2Proof.Machine.execRowFmax r s
  | .rowFabs r => Sys2Proof.Machine.execRowFabs r s
  | .rowFcmp r => Sys2Proof.Machine.execRowFcmp r s
  | .rowFcvt r => Sys2Proof.Machine.execRowFcvt r s
  | .rowFsum r => Sys2Proof.Machine.execRowFsum r s
  | .rowFmaxh r => Sys2Proof.Machine.execRowFmaxh r s
  | .rowFrcp r => Sys2Proof.Machine.execRowFrcp r s
  | .rowFrsq r => Sys2Proof.Machine.execRowFrsq r s
  | .rowFexp2 r => Sys2Proof.Machine.execRowFexp2 r s
  | .rowFlog2 r => Sys2Proof.Machine.execRowFlog2 r s
  | .rowLut r => Sys2Proof.Machine.execRowLut r s
  | .rowLuts r => Sys2Proof.Machine.execRowLuts r s
  | .rowLutc r => Sys2Proof.Machine.execRowLutc r s
  | .rowConst r => Sys2Proof.Machine.execRowConst r s
  | .rowShfl r => Sys2Proof.Machine.execRowShfl r s
  | .rowIdx r => Sys2Proof.Machine.execRowIdx r s
  | .rowLd r => Sys2Proof.Machine.execRowLd r s
  | .rowSt r => Sys2Proof.Machine.execRowSt r s
  | .rowLdx r => Sys2Proof.Machine.execRowLdx r s
  | .rowStx r => Sys2Proof.Machine.execRowStx r s
  | .rowLdb r => Sys2Proof.Machine.execRowLdb r s
  | .rowWld r => Sys2Proof.Machine.execRowWld r s
  | .rowWsw r => Sys2Proof.Machine.execRowWsw r s
  | .rowDot r => Sys2Proof.Machine.execRowDot r s
  | .rowDots r => Sys2Proof.Machine.execRowDots r s
  | .rowAcrd r => Sys2Proof.Machine.execRowAcrd r s
  | .rowAcz r => Sys2Proof.Machine.execRowAcz r s
  | .rowAcadd r => Sys2Proof.Machine.execRowAcadd r s
  | .rowQnt r => Sys2Proof.Machine.execRowQnt r s
  | .regionCycle c => Sys2Proof.Machine.execRegionCycle c s
  | .rowResultLanding c => Sys2Proof.Machine.execRowResultLanding c s
  | .regionCompletion c k => Sys2Proof.Machine.execRegionCompletion c k s
  | .operandLogLanding c => Sys2Proof.Machine.execOperandLogLanding c s
  | .sequencerBankGrant c => Sys2Proof.Machine.execSequencerBankGrant c s
  | .memoryResponse c => Sys2Proof.Machine.execMemoryResponse c s
  | .waitWake c => Sys2Proof.Machine.execWaitWake c s
  | .icacheFill c => Sys2Proof.Machine.execIcacheFill c s
  | .secdedWriteback c => Sys2Proof.Machine.execSecdedWriteback c s
  | .signalStoreArrival src dst => Sys2Proof.Machine.execSignalStoreArrival src dst s
  | .sigArrival src dst => Sys2Proof.Machine.execSigArrival src dst s
  | .copyChunk c => Sys2Proof.Machine.execCopyChunk c s
  | .writeQueueAccept id => Sys2Proof.Machine.execWriteQueueAccept id s
  | .sliceAtomic id => Sys2Proof.Machine.execSliceAtomic id s
  | .sliceRead id => Sys2Proof.Machine.execSliceRead id s
  | .llsFill line => Sys2Proof.Machine.execLlsFill line s
  | .llsEviction line => Sys2Proof.Machine.execLlsEviction line s
  | .hostRecallTimeout line => Sys2Proof.Machine.execHostRecallTimeout line s
  | .pageWalk id => Sys2Proof.Machine.execPageWalk id s
  | .shootdownComplete n => Sys2Proof.Machine.execShootdownComplete n s
  | .pullOnFirstTouch id => Sys2Proof.Machine.execPullOnFirstTouch id s
  | .tqrespResume vf seq => Sys2Proof.Machine.execTqrespResume vf seq s
  | .nbDispatch id => Sys2Proof.Machine.execNbDispatch id s
  | .perBankCommand stack chan bank => Sys2Proof.Machine.execPerBankCommand stack chan bank s
  | .nbCompletion id => Sys2Proof.Machine.execNbCompletion id s
  | .lkTimeout c => Sys2Proof.Machine.execLkTimeout c s
  | .lineMonitorParse vf q => Sys2Proof.Machine.execLineMonitorParse vf q s
  | .recordReady vf q => Sys2Proof.Machine.execRecordReady vf q s
  | .recordCompletion vf q slot => Sys2Proof.Machine.execRecordCompletion vf q slot s
  | .forcedPreemption c => Sys2Proof.Machine.execForcedPreemption c s
  | .frameCollection c => Sys2Proof.Machine.execFrameCollection c s
  | .timerRelease n => Sys2Proof.Machine.execTimerRelease n s
  | .queueTagDrain vf q => Sys2Proof.Machine.execQueueTagDrain vf q s
  | .tracePacketWrite d => Sys2Proof.Machine.execTracePacketWrite d s
  | .powerOn r => Sys2Proof.Machine.execPowerOn r s
  | .hostCxlRead line own => Sys2Proof.Machine.execHostCxlRead line own s
  | .hostCxlWrite addr data => Sys2Proof.Machine.execHostCxlWrite addr data s
  | .hostRecallResponse line data => Sys2Proof.Machine.execHostRecallResponse line data s
  | .dieFenced d => Sys2Proof.Machine.execDieFenced d s
  | .skinkScrub => Sys2Proof.Machine.execSkinkScrub s
  | .anolePass => Sys2Proof.Machine.execAnolePass s
  | .placement => Sys2Proof.Machine.execPlacement s
  | .journalServe => Sys2Proof.Machine.execJournalServe s
  | .kernel vf q => Sys2Proof.Machine.execKernel vf q s
  | .work vf q => Sys2Proof.Machine.execWork vf q s
  | .timerArm vf q => Sys2Proof.Machine.execTimerArm vf q s
  | .timerCancel vf q => Sys2Proof.Machine.execTimerCancel vf q s
  | .phaserArrive vf q => Sys2Proof.Machine.execPhaserArrive vf q s
  | .phaserDrop vf q => Sys2Proof.Machine.execPhaserDrop vf q s
  | .wait vf q => Sys2Proof.Machine.execWait vf q s
  | .fence vf q => Sys2Proof.Machine.execFence vf q s
  | .pad vf q => Sys2Proof.Machine.execPad vf q s
  | .unassignedOpcode w => Sys2Proof.Machine.execUnassignedOpcode w s
  | .shootdown asid range => Sys2Proof.Machine.execShootdown asid range s
  | .linkMessageArrival port m => Sys2Proof.Machine.execLinkMessageArrival port m s
  | .linkRetry port lastGood => Sys2Proof.Machine.execLinkRetry port lastGood s
  | .abortFlitArrival port group round => Sys2Proof.Machine.execAbortFlitArrival port group round s
  | .portTrainingAttempt port r => Sys2Proof.Machine.execPortTrainingAttempt port r s
  | .cxlPortTraining k r => Sys2Proof.Machine.execCxlPortTraining k r s
  | .create vf => Sys2Proof.Machine.execCreate vf s
  | .destroy vf => Sys2Proof.Machine.execDestroy vf s
  | .reset vf => Sys2Proof.Machine.execReset vf s
  | .flr vf => Sys2Proof.Machine.execFlr vf s
  | .cxlIoFlr vf => Sys2Proof.Machine.execCxlIoFlr vf s
  | .mbstatWrite vf => Sys2Proof.Machine.execMbstatWrite vf s
  | .tqheadWrite vf v => Sys2Proof.Machine.execTqheadWrite vf v s
  | .backgroundFill n => Sys2Proof.Machine.execBackgroundFill n s
  | .tqrespFail vf seq => Sys2Proof.Machine.execTqrespFail vf seq s
  | .functionDisable vf => Sys2Proof.Machine.execFunctionDisable vf s
  | .dieFence d => Sys2Proof.Machine.execDieFence d s
  | .dieReset d usable => Sys2Proof.Machine.execDieReset d usable s
  | .attgoWrite => Sys2Proof.Machine.execAttgoWrite s
  | .govstatRead => Sys2Proof.Machine.execGovstatRead s
  | .clockChange mhz => Sys2Proof.Machine.execClockChange mhz s
  | .registerWrite t v => Sys2Proof.Machine.execRegisterWrite t v s
  | .badFlit port => Sys2Proof.Machine.execBadFlit port s
  | .failedReplay port => Sys2Proof.Machine.execFailedReplay port s
  | .creditAndAcknowledgement port ackseq credits => Sys2Proof.Machine.execCreditAndAcknowledgement port ackseq credits s
  | .unknownCodeRequest vf => Sys2Proof.Machine.execUnknownCodeRequest vf s
  | .firmwareRestart => Sys2Proof.Machine.execFirmwareRestart s

end Sys2Proof.Machine
end

