-- ==== Sys2Proof/Machine/Step.lean ====
section
/-! DEFINITION. One step of the module: the next step of the current cycle, or the layout of the next cycle. -/

namespace Sys2Proof.Machine

/-- R39, R258: a cell's sequencer issues the word it has prepared, if it issues one. -/
def issue (c : Nat) (s : State) : Out :=
  match ({ s with sched := { s.sched with cur := c } }).prepare c with
  | (none, s) => .next s
  | (some w, s) =>
    match decode w with
    | .ok i => exec i s
    | .illOp => execUnassignedOpcode w s
    | .illOperand t => .next (s.badWord c w t)

/-- R315 to R317: the last look of a wait whose cell has begun to stop in this cycle. -/
def look (c : Nat) (s : State) : Out :=
  let x := s.cell c
  if x.freeze = .wait && x.stop.any (·.fresh) && x.mayEnd && !x.ended && !x.causeDue then issue c s else .next s

/-- One step still to make in the current cycle. -/
def runTask (t : Task) (s : State) : Out :=
  match t with
  | .event i => exec i s
  | .issue c => issue c s
  | .start vf q => startRecord vf q s
  | .banks c => .next (s.serveBanks c)
  | .fire f row => exec row { s with sched := { s.sched with firing := f } }
  | .hand => .next s.handAll
  | .look c => look c s
  | .endCycle => .next s.endCycle

/-- One step of the module. -/
def step (s : State) : Host.Outcome State Fault Refusal :=
  match s.sched.tasks with
  | [] => .next s.beginCycle
  | t :: ts => runTask t { s with sched := { s.sched with tasks := ts } }

/-! ### A word where the next step fetches (log 6) -/

/-- The line that holds a word at its start. -/
def wordLine (w : Nat) : Line := BitVec.ofNat 1024 w

/-- Cell 0 bound to a kernel of the physical function whose code image is the one word at VA 0x1000, cached. -/
def CellSt.withWord (x : CellSt) (w : Nat) : CellSt :=
  { x with
    bound := some { vf := 0, q := 0, slot := 0, gang := 0 }
    icache := [{ tag := 0x20, asid := x.seq.id.asid, data := wordLine w }]
    seq := { x.seq with pc := 0x1000, npc := 0x1004, id := { x.seq.id with codebase := 0x1000, codelen := 4 } } }

/-- Region slot 0 of a cell running a one-row image on PE 0. -/
def CellSt.withRow (x : CellSt) (w : Nat) : CellSt :=
  let r := x.region[0]
  let e := x.pe[0]
  { x with
    bound := some { vf := 0, q := 0, slot := 0, gang := 0 }
    region := x.region.set 0 { r with conf := true, peset := 1, s := 127, ii := 32, rn := 128, state := .running }
    pe := x.pe.set 0 { e with rows := [BitVec.ofNat 64 w] } }

/-- The machine with an instruction placed where the very next step takes it up: a sequencer word as the next that cell 0
issues, a fabric row as the firing that PE 0 of its region slot 0 makes next. -/
def State.withFetchWord (s : State) (nbits w : Nat) : State :=
  if nbits == 64 then
    match decodeRow (BitVec.ofNat 64 w) with
    | some i => { (s.modCell 0 fun x => x.withRow w) with
                  sched := { s.sched with tasks := [.fire { cell := 0, k := 0, pe := 0, inst := 0, rb := 0, rcyc := 0 } i] } }
    | none => { (s.modCell 0 fun x => x.withRow w) with sched := { s.sched with tasks := [] } }
  else { (s.modCell 0 fun x => x.withWord w) with sched := { s.sched with tasks := [.issue 0] } }

end Sys2Proof.Machine
end

