-- ==== Sys2Proof/Safety.lean ====
section
/-! DEFINITION. The terms of the statements: a step that answers a next state, memories in canonical form, what an
instruction needs before its effect, and what it leaves unchanged. -/

namespace Sys2Proof.Safety

open Sys2Proof.Machine

/-- The step was neither stopped by a fault nor refused. -/
def Completes (o : Out) : Prop := ∃ t : State, o = .next t

/-- DRAM, host memory and every scratchpad in canonical form. -/
def MemWf (s : State) : Prop :=
  s.mem.dram.wf = true ∧ s.mem.host.wf = true ∧ ∀ c x, (c, x) ∈ s.cells → x.spad.wf = true

/-- A run of any length from `s` that ends in `t`. -/
inductive Reaches : State → State → Prop
  | refl (s : State) : Reaches s s
  | tail {s t u : State} : Reaches s t → step t = .next u → Reaches s u

/-- The cell whose sequencer issues (R39). -/
def me (s : State) : CellSt := s.cell s.sched.cur

/-- R258, R257, R72: every check before an instruction's effect passes: no transfer in a delay slot, the fields within
their limits, the guard true, the sources with the residues of their data. -/
structure Ready (s : State) (i : Instr) (g : Guard) (srcs : List Reg) : Prop where
  slot : i.isTransfer = true → (me s).seq.slot = .none
  limits : i.wf = true
  guard : (me s).guardTrue g = true
  sources : (me s).badSrc srcs = none

/-- R131, R136: nothing stands before the module's own access to the lines of a list, and a read of them finds nothing to
correct. -/
def Opens (s : State) (write : Bool) (ls : List Nat) : Prop := s.openFor write ls = (true, s)

/-- R129, R131: the line is in no migrating page, an entry of its slice's queue is free for a write, and nothing stands before the
access. -/
def Clear (s : State) (write : Bool) (n : Nat) : Prop :=
  (write = true → s.queueRoom n = true) ∧ migOf s n = none ∧ s.gate n write false = .ok

/-- R85: no error injection is armed in the issuing cell. -/
def NoInjection (s : State) : Prop := (me s).seq.errinj.arm = false

/-- Every byte of DRAM, of host memory and of every scratchpad reads as before. -/
def SameBytes (s t : State) : Prop :=
  (∀ a, mget t.mem.dram a = mget s.mem.dram a) ∧ (∀ a, mget t.mem.host a = mget s.mem.host a) ∧
  ∀ c a, mget (t.cell c).spad a = mget (s.cell c).spad a

/-- Two states of a cell that differ in nothing but the sequencer's registers and what issue itself marks: the freeze, what
a frozen instruction keeps, the events and the trace bits of the cycle. -/
def SameUnits (x y : CellSt) : Prop :=
  y = { x with seq := y.seq, freeze := y.freeze, hold := y.hold, issued := y.issued, wrote := y.wrote, events := y.events,
               trace := y.trace }

/-- Outside cell `c` nothing changes but the packets that a die's trace collector holds; memory and the dispatcher are not
spoken of. -/
structure Elsewhere (c : Nat) (s t : State) : Prop where
  cells : ∀ n, n ≠ c → t.cell n = s.cell n
  dies : ∀ d, ∃ p l, t.die d = { s.die d with trace := p, lost := l }
  fns : t.fns = s.fns
  sys : t.sys = s.sys
  sched : t.sched = s.sched

/-- Only the trace and the event counts of cell `c` and the collectors of the dies differ. -/
structure TraceOnly (c : Nat) (s t : State) : Prop where
  elsewhere : Elsewhere c s t
  cell : t.cell c = { s.cell c with trace := (t.cell c).trace, events := (t.cell c).events }
  mem : t.mem = s.mem
  disp : t.disp = s.disp

/-- R296: a word that is no transfer has issued: the program counter, its successor and the loops are those that the word
at its address leaves, every other register but the general ones, the predicates and the operand log is unchanged, and the
sequencer is not frozen. -/
structure Issued (s t : State) : Prop where
  elsewhere : Elsewhere s.sched.cur s t
  seq : (me t).seq = { (me s).seq.next.1 with g := (me t).seq.g, p := (me t).seq.p, log := (me t).seq.log }
  thawed : (me t).freeze = .none

/-- Such a word that changes no memory, no unit of the cell and nothing of the dispatcher. -/
structure Advanced (s t : State) : Prop extends Issued s t where
  mem : t.mem = s.mem
  disp : t.disp = s.disp
  bytes : SameBytes s t
  units : SameUnits (me s) (me t)

/-- The general register `d` takes `v`, every other one, the predicates and the operand log stay; g0 stays 0 (R71). -/
structure TookG (s t : State) (d : Reg) (v : Word) : Prop where
  value : (me t).gval d = if d.val = 0 then 0 else v
  others : ∀ r, r ≠ d → (me t).greg r = (me s).greg r
  preds : (me t).seq.p = (me s).seq.p
  log : (me t).seq.log = (me s).seq.log

/-- No general register, predicate or log entry changes. -/
structure KeptRegs (s t : State) : Prop where
  regs : (me t).seq.g = (me s).seq.g
  preds : (me t).seq.p = (me s).seq.p
  log : (me t).seq.log = (me s).seq.log

/-- An instruction of latency 1 has written `d`, and nothing else. -/
def Wrote (s t : State) (d : Reg) (v : Word) : Prop := TookG s t d v ∧ Advanced s t

/-- An instruction of latency 1 has written predicate `k`, and nothing else; p0 stays 1 (R71). -/
structure WroteP (s t : State) (k : Pred) (b : Bool) : Prop where
  value : (me t).pval k = (decide (k.val = 0) || b)
  others : ∀ j, j ≠ k → (me t).pval j = (me s).pval j
  regs : (me t).seq.g = (me s).seq.g
  log : (me t).seq.log = (me s).seq.log
  rest : Advanced s t

/-- A new newest entry of the operand log names a destination, a latency, a result and its flags; no register changes. -/
structure Entered (s t : State) (dest : BitVec 6) (lat : Nat) (v : Word) (fl : Flags) : Prop where
  entry : ∃ e, (me t).seq.log = (me s).seq.log ++ [e] ∧ e.dest = dest ∧ e.remain = lat ∧ e.val = v ∧ e.flags = fl ∧
    e.fault = 0 ∧ e.phase = none ∧ e.pcw = (me s).seq.pc
  regs : (me t).seq.g = (me s).seq.g
  preds : (me t).seq.p = (me s).seq.p

/-- An instruction of latency above 1 has recorded itself, and done nothing else (R42). -/
def Logged (s t : State) (dest : BitVec 6) (lat : Nat) (v : Word) (fl : Flags) : Prop :=
  Entered s t dest lat v fl ∧ Advanced s t

/-- A word that is no transfer has issued, its cell left as `x` but for what issue itself marks; no register is written. -/
structure Left (s t : State) (x : CellSt) : Prop extends Issued s t where
  kept : KeptRegs s t
  units : SameUnits x (me t)

/-- R291: a transfer to `a` has been taken: the delay slot issues next and then `a`; general registers are not spoken of. -/
structure Taken (s t : State) (a : VAddr) : Prop where
  elsewhere : Elsewhere s.sched.cur s t
  mem : t.mem = s.mem
  disp : t.disp = s.disp
  bytes : SameBytes s t
  units : SameUnits (me s) (me t)
  seq : (me t).seq = { (me s).seq with g := (me t).seq.g, pc := (me s).seq.npc, npc := a, slot := .taken }
  thawed : (me t).freeze = .none

/-- R296: a word that is no transfer has issued and moved the program counter on. -/
structure MovedOn (s t : State) : Prop where
  cells : ∀ n, n ≠ s.sched.cur → t.cell n = s.cell n
  pc : (me t).seq.pc = (me s).seq.next.1.pc
  npc : (me t).seq.npc = (me s).seq.next.1.npc
  thawed : (me t).freeze = .none

/-- R108, R111, R113: `n` words from an offset that the sequencer can read in this cycle, each bank free to it and no word
uncorrectable. -/
def Readable (x : CellSt) (off n : Nat) : Prop :=
  ∀ j < n, x.bankFree 2 (bankOf (off + 8 * j)) = true ∧ x.spBad (off + 8 * j) = false

/-- R257: the guard of a sequencer instruction; rows and events have none. -/
def guard? : Instr → Option Guard
  | .add x | .sub x | .mul x | .mulh x | .mulhn x | .div x | .divn x | .rem x | .remn x
  | .min x | .max x | .minn x | .maxn x | .shl x | .shr x | .sar x | .rot x => some x.g
  | .and x | .or x | .xor x | .andn x => some x.g
  | .clz x | .ctz x | .popc x | .bswap x => some x.g
  | .sext x | .zext x => some x.g
  | .sel x => some x.g
  | .cmp x => some x.g
  | .pand x | .por x | .pxor x => some x.g
  | .pnot x => some x.g
  | .fadd x | .fsub x | .fmul x | .fma x | .fmin x | .fmax x => some x.g
  | .fcmp x => some x.g
  | .fcvt x => some x.g
  | .nop g | .halt g | .ret g | .yield g | .tret g | .nbFence g => some g
  | .jmp x | .trace x | .phArr x | .cpIn x | .cpOut x | .cpXfr x | .cpFill x | .cpGath x | .cpQry x
  | .nbZero x | .nbCopy x | .nbRcopy x | .lkSend x | .lkRecv x | .lkAbort x => some x.g
  | .lbrk x | .lstop x | .csetClr x => some x.g
  | .invt x | .phWait x | .qpush x => some x.g
  | .addi x | .andi x | .ori x | .xori x => some x.g
  | .shli x | .shri x | .sari x => some x.g
  | .cmpi0 x | .cmpi1 x => some x.g
  | .loop x => some x.g
  | .limm x | .lhi x => some x.g
  | .trap x | .bkpt x => some x.g
  | .crd x | .cwr x => some x.g
  | .time x | .timeSet x => some x.g
  | .br x | .call x => some x.g
  | .lds x | .sts x => some x.g
  | .sig x => some x.g
  | .pref x | .cln x | .inv x => some x.g
  | .str x => some x.g
  | .waita x => some x.g
  | .mwc x => some x.g
  | .ldg8 x | .ldg16 x | .ldg32 x | .ldg64 x | .stg8 x | .stg16 x | .stg32 x | .stg64 x => some x.g
  | .amoAdd x | .amoFadd x | .amoMin x | .amoMax x | .amoMinn x | .amoMaxn x | .amoAnd x | .amoOr x
  | .amoXor x | .amoSwap x | .cas x => some x.g
  | .fenceAcq x | .fenceRel x | .fenceFull x => some x.g
  | .phReg x | .phDrop x => some x.g
  | .phAw x | .phQry x | .qroom x => some x.g
  | .cfg x => some x.g
  | .launch x | .lwait x | .csetTen x => some x.g
  | .launchPh x | .vget x | .vset x => some x.g
  | .acset x => some x.g
  | .csetSeed x => some x.g
  | .nbAxpy x | .nbAdd x | .nbMul x | .nbScale x | .nbSum x | .nbDot x => some x.g
  | .qpop x | .lkWait x => some x.g
  | .lkAred x => some x.g
  | _ => none

/-- R41, R291, R295: the instructions that have a delay slot. -/
def hasSlot : Instr → Bool
  | .br _ | .call _ | .jmp _ | .ret _ | .loop _ => true
  | _ => false

/-! ### The operations of the spec's tables -/

/-- R296: an open level ends at the word at PC. -/
def endsHere (q : Seq) (k : Fin 4) : Prop := q.lact.getLsbD k.val = true ∧ (q.loops[k.val]).le = q.pc

/-- R296: the loop-end step reaches a level that ends here: every open level above it that ends here has its last turn. -/
def reached (q : Seq) (k : Fin 4) : Prop := endsHere q k ∧ ∀ j : Fin 4, k < j → endsHere q j → (q.loops[j.val]).lc = 1

/-- R278: a 64-bit operation, or with W its 32-bit form, sign-extended. -/
def byWidth (w : Bool) (f : ∀ n, BitVec n → BitVec n → BitVec n) (a b : Word) : Word :=
  if w then (f 32 (a.setWidth 32) (b.setWidth 32)).signExtend 64 else f 64 a b

/-- R279: the operations of latency 1 on two sources with a `.W` form. -/
def intOps : List ((IntArgs → Instr) × (∀ n, BitVec n → BitVec n → BitVec n)) :=
  [(.add, fun _ a b => a + b), (.sub, fun _ a b => a - b),
   (.min, fun _ a b => if a.slt b then a else b), (.max, fun _ a b => if a.slt b then b else a),
   (.minn, fun _ a b => if a.ult b then a else b), (.maxn, fun _ a b => if a.ult b then b else a),
   (.shl, fun n a b => a <<< (b.toNat % n)), (.shr, fun n a b => a >>> (b.toNat % n)),
   (.sar, fun n a b => a.sshiftRight (b.toNat % n)), (.rot, fun n a b => a.rotateLeft (b.toNat % n))]

/-- R279: the operations of latency 1 on two sources without a `.W` form. -/
def logicOps : List ((RegArgs → Instr) × (Word → Word → Word)) :=
  [(.and, fun a b => a &&& b), (.or, fun a b => a ||| b), (.xor, fun a b => a ^^^ b), (.andn, fun a b => a &&& ~~~b)]

/-- R279, R280: multiplies and divides, with their latencies. -/
def longOps : List ((IntArgs → Instr) × Nat × (∀ n, BitVec n → BitVec n → BitVec n)) :=
  [(.mul, 3, fun _ a b => a * b),
   (.mulh, 3, fun n a b => ((a.signExtend (2 * n) * b.signExtend (2 * n)) >>> n).setWidth n),
   (.mulhn, 3, fun n a b => ((a.setWidth (2 * n) * b.setWidth (2 * n)) >>> n).setWidth n),
   (.div, 24, fun n a b => if b = 0 then BitVec.allOnes n else a.sdiv b),
   (.divn, 24, fun n a b => if b = 0 then BitVec.allOnes n else a / b),
   (.rem, 24, fun _ a b => if b = 0 then a else a.srem b),
   (.remn, 24, fun _ a b => if b = 0 then a else a % b)]

/-- R281: the operations on a register and a sign-extended immediate. -/
def immOps : List ((ImmArgs → Instr) × (Word → Word → Word)) :=
  [(.addi, fun a b => a + b), (.andi, fun a b => a &&& b), (.ori, fun a b => a ||| b), (.xori, fun a b => a ^^^ b)]

/-- R282: the shifts by an immediate count. -/
def shiftOps : List ((ShiArgs → Instr) × (∀ n, BitVec n → Nat → BitVec n)) :=
  [(.shli, fun _ a k => a <<< k), (.shri, fun _ a k => a >>> k), (.sari, fun _ a k => a.sshiftRight k)]

/-- R284: what each condition compares. -/
def condHolds {n : Nat} (a b : BitVec n) : CmpCond → Bool
  | .eq => a == b | .ne => a != b | .lt => a.slt b | .ge => !a.slt b | .le => !b.slt a | .gt => b.slt a
  | .ltn => a.ult b | .gen => !a.ult b | .len => !b.ult a | .gtn => b.ult a

/-- R284, R278: a comparison of 64-bit sources or of their 32-bit views. -/
def condByWidth (w : Bool) (cc : CmpCond) (a b : Word) : Bool :=
  if w then condHolds (a.setWidth 32) (b.setWidth 32) cc else condHolds a b cc

/-- R285: the conditions of CMPI, by major and d[4:3]. -/
def cmpiConds : List ((CmpiArgs → Instr) × Fin 4 × CmpCond) :=
  [(.cmpi0, 0, .eq), (.cmpi0, 1, .ne), (.cmpi0, 2, .lt), (.cmpi0, 3, .ge),
   (.cmpi1, 0, .ltn), (.cmpi1, 1, .gen), (.cmpi1, 2, .le), (.cmpi1, 3, .gt)]

/-- R286: fn and the operation of the two-source predicate instructions. -/
def predOps : List (Nat × (PredArgs → Instr) × (Bool → Bool → Bool)) :=
  [(0, .pand, fun a b => a && b), (1, .por, fun a b => a || b), (2, .pxor, fun a b => a ^^ b)]

/-- R287: the arithmetic operations, each the exact result of its sources, not rounded. -/
def fpOps : List ((FpArgs → Instr) × Bool × (Nat → Fp → Fp → Fp → Fp × Flags)) :=
  [(.fadd, false, fun m a b _ => sumFp m [a, b]), (.fsub, false, fun m a b _ => sumFp m [a, b.negate]),
   (.fmul, false, fun _ a b _ => mulFp a b), (.fma, true, fmaFp)]

/-- A value that is neither NaN nor infinite. -/
def finite (x : Fp) : Bool := !x.isNan && !x.isInf

/-- The rational number that a finite value is. -/
def ratOf : Fp → ℚ
  | .fin n m e => (if n then -1 else 1) * (m : ℚ) * (2 : ℚ) ^ e
  | _ => 0

/-- An exact magnitude, by the rational numbers that do not exceed it and the one that it is, if it is one. -/
structure Exact where
  le : ℚ → Bool
  eq : ℚ → Bool

/-- A rational magnitude. -/
def Exact.of (v : ℚ) : Exact := ⟨fun a => decide (a ≤ v), fun a => decide (a = v)⟩

/-- R362: the magnitudes 1/v and 1/√v, and one that lies from m·2^e to the next such step, above m·2^e if there is a rest. -/
def Exact.rcp (v : ℚ) : Exact := ⟨fun a => decide (a * v ≤ 1), fun a => decide (a * v = 1)⟩
def Exact.rsq (v : ℚ) : Exact := ⟨fun a => decide (a < 0 ∨ a * a * v ≤ 1), fun a => decide (0 ≤ a ∧ a * a * v = 1)⟩
def Exact.near (m : Nat) (e : Int) (rest : Bool) : Exact :=
  ⟨fun a => decide (a ≤ (m : ℚ) * (2 : ℚ) ^ e), fun a => !rest && decide (a = (m : ℚ) * (2 : ℚ) ^ e)⟩

/-- R47: the magnitude of a code without its sign; codes go on beyond the largest finite one as if exponents had no end. -/
def magOf (f : Fmt) (k : Nat) : ℚ :=
  if k < 2 ^ f.man then k * (2 : ℚ) ^ f.qmin
  else ((k % 2 ^ f.man + 2 ^ f.man : Nat) : ℚ) * (2 : ℚ) ^ (f.qmin + (k / 2 ^ f.man - 1 : Nat))

/-- R55, R57: an exact magnitude that is at least `lo` and below `hi` is rounded to `hi`; `odd` is the last bit of `lo`. -/
def roundsAway (q : Rounding) (neg : Bool) (lo hi : ℚ) (y : Exact) (odd : Bool) : Bool :=
  let mid := (lo + hi) / 2
  match q.mode with
  | 0 => y.le mid && (!y.eq mid || odd)
  | 1 => false
  | 2 => !neg && !y.eq lo
  | 3 => neg && !y.eq lo
  | _ => y.le (lo + (hi - lo) * ((2 ^ 32 - (q.draw : ℚ)) / 2 ^ 32))

/-- R54: rounded with an unbounded exponent, and under RSR to the nearest, a magnitude lies below the smallest normal one. -/
def tinyIn (f : Fmt) (mode : Nat) (neg : Bool) (y : Exact) : Bool :=
  let least : ℚ := (2 : ℚ) ^ (1 - f.bias)
  let last := least - (2 : ℚ) ^ (f.qmin - 1)
  if mode = 0 ∨ mode = 4 then !y.le (least - (2 : ℚ) ^ (f.qmin - 2))
  else if mode = 2 ∧ neg = false ∨ mode = 3 ∧ neg = true then !y.le last || y.eq last
  else !y.le least

/-- R56, R59: what stands for a magnitude beyond the largest finite one. -/
def beyond (f : Fmt) (q : Rounding) (neg : Bool) : Nat × Flags :=
  let inf := f.signed neg (f.inf.getD f.maxCode)
  let most := f.signed neg f.maxCode
  match q.ovf with
  | .clamp => (most, 0)
  | .saturate => (most, flOF)
  | .infinite => (inf, flOF)
  | .ieee => (if q.mode = 0 ∨ q.mode = 4 ∨ q.mode = 2 ∧ neg = false ∨ q.mode = 3 ∧ neg = true then inf else most, flOF)

/-- R54 to R58: `r` is the exact magnitude `y` with its sign, rounded once to the format, and the flags of that. -/
def RoundsTo (f : Fmt) (q : Rounding) (neg : Bool) (y : Exact) (r : Nat × Flags) : Prop :=
  (y.le (magOf f (f.maxCode + 1)) = true → r = beyond f q neg) ∧
  ∀ k ≤ f.maxCode, y.le (magOf f k) = true → y.le (magOf f (k + 1)) = false →
    let j := if roundsAway q neg (magOf f k) (magOf f (k + 1)) y (k % 2 == 1) then k + 1 else k
    r = if f.maxCode < j then beyond f q neg
        else if q.ftz = true ∧ (f.width = 32 ∨ f.width = 16) ∧ 0 < j ∧ j < 2 ^ f.man then (f.signed neg 0, flUF)
        else (f.signed neg j, if y.eq (magOf f k) = false ∧ tinyIn f q.mode neg y = true then flUF else 0)

/-- R362: `r` is one of the two FP32 values that bracket the exact magnitude `y` with its sign, and that value itself when
it is one; beyond the largest finite value it is infinity (log 10). -/
def Brackets (ftz neg : Bool) (y : Exact) (r : Nat × Flags) : Prop :=
  let f := fmtF32
  let inf : Nat × Flags := (f.signed neg 0x7f800000, flOF)
  (y.le (magOf f (f.maxCode + 1)) = true → r = inf) ∧
  ∀ k ≤ f.maxCode, y.le (magOf f k) = true → y.le (magOf f (k + 1)) = false →
    (k = f.maxCode → y.eq (magOf f k) = false → r = inf) ∧
    (k < f.maxCode ∨ y.eq (magOf f k) = true →
      (r.1 = f.signed neg k ∨ y.eq (magOf f k) = false ∧ r.1 = f.signed neg (k + 1) ∨
        ftz = true ∧ k < 2 ^ 23 ∧ r = (f.signed neg 0, flUF)) ∧
      (ftz = true → r.1 % 2 ^ 31 = 0 ∨ 2 ^ 23 ≤ r.1 % 2 ^ 31) ∧
      (ftz = false → y.eq (magOf f k) = true → r.2 = 0) ∧
      (y.eq (magOf f k) = false → k + 1 < 2 ^ 23 → r.2 = flUF) ∧ (2 ^ 23 ≤ k → r.2 = 0))

/-- R59, R289, R360: `r` is the code `a` of one floating format in another. -/
def Converts (f g : Fmt) (ns : Bool) (q : Rounding) (a : Nat) (r : Nat × Flags) : Prop :=
  let x := f.read q.ftz a
  let wider := f.width < g.width
  (f = g → r = if x.isNan then (g.canon.1, 0) else (g.flush q.ftz a, 0)) ∧
  (f ≠ g → x.isNan = true → r = (g.canon.1, 0)) ∧
  (∀ n, f ≠ g → x = .inf n → (wider ∨ ns = true → r = (g.signed n (g.inf.getD g.maxCode), 0)) ∧
    (¬wider → ns = false → r = (g.signed n g.maxCode, if g.inf.isSome then flOF else flNV))) ∧
  ∀ n m e, f ≠ g → x = .fin n m e →
    RoundsTo g { q with ovf := if wider then .ieee else if ns then .infinite else .saturate } n
      (Exact.of ((m : ℚ) * (2 : ℚ) ^ e)) r

/-- R60: `r` is an integer in a floating format. -/
def ConvertsInt (g : Fmt) (ns : Bool) (q : Rounding) (v : Int) (r : Nat × Flags) : Prop :=
  RoundsTo g { q with ovf := if ns then .infinite else .saturate } (decide (v < 0)) (Exact.of |(v : ℚ)|) r

/-- R352: a number clamped to the range of a lane. -/
def clampTo (u : Bool) (n : Nat) (v : Int) : BitVec n :=
  let lo : Int := if u then 0 else -2 ^ (n - 1)
  let hi : Int := if u then 2 ^ n - 1 else 2 ^ (n - 1) - 1
  BitVec.ofInt n (max lo (min hi v))

/-- R60: `r` is a value rounded to an integer of `n` bits, unsigned with `u`, at the nearest limit with NV when it lies
outside; a NaN is 0 with NV. -/
def RoundsToInt (u : Bool) (n : Nat) (q : Rounding) (x : Fp) (r : BitVec n × Flags) : Prop :=
  (x.isNan = true → r = (0, flNV)) ∧
  (∀ s, x = .inf s → r = (clampTo u n (if s then -2 ^ n else 2 ^ n), flNV)) ∧
  ∀ s m e, x = .fin s m e →
    let v : ℚ := (m : ℚ) * (2 : ℚ) ^ e
    let k := ⌊v⌋
    let j := if roundsAway q s k (k + 1) (Exact.of v) (k % 2 == 1) then k + 1 else k
    let i := if s then -j else j
    r = (clampTo u n i, if (if u then 0 else -2 ^ (n - 1)) ≤ i ∧ i < (if u then 2 ^ n else 2 ^ (n - 1)) then 0 else flNV)

/-- R289: the floating scalar types with their formats, and the integer ones with their width and whether they are unsigned. -/
def floatTypes : List (ScalarType × Fmt) :=
  [(.bf16, fmtBf16), (.fp16, fmtF16), (.e4m3, fmtE4M3), (.e5m2, fmtE5M2), (.fp32, fmtF32)]
def intTypes : List (ScalarType × Nat × Bool) := [(.i32, 32, false), (.i64, 64, false), (.n32, 32, true), (.n64, 64, true)]

/-- R288: one number is less than another, −0 being equal to +0; a NaN is no number. -/
def fpLess (a b : Fp) : Prop :=
  match a, b with
  | .nan, _ => False
  | _, .nan => False
  | .inf x, .inf y => x = true ∧ y = false
  | .inf x, _ => x = true
  | _, .inf y => y = false
  | x, y => ratOf x < ratOf y

/-- R53: less, or −0 against +0. -/
def fpBelow (a b : Fp) : Prop := fpLess a b ∨ ¬fpLess b a ∧ a.neg = true ∧ b.neg = false

/-- R288: the conditions of FCMP. -/
def fcmpHolds (cc : FcmpCond) (a b : Fp) : Prop :=
  let num := a.isNan = false ∧ b.isNan = false
  match cc with
  | .eq => num ∧ ¬fpLess a b ∧ ¬fpLess b a
  | .ne => ¬(num ∧ ¬fpLess a b ∧ ¬fpLess b a)
  | .lt => fpLess a b
  | .le => num ∧ ¬fpLess b a
  | .gt => fpLess b a
  | .ge => num ∧ ¬fpLess a b
  | .un => ¬num

/-- R304: the global loads and stores with their bytes. -/
def loadOps : List ((GlobArgs → Instr) × Nat) := [(.ldg8, 1), (.ldg16, 2), (.ldg32, 4), (.ldg64, 8)]
def storeOps : List ((GlobArgs → Instr) × Nat) := [(.stg8, 1), (.stg16, 2), (.stg32, 4), (.stg64, 8)]

/-- R310: the atomics with their codes and the bytes they act on. -/
def atomicOps : List ((AmoArgs → Instr) × Fin 16 × Nat) :=
  [(.amoAdd, 0, 8), (.amoFadd, 1, 4), (.amoMin, 2, 8), (.amoMax, 3, 8), (.amoMinn, 4, 8), (.amoMaxn, 5, 8), (.amoAnd, 6, 8),
   (.amoOr, 7, 8), (.amoXor, 8, 8), (.amoSwap, 9, 8), (.cas, 10, 8)]

/-- R311: what an atomic other than CAS leaves, by its code; FADD acts on the low 32 bits and rounds to the nearest. -/
def atomicOf (op : Nat) (old b : Word) : Word :=
  match op with
  | 0 => old + b
  | 1 => (BitVec.ofNat 32 (fmtF32.finish { mode := 0 }
      (sumFp 0 [fmtF32.value (old.toNat % 2 ^ 32), fmtF32.value (b.toNat % 2 ^ 32)])).1).setWidth 64
  | 2 => if b.slt old then b else old
  | 3 => if old.slt b then b else old
  | 4 => if b.ult old then b else old
  | 5 => if old.ult b then b else old
  | 6 => old &&& b
  | 7 => old ||| b
  | 8 => old ^^^ b
  | _ => b

/-! ### Rows -/

/-- What the row `r` of the firing sees (R23). -/
def rowCtx (s : State) (r : Row) : RowCtx := s.ctxOf s.sched.firing r

/-- The PE and the region slot of the firing (R23). -/
def peOf (s : State) : PE := (s.cell s.sched.firing.cell).pe[s.sched.firing.pe.val]
def regionOf (s : State) : Region := (s.cell s.sched.firing.cell).region[s.sched.firing.k.val]

/-- R387: every check before a row's effect passes: the row is within R271, its addresses within the scratchpad and aligned,
its accumulators of the type that it requires, no word uncorrectable and no residue wrong. -/
structure Fires (s : State) (i : Instr) (code : Nat) (r : Row) : Prop where
  limits : i.wf = true
  address : (rowCtx s r).badAddress code = none
  types : (rowCtx s r).typeOk code = true
  words : (rowCtx s r).eccAt code = none
  reads : (rowCtx s r).badRead code = none

/-- What no row changes: other cells, other PEs and region slots of its cell, the sequencer, memory and the rest of the
module. -/
structure RowFrame (s t : State) : Prop where
  cells : ∀ n, n ≠ s.sched.firing.cell → t.cell n = s.cell n
  seq : (t.cell s.sched.firing.cell).seq = (s.cell s.sched.firing.cell).seq
  pes : ∀ p : Fin 4, p ≠ s.sched.firing.pe →
    (t.cell s.sched.firing.cell).pe[p.val] = (s.cell s.sched.firing.cell).pe[p.val]
  regions : ∀ k : Fin 4, k ≠ s.sched.firing.k →
    (t.cell s.sched.firing.cell).region[k.val] = (s.cell s.sched.firing.cell).region[k.val]
  mem : t.mem = s.mem
  fns : t.fns = s.fns
  disp : t.disp = s.disp
  sys : t.sys = s.sys
  sched : t.sched = s.sched

/-- R30, R90, R93, R94, R103: a firing has put `p` into a new landing slot of unit `u` with latency `lat`, for the physical
destination of its row; its PE is otherwise `e`, and flags that no source carried are latched if none were. -/
structure RowResult (s t : State) (r : Row) (u : FUnit) (lat : Nat) (p : Payload) (e : PE) (fresh : Flags) : Prop
    extends RowFrame s t where
  slot : ∃ l, peOf t = { e with slots := (peOf s).slots ++ [l] } ∧ l.unit = u ∧ l.remain = lat ∧ l.bad = false ∧ l.pay = p ∧
    l.inst = s.sched.firing.inst ∧ l.k = s.sched.firing.k ∧
    l.dest.toNat = (let d := r.dest.toNat
                    if 16 ≤ d ∧ d < 64 then 16 + (d - 16 + s.sched.firing.rb.toNat) % 48 else d)
  region : regionOf t = if fresh = 0 ∨ (regionOf s).ffl.isSome = true then regionOf s else
    { regionOf s with ffl := some { flags := fresh, pe := s.sched.firing.pe, stage := r.stage, slot := r.slot,
                                    inst := s.sched.firing.inst } }
  spad : (t.cell s.sched.firing.cell).spad = (s.cell s.sched.firing.cell).spad

/-- R35: a firing has had no effect on a register, a byte, a PE or a region. -/
structure RowNothing (s t : State) : Prop extends RowFrame s t where
  pe : peOf t = peOf s
  region : regionOf t = regionOf s
  spad : (t.cell s.sched.firing.cell).spad = (s.cell s.sched.firing.cell).spad

/-- Lane `j` of `w` bits of a value (R351). -/
def laneOf (w j : Nat) (v : Word) : BitVec w := v.extractLsb' (w * j) w

/-- R351: the lane width that MOD gives. -/
def laneBits (r : Row) : Nat := 8 * 2 ^ (r.mod.toNat % 4)

/-- R351, R352: a lane as a number, signed, or unsigned with U. -/
def laneNum {n : Nat} (u : Bool) (a : BitVec n) : Int := if u then (a.toNat : Int) else a.toInt

/-- R352: the rows on two sources, lane by lane; the flag is U. -/
def laneOps : List ((Row → Instr) × Nat × (Bool → ∀ n, BitVec n → BitVec n → BitVec n)) :=
  [(.rowAdd, 0x01, fun _ _ a b => a + b), (.rowSub, 0x02, fun _ _ a b => a - b), (.rowMul, 0x03, fun _ _ a b => a * b),
   (.rowMulh, 0x04, fun u n a b =>
     if u then ((a.setWidth (2 * n) * b.setWidth (2 * n)) >>> n).setWidth n
     else ((a.signExtend (2 * n) * b.signExtend (2 * n)) >>> n).setWidth n),
   (.rowAdds, 0x05, fun u n a b => clampTo u n (laneNum u a + laneNum u b)),
   (.rowSubs, 0x06, fun u n a b => clampTo u n (laneNum u a - laneNum u b)),
   (.rowShl, 0x0b, fun _ n a b => a <<< (b.toNat % n)), (.rowShr, 0x0c, fun _ n a b => a >>> (b.toNat % n)),
   (.rowSar, 0x0d, fun _ n a b => a.sshiftRight (b.toNat % n)),
   (.rowMin, 0x0e, fun u _ a b => if laneNum u a ≤ laneNum u b then a else b),
   (.rowMax, 0x0f, fun u _ a b => if laneNum u a ≤ laneNum u b then b else a)]

/-- R352: the rows on the whole of two sources. -/
def wholeOps : List ((Row → Instr) × Nat × (Word → Word → Word)) :=
  [(.rowAnd, 0x07, fun a b => a &&& b), (.rowOr, 0x08, fun a b => a ||| b), (.rowXor, 0x09, fun a b => a ^^^ b),
   (.rowAndn, 0x0a, fun a b => a &&& ~~~b)]

/-- R352: the rows on one source, lane by lane. -/
def laneOps1 : List ((Row → Instr) × Nat × (∀ n, BitVec n → BitVec n)) :=
  [(.rowAbs, 0x10, fun _ a => if a.msb then -a else a),
   (.rowPopc, 0x17, fun n a => BitVec.ofNat n ((List.range n).countP fun j => a.getLsbD j)),
   (.rowClz, 0x18, fun n a => BitVec.ofNat n (if a = 0 then n else n - 1 - Nat.log2 a.toNat))]

/-- R353: the conditions of CMP by their codes in AUX[3:0]. -/
def laneCond {n : Nat} (cc : Nat) (u : Bool) (a b : BitVec n) : Bool :=
  match cc with
  | 0 => a == b
  | 1 => a != b
  | 2 => decide (laneNum u a < laneNum u b)
  | 3 => decide (laneNum u b ≤ laneNum u a)
  | 4 => decide (laneNum u a ≤ laneNum u b)
  | 5 => decide (laneNum u b < laneNum u a)
  | 6 => a &&& b != 0
  | _ => a &&& b == 0

/-- R357, R358: the floating rows that round in each lane: code, whether C is read, the exact result. -/
def fpRows : List ((Row → Instr) × Nat × Bool × (Nat → Fp → Fp → Fp → Fp × Flags)) :=
  [(.rowFadd, 0x20, false, fun m a b _ => sumFp m [a, b]), (.rowFsub, 0x21, false, fun m a b _ => sumFp m [a, b.negate]),
   (.rowFmul, 0x22, false, fun _ a b _ => mulFp a b), (.rowFma, 0x23, true, fmaFp),
   (.rowFms, 0x24, true, fun m a b c => fmaFp m a b c.negate)]

/-- R47 to R50, R378: element `k` of a word in a floating format, under a scale or offset word and a tensor scale. -/
def elemOf (fmt scale : Nat) (t : Fp) (w : Word) (k : Nat) : Fp × Flags :=
  let code := (laneOf (if fmt ≤ 1 then 16 else if fmt = 8 ∨ fmt = 0xa then 4 else 8) k w).toNat
  if fmt = 0xa then mulFp ((fmtE2M1.value code).scale ((scale / 16 ^ (k / 4) % 16 : Nat) - 8)) t
  else if 4 ≤ fmt ∧ fmt ≤ 8 then
    (if scale % 256 = 0xff then .nan else ((fmtOfCode fmt).value code).scale ((scale % 256 : Nat) - 127), 0)
  else ((fmtOfCode fmt).value code, 0)

/-- R62: one output of a floating firing: the exact sum of the accumulator and the products, rounded once to the nearest. -/
def dotOf (acc : Nat) (a w : List (Fp × Flags)) : Nat × Flags :=
  let ps := List.zipWith (fun x y => mulFp x.1 y.1) a w
  let o := fmtF32.finish { mode := 0 } (sumFp 0 (fmtF32.value acc :: ps.map (·.1)))
  (o.1, (ps ++ a ++ w).foldl (fun f p => f ||| p.2) o.2)

/-- R64: the wrapped sum of an INT32 output, with OF outside its range. -/
def intOf (acc : BitVec 32) (add : Int) : Nat × Flags :=
  let v := acc.toInt + add
  ((BitVec.ofInt 32 v).toNat, if -2 ^ 31 ≤ v ∧ v < 2 ^ 31 then 0 else flOF)

/-- R65: floor(log2) of a value's magnitude is `t`; or at most `t`, or the value is zero. -/
def topAt (t : Int) : Fp → Bool
  | .fin _ m e => m != 0 && topExp m e == t
  | _ => false
def topUpTo (t : Int) : Fp → Bool
  | .fin _ m e => m == 0 || decide (topExp m e ≤ t)
  | _ => false

/-- R66: `e` is the offset of a group of finite values `u`, given as magnitudes. -/
def OffsetOf (u : Nat → ℚ) (e : Nat) : Prop :=
  e ≤ 15 ∧ (0 < e → ∃ i < 4, (2 : ℚ) ^ ((e : Int) - 6) ≤ u i) ∧ (e < 15 → ∀ i < 4, u i < (2 : ℚ) ^ ((e : Int) - 5))

/-- R101: XS after `n` draws. -/
def xsAfter (x : BitVec 32) : Nat → BitVec 32
  | 0 => x
  | n + 1 => xorshift (xsAfter x n)

/-- R55, R57, R58: how lane `k` of a firing rounds. -/
def laneRounding (s : State) (r : Row) (k : Nat) : Rounding :=
  { mode := r.aux.toNat % 8, draw := (xsAfter (peOf s).xs (k + 1)).toNat, ftz := (regionOf s).ftz }

/-- R57, R101: the PE after `n` lanes have rounded: under RSR its XS has been drawn from `n` times. -/
def peDrawn (s : State) (r : Row) (n : Nat) : PE :=
  if r.aux.toNat % 8 = 4 then { peOf s with xs := xsAfter (peOf s).xs n } else peOf s

/-- The OR of the flags that sources carry. -/
def carriedBy (l : List FVal) : Flags := l.foldl (fun f v => f ||| v.flags) 0

end Sys2Proof.Safety
end

