-- ==== Sys2Proof/Certificates/Slice0/Obligations.lean ====
section
/-! DEFINITION. The statements for the provers. -/

open Sys2Proof Sys2Proof.Machine Sys2Proof.Safety

/-! ### Encodings -/

/-- R256 to R264, R319 to R346: decoding the word of a well-formed sequencer instruction gives it back, with every
operand at every value that the encoding admits. -/
def Obligations.SequencerRoundTrip : Prop :=  ∀ (i : Instr) (w : BitVec 32), i.wf = true → encode i = some w → decode w = .ok i

/-- R265 to R271: decoding the 64 bits of a well-formed fabric row gives it back. -/
def Obligations.RowRoundTrip : Prop :=  ∀ (i : Instr) (w : BitVec 64), i.wf = true → encodeRow i = some w → decodeRow w = some i

/-- R256 to R265, R268, R271: an instruction is decoded from one word only, its own, and a row from its own 64 bits
only, and only when it is within its limits. Every major that the map marks reserved is refused as ILL_OP, whatever
the other bits, and a word with the guard 0b1000, which is (!p0), is never an instruction. -/
def Obligations.OneMeaningEach : Prop :=
  (∀ (i : Instr) (w : BitVec 32), decode w = .ok i → i.wf = true ∧ encode i = some w) ∧
  (∀ (i : Instr) (w : BitVec 64), decodeRow w = some i → i.wf = true ∧ encodeRow i = some w) ∧
  (∀ w : BitVec 32, (w.toNat / 2 ^ 26 = 0 ∨ w.toNat / 2 ^ 26 = 0x1f ∨ 0x30 ≤ w.toNat / 2 ^ 26) → decode w = .illOp) ∧
  ∀ (w : BitVec 32) (i : Instr), w.toNat / 2 ^ 22 % 16 = 8 → decode w ≠ .ok i

/-- R279, R283, R292, R293, R298, R314: words that the spec writes out decode to the instructions they stand for. -/
def Obligations.WordsOfTheSpec : Prop :=
  decode 0x040e4000 = .ok (.add ⟨⟨false, 0⟩, 7, 4, 0, false⟩) ∧
  decode 0x040e4040 = .ok (.add ⟨⟨false, 0⟩, 7, 4, 0, true⟩) ∧
  decode 0x44084567 = .ok (.lhi ⟨⟨false, 0⟩, 4, 0x4567⟩) ∧
  decode 0x58bffffa = .ok (.br ⟨⟨false, 2⟩, 0x3ffffa⟩) ∧
  decode 0x18005002 = .ok (.jmp ⟨⟨false, 0⟩, 5⟩) ∧
  decode 0x18000009 = .ok (.lbrk ⟨⟨false, 0⟩, 1⟩) ∧
  decode 0xa8085040 = .ok (.phAw ⟨⟨false, 0⟩, 4, 5⟩)

/-! ### Steps -/

/-- R39, R43, R117, R190, R258: when the next step is the issue of a cell that runs, is not stopping or frozen and has no cause
or deadline to take, and whose instruction cache holds the word at its program counter, and that word decodes to an instruction, the step is that
instruction's meaning, at a state in which only the step itself is taken off the list, the issuing cell is named, and
its word and trace bits are noted. That the word is noted in opword is the model's (log 4). -/
def Obligations.StepRunsTheDecodedWord : Prop :=
  ∀ (s : State) (c : Nat) (ts : List Task) (l : ILine) (i : Instr),
    let x := s.cell c
    s.sched.tasks = .issue c :: ts → x.bound.isSome = true → x.halted = false → x.replay = false → x.stop = none →
    x.causeDue = false → x.deadlineHolds = false → x.seq.log.all (fun e => e.phase.isNone) = true → x.freeze = .none →
    x.inImage x.seq.pc = true → x.ifind (vline (x.seq.pc.setWidth 64)) = some l → l.parityBad = false →
    decode (lineWord l.data x.seq.pc) = .ok i →
    ∃ u : State, step s = exec i u ∧ u.sched = { s.sched with tasks := ts, cur := c } ∧ u.mem = s.mem ∧ u.disp = s.disp ∧
      u.fns = s.fns ∧ u.sys = s.sys ∧ (∀ n, n ≠ c → u.cell n = s.cell n) ∧
      u.cell c = { x with opword := lineWord l.data x.seq.pc, trace := (u.cell c).trace, events := (u.cell c).events }

/-- R258: a word of a reserved major or an unassigned code is taken by the ILL_OP of R260 to R264, and one with a
field outside its limits by ILL_OPERAND, or in a delay slot, when it is a transfer, by BRANCH_IN_SLOT; a frozen word
issues again as it was taken up. That a frozen word stands in opword is the model's (log 4). -/
def Obligations.StepOfATakenWord : Prop :=
  ∀ (s : State) (c : Nat) (ts : List Task),
    let u : State := { s with sched := { s.sched with tasks := ts, cur := c } }
    let x := s.cell c
    s.sched.tasks = .issue c :: ts → x.bound.isSome = true → x.halted = false → x.replay = false → x.stop = none →
    x.causeDue = false → x.seq.log.all (fun e => e.phase.isNone) = true → x.freeze.inWord = true →
    (∀ i, decode x.opword = .ok i → step s = exec i u) ∧
    (decode x.opword = .illOp → step s = exec (.unassignedOpcode x.opword) u) ∧
    (∀ b, decode x.opword = .illOperand b → step s = .next (u.seqFault c
      (if b && x.seq.slot != .none then cBranchInSlot else cIllOperand) x.seq.pc (x.opword.setWidth 64) 0 none))

/-- The order of a cycle (log 4): the steps laid out are made one after another, and with none left the next cycle is
laid out, which ends with the end of the cycle, when the records found in it enter their queues, if there are any; the start of a queue's first unstarted record (R181) is the meaning of
that record's KIND, and for TIMER and PHASER of its OP. -/
def Obligations.StepsInOrder : Prop :=
  (∀ (s : State) (ts : List Task),
    let u : State := { s with sched := { s.sched with tasks := ts } }
    (∀ e, s.sched.tasks = .event e :: ts → step s = exec e u) ∧
    (∀ f r, s.sched.tasks = .fire f r :: ts → step s = exec r { u with sched := { u.sched with firing := f } }) ∧
    (s.sched.tasks = .endCycle :: ts → (∀ p ∈ s.fns, p.2.found = [] ∧ p.2.due = [] ∧ p.2.held = []) → s.sys.errDue = [] →
      ∃ t, step s = .next t ∧ t.sys.cycle = s.sys.cycle + 1 ∧ t.mem = s.mem ∧
      t.sched.tasks = ts) ∧
    (s.sched.tasks = [] → ∃ t us, step s = .next t ∧ t.sched.tasks = us ++ [.endCycle] ∧ t.sys.cycle = s.sys.cycle)) ∧
  ∀ (s : State) (vf : Fin 64) (q : BitVec 8) (ts : List Task) (r : Rec),
    let u : State := { s with sched := { s.sched with tasks := ts } }
    s.sched.tasks = .start vf q :: ts → (s.queue vf q).first = some r →
    (r.kind = 0 → step s = exec (.pad vf q) u) ∧ (r.kind = 1 → step s = exec (.kernel vf q) u) ∧
    (r.kind = 2 → step s = exec (.work vf q) u) ∧
    (r.kind = 3 → step s = exec (if r.num 0x24 1 = 0 then .timerArm vf q else .timerCancel vf q) u) ∧
    (r.kind = 4 → step s = exec (if r.num 0x12 1 = 0 then .phaserArrive vf q else .phaserDrop vf q) u) ∧
    (r.kind = 5 → step s = exec (.wait vf q) u) ∧ (r.kind = 6 → step s = exec (.fence vf q) u)

/-! ### Invariants and reset -/

/-- DRAM, host memory and every scratchpad keep their canonical form at every step, so that equal memories are equal
data. -/
def Obligations.MemoryStaysCanonical : Prop :=  ∀ s t : State, MemWf s → step s = .next t → MemWf t

/-- The memories of the module after reset are in their canonical form, and every cell's registers hold the values
that the spec gives (R71, R80, R82, R101): general registers and their residues 0, p0 alone 1, no loop, no trap, no
flag, every XS 1, an empty operand log. -/
def Obligations.ResetState : Prop :=
  (MemWf State.reset) ∧
  ∀ c : Nat, let x := State.reset.cell c
    (∀ r : Reg, x.greg r = { data := 0, res := 0 }) ∧ (∀ k : Pred, x.pval k = decide (k = 0)) ∧ x.seq.lact = 0 ∧
    x.seq.trap = {} ∧ x.seq.intrap = false ∧ x.seq.fp = {} ∧ x.seq.log = [] ∧ (∀ p : Fin 4, (x.pe[p.val]).xs = 1) ∧
    ∀ k : Fin 4, (x.region[k.val]).state = .empty ∧ (x.region[k.val]).conf = false

/-- R71: g0 reads as zero and p0 as 1, whatever is written to them, and every other register reads what was written.
-/
def Obligations.HardWiredRegisters : Prop :=
  ∀ (x : CellSt) (r r' : Reg) (v : Word) (k k' : Pred) (b : Bool),
    x.gval 0 = 0 ∧ x.pval 0 = true ∧
    (x.setG r v).gval r' = (if r'.val = 0 then 0 else if r' = r then v else x.gval r') ∧
    (x.setP k b).pval k' = (if k'.val = 0 then true else if k' = k then b else x.pval k')

/-! ### Integer, comparison and predicate instructions -/

/-- R278 to R282: the operations of latency 1 on two sources write their result, in the 64-bit form and the `.W` form;
so do AND, OR, XOR, ANDN and SEL, and the immediate forms; multiplies and divides enter the operand log with their
result and latency. -/
def Obligations.IntegerResults : Prop :=
  (∀ p ∈ intOps, ∀ (x : IntArgs) (s : State), Ready s (p.1 x) x.g [x.a, x.b] → NoInjection s →
    ∃ t, exec (p.1 x) s = .next t ∧ Wrote s t x.d (byWidth x.w p.2 ((me s).gval x.a) ((me s).gval x.b))) ∧
  ((∀ p ∈ logicOps, ∀ (x : RegArgs) (s : State), Ready s (p.1 x) x.g [x.a, x.b] → NoInjection s →
    ∃ t, exec (p.1 x) s = .next t ∧ Wrote s t x.d (p.2 ((me s).gval x.a) ((me s).gval x.b))) ∧
  ∀ (x : SelArgs) (s : State), Ready s (.sel x) x.g [x.a, x.b] → NoInjection s →
    ∃ t, exec (.sel x) s = .next t ∧
      Wrote s t x.d (if x.k = 0 ∨ (me s).seq.p.getLsbD x.k.val then (me s).gval x.a else (me s).gval x.b)) ∧
  ((∀ p ∈ immOps, ∀ (x : ImmArgs) (s : State), Ready s (p.1 x) x.g [x.a] → NoInjection s →
    ∃ t, exec (p.1 x) s = .next t ∧ Wrote s t x.d (p.2 ((me s).gval x.a) (x.imm.signExtend 64))) ∧
  ∀ p ∈ shiftOps, ∀ (x : ShiArgs) (s : State), Ready s (p.1 x) x.g [x.a] → NoInjection s →
    ∃ t, exec (p.1 x) s = .next t ∧
      Wrote s t x.d (byWidth x.w (fun n a _ => p.2 n a x.count.val) ((me s).gval x.a) 0)) ∧
  ∀ p ∈ longOps, ∀ (x : IntArgs) (s : State), Ready s (p.1 x) x.g [x.a, x.b] → (me s).seq.log.length < 8 →
    ∃ t, exec (p.1 x) s = .next t ∧
      Logged s t (destG x.d) p.2.1 (byWidth x.w p.2.2 ((me s).gval x.a) ((me s).gval x.b)) 0

/-- R278, R279, R283: CLZ, CTZ and POPC count the bits of the source within the width, BSWAP reverses its bytes; SEXT,
ZEXT, LIMM and LHI write their result. -/
def Obligations.BitAndConstantResults : Prop :=
  (∀ (x : UnaryArgs) (s : State), let n := if x.w then 32 else 64; let a := (me s).gval x.a; NoInjection s →
    (Ready s (.clz x) x.g [x.a] → ∃ t v, exec (.clz x) s = .next t ∧ Wrote s t x.d (BitVec.ofNat 64 v) ∧ v ≤ n ∧
      (∀ j, n - v ≤ j → j < n → a.getLsbD j = false) ∧ (v < n → a.getLsbD (n - 1 - v) = true)) ∧
    (Ready s (.ctz x) x.g [x.a] → ∃ t v, exec (.ctz x) s = .next t ∧ Wrote s t x.d (BitVec.ofNat 64 v) ∧ v ≤ n ∧
      (∀ j < v, a.getLsbD j = false) ∧ (v < n → a.getLsbD v = true)) ∧
    (Ready s (.popc x) x.g [x.a] → ∃ t, exec (.popc x) s = .next t ∧
      Wrote s t x.d (BitVec.ofNat 64 ((List.range n).countP fun j => a.getLsbD j))) ∧
    (Ready s (.bswap x) x.g [x.a] → ∃ t v, exec (.bswap x) s = .next t ∧ Wrote s t x.d v ∧
      (∀ j < n, v.getLsbD j = a.getLsbD (n - 8 - j / 8 * 8 + j % 8)) ∧ ∀ j, n ≤ j → j < 64 → v.getLsbD j = v.getLsbD 31)) ∧
  (∀ (x : ExtArgs) (s : State) (n : Nat), (x.width, n) ∈ [((0 : Fin 32), 8), (1, 16), (2, 32)] → NoInjection s →
    (Ready s (.sext x) x.g [x.a] → ∃ t, exec (.sext x) s = .next t ∧
      Wrote s t x.d ((((me s).gval x.a).setWidth n).signExtend 64)) ∧
    (Ready s (.zext x) x.g [x.a] → ∃ t, exec (.zext x) s = .next t ∧
      Wrote s t x.d ((((me s).gval x.a).setWidth n).setWidth 64))) ∧
  ∀ (x : LongArgs) (s : State), NoInjection s →
    (Ready s (.limm x) x.g [] → ∃ t, exec (.limm x) s = .next t ∧ Wrote s t x.d (x.imm.signExtend 64)) ∧
    (Ready s (.lhi x) x.g [x.d] → ∃ t, exec (.lhi x) s = .next t ∧
      Wrote s t x.d ((me s).gval x.d * 65536 + x.imm.setWidth 64))

/-- R284, R285: CMP and CMPI write the truth of their condition into a predicate; the words of CMP, the codes that are
ILL_OP, and a destination that is no predicate. -/
def Obligations.CompareResults : Prop :=
  (∀ (x : CmpArgs) (s : State), Ready s (.cmp x) x.g [x.a, x.b] →
    ∃ t, exec (.cmp x) s = .next t ∧ WroteP s t x.p (condByWidth x.w x.cc ((me s).gval x.a) ((me s).gval x.b))) ∧
  (∀ p ∈ cmpiConds, ∀ (x : CmpiArgs) (s : State), x.cc = p.2.1 → Ready s (p.1 x) x.g [x.a] →
    ∃ t, exec (p.1 x) s = .next t ∧ WroteP s t x.p (condHolds ((me s).gval x.a) (x.imm.signExtend 64) p.2.2)) ∧
  (∀ p ∈ [(CmpCond.eq, 0), (.ne, 1), (.lt, 2), (.ge, 3), (.le, 4), (.gt, 5), (.ltn, 6), (.gen, 7), (.len, 8), (.gtn, 9)],
    ∀ x : CmpArgs, x.cc = p.1 → x.g.wf = true →
      decode (BitVec.ofNat 32 (0x02 * 2 ^ 26 + x.g.code * 2 ^ 22 + x.p.val * 2 ^ 17 + x.a.val * 2 ^ 12 + x.b.val * 2 ^ 7
        + (if x.w then 64 else 0) + p.2)) = .ok (.cmp x)) ∧
  ∀ w : BitVec 32, w.toNat / 2 ^ 26 = 0x02 →
    (10 ≤ w.toNat % 64 → decode w = .illOp) ∧
    (w.toNat % 64 < 10 → 8 ≤ w.toNat / 2 ^ 17 % 32 → decode w = .illOperand false)

/-- R286: the predicate instructions: their words, the codes that are ILL_OP, and their results. -/
def Obligations.PredicateInstructions : Prop :=
  (∀ p ∈ predOps, ∀ x : PredArgs,
    (x.g.wf = true → decode (BitVec.ofNat 32 (0x03 * 2 ^ 26 + x.g.code * 2 ^ 22 + x.d.val * 2 ^ 17 + x.a.val * 2 ^ 12
      + x.b.val * 2 ^ 7 + p.1)) = .ok (p.2.1 x)) ∧
    ∀ s : State, Ready s (p.2.1 x) x.g [] →
      ∃ t, exec (p.2.1 x) s = .next t ∧ WroteP s t x.d (p.2.2 ((me s).pval x.a) ((me s).pval x.b))) ∧
  (∀ x : PnotArgs,
    (x.g.wf = true → decode (BitVec.ofNat 32 (0x03 * 2 ^ 26 + x.g.code * 2 ^ 22 + x.d.val * 2 ^ 17 + x.a.val * 2 ^ 12 + 3))
      = .ok (.pnot x)) ∧
    ∀ s : State, Ready s (.pnot x) x.g [] → ∃ t, exec (.pnot x) s = .next t ∧ WroteP s t x.d (!(me s).pval x.a)) ∧
  ∀ w : BitVec 32, w.toNat / 2 ^ 26 = 0x03 →
    (4 ≤ w.toNat % 128 → decode w = .illOp) ∧
    (w.toNat % 128 < 4 → (8 ≤ w.toNat / 2 ^ 17 % 32 ∨ 8 ≤ w.toNat / 2 ^ 12 % 32 ∨ 8 ≤ w.toNat / 2 ^ 7 % 32 ∨
        w.toNat % 128 = 3 ∧ w.toNat / 2 ^ 7 % 32 ≠ 0) → decode w = .illOperand false)

/-- R40, R69, R85: with an injection armed for the class of a sequencer result, a result of that class and latency 1 does
not reach its register: its entry in the operand log is due in the next issue cycle as MC_RESIDUE, and the injection is
spent. The class of each instruction of latency 1 that has one is stated. That the failing result is an entry of the log,
which a full log has no place for, and that LHI is of class 0x6 is the model's choice (log 13). -/
def Obligations.InjectedResults : Prop :=
  ∀ s : State, let a (r : Reg) : Word := (me s).gval r
    let fails (i : Instr) (g : Guard) (srcs : List Reg) (d : Reg) (cls : BitVec 4) (P : Word → Prop) : Prop :=
      Ready s i g srcs → d.val ≠ 0 → (me s).seq.log.length < 8 → (me s).seq.errinj.arm = true →
      (me s).seq.errinj.seq = true → (me s).seq.errinj.cls = cls →
      ∃ t e, exec i s = .next t ∧ (me t).seq.log = (me s).seq.log ++ [e] ∧ e.fault = cMcResidue ∧ e.remain = 1 ∧
        e.dest = destG d ∧ P e.val ∧ e.pcw = (me s).seq.pc ∧ e.word = wordOf i ∧ (me t).seq.g = (me s).seq.g ∧
        (me t).seq.p = (me s).seq.p ∧ (me t).seq.errinj = { (me s).seq.errinj with arm := false } ∧
        (me t).ec.resid = satInc (me s).ec.resid ∧ t.mem = s.mem ∧ t.disp = s.disp ∧ SameBytes s t
    (∀ p ∈ intOps.zip [0, 1, 7, 7, 7, 7, 6, 6, 6, 6], ∀ x : IntArgs,
      fails (p.1.1 x) x.g [x.a, x.b] x.d p.2 fun v => v = byWidth x.w p.1.2 (a x.a) (a x.b)) ∧
    (∀ p ∈ logicOps, ∀ x : RegArgs, fails (p.1 x) x.g [x.a, x.b] x.d 5 fun v => v = p.2 (a x.a) (a x.b)) ∧
    (∀ x : SelArgs, fails (.sel x) x.g [x.a, x.b] x.d 7 fun v => v = if (me s).pval x.k then a x.a else a x.b) ∧
    (∀ p ∈ immOps.zip [0, 5, 5, 5], ∀ x : ImmArgs,
      fails (p.1.1 x) x.g [x.a] x.d p.2 fun v => v = p.1.2 (a x.a) (x.imm.signExtend 64)) ∧
    (∀ p ∈ shiftOps, ∀ x : ShiArgs,
      fails (p.1 x) x.g [x.a] x.d 6 fun v => v = byWidth x.w (fun n y _ => p.2 n y x.count.val) (a x.a) 0) ∧
    (∀ x : UnaryArgs, fails (.bswap x) x.g [x.a] x.d 8 fun v => let n := if x.w then 32 else 64
      (∀ j < n, v.getLsbD j = (a x.a).getLsbD (n - 8 - j / 8 * 8 + j % 8)) ∧ ∀ j, n ≤ j → j < 64 → v.getLsbD j = v.getLsbD 31) ∧
    (∀ (x : ExtArgs) (n : Nat), (x.width, n) ∈ [((0 : Fin 32), 8), (1, 16), (2, 32)] →
      fails (.sext x) x.g [x.a] x.d 9 (fun v => v = ((a x.a).setWidth n).signExtend 64) ∧
      fails (.zext x) x.g [x.a] x.d 9 fun v => v = ((a x.a).setWidth n).setWidth 64) ∧
    ∀ x : LongArgs, fails (.lhi x) x.g [x.d] x.d 6 fun v => v = a x.d * 65536 + x.imm.setWidth 64

/-! ### Scalar floating point -/

/-- R287: FADD, FSUB, FMUL and FMA enter the operand log with latency 4 and the exact result of their sources' values,
FMA's addend the old d, rounded once in the format under RMODE and FTZ as they stand at issue, with its flags. Of
finite values the exact result is their sum, difference, product, or product and sum as rational numbers, and raises
no flag before the rounding. A NaN operand gives the canonical NaN and no flag (R52); an addend does so unless the
product is itself invalid. R54 to R58: a finite exact value becomes, in every format and mode, one of the two codes that
bracket it, to the nearest with ties to the even one, toward zero, up, down, or by the draw; beyond the largest finite
value it is an infinity or that value, with OF; flush-to-zero makes a subnormal result a zero with UF, and UF is raised
for a tiny inexact one. -/
def Obligations.FloatResults : Prop :=
  (∀ p ∈ fpOps, ∀ (x : FpArgs) (s : State),
    Ready s (p.1 x) x.g (if p.2.1 then [x.a, x.b, x.d] else [x.a, x.b]) → (me s).seq.log.length < 8 →
    let m := match x.t with | .f32 => fmtF32 | .bf16 => fmtBf16
    let q : Rounding := { mode := (me s).seq.fp.mode.toNat, ftz := (me s).seq.fp.ftz }
    let v (r : Reg) : Fp := m.read q.ftz ((me s).gval r).toNat
    let o := m.finish q (p.2.2 q.mode (v x.a) (v x.b) (v x.d))
    ∃ t, exec (p.1 x) s = .next t ∧ Logged s t (destG x.d) 4 (BitVec.ofNat 64 o.1) o.2) ∧
  (∀ (mode : Nat) (a b d : Fp), finite a = true → finite b = true → finite d = true →
    (∀ p ∈ fpOps, (p.2.2 mode a b d).2 = 0 ∧ finite (p.2.2 mode a b d).1 = true) ∧
    ratOf (sumFp mode [a, b]).1 = ratOf a + ratOf b ∧ ratOf (sumFp mode [a, b.negate]).1 = ratOf a - ratOf b ∧
    ratOf (mulFp a b).1 = ratOf a * ratOf b ∧ ratOf (fmaFp mode a b d).1 = ratOf a * ratOf b + ratOf d) ∧
  (∀ p ∈ fpOps, ∀ m ∈ [fmtF32, fmtBf16], ∀ (q : Rounding) (a b d : Fp), a.isNan = true ∨ b.isNan = true ∨
    (p.2.1 = true ∧ d.isNan = true ∧ a.isInf = false ∧ b.isInf = false) → m.finish q (p.2.2 q.mode a b d) = (m.canon.1, 0)) ∧
  ∀ m ∈ [fmtF32, fmtBf16, fmtF16, fmtE4M3, fmtE5M2, fmtE3M2, fmtE2M3, fmtE2M1], ∀ (q : Rounding) (neg : Bool) (k : Nat) (e : Int),
    q.mode ≤ 4 → q.draw < 2 ^ 32 → RoundsTo m q neg (Exact.of ((k : ℚ) * (2 : ℚ) ^ e)) (m.finish q (.fin neg k e, 0))

/-- R53, R287, R288, R289: FMIN, FMAX, FCMP and FCVT enter the operand log with latency 4. FMIN and FMAX give the
smaller and the larger operand, −0 being the smaller zero, of one NaN the other operand and of two the canonical NaN,
and raise no flag. FCMP gives the truth of its condition on the operands as real numbers: with a NaN NE and UN hold
and no other. FCVT gives the converted value with its flags: between floating types the value rounded once, saturated, or infinite
under NS, with the rules of NaN and infinity (R59); to an integer type the rounded value, or the nearest limit with NV, and
0 with NV for a NaN, and from one the value rounded once (R60); from an integer type to another the value, or the nearest
limit with NV. -/
def Obligations.FloatPicksAndConversions : Prop :=
  (∀ p ∈ [(Instr.fmin, false), (Instr.fmax, true)], ∀ (x : FpArgs) (s : State), Ready s (p.1 x) x.g [x.a, x.b] →
    (me s).seq.log.length < 8 →
    let m := match x.t with | .f32 => fmtF32 | .bf16 => fmtBf16
    let ftz := (me s).seq.fp.ftz
    let a := ((me s).gval x.a).toNat
    let b := ((me s).gval x.b).toNat
    let second := if p.2 then fpBelow (m.read ftz a) (m.read ftz b) else fpBelow (m.read ftz b) (m.read ftz a)
    ∃ t v, exec (p.1 x) s = .next t ∧ Logged s t (destG x.d) 4 (BitVec.ofNat 64 v) 0 ∧
      ((m.read ftz a).isNan = true → (m.read ftz b).isNan = true → v = m.canon.1) ∧
      ((m.read ftz a).isNan = true → (m.read ftz b).isNan = false → v = m.flush ftz b) ∧
      ((m.read ftz a).isNan = false → (m.read ftz b).isNan = true → v = m.flush ftz a) ∧
      ((m.read ftz a).isNan = false → (m.read ftz b).isNan = false →
        (second → v = m.flush ftz b) ∧ (¬second → v = m.flush ftz a))) ∧
  (∀ (x : FcmpArgs) (s : State), Ready s (.fcmp x) x.g [x.a, x.b] → (me s).seq.log.length < 8 →
    let m := match x.t with | .f32 => fmtF32 | .bf16 => fmtBf16
    let a := m.read (me s).seq.fp.ftz ((me s).gval x.a).toNat
    let b := m.read (me s).seq.fp.ftz ((me s).gval x.b).toNat
    ∃ t v, exec (.fcmp x) s = .next t ∧ Logged s t (destP x.p) 4 (if v then 1 else 0) 0 ∧
      (v = true ↔ fcmpHolds x.cc a b)) ∧
  (∀ (x : FcvtArgs) (s : State), Ready s (.fcvt x) x.g [x.a] → (me s).seq.log.length < 8 →
    let r := fcvtVal x.src x.dst x.ns { mode := (me s).seq.fp.mode.toNat, ftz := (me s).seq.fp.ftz } ((me s).gval x.a)
    ∃ t, exec (.fcvt x) s = .next t ∧ Logged s t (destG x.d) 4 r.1 r.2) ∧
  (∀ (ns : Bool) (q : Rounding) (a : Word), q.mode ≤ 3 →
    (∀ f ∈ floatTypes, ∀ g ∈ floatTypes, (ns = true → g.1 = .bf16 ∨ g.1 = .fp16 ∨ g.1 = .e5m2) →
      let r := fcvtVal f.1 g.1 ns q a
      Converts f.2 g.2 ns q a.toNat (r.1.toNat, r.2)) ∧
    (∀ f ∈ floatTypes, ∀ i ∈ intTypes, let r := fcvtVal f.1 i.1 ns q a; let v := r.1.setWidth i.2.1
      RoundsToInt i.2.2 i.2.1 q (f.2.read q.ftz a.toNat) (v, r.2) ∧
      r.1 = if i.2.2 then v.setWidth 64 else v.signExtend 64) ∧
    ∀ i ∈ intTypes, ∀ g ∈ floatTypes, (ns = true → g.1 = .bf16 ∨ g.1 = .fp16 ∨ g.1 = .e5m2) →
      let r := fcvtVal i.1 g.1 ns q a
      ConvertsInt g.2 ns q (laneNum i.2.2 (a.setWidth i.2.1)) (r.1.toNat, r.2)) ∧
  ∀ (ns : Bool) (q : Rounding) (a : Word),
    fcvtVal .i64 .i32 ns q a = ((clampTo false 32 a.toInt).signExtend 64, if (clampTo false 32 a.toInt).toInt = a.toInt then 0 else flNV) ∧
    fcvtVal .n64 .n32 ns q a = ((clampTo true 32 a.toNat).setWidth 64, if a.toNat < 2 ^ 32 then 0 else flNV) ∧
    fcvtVal .n64 .i64 ns q a = (clampTo false 64 a.toNat, if a.toNat < 2 ^ 63 then 0 else flNV) ∧
    fcvtVal .i64 .n64 ns q a = (clampTo true 64 a.toInt, if 0 ≤ a.toInt then 0 else flNV) ∧
    fcvtVal .i32 .i64 ns q a = ((a.setWidth 32).signExtend 64, 0) ∧ fcvtVal .n32 .n64 ns q a = ((a.setWidth 32).setWidth 64, 0)

/-! ### Control flow -/

/-- R257, R258: an instruction whose guard is false issues, fills a delay slot it has, and does nothing else: no
register, predicate, log entry, memory byte or unit of the cell changes, and a transfer is not taken. A transfer in a
delay slot raises BRANCH_IN_SLOT before its other checks, whatever its guard, and any other word outside its limits
raises ILL_OPERAND. -/
def Obligations.IssueChecks : Prop :=
  (∀ (i : Instr) (g : Guard) (s : State), guard? i = some g → i.wf = true → (me s).guardTrue g = false → (me s).freeze ≠ .wait →
    (i.isTransfer = true → (me s).seq.slot = .none) →
    ∃ t, exec i s = .next t ∧ t.mem = s.mem ∧ t.disp = s.disp ∧ SameBytes s t ∧ SameUnits (me s) (me t) ∧ KeptRegs s t ∧
      Elsewhere s.sched.cur s t ∧ (me t).seq.trap = (me s).seq.trap ∧ (me t).seq.fp = (me s).seq.fp ∧
      (hasSlot i = false → (me t).seq = (me s).seq.next.1) ∧ (hasSlot i = true → (me t).seq = (me s).seq.untaken.1)) ∧
  ∀ (i : Instr) (g : Guard) (s : State), guard? i = some g →
    (i.isTransfer = true → (me s).seq.slot ≠ .none → exec i s = .next (s.raise s.sched.cur i cBranchInSlot 0)) ∧
    ((i.isTransfer = true → (me s).seq.slot = .none) → i.wf = false →
      exec i s = .next (s.raise s.sched.cur i cIllOperand 0))

/-- R41, R291 to R293: BR and CALL are taken to the address their offset gives, and CALL writes the address after its
slot; JMP and RET are taken to the address in their register, when it is a word address of path 0: above 48 bits it is
ADDR_ILLEGAL, and off a word boundary MISALIGN with the address in TRAPINFO, and nothing of the transfer happens. -/
def Obligations.Transfers : Prop :=
  (∀ (x : BranchArgs) (s : State), let a := (me s).seq.pc + x.off.signExtend 48 * 4
    (Ready s (.br x) x.g [] → ∃ t, exec (.br x) s = .next t ∧ Taken s t a ∧ KeptRegs s t) ∧
    (Ready s (.call x) x.g [] → NoInjection s → ∃ t, exec (.call x) s = .next t ∧ Taken s t a ∧
      TookG s t 31 ((me s).seq.pc.setWidth 64 + 8))) ∧
  ∀ (s : State) (i : Instr) (g : Guard) (r : Reg), (i = .ret g ∧ r = 31 ∨ i = .jmp ⟨g, r⟩) → Ready s i g [r] →
    let a := (me s).gval r
    (a.toNat < 2 ^ 48 → a.toNat % 4 = 0 → ∃ t, exec i s = .next t ∧ Taken s t (a.setWidth 48) ∧ KeptRegs s t) ∧
    (2 ^ 48 ≤ a.toNat → exec i s = .next (s.raise s.sched.cur i cAddrIllegal a)) ∧
    (a.toNat < 2 ^ 48 → a.toNat % 4 ≠ 0 → exec i s = .next (s.raise s.sched.cur i cMisalign a))

/-- R41, R74, R291, R295 to R298: with no loop open the word after PC is NPC, and NPC moves on by a word; a taken
transfer's slot is followed by its target; a transfer that is not taken goes on after its slot. At a word that is no
taken transfer's slot the open levels that end there are taken from the highest: one with more turns is counted down
and goes back to its body, and no lower one is looked at; one with its last turn is closed with count 0; if every one
has its last turn, issue goes on past the end; other levels are left alone. LOOP opens its level for a count above 0
and goes on as a transfer that is not taken, and for 0 goes past the body after its slot; with a level from k up open
it raises LOOP_NEST. LBRK has no delay slot and may not stand in one: of an open level it closes that level and every one
above, with their counts 0, and the next word is the one after the level's end, without a loop-end step; of a level
that is not open it has no effect. -/
def Obligations.LoopsAndNextWord : Prop :=
  (∀ q : Seq, (q.slot ≠ .taken → q.lact = 0 → (q.next).1 = { q with pc := q.npc, npc := q.npc + 4, slot := .none }) ∧
    (q.slot = .taken → (q.next).1 = { q with pc := q.npc, npc := q.npc + 4, slot := .none }) ∧
    (q.lact = 0 → q.untaken.1 = { q with pc := q.npc, npc := q.npc + 4, slot := .untaken }) ∧
    ∀ a, (q.taken a).next.1 = { q with pc := a, npc := a + 4, slot := .none }) ∧
  (∀ q : Seq, q.slot ≠ .taken →
    let r := (q.next).1
    ((∀ k : Fin 4, endsHere q k → (q.loops[k.val]).lc = 1) → r.pc = q.npc ∧ r.npc = q.npc + 4) ∧
    ∀ k : Fin 4, let l := q.loops[k.val]
      (reached q k → l.lc ≠ 1 → r.pc = l.lb ∧ r.npc = l.lb + 4 ∧ r.lact.getLsbD k.val = true) ∧
      (reached q k → l.lc = 1 → r.lact.getLsbD k.val = false) ∧
      (reached q k → r.loops[k.val] = { l with lc := l.lc - 1 }) ∧
      (¬reached q k → r.loops[k.val] = l ∧ r.lact.getLsbD k.val = q.lact.getLsbD k.val)) ∧
  (∀ (x : LoopArgs) (s : State), Ready s (.loop x) x.g [x.d] →
    let q := (me s).seq
    let n := (me s).gval x.d
    let last := q.pc + x.last.setWidth 48 * 4
    let l : LoopLevel := { lb := q.pc + 8, le := last, lc := n }
    let kept (t : State) : Prop := KeptRegs s t ∧ t.mem = s.mem ∧ t.disp = s.disp ∧ SameBytes s t ∧ SameUnits (me s) (me t)
    (q.lact.toNat < 2 ^ x.k.val → n ≠ 0 → ∃ t, exec (.loop x) s = .next t ∧ kept t ∧
      (me t).seq = (Seq.untaken { q with loops := q.loops.set x.k.val l, lact := setBit q.lact x.k.val true }).1) ∧
    (q.lact.toNat < 2 ^ x.k.val → n = 0 → ∃ t, exec (.loop x) s = .next t ∧ kept t ∧
      (me t).seq = { q with loops := q.loops.set x.k.val l, pc := q.npc, npc := last + 4, slot := .taken }) ∧
    (2 ^ x.k.val ≤ q.lact.toNat → exec (.loop x) s = .next (s.raise s.sched.cur (.loop x) cLoopNest 0))) ∧
  decode 0x18000009 = .ok (.lbrk ⟨⟨false, 0⟩, 1⟩) ∧
  ∀ (x : LevelArgs) (s : State),
    (x.g.wf = true → (me s).seq.slot ≠ .none → exec (.lbrk x) s = .next (s.raise s.sched.cur (.lbrk x) cBranchInSlot 0)) ∧
    (Ready s (.lbrk x) x.g [] → (me s).seq.lact.getLsbD x.k.val = true → ∃ t, exec (.lbrk x) s = .next t ∧
      (me t).seq.pc = (me s).seq.loops[x.k.val].le + 4 ∧ (me t).seq.npc = (me s).seq.loops[x.k.val].le + 8 ∧
      (me t).seq.slot = .none ∧
      (∀ j : Fin 4, (me t).seq.lact.getLsbD j.val = (decide (j < x.k) && (me s).seq.lact.getLsbD j.val)) ∧
      (∀ j : Fin 4, (me t).seq.loops[j.val] =
        if x.k ≤ j then { (me s).seq.loops[j.val] with lc := 0 } else (me s).seq.loops[j.val]) ∧
      KeptRegs s t ∧ t.mem = s.mem ∧ t.disp = s.disp ∧ SameBytes s t ∧ SameUnits (me s) (me t)) ∧
    (Ready s (.lbrk x) x.g [] → (me s).seq.lact.getLsbD x.k.val = false →
      ∃ t, exec (.lbrk x) s = .next t ∧ Advanced s t ∧ KeptRegs s t)

/-- R294, R341: NOP has no effect other than its issue cycle. HALT with an empty operand log, no command outstanding
and nothing left for its release to drain halts the thread, whose registers keep their values. YIELD with no request
has no effect beyond its issue cycle; with one and an empty operand log it issues and the cell stops, its frame to be
coded YIELD; from which cycle the stop counts is the model's choice (log 92). -/
def Obligations.NopHaltYield : Prop :=
  (∀ (g : Guard) (s : State), Ready s (.nop g) g [] → ∃ t, exec (.nop g) s = .next t ∧ Advanced s t ∧ KeptRegs s t) ∧
  (∀ (g : Guard) (s : State), Ready s (.halt g) g [] → (me s).seq.log = [] → s.enginesIdle s.sched.cur = true →
    s.released s.sched.cur = true →
    ∃ t, exec (.halt g) s = .next t ∧ (me t).halted = true ∧ (me t).seq = (me s).seq ∧ t.mem = s.mem ∧ t.disp = s.disp ∧
      SameBytes s t ∧ (∀ n, n ≠ s.sched.cur → t.cell n = s.cell n)) ∧
  decode 0x1c000000 = .ok (.yield ⟨false, 0⟩) ∧
  ∀ (g : Guard) (s : State), Ready s (.yield g) g [] →
    ((me s).seq.yreq = false → ∃ t, exec (.yield g) s = .next t ∧ Advanced s t ∧ KeptRegs s t) ∧
    ((me s).seq.yreq = true → (me s).seq.log = [] → (me s).stop = none → ∃ t, exec (.yield g) s = .next t ∧
      (me t).stop = some { code := cYield, cycle := s.sys.cycle + if (me s).fired then 1 else 0 } ∧ (me t).seq = (me s).seq.next.1 ∧ (me t).wcb = [] ∧
      SameBytes s t)

/-! ### Traps and the system instructions -/

/-- R80, R81, R215, R340: TRAP and BKPT complete and are then taken: with a handler outside any other, TRAPCAUSE,
TRAPINFO, the word's address and that of its successor are set, INTRAP is set and issue goes on at TRAPVEC; otherwise,
with the operand log empty and no ARITH due, a fatal record of the cause, the word and its address is made for the
trap queue and the cell stops after the instruction. Their words are those of R340. That the kind of the slot is kept
beside TRAPPC (log 32), and from which cycle the stop counts (log 92), is the model's. -/
def Obligations.SoftwareTraps : Prop :=
  decode 0x48000005 = .ok (.trap ⟨⟨false, 0⟩, 5⟩) ∧ decode 0x48020010 = .ok (.bkpt ⟨⟨false, 0⟩, 0x10⟩) ∧
  (∀ x : CodeArgs, x.g.wf = true →
    decode (BitVec.ofNat 32 (0x12 * 2 ^ 26 + x.g.code * 2 ^ 22 + x.code.toNat)) = .ok (.trap x) ∧
    decode (BitVec.ofNat 32 (0x12 * 2 ^ 26 + x.g.code * 2 ^ 22 + 2 ^ 17 + x.code.toNat)) = .ok (.bkpt x)) ∧
  ∀ p ∈ [(Instr.trap, cSwTrap), (Instr.bkpt, cBkpt)], ∀ (x : CodeArgs) (s : State), Ready s (p.1 x) x.g [] →
    let q := (me s).seq
    (q.trap.vec ≠ 0 → q.intrap = false → ∃ t, exec (p.1 x) s = .next t ∧
      (me t).seq = { q.next.1 with
        trap := { vec := q.trap.vec, pc := q.pc, npc := q.next.1.pc, done := true, reg := false, slot := 0, cause := p.2,
                  info := x.code.setWidth 64, kind := some .none }
        intrap := true, pc := q.trap.vec, npc := q.trap.vec + 4, slot := .none } ∧
      t.mem = s.mem ∧ t.disp = s.disp ∧ SameBytes s t ∧ SameUnits (me s) (me t) ∧ Elsewhere s.sched.cur s t) ∧
    (q.trap.vec = 0 ∨ q.intrap = true → (me s).stop = none → q.log = [] → (me s).fpLanded = [] → q.arith = none →
      ∃ t r, exec (p.1 x) s = .next t ∧ (me t).seq = q.next.1 ∧ SameBytes s t ∧
        (me t).stop = some { code := p.2, cycle := s.sys.cycle + (if (me s).fired then 1 else 0), atSeq := true } ∧
        (t.fn q.id.vfid.toNat).found = (s.fn q.id.vfid.toNat).found ++ [r] ∧ r.cause = p.2 ∧ r.cls = 0 ∧
        r.vf = q.id.vfid ∧ r.cell = BitVec.ofNat 15 s.sched.cur ∧ r.pc = q.pc ∧ r.opword = (wordOf (p.1 x)).setWidth 64)

/-- R81, R342: MISALIGN with a handler sets TRAPPC to the instruction that has no effect, TRAPNPC to its successor,
DONE 0 and TRAPINFO to the address; every other precise cause, and MISALIGN inside a handler or without one, stops the
cell, with the operand log empty and no ARITH due at that instruction. TRET in a handler clears INTRAP and goes on at
TRAPNPC when the trapped instruction had completed, else at TRAPPC with TRAPNPC as its successor; outside a handler it
is ILL_OPERAND. That the kind of the slot is kept beside TRAPPC (log 32), and from which cycle a stop counts (log 92),
is the model's. -/
def Obligations.PreciseCausesAndReturn : Prop :=
  (∀ (s : State) (i : Instr) (cause : Cause) (info : Word), let q := (me s).seq
    (cause = cMisalign → q.trap.vec ≠ 0 → q.intrap = false →
      let t := s.raise s.sched.cur i cause info
      (me t).seq = { q with
        trap := { vec := q.trap.vec, pc := q.pc, npc := q.npc, done := false, reg := false, slot := 0, cause := cause,
                  info := info, kind := some q.slot }
        intrap := true, pc := q.trap.vec, npc := q.trap.vec + 4, slot := .none } ∧
      t.mem = s.mem ∧ SameBytes s t ∧ SameUnits (me s) (me t)) ∧
    ((cause ≠ cMisalign ∧ cause ≠ cArith) ∨ q.trap.vec = 0 ∨ q.intrap = true → q.log = [] → (me s).fpLanded = [] →
      q.arith = none → (me s).stop = none →
      let t := s.raise s.sched.cur i cause info
      (me t).stop = some { code := cause, cycle := s.sys.cycle + (if (me s).fired then 1 else 0), atSeq := true } ∧
      (me t).seq = q ∧ SameBytes s t)) ∧
  decode 0x1c000001 = .ok (.tret ⟨false, 0⟩) ∧
  ∀ (g : Guard) (s : State), Ready s (.tret g) g [] →
    let q := (me s).seq
    (q.intrap = true → ∃ t, exec (.tret g) s = .next t ∧ (me t).seq.intrap = false ∧ (me t).seq.trap = q.trap ∧
      (q.trap.done = true → (me t).seq.pc = q.trap.npc ∧ (me t).seq.npc = q.trap.npc + 4) ∧
      (q.trap.done = false → (me t).seq.pc = q.trap.pc ∧ (me t).seq.npc = q.trap.npc) ∧
      KeptRegs s t ∧ t.mem = s.mem ∧ t.disp = s.disp ∧ SameBytes s t ∧ SameUnits (me s) (me t)) ∧
    (q.intrap = false → exec (.tret g) s = .next (s.raise s.sched.cur (.tret g) cIllOperand 0))

/-- R345: TRACE emits MARK with the low 45 bits of its source while FN, EN and MARK are all 1, and otherwise has no
effect. R227, R346: INVT begins a shootdown of the cell's ASID, of all its addresses or of the range it names, and
waits; it completes at once for a range of no bytes, and once its shootdown has completed. -/
def Obligations.TraceAndInvalidate : Prop :=
  (decode 0x1c0a0002 = .ok (.trace ⟨⟨false, 0⟩, 5⟩) ∧
  ∀ (x : SrcArgs) (s : State), Ready s (.trace x) x.g [x.a] →
    let q := (me s).seq
    let c := s.sched.cur
    let d := s.die (c / 1600)
    ((q.traceFn && q.traceEn && q.traceMark) = true → (me s).trace.bits = [] → tget 0 d.lost c = 0 →
      d.trace.length < 4096 → q.lact = 0 →
      ∃ t, exec (.trace x) s = .next t ∧ Advanced s t ∧ KeptRegs s t ∧
        (t.die (c / 1600)).trace = d.trace ++
          [(q.id.vfid, BitVec.ofNat 64 (8 * 2 ^ 60 + c * 2 ^ 45 + ((me s).gval x.a).toNat % 2 ^ 45))]) ∧
    ((q.traceFn && q.traceEn && q.traceMark) = false → q.lact = 0 →
      ∃ t, exec (.trace x) s = .next t ∧ Advanced s t ∧ KeptRegs s t ∧ (t.die (c / 1600)).trace = d.trace)) ∧
  ∀ (x : Src2Args) (s : State), Ready s (.invt x) x.g [x.a, x.b] →
    let a := (me s).gval x.a
    let b := (me s).gval x.b
    let begun (r : Option (Nat × Nat)) : Prop := ∃ t, exec (.invt x) s = .next t ∧ (me t).freeze = .wait ∧
      tfind t.mem.shoots s.mem.nextShoot = some { asid := (me s).seq.id.asid, range := r } ∧ SameBytes s t
    ((me s).freeze = .none → x.b = 0 → begun none) ∧
    ((me s).freeze = .none → x.b ≠ 0 → a.toNat < 2 ^ 48 → b ≠ 0 → begun (some (a.toNat, a.toNat + b.toNat))) ∧
    ((me s).freeze = .none → x.b ≠ 0 → a.toNat < 2 ^ 48 → b = 0 →
      ∃ t, exec (.invt x) s = .next t ∧ Advanced s t ∧ KeptRegs s t) ∧
    (∀ n, (me s).freeze = .wait → (me s).hold = [3, n] → tfind s.mem.shoots n.toNat = none →
      ∃ t, exec (.invt x) s = .next t ∧ Advanced s t ∧ KeptRegs s t)

/-- R77 to R86, R343: CRD writes the control register that it names, whose fields stand where R79 to R86 put them, and
FATAL outside firmware is PRIV. A control register that CWR may write reads back the writable fields of the value and
its other fields as they were; of STATUS only INTRAP is written; a register that it may not write is PRIV, as are
ERRINJ outside test mode and firmware and FATAL outside firmware; a reserved rounding code or class is ILL_OPERAND. -/
def Obligations.ControlRegisters : Prop :=
  (∀ (x : CtlArgs) (s : State), Ready s (.crd x) x.g [] → NoInjection s →
    (x.n ≠ 0x021 ∨ (me s).seq.fw = true →
      ∃ t, exec (.crd x) s = .next t ∧ Wrote s t x.r (s.ctlRead s.sched.cur x.n.toNat)) ∧
    (x.n = 0x021 → (me s).seq.fw = false → exec (.crd x) s = .next (s.raise s.sched.cur (.crd x) cPriv 0))) ∧
  (∀ (s : State) (c : Nat), let x := s.cell c; let q := x.seq; let r (n : Nat) : Word := s.ctlRead c n
    let per (f : Region → Bool) : Nat :=
      (f x.region[0]).toNat + 2 * (f x.region[1]).toNat + 4 * (f x.region[2]).toNat + 8 * (f x.region[3]).toNat
    (q.log.length ≤ 8 → (r 0x000).toNat = q.intrap.toNat + 2 * q.fw.toNat + 4 * q.testm.toNat + 16 * q.lact.toNat +
      256 * per (fun g => g.state == .running || g.state == .held) + 4096 * per (·.conf) + 65536 * q.log.length) ∧
    (r 0x001 = q.trap.vec.setWidth 64 ∧ r 0x002 = q.trap.pc.setWidth 64 ∧ r 0x003 = q.trap.npc.setWidth 64 ∧
      (r 0x004).toNat = q.trap.cause.toNat + 256 * q.trap.slot.toNat + 1024 * q.trap.reg.toNat + 2048 * q.trap.done.toNat ∧
      r 0x005 = q.trap.info ∧ (r 0x006).toNat = q.fp.sticky.toNat + 256 * q.fp.enable.toNat ∧
      (r 0x007).toNat = q.fp.mode.toNat + 8 * q.fp.ftz.toNat ∧
      (r 0x008).toNat = q.traceEn.toNat + 2 * q.traceMark.toNat + 256 * q.traceFn.toNat) ∧
    (r 0x010 = q.id.asid.setWidth 64 ∧ r 0x011 = q.id.vfid.setWidth 64 ∧ r 0x012 = q.id.cellid.setWidth 64 ∧
      (r 0x013).toNat = q.id.origin.toNat + q.id.rank.toNat * 2 ^ 32 ∧ r 0x014 = q.id.gangshape ∧
      r 0x015 = q.id.codebase.setWidth 64 ∧ r 0x016 = q.id.codelen.setWidth 64 ∧ r 0x017 = q.id.ctxtab.setWidth 64 ∧
      (r 0x018).toNat = q.yreq.toNat ∧ r 0x019 = q.ydeadline.setWidth 64 ∧
      ∀ j : Fin 4, r (0x01c + j.val) = q.id.gangbm[j.val]) ∧
    (r 0x020).toNat = q.errinj.arm.toNat + 4 * q.errinj.pe.toNat + 16 * q.errinj.lane.toNat + 256 * q.errinj.cls.toNat +
      4096 * q.errinj.seq.toNat ∧ r 0x021 = (s.fn q.id.vfid.toNat).fatal) ∧
  ∀ (x : CtlArgs) (s : State), Ready s (.cwr x) x.g [x.r] →
    let v := (me s).gval x.r
    let c := s.sched.cur
    let masks : List (Nat × Word) := [(0x001, 0xfffffffffffc), (0x002, 0xfffffffffffc), (0x003, 0xfffffffffffc),
      (0x004, 0xfff), (0x005, 0xffffffffffffffff), (0x006, 0xf0f), (0x007, 0xb), (0x008, 3), (0x020, 0x1f3d),
      (0x021, 0xc0000fff007fffff)]
    (∀ m ∈ masks, x.n.toNat = m.1 → (x.n = 0x007 → v.toNat % 8 < 4) →
      (x.n = 0x020 → v.toNat / 256 % 16 < 13 ∧ ((me s).seq.testm = true ∨ (me s).seq.fw = true)) →
      (x.n = 0x021 → (me s).seq.fw = true) →
      ∃ t, exec (.cwr x) s = .next t ∧ MovedOn s t ∧
        t.ctlRead c m.1 = (v &&& m.2) ||| (if m.1 = 0x008 then s.ctlRead c m.1 &&& 0x100 else 0) ∧
        (∀ r, (me t).greg r = (me s).greg r) ∧ t.mem = s.mem ∧ SameBytes s t) ∧
    (x.n = 0x000 → ∃ t, exec (.cwr x) s = .next t ∧
      (me t).seq = { (me s).seq.next.1 with intrap := v.getLsbD 0 } ∧ t.mem = s.mem ∧ SameBytes s t) ∧
    (x.n = 0x007 → 4 ≤ v.toNat % 8 → exec (.cwr x) s = .next (s.raise c (.cwr x) cIllOperand 0)) ∧
    (0x010 ≤ x.n.toNat → x.n.toNat ≤ 0x01f → exec (.cwr x) s = .next (s.raise c (.cwr x) cPriv 0)) ∧
    (x.n = 0x020 → (me s).seq.testm = false → (me s).seq.fw = false →
      exec (.cwr x) s = .next (s.raise c (.cwr x) cPriv 0)) ∧
    (x.n = 0x020 → 13 ≤ v.toNat / 256 % 16 → (me s).seq.testm = true ∨ (me s).seq.fw = true →
      exec (.cwr x) s = .next (s.raise c (.cwr x) cIllOperand 0)) ∧
    (x.n = 0x021 → (me s).seq.fw = false → exec (.cwr x) s = .next (s.raise c (.cwr x) cPriv 0))

/-- R241, R242, R244, R344: TIME writes the counter that it names, the error counters for firmware alone; TIME.SET sets
what its counter holds at the end of the cycle. Selector 0x00 is DTIME, 0x01 CCYC, 0x04 to 0x07 the RC of a region slot,
0x10 to 0x17 a count, 0x18 to 0x1f an event select with its fields where R242 puts them, 0x20 to 0x23 an error counter of
the cell. -/
def Obligations.CounterInstructions : Prop :=
  (∀ (x : TimeArgs) (s : State), Ready s (.time x) x.g [] → NoInjection s →
    (x.sel.toNat < 0x20 ∨ (me s).seq.fw = true →
      ∃ t, exec (.time x) s = .next t ∧ Wrote s t x.r (s.counter s.sched.cur x.sel.toNat)) ∧
    (0x20 ≤ x.sel.toNat → (me s).seq.fw = false → exec (.time x) s = .next (s.raise s.sched.cur (.time x) cPriv 0))) ∧
  (∀ (c : Nat) (s : State), let y := s.cell c
    s.counter c 0x00 = s.sys.devtime ∧ s.counter c 0x01 = y.ccyc ∧
    (∀ k : Fin 4, s.counter c (0x04 + k.val) = (y.region[k.val]).rc.setWidth 64) ∧
    (∀ k : Fin 8, s.counter c (0x10 + k.val) = y.pmc[k.val] ∧ let e := y.psel[k.val]
      (s.counter c (0x18 + k.val)).toNat = e.event.toNat + 512 * e.rsel.toNat + 1024 * e.rslot.toNat + 4096 * e.en.toNat) ∧
    s.counter c 0x20 = y.ec.spad.setWidth 64 ∧ s.counter c 0x21 = y.ec.icp.setWidth 64 ∧
    s.counter c 0x22 = y.ec.dcp.setWidth 64 ∧ s.counter c 0x23 = y.ec.resid.setWidth 64) ∧
  ∀ (x : TimeArgs) (s : State), Ready s (.timeSet x) x.g [x.r] →
    let v := (me s).gval x.r
    (x.sel.toNat < 0x18 → ∃ t, exec (.timeSet x) s = .next t ∧
      Left s t { me s with timeSet := some (x.sel, v) } ∧ t.mem = s.mem ∧ t.disp = s.disp ∧
      ((me s).bound.isSome = true → ((me t).endCycle).pmc[(Fin.ofNat 8 x.sel.toNat).val] = v)) ∧
    (0x18 ≤ x.sel.toNat → x.sel.toNat < 0x20 → pselOk v = true → ∃ t, exec (.timeSet x) s = .next t ∧
      Left s t { me s with timeSet := some (x.sel, v) } ∧ t.mem = s.mem ∧ t.disp = s.disp ∧
      ((me s).bound.isSome = true → ((me t).endCycle).psel[(Fin.ofNat 8 x.sel.toNat).val].word = v)) ∧
    (0x20 ≤ x.sel.toNat → exec (.timeSet x) s = .next (s.raise s.sched.cur (.timeSet x) cPriv 0))

/-! ### Memory instructions -/

/-- R108, R303: LDS enters its bytes into the operand log with latency 3, and STS writes its low bytes, little-endian,
and no other byte of the machine. R124, R299, R302: an access on a path its instruction does not take is ADDR_ILLEGAL,
and one off its alignment MISALIGN, in that order, with the address; the instruction has no effect. -/
def Obligations.ScratchpadAccesses : Prop :=
  (∀ (x : SpadArgs) (s : State),
    let n := 2 ^ x.size.val
    let a := (me s).gval x.base + x.imm.signExtend 64 * BitVec.ofNat 64 n
    let o := a.toNat % 2 ^ 19
    a.toNat / 2 ^ 19 = 2 ^ 41 → o % n = 0 → (me s).bankFree 2 (bankOf o) = true →
    (Ready s (.lds x) x.g [x.base] → (me s).seq.log.length < 8 → (me s).spBad o = false →
      ∃ t, exec (.lds x) s = .next t ∧ Entered s t (destG x.r) 3 (BitVec.ofNat 64 (leNat (mread (me s).spad o n))) 0 ∧
        Issued s t ∧ t.mem = s.mem ∧ t.disp = s.disp ∧ SameBytes s t) ∧
    (Ready s (.sts x) x.g [x.base, x.r] → (n = 8 ∨ (me s).spBad o = false) → (me s).spad.wf = true →
      ∃ t, exec (.sts x) s = .next t ∧ Issued s t ∧ KeptRegs s t ∧ t.mem = s.mem ∧ t.disp = s.disp ∧
        (∀ k < n, mget (me t).spad (o + k) = ((me s).gval x.r).extractLsb' (8 * k) 8) ∧
        ∀ b, b < o ∨ o + n ≤ b → mget (me t).spad b = mget (me s).spad b)) ∧
  (∀ (x : SpadArgs) (s : State) (i : Instr) (srcs : List Reg), (i = .lds x ∧ srcs = [x.base] ∨ i = .sts x ∧ srcs = [x.base, x.r]) →
    Ready s i x.g srcs →
    let n := 2 ^ x.size.val
    let a := (me s).gval x.base + x.imm.signExtend 64 * BitVec.ofNat 64 n
    (a.toNat / 2 ^ 19 ≠ 2 ^ 41 → exec i s = .next (s.raise s.sched.cur i cAddrIllegal a)) ∧
    (a.toNat / 2 ^ 19 = 2 ^ 41 → a.toNat % n ≠ 0 → exec i s = .next (s.raise s.sched.cur i cMisalign a))) ∧
  ∀ (p : (GlobArgs → Instr) × Nat) (x : GlobArgs) (s : State),
    (p ∈ loadOps ∧ Ready s (p.1 x) x.g [x.base]) ∨ (p ∈ storeOps ∧ Ready s (p.1 x) x.g [x.base, x.r]) →
    let a := (me s).gval x.base + x.imm.signExtend 64 * BitVec.ofNat 64 p.2
    let legal := a.toNat < 2 ^ 48 ∨ (a.toNat / 2 ^ 41 = 3 * 2 ^ 19 ∧ (me s).seq.fw = true)
    (¬legal → exec (p.1 x) s = .next (s.raise s.sched.cur (p.1 x) cAddrIllegal a)) ∧
    (legal → a.toNat % p.2 ≠ 0 → exec (p.1 x) s = .next (s.raise s.sched.cur (p.1 x) cMisalign a))

/-- R118, R119, R301, R304, R305: a load of weak or cell order of a line that the data cache holds enters its bytes, with
those of the cell's own sound pending stores over them, into the operand log with latency 6, a cell-ordered one once no
store of the line is pending; one that the cache does not hold asks for the line, as every load of block order or
wider does with nothing pending, and enters the bytes once the line has come, or its cause as a late fault; no byte of
memory changes. That the answer of a request ends the freeze in a step of its own is the model's order (log 4). -/
def Obligations.LoadsComplete : Prop :=
  ∀ p ∈ loadOps, ∀ (x : GlobArgs) (s : State), Ready s (p.1 x) x.g [x.base] →
    let a := (me s).gval x.base + x.imm.signExtend 64 * BitVec.ofNat 64 p.2
    let near := x.order = 0 ∧ (∀ e, (me s).wfind (vline a) = some e → e.bad = 0) ∨
      x.order = 1 ∧ (me s).wfind (vline a) = none
    (me s).addrOk [0, 3] a = true → a.toNat % p.2 = 0 → (me s).seq.log.length < 8 →
    (∀ l, (me s).freeze = .none → near → a.toNat < 2 ^ 48 → (me s).dfind (vline a) = some l → l.parityBad = false →
      l.past = false →
      ∃ t, exec (p.1 x) s = .next t ∧ Issued s t ∧ t.mem = s.mem ∧ t.disp = s.disp ∧ SameBytes s t ∧
        Entered s t (destG x.r) 6 (accessVal ((me s).overlay (vline a) l.data) a p.2) 0) ∧
    (∀ id r, (me s).freeze = .mem id → s.req id = some r → r.stage = .done →
      ∃ t, exec (p.1 x) s = .next t ∧ Issued s t ∧ t.mem = { s.mem with reqs := terase s.mem.reqs id } ∧ t.disp = s.disp ∧
        SameBytes s t ∧
        Entered s t (destG x.r) 6
          (accessVal (if r.kind = .fill then (me s).overlay (vline a) r.data else r.data) a p.2) 0) ∧
    (∀ id r f, (me s).freeze = .mem id → s.req id = some r → r.stage = .failed f →
      ∃ t e, exec (p.1 x) s = .next t ∧ Issued s t ∧ t.mem = { s.mem with reqs := terase s.mem.reqs id } ∧ t.disp = s.disp ∧
        SameBytes s t ∧ (me t).seq.log = (me s).seq.log ++ [e] ∧ e.fault = f ∧ e.dest = destG x.r ∧ e.remain = 6 ∧ e.addr = a) ∧
    ((me s).freeze = .none → (near ∧ (me s).dfind (vline a) = none ∨ 2 ≤ x.order.toNat ∧ (me s).wfind (vline a) = none) →
      a.toNat < 2 ^ 48 →
      ∃ t r, exec (p.1 x) s = .next t ∧ (me t).freeze = .mem s.mem.nextReq ∧ t.req s.mem.nextReq = some r ∧
        r.cell = s.sched.cur ∧ r.line = vline a ∧ r.stage = .walk ∧ (r.kind = if x.order.toNat < 2 then .fill else .read) ∧
        (me t).seq = (me s).seq ∧ SameBytes s t)

/-- R119, R305: a weak store merges into the sound entry of its line in the write-combining buffer, or allocates one once
its page is known, and the cell's own weak loads then read its bytes; a store of another order, or on path 0x3, ends once it has
been accepted. A weak store of a line with no entry asks for the line's translation with write permission while the buffer
has room; a store of another order asks its home slice to write its bytes of the line and no others. None of them changes
a byte of memory or a register. -/
def Obligations.StoresComplete : Prop :=
  ∀ p ∈ storeOps, ∀ (x : GlobArgs) (s : State), Ready s (p.1 x) x.g [x.base, x.r] →
    let a := (me s).gval x.base + x.imm.signExtend 64 * BitVec.ofNat 64 p.2
    let v := BitVec.ofNat 64 (((me s).gval x.r).toNat % 256 ^ p.2)
    (me s).addrOk [0, 3] a = true → a.toNat % p.2 = 0 →
    ((me s).freeze = .none → x.order = 0 → a.toNat < 2 ^ 48 → (∃ e, (me s).wfind (vline a) = some e ∧ e.bad = 0) →
      ∃ t, exec (p.1 x) s = .next t ∧ Issued s t ∧ KeptRegs s t ∧ t.mem = s.mem ∧ t.disp = s.disp ∧ SameBytes s t ∧
        ∀ l, accessVal ((me t).overlay (vline a) l) a p.2 = v) ∧
    (∀ id r, (me s).freeze = .mem id → s.req id = some r → r.stage = .done → x.order = 0 → a.toNat < 2 ^ 48 →
      s.pendingWrites s.sched.cur = false → (me s).wfind (vline a) = none →
      ∃ t, exec (p.1 x) s = .next t ∧ Issued s t ∧ KeptRegs s t ∧ t.mem = { s.mem with reqs := terase s.mem.reqs id } ∧
        t.disp = s.disp ∧ SameBytes s t ∧ (∀ l, accessVal ((me t).overlay (vline a) l) a p.2 = v) ∧
        ∃ e, (me t).wcb = (me s).wcb ++ [e] ∧ e.tag = vline a ∧ e.trans = r.trans) ∧
    (∀ id r, (me s).freeze = .mem id → s.req id = some r → r.stage = .done → x.order ≠ 0 ∨ 2 ^ 48 ≤ a.toNat →
      ∃ t, exec (p.1 x) s = .next t ∧ Issued s t ∧ KeptRegs s t ∧ t.mem = { s.mem with reqs := terase s.mem.reqs id } ∧
        t.disp = s.disp ∧ SameBytes s t ∧ (me t).wcb = (me s).wcb) ∧
    ((me s).freeze = .none → a.toNat < 2 ^ 48 → (me s).wfind (vline a) = none →
      let asks (t : State) (r : Req) : Prop := (me t).freeze = .mem s.mem.nextReq ∧ t.req s.mem.nextReq = some r ∧
        r.cell = s.sched.cur ∧ r.line = vline a ∧ r.asid = (me s).seq.id.asid ∧ r.need = 2 ∧ r.stage = .walk ∧
        (me t).seq = (me s).seq ∧ (me t).wcb = (me s).wcb ∧ SameBytes s t
      (x.order = 0 → (me s).wcb.length < 256 → ∃ t r, exec (p.1 x) s = .next t ∧ asks t r ∧ r.kind = .alloc) ∧
      (x.order ≠ 0 → ∃ t r m d, exec (p.1 x) s = .next t ∧ asks t r ∧ r.kind = .write m d false 0 ∧
        (∀ b < 128, m.getLsbD b = decide (a.toNat % 128 ≤ b ∧ b < a.toNat % 128 + p.2)) ∧
        lineBytes d (a.toNat % 128) p.2 = v.toNat))

/-- R306, R307: STR and SIG to a cell of the same gang leave for their target, STR with its data words read and its
signal word last; nothing is written yet, and to a cell of another gang or of none they raise REMOTE_UNBOUND. -/
def Obligations.SignalStoresLeave : Prop :=
  (∀ (x : StrArgs) (s : State), Ready s (.str x) x.g [x.a, x.b, x.c] →
    let ta := (me s).gval x.a
    let sa := (me s).gval x.b
    let n := x.n1.val + 1
    (me s).addrOk [2] ta = true → (me s).addrOk [1] sa = true → sa.toNat % 2 ^ 19 + 8 * n ≤ 2 ^ 19 →
    ta.toNat % 2 ^ 19 + 8 * n + 8 ≤ 2 ^ 19 → ta.toNat % 8 = 0 → sa.toNat % 8 = 0 →
    (s.sameGang s.sched.cur (cellOf ta) = true → (me s).freeze = .none → Readable (me s) (sa.toNat % 2 ^ 19) n →
      ∃ t g, exec (.str x) s = .next t ∧ Issued s t ∧ KeptRegs s t ∧ t.disp = s.disp ∧ SameBytes s t ∧
        t.mem = { s.mem with signals := s.mem.signals ++ [g] } ∧ g.src = s.sched.cur ∧ g.dst = cellOf ta ∧
        g.addr = ta.toNat % 2 ^ 19 ∧ g.sig = false ∧
        g.words = (List.range n).map (fun j => mword (me s).spad (sa.toNat % 2 ^ 19 + 8 * j)) ++ [(me s).gval x.c]) ∧
    (s.sameGang s.sched.cur (cellOf ta) = false → exec (.str x) s = .next (s.raise s.sched.cur (.str x) cRemoteUnbound ta))) ∧
  ∀ (x : SigArgs) (s : State), Ready s (.sig x) x.g [x.base, x.s] →
    let a := (me s).gval x.base + x.imm.signExtend 64 * 8
    (me s).addrOk [2] a = true → a.toNat % 8 = 0 →
    (s.sameGang s.sched.cur (cellOf a) = true →
      ∃ t g, exec (.sig x) s = .next t ∧ Issued s t ∧ KeptRegs s t ∧ t.disp = s.disp ∧ SameBytes s t ∧
        t.mem = { s.mem with signals := s.mem.signals ++ [g] } ∧ g.src = s.sched.cur ∧ g.dst = cellOf a ∧
        g.addr = a.toNat % 2 ^ 19 ∧ g.sig = true ∧ g.words = [(me s).gval x.s]) ∧
    (s.sameGang s.sched.cur (cellOf a) = false → exec (.sig x) s = .next (s.raise s.sched.cur (.sig x) cRemoteUnbound a))

/-- R116, R308, R338: WAITA and LK.WAIT on a word that meets the condition write it at once; on one that does not they
freeze, and write the word that a later bank cycle found to meet it. LK.WAIT with a timeout of 0 gives the timeout form at
once, and with any other freezes with the device time at which it ends; that it ends at the last device time when the sum
does not fit is the model's (log 108). -/
def Obligations.WaitsForWords : Prop :=
  (∀ (x : WaitaArgs) (s : State), Ready s (.waita x) x.g [x.b, x.c] → NoInjection s →
    let a := (me s).gval x.b
    let o := a.toNat % 2 ^ 19
    let w := mword (me s).spad o
    let c := (me s).gval x.c
    let holds := match x.cond with
      | .eq => w = c | .ne => w ≠ c | .gen => c.toNat ≤ w.toNat
      | .done => w.getLsbD 63 = true ∨ w.toNat % 2 ^ 56 = c.toNat % 2 ^ 56
    (∀ v, (me s).freeze = .wait → (me s).hold = [2, v] → ∃ t, exec (.waita x) s = .next t ∧ Wrote s t x.a v) ∧
    ((me s).freeze = .none → a.toNat / 2 ^ 19 = 2 ^ 41 → o % 8 = 0 → Readable (me s) o 1 →
      (holds → ∃ t, exec (.waita x) s = .next t ∧ Issued s t ∧ TookG s t x.a w ∧ t.mem = s.mem ∧ t.disp = s.disp ∧
        SameBytes s t) ∧
      (¬holds → (me s).seq.yreq = false → ∃ t, exec (.waita x) s = .next t ∧ (me t).freeze = .wait ∧
        (me t).hold = [1, BitVec.ofNat 64 o, c, BitVec.ofNat 64 (waitaCode x.cond)] ∧ (me t).seq = (me s).seq ∧
        t.mem = s.mem ∧ SameBytes s t))) ∧
  ∀ (x : Reg3Args) (s : State), Ready s (.lkWait x) x.g [x.a, x.b, x.c] → NoInjection s →
    let a := (me s).gval x.b
    let o := a.toNat % 2 ^ 19
    let w := mword (me s).spad o
    let c := (me s).gval x.a
    (∀ v, (me s).freeze = .wait → (me s).hold = [2, v] → ∃ t, exec (.lkWait x) s = .next t ∧ Wrote s t x.a v) ∧
    ((me s).freeze = .none → a.toNat / 2 ^ 19 = 2 ^ 41 → o % 8 = 0 → Readable (me s) o 1 →
      (w.getLsbD 63 = true ∨ w.toNat % 2 ^ 56 = c.toNat % 2 ^ 56 → ∃ t, exec (.lkWait x) s = .next t ∧ Issued s t ∧
        TookG s t x.a w ∧ t.mem = s.mem ∧ t.disp = s.disp ∧ SameBytes s t) ∧
      (w.getLsbD 63 = false → w.toNat % 2 ^ 56 ≠ c.toNat % 2 ^ 56 → (me s).gval x.c = 0 → ∃ t, exec (.lkWait x) s = .next t ∧
        Issued s t ∧ TookG s t x.a 0x8000000000000064 ∧ t.mem = s.mem ∧ t.disp = s.disp ∧ SameBytes s t) ∧
      (w.getLsbD 63 = false → w.toNat % 2 ^ 56 ≠ c.toNat % 2 ^ 56 → (me s).gval x.c ≠ 0 → s.sys.devtime.toNat < 2 ^ 64 - 1 →
        (me s).seq.yreq = false → (me s).stop = none → ∃ t, exec (.lkWait x) s = .next t ∧ (me t).freeze = .wait ∧
        (me t).hold = [1, BitVec.ofNat 64 o, c, 3,
          BitVec.ofNat 64 (min (s.sys.devtime.toNat + ((me s).gval x.c).toNat) (2 ^ 64 - 1))] ∧
        (me t).seq = (me s).seq ∧ t.mem = s.mem ∧ t.disp = s.disp ∧ SameBytes s t))

/-- R309: CLN and INV with no store of the line pending end at once, INV dropping the cached copy of that line alone;
PREF asks for a line that is not cached, without waiting for it; on path 0x3 none has an effect. R147, R158, R313:
with no memory access in the operand log and nothing left to drain, a fence ends; one with an acquire of block scope
or wider empties the data cache, and any other fence leaves it. -/
def Obligations.CacheAndFences : Prop :=
  (∀ (x : MaintArgs) (s : State), (me s).freeze = .none →
    let a := (me s).gval x.base + x.imm.signExtend 64 * 128
    (a.toNat < 2 ^ 48 →
      (Ready s (.cln x) x.g [x.base] → (me s).wfind (vline a) = none →
        ∃ t, exec (.cln x) s = .next t ∧ Advanced s t ∧ KeptRegs s t) ∧
      (Ready s (.inv x) x.g [x.base] → (me s).wfind (vline a) = none →
        ∃ t, exec (.inv x) s = .next t ∧ t.mem = s.mem ∧ t.disp = s.disp ∧ SameBytes s t ∧
          Left s t { me s with dcache := (me s).dcache.filter fun l =>
            ¬(l.tag = vline a ∧ l.asid = (me s).seq.id.asid) }) ∧
      (Ready s (.pref x) x.g [x.base] → (me s).dfind (vline a) = none →
        ∃ t r, exec (.pref x) s = .next t ∧ Left s t (me s) ∧ t.disp = s.disp ∧ SameBytes s t ∧
          t.req s.mem.nextReq = some r ∧ r.kind = .fill ∧ r.line = vline a ∧ r.cell = s.sched.cur)) ∧
    (a.toNat / 2 ^ 41 = 3 * 2 ^ 19 → (me s).seq.fw = true → ∀ i ∈ [Instr.cln x, .inv x, .pref x], Ready s i x.g [x.base] →
      ∃ t, exec i s = .next t ∧ Advanced s t ∧ KeptRegs s t)) ∧
  ∀ p ∈ [(Instr.fenceAcq, true), (Instr.fenceRel, false), (Instr.fenceFull, true)], ∀ (x : FenceArgs) (s : State),
    Ready s (p.1 x) x.g [] → (me s).memPending = false → s.released s.sched.cur = true →
    ∃ t, exec (p.1 x) s = .next t ∧ t.mem = s.mem ∧ t.disp = s.disp ∧ SameBytes s t ∧
      Left s t (if p.2 = true ∧ 2 ≤ x.scope.toNat then { me s with dcache := [] } else me s)

/-- R119, R310 to R312: an atomic or CAS asks its home slice for its operation, its own pending store of the line
drained and the cached copy gone, and once answered enters the old value into the operand log with latency 6; MWC asks
for a write of its words to one line, whole, and ends once it has been made. -/
def Obligations.AtomicsComplete : Prop :=
  (∀ p ∈ atomicOps, ∀ (x : AmoArgs) (s : State),
    Ready s (p.1 x) x.g (if p.2.1.val = 10 then [x.a, x.b, x.d] else [x.a, x.b]) →
    let a := (me s).gval x.a
    (me s).addrOk [0, 3] a = true → a.toNat % p.2.2 = 0 → (me s).seq.log.length < 8 →
    (∀ id r, (me s).freeze = .mem id → s.req id = some r → r.stage = .done →
      ∃ t, exec (p.1 x) s = .next t ∧ Issued s t ∧ Entered s t (destG x.d) 6 r.old 0 ∧
        t.mem = { s.mem with reqs := terase s.mem.reqs id } ∧ t.disp = s.disp ∧ SameBytes s t) ∧
    ((me s).freeze = .none → a.toNat < 2 ^ 48 → (me s).wfind (vline a) = none →
      ∃ t r, exec (p.1 x) s = .next t ∧ (me t).freeze = .mem s.mem.nextReq ∧ t.req s.mem.nextReq = some r ∧
        r.kind = .atomic p.2.1 (a.toNat % 128) p.2.2 ((me s).gval x.b)
          (if p.2.1.val = 10 then (me s).gval x.d else 0) ∧
        r.line = vline a ∧ r.stage = .walk ∧ (me t).dfind (vline a) = none ∧ (me t).seq = (me s).seq ∧ SameBytes s t)) ∧
  ∀ (x : MwcArgs) (s : State), Ready s (.mwc x) x.g (x.a :: (List.range (x.n1.val + 1)).map fun j => Fin.ofNat 32 (x.gb.val + j)) →
    let a := (me s).gval x.a
    (me s).addrOk [0, 3] a = true → a.toNat % 8 = 0 → a.toNat % 128 + 8 * (x.n1.val + 1) ≤ 128 →
    (∀ id r, (me s).freeze = .mem id → s.req id = some r → r.stage = .done →
      ∃ t, exec (.mwc x) s = .next t ∧ Issued s t ∧ KeptRegs s t ∧ t.mem = { s.mem with reqs := terase s.mem.reqs id } ∧
        t.disp = s.disp ∧ SameBytes s t) ∧
    ((me s).freeze = .none → (me s).wfind (vline a) = none → a.toNat < 2 ^ 48 →
      ∃ t r m d, exec (.mwc x) s = .next t ∧ (me t).freeze = .mem s.mem.nextReq ∧ t.req s.mem.nextReq = some r ∧
        r.kind = .mwc m d ∧ (∀ b < 128, m.getLsbD b = decide (a.toNat % 128 ≤ b ∧ b < a.toNat % 128 + 8 * (x.n1.val + 1))) ∧
        (∀ j ≤ x.n1.val, BitVec.ofNat 64 (lineBytes d (a.toNat % 128 + 8 * j) 8) = (me s).gval (Fin.ofNat 32 (x.gb.val + j))) ∧
        (me t).seq = (me s).seq ∧ SameBytes s t)

/-- R234, R235, R314, R315: the phaser instructions on a phaser of the cell's function. PH.REG adds 1 to the pending count
of its mode and PH.DROP takes 1 off it, a signalling member's drop being its arrival too; either is ILL_OPERAND when the
count and its pending change would leave 0 to 65,535, and every one is with a phaser outside the range. PH.ARR arrives,
PH.WAIT returns once its phase has passed, PH.QRY writes the phase, and PH.AW arrives and returns the phase after the one
in which its arrival was counted, once that has passed, and waits till then without arriving again. An arrival that is the
last one owed advances the phase by one, puts the pending changes into the counts and starts the next phase with none
arrived; one before it is only counted, and at 131,070 none is. What a waiting PH.AW holds is the model's (log 93). -/
def Obligations.PhaserInstructions : Prop :=
  (∀ s : State, s.released s.sched.cur = true → (me s).freeze = .none →
    let c := s.sched.cur
    let owns (v : Word) : Bool := (s.fn (me s).seq.id.vfid.toNat).ownsPhaser (v.toNat % 65536)
    let ph (v : Word) : Phaser := s.phaser (v.toNat % 65536)
    (∀ x : PhModeArgs, let v := (me s).gval x.b
      let sum : Int := if x.mode = 0 then (ph v).nsig + (ph v).dsig
        else if x.mode = 1 then (ph v).nwait + (ph v).dwait else (ph v).nsw + (ph v).dsw
      let pend (d : Int) : Phaser := if x.mode = 0 then { ph v with dsig := (ph v).dsig + d }
        else if x.mode = 1 then { ph v with dwait := (ph v).dwait + d } else { ph v with dsw := (ph v).dsw + d }
      (Ready s (.phReg x) x.g [x.b] → owns v = true →
        (0 ≤ sum + 1 → sum + 1 ≤ 65535 → ∃ t, exec (.phReg x) s = .next t ∧
          t.phaser (v.toNat % 65536) = pend 1 ∧ Left s t (me s) ∧ t.mem = s.mem) ∧
        (sum + 1 < 0 ∨ 65535 < sum + 1 → exec (.phReg x) s = .next (s.raise c (.phReg x) cIllOperand 0))) ∧
      (Ready s (.phDrop x) x.g [x.b] → owns v = true →
        (0 ≤ sum - 1 → sum - 1 ≤ 65535 → ∃ t, exec (.phDrop x) s = .next t ∧
          t.phaser (v.toNat % 65536) = (if x.mode = 1 then pend (-1) else (pend (-1)).arrive) ∧ Left s t (me s) ∧
          t.mem = s.mem) ∧
        (sum - 1 < 0 ∨ 65535 < sum - 1 → exec (.phDrop x) s = .next (s.raise c (.phDrop x) cIllOperand 0))) ∧
      ∀ i ∈ [Instr.phReg x, .phDrop x], Ready s i x.g [x.b] → owns v = false →
        exec i s = .next (s.raise c i cIllOperand 0)) ∧
    (∀ x : SrcArgs, let v := (me s).gval x.a
      Ready s (.phArr x) x.g [x.a] →
        (owns v = true → ∃ t, exec (.phArr x) s = .next t ∧ t.phaser (v.toNat % 65536) = (ph v).arrive ∧ Left s t (me s) ∧
          t.mem = s.mem) ∧
        (owns v = false → exec (.phArr x) s = .next (s.raise c (.phArr x) cIllOperand 0))) ∧
    (∀ x : Src2Args, let v := (me s).gval x.a; let d := ((ph v).phase - ((me s).gval x.b).setWidth 32).toNat
      Ready s (.phWait x) x.g [x.a, x.b] →
        (owns v = true → 1 ≤ d → d < 2 ^ 31 →
          ∃ t, exec (.phWait x) s = .next t ∧ KeptRegs s t ∧ Issued s t ∧ t.mem = s.mem ∧ t.disp = s.disp) ∧
        (owns v = true → d = 0 ∨ 2 ^ 31 ≤ d → ∃ t, exec (.phWait x) s = .next t ∧ (me t).freeze = .wait ∧
          (me t).seq = (me s).seq ∧ t.mem = s.mem) ∧
        (owns v = false → exec (.phWait x) s = .next (s.raise c (.phWait x) cIllOperand 0))) ∧
    ∀ x : DestSrcArgs, let v := (me s).gval x.b; NoInjection s →
      (Ready s (.phAw x) x.g [x.b] → owns v = true → (me s).seq.log.length < 8 →
        ((ph v).nsig + (ph v).nsw = (ph v).arrived + 1 → (ph v).arrived < 131070 →
          ∃ t, exec (.phAw x) s = .next t ∧ t.phaser (v.toNat % 65536) = (ph v).arrive ∧ Issued s t ∧ t.mem = s.mem ∧
            TookG s t x.d (((ph v).phase + 1).setWidth 64)) ∧
        ((ph v).nsig + (ph v).nsw ≠ (ph v).arrived + 1 → (ph v).arrived < 131070 → (me s).seq.yreq = false →
          (me s).stop = none → ∃ t, exec (.phAw x) s = .next t ∧ t.phaser (v.toNat % 65536) = (ph v).arrive ∧
            (me t).freeze = .wait ∧ (me t).seq = (me s).seq ∧ t.mem = s.mem ∧ SameBytes s t ∧
            (me t).hold = [6, (ph v).phase.setWidth 64, BitVec.ofNat 64 (v.toNat % 65536), (wordOf (.phAw x)).setWidth 64])) ∧
      (Ready s (.phQry x) x.g [x.b] → owns v = true →
        ∃ t, exec (.phQry x) s = .next t ∧ Wrote s t x.d ((ph v).phase.setWidth 64)) ∧
      ∀ i ∈ [Instr.phAw x, .phQry x], Ready s i x.g [x.b] → owns v = false →
        exec i s = .next (s.raise c i cIllOperand 0)) ∧
  (∀ (x : DestSrcArgs) (s : State) (u n w : Word), let v := (me s).gval x.b
    let p := s.phaser (v.toNat % 65536)
    let d := (p.phase - u.setWidth 32).toNat
    Ready s (.phAw x) x.g [x.b] → (s.fn (me s).seq.id.vfid.toNat).ownsPhaser (v.toNat % 65536) = true →
    (me s).freeze = .wait → (me s).hold = [6, u, n, w] →
      (1 ≤ d → d < 2 ^ 31 → ∃ t, exec (.phAw x) s = .next t ∧ t.phaser (v.toNat % 65536) = p ∧ Issued s t ∧ t.mem = s.mem ∧
        TookG s t x.d ((u.setWidth 32 + 1).setWidth 64)) ∧
      (d = 0 ∨ 2 ^ 31 ≤ d → (me s).seq.yreq = false → (me s).stop = none → ∃ t, exec (.phAw x) s = .next t ∧
        t.phaser (v.toNat % 65536) = p ∧ (me t).freeze = .wait ∧ (me t).seq = (me s).seq ∧ t.mem = s.mem ∧
        ∃ w', (me t).hold = [6, u, BitVec.ofNat 64 (v.toNat % 65536), w'])) ∧
  ∀ p : Phaser,
    (p.arrived < 131070 → p.arrived + 1 = p.nsig + p.nsw →
      p.arrive = { p with phase := p.phase + 1, arrived := 0, dsig := 0, dwait := 0, dsw := 0,
                          nsig := ((p.nsig : Int) + p.dsig).toNat, nwait := ((p.nwait : Int) + p.dwait).toNat,
                          nsw := ((p.nsw : Int) + p.dsw).toNat }) ∧
    (p.arrived < 131070 → p.arrived + 1 ≠ p.nsig + p.nsw → p.arrive = { p with arrived := p.arrived + 1 }) ∧
    (p.arrived = 131070 → p.nsig + p.nsw = 0 → p.arrive = p)

/-! ### Fabric control -/

/-- R19 to R22, R320, R321: CFG of an image that passes its checks loads slot k and the PEs of its set and empties
every other configured slot whose set overlaps; while a RUNNING region is concerned it waits. An image that fails is
CTX_BAD and a set that R19 does not name REGION_SHAPE, the slot EMPTY and nothing of the image taken. That
REGION_SHAPE leaves the slot EMPTY follows R321 (log 81). -/
def Obligations.RegionConfigure : Prop :=
  ∀ (x : CfgArgs) (s : State), Ready s (.cfg x) x.g [x.a] →
    let c := s.sched.cur
    let a := (me s).gval x.a
    let emptied := s.modCell c fun y => y.setRegion x.k { y.region[x.k.val] with conf := false, state := .empty }
    let busy := ∃ j : Fin 4, ((me s).region[j.val]).state = .running ∧ (j = x.k ∨ ((me s).region[j.val]).peset &&& x.peset ≠ 0)
    (busy → ∃ t, exec (.cfg x) s = .next t ∧ (me t).freeze = .wait ∧ (me t).seq = (me s).seq ∧ t.mem = s.mem ∧
      (me t).region = (me s).region ∧ (me t).pe = (me s).pe) ∧
    (¬busy → x.peset.toNat ∈ [0, 6, 7, 9, 11, 13, 14] →
      exec (.cfg x) s = .next (emptied.raise c (.cfg x) cRegionShape 0)) ∧
    (¬busy → x.peset.toNat ∉ [0, 6, 7, 9, 11, 13, 14] → a.toNat < 2 ^ 48 → a.toNat % 64 = 0 →
      ∀ (h : Nat) (secs : List (Fin 4 × Option Nat)) (u : State),
        s.readImage (c / 1600) (me s).seq.id.asid a.toNat x.peset = (.ok (h, secs), u) → u.cell c = me s →
        (imageOf x.peset h secs = none → exec (.cfg x) s =
          .next ((u.modCell c fun y => y.setRegion x.k { y.region[x.k.val] with conf := false, state := .empty }).raise c
            (.cfg x) cCtxBad 0)) ∧
        (∀ i, imageOf x.peset h secs = some i → ∃ t, exec (.cfg x) s = .next t ∧
          (t.cell c).seq = (me s).seq.next.1 ∧ (t.cell c).freeze = .none ∧ (t.cell c).spad = (me s).spad ∧ t.mem = u.mem ∧
          (t.cell c).region[x.k.val] = { (me s).region[x.k.val] with
            conf := true, peset := x.peset, s := BitVec.ofNat 7 i.s, ii := BitVec.ofNat 6 i.ii, ten := i.ten, ftz := i.ftz,
            rimg := a.setWidth 48, cause := 0, cut := false, state := .ready, pool := i.pool } ∧
          (∀ j : Fin 4, j ≠ x.k → (t.cell c).region[j.val] =
            if ((me s).region[j.val]).conf = true ∧ ((me s).region[j.val]).peset &&& x.peset ≠ 0
            then { (me s).region[j.val] with conf := false, state := .empty } else (me s).region[j.val]) ∧
          ∀ p : Fin 4, (x.peset.getLsbD p.val = false → (t.cell c).pe[p.val] = (me s).pe[p.val]) ∧
            ∀ m, (p, m) ∈ i.pes → (t.cell c).pe[p.val] =
              { (me s).pe[p.val] with rows := m.rows, luts := m.luts, ff := m.ff, ac := m.ac }))

/-- R21, R322: LAUNCH and LAUNCH.PH of a configured slot that is not RUNNING start its region, with the landing slots
and buses of its PEs cleared, and go on; a count above 48 bits, a slot that is not configured or a phaser that is not
the function's is ILL_OPERAND, and a RUNNING region is waited for. R80, R81, R104, R323, R324: LWAIT of a slot that is
not RUNNING writes its status and, when the cause is ARITH and a handler is set, is followed by the trap of that
region; of a RUNNING one it waits. LSTOP of a running region ends its issue at the next iteration boundary. -/
def Obligations.RegionRuns : Prop :=
  (∀ (s : State) (i : Instr) (g : Guard) (k : Fin 4) (a : Reg) (b : Option Reg),
    (i = .launch ⟨g, a, k⟩ ∧ b = none ∨ ∃ r, i = .launchPh ⟨g, a, r, k⟩ ∧ b = some r) → Ready s i g (a :: b.toList) →
    let y := me s
    let n := y.gval a
    let r := y.region[k.val]
    let owned := ∀ q ∈ b, (s.fn y.seq.id.vfid.toNat).ownsPhaser ((y.gval q).toNat % 65536) = true
    (r.conf = false ∨ 2 ^ 48 ≤ n.toNat ∨ ¬owned → exec i s = .next (s.raise s.sched.cur i cIllOperand 0)) ∧
    (r.conf = true → n.toNat < 2 ^ 48 → owned → r.state = .running →
      ∃ t, exec i s = .next t ∧ (me t).freeze = .wait ∧ (me t).region = y.region ∧ (me t).seq = y.seq ∧ t.mem = s.mem) ∧
    (r.conf = true → n.toNat < 2 ^ 48 → owned → r.state ≠ .running →
      ∃ t, exec i s = .next t ∧ Issued s t ∧ KeptRegs s t ∧ t.mem = s.mem ∧ t.disp = s.disp ∧ SameBytes s t ∧
        (me t).region[k.val] = { r with rn := n.setWidth 48, rc := 0, rb := 0, sink := 0, ffl := none,
                                        ph := b.map fun q => (y.gval q).setWidth 16, state := .running, cause := 0,
                                        cut := false, stopRc := none, launchPc := y.seq.pc, delay := 1, relAt := none } ∧
        (∀ j : Fin 4, j ≠ k → (me t).region[j.val] = y.region[j.val]) ∧
        ∀ p : Fin 4, (me t).pe[p.val] =
          if r.peset.getLsbD p.val = true then { y.pe[p.val] with slots := [], bus := {} } else y.pe[p.val])) ∧
  (∀ (x : SlotSrcArgs) (s : State), Ready s (.lwait x) x.g [] →
    let r := (me s).region[x.k.val]
    let code : RState → Nat := fun
      | .empty => 0 | .ready => 1 | .running => 2 | .done => 3 | .failed => 4 | .held => 5
    let v := BitVec.ofNat 64 (r.cause.toNat + code r.state * 256 + r.cut.toNat * 2048 + r.rc.toNat % 2 ^ 48 * 65536)
    (r.state = .running → ∃ t, exec (.lwait x) s = .next t ∧ (me t).freeze = .wait ∧ (me t).seq = (me s).seq ∧
      t.mem = s.mem) ∧
    (r.state ≠ .running → r.cause ≠ cArith → NoInjection s → ∃ t, exec (.lwait x) s = .next t ∧ Wrote s t x.a v) ∧
    (r.state ≠ .running → r.cause = cArith → NoInjection s → (me s).seq.trap.vec ≠ 0 → (me s).seq.intrap = false →
      ∃ t, exec (.lwait x) s = .next t ∧ TookG s t x.a v ∧ (me t).seq.intrap = true ∧
        (me t).seq.pc = (me s).seq.trap.vec ∧ (me t).seq.trap.cause = cArith ∧ (me t).seq.trap.reg = true ∧
        (me t).seq.trap.done = true ∧ (me t).seq.trap.slot = BitVec.ofNat 2 x.k.val ∧ (me t).seq.trap.pc = (me s).seq.pc ∧
        (me t).seq.trap.npc = (me s).seq.next.1.pc ∧ SameBytes s t)) ∧
  ∀ (x : LevelArgs) (s : State), Ready s (.lstop x) x.g [] →
    let r := (me s).region[x.k.val]
    let now := r.rc.toNat + (if r.delay = 0 then 1 else 0)
    ∃ t, exec (.lstop x) s = .next t ∧ Issued s t ∧ KeptRegs s t ∧ t.mem = s.mem ∧ t.disp = s.disp ∧ SameBytes s t ∧
      (me t).pe = (me s).pe ∧ (∀ j : Fin 4, j ≠ x.k → (me t).region[j.val] = (me s).region[j.val]) ∧
      (r.state ≠ .running ∨ r.endAt ≤ r.rc.toNat → (me t).region[x.k.val] = r) ∧
      (r.state = .running → r.rc.toNat < r.endAt → r.ii ≠ 0 →
        ∃ n, (me t).region[x.k.val] = { r with stopRc := some n } ∧ n ≤ r.endAt ∧
          (n = r.endAt ∨ n % r.ii.toNat = 0 ∧ now ≤ n ∧ n < now + r.ii.toNat))

/-- R99, R106, R325, R326: ACSET, CSET.SEED, CSET.TEN, CSET.CLR and VSET write their item of a slot that is neither
RUNNING nor HELD, and of a PE of its set; VGET enters the item it names into the operand log with latency 2, or as a late
MC_RESIDUE when its residues are wrong. On any other slot or PE, and for an item that does not exist, they are
ILL_OPERAND. That no injection takes VGET's result is the model's choice (log 13). -/
def Obligations.RegionItems : Prop :=
  ∀ s : State, let y := me s; let c := s.sched.cur
    let free (k : Fin 4) : Prop := (y.region[k.val]).state ≠ .running ∧ (y.region[k.val]).state ≠ .held
    let open_ (k p : Fin 4) : Prop := free k ∧ (y.region[k.val]).peset.getLsbD p.val = true
    let wrote (i : Instr) (z : CellSt) : Prop := ∃ t, exec i s = .next t ∧ Left s t z ∧ t.mem = s.mem ∧ t.disp = s.disp
    let stops (i : Instr) : Prop := exec i s = .next (s.raise c i cIllOperand 0)
    (∀ x : AcsetArgs, Ready s (.acset x) x.g [x.a, x.b] → let e := y.pe[x.pe.val]
      (¬open_ x.k x.pe → stops (.acset x)) ∧
      (open_ x.k x.pe → (y.gval x.a).toNat % 2 ^ 48 / 2 ^ 32 ≠ 0 → (y.gval x.a).toNat / 2 ^ 19 % 2 ^ 13 = 0 →
        (y.gval x.a).toNat / 2 ^ 48 = 0 → (y.gval x.b).toNat / 2 ^ 20 % 2 ^ 12 = 0 → (y.gval x.b).toNat / 2 ^ 52 = 0 →
        let m : AddrCtr := { base := (y.gval x.a).extractLsb' 0 19, n0 := (y.gval x.a).extractLsb' 32 16,
                             s0 := (y.gval x.b).extractLsb' 0 20, s1 := (y.gval x.b).extractLsb' 32 20 }
        wrote (.acset x) (y.setPe x.pe { e with ac := e.ac.set x.n.val m }))) ∧
    (∀ x : SeedArgs, Ready s (.csetSeed x) x.g [x.a] → let e := y.pe[x.pe.val]
      (¬open_ x.k x.pe → stops (.csetSeed x)) ∧
      (open_ x.k x.pe → wrote (.csetSeed x) (y.setPe x.pe
        { e with xs := if (y.gval x.a).setWidth 32 = (0 : BitVec 32) then 1 else (y.gval x.a).setWidth 32 }))) ∧
    (∀ x : SlotSrcArgs, Ready s (.csetTen x) x.g [x.a] → let r := y.region[x.k.val]
      (¬free x.k → stops (.csetTen x)) ∧
      (free x.k → wrote (.csetTen x) (y.setRegion x.k { r with ten := (y.gval x.a).setWidth 4 }))) ∧
    (∀ x : LevelArgs, Ready s (.csetClr x) x.g [] → let r := y.region[x.k.val]
      (¬free x.k → stops (.csetClr x)) ∧
      (free x.k → wrote (.csetClr x) (y.setRegion x.k { r with sink := 0, ffl := none }))) ∧
    (∀ (x : SlotSrc2Args) (p : Fin 4) (n : Fin 64), Ready s (.vset x) x.g [x.a, x.b] → let e := y.pe[p.val]; let o := e.v[n.val]
      let took (q : FVal) : Prop := wrote (.vset x) (y.setPe p { e with v := e.v.set n.val q })
      ((y.gval x.b).toNat = p.val * 65536 + n.val →
        (open_ x.k p → took { o with data := y.gval x.a, res := resOf (y.gval x.a) }) ∧ (¬open_ x.k p → stops (.vset x))) ∧
      ((y.gval x.b).toNat = p.val * 65536 + 256 + n.val →
        (open_ x.k p → took { o with p := (y.gval x.a).getLsbD 4, flags := (y.gval x.a).setWidth 4 }) ∧
        (¬open_ x.k p → stops (.vset x))) ∧
      (2 ^ 18 ≤ (y.gval x.b).toNat ∨ (y.gval x.b).toNat / 256 % 256 ∉ [0, 1] ∨ 64 ≤ (y.gval x.b).toNat % 256 →
        stops (.vset x))) ∧
    (∀ x : SlotSrc2Args, Ready s (.vget x) x.g [x.b] → let v := (y.gval x.b).toNat
      let kind := v / 256 % 256
      let idx := v % 256
      2 ^ 18 ≤ v ∨ 5 < kind ∨ (kind ≤ 2 ∧ 64 ≤ idx) ∨ (kind = 3 ∧ 8 ≤ idx) ∨ (kind = 4 ∧ (32 ≤ idx ∨ 12 ≤ idx % 16)) ∨
        (kind = 5 ∧ 5 ≤ idx) ∨ ¬open_ x.k (Fin.ofNat 4 (v / 65536)) → stops (.vget x)) ∧
    ∀ (x : SlotSrc2Args) (p : Fin 4) (n : Fin 64), Ready s (.vget x) x.g [x.b] → y.seq.log.length < 8 → open_ x.k p →
      let e := y.pe[p.val]
      let o := e.v[n.val]
      let reads (k : Nat) (v : Word) : Prop := (y.gval x.b).toNat = p.val * 65536 + k →
        ∃ t, exec (.vget x) s = .next t ∧ Logged s t (destG x.a) 2 v 0
      (srcBad o.data o.res = none → reads n.val o.data) ∧
      (srcBad o.data o.res ≠ none → (y.gval x.b).toNat = p.val * 65536 + n.val →
        ∃ t l, exec (.vget x) s = .next t ∧ Issued s t ∧ (me t).seq.log = y.seq.log ++ [l] ∧ l.fault = cMcResidue ∧
          l.remain = 2 ∧ l.dest = destG x.a ∧ (me t).seq.g = y.seq.g ∧ t.mem = s.mem) ∧
      reads (256 + n.val) (BitVec.ofNat 64 (o.p.toNat * 16 + o.flags.toNat)) ∧
      reads (2 * 256 + n.val) (((e.acc[n.val / 8]).data.extractLsb' (32 * (n.val % 8)) 32).setWidth 64) ∧
      (∀ m : Fin 8, reads (3 * 256 + m.val) (BitVec.ofNat 64 ((e.acc[m.val]).int.toNat * 16 + (e.acc[m.val]).flags.toNat))) ∧
      (∀ (b : Fin 2) (m : Fin 8), reads (4 * 256 + 16 * b.val + m.val) (e.bank[b.val]).elem[m.val]) ∧
      (∀ b h : Fin 2, reads (4 * 256 + 16 * b.val + 8 + h.val) (BitVec.ofNat 64
        ((List.range 4).map fun j => (((e.bank[b.val]).rsc[(Fin.ofNat 8 (4 * h.val + j)).val]).toNat * 2 ^ (16 * j))).sum)) ∧
      (∀ b : Fin 2, reads (4 * 256 + 16 * b.val + 10) ((e.bank[b.val]).t.setWidth 64) ∧
        reads (4 * 256 + 16 * b.val + 11) ((e.bank[b.val]).fmt.setWidth 64)) ∧
      reads (5 * 256) (e.xs.setWidth 64) ∧ reads (5 * 256 + 1) (e.ff.setWidth 64) ∧
      reads (5 * 256 + 2) (BitVec.ofNat 64 e.act.toNat) ∧
      (srcBad e.bus.data e.bus.res = none → reads (5 * 256 + 3) e.bus.data) ∧
      reads (5 * 256 + 4) (BitVec.ofNat 64 (e.bus.p.toNat * 16 + e.bus.flags.toNat))

/-! ### Engines and queues -/

/-- R330: CP.QRY writes how many queue entries are in use and the PROGRESS of the command executing, without waiting.
-/
def Obligations.CopyQuery : Prop :=
  ∀ (x : SrcArgs) (s : State), Ready s (.cpQry x) x.g [] → NoInjection s →
    let q := (me s).copyq
    ∃ t v, exec (.cpQry x) s = .next t ∧ Wrote s t x.a v ∧
      (q.length ≤ 4 → (v.extractLsb' 0 3).toNat = q.length ∧ v.extractLsb' 3 5 = 0 ∧ v.extractLsb' 48 16 = 0 ∧
        (q = [] → v.extractLsb' 8 40 = 0) ∧
        ∀ k l, q = k :: l → k.progress < 2 ^ 40 → (v.extractLsb' 8 40).toNat = k.progress)

/-- R111, R113, R146, R199, R208, R318, R327, R335: a copy, link or abort command whose descriptor is readable and
within its limits, with everything of its thread released and room in its queue, enters its queue last, with the
fields of its descriptor, and goes on. R211, R339: an abort takes no entry and waits for no release; afterwards the pair
is among the aborted ones, every operation of its round has left the queue of every cell, but for one that has its
completion word already, and ends in the error form, and the abort flit follows on the ports of PMASK that are UP, and on
no other. That an operation of a cell whose frame has been saved ends when it is resumed is the model's (log 63). -/
def Obligations.EngineCommands : Prop :=
  ∀ s : State, (me s).freeze = .none →
    let y := me s
    let at_ (v : Word) : Nat := v.toNat % 2 ^ 19
    let num (o : Nat) (off n : Nat) : Nat := leNat (mread y.spad (o + off) n)
    let reads (v : Word) (n : Nat) : Prop := v.toNat / 2 ^ 19 = 2 ^ 41 ∧ v.toNat % 8 = 0 ∧ at_ v + 8 * n ≤ 2 ^ 19 ∧
      Readable y (at_ v) n
    let ends (i : Instr) (z : CellSt → Prop) : Prop := ∃ t, exec i s = .next t ∧ Issued s t ∧ KeptRegs s t ∧
      t.mem = s.mem ∧ t.disp = s.disp ∧ SameBytes s t ∧ z (me t)
    (s.released s.sched.cur = true →
    (∀ p ∈ [(Instr.cpIn, 1), (.cpOut, 2), (.cpXfr, 3), (.cpFill, 4), (.cpGath, 5)], ∀ x : SrcArgs,
      Ready s (p.1 x) x.g [x.a] → reads (y.gval x.a) 6 → y.copyq.length < 4 →
      let o := at_ (y.gval x.a)
      let ga := num o 0x00 8
      let run := num o 0x0c 4
      let nrun := num o 0x10 4
      num o 0x27 1 = 0 → num o 0x28 8 = 0 → ga % 8 = 0 → num o 0x08 4 % 8 = 0 → num o 0x08 4 < 2 ^ 19 →
      num o 0x1c 4 % 8 = 0 → num o 0x1c 4 < 2 ^ 19 → run % 8 = 0 → 8 ≤ run → run ≤ 65536 → 1 ≤ nrun → nrun ≤ 65536 →
      num o 0x14 4 % 8 = 0 → num o 0x18 4 % 8 = 0 → (p.2 = 5 → num o 0x14 4 = 0) →
      (if p.2 = 3 then y.addrOk [2] (BitVec.ofNat 64 ga) = true ∧ s.sameGang s.sched.cur (ga / 2 ^ 32 % 65536) = true
       else if p.2 = 4 then ga = 0 else ga < 2 ^ 48) →
      ends (p.1 x) fun z => ∃ k, z.copyq = y.copyq ++ [k] ∧ k.op.val = p.2 ∧ k.gaddr.toNat = ga ∧
        k.soff = num o 0x08 4 ∧ k.run = run ∧ k.nrun = nrun ∧ k.gstride.toNat = num o 0x14 4 ∧
        k.sstride.toNat = num o 0x18 4 ∧ k.cwoff = num o 0x1c 4 ∧ k.cval.toNat = num o 0x20 7 ∧ k.dir = false ∧
        k.pattern = 0 ∧ k.progress = 0) ∧
    (∀ p ∈ [(Instr.lkSend, 0), (.lkRecv, 1)], ∀ x : SrcArgs, Ready s (p.1 x) x.g [x.a] → reads (y.gval x.a) 8 →
      y.linkq.length < 4 →
      let o := at_ (y.gval x.a)
      let ws := (List.range 8).map fun j => mword y.spad (o + 8 * j)
      linkOk ws p.2 (linkOf ws (Fin.ofNat 4 p.2) false 0) = true →
      ends (p.1 x) fun z => ∃ k, z.linkq = y.linkq ++ [k] ∧ k.op.val = p.2 ∧ k.group.toNat = num o 0 2 ∧
        k.tag.toNat = num o 2 2 ∧ k.round.toNat = num o 4 4 ∧ k.port.val = num o 8 1 ∧ k.dcell.toNat = num o 0xc 2 ∧
        k.boff = num o 0x10 4 ∧ k.len = num o 0x14 4 ∧ k.cwoff = num o 0x1c 4 ∧ k.cval.toNat = num o 0x20 7 ∧
        k.started = false) ∧
    (∀ x : AredArgs, Ready s (.lkAred x) x.g [x.a, x.c] → reads (y.gval x.a) 8 → y.linkq.length < 4 →
      let o := at_ (y.gval x.a)
      let ws := (List.range 8).map fun j => mword y.spad (o + 8 * j)
      let step := (y.gval x.c).toNat
      linkOk ws 2 (linkOf ws 2 (x.t == .bf16) step) = true → step + 2 < 2 * num o 0xa 1 →
      ends (.lkAred x) fun z => ∃ k, z.linkq = y.linkq ++ [k] ∧ k.op.val = 2 ∧ k.bf16 = (x.t == .bf16) ∧ k.step = step ∧
        k.m = num o 0xa 1 ∧ k.pos = num o 0xb 1 ∧ k.len = num o 0x14 4 ∧ k.woff = num o 0x18 4 ∧ k.started = false)) ∧
    ∀ x : SrcArgs, Ready s (.lkAbort x) x.g [x.a] → reads (y.gval x.a) 8 →
      let o := at_ (y.gval x.a)
      let ws := (List.range 8).map fun j => mword y.spad (o + 8 * j)
      let g := BitVec.ofNat 16 (num o 0 2)
      let r := BitVec.ofNat 32 (num o 4 4)
      let hit (k : LinkCmd) : Bool := k.group = g && k.round = r && k.phase != .ending
      let ended (k : LinkCmd) : SpReq :=
        { who := .word, cls := 4, off := k.cwoff, size := 8, val := (errorWord k.delivered cLkAborted).toNat }
      linkOk ws 3 (linkOf ws 3 false 0) = true → y.stop = none →
      ∃ t, exec (.lkAbort x) s = .next t ∧ t.mem = s.mem ∧ t.isAborted g r = true ∧ (me t).seq = (me s).seq.next.1 ∧
        SameBytes s t ∧
        (∀ c, (s.cell c).stop.any (·.saved) = false →
          (t.cell c).linkq = (s.cell c).linkq.filter (fun k => !hit k) ∧
          ∀ k ∈ (s.cell c).linkq, hit k = true → ended k ∈ (t.cell c).puts) ∧
        ∀ p : Fin 32, let sends : Prop := (s.port p).state = .up ∧ (num o 0x28 4).testBit p.val = true
          (sends → ((t.port p).replay ++ (t.port p).waiting).length = ((s.port p).replay ++ (s.port p).waiting).length + 1 ∧
            (((t.port p).replay ++ (t.port p).waiting).getLast?.map fun f => (f.typ, f.group, f.round)) = some (3, g, r)) ∧
          (¬sends → t.port p = s.port p)

/-- R203, R204, R318, R331, R332: a near-bank command within its limits, with everything of its thread released,
its pages in the TLB and room for it, enters the queue of commands with its operation and type; NB.FENCE ends once the cell has none that is
not complete, and its data cache is then empty. -/
def Obligations.NearBankCommands : Prop :=
  ∀ s : State, (me s).freeze = .none →
    let y := me s
    let c := s.sched.cur
    (∀ (i : Instr) (g : Guard) (a : Reg) (op : Fin 16) (bf : Bool),
      (i, op, bf) ∈ [(Instr.nbZero ⟨g, a⟩, 0, false), (.nbCopy ⟨g, a⟩, 1, false), (.nbRcopy ⟨g, a⟩, 2, false),
        (.nbAxpy ⟨g, a, .f32⟩, 3, false), (.nbAxpy ⟨g, a, .bf16⟩, 3, true), (.nbAdd ⟨g, a, .f32⟩, 4, false),
        (.nbAdd ⟨g, a, .bf16⟩, 4, true), (.nbMul ⟨g, a, .f32⟩, 5, false), (.nbMul ⟨g, a, .bf16⟩, 5, true),
        (.nbScale ⟨g, a, .f32⟩, 6, false), (.nbScale ⟨g, a, .bf16⟩, 6, true), (.nbSum ⟨g, a, .f32⟩, 7, false),
        (.nbSum ⟨g, a, .bf16⟩, 7, true), (.nbDot ⟨g, a, .f32⟩, 8, false), (.nbDot ⟨g, a, .bf16⟩, 8, true)] →
      Ready s i g [a] → s.released c = true →
      let v := y.gval a
      let o := v.toNat % 2 ^ 19
      let ws := (List.range 8).map fun j => mword y.spad (o + 8 * j)
      let k := nbOf s c ws op bf
      v.toNat / 2 ^ 19 = 2 ^ 41 → v.toNat % 8 = 0 → o + 64 ≤ 2 ^ 19 → Readable y o 8 → nbOk ws k = true →
      (∀ b ∈ nbBases k, b.1.toNat < 2 ^ 48 ∧ (tlbFind s (c / 1600) k.asid (wbits b.1 47 0)).isSome = true) →
      s.nbOut c < 16 → (∀ j, s.ctrlLoad j < 48) →
      ∃ t n, exec i s = .next t ∧ (t.cell c).seq = y.seq.next.1 ∧ (t.cell c).spad = y.spad ∧ t.mem.nb = s.mem.nb ++ [n] ∧
        n.id = s.mem.nextNb ∧ t.mem.nextNb = s.mem.nextNb + 1 ∧ n.cell = c ∧ n.op = op ∧ n.bf16 = bf ∧
        n.stage = .accepted ∧ n.count = leNat (mread y.spad (o + 0x24) 2) ∧
        n.dbase.toNat = leNat (mread y.spad o 8) ∧ n.xbase.toNat = leNat (mread y.spad (o + 8) 8) ∧
        n.ybase.toNat = leNat (mread y.spad (o + 16) 8) ∧ n.roff = leNat (mread y.spad (o + 0x2c) 4) ∧
        n.cwoff = leNat (mread y.spad (o + 0x30) 4)) ∧
    ∀ g : Guard, Ready s (.nbFence g) g [] →
      (s.nbOut c = 0 → ∃ t, exec (.nbFence g) s = .next t ∧ Left s t { y with dcache := [] } ∧ t.mem = s.mem ∧ t.disp = s.disp) ∧
      (s.nbOut c ≠ 0 → ∃ t, exec (.nbFence g) s = .next t ∧ (me t).freeze = .wait ∧ (me t).seq = y.seq ∧ t.mem = s.mem)

/-- R131, R193, R299, R334: QPUSH appends the 64 bytes of its entry to a queue of the function with room, no earlier
appender and nothing that stands before the entry's line, QPOP takes the oldest entry when no earlier cell sleeps and writes how many are left, or sleeps, and QROOM
writes how many fit; a number that is no created queue of the function is ILL_OPERAND. -/
def Obligations.WorkQueueInstructions : Prop :=
  ∀ s : State, (me s).freeze = .none → NoInjection s →
    let y := me s
    let c := s.sched.cur
    let entry (v : Word) : Prop := v.toNat / 2 ^ 19 = 2 ^ 41 ∧ v.toNat % 64 = 0
    (∀ (x : Src2Args) (n : Nat) (w : WorkQ), Ready s (.qpush x) x.g [x.a, x.b] → entry (y.gval x.b) →
      let o := (y.gval x.b).toNat % 2 ^ 19
      s.wqOf c (y.gval x.a) = some (n, w) → w.appenders = [] → w.tail - w.head < 2 ^ w.m → Readable y o 8 →
      Clear s true (w.slot w.tail / 128) →
      ∃ t w', exec (.qpush x) s = .next t ∧ (me t).seq = y.seq.next.1 ∧ tfind t.disp.wqs n = some w' ∧
        w' = { w with tail := w.tail + 1 } ∧
        (w.base % 64 = 0 → s.mem.lls = [] → s.mem.dram.wf = true →
          ∀ j < 64, mget t.mem.dram (w.base + 64 * (w.tail % 2 ^ w.m) + j) = mget y.spad (o + j))) ∧
    (∀ (x : Reg3Args) (n : Nat) (w : WorkQ), Ready s (.qpop x) x.g [x.b, x.c] → entry (y.gval x.c) →
      let o := (y.gval x.c).toNat % 2 ^ 19
      s.wqOf c (y.gval x.b) = some (n, w) →
      (w.sleepers = [] → w.head < w.tail → Clear s false (w.slot w.head / 128) → s.mem.lls = [] → s.mem.gran = [] →
        (∀ j < 8, y.bankFree 2 (bankOf (o + 8 * j)) = true) → y.spad.wf = true →
        ∃ t, exec (.qpop x) s = .next t ∧ Issued s t ∧ TookG s t x.a (BitVec.ofNat 64 (w.tail - w.head - 1)) ∧ t.mem = s.mem ∧
          tfind t.disp.wqs n = some { w with head := w.head + 1 } ∧
          (∀ j < 8, mword (me t).spad (o + 8 * j) = s.dpaWord (w.base + 64 * (w.head % 2 ^ w.m) + 8 * j)) ∧
          ∀ b, b < o ∨ o + 64 ≤ b → mget (me t).spad b = mget y.spad b) ∧
      (w.tail ≤ w.head → c ∉ w.sleepers → y.seq.yreq = false → y.stop = none → ∃ t, exec (.qpop x) s = .next t ∧ (me t).freeze = .wait ∧ (me t).seq = y.seq ∧
        t.mem = s.mem ∧ tfind t.disp.wqs n = some { w with sleepers := w.sleepers ++ [c] })) ∧
    (∀ x : DestSrcArgs, Ready s (.qroom x) x.g [x.b] →
      (∀ n w, s.wqOf c (y.gval x.b) = some (n, w) →
        ∃ t, exec (.qroom x) s = .next t ∧ Wrote s t x.d (BitVec.ofNat 64 (2 ^ w.m - (w.tail - w.head)))) ∧
      (s.wqOf c (y.gval x.b) = none → exec (.qroom x) s = .next (s.raise c (.qroom x) cIllOperand 0)))

/-! ### Fabric rows -/

/-- R30, R349, R351 to R354, R356: the integer-lane rows put their result into a landing slot of the ALU with latency
1: each lane of width MOD the operation on the lanes of the sources, P the AND and the flags the OR of theirs. CMP
writes the mask of the lanes that meet its condition and forms P from them alone, SEL takes A or B by the P of C, MOV
copies A, and the predicate rows keep the data of A and combine P. -/
def Obligations.LaneRows : Prop :=
  (∀ (r : Row) (s : State), let cx := rowCtx s r; let w := laneBits r; let u := r.mod.getLsbD 2
    (∀ p ∈ laneOps, Fires s (p.1 r) p.2.1 r →
      ∃ t v, exec (p.1 r) s = .next t ∧ RowResult s t r .alu 1 (.reg (resultVal v [cx.a, cx.b] 0)) (peOf s) 0 ∧
        ∀ j < 64 / w, laneOf w j v = p.2.2 u w (laneOf w j cx.a.data) (laneOf w j cx.b.data)) ∧
    (∀ p ∈ wholeOps, Fires s (p.1 r) p.2.1 r →
      ∃ t, exec (p.1 r) s = .next t ∧
        RowResult s t r .alu 1 (.reg (resultVal (p.2.2 cx.a.data cx.b.data) [cx.a, cx.b] 0)) (peOf s) 0) ∧
    ∀ p ∈ laneOps1, Fires s (p.1 r) p.2.1 r →
      ∃ t v, exec (p.1 r) s = .next t ∧ RowResult s t r .alu 1 (.reg (resultVal v [cx.a] 0)) (peOf s) 0 ∧
        ∀ j < 64 / w, laneOf w j v = p.2.2 w (laneOf w j cx.a.data)) ∧
  ∀ (r : Row) (s : State), let cx := rowCtx s r; let w := laneBits r; let u := r.mod.getLsbD 2
    let puts (i : Instr) (v : FVal) : Prop := ∃ t, exec i s = .next t ∧ RowResult s t r .alu 1 (.reg v) (peOf s) 0
    (Fires s (.rowCmp r) 0x11 r → ∃ d p, puts (.rowCmp r) { resultVal d [cx.a, cx.b] 0 with p := p } ∧
      let holds (j : Nat) : Bool := laneCond (r.aux.toNat % 16) u (laneOf w j cx.a.data) (laneOf w j cx.b.data)
      (∀ j < 64 / w, laneOf w j d = if holds j then BitVec.allOnes w else 0) ∧
      (r.aux.toNat / 16 = 0 → p = holds 0) ∧ (r.aux.toNat / 16 = 1 → (p = true ↔ ∀ j < 64 / w, holds j = true)) ∧
      (r.aux.toNat / 16 = 2 → (p = true ↔ ∃ j < 64 / w, holds j = true))) ∧
    (Fires s (.rowSel r) 0x12 r → let v := if cx.c.p then cx.a else cx.b
      puts (.rowSel r) { data := v.data, p := v.p, flags := v.flags ||| cx.c.flags, res := resOf v.data }) ∧
    (Fires s (.rowMov r) 0x13 r → puts (.rowMov r) { cx.a with res := resOf cx.a.data }) ∧
    (Fires s (.rowPand r) 0x1c r → puts (.rowPand r) { resultVal cx.a.data [cx.a, cx.b] 0 with p := cx.a.p && cx.b.p }) ∧
    (Fires s (.rowPor r) 0x1d r → puts (.rowPor r) { resultVal cx.a.data [cx.a, cx.b] 0 with p := cx.a.p || cx.b.p }) ∧
    (Fires s (.rowPnot r) 0x1e r → puts (.rowPnot r) { resultVal cx.a.data [cx.a] 0 with p := !cx.a.p })

/-- R355, R365: PERM, PACK, UNPK, CONST, SHFL and IDX put their result into a landing slot of the ALU. R363, R364: LUT
and LUTS write the outputs of the sixteen LUTs into quarter AUX of the result, each output the bit of its truth table
that its six inputs select, and LUTS into the flip-flops too; LUTC reads the flip-flops. -/
def Obligations.ByteAndLutRows : Prop :=
  (∀ (r : Row) (s : State), let cx := rowCtx s r; let w := laneBits r; let x := r.aux.toNat
    let puts (i : Instr) (srcs : List FVal) (ok : Word → Prop) : Prop :=
      ∃ t v, exec i s = .next t ∧ RowResult s t r .alu 1 (.reg (resultVal v srcs 0)) (peOf s) 0 ∧ ok v
    (Fires s (.rowPerm r) 0x14 r → puts (.rowPerm r) [cx.a, cx.b, cx.c] fun v =>
      ∀ j < 8, let b := (laneOf 8 j cx.b.data).toNat
        laneOf 8 j v = if 128 ≤ b then 0 else if b % 16 < 8 then laneOf 8 (b % 16) cx.a.data
          else laneOf 8 (b % 16 - 8) cx.c.data) ∧
    (Fires s (.rowPack r) 0x15 r → puts (.rowPack r) [cx.a, cx.b] fun v =>
      ∀ j < 32 / w, laneOf w j v = laneOf w (2 * j) cx.a.data ∧ laneOf w (32 / w + j) v = laneOf w (2 * j) cx.b.data) ∧
    (Fires s (.rowUnpk r) 0x16 r → puts (.rowUnpk r) [cx.a] fun v =>
      ∀ j < 32 / w, let a := laneOf w (x % 2 * (32 / w) + j) cx.a.data
        laneOf (2 * w) j v = if r.mod.getLsbD 2 then a.setWidth (2 * w) else a.signExtend (2 * w)) ∧
    (Fires s (.rowConst r) 0x34 r → puts (.rowConst r) [] fun v => v = r.aux.signExtend 64) ∧
    (Fires s (.rowShfl r) 0x35 r → puts (.rowShfl r) [cx.a, cx.b] fun v =>
      ∀ j < 8, laneOf 8 j v = if x % 8 + j < 8 then laneOf 8 (x % 8 + j) cx.a.data else laneOf 8 (x % 8 + j - 8) cx.b.data) ∧
    (Fires s (.rowIdx r) 0x36 r → let n := 8 * 2 ^ (x % 4)
      puts (.rowIdx r) [cx.a] fun v =>
        ∀ j < 64 / n, laneOf n j v = laneOf n 0 cx.a.data + BitVec.ofNat n (j * (x / 4)))) ∧
  ∀ (r : Row) (s : State), let cx := rowCtx s r; let e := peOf s
    (e.luts.length = 16 → (∀ (j : Nat) (l : Lut), e.luts[j]? = some l → l.sel.all (fun q => lutSelOk j q.toNat) = true) →
      ∃ o : BitVec 16,
        (∀ (j : Nat) (l : Lut), e.luts[j]? = some l →
          o.getLsbD j = l.tt.getLsbD (lutIndex cx.a cx.b e.ff.toNat o.toNat l.sel)) ∧
        let v := o.setWidth 64 <<< (16 * (r.aux.toNat % 4))
        (Fires s (.rowLut r) 0x30 r → ∃ t, exec (.rowLut r) s = .next t ∧
          RowResult s t r .lut 1 (.reg (resultVal v [cx.a, cx.b] 0)) e 0) ∧
        (Fires s (.rowLuts r) 0x31 r → ∃ t, exec (.rowLuts r) s = .next t ∧
          RowResult s t r .lut 1 (.reg (resultVal v [cx.a, cx.b] 0)) { e with ff := o } 0)) ∧
    (Fires s (.rowLutc r) 0x32 r → ∃ t, exec (.rowLutc r) s = .next t ∧
      RowResult s t r .lut 1 (.reg (resultVal (e.ff.setWidth 64 <<< (16 * (r.aux.toNat % 4))) [] 0)) e 0)

/-- R57, R58, R103, R357 to R362: the floating rows put their result into a landing slot, lane by lane, with the OR of
the flags that the lanes raise; flags that no source carried are latched; under RSR each rounding draws once from XS.
The FCVT row converts the elements of A from the format of SRCB to that of MOD, the wider of the two giving their
number, from the high part of A or into the high part of the result when P of the literal is set (R46, R59, R60, R289).
How an exact value is rounded is stated of O16. FRCP, FRSQ, FEXP2 and FLOG2 give the special values of R362; of the other
values FRCP and FRSQ give one of the two FP32 values that bracket the exact one, and BF16 and FP16 the nearest. FEXP2 and
FLOG2 do the same of the rational bound that the model takes for the exact value (log 11); that the bracket ends at
infinity and reaches below the normal range (log 10) is the model's reading. -/
def Obligations.FloatRows : Prop :=
  (∀ (r : Row) (s : State), let cx := rowCtx s r; let m := fmtOfCode r.mod.toNat; let n := 64 / m.width
    let z := (regionOf s).ftz
    let code (v : FVal) (j : Nat) : Nat := (laneOf m.width j v.data).toNat
    let rd (v : FVal) (j : Nat) : Fp := m.read z (code v j)
    let puts (i : Instr) (u : FUnit) (lat : Nat) (e : PE) (srcs : List FVal) (l : Nat → Nat × Flags) (k : Nat) : Prop :=
      ∃ t v, exec i s = .next t ∧ (∀ j < n, (laneOf m.width j v).toNat = if j < k then (l j).1 % 2 ^ m.width else 0) ∧
        let fl := (List.range k).foldl (fun f j => f ||| (l j).2) 0
        RowResult s t r u lat (.reg (resultVal v srcs fl)) e (fl &&& ~~~carriedBy srcs)
    (∀ p ∈ fpRows, Fires s (p.1 r) p.2.1 r →
      puts (p.1 r) .fvl 4 (peDrawn s r n) (if p.2.2.1 then [cx.a, cx.b, cx.c] else [cx.a, cx.b])
        (fun j => m.finish (laneRounding s r j) (p.2.2.2 (r.aux.toNat % 8) (rd cx.a j) (rd cx.b j)
          (if p.2.2.1 then rd cx.c j else .nan))) n) ∧
    (∀ p ∈ [(Instr.rowFmin, 0x25, false), (.rowFmax, 0x26, true)], Fires s (p.1 r) p.2.1 r →
      puts (p.1 r) .fvl 4 (peOf s) [cx.a, cx.b] (fun j => (m.pick z p.2.2 (code cx.a j) (code cx.b j), 0)) n) ∧
    (Fires s (.rowFabs r) 0x27 r → puts (.rowFabs r) .fvl 4 (peOf s) [cx.a]
      (fun j => (if (rd cx.a j).isNan then m.canon.1 else m.flush z (code cx.a j) % 2 ^ (m.width - 1), 0)) n) ∧
    (Fires s (.rowFcmp r) 0x28 r → puts (.rowFcmp r) .fvl 4 (peOf s) [cx.a, cx.b]
      (fun j => (match cmpFp (rd cx.a j) (rd cx.b j) with
        | none => 8
        | some d => if d = 0 then 1 else if d < 0 then 2 else 4, 0)) n) ∧
    (Fires s (.rowFsum r) 0x2a r → puts (.rowFsum r) .fvl 4 (peDrawn s r 1) [cx.a]
      (fun _ => m.finish (laneRounding s r 0) (sumFp (r.aux.toNat % 8) ((List.range n).map (rd cx.a)))) 1) ∧
    (Fires s (.rowFmaxh r) 0x2b r → puts (.rowFmaxh r) .fvl 4 (peOf s) [cx.a]
      (fun _ => (((List.range (n - 1)).map fun j => code cx.a (j + 1)).foldl (m.pick z true) (code cx.a 0), 0)) 1) ∧
    (∀ p ∈ [(Instr.rowFrcp, 0x2c, rcpOf), (.rowFrsq, 0x2d, rsqOf), (.rowFexp2, 0x2e, exp2Of), (.rowFlog2, 0x2f, log2Of)],
      Fires s (p.1 r) p.2.1 r →
      puts (p.1 r) .xc 6 (peOf s) [cx.a] (fun j => nearCode m p.2.1 (code cx.a j) z (p.2.2 (rd cx.a j))) n)) ∧
  (∀ m ∈ [fmtF32, fmtBf16, fmtF16], ∀ (z : Bool) (c : Nat), let x := m.read z c
    let rcp := nearCode m 0x2c c z (rcpOf x)
    let rsq := nearCode m 0x2d c z (rsqOf x)
    let exp2 := nearCode m 0x2e c z (exp2Of x)
    let log2 := nearCode m 0x2f c z (log2Of x)
    let inf := m.inf.getD 0
    let close (neg : Bool) (y : Exact) (o : Nat × Flags) : Prop :=
      if m = fmtF32 then Brackets z neg y o else RoundsTo m { mode := 0, ftz := z } neg y o
    (x.isNan = true → ∀ o ∈ [rcp, rsq, exp2, log2], o = (m.canon.1, 0)) ∧
    (∀ n, x = .inf n → rcp = (m.signed n 0, 0) ∧ rsq = (if n then (m.canon.1, flNV) else (0, 0)) ∧
      exp2 = (if n then 0 else inf, 0) ∧ log2 = if n then (m.canon.1, flNV) else (inf, 0)) ∧
    ∀ n k e, x = .fin n k e → let v : ℚ := (k : ℚ) * (2 : ℚ) ^ e
      (k = 0 → rcp = (m.signed n inf, flDZ) ∧ rsq = (m.signed n inf, 0) ∧ exp2 = (m.bias.toNat * 2 ^ m.man, 0) ∧
        log2 = (m.signed true inf, flDZ)) ∧
      (k ≠ 0 → close n (Exact.rcp v) rcp ∧ (n = false → close false (Exact.rsq v) rsq) ∧
        (n = true → rsq = (m.canon.1, flNV) ∧ log2 = (m.canon.1, flNV)) ∧
        (∀ i : Int, ratOf x = i → 1 - m.bias ≤ i → i ≤ m.bias → exp2 = ((i + m.bias).toNat * 2 ^ m.man, 0)) ∧
        (∀ i : Int, n = false → v = (2 : ℚ) ^ i → RoundsTo m { mode := 0, ftz := z } (decide (i < 0)) (Exact.of |(i : ℚ)|) log2) ∧
        (∀ g a b rest, exp2Of x = .mag g a b rest → close g (Exact.near a b rest) exp2) ∧
        ∀ g a b rest, log2Of x = .mag g a b rest → close g (Exact.near a b rest) log2)) ∧
  (∀ (ns : Bool) (q : Rounding) (a : Nat), q.mode ≤ 4 → q.draw < 2 ^ 32 →
    (∀ f ∈ [0, 1, 2, 3, 0xb], ∀ g ∈ [0, 1, 2, 3, 0xb], (ns = true → g ∈ [0, 1, 3]) →
      Converts (fmtOfCode f) (fmtOfCode g) ns q a (cvtElem f g ns q a)) ∧
    (∀ f ∈ [0, 1, 2, 3, 0xb], let o := cvtElem f 9 ns q a
      RoundsToInt false 8 q ((fmtOfCode f).read q.ftz a) (BitVec.ofNat 8 o.1, o.2)) ∧
    (∀ g ∈ [0, 1, 2, 3, 0xb], (ns = true → g ∈ [0, 1, 3]) →
      ConvertsInt (fmtOfCode g) ns q (BitVec.ofNat 8 a).toInt (cvtElem 9 g ns q a)) ∧
    cvtElem 9 9 ns q a = (a, 0)) ∧
  ∀ (r : Row) (s : State), Fires s (.rowFcvt r) 0x29 r →
    let cx := rowCtx s r
    let l := r.srcB.toNat
    let src := l % 16
    let dst := r.mod.toNat
    let bits (f : Nat) : Nat := if f ≤ 1 then 16 else if f = 0xb then 32 else 8
    let n := 64 / max (bits src) (bits dst)
    let from_ := if l.testBit 5 then 64 / bits src - n else 0
    let to_ := if l.testBit 5 then 64 / bits dst - n else 0
    let el (k : Nat) : Nat × Flags :=
      cvtElem src dst (l.testBit 4) (laneRounding s r k) (laneOf (bits src) (from_ + k) cx.a.data).toNat
    let fl := (List.range n).foldl (fun f k => f ||| (el k).2) 0
    ∃ t v, exec (.rowFcvt r) s = .next t ∧
      RowResult s t r .fvs 2 (.reg (resultVal v [cx.a] fl)) (if src = dst then peOf s else peDrawn s r n)
        (fl &&& ~~~cx.a.flags) ∧
      (∀ k < n, (laneOf (bits dst) (to_ + k) v).toNat = (el k).1 % 2 ^ bits dst) ∧
      ∀ k < 64 / bits dst, k < to_ ∨ to_ + n ≤ k → laneOf (bits dst) k v = 0

/-- R28, R108, R370 to R373: LD, LDB and LDX put the elements that their addresses name into a landing slot with
latency 3, LDX with the P and flags of its indices. R35, R36, R374, R375: ST writes the low bytes of B at its address
and STX each lane of C at its own, a higher lane over a lower one, little-endian and no other byte; the flags of the
stored value enter the sink and an enabled one stops the region with ARITH at the next iteration boundary. With a
false guard nothing happens. -/
def Obligations.LoadAndStoreRows : Prop :=
  (∀ (r : Row) (s : State), let cx := rowCtx s r; let w := laneBits r; let f := s.sched.firing
    let m := (s.cell f.cell).spad
    let k : Fin 4 := Fin.ofNat 4 r.srcA.toNat
    let ea := cx.address k.val (8 * r.aux.toInt)
    let elem (a : Int) : Nat := leNat (mread m a.toNat (w / 8))
    (Fires s (.rowLd r) 0x40 r → ∃ t, exec (.rowLd r) s = .next t ∧
      RowResult s t r .mem 3 (.reg (FVal.of (BitVec.ofNat 64 (elem ea)))) (peOf s) 0) ∧
    (Fires s (.rowLdb r) 0x44 r → ∃ t v, exec (.rowLdb r) s = .next t ∧ RowResult s t r .mem 3 (.reg (FVal.of v)) (peOf s) 0 ∧
      ∀ j < 64 / w, (laneOf w j v).toNat = elem ea) ∧
    (Fires s (.rowLdx r) 0x42 r → ∃ t v, exec (.rowLdx r) s = .next t ∧
      RowResult s t r .mem 3 (.reg (resultVal v [cx.b] 0)) (peOf s) 0 ∧
      ∀ j < 64 / w, (laneOf w j v).toNat = elem (ea + ((laneOf w j cx.b.data).toNat * (w / 8) : Nat)))) ∧
  ∀ (r : Row) (s : State), let cx := rowCtx s r; let w := laneBits r; let f := s.sched.firing
    let n := w / 8
    let m := (s.cell f.cell).spad
    let ea := cx.address (Fin.ofNat 4 r.srcA.toNat).val (8 * r.aux.toInt)
    let g := regionOf s
    let ends (i : Instr) (t : State) (fl : Flags) : Prop := exec i s = .next t ∧ RowFrame s t ∧ peOf t = peOf s ∧
      (fl &&& g.ten = 0 → regionOf t = { g with sink := g.sink ||| fl }) ∧
      (fl &&& g.ten ≠ 0 → (regionOf t).sink = g.sink ||| fl ∧ (regionOf t).cause = (if g.cause = 0 then cArith else g.cause) ∧
        ∃ e, (regionOf t).stopRc = some e ∧ e ≤ g.endAt ∧ (e = g.endAt ∨ e % g.ii.toNat = 0))
    let at_ (j : Nat) : Nat := (ea + ((laneOf w j cx.b.data).toNat * n : Nat)).toNat
    (cx.guard = false → ∀ p ∈ [(Instr.rowSt r, 0x41), (.rowStx r, 0x43)], Fires s p.1 p.2 r →
      ∃ t, exec p.1 s = .next t ∧ RowNothing s t) ∧
    (cx.guard = true → m.wf = true → Fires s (.rowSt r) 0x41 r → ∃ t, ends (.rowSt r) t cx.b.flags ∧
      (∀ k < n, mget (t.cell f.cell).spad (ea.toNat + k) = laneOf 8 k cx.b.data) ∧
      ∀ a, a < ea.toNat ∨ ea.toNat + n ≤ a → mget (t.cell f.cell).spad a = mget m a) ∧
    (cx.guard = true → m.wf = true → Fires s (.rowStx r) 0x43 r → ∃ t, ends (.rowStx r) t cx.c.flags ∧
      (∀ j < 64 / w, (∀ i, j < i → i < 64 / w → at_ i ≠ at_ j) → ∀ k < n,
        mget (t.cell f.cell).spad (at_ j + k) = (laneOf w j cx.c.data).extractLsb' (8 * k) 8) ∧
      ∀ a, (∀ j < 64 / w, a < at_ j ∨ at_ j + n ≤ a) → mget (t.cell f.cell).spad a = mget m a)

/-- R35, R95 to R98, R376, R377, R382 to R384: WLD puts the image at its address into a landing slot with latency 8,
WSW selects the other bank, ACRD reads two outputs of a landed row, ACZ clears and types a row, and ACADD adds the
lanes of A to outputs of it; with a false guard nothing happens. -/
def Obligations.ArrayRows : Prop :=
  ∀ (r : Row) (s : State), let cx := rowCtx s r; let e := peOf s; let x := r.aux.toNat; let f := s.sched.firing
    let m := (s.cell f.cell).spad
    let ea := (cx.address (Fin.ofNat 4 r.srcA.toNat).val (8 * r.aux.toInt)).toNat
    let seen := cx.accSeen
    (cx.guard = false → ∀ p ∈ [(Instr.rowWld r, 0x48), (.rowAcz r, 0x4d), (.rowAcadd r, 0x4e), (.rowDot r, 0x4a), (.rowDots r, 0x4b)],
      Fires s p.1 p.2 r → ∃ t, exec p.1 s = .next t ∧ RowNothing s t) ∧
    (cx.guard = true → Fires s (.rowWld r) 0x48 r → ∃ t b, exec (.rowWld r) s = .next t ∧
      RowResult s t r .wld 8 (.bank b) e 0 ∧ (∀ j : Fin 8, b.elem[j.val] = mword m (ea + 8 * j.val)) ∧
      (∀ j : Fin 8, (b.rsc[j.val]).toNat = leNat (mread m (ea + 64 + 2 * j.val) 2)) ∧
      b.t.toNat = leNat (mread m (ea + 80) 4) ∧ b.fmt.toNat = (mget m (ea + 84)).toNat % 16 ∧
      ∀ j : Fin 8, srcBad b.elem[j.val] (b.res.extractLsb' (8 * j.val) 8) = none) ∧
    (Fires s (.rowWsw r) 0x49 r → ∃ t, exec (.rowWsw r) s = .next t ∧ RowFrame s t ∧ peOf t = { e with act := !e.act } ∧
      regionOf t = regionOf s) ∧
    (Fires s (.rowAcrd r) 0x4c r → ∃ t, exec (.rowAcrd r) s = .next t ∧
      RowResult s t r .acr 6 (.reg { FVal.of ((e.acc[x % 8]).data.extractLsb' (64 * (x / 8 % 4)) 64) with
        flags := (e.acc[x % 8]).flags }) e 0) ∧
    (cx.guard = true → Fires s (.rowAcz r) 0x4d r → ∃ t, exec (.rowAcz r) s = .next t ∧
      RowResult s t r .dot 5 (.acc { data := 0, int := r.mod.getLsbD 0, flags := 0, res := 0 }) e 0) ∧
    (cx.guard = true → Fires s (.rowAcadd r) 0x4e r →
      let lane (j : Nat) : BitVec 32 := if x.testBit 2 ∨ j % 2 = 0 then laneOf 32 0 cx.a.data else laneOf 32 1 cx.a.data
      let old (j : Nat) : BitVec 32 := seen.data.extractLsb' (32 * j) 32
      let hit (j : Nat) : Prop := x.testBit 2 = true ∨ j / 2 = x % 4
      ∃ t a fr, exec (.rowAcadd r) s = .next t ∧ RowResult s t r .dot 5 (.acc a) e fr ∧ a.int = seen.int ∧
        (∀ j < 8, let o := a.data.extractLsb' (32 * j) 32
          (¬hit j → o = old j) ∧ (hit j → seen.int = true → o = old j + lane j) ∧
          (hit j → seen.int = false → o = BitVec.ofNat 32 (fmtF32.finish { mode := 0 }
            (sumFp 0 [fmtF32.value (old j).toNat, fmtF32.value (lane j).toNat])).1)) ∧
        (seen.int = true → (∀ j < 8, hit j → BitVec.saddOverflow (old j) (lane j) = false) →
          a.flags = seen.flags ||| cx.a.flags ∧ fr = 0))

/-- R48 to R50, R61 to R64, R378, R379: a DOT or DOTS firing puts, for each output of the row that its DOT unit sees, the
exact sum of the output and the products of the elements of A with those of the selected bank, each under its scale, offset
and tensor scale, rounded once, or for INT8 the wrapped sum, into a landing slot with latency 5, with the flags of the row
and its sources and those that the sums raise. R65, R66, R385: QNT puts the scale or the elements of its block into a
landing slot with latency 6. Of an MXFP8 block that is all zeros the scale is 0 and the elements are zero, of one with a NaN
or an infinity the scale is 0xff and the elements are 0; of any other the scale is that of its largest magnitude and an
element its value under the scale, rounded and clamped. Of B4 values an unusable T gives zeros, a group with a NaN
elements of 0, and any other group the offset of its largest quotient and the quotients under it, rounded and clamped. That
a group with an infinite value has the offset 15 is the model's choice (log 17). -/
def Obligations.DotAndQuantizeRows : Prop :=
  (∀ (r : Row) (s : State), let cx := rowCtx s r; let b := (peOf s).bank[(peOf s).act.toNat]'(by cases (peOf s).act <;> decide)
    let seen := cx.accSeen
    let f := b.fmt.toNat
    let g := r.mod.toNat
    let n := if f ≤ 1 then 4 else if f = 8 ∧ g = 8 ∨ f = 0xa then 16 else 8
    let h := if f = 8 ∧ g ≠ 8 then 8 * (r.aux.toNat % 2) else 0
    cx.guard = true → ∀ p ∈ [(Instr.rowDot r, 0x4a, false), (.rowDots r, 0x4b, true)], Fires s p.1 p.2.1 r →
      let sb := if p.2.2 then cx.b.data.toNat else 0
      let carried := cx.a.flags ||| (if p.2.2 then cx.b.flags else 0)
      let out (j : Fin 8) : Nat × Flags :=
        let acc := seen.data.extractLsb' (32 * j.val) 32
        if f = 9 then intOf acc
          ((List.range 8).map fun k => (laneOf 8 k cx.a.data).toInt * (laneOf 8 k b.elem[j.val]).toInt).sum
        else dotOf acc.toNat ((List.range n).map fun k => elemOf g sb (fmtF32.value (sb / 2 ^ 32)) cx.a.data k)
          ((List.range n).map fun k => elemOf f (b.rsc[j.val]).toNat (fmtF32.value b.t.toNat) b.elem[j.val] (h + k))
      let raised := (List.finRange 8).foldl (fun f j => f ||| (out j).2) (0 : Flags)
      ∃ t a, exec p.1 s = .next t ∧ RowResult s t r .dot 5 (.acc a) (peOf s) (raised &&& ~~~carried) ∧ a.int = seen.int ∧
        a.flags = seen.flags ||| raised ||| carried ∧
        ∀ j : Fin 8, a.data.extractLsb' (32 * j.val) 32 = BitVec.ofNat 32 (out j).1) ∧
  ∀ (r : Row) (s : State), Fires s (.rowQnt r) 0x4f r →
    let cx := rowCtx s r
    let ctl := cx.a.data
    let sc := ctl.getLsbD 3
    let rows (j : Nat) : Acc := (peOf s).acc[(4 * (ctl.getLsbD 0).toNat + j) % 8]'(Nat.mod_lt _ (by decide))
    let v (j : Nat) : Fp := fmtF32.value ((rows (j / 8)).data.extractLsb' (32 * (j % 8)) 32).toNat
    let q := ctl.toNat / 2 % 4
    let b4 := r.mod = 0xa
    let tv := fmtF32.value (ctl.toNat / 2 ^ 32)
    let usable := finite tv = true ∧ tv.isZero = false
    let u (j : Nat) : Fp := v (16 * (q % 2) + j)
    let mag (j : Nat) : ℚ := |ratOf (u j)| / |ratOf tv|
    let n := if b4 then 16 else 8
    let carried := (List.range 4).foldl (fun f m => f ||| (rows m).flags) cx.a.flags
    let ordinary := ∀ j < 32, finite (v j) = true
    let clamped (k : Nat) : Rounding := { laneRounding s r k with ovf := .clamp, ftz := false }
    let whole (g : Nat) : Prop := ∀ i < 4, finite (u (4 * g + i)) = true
    let nan (g : Nat) : Prop := ∃ i < 4, (u (4 * g + i)).isNan = true
    ∃ t w, exec (.rowQnt r) s = .next t ∧
      RowResult s t r .acr 6 (.reg w) (if sc = false then peDrawn s r n else peOf s) (w.flags &&& ~~~carried) ∧
      w.p = cx.a.p ∧ w.res = resOf w.data ∧
      (w.flags = carried ∨ w.flags = carried ||| flNV) ∧
      (¬b4 → (ordinary → w.flags = carried) ∧ ((∃ j < 32, (v j).isInf = true) → w.flags = carried ||| flNV) ∧
        ((∀ j < 32, (v j).isInf = false) → w.flags = carried) ∧
        ((∀ j < 32, (v j).isZero = true) → w.data = 0) ∧
        (¬ordinary → w.data = if sc then 0xff else 0) ∧
        let emax : Int := if r.mod = 4 then 8 else 15
        ∀ x : Int, -127 ≤ x → (∀ j < 32, topUpTo (x + emax) (v j) = true) →
          (∃ j < 32, (v j).isZero = false ∧ (x = -127 ∨ topAt (x + emax) (v j) = true)) →
          (sc = true → w.data = BitVec.ofNat 64 (x + 127).toNat) ∧
          (sc = false → ∀ k < 8, ∀ sg m e, v (8 * q + k) = .fin sg m e →
            ∃ fl, RoundsTo (fmtOfCode r.mod.toNat) (clamped k) sg (Exact.of ((m : ℚ) * (2 : ℚ) ^ (e - x)))
              ((laneOf 8 k w.data).toNat, fl))) ∧
      (b4 → (¬usable → w.data = 0 ∧ w.flags = carried ||| flNV) ∧
        (usable → w.flags = (if (List.range 16).all (fun j => finite (u j)) then carried else carried ||| flNV) ∧
          ∀ g < 4,
            (nan g → sc = false → ∀ i < 4, laneOf 4 (4 * g + i) w.data = 0) ∧
            (¬nan g → ∀ e < 16, (whole g ∧ OffsetOf (fun i => mag (4 * g + i)) e ∨ ¬whole g ∧ e = 15) →
              (sc = true → (laneOf 4 g w.data).toNat = e) ∧
              (sc = false → ∀ i < 4, let y := u (4 * g + i); let c := (laneOf 4 (4 * g + i) w.data).toNat
                (y.isInf = true → c = fmtE2M1.signed (y.neg != tv.neg) 7) ∧
                (finite y = true → ∃ fl, RoundsTo fmtE2M1 (clamped (4 * g + i)) (y.neg != tv.neg)
                  (Exact.of (mag (4 * g + i) / (2 : ℚ) ^ ((e : Int) - 8))) (c, fl)))))) ∧
      (b4 → sc = true → w.data.toNat < 2 ^ 16)

/-- R33, R35, R91, R113, R271, R379, R387: the checks before a row's effect, in their order: a row outside R271 never
takes effect; an address outside the scratchpad is SPAD_RANGE and a row of the array that meets another type ACC_TYPE,
both fatal, the region FAILED at once; an uncorrectable word or a wrong residue is recorded, ends the region's issue
at a boundary and writes no register, byte or accumulator. The stop of a row outside R271 is the model's (log 90). -/
def Obligations.RowChecks : Prop :=
  ∀ (s : State) (i : Instr) (code : Nat) (r : Row), i.rowParts = some (code, r) →
    let cx := rowCtx s r
    let f := s.sched.firing
    let fatal (c : Cause) : Prop := (s.cell f.cell).stop = none → ∃ t, exec i s = .next t ∧ (regionOf t).state = .failed ∧
      (regionOf t).cause = c ∧ (regionOf t).cut = false ∧ peOf t = peOf s ∧
      (∃ p, (t.cell f.cell).stop = some p ∧ p.code = c) ∧ (t.cell f.cell).spad = (s.cell f.cell).spad
    let late (c : Cause) : Prop := f.quiet = false → ∃ t, exec i s = .next t ∧
      (regionOf t).cause = (if (regionOf s).cause = 0 then c else (regionOf s).cause) ∧
      (∃ n, (regionOf t).stopRc = some n ∧ n ≤ (regionOf s).endAt ∧ (n = (regionOf s).endAt ∨ n % (regionOf s).ii.toNat = 0)) ∧
      (t.cell f.cell).spad = (s.cell f.cell).spad ∧ (t.cell f.cell).stop = (s.cell f.cell).stop ∧
      peOf t = { peOf s with slots := (peOf t).slots } ∧
      ((peOf t).slots = (peOf s).slots ∨ ∃ l, (peOf t).slots = (peOf s).slots ++ [l] ∧ l.bad = true ∧ l.remain = 0)
    (i.wf = false → exec i s = .fault .rowRejected) ∧
    (i.wf = true → cx.badAddress code ≠ none → fatal cSpadRange) ∧
    (i.wf = true → cx.badAddress code = none → cx.typeOk code = false → fatal cAccType) ∧
    (i.wf = true → cx.badAddress code = none → cx.typeOk code = true → cx.eccAt code ≠ none → late cMcSpadEcc) ∧
    (i.wf = true → cx.badAddress code = none → cx.typeOk code = true → cx.eccAt code = none → cx.badRead code ≠ none →
      late cMcResidue)

/-! ### Events of a cell -/

/-- R42, R45, R111, R273, R290, R300: at the end of an issue cycle the log's entries count down and a result that is
due lands in its destination, its flags in STICKY; a sequencer frozen on a bank, on an answered request or on a wait
takes its word up again. The order of steps within a cycle is the model's (log 4). -/
def Obligations.SequencerEvents : Prop :=
  ∀ (c : Nat) (s : State), let x := s.cell c
    let again : State := { s with sched := { s.sched with tasks := .issue c :: s.sched.tasks } }
    (∀ e, x.issued = true → x.seq.log = [e] → e.phase = none → e.fault = 0 → x.wrote = [] → x.fpLanded = [] →
      x.seq.errinj.arm = false →
      e.flags &&& x.seq.fp.enable = 0 →
      (e.remain = 1 → ∀ d : Reg, d.val ≠ 0 → e.dest = destG d → ∃ t, exec (.operandLogLanding c) s = .next t ∧
        (t.cell c).gval d = e.val ∧ (∀ r, r ≠ d → (t.cell c).greg r = x.greg r) ∧ (t.cell c).seq.log = [] ∧
        (t.cell c).seq.fp = { x.seq.fp with sticky := x.seq.fp.sticky ||| e.flags } ∧ (t.cell c).issued = false ∧
        (∀ n, n ≠ c → t.cell n = s.cell n) ∧ t.mem = s.mem) ∧
      (1 < e.remain → ∃ t, exec (.operandLogLanding c) s = .next t ∧
        (t.cell c).seq = { x.seq with log := [{ e with remain := e.remain - 1 }] } ∧ t.mem = s.mem)) ∧
    (x.freeze = .bank → exec (.sequencerBankGrant c) s = .next again) ∧
    (∀ id r, x.freeze = .mem id → s.req id = some r → (r.stage = .done ∨ ∃ f, r.stage = .failed f) →
      exec (.memoryResponse c) s = .next again) ∧
    (x.freeze = .wait → exec (.waitWake c) s = .next again)

/-- R23 to R25, R29 to R31, R92, R102, R104: a region cycle in which no check stops a region lays out one firing for
each row that fires and counts a cycle of every region that issues; a landing slot whose latency is over writes its
register and the bus; a region whose issue has ended and whose slots have landed is DONE and arrives at its phaser, once the
release that the arrival is has nothing left to wait for. That the region stays RUNNING until then (log 107) and that a landing slot counts down in every cycle of a RUNNING region (log 86) is the model's reading. -/
def Obligations.RegionEvents : Prop :=
  ∀ (c : Nat) (s : State), let x := s.cell c
    (x.stop = none → x.restart = false → (∀ h ∈ s.shots c, (s.shotCtx h).badAddress h.code = none ∧ (s.shotCtx h).typeOk h.code = true) →
      (s.fabricBanks c).Nodup →
      ∃ t, exec (.regionCycle c) s = .next t ∧ t.sched.tasks = s.fireTasks c ++ s.sched.tasks ∧
        (s.fireTasks c).length = (s.shots c).length ∧ t.mem = s.mem ∧ (t.cell c).seq = x.seq ∧ (t.cell c).pe = x.pe ∧
        ∀ k : Fin 4, let r := x.region[k.val]
          (t.cell c).region[k.val] = if r.issuing = true then
            { r with rc := r.rc + 1, rb := BitVec.ofNat 6 ((48 - r.rc.toNat / r.ii.toNat % 48) % 48) } else r) ∧
    (∀ (p : Fin 4) (l : LandSlot) (v : FVal), x.restart = false → x.running p = true → x.seq.errinj.arm = false →
      (x.pe[p.val]).slots = [l] → l.bad = false → l.pay = .reg v → srcBad v.data v.res = none → l.remain = 1 →
      ∃ t, exec (.rowResultLanding c) s = .next t ∧ ((t.cell c).pe[p.val]).slots = [] ∧
        ((t.cell c).pe[p.val]).bus = { v with res := resOf v.data } ∧
        (∀ n : Fin 64, l.dest.toNat = n.val → ((t.cell c).pe[p.val]).v[n.val] = { v with res := resOf v.data }) ∧
        (∀ n : Fin 64, l.dest.toNat ≠ n.val → ((t.cell c).pe[p.val]).v[n.val] = (x.pe[p.val]).v[n.val]) ∧
        (t.cell c).seq = x.seq ∧ t.mem = s.mem) ∧
    (∀ (p : Fin 4) (l : LandSlot), x.restart = false → x.running p = true → (x.pe[p.val]).slots = [l] → l.bad = false →
      1 < l.remain → ∃ t, exec (.rowResultLanding c) s = .next t ∧
        (t.cell c).pe[p.val] = { x.pe[p.val] with slots := [{ l with remain := l.remain - 1 }] }) ∧
    (x.restart = false → ∀ k : Fin 4, let r := x.region[k.val]
      (r.state = .running → r.delay = 0 → r.endAt ≤ r.rc.toNat → x.allLanded r = true → r.cause = 0 →
        (r.ph.isSome = true → s.released c = true) →
        ∃ t, exec (.regionCompletion c k) s = .next t ∧ ((t.cell c).region[k.val]).state = .done ∧
          ((t.cell c).region[k.val]).rc = r.rc ∧
          ((t.cell c).region[k.val]).cut = (decide (r.rn ≠ 0) && decide (r.rc.toNat < r.limit)) ∧
          (∀ n, r.ph = some n → t.phaser n.toNat = (s.phaser n.toNat).arrive) ∧ t.mem = s.mem) ∧
      (∀ n m, r.state = .running → r.delay = 0 → r.endAt ≤ r.rc.toNat → x.allLanded r = true → r.cause = 0 →
        r.ph = some n → r.relAt = some m → (∃ g ∈ s.mem.signals, g.src = c ∧ g.id ≤ m ∧ (g.dst = c ∨ (s.phaser n.toNat).order ≠ 1)) →
        exec (.regionCompletion c k) s = .next s) ∧
      (r.state = .running → r.delay ≠ 0 → ∃ t, exec (.regionCompletion c k) s = .next t ∧
        (t.cell c).region[k.val] = { r with delay := r.delay - 1 } ∧ t.mem = s.mem))

/-- R112, R113, R115, R117, R198 to R200, R306, R307, R328: a fetched line enters the instruction cache; a corrected
word is written back; the words of an STR arrive in order, those of a SIG are added to their word; a chunk of a
scratchpad fill asks for the writes of its pattern, a chunk that has been written raises PROGRESS, a command whose
payload is done asks for its completion word, and with that word its entry is free. R200, R201, R328, R329: a chunk of
CP.IN asks for the writes of its global bytes at their places in the scratchpad, one of CP.GATH for those of the tile's
rows, one of CP.OUT or CP.XFR for the reads of its words and then, with these words, writes its bytes of a global line or
asks for their writes in the target cell; CP.FILL takes its pattern for them. A chunk that reaches outside the scratchpad,
and one of CP.IN whose first bytes cannot be read, ends the command in the error form. How many words an operation writes
in a cycle is the model's choice (log 21). -/
def Obligations.ArrivalEvents : Prop :=
  (∀ (c id : Nat) (r : Req) (s : State), s.mem.reqs = [(id, r)] → r.cell = c → r.kind = .fetch → r.stage = .done →
    (s.cell c).seq.id.asid = r.asid → (s.cell c).bound.isSome = true → (s.cell c).ifind r.line = none →
    ∃ t, exec (.icacheFill c) s = .next t ∧ t.mem.reqs = [] ∧
      (t.cell c).ifind r.line = some { tag := r.line, asid := r.asid, data := r.data } ∧ (t.cell c).seq = (s.cell c).seq) ∧
  (∀ (c w : Nat) (s : State), (s.cell c).scrub = [w] → (s.cell c).bankFree 5 (bankOf (8 * w)) = true →
    ∃ t, exec (.secdedWriteback c) s = .next t ∧ (t.cell c).scrub = [] ∧ (t.cell c).spad = (s.cell c).spad ∧
      (tfind (s.cell c).ecc w = some false → tfind (t.cell c).ecc w = none) ∧ t.mem = s.mem) ∧
  (∀ (src dst : Nat) (g : Signal) (s : State), s.mem.signals = [g] → g.src = src → g.dst = dst → g.words.length ≤ 9 →
    g.addr % 8 = 0 → (s.cell dst).spad.wf = true → (∀ p ∈ (s.cell dst).puts, p.cls ≠ 3) →
    (g.sig = false → (∀ j < g.words.length, (s.cell dst).bankFree 3 (bankOf (g.addr + 8 * j)) = true) →
      ∃ t, exec (.signalStoreArrival src dst) s = .next t ∧ t.mem.signals = [] ∧
        (∀ (j : Nat) (w : Word), g.words[j]? = some w → mword (t.cell dst).spad (g.addr + 8 * j) = w) ∧
        (∀ a, a < g.addr ∨ g.addr + 8 * g.words.length ≤ a → mget (t.cell dst).spad a = mget (s.cell dst).spad a) ∧
        (t.cell dst).seq = (s.cell dst).seq) ∧
    (∀ w, g.sig = true → g.words = [w] → (s.cell dst).bankFree 3 (bankOf g.addr) = true → (s.cell dst).spBad g.addr = false →
      ∃ t, exec (.sigArrival src dst) s = .next t ∧ t.mem.signals = [] ∧
        mword (t.cell dst).spad g.addr = mword (s.cell dst).spad g.addr + w ∧
        (∀ a, a < g.addr ∨ g.addr + 8 ≤ a → mget (t.cell dst).spad a = mget (s.cell dst).spad a))) ∧
  (∀ (c : Nat) (k : CopyCmd) (l : List CopyCmd) (s : State), (s.cell c).copyq = k :: l → (s.cell c).pending .copy = false →
    let x := s.cell c
    let die := c / 1600
    let asid := x.seq.id.asid
    let total := k.run * k.nrun
    let last := min total (k.progress + 4096)
    let walks (b : Nat) (stride : BitVec 32) : Int := (b / k.run : Nat) * stride.toInt + (b % k.run : Nat)
    let spad (b : Nat) : Int := k.soff + walks b k.sstride
    let va (b : Nat) : Nat := ((k.gaddr.toNat + walks b k.gstride) % 2 ^ 48).toNat
    let remote (b : Nat) : Int := (k.gaddr.toNat % 2 ^ 19 : Nat) + walks b k.gstride
    let inside (f : Nat → Int) : Prop := ∀ b < last, k.progress ≤ b → 0 ≤ f b ∧ f b < 2 ^ 19
    let puts (ps : List SpReq) (who : SpWho) (off : Int) (v : Byte) : Prop :=
      ∃ p ∈ ps, p.who = who ∧ p.cls = 4 ∧ (p.off : Int) ≤ off ∧ off < p.off + p.size ∧
        BitVec.ofNat 8 (p.val / 256 ^ (off - p.off).toNat) = v
    let writing : List CopyCmd := { k with stage := .writing, got := [] } :: l
    let limits := k.run % 8 = 0 ∧ 8 ≤ k.run ∧ k.run ≤ 65536 ∧ 1 ≤ k.nrun ∧ k.gaddr.toNat % 8 = 0 ∧ k.gaddr.toNat < 2 ^ 63 ∧
      k.gstride.toInt % 8 = 0 ∧ k.sstride.toInt % 8 = 0 ∧ k.soff % 8 = 0 ∧ k.progress % 4096 = 0 ∧ k.progress < total
    let failed (f : Cause) : Prop := ∃ t, exec (.copyChunk c) s = .next t ∧ t.mem = s.mem ∧
      t.cell c = { x with copyq := { k with stage := .ending, got := [] } :: l,
                          puts := x.puts ++ [{ who := .copy, cls := 4, off := k.cwoff, size := 8,
                                               val := (errorWord k.progress f).toNat }] }
    limits →
      (∀ b < last, k.progress ≤ b → ∃ p ∈ k.chunk, p.1 ≤ b ∧ b < p.1 + p.2) ∧
      (k.stage = .idle → x.stop = none → k.op ∈ [1, 2] → (∃ b < last, k.progress ≤ b ∧ (spad b < 0 ∨ 2 ^ 19 ≤ spad b)) →
        failed cCpFault) ∧
      (∀ p ps f a, k.stage = .idle → x.stop = none → k.op = 1 → inside spad → k.chunk = p :: ps →
        s.readGlobal die asid (k.va p.1) p.2 = (.error (.fail f a), s) → failed f) ∧
      (k.stage = .idle → x.stop = none → k.op = 1 → inside spad →
        (∀ p ∈ k.chunk, let o := s.readGlobal die asid (k.va p.1) p.2; o.1.toBool = true ∧ o.2 = s) →
        ∃ t ps, exec (.copyChunk c) s = .next t ∧ t.cell c = { x with copyq := writing, puts := x.puts ++ ps } ∧ t.mem = s.mem ∧
          ∀ p ∈ k.chunk, ∀ ln, (s.readGlobal die asid (k.va p.1) p.2).1 = .ok ln → ∀ i < p.2,
            puts ps .copy (spad (p.1 + i)) (ln.extractLsb' (8 * (va (p.1 + i) % 128)) 8)) ∧
      (k.stage = .idle → x.stop = none → k.op = 4 → k.dir = false → inside spad →
        ∃ t ps, exec (.copyChunk c) s = .next t ∧ t.cell c = { x with copyq := writing, puts := x.puts ++ ps } ∧ t.mem = s.mem ∧
          ∀ b < last, k.progress ≤ b → puts ps .copy (spad b) (laneOf 8 (b % 8) k.pattern)) ∧
      (k.stage = .idle → x.stop = none → (k.op = 2 ∧ inside spad ∨ k.op = 3 ∧ inside spad ∧ inside remote ∧
          s.sameGang c (k.gaddr.toNat / 2 ^ 32 % 65536) = true) →
        ∃ t ps, exec (.copyChunk c) s = .next t ∧ t.mem = s.mem ∧
          t.cell c = { x with copyq := { k with stage := .reading, got := [] } :: l, puts := x.puts ++ ps } ∧
          ∀ b < last, k.progress ≤ b → ∃ p ∈ ps, p.who = .copy ∧ p.cls = 4 ∧ p.size = 0 ∧ (p.off : Int) = spad b / 8 * 8) ∧
      (let word (b : Nat) : Option Word := (k.got.find? fun e => e.1 = (spad b / 8 * 8).toNat).bind (·.2)
       let byte (b : Nat) : Byte := if k.op = 4 then laneOf 8 (b % 8) k.pattern
         else ((word b).getD 0).extractLsb' (8 * (spad b % 8).toNat) 8
       let ready := k.stage = .reading ∧ (∀ e ∈ k.got, e.2.isSome = true) ∧ (∀ b < last, k.progress ≤ b → (word b).isSome = true)
       (ready → k.op = 3 → inside spad → inside remote → let d := k.gaddr.toNat / 2 ^ 32 % 2 ^ 15
         d ≠ c → ∃ t ps, exec (.copyChunk c) s = .next t ∧ t.cell c = { x with copyq := writing } ∧ t.mem = s.mem ∧
           t.cell d = { s.cell d with puts := (s.cell d).puts ++ ps } ∧
           ∀ b < last, k.progress ≤ b → puts ps (.xfr c) (remote b) (byte b)) ∧
       ∀ (pos n : Nat) (tr : Trans), (ready ∧ k.op = 2 ∨ k.stage = .idle ∧ x.stop = none ∧ k.op = 4 ∧ k.dir = true) →
         inside spad → k.chunk = [(pos, n)] → s.translate die asid (va pos / 128 * 128) 2 false = (.ok tr, s) →
         let m := tr.addr / 128
         let o := va pos % 128
         (tr.host = true → s.cxlReach = true → s.mem.host.wf = true → ∃ t, exec (.copyChunk c) s = .next t ∧
           (t.cell c).copyq = writing ∧ t.mem.dram = s.mem.dram ∧
           (∀ i < n, mget t.mem.host (m * 128 + o + i) = byte (pos + i)) ∧
           ∀ a, a < m * 128 + o ∨ m * 128 + o + n ≤ a → mget t.mem.host a = mget s.mem.host a) ∧
         ∀ ln, tr.host = false → s.recallLost m = false → (∀ w, s.openLine m true tr.cbit w 6 = (none, s)) →
           s.lls m = some ln → ln.hard = 0 → ∃ t l', exec (.copyChunk c) s = .next t ∧ (t.cell c).copyq = writing ∧
             t.lls m = some l' ∧ t.mem.dram = s.mem.dram ∧ (∀ m', m' ≠ m → t.lls m' = s.lls m') ∧
             ∀ j < 128, l'.data.extractLsb' (8 * j) 8 =
               if o ≤ j ∧ j < o + n then byte (pos + (j - o)) else ln.data.extractLsb' (8 * j) 8) ∧
      (k.stage = .idle → x.stop = none → k.op = 5 → k.gath.length = 64 → inside spad →
        let g (off n : Nat) : Nat := leNat ((k.gath.drop off).take n)
        let e := 2 ^ g 0x20 1
        let ok (a n : Nat) : Prop := let o := s.readBytes die asid (a % 2 ^ 48) n; o.1.toBool = true ∧ o.2 = s
        let at_ (a n : Nat) : Nat := match (s.readBytes die asid (a % 2 ^ 48) n).1 with | .ok bs => leNat bs | .error _ => 0
        let row (j : Nat) : Nat := g 0x00 8 + 4 * (g 0x18 4 + j)
        let col (i : Nat) : Nat := at_ (g 0x08 8 + 4 * i) 4
        let hits (i y : Nat) : Bool := col i == g 0x1c 4 + y
        g 0x20 1 < 4 → g 0x21 3 = 0 → g 0x28 24 = 0 →
        (∀ b < last, k.progress ≤ b → let j := b / k.run
          ok (row j) 4 ∧ ok (row (j + 1)) 4 ∧ at_ (row j) 4 ≤ at_ (row (j + 1)) 4 ∧
          ∀ i < at_ (row (j + 1)) 4, at_ (row j) 4 ≤ i → ok (g 0x08 8 + 4 * i) 4 ∧ col i < g 0x24 4 ∧
            (g 0x1c 4 ≤ col i → col i < g 0x1c 4 + k.run / e → ok (g 0x10 8 + e * i) e)) →
        ∃ t ps, exec (.copyChunk c) s = .next t ∧ t.cell c = { x with copyq := writing, puts := x.puts ++ ps } ∧ t.mem = s.mem ∧
          ∀ b < last, k.progress ≤ b → let j := b / k.run
            let first := at_ (row j) 4
            let src := (((List.range (at_ (row (j + 1)) 4 - first)).map (first + ·)).reverse).find? fun i => hits i (b % k.run / e)
            puts ps .copy (spad b) (match src with
              | some i => BitVec.ofNat 8 (at_ (g 0x10 8 + e * i) e / 256 ^ (b % k.run % e))
              | none => 0))) ∧
  ∀ (c : Nat) (k : CopyCmd) (l : List CopyCmd) (s : State), (s.cell c).copyq = k :: l → (s.cell c).pending .copy = false →
    let steps (h : List CopyCmd) (ps : List SpReq) : Prop := ∃ t, exec (.copyChunk c) s = .next t ∧
      t.cell c = { s.cell c with copyq := h ++ l, puts := (s.cell c).puts ++ ps } ∧ (∀ n, n ≠ c → t.cell n = s.cell n) ∧
      t.mem = s.mem
    (k.stage = .idle → (s.cell c).stop = none → k.op = 4 → k.dir = false → k.gaddr = 0 → k.nrun = 1 → k.run % 8 = 0 →
      0 < k.run → k.run ≤ 128 → k.soff % 8 = 0 → k.soff + k.run ≤ 2 ^ 19 → k.progress = 0 →
      steps [{ k with stage := .writing, got := [] }] ((List.range (k.run / 8)).map fun j =>
        { who := .copy, cls := 4, off := k.soff + 8 * j, size := 8, val := k.pattern.toNat })) ∧
    (k.stage = .writing → k.op ≠ 3 →
      steps [{ k with stage := .idle, progress := min (k.run * k.nrun) (k.progress + 4096), got := [] }] []) ∧
    (k.stage = .idle → k.run * k.nrun ≤ k.progress → steps [{ k with stage := .ending, got := [] }]
      [{ who := .copy, cls := 4, off := k.cwoff, size := 8, val := k.cval.toNat }]) ∧
    (k.stage = .ending → steps [] [])

/-! ### Events of memory -/

/-- R129, R130, R141, R142, R224, R226: a translated request goes to its slice and one that fails has its cause; a read of
a line in the LLS and a read of a host page are answered with their bytes, or with POISON where a granule that the read
needs is poisoned; an accepted write takes its masked bytes, in the LLS or in host memory; R311: an atomic
on a line in the LLS leaves its new value, rounded once to the nearest for AMO.FADD, changes no other byte and answers the
old one; a CAS that finds another value than its comparand changes nothing. That host lines answer POISON by granules is
the model's reading (log 35), and that a line of the LLS has a poison mark for each granule its choice (log 98). -/
def Obligations.RequestEvents : Prop :=
  ∀ (s : State) (id : Nat) (r : Req), s.req id = some r → (s.cell r.cell).freeze = .mem id →
    let n := r.trans.addr / 128
    let got (l : Line) (b : BitVec 2) : State := s.setReq id { r with stage := .done, data := l, bad := b }
    let failed : State := s.setReq id { r with stage := .failed cPoison }
    (∀ u tr, r.stage = .walk → r.kind ∈ [.read, .fill, .fetch] →
      s.translate (r.cell / 1600) r.asid (r.line * 128) r.need.toNat false = (.ok tr, u) →
      exec (.pageWalk id) s = .next (u.setReq id { r with trans := tr, stage := .slice })) ∧
    (∀ u f a, r.stage = .walk → r.kind ∈ [.read, .fill, .fetch] →
      s.translate (r.cell / 1600) r.asid (r.line * 128) r.need.toNat false = (.error (.fail f a), u) →
      u.cell r.cell = s.cell r.cell → exec (.pageWalk id) s = .next (u.setReq id { r with stage := .failed f })) ∧
    (r.stage = .slice → s.olderWrite id r = false →
      (r.kind ∈ [.read, .fill, .fetch] →
        (r.trans.host = true → s.cxlReach = true →
          (s.hostPoison n &&& r.grans = 0 → exec (.sliceRead id) s = .next (got (mline s.mem.host (n * 128)) (s.hostPoison n))) ∧
          (s.hostPoison n &&& r.grans ≠ 0 → exec (.sliceRead id) s = .next failed)) ∧
        (∀ l, r.trans.host = false → s.bitsRead n = (none, s) → s.gate n false r.trans.cbit = .ok → s.lls n = some l → l.soft = 0 → l.hard = 0 →
          l.syn = 0 → (l.poison &&& r.grans = 0 → exec (.sliceRead id) s = .next (got l.data l.poison)) ∧
            (l.poison &&& r.grans ≠ 0 → exec (.sliceRead id) s = .next failed))) ∧
      (∀ mask data dr, r.kind = .write mask data dr 0 →
        (r.trans.host = true → s.cxlReach = true → s.mem.host.wf = true → ∃ t, exec (.writeQueueAccept id) s = .next t ∧
          t.req id = some { r with stage := .done } ∧ t.mem.dram = s.mem.dram ∧
          (∀ j < 128, mget t.mem.host (n * 128 + j) =
            if mask.getLsbD j then data.extractLsb' (8 * j) 8 else mget s.mem.host (n * 128 + j)) ∧
          ∀ a, a < n * 128 ∨ n * 128 + 128 ≤ a → mget t.mem.host a = mget s.mem.host a) ∧
        (∀ l, r.trans.host = false → mask ≠ BitVec.allOnes 128 → s.queued id r = true → s.bitsRead n = (none, s) → s.gate n true r.trans.cbit = .ok →
          s.lls n = some l → l.hard = 0 →
          ∃ t l', exec (.writeQueueAccept id) s = .next t ∧ t.req id = some { r with stage := .done } ∧ t.lls n = some l' ∧
            l'.dirty = true ∧ (∀ j < 128, l'.data.extractLsb' (8 * j) 8 =
              if mask.getLsbD j then data.extractLsb' (8 * j) 8 else l.data.extractLsb' (8 * j) 8) ∧
            t.mem.dram = s.mem.dram ∧ ∀ m, m ≠ n → t.lls m = s.lls m)) ∧
      (∀ l op off size b cmp, r.kind = .atomic op off size b cmp → op.val ≤ 10 → size = (if op.val = 1 then 4 else 8) →
        off % size = 0 → off < 128 → r.trans.cbit = true → s.queued id r = true →
        s.gate n true true = .ok → s.lls n = some l → l.soft = 0 → l.hard = 0 → l.syn = 0 → l.poison &&& r.grans = 0 →
        let old : Word := if size = 4 then (l.data.extractLsb' (8 * off) 32).setWidth 64 else l.data.extractLsb' (8 * off) 64
        let answered := some { r with stage := .done, old := old }
        (op.val < 10 ∨ old = cmp → ∃ t l', exec (.sliceAtomic id) s = .next t ∧ t.lls n = some l' ∧ l'.dirty = true ∧
          (∀ j < 128, l'.data.extractLsb' (8 * j) 8 = if off ≤ j ∧ j < off + size
            then (atomicOf op.val old b).extractLsb' (8 * (j - off)) 8 else l.data.extractLsb' (8 * j) 8) ∧
          t.req id = answered ∧ t.mem.dram = s.mem.dram ∧ ∀ m, m ≠ n → t.lls m = s.lls m) ∧
        (op.val = 10 → old ≠ cmp → ∃ t, exec (.sliceAtomic id) s = .next t ∧ t.lls n = some l ∧ t.req id = answered ∧
          t.mem.dram = s.mem.dram)))

/-- R128, R138, R140, R142, R231, R232: a line is filled from DRAM, a dirty one evicted into it, an unpulled line of
an ACTIVE migration pulled from its old place, and the Skink corrects a granule or poisons it. That a line of the LLS has
a poison mark for each of its two granules, which its eviction hands on, is the model's choice (log 98). -/
def Obligations.LineEvents : Prop :=
  (∀ (n : Nat) (s : State), s.gate n false true = .fill → (s.gran (2 * n)) = {} → (s.gran (2 * n + 1)) = {} →
    ∃ t, exec (.llsFill n) s = .next t ∧ t.lls n = some { data := mline s.mem.dram (n * 128) } ∧ t.mem.dram = s.mem.dram ∧
      ∀ m, m ≠ n → t.lls m = s.lls m) ∧
  (∀ (n : Nat) (s : State) (l : LlsLine), s.mem.lls = [(n, l)] → l.dirty = true → l.hard = 0 → l.syn = 0 →
    s.mem.dram.wf = true →
    ∃ t, exec (.llsEviction n) s = .next t ∧ t.mem.lls = [] ∧ (t.gran (2 * n)).poison = l.poison.getLsbD 0 ∧
      (t.gran (2 * n + 1)).poison = l.poison.getLsbD 1 ∧
      (∀ j < 128, mget t.mem.dram (n * 128 + j) = l.data.extractLsb' (8 * j) 8) ∧
      ∀ a, a < n * 128 ∨ n * 128 + 128 ≤ a → mget t.mem.dram a = mget s.mem.dram a) ∧
  (∀ (e : Fin 1024) (s : State) (m : MigEntry) (k : Nat) (l : LlsLine),
    s.mem.mig = [(e.val, m)] → m.state = .active → m.oh = false → nextUnpulled s m = some k →
    let n := m.new.toNat / 128 + k
    let o := m.old.toNat / 128 + k
    let pulled (i : Instr) : Prop := ∃ t l', exec i s = .next t ∧ t.lls n = some l' ∧ l'.data = l.data ∧ l'.dirty = true ∧
      ∃ m', tfind t.mem.mig e.val = some m' ∧ m'.filled = m.filled + 1
    s.lls o = some l → l.soft = 0 → l.hard = 0 → l.syn = 0 → l.poison = 0 → s.lls n = none → setFull s n = false → n ≠ o →
    m.bitLine k ≠ n → s.bitsRead n = (none, s) → lineGate s (m.bitLine k) true false = .ok → s.sys.stktrn.getLsbD (dpaStack m.old.toNat) = true → dirFind s o = none →
    migPulled s m k = false → k < m.lines → m.new.toNat % 128 = 0 →
    (s.scan ((List.range (k / 1024 + 1)).map (m.bmap.toNat / 128 + ·)) = (none, s) → pulled (.backgroundFill e)) ∧
    ∀ id r, s.req id = some r → r.stage = .slice → s.olderWrite id r = false → r.trans.host = false →
      r.trans.addr / 128 = n → pulled (.pullOnFirstTouch id)) ∧
  ∀ s : State, let g := s.mem.skinkPos % 2 ^ 35; let x := s.gran g
    (x.badSyms = 0 → exec .skinkScrub s = .next { s with mem := { s.mem with skinkPos := s.mem.skinkPos + 1 } }) ∧
    (1 ≤ x.badSyms → x.badSyms ≤ 4 → ∃ t, exec .skinkScrub s = .next t ∧ t.mem.skinkPos = s.mem.skinkPos + 1 ∧
      t.gran g = { x with ver := x.ver + 1, badSyms := 0 } ∧ t.mem.ecHbm = satInc s.mem.ecHbm ∧ t.mem.dram = s.mem.dram) ∧
    (4 < x.badSyms → ∃ t e, exec .skinkScrub s = .next t ∧ t.mem.skinkPos = s.mem.skinkPos + 1 ∧
      t.gran g = { x with ver := x.ver + 1, badSyms := 0, poison := true } ∧ t.sys.errDue = s.sys.errDue ++ [e] ∧
      e.cause = cMcHbmUe ∧ e.cls = 2 ∧ e.point = 6 ∧ e.addr = BitVec.ofNat 64 (g * 64) ∧ t.mem.dram = s.mem.dram)

/-- R131, R160, R213, R226, R227: the host gives a line back, with its data when it owned it; one that it does not
give back in 1 ms is poisoned, and who waits for it receives POISON; a read by the host is answered, with poison where the
line has it, and recorded in the directory; a write by it is accepted and ends its own copy; a shootdown begins, removes the translations and cached lines of its
ASID, and ends once no access translated before its second pass and no near-bank command of its ASID is left. That a host access allocates no line (log 28)
and that a shootdown takes every line of its ASID in two passes (log 29) are the model's choices. -/
def Obligations.HostAndShootdownEvents : Prop :=
  (∀ (n : Nat) (d : Option HostGives) (s : State), s.mem.recalls.any (·.line = n) = true → migOf s n = none →
    ∃ t, exec (.hostRecallResponse n d) s = .next t ∧ dirFind t n = none ∧ (∀ m, m ≠ n → dirFind t m = dirFind s m) ∧
      t.mem.recalls = s.mem.recalls.filter (·.line ≠ n) ∧
      (∀ g, d = some g → dirFind s n = some ⟨n, true⟩ → s.mem.dram.wf = true →
        t.lineVal n = g.line ∧ t.poisonOf n = if g.poison then 3 else 0) ∧
      (d = none ∨ dirFind s n = some ⟨n, false⟩ → t.mem.dram = s.mem.dram ∧ t.mem.lls = s.mem.lls)) ∧
  (∀ (n id : Nat) (k : Recall) (r : Req) (s : State), s.mem.recalls = [k] → k.line = n → k.deadline ≤ s.now →
    s.mem.reqs = [(id, r)] → r.stage = .slice → r.trans.host = false → r.trans.addr / 128 = n →
    r.kind = .read → (s.cell r.cell).freeze = .mem id →
    ∃ t e, exec (.hostRecallTimeout n) s = .next t ∧ dirFind t n = none ∧ t.mem.recalls = [] ∧ t.poisonOf n = 3 ∧
      t.req id = some { r with stage := .failed cPoison } ∧ t.sys.errDue = s.sys.errDue ++ [e] ∧ e.cause = cPoison ∧
      e.cls = 2 ∧ e.point = 8 ∧ e.addr = BitVec.ofNat 64 (n * 128) ∧ t.mem.dram = s.mem.dram) ∧
  (∀ (n : Nat) (own : Bool) (s : State) (l : LlsLine), n < 2 ^ 34 → s.hostMem = true → dirFind s n = none →
    dirOldest s n = none → s.bitsRead n = (none, s) → s.gate n false false = .ok → s.lls n = some l → l.soft = 0 → l.hard = 0 → l.syn = 0 →
    ∃ t, exec (.hostCxlRead n own) s = .next t ∧ dirFind t n = some ⟨n, own⟩ ∧ (∀ m, m ≠ n → dirFind t m = dirFind s m) ∧
      t.mem.hostResp = some ⟨n, l.data, l.poison != 0⟩ ∧
      t.mem.lls = s.mem.lls ∧ t.mem.dram = s.mem.dram ∧ t.cells = s.cells) ∧
  (∀ (a : Nat) (bs : List Byte) (bad : Bool) (s : State), a < 2 ^ 41 → s.hostMem = true → bs ≠ [] → a % 128 + bs.length ≤ 128 →
    s.hostBehind (a / 128) = false → s.queueRoom (a / 128) = true → migOf s (a / 128) = none → nbBusy s (a / 128) = (false, false) → s.lls (a / 128) = none →
    s.mem.dram.wf = true →
    ∃ t, exec (.hostCxlWrite a ⟨bs, bad⟩) s = .next t ∧ dirFind t (a / 128) = none ∧
      (∀ (j : Nat) (b : Byte), bs[j]? = some b → mget t.mem.dram (a + j) = b ∧
        (bad = true → (t.gran ((a + j) / 64)).poison = true)) ∧
      ∀ b, b < a ∨ a + bs.length ≤ b → mget t.mem.dram b = mget s.mem.dram b) ∧
  (∀ (asid : BitVec 16) (g : Option (Nat × Nat)) (s : State), ∃ t, exec (.shootdown asid g) s = .next t ∧
    tfind t.mem.shoots s.mem.nextShoot = some { asid := asid, range := g } ∧ t.mem.nextShoot = s.mem.nextShoot + 1 ∧
    t.mem.tlb = s.mem.tlb ∧ t.cells = s.cells) ∧
  ∀ (n : Nat) (h : Shoot) (s : State), tfind s.mem.shoots n = some h →
    (h.passes = 0 → ∃ t, exec (.shootdownComplete n) s = .next t ∧
      tfind t.mem.shoots n = some { h with passes := 1, upto := t.mem.nextReq } ∧
      (∀ e ∈ t.mem.tlb, e ∈ s.mem.tlb ∧ ¬(e.asid = h.asid ∧ (h.range = none ∨
        ∃ lo hi, h.range = some (lo, hi) ∧ e.base < hi ∧ lo < e.base + 2 ^ levelShift e.size))) ∧
      ∀ c, (s.cell c).bound.isSome = true → (s.cell c).seq.id.asid = h.asid →
        (t.cell c).dcache = (s.cell c).dcache.filter (·.asid ≠ h.asid) ∧
        (t.cell c).icache = (s.cell c).icache.filter (·.asid ≠ h.asid) ∧ (t.cell c).seq = (s.cell c).seq) ∧
    (2 ≤ h.passes → (∀ id r, (id, r) ∈ s.mem.reqs → id < h.upto → r.asid = h.asid → r.stage ≠ .slice ∧ r.stage ≠ .done) →
      (∀ k ∈ s.mem.nb, k.asid = h.asid → k.stage = .recalling ∨ k.stage = .executing → h.upto ≤ k.seen) →
      ∃ t, exec (.shootdownComplete n) s = .next t ∧ tfind t.mem.shoots n = none ∧
        (∀ m, m ≠ n → tfind t.mem.shoots m = tfind s.mem.shoots m) ∧ t.mem.tlb = s.mem.tlb ∧ t.cells = s.cells)

/-- R132, R133, R135, R202, R203, R332: a command whose rows pass the checks is split into per-bank commands, one for each bank, in which each
position is done where its destination row stands, or its first source row where it has none; one that
fails them goes to its completion with its cause; a per-bank command of ZERO, RCOPY, or COPY within a bank leaves zeros
or the bytes of its source in its destination row, one of AXPY, ADD, MUL or SCALE the elements that R332 gives, each formed
exactly and rounded once to the nearest, and one of SUM or DOT its sum, rounded once to FP32, among the command's results; a
command whose positions are done invalidates its destination lines and asks for the writes of its results at ROFF, then
asks for its completion word, and with that is gone. The checks are those of translations that the agent holds. -/
def Obligations.NearBankEvents : Prop :=
  (∀ (id : Nat) (s : State) (k : NbCmd), s.nbFind id = some k → k.stage = .accepted → s.nbBehind k = false →
    (∀ rs, s.nbChecks k = (.ok rs, s) → s.mem.dir = [] → s.mem.lls = [] →
      let at_ (a : Nat) : Nat × Nat × Nat := (dpaStack a, dpaChan a, dpaBank a)
      ∃ t j l, exec (.nbDispatch id) s = .next t ∧ t.nbFind id = some j ∧ j.stage = .executing ∧ j.rows.length = k.count ∧
        (k.op ≠ 1 → j.left = k.count) ∧ t.mem.bankQ = s.mem.bankQ ++ l ∧ (l.map fun b => (b.stack, b.chan, b.bank)).Nodup ∧
        (∀ b ∈ l, b.id = k.id ∧ b.acts ≠ [] ∧ ∀ a ∈ b.acts, ∃ d x y, j.rows[a.j]? = some (d, x, y) ∧
          (a.src = false → some (b.stack, b.chan, b.bank) = (d.or x).map at_) ∧
          (a.src = true → k.op = 1 ∧ some (b.stack, b.chan, b.bank) = x.map at_)) ∧
        (∀ i d x y a, j.rows[i]? = some (d, x, y) → d.or x = some a →
          ∃ b ∈ l, (b.stack, b.chan, b.bank) = at_ a ∧ ⟨i, false⟩ ∈ b.acts) ∧ t.mem.dram = s.mem.dram ∧ t.cells = s.cells) ∧
    (k.lists.all RowList.aligned = false →
      ∃ t, exec (.nbDispatch id) s = .next t ∧ t.nbFind id = some { k with stage := .results, cause := cNbRange })) ∧
  (∀ (s : State) (b : BankCmd) (k : NbCmd) (d i : Nat) (x : Option Nat), s.mem.bankQ = [b] → s.nbFind b.id = some k →
    b.acts = [⟨i, false⟩] → k.rows[i]? = some (some d, x, none) →
    (k.op = 0 ∧ x = none ∨ k.op = 2 ∧ x.isSome = true ∨ k.op = 1 ∧ ∃ a, x = some a ∧ sameBank a d = true) →
    s.mem.dram.wf = true → (∀ a, x = some a → ∀ i < 16, (s.gran (a / 1024 * 16 + i)) = {}) →
    ∃ t j, exec (.perBankCommand b.stack b.chan b.bank) s = .next t ∧ t.mem.bankQ = [] ∧ t.nbFind b.id = some j ∧
      j.left = k.left - 1 ∧ j.bad = k.bad ∧ t.mem.lls = s.mem.lls ∧
      (∀ i < 1024, mget t.mem.dram (d / 1024 * 1024 + i) = match x with
        | none => 0
        | some a => mget s.mem.dram (a / 1024 * 1024 + i)) ∧
      ∀ a, a / 1024 ≠ d / 1024 → mget t.mem.dram a = mget s.mem.dram a) ∧
  (∀ (s : State) (b : BankCmd) (k : NbCmd) (i : Nat) (d x y : Option Nat), s.mem.bankQ = [b] → s.nbFind b.id = some k →
    b.acts = [⟨i, false⟩] → k.rows[i]? = some (d, x, y) → (∀ a, x = some a ∨ y = some a → ∀ i < 16, (s.gran (a / 1024 * 16 + i)) = {}) →
    let f := if k.bf16 then fmtBf16 else fmtF32
    let w := if k.bf16 then 2 else 4
    let el (o : Option Nat) (e : Nat) : Fp := f.value (leNat (mread s.mem.dram (o.getD 0 / 1024 * 1024 + w * e) w))
    let alpha := fmtF32.value k.alpha.toNat
    (∀ a, d = some a → x.isSome = true → s.mem.dram.wf = true →
      (k.op ∈ [3, 4, 5] ∧ y.isSome = true ∨ k.op = 6 ∧ y = none) →
      ∃ t j, exec (.perBankCommand b.stack b.chan b.bank) s = .next t ∧ t.mem.bankQ = [] ∧ t.nbFind b.id = some j ∧
        j.left = k.left - 1 ∧ j.bad = k.bad ∧
        (∀ e < 1024 / w, leNat (mread t.mem.dram (a / 1024 * 1024 + w * e) w) = (f.finish { mode := 0 }
          (if k.op = 3 then fmaFp 0 alpha (el x e) (el y e) else if k.op = 4 then sumFp 0 [el x e, el y e]
           else if k.op = 5 then mulFp (el x e) (el y e) else mulFp alpha (el x e))).1 % 256 ^ w) ∧
        ∀ a', a' / 1024 ≠ a / 1024 → mget t.mem.dram a' = mget s.mem.dram a') ∧
    (d = none → x.isSome = true → (k.op = 7 ∧ y = none ∨ k.op = 8 ∧ y.isSome = true) →
      ∃ t j, exec (.perBankCommand b.stack b.chan b.bank) s = .next t ∧ t.mem.bankQ = [] ∧ t.nbFind b.id = some j ∧
        j.left = k.left - 1 ∧ j.bad = k.bad ∧ t.mem.dram = s.mem.dram ∧
        j.out = k.out ++ [(i, BitVec.ofNat 32 (fmtF32.finish { mode := 0 } (sumFp 0 ((List.range (1024 / w)).map fun e =>
          if k.op = 7 then el x e else (mulFp (el x e) (el y e)).1))).1)])) ∧
  ∀ (id : Nat) (s : State) (k : NbCmd), s.nbFind id = some k → (s.cell k.cell).pending (.nb id) = false →
    (k.stage = .executing → k.left = 0 → 7 ≤ k.op.val → k.cause = 0 → ∃ t ps, exec (.nbCompletion id) s = .next t ∧
      t.nbFind id = some { k with stage := .results } ∧
      t.cell k.cell = { s.cell k.cell with puts := (s.cell k.cell).puts ++ ps } ∧ t.mem.dram = s.mem.dram ∧
      (∀ p ∈ ps, p.who = .nb id ∧ p.cls = 4 ∧ k.roff ≤ p.off ∧ p.off + p.size ≤ k.roff + 4 * k.count) ∧
      ∀ j < k.count, ∀ v, k.out.find? (·.1 = j) = some (j, v) → ∀ i < 4, ∃ p ∈ ps, p.off ≤ k.roff + 4 * j + i ∧
        k.roff + 4 * j + i < p.off + p.size ∧ BitVec.ofNat 8 (p.val / 256 ^ (k.roff + 4 * j + i - p.off)) = v.extractLsb' (8 * i) 8) ∧
    (k.stage = .executing → k.left = 0 → k.op.val < 7 → ∃ t, exec (.nbCompletion id) s = .next t ∧
      t.nbFind id = some { k with stage := .results } ∧ t.cell k.cell = s.cell k.cell ∧
      (∀ n, (∃ d x y, (some d, x, y) ∈ k.rows ∧ n / 8 = d / 1024) → t.lls n = none) ∧
      (∀ n, (∀ d x y, (some d, x, y) ∈ k.rows → n / 8 ≠ d / 1024) → t.lls n = s.lls n) ∧ t.mem.dram = s.mem.dram) ∧
    (k.stage = .results → ∃ t w, exec (.nbCompletion id) s = .next t ∧ t.nbFind id = some { k with stage := .finished } ∧
      t.cell k.cell = { s.cell k.cell with puts := (s.cell k.cell).puts ++
        [{ who := .nb id, cls := 4, off := k.cwoff, size := 8, val := w }] } ∧ t.mem.dram = s.mem.dram ∧
      (k.cause = 0 → k.bad = none → w = k.info.toNat * 2 ^ 56 + k.cval.toNat) ∧
      (k.cause ≠ 0 → k.cause ≠ cMcSpadEcc → w = 2 ^ 63 + k.cause.toNat)) ∧
    (k.stage = .finished → ∃ t, exec (.nbCompletion id) s = .next t ∧ t.nbFind id = none ∧
      (∀ n, n ≠ id → t.nbFind n = s.nbFind n) ∧ t.mem.dram = s.mem.dram)

/-! ### Events of the module -/

/-- R205 to R207, R211, R212, R252, R253, R336, R338, R339: a message whose flits come in order at a port that is UP is
held, or begins to be written by the operation that receives it; flits out of order, and one whose CRC differs, are
discarded and the last good FSEQ named; the sender replays, and after eight failed replays its port retrains, and so does the
port at which the partner's replays of one flit fail eight times in a row; an
aborted round ends once in every cell and is flooded on; an attempt brings its port UP or leaves it DOWN; a wait whose
limit has come returns the timeout word. A step of an all-reduce (R209, R210, R337): its step 0 forms the exact records,
a received segment of records is added to the records in the work area, the sums of the root's segment are rounded once into
BUF, and its completion word is CVAL plus the step. That a port counts the failed replays of its partner's flit is the
model's choice (log 112). -/
def Obligations.LinkEvents : Prop :=
  (∀ (p : Fin 32) (q : BitVec 16) (m : LinkMsg) (s : State), (s.port p).state = .up → s.isAborted m.group m.round = false →
    let c := m.dcell.toNat
    let x := s.port p
    let n := max 1 ((m.data.length + 239) / 240)
    let seq := x.ackseq + BitVec.ofNat 16 n
    (q ≠ x.ackseq + 1 → ∃ t, exec (.linkMessageArrival ⟨p, q⟩ m) s = .next t ∧ t.port p = { x with nak := some x.ackseq } ∧
      t.cells = s.cells ∧ t.mem = s.mem) ∧
    (q = x.ackseq + 1 → (s.cell c).linkq = [] → x.heldBytes + m.data.length ≤ 262144 →
      ∃ t, exec (.linkMessageArrival ⟨p, q⟩ m) s = .next t ∧ t.cells = s.cells ∧ t.mem = s.mem ∧
        t.port p = { x with unmatched := x.unmatched ++ [m], ackseq := seq, nak := none, missed := 0 }) ∧
    (∀ k l, q = x.ackseq + 1 → (s.cell c).linkq = k :: l → k.op = 1 → k.started = true → k.noRecv = false → k.rcvd = false →
      k.phase = .rest → k.port = p → x.unmatched = [] → m.kind = 0 → m.group = k.group → m.round = k.round → m.tag = k.tag →
      (s.cell c).stop = none → m.data.length = k.len →
      ∃ t, exec (.linkMessageArrival ⟨p, q⟩ m) s = .next t ∧ t.mem = s.mem ∧
        t.port p = { x with ackseq := seq, nak := none, missed := 0, freed := x.freed + n } ∧
        t.cell c = { s.cell c with linkq := { k with msg := m.data, phase := .taking, got := [] } :: l,
                                   puts := (s.cell c).puts ++ writesOf .link 3 k.boff m.data (k.len + 1) })) ∧
  (∀ (p : Fin 32) (s : State), (s.port p).state = .up →
    let x := s.port p
    (∀ bs, flitCorrupt bs = true → x.nak ≠ some x.ackseq → ∃ t, exec (.badFlit ⟨p, bs⟩) s = .next t ∧
      t.port p = { x with nak := some x.ackseq } ∧ t.cells = s.cells) ∧
    (∀ i bs, (i = .badFlit ⟨p, bs⟩ ∧ flitCorrupt bs = true ∧ x.nak = some x.ackseq) ∨ (i = .failedReplay p ∧ x.replay = []) →
      (x.missed < 7 → ∃ t, exec i s = .next t ∧ t.port p = { x with missed := x.missed + 1 } ∧ t.cells = s.cells) ∧
      (7 ≤ x.missed → ∃ t, exec i s = .next t ∧ (t.port p).state = .training ∧ (t.port p).missed = 0 ∧
        (t.port p).retrains = if x.trained then satInc x.retrains else x.retrains)) ∧
    (∀ f g, x.replay = [f, g] → f.fseq ≠ g.fseq → f.last = false →
      ∃ t, exec (.linkRetry p f.fseq) s = .next t ∧
        t.port p = { x with replay := [g], replayFrom := some g.fseq, failed := 0 } ∧
        t.sys.eclRetry = satInc s.sys.eclRetry ∧ t.cells = s.cells) ∧
    (∀ f l, x.replay = f :: l → x.replayFrom = some f.fseq → x.failed < 7 →
      ∃ t, exec (.failedReplay p) s = .next t ∧ t.port p = { x with failed := x.failed + 1 } ∧
        t.sys.eclRetry = satInc s.sys.eclRetry) ∧
    (∀ f l, x.replay = f :: l → x.replayFrom = some f.fseq → 7 ≤ x.failed →
      ∃ t, exec (.failedReplay p) s = .next t ∧ (t.port p).state = .training ∧ (t.port p).replay = [] ∧
        (t.port p).waiting = [] ∧ (t.port p).retrains = if x.trained then satInc x.retrains else x.retrains) ∧
    (∀ (f g : Flit) (n : BitVec 16), x.replay = [f] → x.waiting = [g] → f.last = false → 1 ≤ n.toNat →
      ∃ t, exec (.creditAndAcknowledgement p f.fseq n) s = .next t ∧ (t.port p).waiting = [] ∧
        (t.port p).replay = [{ g with fseq := x.fseq, ackseq := x.ackseq, credits := BitVec.ofNat 16 x.freed }] ∧
        (t.port p).fseq = x.fseq + 1 ∧ (t.port p).freed = 0 ∧ (t.port p).credits = x.credits + n.toNat - 1) ∧
    (∀ (f : Flit) (m : LinkMsg) (k : LinkCmd) (l : List LinkCmd) (n : BitVec 16), x.replay = [f] → x.waiting = [] →
      f.last = true → f.msg = some m → (s.cell f.cell).linkq = k :: l → k.started = true → k.sent = false → k.op = 0 →
      m.kind = 0 → m.group = k.group → m.round = k.round → m.tag = k.tag →
      ∃ t, exec (.creditAndAcknowledgement p f.fseq n) s = .next t ∧ (t.cell f.cell).linkq = { k with sent := true } :: l ∧
        (t.port p).replay = [])) ∧
  (∀ (p : Fin 32) (q : BitVec 16) (g : BitVec 16) (r : BitVec 32) (s : State), (s.port p).state = .up →
    q = (s.port p).ackseq + 1 → s.isAborted g r = false →
    ∃ t, exec (.abortFlitArrival ⟨p, q⟩ g r) s = .next t ∧ t.isAborted g r = true ∧
      (∀ c, (s.cell c).stop.any (·.saved) = false → (t.cell c).seq = (s.cell c).seq ∧
        (t.cell c).linkq = (s.cell c).linkq.filter (fun k => !k.aborts g r) ∧
        ∀ k ∈ (s.cell c).linkq, k.aborts g r = true →
          { who := .word, cls := 4, off := k.cwoff, size := 8, val := (errorWord k.delivered cLkAborted).toNat } ∈ (t.cell c).puts) ∧
      ∀ o, (t.port o).waiting.length + (t.port o).replay.length =
        (s.port o).waiting.length + (s.port o).replay.length + if o ≠ p ∧ (s.port o).state = .up then 1 else 0) ∧
  (∀ (p : Fin 32) (r : TrainResult) (s : State), (s.port p).state = .training →
    ∃ t, exec (.portTrainingAttempt p r) s = .next t ∧ t.cells = s.cells ∧ (∀ o, o ≠ p → t.port o = s.port o) ∧
      t.port p = if r.lanes = 0 then { s.port p with state := .down, lanes := 0 }
        else { s.port p with state := .up, lanes := r.lanes, digest := r.digest }) ∧
  (∀ (k : Fin 2) (r : CxlResult) (s : State), ∃ t, exec (.cxlPortTraining k r) s = .next t ∧ t.sys.cxl[k.val] = r ∧
    (∀ j : Fin 2, j ≠ k → t.sys.cxl[j.val] = s.sys.cxl[j.val]) ∧ t.cells = s.cells ∧ t.mem = s.mem) ∧
  (∀ (c : Nat) (k : LinkCmd) (l : List LinkCmd) (s : State), (s.cell c).linkq = k :: l → k.op = 2 → k.started = true → 0 < k.m →
    (s.cell c).pending .link = false →
    let t := s.linkNext c
    let x := s.cell c
    let w := if k.bf16 then 2 else 4
    let seg (i : Int) : Nat × Nat := let q := (i % (k.m : Int)).toNat
      (q * k.len / k.m, (q + 1) * k.len / k.m - q * k.len / k.m)
    let r := seg ((k.pos : Int) - k.step - 1)
    let o := seg ((k.pos : Int) + 1)
    let rec48 (bs : List Byte) (e : Nat) : Nat := leNat ((bs.drop (48 * e)).take 48)
    let phase (p : LinkPhase) (ps : List SpReq) : CellSt :=
      { x with linkq := { k with phase := p, got := [] } :: l, puts := x.puts ++ ps }
    let taken : CellSt := { x with linkq := { k with phase := .rest, got := [], msg := [], rcvd := true } :: l,
                                   events := x.events ++ [⟨0x32, none, 1⟩] }
    (∀ bs, k.phase = .form → gotBytes k.got k.boff (w * k.len) = some bs → ∃ rs,
      t.cell c = phase .formed (writesOf .link 3 k.woff rs (6 * k.len + 1)) ∧ rs.length = 48 * k.len ∧
      ∀ e < k.len, let n := rec48 rs e
        n < 2 ^ 324 ∧ match k.fmt.value (leNat ((bs.drop (w * e)).take w)) with
        | .nan => n = 2 ^ 320
        | .inf b => n = if b then 2 ^ 322 else 2 ^ 321
        | .fin b m i => n / 2 ^ 320 = (if b = true ∧ m = 0 then 8 else 0) ∧
          ((n % 2 ^ 320 : Nat) : Int) ≡ (if b then -1 else 1) * ((m : Int) * 2 ^ (i + 149).toNat) [ZMOD 2 ^ 320]) ∧
    (∀ bs, k.phase = .adding → k.step + 2 ≤ k.m → gotBytes k.got (k.woff + 48 * r.1) (48 * r.2) = some bs → ∃ rs,
      t.cell c = phase .added (writesOf .link 3 (k.woff + 48 * r.1) rs (6 * k.len + 1)) ∧ rs.length = 48 * r.2 ∧
      ∀ e < r.2, let n := rec48 rs e
        let a := rec48 bs e
        let b := rec48 k.msg e
        n < 2 ^ 324 ∧ n % 2 ^ 320 = (a % 2 ^ 320 + b % 2 ^ 320) % 2 ^ 320 ∧
        (∀ i < 3, n.testBit (320 + i) = (a.testBit (320 + i) || b.testBit (320 + i))) ∧
        n.testBit 323 = (a.testBit 323 && b.testBit 323)) ∧
    (k.phase = .added → k.got.any (·.2.isNone) = false → t.cell c =
      if k.step + 2 = k.m then phase .root (readsOf .link (k.woff + 48 * o.1) (48 * o.2)) else taken) ∧
    (∀ bs, k.phase = .root → gotBytes k.got (k.woff + 48 * o.1) (48 * o.2) = some bs → ∃ rs,
      t.cell c = phase .rooted (writesOf .link 3 (k.boff + w * o.1) rs (w * k.len + 1)) ∧ rs.length = w * o.2 ∧
      ∀ e < o.2, let n := rec48 bs e
        let v := leNat ((rs.drop (w * e)).take w)
        let sum := sval 320 (n % 2 ^ 320)
        if n.testBit 320 ∨ (n.testBit 321 ∧ n.testBit 322) then v = if k.bf16 then 0x7fc0 else 0x7fc00000
        else if n.testBit 321 ∨ n.testBit 322 then k.fmt.value v = .inf (n.testBit 322)
        else if sum = 0 then v = if n.testBit 323 then 2 ^ (8 * w - 1) else 0
        else ∃ fl, RoundsTo k.fmt { mode := 0 } (decide (sum < 0)) (Exact.of ((sum.natAbs : ℚ) * (2 : ℚ) ^ (-149 : Int))) (v, fl)) ∧
    (k.phase = .rooted ∨ k.phase = .taking → k.got.any (·.2.isNone) = false → t.cell c = taken) ∧
    (k.phase = .rest → k.sent = true → k.rcvd = true → t.cell c =
      { phase .ending [{ who := .link, cls := 4, off := k.cwoff, size := 8,
                         val := ((k.cval + BitVec.ofNat 56 k.step).zeroExtend 64).toNat }] with
        linkq := { k with phase := .ending, got := [], msg := [] } :: l })) ∧
  ∀ (c : Nat) (a b d e : Word) (s : State), (s.cell c).freeze = .wait → (s.cell c).hold = [1, a, b, d, e] →
    (e ≤ s.sys.devtime → (s.cell c).stop = none → ∃ t, exec (.lkTimeout c) s = .next t ∧
      t.cell c = { s.cell c with hold := [2, 0x8000000000000064] } ∧ t.mem = s.mem) ∧
    (s.sys.devtime < e → exec (.lkTimeout c) s = .next s)

/-- R174 to R179, R181 to R183, R191, R235: the line monitor parses a sealed record within its limits and moves HEAD
past it; a record that starts has its kind's effect, and with CANCEL set none; one that has come to its end gets its
completion word and leaves its queue. That a record is numbered by the slots of all laps is the model's choice (log
80). -/
def Obligations.RecordEvents : Prop :=
  ∀ (vf : Fin 64) (q : BitVec 8) (s : State),
    let x := s.queue vf q
    let f := s.fn vf.val
    let put (r r' : Rec) : Queue := { x with recs := x.recs.map fun y => if y.slot = r.slot then r' else y }
    let ended (r : Rec) : Queue := put r { r with stage := .ended, cause := 0 }
    let starts (k : Nat) (r : Rec) : Prop := x.first = some r ∧ x.state = .active ∧ r.kind.toNat = k ∧ x.cancel = false
    (let a := f.window.toNat * 512 + x.ringofs + x.head
     let l0 := s.lineVal a
     let l1 := s.lineVal (a + 1)
     let two := sealExt l0 = true
     let n := if two then 2 else 1
     let r : Rec := { slot := x.lap + x.head, kind := BitVec.ofNat 4 (sealKind l0), line0 := l0, line1 := if two then l1 else 0,
                      age := s.now }
     x.state = .active → f.state ≠ .disabled → f.window ≠ 0 → x.head < 2 ^ x.ringlog → l0.getLsbD 1023 = x.par →
     sealKind l0 < 7 → sealsOk l0 (if two then some l1 else none) = true →
     (two → x.head + 1 < 2 ^ x.ringlog ∧ l1.getLsbD 1023 = x.par) → r.limitsOk s f = true →
     Opens s false (if two then [a, a + 1] else [a]) →
     ∃ t, exec (.lineMonitorParse vf q) s = .next t ∧ (t.queue vf q).recs = x.recs ++ [r] ∧
       (t.queue vf q).head = (x.head + n) % 2 ^ x.ringlog ∧
       (t.queue vf q).par = (if x.head + n = 2 ^ x.ringlog then !x.par else x.par) ∧
       t.sched.tasks = .event (.lineMonitorParse vf q) :: s.sched.tasks ∧ t.mem = s.mem ∧ t.cells = s.cells) ∧
    (∀ r, starts 1 r → r.stage = .parsed → r.num 0x20 8 = 0 → r.num 0x30 8 = 0 →
      ∃ t, exec (.recordReady vf q) s = .next t ∧ t.queue vf q = put r { r with stage := .ready, blocks := [] } ∧
        t.mem = s.mem ∧ t.cells = s.cells) ∧
    (∀ r, x.first = some r → x.state = .active → r.kind = 0 →
      ∃ t, exec (.pad vf q) s = .next t ∧ t.queue vf q = ended r ∧ t.mem = s.mem ∧ t.cells = s.cells) ∧
    (∀ (r : Rec) (w : WorkQ) (bs : List Byte), starts 2 r → let n := r.num 0x10 2
      let k := r.num 0x12 2
      let u := s.setWq n w
      tfind s.disp.wqs n = some w → w.appenders = [] → (w.tail - w.head) + k ≤ 2 ^ w.m →
      Opens s true ((List.range k).map fun j => w.slot (w.tail + j) / 128) →
      u.readBytes (queueDie f) x.asid (r.num 0x18 8) (64 * k) = (.ok bs, u) →
      ∃ t, exec (.work vf q) s = .next t ∧ tfind t.disp.wqs n = some { w with tail := w.tail + k } ∧
        (∃ y ∈ (t.queue vf q).recs, y.slot = r.slot ∧ y.stage = .ended ∧ y.cause = 0) ∧ t.cells = s.cells) ∧
    (∀ r, starts 3 r → r.num 0x24 1 = 0 → s.disp.timers.length < 1024 →
      ∃ t m, exec (.timerArm vf q) s = .next t ∧ t.disp.timers = s.disp.timers ++ [m] ∧ m.id = s.disp.nextTimer ∧ m.vf = vf ∧
        m.q = q ∧ m.when_ = r.num 0x10 8 ∧ m.period = r.num 0x18 8 ∧ m.wq.toNat = r.num 0x20 2 ∧ m.tag.toNat = r.num 0x22 2 ∧
        m.released = 0 ∧ t.mem = s.mem ∧
        (r.num 0x18 8 = 0 → m.slot = some r.slot ∧ t.queue vf q = put r { r with stage := .live }) ∧
        (r.num 0x18 8 ≠ 0 → m.slot = none ∧ t.queue vf q = ended r)) ∧
    (∀ r, starts 3 r → r.num 0x24 1 = 1 →
      let hit (m : Timer) : Prop := m.vf = vf ∧ m.period ≠ 0 ∧ m.wq.toNat = r.num 0x20 2 ∧ m.tag.toNat = r.num 0x22 2
      ∃ t, exec (.timerCancel vf q) s = .next t ∧ t.queue vf q = ended r ∧ t.mem = s.mem ∧
        (∀ m ∈ s.disp.timers, ¬hit m → m ∈ t.disp.timers) ∧
        (∀ m, s.disp.timers = [m] → hit m → t.disp.timers = [])) ∧
    (∀ r, starts 4 r → r.num 0x12 1 = 0 →
      ∃ t, exec (.phaserArrive vf q) s = .next t ∧ t.phaser (r.num 0x10 2) = (s.phaser (r.num 0x10 2)).arrive ∧
        t.queue vf q = ended r ∧ t.mem = s.mem) ∧
    (∀ r p, starts 4 r → r.num 0x12 1 = 1 → (s.phaser (r.num 0x10 2)).drop 0 = some p →
      ∃ t, exec (.phaserDrop vf q) s = .next t ∧ t.phaser (r.num 0x10 2) = p ∧ t.queue vf q = ended r ∧ t.mem = s.mem) ∧
    (∀ r, starts 5 r → (∀ i < 4, r.num (0x10 + i) 1 < 2) →
      ∃ t, exec (.wait vf q) s = .next t ∧ t.mem = s.mem ∧
        t.queue vf q = put r { r with
          stage := .live, waitVa := [none, none, none, none], waitSt := (List.range 4).map fun i => 1 - r.num (0x10 + i) 1 }) ∧
    (∀ r, x.first = some r → x.state = .active → r.kind = 6 → x.recs.head? = some r → (x.cancel = true → r.num 0x10 1 = 1) →
      ∃ t, exec (.fence vf q) s = .next t ∧ t.queue vf q = { ended r with cancel := false } ∧ t.mem = s.mem) ∧
    (∀ r, x.first = some r → x.state = .active → x.cancel = true → (r.kind = 6 → r.num 0x10 1 ≠ 1) →
      ∀ i, (i, r.kind.toNat) ∈ [(Instr.kernel vf q, 1), (.work vf q, 2), (.timerArm vf q, 3), (.timerCancel vf q, 3),
        (.phaserArrive vf q, 4), (.phaserDrop vf q, 4), (.wait vf q, 5), (.fence vf q, 6)] →
      ∃ t, exec i s = .next t ∧ t.queue vf q = put r { r with stage := .ended, cause := cDepCancelled } ∧ t.mem = s.mem ∧
        t.cells = s.cells) ∧
    (∀ r, x.recs.find? (·.slot = r.slot) = some r →
      let gone (t : State) : Prop := exec (.recordCompletion vf q r.slot) s = .next t ∧
        t.queue vf q = { x with recs := x.recs.filter (·.slot ≠ r.slot) }
      (r.stage = .ended → r.kind = 0 ∨ r.num 0 8 = 0 → ∃ t, gone t ∧ t.mem = s.mem) ∧
      (r.stage = .live → r.kind = 5 → r.num 0 8 = 0 → (∀ i < 4, if r.num (0x10 + i) 1 = 1
          then (s.phaser (r.num (0x18 + 8 * i) 8)).passed (BitVec.ofNat 32 (r.num (0x38 + 8 * i) 8)) = true
          else r.waitSt.getD i 0 = 1) → ∃ t, gone t ∧ t.mem = s.mem) ∧
      (∀ tr, r.stage = .ended → r.kind ≠ 0 → r.num 0 8 ≠ 0 → r.num 0 8 % 8 = 0 →
        s.translate (queueDie f) x.asid (r.num 0 8 / 128 * 128) 2 false = (.ok tr, s) → tr.host = true → s.cxlReach = true →
        s.mem.host.wf = true → ∃ t, exec (.recordCompletion vf q r.slot) s = .next t ∧
          (t.queue vf q).recs.map (·.slot) = (x.recs.map (·.slot)).filter (· ≠ r.slot) ∧ t.mem.dram = s.mem.dram ∧
          mword t.mem.host (tr.addr / 128 * 128 + r.num 0 8 % 128) =
          if r.cause = 0 then BitVec.ofNat 64 (r.num 8 8 % 2 ^ 56) else BitVec.ofNat 64 (2 ^ 63 + r.cause.toNat)))

/-- R17, R71, R75, R83, R84, R161, R162, R186 to R188, R190 to R192: the Anole offers the first record of the queue it
examines and goes on to the queue that its link names, back to the head of the list where the link before it has
changed, or to the next pass; a ready KERNEL that fits binds its cells in rank order with the arguments and the identity of the record;
placement starts what fits; a deadline that runs out pre-empts; a stopped cell whose engines have stopped gets its
frame; a timer that is due is released at a tick. Where a frame stands in the save area (log 31), from which cycle a
stop counts (log 92), that the Anole examines one queue a cycle (log 102) and the tick against which a timer is due (log
74) are the model's. -/
def Obligations.PlacementEvents : Prop :=
  ∀ s : State,
    (let w := s.disp.walk
      let goes (v : Walk) (n : Nat) (ts : List Task) : Prop := ∃ t, exec .anolePass s = .next t ∧
        t.sched.tasks = ts ++ s.sched.tasks ∧ t.disp.walk = v ∧ t.disp.anopass = s.disp.anopass + n ∧ t.mem = s.mem ∧
        t.cells = s.cells
      let link := s.readLink w.list w.link
      ∀ (vf : Fin 64) (q : BitVec 8) (r : Rec), w.node = some (qkey vf q) → (s.queue vf q).state = .active →
        (s.fn vf.val).state = .enabled → (s.queue vf q).first = some r → r.kind ≠ 1 →
        (link.2 ≠ w.gen → (s.disp.heads[w.list.val]).next ≠ none → goes (s.walkHead w.list) 0 [.start vf q]) ∧
        (∀ n, link.2 = w.gen → (s.queue vf q).next = some n →
          goes { w with link := w.node, node := some n, gen := (s.queue vf q).lgen } 0 [.start vf q]) ∧
        (link.2 = w.gen → (s.queue vf q).next = none → w.list = 0 → goes (s.walkHead 7) 1 [.start vf q])) ∧
    (∀ (vf : Fin 64) (q : BitVec 8) (r : Rec) (w : Want) (bs cs : List Nat), (s.queue vf q).first = some r →
      (s.queue vf q).want vf q = some w → s.wants = [w] → s.fit w [] = some (bs, cs) → s.disp.gangs = [] → cs.Nodup →
      ∃ t g, exec (.kernel vf q) s = .next t ∧ tfind t.disp.gangs s.disp.nextGang = some g ∧ g.vf = vf ∧ g.q = q ∧
        g.slot = r.slot ∧ g.cells = cs ∧ g.state = .running ∧ (t.queue vf q).inflight = (s.queue vf q).inflight + 1 ∧
        (t.queue vf q).bypass = 0 ∧ (∃ y ∈ (t.queue vf q).recs, y.slot = r.slot ∧ y.stage = .live) ∧
        t.mem = { s.mem with reqs := s.mem.reqs.filter fun p => !cs.contains p.2.cell || p.2.writes } ∧
        (∀ c, c ∉ cs → t.cell c = s.cell c) ∧
        ∀ j c, cs[j]? = some c → let y := t.cell c
          y.bound = some { vf := vf, q := q, slot := r.slot, gang := s.disp.nextGang } ∧
          y.seq.pc = BitVec.ofNat 48 (r.num 0x10 8 + 4 * r.num 0x1c 4) ∧ y.seq.npc = y.seq.pc + 4 ∧
          y.seq.id.rank.toNat = j % 2 ^ 15 ∧ y.seq.id.cellid.toNat = c % 2 ^ 15 ∧ y.seq.id.asid = (s.queue vf q).asid ∧
          y.seq.id.vfid.toNat = vf.val ∧ y.seq.id.codebase = BitVec.ofNat 48 (r.num 0x10 8) ∧ y.seq.log = [] ∧ y.seq.p = 1 ∧
          (∀ k : Reg, y.gval k = if 1 ≤ k.val ∧ k.val ≤ 8 then BitVec.ofNat 64 (r.num (0x80 + 8 * (k.val - 1)) 8) else 0) ∧
          y.dcache = [] ∧ y.wcb = [] ∧ y.copyq = [] ∧ y.linkq = [] ∧ y.ec = (s.cell c).ec ∧
          y.spad = if (s.cell c).prevVf = some vf then (s.cell c).spad else []) ∧
    (∀ (w : Want) (f : List Nat × List Nat), s.wants = [w] → w.gang = none → s.fit w [] = some f →
      (s.queue w.vf w.q).bypass < (s.fn w.vf.val).bypassLimit.toNat →
      exec .placement s =
        .next { s with sched := { s.sched with tasks := .start w.vf w.q :: .event .placement :: s.sched.tasks } }) ∧
    (∀ c, (s.cell c).bound.isSome = true → (s.cell c).seq.yreq = true → (s.cell c).seq.ydeadline = 0 → (s.cell c).stop = none →
      let st : Stop := { code := cPreempt, cycle := s.sys.cycle + if (s.cell c).fired then 1 else 0 }
      ∃ t, exec (.forcedPreemption c) s = .next t ∧ t.cell c = { s.cell c with restart := false, stop := some st } ∧ t.mem = s.mem ∧
        ∀ n, n ≠ c → t.cell n = s.cell n) ∧
    (∀ (c : Nat) (b : Binding) (st : Stop) (g : Gang), (s.cell c).bound = some b → (s.cell c).stop = some st →
      st.saved = false → st.seqAck = true → s.enginesStopped c = true → tfind s.disp.gangs b.gang = some g →
      g.state = .running → g.image = false → (s.cell c).hold = [] → (s.cell c).tracing = false → st.code ≠ cFlrKilled →
      Opens s true (linesOf (g.frameAt (s.queue b.vf b.q) (s.cell c).seq.id.rank.toNat) (8 * frameWords (s.cell c).regionMap)) →
      (s.cell c).failing = 0 →
      let ws := (s.cell c).frame st.code b.q 0
      let rank := (s.cell c).seq.id.rank.toNat
      ∃ t, exec (.frameCollection c) s = .next t ∧
        t.cell c = { s.cell c with stop := some { st with saved := true },
                                   seq := { (s.cell c).seq with yreq := false, ydeadline := 0 } } ∧
        (∃ l, tfind t.disp.gangs b.gang = some { g with saved := g.saved ++ [rank], notes := l }) ∧
        (s.mem.lls = [] → s.mem.dram.wf = true → ws.length ≤ 1024 →
          (∀ w ∈ ws, w.2 = false) → t.readFrame (g.frameAt (s.queue b.vf b.q) rank) ws.length = ws)) ∧
    ∀ (n : Nat) (m : Timer), let tick := s.now / 1000 * 1000
      s.disp.timers = [m] → m.id = n → s.sys.ticked = true → m.when_ ≤ tick → (s.queue m.vf m.q).state = .active →
      (∀ (j : Nat) (r : Rec), m.period = 0 → m.released = 0 → m.wq = 0xffff → m.slot = some j →
        (s.queue m.vf m.q).recs.find? (·.slot = j) = some r →
        ∃ t, exec (.timerRelease n) s = .next t ∧ t.disp.timers = [] ∧ t.mem = s.mem ∧
          ∃ y ∈ (t.queue m.vf m.q).recs, y.slot = j ∧ y.stage = .ended ∧ y.cause = 0) ∧
      (∀ w : WorkQ, m.period ≠ 0 → m.slot = none → m.wq ≠ 0xffff → tfind s.disp.wqs m.wq.toNat = some w → w.appenders = [] →
        w.tail - w.head < 2 ^ w.m → Opens s true [w.slot w.tail / 128] → m.released < (tick - m.when_) / m.period + 1 →
        ∃ t, exec (.timerRelease n) s = .next t ∧
          t.disp.timers = [{ m with released := (tick - m.when_) / m.period + 1 }] ∧
          tfind t.disp.wqs m.wq.toNat = some { w with tail := w.tail + 1 })

/-- R87, R184, R185, R194 to R197, R214, R216, R217, R236, R237: a commit enters the journal or is lost when it is
full; the entry served creates its queue, begins its reset, its destruction or its function's reset, or is malformed;
a reset whose gangs have stopped and whose requests have drained ends; a function is disabled; a response to a trap
record resumes its cell from the frame or makes the fault fatal; a write of TQHEAD is taken when it lies between HEAD and
TAIL. Where a frame stands in the save area (log 31), what outlasts a reset (log 64) and that another write of TQHEAD is
ignored (log 71) are the model's. -/
def Obligations.FunctionEvents : Prop :=
  (∀ (vf : Fin 64) (s : State), let m := (s.fn vf.val).mbox
    let code := (m.req[0]).toNat / 2 ^ 56
    (∀ i, (i = .create vf ∧ code = 1 ∨ i = .destroy vf ∧ code = 2 ∨ i = .reset vf ∧ code = 3 ∨ i = .flr vf ∧ code = 4 ∨
        i = .unknownCodeRequest vf ∧ (code = 0 ∨ 4 < code)) → (s.sys.bootDone = true ∨ vf = 0) →
      (s.disp.journal.length < 256 → ∃ t, exec i s = .next t ∧ t.disp.journal = s.disp.journal ++
          [{ seq := s.disp.seqNo + 1, vf := vf, r0 := m.req[0], r1 := m.req[1], r2 := m.req[2] }] ∧
        t.disp.seqNo = s.disp.seqNo + 1 ∧ (t.fn vf.val).mbox = { m with seq := s.disp.seqNo + 1, dropped := false } ∧
        t.cells = s.cells ∧ t.mem = s.mem) ∧
      (256 ≤ s.disp.journal.length → ∃ t, exec i s = .next t ∧ t.disp = s.disp ∧
        (t.fn vf.val).mbox = { m with ovfcnt := satInc m.ovfcnt, ovf := true, dropped := true })) ∧
    (vf ≠ 0 → s.sys.bootDone = true → s.disp.journal.length < 256 → ∃ t, exec (.cxlIoFlr vf) s = .next t ∧ t.disp.journal = s.disp.journal ++
        [{ seq := s.disp.seqNo + 1, vf := vf, r0 := BitVec.ofNat 64 (4 * 2 ^ 56 + vf.val), r1 := 0, r2 := 0, auto := true }] ∧
      (t.fn vf.val).flrDone = false) ∧
    ∃ t, exec (.mbstatWrite vf) s = .next t ∧ (t.fn vf.val).mbox = { m with ovf := false } ∧ t.disp = s.disp ∧ t.mem = s.mem) ∧
  (∀ (e : JEntry) (s : State), s.disp.journal = [e] → s.sys.bootDone = true → (s.fn e.vf.val).state = .enabled →
    let code := e.r0.toNat / 2 ^ 56
    let q : BitVec 8 := e.r0.setWidth 8
    let posted (t : State) (r : Cause) : Prop := t.disp.journal = [] ∧ t.disp.consumed = e.seq ∧
      (t.fn e.vf.val).mbox.doneSeq = e.seq ∧ (t.fn e.vf.val).mbox.result = r
    (code = 1 → s.createOk e = true → (s.queue e.vf q).lastseq ≠ e.seq → (s.queue e.vf q).freeAt ≤ s.disp.anopass →
      Opens s true (ringLines (s.fn e.vf.val) e.queue) → let p : Fin 8 := Fin.ofNat 8 (e.r0.toNat / 2 ^ 8 % 8)
      ∃ t y, exec .journalServe s = .next t ∧ posted t 0 ∧ t.queue e.vf q = y ∧ y.state = .active ∧ y.prio = p ∧
        y.ringlog = e.r1.toNat / 2 ^ 16 % 16 ∧ y.ringofs = e.r1.toNat % 2 ^ 9 ∧ y.asid.toNat = e.r0.toNat / 2 ^ 16 % 2 ^ 16 ∧
        y.head = 0 ∧ y.par = true ∧ y.recs = [] ∧ y.lastseq = e.seq ∧ y.savearea = (s.queue e.vf q).savearea ∧ y.next = (s.disp.heads[p.val]).next ∧
        (t.disp.heads[p.val]).next = some (qkey e.vf q)) ∧
    (code = 2 ∨ code = 3 → e.r0.toNat / 2 ^ 8 % 2 ^ 48 = 0 → e.r1 = 0 → e.r2 = 0 → (s.queue e.vf q).lastseq < e.seq →
      (s.queue e.vf q).state ≠ .free → ∃ t, exec .journalServe s = .next t ∧ (t.queue e.vf q).state = .resetting ∧
        (t.queue e.vf q).recs = [] ∧ (t.queue e.vf q).drain = some (BitVec.ofNat 8 code) ∧ t.disp.journal = [e]) ∧
    (code = 4 → e.vf = 0 → e.r0.toNat / 2 ^ 6 % 2 ^ 50 = 0 → e.r1 = 0 → e.r2 = 0 → let v := e.r0.toNat % 2 ^ 6
      (s.fn v).state = .enabled → (s.fn v).flrseq < e.seq → ∃ t, exec .journalServe s = .next t ∧
        (t.fn v).state = .resetting ∧ (t.fn v).flrseq = e.seq ∧ t.disp.journal = [e]) ∧
    (code = 0 ∨ 4 < code → ∃ t, exec .journalServe s = .next t ∧ posted t cRecMalformed ∧ t.mem = s.mem)) ∧
  (∀ (vf : Fin 64) (s : State), s.disp.gangs = [] → s.mem.reqs = [] → s.mem.nb = [] → s.mem.signals = [] →
    (∀ q, (s.queue vf q).state = .resetting → (s.queue vf q).next ≠ some (qkey vf q) →
      Opens s true (ringLines (s.fn vf.val) (s.queue vf q)) → ∀ d, (s.queue vf q).drain = some d → ∃ t, exec (.queueTagDrain vf (some q)) s = .next t ∧
        (t.queue vf q).recs = [] ∧ (t.queue vf q).head = 0 ∧ (t.queue vf q).par = true ∧ (t.queue vf q).cancel = false ∧
        (t.queue vf q).drain = none ∧ t.cells = s.cells ∧ (d = 3 → (t.queue vf q).state = .active) ∧
        (d = 2 → (t.queue vf q).state = .free ∧ ∀ p : Fin 8, (t.disp.heads[p.val]).next ≠ some (qkey vf q))) ∧
    ((s.fn vf.val).state = .resetting → Opens s true (s.fn vf.val).windowLines →
      ∃ t, exec (.queueTagDrain vf none) s = .next t ∧ (t.fn vf.val).mbox = {} ∧
      (t.fn vf.val).state = (if (s.fn vf.val).disabling then .disabled else .enabled) ∧ (t.fn vf.val).tq.en = false ∧
      (t.fn vf.val).tq.tail = 0 ∧ (t.fn vf.val).tq.nextseq = 1 ∧ (t.fn vf.val).fatal = 0 ∧
      ∀ q, (t.queue vf q).state = .free)) ∧
  (∀ (vf : Fin 64) (s : State), (s.fn vf.val).state = .enabled ∨ (s.fn vf.val).state = .frozen →
    ∃ t, exec (.functionDisable vf) s = .next t ∧ (t.fn vf.val).state = .resetting ∧ (t.fn vf.val).disabling = true ∧
      ∀ q, (s.queue vf q).state ≠ .free → (t.queue vf q).state = .resetting ∧ (t.queue vf q).recs = []) ∧
  (∀ s : State, ∃ t, exec .firmwareRestart s = .next t ∧ t.disp.journal = s.disp.journal ∧ t.disp.consumed = s.disp.consumed ∧
    (∀ vf : Fin 64, (s.fn vf.val).state = .resetting → (t.fn vf.val).state = .resetting) ∧
    ∀ vf q, (s.queue vf q).state = .resetting → (s.queue vf q).drain ≠ none →
      (t.queue vf q).state = .resetting ∧ (t.queue vf q).recs = []) ∧
  (∀ (vf : Fin 64) (v : BitVec 32) (s : State), (s.fn vf.val).held = [] → let q := (s.fn vf.val).tq
    ∃ t, exec (.tqheadWrite vf v) s = .next t ∧ t.cells = s.cells ∧ t.mem = s.mem ∧
      (t.fn vf.val).tq = if v - q.head ≤ q.tail - q.head then { q with head := v } else q) ∧
  ∀ (vf : Fin 64) (seq : BitVec 32) (c : Nat) (e : Await) (st : Stop) (b : Binding) (g : Gang) (s : State),
    (s.fn vf.val).await.find? (·.seq = seq) = some e → e.cell = c → e.gang = some b.gang → (s.cell c).stop = some st → st.saved = true →
    st.code ∈ [cXlateMiss, cMigrateSrc, cMcResidue] → (s.cell c).bound = some b → tfind s.disp.gangs b.gang = some g →
    let answered (t : State) (n : BitVec 2) : Prop := (t.fn vf.val).tq.action = n ∧ (t.fn vf.val).tq.respSeq = seq ∧
      (t.fn vf.val).await = (s.fn vf.val).await.filter (·.seq ≠ seq)
    (g.state = .running →
      let a := g.frameAt (s.queue b.vf b.q) (s.cell c).seq.id.rank.toNat
      let w (j : Nat) : Word := s.dpaWord (a + 8 * j)
      w 2 = 0 → a % 128 = 0 → (∀ x, Opens (s.setCell c x) false (linesOf a 1792)) →
       ∃ t, exec (.tqrespResume vf seq) s = .next t ∧ answered t 1 ∧ (t.cell c).stop = none ∧
        (t.cell c).bound = some b ∧ (t.cell c).freeze = .none ∧ (t.cell c).seq.pc = wordAddr (w 41) ∧
        (t.cell c).seq.npc = wordAddr (w 42) ∧ (∀ r : Reg, r.val ≠ 0 → (t.cell c).gval r = w (8 + r.val)) ∧
        (∀ k : Pred, k.val ≠ 0 → (t.cell c).pval k = (w 40).getLsbD k.val) ∧ (t.cell c).seq.trap.vec = wordAddr (w 57) ∧
        (t.cell c).spad = (s.cell c).spad ∧ t.mem = s.mem) ∧
    ∃ t, exec (.tqrespFail vf seq) s = .next t ∧ answered t 2 ∧ t.cells = s.cells ∧
      tfind t.disp.gangs b.gang = some { g with fatal := g.fatal.or (some st.code) } ∧
      ((s.queue b.vf b.q).state = .active → (t.queue b.vf b.q).state = .frozen ∧ (t.queue b.vf b.q).fcause = st.code)

/-- R11, R214, R218, R225, R234 to R236, R238, R239, R245, R249 to R252, R254, R255, R258: power-on runs its stages in
order and stops at the first that fails, with its ERR; a die that is ONLINE is fenced and one that is FENCED is reset, and
any other request is malformed; a write of 1 to ATTGO signs a report, which no write disturbs; the clock changes between
its limits; a register write sets the fields it may; the oldest packet of a die reaches its ring; a word of no instruction
stops its cell with ILL_OP and makes a fatal record. That host memory outlasts a power-on (log 75), from which cycle a
stop counts (log 92), that a write of ATTGO other than 1 does nothing (log 105) and what SHA-256 and LMS are (log 101) are
the model's. -/
def Obligations.ModuleEvents : Prop :=
  (∀ (r : PowerOnResult) (s : State),
    let fails : Option (Nat × Nat) :=
      if signedBy s.sys.romKey r.cfg = false then some (2, 1) else if r.cfg.version < r.floor then some (2, 3)
      else if signedBy s.sys.romKey r.fw = false then some (2, 2) else if r.fw.version < r.floor then some (2, 3)
      else if r.puf = false then some (3, 4) else if r.stk ≠ 0xffff then some (4, 5)
      else if r.starts = false then some (6, 6) else none
    ∃ t, exec (.powerOn r) s = .next t ∧ t.cells = [] ∧ t.fns = [] ∧ t.disp = {} ∧
      t.mem = { host := s.mem.host, hostBad := s.mem.hostBad } ∧ t.sched.tasks = s.sched.tasks ∧
      t.sys.romKey = s.sys.romKey ∧ t.sys.cfgDigest = sha256 r.cfg.bytes ∧ t.sys.cfgVersion = r.cfg.version ∧
      (fails = none → t.sys.bootStage = 0x0f ∧ t.sys.bootErr = 0 ∧ t.sys.bootDone = true ∧ t.sys.stktrn = 0xffff ∧
        t.sys.fwDigest = sha256 r.fw.bytes ∧ t.sys.fwVersion = r.fw.version ∧ (∀ p, (t.port p).state = .training) ∧
        ∀ d : Fin 16, (t.die d.val).state = .online ∧ (t.die d.val).usable = r.usable.getD d.val 0) ∧
      ∀ st e, fails = some (st, e) → t.sys.bootStage = BitVec.ofNat 8 st ∧ t.sys.bootErr = BitVec.ofNat 8 e ∧
        t.sys.bootDone = false ∧ (st = 4 → t.sys.stktrn = r.stk) ∧ ∀ p, (t.port p).state ≠ .training) ∧
  (∀ (d : Fin 16) (s : State), let x := s.die d.val
    let malformed (i : Instr) : Prop := ∃ t, exec i s = .next t ∧ t.die d.val = { x with result := cRecMalformed } ∧
      t.cells = s.cells ∧ t.mem = s.mem ∧ t.disp = s.disp
    (∀ n g, x.state = .online → s.disp.gangs = [(n, g)] → g.state = .running → (∃ c ∈ g.cells, c / 1600 = d.val) →
      ∃ t, exec (.dieFence d) s = .next t ∧ t.die d.val = { x with state := .fencing, result := 0 } ∧ t.mem = s.mem ∧
        tfind t.disp.gangs n = some { g with state := .stopping, image := true } ∧
        ∀ c ∈ g.cells, (s.cell c).bound.isSome = true → (t.cell c).stop.isSome = true) ∧
    (x.state ≠ .online → malformed (.dieFence d)) ∧
    (x.state = .fencing → x.trace = [] → s.disp.gangs = [] → s.mem.reqs = [] → s.mem.nb = [] → s.mem.signals = [] →
      ∃ t, exec (.dieFenced d) s = .next t ∧ t.die d.val = { x with state := .fenced } ∧ (∀ e ∈ t.mem.tlb, e.die ≠ d) ∧
        ∀ c, if c / 1600 = d.val then (t.cell c).bound = none ∧ (t.cell c).ec = (s.cell c).ec else t.cell c = s.cell c) ∧
    (∀ u, x.state = .fenced → ∃ t, exec (.dieReset d u) s = .next t ∧
      t.die d.val = { x with state := .resetting, reload := some u, resets := satInc x.resets, result := 0 } ∧
      ∀ c, t.cell c = if c / 1600 = d.val then { ec := (s.cell c).ec } else s.cell c) ∧
    (∀ u, x.state ≠ .fenced → malformed (.dieReset d u)) ∧
    ∀ (vf : BitVec 6) (w : Word) (l : List (BitVec 6 × BitVec 64)), x.trace = (vf, w) :: l →
      let f := s.fn vf.toNat
      f.ringOk = true → tget 0 x.drops (w.toNat / 2 ^ 45 % 2 ^ 15) = 0 → f.trcwr.toNat % 8 = 0 →
      Opens s true [(f.trcbase.toNat + f.trcwr.toNat % f.trcsize.toNat) / 128] → s.mem.lls = [] → s.mem.dram.wf = true →
      ∃ t, exec (.tracePacketWrite d) s = .next t ∧ t.die d.val = { x with trace := l } ∧
        (t.fn vf.toNat).trcwr = f.trcwr + 8 ∧ t.dpaWord (f.trcbase.toNat + f.trcwr.toNat % f.trcsize.toNat) = w) ∧
  (∀ s : State, s.sys.attgo = false → ∃ t, exec .attgoWrite s = .next t ∧ t.sys.attgo = true ∧
    t.sys.report.length = 38 ∧ (∀ j : Fin 4, t.sys.report[j.val]? = some s.sys.attn[j.val]) ∧
    t.sys.report[13]? = some s.sys.devtime ∧ t.cells = s.cells ∧ t.mem = s.mem) ∧
  (∀ (v : Word) (s : State), (s.sys.attgo = true → exec .attgoWrite s = .next s) ∧
    (v ≠ 1 ∨ s.sys.attgo = true → exec (.registerWrite .attgo v) s = .next s)) ∧
  (∀ s : State, exec .govstatRead s = .next { s with sys := { s.sys with mhzLow := s.sys.mhz } } ∧
    ∀ m, (1000 ≤ m ∧ m ≤ 3300 ∧ m % 100 = 0 → ∃ t, exec (.clockChange m) s = .next t ∧ t.sys.mhz = m ∧
        t.sys.mhzLow = min s.sys.mhzLow m ∧ t.sys.devtime = s.sys.devtime ∧ t.sys.cycle = s.sys.cycle ∧ t.cells = s.cells ∧
        t.mem = s.mem) ∧
      (m < 1000 ∨ 3300 < m ∨ m % 100 ≠ 0 → exec (.clockChange m) s = .next s)) ∧
  (∀ (v : Word) (s : State), s.sys.bootDone = true →
    let sets (g : RegTarget) (p : State → Prop) : Prop := ∃ t, exec (.registerWrite g v) s = .next t ∧ t.cells = s.cells ∧ p t
    (∀ vf, sets (.window vf) fun t => t.fn vf.val = { s.fn vf.val with window := v.setWidth 25 }) ∧
    (∀ vf, sets (.phbase vf) fun t => t.fn vf.val = { s.fn vf.val with phbase := v.setWidth 16 }) ∧
    (∀ (vf : Fin 64) (k : Fin 3), sets (.mbreq vf k) fun t => (t.fn vf.val).mbox.req[k.val] = v ∧
      ∀ j : Fin 3, j ≠ k → (t.fn vf.val).mbox.req[j.val] = (s.fn vf.val).mbox.req[j.val]) ∧
    (∀ a, sets (.asid a) fun t => tget {} t.mem.asids a.toNat =
      { valid := v.getLsbD 63, vf := v.extractLsb' 41 6, root := v.extractLsb' 12 29 }) ∧
    (∀ n, let g := (v.extractLsb' 16 16).toNat
      let w := (v.extractLsb' 48 16).toNat
      sets (.phaser n 1) fun t => if 1 ≤ g + w ∧ (s.phaser n.toNat).arrived = g + w
        then (t.phaser n.toNat).phase = (s.phaser n.toNat).phase + 1 ∧ (t.phaser n.toNat).arrived = 0
        else t.phaser n.toNat = { s.phaser n.toNat with nsig := g, nwait := (v.extractLsb' 32 16).toNat, nsw := w }) ∧
    (∀ (n : BitVec 12) (m : Fin 17), 4 ≤ m.val → ∃ t, exec (.registerWrite (.workqCreate n m) v) s = .next t ∧
      ∃ w, tfind t.disp.wqs n.toNat = some w ∧ w.m = m.val ∧ w.head = w.tail) ∧
    (sets .elcfg fun t => t.sys.errLog.en = v.getLsbD 8 ∧ t.sys.errLog.lost = s.sys.errLog.lost) ∧
    ∀ vf, (s.fn vf.val).state = .disabled ∨ (s.fn vf.val).state = .frozen → sets (.enable vf) fun t =>
      (t.fn vf.val).state = .enabled) ∧
  ∀ (w : BitVec 32) (b : Binding) (s : State), (me s).bound = some b → (me s).seq.log = [] → (me s).fpLanded = [] →
    (me s).seq.arith = none → (me s).stop = none →
    let vf := (me s).seq.id.vfid.toNat
    ∃ t r, exec (.unassignedOpcode w) s = .next t ∧ (me t).stop = some
        { code := cIllOp, cycle := s.sys.cycle + (if (me s).fired then 1 else 0), atSeq := true } ∧
      (t.fn vf).found = (s.fn vf).found ++ [r] ∧ r.cause = cIllOp ∧ r.cls = 0 ∧ r.pc = (me s).seq.pc ∧
      r.opword = w.setWidth 64 ∧ (me t).seq.pc = (me s).seq.pc ∧ (me t).seq.g = (me s).seq.g ∧
      (me t).seq.trap = (me s).seq.trap ∧
      ((s.queue b.vf b.q).state = .active → (t.queue b.vf b.q).state = .frozen ∧ (t.queue b.vf b.q).fcause = cIllOp)
end

