-- ==== Sys2Proof/Laws/Tab.lean ====
section
/-! SUPPORT. Laws of the containers: reads after writes of sparse tables and byte memories, and the canonical form. -/

namespace Sys2Proof.Laws

open Sys2Proof Sys2Proof.Machine

/-! ### Sparse tables -/

/-- A write is read back. -/
@[simp] theorem tget_tset_self {α : Type} (d : α) (t : Tab α) (k : Nat) (v : α) : tget d (tset t k v) k = v := by
  induction t with
  | nil => simp [tset, tget]
  | cons h t ih =>
    obtain ⟨j, x⟩ := h
    simp only [tset]
    split
    · simp [tget]
    · split
      · simp [tget]
      · simp [tget, *]

/-- A write changes no other entry. -/
theorem tget_tset_ne {α : Type} (d : α) (t : Tab α) {k n : Nat} (v : α) (h : n ≠ k) : tget d (tset t k v) n = tget d t n := by
  induction t with
  | nil => simp [tset, tget, h]
  | cons e t ih =>
    obtain ⟨j, x⟩ := e
    simp only [tset]
    split
    · simp [tget, h]
    · split
      · subst_vars; simp [tget, h]
      · simp only [tget, ih]

/-- A written entry is listed. -/
@[simp] theorem tfind_tset_self {α : Type} (t : Tab α) (k : Nat) (v : α) : tfind (tset t k v) k = some v := by
  induction t with
  | nil => simp [tset, tfind]
  | cons h t ih =>
    obtain ⟨j, x⟩ := h
    simp only [tset]
    split
    · simp [tfind]
    · split
      · simp [tfind]
      · simp [tfind, *]

/-- A write lists and drops no other entry. -/
theorem tfind_tset_ne {α : Type} (t : Tab α) {k n : Nat} (v : α) (h : n ≠ k) : tfind (tset t k v) n = tfind t n := by
  induction t with
  | nil => simp [tset, tfind, h]
  | cons e t ih =>
    obtain ⟨j, x⟩ := e
    simp only [tset]
    split
    · simp [tfind, h]
    · split
      · subst_vars; simp [tfind, h]
      · simp only [tfind, ih]

/-- Erasing changes no other entry. -/
theorem tfind_terase_ne {α : Type} (t : Tab α) {k n : Nat} (h : n ≠ k) : tfind (terase t k) n = tfind t n := by
  induction t with
  | nil => rfl
  | cons e t ih =>
    obtain ⟨j, x⟩ := e
    simp only [terase]
    split
    · subst_vars; simp [tfind, h, ih]
    · simp only [tfind, ih]

/-- Every entry of a table that has been written is the new one or an old one. -/
theorem mem_tset {α : Type} {t : Tab α} {k n : Nat} {v x : α} (h : (n, x) ∈ tset t k v) : (n, x) = (k, v) ∨ (n, x) ∈ t := by
  induction t with
  | nil => simpa [tset] using h
  | cons e t ih =>
    obtain ⟨j, y⟩ := e
    simp only [tset] at h
    split at h
    · simpa using h
    · split at h
      · rcases List.mem_cons.1 h with h | h
        · exact .inl h
        · exact .inr (List.mem_cons_of_mem _ h)
      · rcases List.mem_cons.1 h with h | h
        · exact .inr (h ▸ List.mem_cons_self)
        · rcases ih h with h | h
          · exact .inl h
          · exact .inr (List.mem_cons_of_mem _ h)

/-! ### Byte memories -/

/-- Read after write at one address. -/
@[simp] theorem mget_mset_self (m : Memory) (a : Nat) (v : Byte) (h : m.wf = true) : mget (mset m a v) a = v := by
  induction m with
  | nil => simp only [mset]; split <;> simp_all [mget]
  | cons e t ih =>
    obtain ⟨b, w⟩ := e
    have below : ∀ t : Memory, Memory.wf ((b, w) :: t) = true → ∀ n, n ≤ b → mget t n = 0 := by
      intro t
      induction t with
      | nil => intros; rfl
      | cons f u iu =>
        obtain ⟨c, y⟩ := f
        intro hw n hn
        cases u with
        | nil => simp [Memory.wf] at hw; simp [mget]; omega
        | cons g u' =>
          obtain ⟨d, z⟩ := g
          simp [Memory.wf] at hw
          have : mget ((d, z) :: u') n = 0 := iu (by simp [Memory.wf]; exact ⟨⟨by omega, hw.1.2⟩, hw.2.2⟩) n hn
          simp only [mget] at this ⊢
          split
          · omega
          · exact this
    simp only [mset]
    split
    · rename_i hlt
      split
      · subst_vars
        have := below t h a (by omega)
        simp only [mget]
        split
        · omega
        · exact this
      · simp [mget]
    · split
      · split
        · subst_vars; exact below t h _ (Nat.le_refl _)
        · simp [mget]
      · rename_i h1 h2
        simp only [mget, if_neg h2]
        apply ih
        cases t with
        | nil => rfl
        | cons f u => obtain ⟨c, y⟩ := f; simp [Memory.wf] at h; exact h.2

/-- A write leaves every other address alone. -/
theorem mget_mset_ne (m : Memory) {a n : Nat} (v : Byte) (h : n ≠ a) : mget (mset m a v) n = mget m n := by
  induction m with
  | nil => simp only [mset]; split <;> simp [mget, h]
  | cons e t ih =>
    obtain ⟨b, w⟩ := e
    simp only [mset]
    split
    · split <;> simp [mget, h]
    · split
      · split <;> subst_vars <;> simp [mget, h]
      · simp only [mget, ih]

/-- The head of a memory after a write lies no lower than the lower of the two. -/
theorem mset_wf_cons {b : Nat} {w : Byte} {m : Memory} (a : Nat) (v : Byte) (hb : b < a)
    (hm : Memory.wf ((b, w) :: m) = true) (ih : Memory.wf (mset m a v) = true) :
    Memory.wf ((b, w) :: mset m a v) = true := by
  cases m with
  | nil =>
    simp only [mset] at *
    split
    · simpa [Memory.wf] using hm
    · simp_all [Memory.wf]
  | cons e t =>
    obtain ⟨c, y⟩ := e
    simp only [mset] at *
    split at ih <;> rename_i h1
    · rw [if_pos h1]
      split at ih <;> rename_i h2
      · rw [if_pos h2]; exact hm
      · rw [if_neg h2]
        simp only [Memory.wf, Bool.and_eq_true, decide_eq_true_eq] at hm ⊢
        exact ⟨⟨hb, hm.1.2⟩, by simpa [Memory.wf] using ih⟩
    · rw [if_neg h1]
      split at ih <;> rename_i h2
      · rw [if_pos h2]
        split at ih <;> rename_i h3
        · rw [if_pos h3]
          cases t with
          | nil => simp_all [Memory.wf]
          | cons f u =>
            obtain ⟨d, z⟩ := f
            simp only [Memory.wf, Bool.and_eq_true, decide_eq_true_eq] at hm ⊢
            exact ⟨⟨by omega, hm.1.2⟩, hm.2.2⟩
        · rw [if_neg h3]
          simp only [Memory.wf, Bool.and_eq_true, decide_eq_true_eq] at hm ⊢
          exact ⟨⟨hb, hm.1.2⟩, by simpa [Memory.wf] using ih⟩
      · rw [if_neg h2]
        simp only [Memory.wf, Bool.and_eq_true, decide_eq_true_eq] at hm ⊢
        exact ⟨hm.1, ih⟩

/-- A write keeps the canonical form. -/
theorem mset_wf (m : Memory) (a : Nat) (v : Byte) (h : m.wf = true) : (mset m a v).wf = true := by
  induction m with
  | nil => simp only [mset]; split <;> simp_all [Memory.wf]
  | cons e t ih =>
    obtain ⟨b, w⟩ := e
    have ht : Memory.wf t = true := by
      cases t with
      | nil => rfl
      | cons f u => obtain ⟨c, y⟩ := f; simp [Memory.wf] at h; exact h.2
    simp only [mset]
    split
    · split
      · exact h
      · simp_all [Memory.wf]
    · split
      · split
        · exact ht
        · subst_vars
          cases t with
          | nil => simp_all [Memory.wf]
          | cons f u => obtain ⟨c, y⟩ := f; simp_all [Memory.wf]
      · exact mset_wf_cons a v (by omega) h (ih ht)

/-- A write of several bytes keeps the canonical form. -/
theorem mwrite_wf (l : List Byte) : ∀ (m : Memory) (a : Nat), m.wf = true → (mwrite m a l).wf = true := by
  induction l with
  | nil => intro m a h; exact h
  | cons b t ih => intro m a h; exact ih _ _ (mset_wf m a b h)

/-- A write of a line keeps the canonical form. -/
theorem mlineSet_wf (m : Memory) (a : Nat) (v : Line) (h : m.wf = true) : (mlineSet m a v).wf = true := mwrite_wf _ _ _ h

/-- A write of a word keeps the canonical form. -/
theorem mwordSet_wf (m : Memory) (a : Nat) (v : Word) (h : m.wf = true) : (mwordSet m a v).wf = true := mwrite_wf _ _ _ h

/-- A write of several bytes leaves every address outside them alone. -/
theorem mget_mwrite_ne (l : List Byte) : ∀ (m : Memory) (a n : Nat), n < a ∨ a + l.length ≤ n → mget (mwrite m a l) n = mget m n := by
  induction l with
  | nil => intros; rfl
  | cons b t ih =>
    intro m a n h
    simp only [mwrite]
    rw [ih _ _ _ (by simp at h; omega), mget_mset_ne _ _ (by simp at h; omega)]

/-- The bytes written are read back, byte by byte. -/
theorem mget_mwrite (l : List Byte) : ∀ (m : Memory) (a k : Nat), m.wf = true → (h : k < l.length) →
    mget (mwrite m a l) (a + k) = l[k] := by
  induction l with
  | nil => intro m a k _ h; simp at h
  | cons b t ih =>
    intro m a k hm h
    simp only [mwrite]
    cases k with
    | zero =>
      rw [mget_mwrite_ne _ _ _ _ (.inl (by omega))]
      simp [hm]
    | succ k =>
      have := ih (mset m a b) (a + 1) k (mset_wf _ _ _ hm) (by simpa using h)
      simpa [Nat.add_assoc, Nat.add_comm 1 k] using this

/-- The bytes written are read back. -/
theorem mread_mwrite (l : List Byte) : ∀ (m : Memory) (a : Nat), m.wf = true → mread (mwrite m a l) a l.length = l := by
  induction l with
  | nil => intros; rfl
  | cons b t ih =>
    intro m a hm
    simp only [mwrite, List.length_cons, mread]
    rw [mget_mwrite_ne _ _ _ _ (.inl (by omega)), mget_mset_self _ _ _ hm, ih _ _ (mset_wf _ _ _ hm)]

/-- How many bytes a value is cut into. -/
@[simp] theorem leBytes_length (n : Nat) : ∀ v : Nat, (leBytes v n).length = n := by
  induction n with
  | zero => intro v; rfl
  | succ n ih => intro v; simp [leBytes, ih]

/-- The value of the bytes of a value. -/
theorem leNat_leBytes (n : Nat) : ∀ v : Nat, leNat (leBytes v n) = v % 256 ^ n := by
  induction n with
  | zero => intro v; simp [leBytes, leNat, Nat.mod_one]
  | succ n ih =>
    intro v
    simp only [leBytes, leNat, ih, BitVec.toNat_ofNat, Nat.reducePow]
    rw [Nat.pow_succ', Nat.mod_mul]

end Sys2Proof.Laws
end

