-- ==== Sys2Proof/Laws/State.lean ====
section
/-! SUPPORT. What each update of State leaves as it was, field by field, and what is read after it. -/

namespace Sys2Proof.Laws

open Sys2Proof Sys2Proof.Machine

/-! ### State.setCell -/

@[simp] theorem setCell_cells (s : State) (c : Nat) (x : CellSt) : (s.setCell c x).cells = tset s.cells c x := rfl
@[simp] theorem setCell_mem (s : State) (c : Nat) (x : CellSt) : (s.setCell c x).mem = s.mem := rfl
@[simp] theorem setCell_fns (s : State) (c : Nat) (x : CellSt) : (s.setCell c x).fns = s.fns := rfl
@[simp] theorem setCell_dies (s : State) (c : Nat) (x : CellSt) : (s.setCell c x).dies = s.dies := rfl
@[simp] theorem setCell_disp (s : State) (c : Nat) (x : CellSt) : (s.setCell c x).disp = s.disp := rfl
@[simp] theorem setCell_sys (s : State) (c : Nat) (x : CellSt) : (s.setCell c x).sys = s.sys := rfl
@[simp] theorem setCell_sched (s : State) (c : Nat) (x : CellSt) : (s.setCell c x).sched = s.sched := rfl
@[simp] theorem fn_setCell (s : State) (c : Nat) (x : CellSt) (k : Nat) : (s.setCell c x).fn k = s.fn k := rfl
@[simp] theorem die_setCell (s : State) (c : Nat) (x : CellSt) (k : Nat) : (s.setCell c x).die k = s.die k := rfl
@[simp] theorem queue_setCell (s : State) (c : Nat) (x : CellSt) (v : Fin 64) (u : BitVec 8) : (s.setCell c x).queue v u = s.queue v u := rfl
@[simp] theorem lls_setCell (s : State) (c : Nat) (x : CellSt) (k : Nat) : (s.setCell c x).lls k = s.lls k := rfl
@[simp] theorem gran_setCell (s : State) (c : Nat) (x : CellSt) (k : Nat) : (s.setCell c x).gran k = s.gran k := rfl
@[simp] theorem req_setCell (s : State) (c : Nat) (x : CellSt) (k : Nat) : (s.setCell c x).req k = s.req k := rfl
@[simp] theorem phaser_setCell (s : State) (c : Nat) (x : CellSt) (k : Nat) : (s.setCell c x).phaser k = s.phaser k := rfl
@[simp] theorem port_setCell (s : State) (c : Nat) (x : CellSt) (k : Fin 32) : (s.setCell c x).port k = s.port k := rfl
@[simp] theorem now_setCell (s : State) (c : Nat) (x : CellSt) : (s.setCell c x).now = s.now := rfl
@[simp] theorem lineVal_setCell (s : State) (c : Nat) (x : CellSt) (k : Nat) : (s.setCell c x).lineVal k = s.lineVal k := rfl
@[simp] theorem linePoison_setCell (s : State) (c : Nat) (x : CellSt) (k : Nat) : (s.setCell c x).linePoison k = s.linePoison k := rfl
@[simp] theorem dpaWord_setCell (s : State) (c : Nat) (x : CellSt) (k : Nat) : (s.setCell c x).dpaWord k = s.dpaWord k := rfl
@[simp] theorem nbFind_setCell (s : State) (c : Nat) (x : CellSt) (k : Nat) : (s.setCell c x).nbFind k = s.nbFind k := rfl
@[simp] theorem isAborted_setCell (s : State) (c : Nat) (x : CellSt) (k : BitVec 16) (u : BitVec 32) : (s.setCell c x).isAborted k u = s.isAborted k u := rfl

/-! ### State.modCell -/

@[simp] theorem modCell_cells (s : State) (c : Nat) (f : CellSt → CellSt) : (s.modCell c f).cells = tset s.cells c (f (s.cell c)) := rfl
@[simp] theorem modCell_mem (s : State) (c : Nat) (f : CellSt → CellSt) : (s.modCell c f).mem = s.mem := rfl
@[simp] theorem modCell_fns (s : State) (c : Nat) (f : CellSt → CellSt) : (s.modCell c f).fns = s.fns := rfl
@[simp] theorem modCell_dies (s : State) (c : Nat) (f : CellSt → CellSt) : (s.modCell c f).dies = s.dies := rfl
@[simp] theorem modCell_disp (s : State) (c : Nat) (f : CellSt → CellSt) : (s.modCell c f).disp = s.disp := rfl
@[simp] theorem modCell_sys (s : State) (c : Nat) (f : CellSt → CellSt) : (s.modCell c f).sys = s.sys := rfl
@[simp] theorem modCell_sched (s : State) (c : Nat) (f : CellSt → CellSt) : (s.modCell c f).sched = s.sched := rfl
@[simp] theorem fn_modCell (s : State) (c : Nat) (f : CellSt → CellSt) (k : Nat) : (s.modCell c f).fn k = s.fn k := rfl
@[simp] theorem die_modCell (s : State) (c : Nat) (f : CellSt → CellSt) (k : Nat) : (s.modCell c f).die k = s.die k := rfl
@[simp] theorem queue_modCell (s : State) (c : Nat) (f : CellSt → CellSt) (v : Fin 64) (u : BitVec 8) : (s.modCell c f).queue v u = s.queue v u := rfl
@[simp] theorem lls_modCell (s : State) (c : Nat) (f : CellSt → CellSt) (k : Nat) : (s.modCell c f).lls k = s.lls k := rfl
@[simp] theorem gran_modCell (s : State) (c : Nat) (f : CellSt → CellSt) (k : Nat) : (s.modCell c f).gran k = s.gran k := rfl
@[simp] theorem req_modCell (s : State) (c : Nat) (f : CellSt → CellSt) (k : Nat) : (s.modCell c f).req k = s.req k := rfl
@[simp] theorem phaser_modCell (s : State) (c : Nat) (f : CellSt → CellSt) (k : Nat) : (s.modCell c f).phaser k = s.phaser k := rfl
@[simp] theorem port_modCell (s : State) (c : Nat) (f : CellSt → CellSt) (k : Fin 32) : (s.modCell c f).port k = s.port k := rfl
@[simp] theorem now_modCell (s : State) (c : Nat) (f : CellSt → CellSt) : (s.modCell c f).now = s.now := rfl
@[simp] theorem lineVal_modCell (s : State) (c : Nat) (f : CellSt → CellSt) (k : Nat) : (s.modCell c f).lineVal k = s.lineVal k := rfl
@[simp] theorem linePoison_modCell (s : State) (c : Nat) (f : CellSt → CellSt) (k : Nat) : (s.modCell c f).linePoison k = s.linePoison k := rfl
@[simp] theorem dpaWord_modCell (s : State) (c : Nat) (f : CellSt → CellSt) (k : Nat) : (s.modCell c f).dpaWord k = s.dpaWord k := rfl
@[simp] theorem nbFind_modCell (s : State) (c : Nat) (f : CellSt → CellSt) (k : Nat) : (s.modCell c f).nbFind k = s.nbFind k := rfl
@[simp] theorem isAborted_modCell (s : State) (c : Nat) (f : CellSt → CellSt) (k : BitVec 16) (u : BitVec 32) : (s.modCell c f).isAborted k u = s.isAborted k u := rfl

/-! ### State.setFn -/

@[simp] theorem setFn_cells (s : State) (n : Nat) (x : Fn) : (s.setFn n x).cells = s.cells := rfl
@[simp] theorem setFn_mem (s : State) (n : Nat) (x : Fn) : (s.setFn n x).mem = s.mem := rfl
@[simp] theorem setFn_fns (s : State) (n : Nat) (x : Fn) : (s.setFn n x).fns = tset s.fns n x := rfl
@[simp] theorem setFn_dies (s : State) (n : Nat) (x : Fn) : (s.setFn n x).dies = s.dies := rfl
@[simp] theorem setFn_disp (s : State) (n : Nat) (x : Fn) : (s.setFn n x).disp = s.disp := rfl
@[simp] theorem setFn_sys (s : State) (n : Nat) (x : Fn) : (s.setFn n x).sys = s.sys := rfl
@[simp] theorem setFn_sched (s : State) (n : Nat) (x : Fn) : (s.setFn n x).sched = s.sched := rfl
@[simp] theorem cell_setFn (s : State) (n : Nat) (x : Fn) (k : Nat) : (s.setFn n x).cell k = s.cell k := rfl
@[simp] theorem die_setFn (s : State) (n : Nat) (x : Fn) (k : Nat) : (s.setFn n x).die k = s.die k := rfl
@[simp] theorem queue_setFn (s : State) (n : Nat) (x : Fn) (v : Fin 64) (u : BitVec 8) : (s.setFn n x).queue v u = s.queue v u := rfl
@[simp] theorem lls_setFn (s : State) (n : Nat) (x : Fn) (k : Nat) : (s.setFn n x).lls k = s.lls k := rfl
@[simp] theorem gran_setFn (s : State) (n : Nat) (x : Fn) (k : Nat) : (s.setFn n x).gran k = s.gran k := rfl
@[simp] theorem req_setFn (s : State) (n : Nat) (x : Fn) (k : Nat) : (s.setFn n x).req k = s.req k := rfl
@[simp] theorem phaser_setFn (s : State) (n : Nat) (x : Fn) (k : Nat) : (s.setFn n x).phaser k = s.phaser k := rfl
@[simp] theorem port_setFn (s : State) (n : Nat) (x : Fn) (k : Fin 32) : (s.setFn n x).port k = s.port k := rfl
@[simp] theorem now_setFn (s : State) (n : Nat) (x : Fn) : (s.setFn n x).now = s.now := rfl
@[simp] theorem lineVal_setFn (s : State) (n : Nat) (x : Fn) (k : Nat) : (s.setFn n x).lineVal k = s.lineVal k := rfl
@[simp] theorem linePoison_setFn (s : State) (n : Nat) (x : Fn) (k : Nat) : (s.setFn n x).linePoison k = s.linePoison k := rfl
@[simp] theorem dpaWord_setFn (s : State) (n : Nat) (x : Fn) (k : Nat) : (s.setFn n x).dpaWord k = s.dpaWord k := rfl
@[simp] theorem nbFind_setFn (s : State) (n : Nat) (x : Fn) (k : Nat) : (s.setFn n x).nbFind k = s.nbFind k := rfl
@[simp] theorem isAborted_setFn (s : State) (n : Nat) (x : Fn) (k : BitVec 16) (u : BitVec 32) : (s.setFn n x).isAborted k u = s.isAborted k u := rfl

/-! ### State.modFn -/

@[simp] theorem modFn_cells (s : State) (n : Nat) (f : Fn → Fn) : (s.modFn n f).cells = s.cells := rfl
@[simp] theorem modFn_mem (s : State) (n : Nat) (f : Fn → Fn) : (s.modFn n f).mem = s.mem := rfl
@[simp] theorem modFn_fns (s : State) (n : Nat) (f : Fn → Fn) : (s.modFn n f).fns = tset s.fns n (f (s.fn n)) := rfl
@[simp] theorem modFn_dies (s : State) (n : Nat) (f : Fn → Fn) : (s.modFn n f).dies = s.dies := rfl
@[simp] theorem modFn_disp (s : State) (n : Nat) (f : Fn → Fn) : (s.modFn n f).disp = s.disp := rfl
@[simp] theorem modFn_sys (s : State) (n : Nat) (f : Fn → Fn) : (s.modFn n f).sys = s.sys := rfl
@[simp] theorem modFn_sched (s : State) (n : Nat) (f : Fn → Fn) : (s.modFn n f).sched = s.sched := rfl
@[simp] theorem cell_modFn (s : State) (n : Nat) (f : Fn → Fn) (k : Nat) : (s.modFn n f).cell k = s.cell k := rfl
@[simp] theorem die_modFn (s : State) (n : Nat) (f : Fn → Fn) (k : Nat) : (s.modFn n f).die k = s.die k := rfl
@[simp] theorem queue_modFn (s : State) (n : Nat) (f : Fn → Fn) (v : Fin 64) (u : BitVec 8) : (s.modFn n f).queue v u = s.queue v u := rfl
@[simp] theorem lls_modFn (s : State) (n : Nat) (f : Fn → Fn) (k : Nat) : (s.modFn n f).lls k = s.lls k := rfl
@[simp] theorem gran_modFn (s : State) (n : Nat) (f : Fn → Fn) (k : Nat) : (s.modFn n f).gran k = s.gran k := rfl
@[simp] theorem req_modFn (s : State) (n : Nat) (f : Fn → Fn) (k : Nat) : (s.modFn n f).req k = s.req k := rfl
@[simp] theorem phaser_modFn (s : State) (n : Nat) (f : Fn → Fn) (k : Nat) : (s.modFn n f).phaser k = s.phaser k := rfl
@[simp] theorem port_modFn (s : State) (n : Nat) (f : Fn → Fn) (k : Fin 32) : (s.modFn n f).port k = s.port k := rfl
@[simp] theorem now_modFn (s : State) (n : Nat) (f : Fn → Fn) : (s.modFn n f).now = s.now := rfl
@[simp] theorem lineVal_modFn (s : State) (n : Nat) (f : Fn → Fn) (k : Nat) : (s.modFn n f).lineVal k = s.lineVal k := rfl
@[simp] theorem linePoison_modFn (s : State) (n : Nat) (f : Fn → Fn) (k : Nat) : (s.modFn n f).linePoison k = s.linePoison k := rfl
@[simp] theorem dpaWord_modFn (s : State) (n : Nat) (f : Fn → Fn) (k : Nat) : (s.modFn n f).dpaWord k = s.dpaWord k := rfl
@[simp] theorem nbFind_modFn (s : State) (n : Nat) (f : Fn → Fn) (k : Nat) : (s.modFn n f).nbFind k = s.nbFind k := rfl
@[simp] theorem isAborted_modFn (s : State) (n : Nat) (f : Fn → Fn) (k : BitVec 16) (u : BitVec 32) : (s.modFn n f).isAborted k u = s.isAborted k u := rfl

/-! ### State.setDie -/

@[simp] theorem setDie_cells (s : State) (d : Nat) (x : Die) : (s.setDie d x).cells = s.cells := rfl
@[simp] theorem setDie_mem (s : State) (d : Nat) (x : Die) : (s.setDie d x).mem = s.mem := rfl
@[simp] theorem setDie_fns (s : State) (d : Nat) (x : Die) : (s.setDie d x).fns = s.fns := rfl
@[simp] theorem setDie_dies (s : State) (d : Nat) (x : Die) : (s.setDie d x).dies = tset s.dies d x := rfl
@[simp] theorem setDie_disp (s : State) (d : Nat) (x : Die) : (s.setDie d x).disp = s.disp := rfl
@[simp] theorem setDie_sys (s : State) (d : Nat) (x : Die) : (s.setDie d x).sys = s.sys := rfl
@[simp] theorem setDie_sched (s : State) (d : Nat) (x : Die) : (s.setDie d x).sched = s.sched := rfl
@[simp] theorem cell_setDie (s : State) (d : Nat) (x : Die) (k : Nat) : (s.setDie d x).cell k = s.cell k := rfl
@[simp] theorem fn_setDie (s : State) (d : Nat) (x : Die) (k : Nat) : (s.setDie d x).fn k = s.fn k := rfl
@[simp] theorem queue_setDie (s : State) (d : Nat) (x : Die) (v : Fin 64) (u : BitVec 8) : (s.setDie d x).queue v u = s.queue v u := rfl
@[simp] theorem lls_setDie (s : State) (d : Nat) (x : Die) (k : Nat) : (s.setDie d x).lls k = s.lls k := rfl
@[simp] theorem gran_setDie (s : State) (d : Nat) (x : Die) (k : Nat) : (s.setDie d x).gran k = s.gran k := rfl
@[simp] theorem req_setDie (s : State) (d : Nat) (x : Die) (k : Nat) : (s.setDie d x).req k = s.req k := rfl
@[simp] theorem phaser_setDie (s : State) (d : Nat) (x : Die) (k : Nat) : (s.setDie d x).phaser k = s.phaser k := rfl
@[simp] theorem port_setDie (s : State) (d : Nat) (x : Die) (k : Fin 32) : (s.setDie d x).port k = s.port k := rfl
@[simp] theorem now_setDie (s : State) (d : Nat) (x : Die) : (s.setDie d x).now = s.now := rfl
@[simp] theorem lineVal_setDie (s : State) (d : Nat) (x : Die) (k : Nat) : (s.setDie d x).lineVal k = s.lineVal k := rfl
@[simp] theorem linePoison_setDie (s : State) (d : Nat) (x : Die) (k : Nat) : (s.setDie d x).linePoison k = s.linePoison k := rfl
@[simp] theorem dpaWord_setDie (s : State) (d : Nat) (x : Die) (k : Nat) : (s.setDie d x).dpaWord k = s.dpaWord k := rfl
@[simp] theorem nbFind_setDie (s : State) (d : Nat) (x : Die) (k : Nat) : (s.setDie d x).nbFind k = s.nbFind k := rfl
@[simp] theorem isAborted_setDie (s : State) (d : Nat) (x : Die) (k : BitVec 16) (u : BitVec 32) : (s.setDie d x).isAborted k u = s.isAborted k u := rfl

/-! ### State.setQueue -/

@[simp] theorem setQueue_cells (s : State) (vf : Fin 64) (q : BitVec 8) (x : Queue) : (s.setQueue vf q x).cells = s.cells := rfl
@[simp] theorem setQueue_mem (s : State) (vf : Fin 64) (q : BitVec 8) (x : Queue) : (s.setQueue vf q x).mem = s.mem := rfl
@[simp] theorem setQueue_fns (s : State) (vf : Fin 64) (q : BitVec 8) (x : Queue) : (s.setQueue vf q x).fns = s.fns := rfl
@[simp] theorem setQueue_dies (s : State) (vf : Fin 64) (q : BitVec 8) (x : Queue) : (s.setQueue vf q x).dies = s.dies := rfl
@[simp] theorem setQueue_disp_phasers (s : State) (vf : Fin 64) (q : BitVec 8) (x : Queue) : (s.setQueue vf q x).disp.phasers = s.disp.phasers := rfl
@[simp] theorem setQueue_disp_queues (s : State) (vf : Fin 64) (q : BitVec 8) (x : Queue) : (s.setQueue vf q x).disp.queues = tset s.disp.queues (qkey vf q) x := rfl
@[simp] theorem setQueue_disp_heads (s : State) (vf : Fin 64) (q : BitVec 8) (x : Queue) : (s.setQueue vf q x).disp.heads = s.disp.heads := rfl
@[simp] theorem setQueue_disp_anopass (s : State) (vf : Fin 64) (q : BitVec 8) (x : Queue) : (s.setQueue vf q x).disp.anopass = s.disp.anopass := rfl
@[simp] theorem setQueue_disp_walk (s : State) (vf : Fin 64) (q : BitVec 8) (x : Queue) : (s.setQueue vf q x).disp.walk = s.disp.walk := rfl
@[simp] theorem setQueue_disp_gangs (s : State) (vf : Fin 64) (q : BitVec 8) (x : Queue) : (s.setQueue vf q x).disp.gangs = s.disp.gangs := rfl
@[simp] theorem setQueue_disp_nextGang (s : State) (vf : Fin 64) (q : BitVec 8) (x : Queue) : (s.setQueue vf q x).disp.nextGang = s.disp.nextGang := rfl
@[simp] theorem setQueue_disp_reserves (s : State) (vf : Fin 64) (q : BitVec 8) (x : Queue) : (s.setQueue vf q x).disp.reserves = s.disp.reserves := rfl
@[simp] theorem setQueue_disp_timers (s : State) (vf : Fin 64) (q : BitVec 8) (x : Queue) : (s.setQueue vf q x).disp.timers = s.disp.timers := rfl
@[simp] theorem setQueue_disp_nextTimer (s : State) (vf : Fin 64) (q : BitVec 8) (x : Queue) : (s.setQueue vf q x).disp.nextTimer = s.disp.nextTimer := rfl
@[simp] theorem setQueue_disp_wqs (s : State) (vf : Fin 64) (q : BitVec 8) (x : Queue) : (s.setQueue vf q x).disp.wqs = s.disp.wqs := rfl
@[simp] theorem setQueue_disp_journal (s : State) (vf : Fin 64) (q : BitVec 8) (x : Queue) : (s.setQueue vf q x).disp.journal = s.disp.journal := rfl
@[simp] theorem setQueue_disp_seqNo (s : State) (vf : Fin 64) (q : BitVec 8) (x : Queue) : (s.setQueue vf q x).disp.seqNo = s.disp.seqNo := rfl
@[simp] theorem setQueue_disp_consumed (s : State) (vf : Fin 64) (q : BitVec 8) (x : Queue) : (s.setQueue vf q x).disp.consumed = s.disp.consumed := rfl
@[simp] theorem setQueue_sys (s : State) (vf : Fin 64) (q : BitVec 8) (x : Queue) : (s.setQueue vf q x).sys = s.sys := rfl
@[simp] theorem setQueue_sched (s : State) (vf : Fin 64) (q : BitVec 8) (x : Queue) : (s.setQueue vf q x).sched = s.sched := rfl
@[simp] theorem cell_setQueue (s : State) (vf : Fin 64) (q : BitVec 8) (x : Queue) (k : Nat) : (s.setQueue vf q x).cell k = s.cell k := rfl
@[simp] theorem fn_setQueue (s : State) (vf : Fin 64) (q : BitVec 8) (x : Queue) (k : Nat) : (s.setQueue vf q x).fn k = s.fn k := rfl
@[simp] theorem die_setQueue (s : State) (vf : Fin 64) (q : BitVec 8) (x : Queue) (k : Nat) : (s.setQueue vf q x).die k = s.die k := rfl
@[simp] theorem lls_setQueue (s : State) (vf : Fin 64) (q : BitVec 8) (x : Queue) (k : Nat) : (s.setQueue vf q x).lls k = s.lls k := rfl
@[simp] theorem gran_setQueue (s : State) (vf : Fin 64) (q : BitVec 8) (x : Queue) (k : Nat) : (s.setQueue vf q x).gran k = s.gran k := rfl
@[simp] theorem req_setQueue (s : State) (vf : Fin 64) (q : BitVec 8) (x : Queue) (k : Nat) : (s.setQueue vf q x).req k = s.req k := rfl
@[simp] theorem phaser_setQueue (s : State) (vf : Fin 64) (q : BitVec 8) (x : Queue) (k : Nat) : (s.setQueue vf q x).phaser k = s.phaser k := rfl
@[simp] theorem port_setQueue (s : State) (vf : Fin 64) (q : BitVec 8) (x : Queue) (k : Fin 32) : (s.setQueue vf q x).port k = s.port k := rfl
@[simp] theorem now_setQueue (s : State) (vf : Fin 64) (q : BitVec 8) (x : Queue) : (s.setQueue vf q x).now = s.now := rfl
@[simp] theorem lineVal_setQueue (s : State) (vf : Fin 64) (q : BitVec 8) (x : Queue) (k : Nat) : (s.setQueue vf q x).lineVal k = s.lineVal k := rfl
@[simp] theorem linePoison_setQueue (s : State) (vf : Fin 64) (q : BitVec 8) (x : Queue) (k : Nat) : (s.setQueue vf q x).linePoison k = s.linePoison k := rfl
@[simp] theorem dpaWord_setQueue (s : State) (vf : Fin 64) (q : BitVec 8) (x : Queue) (k : Nat) : (s.setQueue vf q x).dpaWord k = s.dpaWord k := rfl
@[simp] theorem nbFind_setQueue (s : State) (vf : Fin 64) (q : BitVec 8) (x : Queue) (k : Nat) : (s.setQueue vf q x).nbFind k = s.nbFind k := rfl
@[simp] theorem isAborted_setQueue (s : State) (vf : Fin 64) (q : BitVec 8) (x : Queue) (k : BitVec 16) (u : BitVec 32) : (s.setQueue vf q x).isAborted k u = s.isAborted k u := rfl

/-! ### State.modQueue -/

@[simp] theorem modQueue_cells (s : State) (vf : Fin 64) (q : BitVec 8) (f : Queue → Queue) : (s.modQueue vf q f).cells = s.cells := rfl
@[simp] theorem modQueue_mem (s : State) (vf : Fin 64) (q : BitVec 8) (f : Queue → Queue) : (s.modQueue vf q f).mem = s.mem := rfl
@[simp] theorem modQueue_fns (s : State) (vf : Fin 64) (q : BitVec 8) (f : Queue → Queue) : (s.modQueue vf q f).fns = s.fns := rfl
@[simp] theorem modQueue_dies (s : State) (vf : Fin 64) (q : BitVec 8) (f : Queue → Queue) : (s.modQueue vf q f).dies = s.dies := rfl
@[simp] theorem modQueue_disp_phasers (s : State) (vf : Fin 64) (q : BitVec 8) (f : Queue → Queue) : (s.modQueue vf q f).disp.phasers = s.disp.phasers := rfl
@[simp] theorem modQueue_disp_queues (s : State) (vf : Fin 64) (q : BitVec 8) (f : Queue → Queue) : (s.modQueue vf q f).disp.queues = tset s.disp.queues (qkey vf q) (f (s.queue vf q)) := rfl
@[simp] theorem modQueue_disp_heads (s : State) (vf : Fin 64) (q : BitVec 8) (f : Queue → Queue) : (s.modQueue vf q f).disp.heads = s.disp.heads := rfl
@[simp] theorem modQueue_disp_anopass (s : State) (vf : Fin 64) (q : BitVec 8) (f : Queue → Queue) : (s.modQueue vf q f).disp.anopass = s.disp.anopass := rfl
@[simp] theorem modQueue_disp_walk (s : State) (vf : Fin 64) (q : BitVec 8) (f : Queue → Queue) : (s.modQueue vf q f).disp.walk = s.disp.walk := rfl
@[simp] theorem modQueue_disp_gangs (s : State) (vf : Fin 64) (q : BitVec 8) (f : Queue → Queue) : (s.modQueue vf q f).disp.gangs = s.disp.gangs := rfl
@[simp] theorem modQueue_disp_nextGang (s : State) (vf : Fin 64) (q : BitVec 8) (f : Queue → Queue) : (s.modQueue vf q f).disp.nextGang = s.disp.nextGang := rfl
@[simp] theorem modQueue_disp_reserves (s : State) (vf : Fin 64) (q : BitVec 8) (f : Queue → Queue) : (s.modQueue vf q f).disp.reserves = s.disp.reserves := rfl
@[simp] theorem modQueue_disp_timers (s : State) (vf : Fin 64) (q : BitVec 8) (f : Queue → Queue) : (s.modQueue vf q f).disp.timers = s.disp.timers := rfl
@[simp] theorem modQueue_disp_nextTimer (s : State) (vf : Fin 64) (q : BitVec 8) (f : Queue → Queue) : (s.modQueue vf q f).disp.nextTimer = s.disp.nextTimer := rfl
@[simp] theorem modQueue_disp_wqs (s : State) (vf : Fin 64) (q : BitVec 8) (f : Queue → Queue) : (s.modQueue vf q f).disp.wqs = s.disp.wqs := rfl
@[simp] theorem modQueue_disp_journal (s : State) (vf : Fin 64) (q : BitVec 8) (f : Queue → Queue) : (s.modQueue vf q f).disp.journal = s.disp.journal := rfl
@[simp] theorem modQueue_disp_seqNo (s : State) (vf : Fin 64) (q : BitVec 8) (f : Queue → Queue) : (s.modQueue vf q f).disp.seqNo = s.disp.seqNo := rfl
@[simp] theorem modQueue_disp_consumed (s : State) (vf : Fin 64) (q : BitVec 8) (f : Queue → Queue) : (s.modQueue vf q f).disp.consumed = s.disp.consumed := rfl
@[simp] theorem modQueue_sys (s : State) (vf : Fin 64) (q : BitVec 8) (f : Queue → Queue) : (s.modQueue vf q f).sys = s.sys := rfl
@[simp] theorem modQueue_sched (s : State) (vf : Fin 64) (q : BitVec 8) (f : Queue → Queue) : (s.modQueue vf q f).sched = s.sched := rfl
@[simp] theorem cell_modQueue (s : State) (vf : Fin 64) (q : BitVec 8) (f : Queue → Queue) (k : Nat) : (s.modQueue vf q f).cell k = s.cell k := rfl
@[simp] theorem fn_modQueue (s : State) (vf : Fin 64) (q : BitVec 8) (f : Queue → Queue) (k : Nat) : (s.modQueue vf q f).fn k = s.fn k := rfl
@[simp] theorem die_modQueue (s : State) (vf : Fin 64) (q : BitVec 8) (f : Queue → Queue) (k : Nat) : (s.modQueue vf q f).die k = s.die k := rfl
@[simp] theorem lls_modQueue (s : State) (vf : Fin 64) (q : BitVec 8) (f : Queue → Queue) (k : Nat) : (s.modQueue vf q f).lls k = s.lls k := rfl
@[simp] theorem gran_modQueue (s : State) (vf : Fin 64) (q : BitVec 8) (f : Queue → Queue) (k : Nat) : (s.modQueue vf q f).gran k = s.gran k := rfl
@[simp] theorem req_modQueue (s : State) (vf : Fin 64) (q : BitVec 8) (f : Queue → Queue) (k : Nat) : (s.modQueue vf q f).req k = s.req k := rfl
@[simp] theorem phaser_modQueue (s : State) (vf : Fin 64) (q : BitVec 8) (f : Queue → Queue) (k : Nat) : (s.modQueue vf q f).phaser k = s.phaser k := rfl
@[simp] theorem port_modQueue (s : State) (vf : Fin 64) (q : BitVec 8) (f : Queue → Queue) (k : Fin 32) : (s.modQueue vf q f).port k = s.port k := rfl
@[simp] theorem now_modQueue (s : State) (vf : Fin 64) (q : BitVec 8) (f : Queue → Queue) : (s.modQueue vf q f).now = s.now := rfl
@[simp] theorem lineVal_modQueue (s : State) (vf : Fin 64) (q : BitVec 8) (f : Queue → Queue) (k : Nat) : (s.modQueue vf q f).lineVal k = s.lineVal k := rfl
@[simp] theorem linePoison_modQueue (s : State) (vf : Fin 64) (q : BitVec 8) (f : Queue → Queue) (k : Nat) : (s.modQueue vf q f).linePoison k = s.linePoison k := rfl
@[simp] theorem dpaWord_modQueue (s : State) (vf : Fin 64) (q : BitVec 8) (f : Queue → Queue) (k : Nat) : (s.modQueue vf q f).dpaWord k = s.dpaWord k := rfl
@[simp] theorem nbFind_modQueue (s : State) (vf : Fin 64) (q : BitVec 8) (f : Queue → Queue) (k : Nat) : (s.modQueue vf q f).nbFind k = s.nbFind k := rfl
@[simp] theorem isAborted_modQueue (s : State) (vf : Fin 64) (q : BitVec 8) (f : Queue → Queue) (k : BitVec 16) (u : BitVec 32) : (s.modQueue vf q f).isAborted k u = s.isAborted k u := rfl

/-! ### State.setPhaser -/

@[simp] theorem setPhaser_cells (s : State) (n : Nat) (p : Phaser) : (s.setPhaser n p).cells = s.cells := rfl
@[simp] theorem setPhaser_mem (s : State) (n : Nat) (p : Phaser) : (s.setPhaser n p).mem = s.mem := rfl
@[simp] theorem setPhaser_fns (s : State) (n : Nat) (p : Phaser) : (s.setPhaser n p).fns = s.fns := rfl
@[simp] theorem setPhaser_dies (s : State) (n : Nat) (p : Phaser) : (s.setPhaser n p).dies = s.dies := rfl
@[simp] theorem setPhaser_disp_phasers (s : State) (n : Nat) (p : Phaser) : (s.setPhaser n p).disp.phasers = tset s.disp.phasers n p := rfl
@[simp] theorem setPhaser_disp_queues (s : State) (n : Nat) (p : Phaser) : (s.setPhaser n p).disp.queues = s.disp.queues := rfl
@[simp] theorem setPhaser_disp_heads (s : State) (n : Nat) (p : Phaser) : (s.setPhaser n p).disp.heads = s.disp.heads := rfl
@[simp] theorem setPhaser_disp_anopass (s : State) (n : Nat) (p : Phaser) : (s.setPhaser n p).disp.anopass = s.disp.anopass := rfl
@[simp] theorem setPhaser_disp_walk (s : State) (n : Nat) (p : Phaser) : (s.setPhaser n p).disp.walk = s.disp.walk := rfl
@[simp] theorem setPhaser_disp_gangs (s : State) (n : Nat) (p : Phaser) : (s.setPhaser n p).disp.gangs = s.disp.gangs := rfl
@[simp] theorem setPhaser_disp_nextGang (s : State) (n : Nat) (p : Phaser) : (s.setPhaser n p).disp.nextGang = s.disp.nextGang := rfl
@[simp] theorem setPhaser_disp_reserves (s : State) (n : Nat) (p : Phaser) : (s.setPhaser n p).disp.reserves = s.disp.reserves := rfl
@[simp] theorem setPhaser_disp_timers (s : State) (n : Nat) (p : Phaser) : (s.setPhaser n p).disp.timers = s.disp.timers := rfl
@[simp] theorem setPhaser_disp_nextTimer (s : State) (n : Nat) (p : Phaser) : (s.setPhaser n p).disp.nextTimer = s.disp.nextTimer := rfl
@[simp] theorem setPhaser_disp_wqs (s : State) (n : Nat) (p : Phaser) : (s.setPhaser n p).disp.wqs = s.disp.wqs := rfl
@[simp] theorem setPhaser_disp_journal (s : State) (n : Nat) (p : Phaser) : (s.setPhaser n p).disp.journal = s.disp.journal := rfl
@[simp] theorem setPhaser_disp_seqNo (s : State) (n : Nat) (p : Phaser) : (s.setPhaser n p).disp.seqNo = s.disp.seqNo := rfl
@[simp] theorem setPhaser_disp_consumed (s : State) (n : Nat) (p : Phaser) : (s.setPhaser n p).disp.consumed = s.disp.consumed := rfl
@[simp] theorem setPhaser_sys (s : State) (n : Nat) (p : Phaser) : (s.setPhaser n p).sys = s.sys := rfl
@[simp] theorem setPhaser_sched (s : State) (n : Nat) (p : Phaser) : (s.setPhaser n p).sched = s.sched := rfl
@[simp] theorem cell_setPhaser (s : State) (n : Nat) (p : Phaser) (k : Nat) : (s.setPhaser n p).cell k = s.cell k := rfl
@[simp] theorem fn_setPhaser (s : State) (n : Nat) (p : Phaser) (k : Nat) : (s.setPhaser n p).fn k = s.fn k := rfl
@[simp] theorem die_setPhaser (s : State) (n : Nat) (p : Phaser) (k : Nat) : (s.setPhaser n p).die k = s.die k := rfl
@[simp] theorem queue_setPhaser (s : State) (n : Nat) (p : Phaser) (v : Fin 64) (u : BitVec 8) : (s.setPhaser n p).queue v u = s.queue v u := rfl
@[simp] theorem lls_setPhaser (s : State) (n : Nat) (p : Phaser) (k : Nat) : (s.setPhaser n p).lls k = s.lls k := rfl
@[simp] theorem gran_setPhaser (s : State) (n : Nat) (p : Phaser) (k : Nat) : (s.setPhaser n p).gran k = s.gran k := rfl
@[simp] theorem req_setPhaser (s : State) (n : Nat) (p : Phaser) (k : Nat) : (s.setPhaser n p).req k = s.req k := rfl
@[simp] theorem port_setPhaser (s : State) (n : Nat) (p : Phaser) (k : Fin 32) : (s.setPhaser n p).port k = s.port k := rfl
@[simp] theorem now_setPhaser (s : State) (n : Nat) (p : Phaser) : (s.setPhaser n p).now = s.now := rfl
@[simp] theorem lineVal_setPhaser (s : State) (n : Nat) (p : Phaser) (k : Nat) : (s.setPhaser n p).lineVal k = s.lineVal k := rfl
@[simp] theorem linePoison_setPhaser (s : State) (n : Nat) (p : Phaser) (k : Nat) : (s.setPhaser n p).linePoison k = s.linePoison k := rfl
@[simp] theorem dpaWord_setPhaser (s : State) (n : Nat) (p : Phaser) (k : Nat) : (s.setPhaser n p).dpaWord k = s.dpaWord k := rfl
@[simp] theorem nbFind_setPhaser (s : State) (n : Nat) (p : Phaser) (k : Nat) : (s.setPhaser n p).nbFind k = s.nbFind k := rfl
@[simp] theorem isAborted_setPhaser (s : State) (n : Nat) (p : Phaser) (k : BitVec 16) (u : BitVec 32) : (s.setPhaser n p).isAborted k u = s.isAborted k u := rfl

/-! ### State.setWq -/

@[simp] theorem setWq_cells (s : State) (n : Nat) (w : WorkQ) : (s.setWq n w).cells = s.cells := rfl
@[simp] theorem setWq_mem (s : State) (n : Nat) (w : WorkQ) : (s.setWq n w).mem = s.mem := rfl
@[simp] theorem setWq_fns (s : State) (n : Nat) (w : WorkQ) : (s.setWq n w).fns = s.fns := rfl
@[simp] theorem setWq_dies (s : State) (n : Nat) (w : WorkQ) : (s.setWq n w).dies = s.dies := rfl
@[simp] theorem setWq_disp_phasers (s : State) (n : Nat) (w : WorkQ) : (s.setWq n w).disp.phasers = s.disp.phasers := rfl
@[simp] theorem setWq_disp_queues (s : State) (n : Nat) (w : WorkQ) : (s.setWq n w).disp.queues = s.disp.queues := rfl
@[simp] theorem setWq_disp_heads (s : State) (n : Nat) (w : WorkQ) : (s.setWq n w).disp.heads = s.disp.heads := rfl
@[simp] theorem setWq_disp_anopass (s : State) (n : Nat) (w : WorkQ) : (s.setWq n w).disp.anopass = s.disp.anopass := rfl
@[simp] theorem setWq_disp_walk (s : State) (n : Nat) (w : WorkQ) : (s.setWq n w).disp.walk = s.disp.walk := rfl
@[simp] theorem setWq_disp_gangs (s : State) (n : Nat) (w : WorkQ) : (s.setWq n w).disp.gangs = s.disp.gangs := rfl
@[simp] theorem setWq_disp_nextGang (s : State) (n : Nat) (w : WorkQ) : (s.setWq n w).disp.nextGang = s.disp.nextGang := rfl
@[simp] theorem setWq_disp_reserves (s : State) (n : Nat) (w : WorkQ) : (s.setWq n w).disp.reserves = s.disp.reserves := rfl
@[simp] theorem setWq_disp_timers (s : State) (n : Nat) (w : WorkQ) : (s.setWq n w).disp.timers = s.disp.timers := rfl
@[simp] theorem setWq_disp_nextTimer (s : State) (n : Nat) (w : WorkQ) : (s.setWq n w).disp.nextTimer = s.disp.nextTimer := rfl
@[simp] theorem setWq_disp_wqs (s : State) (n : Nat) (w : WorkQ) : (s.setWq n w).disp.wqs = tset s.disp.wqs n w := rfl
@[simp] theorem setWq_disp_journal (s : State) (n : Nat) (w : WorkQ) : (s.setWq n w).disp.journal = s.disp.journal := rfl
@[simp] theorem setWq_disp_seqNo (s : State) (n : Nat) (w : WorkQ) : (s.setWq n w).disp.seqNo = s.disp.seqNo := rfl
@[simp] theorem setWq_disp_consumed (s : State) (n : Nat) (w : WorkQ) : (s.setWq n w).disp.consumed = s.disp.consumed := rfl
@[simp] theorem setWq_sys (s : State) (n : Nat) (w : WorkQ) : (s.setWq n w).sys = s.sys := rfl
@[simp] theorem setWq_sched (s : State) (n : Nat) (w : WorkQ) : (s.setWq n w).sched = s.sched := rfl
@[simp] theorem cell_setWq (s : State) (n : Nat) (w : WorkQ) (k : Nat) : (s.setWq n w).cell k = s.cell k := rfl
@[simp] theorem fn_setWq (s : State) (n : Nat) (w : WorkQ) (k : Nat) : (s.setWq n w).fn k = s.fn k := rfl
@[simp] theorem die_setWq (s : State) (n : Nat) (w : WorkQ) (k : Nat) : (s.setWq n w).die k = s.die k := rfl
@[simp] theorem queue_setWq (s : State) (n : Nat) (w : WorkQ) (v : Fin 64) (u : BitVec 8) : (s.setWq n w).queue v u = s.queue v u := rfl
@[simp] theorem lls_setWq (s : State) (n : Nat) (w : WorkQ) (k : Nat) : (s.setWq n w).lls k = s.lls k := rfl
@[simp] theorem gran_setWq (s : State) (n : Nat) (w : WorkQ) (k : Nat) : (s.setWq n w).gran k = s.gran k := rfl
@[simp] theorem req_setWq (s : State) (n : Nat) (w : WorkQ) (k : Nat) : (s.setWq n w).req k = s.req k := rfl
@[simp] theorem phaser_setWq (s : State) (n : Nat) (w : WorkQ) (k : Nat) : (s.setWq n w).phaser k = s.phaser k := rfl
@[simp] theorem port_setWq (s : State) (n : Nat) (w : WorkQ) (k : Fin 32) : (s.setWq n w).port k = s.port k := rfl
@[simp] theorem now_setWq (s : State) (n : Nat) (w : WorkQ) : (s.setWq n w).now = s.now := rfl
@[simp] theorem lineVal_setWq (s : State) (n : Nat) (w : WorkQ) (k : Nat) : (s.setWq n w).lineVal k = s.lineVal k := rfl
@[simp] theorem linePoison_setWq (s : State) (n : Nat) (w : WorkQ) (k : Nat) : (s.setWq n w).linePoison k = s.linePoison k := rfl
@[simp] theorem dpaWord_setWq (s : State) (n : Nat) (w : WorkQ) (k : Nat) : (s.setWq n w).dpaWord k = s.dpaWord k := rfl
@[simp] theorem nbFind_setWq (s : State) (n : Nat) (w : WorkQ) (k : Nat) : (s.setWq n w).nbFind k = s.nbFind k := rfl
@[simp] theorem isAborted_setWq (s : State) (n : Nat) (w : WorkQ) (k : BitVec 16) (u : BitVec 32) : (s.setWq n w).isAborted k u = s.isAborted k u := rfl

/-! ### State.setGang -/

@[simp] theorem setGang_cells (s : State) (n : Nat) (g : Gang) : (s.setGang n g).cells = s.cells := rfl
@[simp] theorem setGang_mem (s : State) (n : Nat) (g : Gang) : (s.setGang n g).mem = s.mem := rfl
@[simp] theorem setGang_fns (s : State) (n : Nat) (g : Gang) : (s.setGang n g).fns = s.fns := rfl
@[simp] theorem setGang_dies (s : State) (n : Nat) (g : Gang) : (s.setGang n g).dies = s.dies := rfl
@[simp] theorem setGang_disp_phasers (s : State) (n : Nat) (g : Gang) : (s.setGang n g).disp.phasers = s.disp.phasers := rfl
@[simp] theorem setGang_disp_queues (s : State) (n : Nat) (g : Gang) : (s.setGang n g).disp.queues = s.disp.queues := rfl
@[simp] theorem setGang_disp_heads (s : State) (n : Nat) (g : Gang) : (s.setGang n g).disp.heads = s.disp.heads := rfl
@[simp] theorem setGang_disp_anopass (s : State) (n : Nat) (g : Gang) : (s.setGang n g).disp.anopass = s.disp.anopass := rfl
@[simp] theorem setGang_disp_walk (s : State) (n : Nat) (g : Gang) : (s.setGang n g).disp.walk = s.disp.walk := rfl
@[simp] theorem setGang_disp_gangs (s : State) (n : Nat) (g : Gang) : (s.setGang n g).disp.gangs = tset s.disp.gangs n g := rfl
@[simp] theorem setGang_disp_nextGang (s : State) (n : Nat) (g : Gang) : (s.setGang n g).disp.nextGang = s.disp.nextGang := rfl
@[simp] theorem setGang_disp_reserves (s : State) (n : Nat) (g : Gang) : (s.setGang n g).disp.reserves = s.disp.reserves := rfl
@[simp] theorem setGang_disp_timers (s : State) (n : Nat) (g : Gang) : (s.setGang n g).disp.timers = s.disp.timers := rfl
@[simp] theorem setGang_disp_nextTimer (s : State) (n : Nat) (g : Gang) : (s.setGang n g).disp.nextTimer = s.disp.nextTimer := rfl
@[simp] theorem setGang_disp_wqs (s : State) (n : Nat) (g : Gang) : (s.setGang n g).disp.wqs = s.disp.wqs := rfl
@[simp] theorem setGang_disp_journal (s : State) (n : Nat) (g : Gang) : (s.setGang n g).disp.journal = s.disp.journal := rfl
@[simp] theorem setGang_disp_seqNo (s : State) (n : Nat) (g : Gang) : (s.setGang n g).disp.seqNo = s.disp.seqNo := rfl
@[simp] theorem setGang_disp_consumed (s : State) (n : Nat) (g : Gang) : (s.setGang n g).disp.consumed = s.disp.consumed := rfl
@[simp] theorem setGang_sys (s : State) (n : Nat) (g : Gang) : (s.setGang n g).sys = s.sys := rfl
@[simp] theorem setGang_sched (s : State) (n : Nat) (g : Gang) : (s.setGang n g).sched = s.sched := rfl
@[simp] theorem cell_setGang (s : State) (n : Nat) (g : Gang) (k : Nat) : (s.setGang n g).cell k = s.cell k := rfl
@[simp] theorem fn_setGang (s : State) (n : Nat) (g : Gang) (k : Nat) : (s.setGang n g).fn k = s.fn k := rfl
@[simp] theorem die_setGang (s : State) (n : Nat) (g : Gang) (k : Nat) : (s.setGang n g).die k = s.die k := rfl
@[simp] theorem queue_setGang (s : State) (n : Nat) (g : Gang) (v : Fin 64) (u : BitVec 8) : (s.setGang n g).queue v u = s.queue v u := rfl
@[simp] theorem lls_setGang (s : State) (n : Nat) (g : Gang) (k : Nat) : (s.setGang n g).lls k = s.lls k := rfl
@[simp] theorem gran_setGang (s : State) (n : Nat) (g : Gang) (k : Nat) : (s.setGang n g).gran k = s.gran k := rfl
@[simp] theorem req_setGang (s : State) (n : Nat) (g : Gang) (k : Nat) : (s.setGang n g).req k = s.req k := rfl
@[simp] theorem phaser_setGang (s : State) (n : Nat) (g : Gang) (k : Nat) : (s.setGang n g).phaser k = s.phaser k := rfl
@[simp] theorem port_setGang (s : State) (n : Nat) (g : Gang) (k : Fin 32) : (s.setGang n g).port k = s.port k := rfl
@[simp] theorem now_setGang (s : State) (n : Nat) (g : Gang) : (s.setGang n g).now = s.now := rfl
@[simp] theorem lineVal_setGang (s : State) (n : Nat) (g : Gang) (k : Nat) : (s.setGang n g).lineVal k = s.lineVal k := rfl
@[simp] theorem linePoison_setGang (s : State) (n : Nat) (g : Gang) (k : Nat) : (s.setGang n g).linePoison k = s.linePoison k := rfl
@[simp] theorem dpaWord_setGang (s : State) (n : Nat) (g : Gang) (k : Nat) : (s.setGang n g).dpaWord k = s.dpaWord k := rfl
@[simp] theorem nbFind_setGang (s : State) (n : Nat) (g : Gang) (k : Nat) : (s.setGang n g).nbFind k = s.nbFind k := rfl
@[simp] theorem isAborted_setGang (s : State) (n : Nat) (g : Gang) (k : BitVec 16) (u : BitVec 32) : (s.setGang n g).isAborted k u = s.isAborted k u := rfl

/-! ### State.push -/

@[simp] theorem push_cells (s : State) (ts : List Task) : (s.push ts).cells = s.cells := rfl
@[simp] theorem push_mem (s : State) (ts : List Task) : (s.push ts).mem = s.mem := rfl
@[simp] theorem push_fns (s : State) (ts : List Task) : (s.push ts).fns = s.fns := rfl
@[simp] theorem push_dies (s : State) (ts : List Task) : (s.push ts).dies = s.dies := rfl
@[simp] theorem push_disp (s : State) (ts : List Task) : (s.push ts).disp = s.disp := rfl
@[simp] theorem push_sys (s : State) (ts : List Task) : (s.push ts).sys = s.sys := rfl
@[simp] theorem push_sched_tasks (s : State) (ts : List Task) : (s.push ts).sched.tasks = ts ++ s.sched.tasks := rfl
@[simp] theorem push_sched_inputs (s : State) (ts : List Task) : (s.push ts).sched.inputs = s.sched.inputs := rfl
@[simp] theorem push_sched_cur (s : State) (ts : List Task) : (s.push ts).sched.cur = s.sched.cur := rfl
@[simp] theorem push_sched_firing (s : State) (ts : List Task) : (s.push ts).sched.firing = s.sched.firing := rfl
@[simp] theorem cell_push (s : State) (ts : List Task) (k : Nat) : (s.push ts).cell k = s.cell k := rfl
@[simp] theorem fn_push (s : State) (ts : List Task) (k : Nat) : (s.push ts).fn k = s.fn k := rfl
@[simp] theorem die_push (s : State) (ts : List Task) (k : Nat) : (s.push ts).die k = s.die k := rfl
@[simp] theorem queue_push (s : State) (ts : List Task) (v : Fin 64) (u : BitVec 8) : (s.push ts).queue v u = s.queue v u := rfl
@[simp] theorem lls_push (s : State) (ts : List Task) (k : Nat) : (s.push ts).lls k = s.lls k := rfl
@[simp] theorem gran_push (s : State) (ts : List Task) (k : Nat) : (s.push ts).gran k = s.gran k := rfl
@[simp] theorem req_push (s : State) (ts : List Task) (k : Nat) : (s.push ts).req k = s.req k := rfl
@[simp] theorem phaser_push (s : State) (ts : List Task) (k : Nat) : (s.push ts).phaser k = s.phaser k := rfl
@[simp] theorem port_push (s : State) (ts : List Task) (k : Fin 32) : (s.push ts).port k = s.port k := rfl
@[simp] theorem now_push (s : State) (ts : List Task) : (s.push ts).now = s.now := rfl
@[simp] theorem lineVal_push (s : State) (ts : List Task) (k : Nat) : (s.push ts).lineVal k = s.lineVal k := rfl
@[simp] theorem linePoison_push (s : State) (ts : List Task) (k : Nat) : (s.push ts).linePoison k = s.linePoison k := rfl
@[simp] theorem dpaWord_push (s : State) (ts : List Task) (k : Nat) : (s.push ts).dpaWord k = s.dpaWord k := rfl
@[simp] theorem nbFind_push (s : State) (ts : List Task) (k : Nat) : (s.push ts).nbFind k = s.nbFind k := rfl
@[simp] theorem isAborted_push (s : State) (ts : List Task) (k : BitVec 16) (u : BitVec 32) : (s.push ts).isAborted k u = s.isAborted k u := rfl

/-! ### State.again -/

@[simp] theorem again_cells (s : State) (i : Instr) : (s.again i).cells = s.cells := rfl
@[simp] theorem again_mem (s : State) (i : Instr) : (s.again i).mem = s.mem := rfl
@[simp] theorem again_fns (s : State) (i : Instr) : (s.again i).fns = s.fns := rfl
@[simp] theorem again_dies (s : State) (i : Instr) : (s.again i).dies = s.dies := rfl
@[simp] theorem again_disp (s : State) (i : Instr) : (s.again i).disp = s.disp := rfl
@[simp] theorem again_sys (s : State) (i : Instr) : (s.again i).sys = s.sys := rfl
@[simp] theorem again_sched_tasks (s : State) (i : Instr) : (s.again i).sched.tasks = s.sched.tasks := rfl
@[simp] theorem again_sched_inputs (s : State) (i : Instr) : (s.again i).sched.inputs = s.sched.inputs ++ [⟨s.sys.cycle + 1, i, true⟩] := rfl
@[simp] theorem again_sched_cur (s : State) (i : Instr) : (s.again i).sched.cur = s.sched.cur := rfl
@[simp] theorem again_sched_firing (s : State) (i : Instr) : (s.again i).sched.firing = s.sched.firing := rfl
@[simp] theorem cell_again (s : State) (i : Instr) (k : Nat) : (s.again i).cell k = s.cell k := rfl
@[simp] theorem fn_again (s : State) (i : Instr) (k : Nat) : (s.again i).fn k = s.fn k := rfl
@[simp] theorem die_again (s : State) (i : Instr) (k : Nat) : (s.again i).die k = s.die k := rfl
@[simp] theorem queue_again (s : State) (i : Instr) (v : Fin 64) (u : BitVec 8) : (s.again i).queue v u = s.queue v u := rfl
@[simp] theorem lls_again (s : State) (i : Instr) (k : Nat) : (s.again i).lls k = s.lls k := rfl
@[simp] theorem gran_again (s : State) (i : Instr) (k : Nat) : (s.again i).gran k = s.gran k := rfl
@[simp] theorem req_again (s : State) (i : Instr) (k : Nat) : (s.again i).req k = s.req k := rfl
@[simp] theorem phaser_again (s : State) (i : Instr) (k : Nat) : (s.again i).phaser k = s.phaser k := rfl
@[simp] theorem port_again (s : State) (i : Instr) (k : Fin 32) : (s.again i).port k = s.port k := rfl
@[simp] theorem now_again (s : State) (i : Instr) : (s.again i).now = s.now := rfl
@[simp] theorem lineVal_again (s : State) (i : Instr) (k : Nat) : (s.again i).lineVal k = s.lineVal k := rfl
@[simp] theorem linePoison_again (s : State) (i : Instr) (k : Nat) : (s.again i).linePoison k = s.linePoison k := rfl
@[simp] theorem dpaWord_again (s : State) (i : Instr) (k : Nat) : (s.again i).dpaWord k = s.dpaWord k := rfl
@[simp] theorem nbFind_again (s : State) (i : Instr) (k : Nat) : (s.again i).nbFind k = s.nbFind k := rfl
@[simp] theorem isAborted_again (s : State) (i : Instr) (k : BitVec 16) (u : BitVec 32) : (s.again i).isAborted k u = s.isAborted k u := rfl

/-! ### State.setGran -/

@[simp] theorem setGran_cells (s : State) (g : Nat) (x : Granule) : (s.setGran g x).cells = s.cells := rfl
@[simp] theorem setGran_mem_dram (s : State) (g : Nat) (x : Granule) : (s.setGran g x).mem.dram = s.mem.dram := rfl
@[simp] theorem setGran_mem_host (s : State) (g : Nat) (x : Granule) : (s.setGran g x).mem.host = s.mem.host := rfl
@[simp] theorem setGran_mem_hostBad (s : State) (g : Nat) (x : Granule) : (s.setGran g x).mem.hostBad = s.mem.hostBad := rfl
@[simp] theorem setGran_mem_gran (s : State) (g : Nat) (x : Granule) : (s.setGran g x).mem.gran = tset s.mem.gran g x := rfl
@[simp] theorem setGran_mem_lls (s : State) (g : Nat) (x : Granule) : (s.setGran g x).mem.lls = s.mem.lls := rfl
@[simp] theorem setGran_mem_dir (s : State) (g : Nat) (x : Granule) : (s.setGran g x).mem.dir = s.mem.dir := rfl
@[simp] theorem setGran_mem_recalls (s : State) (g : Nat) (x : Granule) : (s.setGran g x).mem.recalls = s.mem.recalls := rfl
@[simp] theorem setGran_mem_timedOut (s : State) (g : Nat) (x : Granule) : (s.setGran g x).mem.timedOut = s.mem.timedOut := rfl
@[simp] theorem setGran_mem_hostResp (s : State) (g : Nat) (x : Granule) : (s.setGran g x).mem.hostResp = s.mem.hostResp := rfl
@[simp] theorem setGran_mem_reqs (s : State) (g : Nat) (x : Granule) : (s.setGran g x).mem.reqs = s.mem.reqs := rfl
@[simp] theorem setGran_mem_nextReq (s : State) (g : Nat) (x : Granule) : (s.setGran g x).mem.nextReq = s.mem.nextReq := rfl
@[simp] theorem setGran_mem_tlb (s : State) (g : Nat) (x : Granule) : (s.setGran g x).mem.tlb = s.mem.tlb := rfl
@[simp] theorem setGran_mem_walks (s : State) (g : Nat) (x : Granule) : (s.setGran g x).mem.walks = s.mem.walks := rfl
@[simp] theorem setGran_mem_walking (s : State) (g : Nat) (x : Granule) : (s.setGran g x).mem.walking = s.mem.walking := rfl
@[simp] theorem setGran_mem_asids (s : State) (g : Nat) (x : Granule) : (s.setGran g x).mem.asids = s.mem.asids := rfl
@[simp] theorem setGran_mem_shoots (s : State) (g : Nat) (x : Granule) : (s.setGran g x).mem.shoots = s.mem.shoots := rfl
@[simp] theorem setGran_mem_nextShoot (s : State) (g : Nat) (x : Granule) : (s.setGran g x).mem.nextShoot = s.mem.nextShoot := rfl
@[simp] theorem setGran_mem_mig (s : State) (g : Nat) (x : Granule) : (s.setGran g x).mem.mig = s.mem.mig := rfl
@[simp] theorem setGran_mem_nb (s : State) (g : Nat) (x : Granule) : (s.setGran g x).mem.nb = s.mem.nb := rfl
@[simp] theorem setGran_mem_bankQ (s : State) (g : Nat) (x : Granule) : (s.setGran g x).mem.bankQ = s.mem.bankQ := rfl
@[simp] theorem setGran_mem_nextNb (s : State) (g : Nat) (x : Granule) : (s.setGran g x).mem.nextNb = s.mem.nextNb := rfl
@[simp] theorem setGran_mem_signals (s : State) (g : Nat) (x : Granule) : (s.setGran g x).mem.signals = s.mem.signals := rfl
@[simp] theorem setGran_mem_skinkPos (s : State) (g : Nat) (x : Granule) : (s.setGran g x).mem.skinkPos = s.mem.skinkPos := rfl
@[simp] theorem setGran_mem_skinkPeriod (s : State) (g : Nat) (x : Granule) : (s.setGran g x).mem.skinkPeriod = s.mem.skinkPeriod := rfl
@[simp] theorem setGran_mem_ecLls (s : State) (g : Nat) (x : Granule) : (s.setGran g x).mem.ecLls = s.mem.ecLls := rfl
@[simp] theorem setGran_mem_ecHbm (s : State) (g : Nat) (x : Granule) : (s.setGran g x).mem.ecHbm = s.mem.ecHbm := rfl
@[simp] theorem setGran_fns (s : State) (g : Nat) (x : Granule) : (s.setGran g x).fns = s.fns := rfl
@[simp] theorem setGran_dies (s : State) (g : Nat) (x : Granule) : (s.setGran g x).dies = s.dies := rfl
@[simp] theorem setGran_disp (s : State) (g : Nat) (x : Granule) : (s.setGran g x).disp = s.disp := rfl
@[simp] theorem setGran_sys (s : State) (g : Nat) (x : Granule) : (s.setGran g x).sys = s.sys := rfl
@[simp] theorem setGran_sched (s : State) (g : Nat) (x : Granule) : (s.setGran g x).sched = s.sched := rfl
@[simp] theorem cell_setGran (s : State) (g : Nat) (x : Granule) (k : Nat) : (s.setGran g x).cell k = s.cell k := rfl
@[simp] theorem fn_setGran (s : State) (g : Nat) (x : Granule) (k : Nat) : (s.setGran g x).fn k = s.fn k := rfl
@[simp] theorem die_setGran (s : State) (g : Nat) (x : Granule) (k : Nat) : (s.setGran g x).die k = s.die k := rfl
@[simp] theorem queue_setGran (s : State) (g : Nat) (x : Granule) (v : Fin 64) (u : BitVec 8) : (s.setGran g x).queue v u = s.queue v u := rfl
@[simp] theorem lls_setGran (s : State) (g : Nat) (x : Granule) (k : Nat) : (s.setGran g x).lls k = s.lls k := rfl
@[simp] theorem req_setGran (s : State) (g : Nat) (x : Granule) (k : Nat) : (s.setGran g x).req k = s.req k := rfl
@[simp] theorem phaser_setGran (s : State) (g : Nat) (x : Granule) (k : Nat) : (s.setGran g x).phaser k = s.phaser k := rfl
@[simp] theorem port_setGran (s : State) (g : Nat) (x : Granule) (k : Fin 32) : (s.setGran g x).port k = s.port k := rfl
@[simp] theorem now_setGran (s : State) (g : Nat) (x : Granule) : (s.setGran g x).now = s.now := rfl
@[simp] theorem lineVal_setGran (s : State) (g : Nat) (x : Granule) (k : Nat) : (s.setGran g x).lineVal k = s.lineVal k := rfl
@[simp] theorem dpaWord_setGran (s : State) (g : Nat) (x : Granule) (k : Nat) : (s.setGran g x).dpaWord k = s.dpaWord k := rfl
@[simp] theorem nbFind_setGran (s : State) (g : Nat) (x : Granule) (k : Nat) : (s.setGran g x).nbFind k = s.nbFind k := rfl
@[simp] theorem isAborted_setGran (s : State) (g : Nat) (x : Granule) (k : BitVec 16) (u : BitVec 32) : (s.setGran g x).isAborted k u = s.isAborted k u := rfl

/-! ### State.setLls -/

@[simp] theorem setLls_cells (s : State) (n : Nat) (x : LlsLine) : (s.setLls n x).cells = s.cells := rfl
@[simp] theorem setLls_mem_dram (s : State) (n : Nat) (x : LlsLine) : (s.setLls n x).mem.dram = s.mem.dram := rfl
@[simp] theorem setLls_mem_host (s : State) (n : Nat) (x : LlsLine) : (s.setLls n x).mem.host = s.mem.host := rfl
@[simp] theorem setLls_mem_hostBad (s : State) (n : Nat) (x : LlsLine) : (s.setLls n x).mem.hostBad = s.mem.hostBad := rfl
@[simp] theorem setLls_mem_gran (s : State) (n : Nat) (x : LlsLine) : (s.setLls n x).mem.gran = s.mem.gran := rfl
@[simp] theorem setLls_mem_lls (s : State) (n : Nat) (x : LlsLine) : (s.setLls n x).mem.lls = tset s.mem.lls n x := rfl
@[simp] theorem setLls_mem_dir (s : State) (n : Nat) (x : LlsLine) : (s.setLls n x).mem.dir = s.mem.dir := rfl
@[simp] theorem setLls_mem_recalls (s : State) (n : Nat) (x : LlsLine) : (s.setLls n x).mem.recalls = s.mem.recalls := rfl
@[simp] theorem setLls_mem_timedOut (s : State) (n : Nat) (x : LlsLine) : (s.setLls n x).mem.timedOut = s.mem.timedOut := rfl
@[simp] theorem setLls_mem_hostResp (s : State) (n : Nat) (x : LlsLine) : (s.setLls n x).mem.hostResp = s.mem.hostResp := rfl
@[simp] theorem setLls_mem_reqs (s : State) (n : Nat) (x : LlsLine) : (s.setLls n x).mem.reqs = s.mem.reqs := rfl
@[simp] theorem setLls_mem_nextReq (s : State) (n : Nat) (x : LlsLine) : (s.setLls n x).mem.nextReq = s.mem.nextReq := rfl
@[simp] theorem setLls_mem_tlb (s : State) (n : Nat) (x : LlsLine) : (s.setLls n x).mem.tlb = s.mem.tlb := rfl
@[simp] theorem setLls_mem_walks (s : State) (n : Nat) (x : LlsLine) : (s.setLls n x).mem.walks = s.mem.walks := rfl
@[simp] theorem setLls_mem_walking (s : State) (n : Nat) (x : LlsLine) : (s.setLls n x).mem.walking = s.mem.walking := rfl
@[simp] theorem setLls_mem_asids (s : State) (n : Nat) (x : LlsLine) : (s.setLls n x).mem.asids = s.mem.asids := rfl
@[simp] theorem setLls_mem_shoots (s : State) (n : Nat) (x : LlsLine) : (s.setLls n x).mem.shoots = s.mem.shoots := rfl
@[simp] theorem setLls_mem_nextShoot (s : State) (n : Nat) (x : LlsLine) : (s.setLls n x).mem.nextShoot = s.mem.nextShoot := rfl
@[simp] theorem setLls_mem_mig (s : State) (n : Nat) (x : LlsLine) : (s.setLls n x).mem.mig = s.mem.mig := rfl
@[simp] theorem setLls_mem_nb (s : State) (n : Nat) (x : LlsLine) : (s.setLls n x).mem.nb = s.mem.nb := rfl
@[simp] theorem setLls_mem_bankQ (s : State) (n : Nat) (x : LlsLine) : (s.setLls n x).mem.bankQ = s.mem.bankQ := rfl
@[simp] theorem setLls_mem_nextNb (s : State) (n : Nat) (x : LlsLine) : (s.setLls n x).mem.nextNb = s.mem.nextNb := rfl
@[simp] theorem setLls_mem_signals (s : State) (n : Nat) (x : LlsLine) : (s.setLls n x).mem.signals = s.mem.signals := rfl
@[simp] theorem setLls_mem_skinkPos (s : State) (n : Nat) (x : LlsLine) : (s.setLls n x).mem.skinkPos = s.mem.skinkPos := rfl
@[simp] theorem setLls_mem_skinkPeriod (s : State) (n : Nat) (x : LlsLine) : (s.setLls n x).mem.skinkPeriod = s.mem.skinkPeriod := rfl
@[simp] theorem setLls_mem_ecLls (s : State) (n : Nat) (x : LlsLine) : (s.setLls n x).mem.ecLls = s.mem.ecLls := rfl
@[simp] theorem setLls_mem_ecHbm (s : State) (n : Nat) (x : LlsLine) : (s.setLls n x).mem.ecHbm = s.mem.ecHbm := rfl
@[simp] theorem setLls_fns (s : State) (n : Nat) (x : LlsLine) : (s.setLls n x).fns = s.fns := rfl
@[simp] theorem setLls_dies (s : State) (n : Nat) (x : LlsLine) : (s.setLls n x).dies = s.dies := rfl
@[simp] theorem setLls_disp (s : State) (n : Nat) (x : LlsLine) : (s.setLls n x).disp = s.disp := rfl
@[simp] theorem setLls_sys (s : State) (n : Nat) (x : LlsLine) : (s.setLls n x).sys = s.sys := rfl
@[simp] theorem setLls_sched (s : State) (n : Nat) (x : LlsLine) : (s.setLls n x).sched = s.sched := rfl
@[simp] theorem cell_setLls (s : State) (n : Nat) (x : LlsLine) (k : Nat) : (s.setLls n x).cell k = s.cell k := rfl
@[simp] theorem fn_setLls (s : State) (n : Nat) (x : LlsLine) (k : Nat) : (s.setLls n x).fn k = s.fn k := rfl
@[simp] theorem die_setLls (s : State) (n : Nat) (x : LlsLine) (k : Nat) : (s.setLls n x).die k = s.die k := rfl
@[simp] theorem queue_setLls (s : State) (n : Nat) (x : LlsLine) (v : Fin 64) (u : BitVec 8) : (s.setLls n x).queue v u = s.queue v u := rfl
@[simp] theorem gran_setLls (s : State) (n : Nat) (x : LlsLine) (k : Nat) : (s.setLls n x).gran k = s.gran k := rfl
@[simp] theorem req_setLls (s : State) (n : Nat) (x : LlsLine) (k : Nat) : (s.setLls n x).req k = s.req k := rfl
@[simp] theorem phaser_setLls (s : State) (n : Nat) (x : LlsLine) (k : Nat) : (s.setLls n x).phaser k = s.phaser k := rfl
@[simp] theorem port_setLls (s : State) (n : Nat) (x : LlsLine) (k : Fin 32) : (s.setLls n x).port k = s.port k := rfl
@[simp] theorem now_setLls (s : State) (n : Nat) (x : LlsLine) : (s.setLls n x).now = s.now := rfl
@[simp] theorem nbFind_setLls (s : State) (n : Nat) (x : LlsLine) (k : Nat) : (s.setLls n x).nbFind k = s.nbFind k := rfl
@[simp] theorem isAborted_setLls (s : State) (n : Nat) (x : LlsLine) (k : BitVec 16) (u : BitVec 32) : (s.setLls n x).isAborted k u = s.isAborted k u := rfl

/-! ### State.addReq -/

@[simp] theorem addReq_cells (s : State) (r : Req) : (s.addReq r).cells = s.cells := rfl
@[simp] theorem addReq_mem_dram (s : State) (r : Req) : (s.addReq r).mem.dram = s.mem.dram := rfl
@[simp] theorem addReq_mem_host (s : State) (r : Req) : (s.addReq r).mem.host = s.mem.host := rfl
@[simp] theorem addReq_mem_hostBad (s : State) (r : Req) : (s.addReq r).mem.hostBad = s.mem.hostBad := rfl
@[simp] theorem addReq_mem_gran (s : State) (r : Req) : (s.addReq r).mem.gran = s.mem.gran := rfl
@[simp] theorem addReq_mem_lls (s : State) (r : Req) : (s.addReq r).mem.lls = s.mem.lls := rfl
@[simp] theorem addReq_mem_dir (s : State) (r : Req) : (s.addReq r).mem.dir = s.mem.dir := rfl
@[simp] theorem addReq_mem_recalls (s : State) (r : Req) : (s.addReq r).mem.recalls = s.mem.recalls := rfl
@[simp] theorem addReq_mem_timedOut (s : State) (r : Req) : (s.addReq r).mem.timedOut = s.mem.timedOut := rfl
@[simp] theorem addReq_mem_hostResp (s : State) (r : Req) : (s.addReq r).mem.hostResp = s.mem.hostResp := rfl
@[simp] theorem addReq_mem_reqs (s : State) (r : Req) : (s.addReq r).mem.reqs = tset s.mem.reqs s.mem.nextReq r := rfl
@[simp] theorem addReq_mem_nextReq (s : State) (r : Req) : (s.addReq r).mem.nextReq = s.mem.nextReq + 1 := rfl
@[simp] theorem addReq_mem_tlb (s : State) (r : Req) : (s.addReq r).mem.tlb = s.mem.tlb := rfl
@[simp] theorem addReq_mem_walks (s : State) (r : Req) : (s.addReq r).mem.walks = s.mem.walks := rfl
@[simp] theorem addReq_mem_walking (s : State) (r : Req) : (s.addReq r).mem.walking = s.mem.walking := rfl
@[simp] theorem addReq_mem_asids (s : State) (r : Req) : (s.addReq r).mem.asids = s.mem.asids := rfl
@[simp] theorem addReq_mem_shoots (s : State) (r : Req) : (s.addReq r).mem.shoots = s.mem.shoots := rfl
@[simp] theorem addReq_mem_nextShoot (s : State) (r : Req) : (s.addReq r).mem.nextShoot = s.mem.nextShoot := rfl
@[simp] theorem addReq_mem_mig (s : State) (r : Req) : (s.addReq r).mem.mig = s.mem.mig := rfl
@[simp] theorem addReq_mem_nb (s : State) (r : Req) : (s.addReq r).mem.nb = s.mem.nb := rfl
@[simp] theorem addReq_mem_bankQ (s : State) (r : Req) : (s.addReq r).mem.bankQ = s.mem.bankQ := rfl
@[simp] theorem addReq_mem_nextNb (s : State) (r : Req) : (s.addReq r).mem.nextNb = s.mem.nextNb := rfl
@[simp] theorem addReq_mem_signals (s : State) (r : Req) : (s.addReq r).mem.signals = s.mem.signals := rfl
@[simp] theorem addReq_mem_skinkPos (s : State) (r : Req) : (s.addReq r).mem.skinkPos = s.mem.skinkPos := rfl
@[simp] theorem addReq_mem_skinkPeriod (s : State) (r : Req) : (s.addReq r).mem.skinkPeriod = s.mem.skinkPeriod := rfl
@[simp] theorem addReq_mem_ecLls (s : State) (r : Req) : (s.addReq r).mem.ecLls = s.mem.ecLls := rfl
@[simp] theorem addReq_mem_ecHbm (s : State) (r : Req) : (s.addReq r).mem.ecHbm = s.mem.ecHbm := rfl
@[simp] theorem addReq_fns (s : State) (r : Req) : (s.addReq r).fns = s.fns := rfl
@[simp] theorem addReq_dies (s : State) (r : Req) : (s.addReq r).dies = s.dies := rfl
@[simp] theorem addReq_disp (s : State) (r : Req) : (s.addReq r).disp = s.disp := rfl
@[simp] theorem addReq_sys (s : State) (r : Req) : (s.addReq r).sys = s.sys := rfl
@[simp] theorem addReq_sched (s : State) (r : Req) : (s.addReq r).sched = s.sched := rfl
@[simp] theorem cell_addReq (s : State) (r : Req) (k : Nat) : (s.addReq r).cell k = s.cell k := rfl
@[simp] theorem fn_addReq (s : State) (r : Req) (k : Nat) : (s.addReq r).fn k = s.fn k := rfl
@[simp] theorem die_addReq (s : State) (r : Req) (k : Nat) : (s.addReq r).die k = s.die k := rfl
@[simp] theorem queue_addReq (s : State) (r : Req) (v : Fin 64) (u : BitVec 8) : (s.addReq r).queue v u = s.queue v u := rfl
@[simp] theorem lls_addReq (s : State) (r : Req) (k : Nat) : (s.addReq r).lls k = s.lls k := rfl
@[simp] theorem gran_addReq (s : State) (r : Req) (k : Nat) : (s.addReq r).gran k = s.gran k := rfl
@[simp] theorem phaser_addReq (s : State) (r : Req) (k : Nat) : (s.addReq r).phaser k = s.phaser k := rfl
@[simp] theorem port_addReq (s : State) (r : Req) (k : Fin 32) : (s.addReq r).port k = s.port k := rfl
@[simp] theorem now_addReq (s : State) (r : Req) : (s.addReq r).now = s.now := rfl
@[simp] theorem lineVal_addReq (s : State) (r : Req) (k : Nat) : (s.addReq r).lineVal k = s.lineVal k := rfl
@[simp] theorem linePoison_addReq (s : State) (r : Req) (k : Nat) : (s.addReq r).linePoison k = s.linePoison k := rfl
@[simp] theorem dpaWord_addReq (s : State) (r : Req) (k : Nat) : (s.addReq r).dpaWord k = s.dpaWord k := rfl
@[simp] theorem nbFind_addReq (s : State) (r : Req) (k : Nat) : (s.addReq r).nbFind k = s.nbFind k := rfl
@[simp] theorem isAborted_addReq (s : State) (r : Req) (k : BitVec 16) (u : BitVec 32) : (s.addReq r).isAborted k u = s.isAborted k u := rfl

/-! ### State.setReq -/

@[simp] theorem setReq_cells (s : State) (id : Nat) (r : Req) : (s.setReq id r).cells = s.cells := rfl
@[simp] theorem setReq_mem_dram (s : State) (id : Nat) (r : Req) : (s.setReq id r).mem.dram = s.mem.dram := rfl
@[simp] theorem setReq_mem_host (s : State) (id : Nat) (r : Req) : (s.setReq id r).mem.host = s.mem.host := rfl
@[simp] theorem setReq_mem_hostBad (s : State) (id : Nat) (r : Req) : (s.setReq id r).mem.hostBad = s.mem.hostBad := rfl
@[simp] theorem setReq_mem_gran (s : State) (id : Nat) (r : Req) : (s.setReq id r).mem.gran = s.mem.gran := rfl
@[simp] theorem setReq_mem_lls (s : State) (id : Nat) (r : Req) : (s.setReq id r).mem.lls = s.mem.lls := rfl
@[simp] theorem setReq_mem_dir (s : State) (id : Nat) (r : Req) : (s.setReq id r).mem.dir = s.mem.dir := rfl
@[simp] theorem setReq_mem_recalls (s : State) (id : Nat) (r : Req) : (s.setReq id r).mem.recalls = s.mem.recalls := rfl
@[simp] theorem setReq_mem_timedOut (s : State) (id : Nat) (r : Req) : (s.setReq id r).mem.timedOut = s.mem.timedOut := rfl
@[simp] theorem setReq_mem_hostResp (s : State) (id : Nat) (r : Req) : (s.setReq id r).mem.hostResp = s.mem.hostResp := rfl
@[simp] theorem setReq_mem_reqs (s : State) (id : Nat) (r : Req) : (s.setReq id r).mem.reqs = tset s.mem.reqs id r := rfl
@[simp] theorem setReq_mem_nextReq (s : State) (id : Nat) (r : Req) : (s.setReq id r).mem.nextReq = s.mem.nextReq := rfl
@[simp] theorem setReq_mem_tlb (s : State) (id : Nat) (r : Req) : (s.setReq id r).mem.tlb = s.mem.tlb := rfl
@[simp] theorem setReq_mem_walks (s : State) (id : Nat) (r : Req) : (s.setReq id r).mem.walks = s.mem.walks := rfl
@[simp] theorem setReq_mem_walking (s : State) (id : Nat) (r : Req) : (s.setReq id r).mem.walking = s.mem.walking := rfl
@[simp] theorem setReq_mem_asids (s : State) (id : Nat) (r : Req) : (s.setReq id r).mem.asids = s.mem.asids := rfl
@[simp] theorem setReq_mem_shoots (s : State) (id : Nat) (r : Req) : (s.setReq id r).mem.shoots = s.mem.shoots := rfl
@[simp] theorem setReq_mem_nextShoot (s : State) (id : Nat) (r : Req) : (s.setReq id r).mem.nextShoot = s.mem.nextShoot := rfl
@[simp] theorem setReq_mem_mig (s : State) (id : Nat) (r : Req) : (s.setReq id r).mem.mig = s.mem.mig := rfl
@[simp] theorem setReq_mem_nb (s : State) (id : Nat) (r : Req) : (s.setReq id r).mem.nb = s.mem.nb := rfl
@[simp] theorem setReq_mem_bankQ (s : State) (id : Nat) (r : Req) : (s.setReq id r).mem.bankQ = s.mem.bankQ := rfl
@[simp] theorem setReq_mem_nextNb (s : State) (id : Nat) (r : Req) : (s.setReq id r).mem.nextNb = s.mem.nextNb := rfl
@[simp] theorem setReq_mem_signals (s : State) (id : Nat) (r : Req) : (s.setReq id r).mem.signals = s.mem.signals := rfl
@[simp] theorem setReq_mem_skinkPos (s : State) (id : Nat) (r : Req) : (s.setReq id r).mem.skinkPos = s.mem.skinkPos := rfl
@[simp] theorem setReq_mem_skinkPeriod (s : State) (id : Nat) (r : Req) : (s.setReq id r).mem.skinkPeriod = s.mem.skinkPeriod := rfl
@[simp] theorem setReq_mem_ecLls (s : State) (id : Nat) (r : Req) : (s.setReq id r).mem.ecLls = s.mem.ecLls := rfl
@[simp] theorem setReq_mem_ecHbm (s : State) (id : Nat) (r : Req) : (s.setReq id r).mem.ecHbm = s.mem.ecHbm := rfl
@[simp] theorem setReq_fns (s : State) (id : Nat) (r : Req) : (s.setReq id r).fns = s.fns := rfl
@[simp] theorem setReq_dies (s : State) (id : Nat) (r : Req) : (s.setReq id r).dies = s.dies := rfl
@[simp] theorem setReq_disp (s : State) (id : Nat) (r : Req) : (s.setReq id r).disp = s.disp := rfl
@[simp] theorem setReq_sys (s : State) (id : Nat) (r : Req) : (s.setReq id r).sys = s.sys := rfl
@[simp] theorem setReq_sched (s : State) (id : Nat) (r : Req) : (s.setReq id r).sched = s.sched := rfl
@[simp] theorem cell_setReq (s : State) (id : Nat) (r : Req) (k : Nat) : (s.setReq id r).cell k = s.cell k := rfl
@[simp] theorem fn_setReq (s : State) (id : Nat) (r : Req) (k : Nat) : (s.setReq id r).fn k = s.fn k := rfl
@[simp] theorem die_setReq (s : State) (id : Nat) (r : Req) (k : Nat) : (s.setReq id r).die k = s.die k := rfl
@[simp] theorem queue_setReq (s : State) (id : Nat) (r : Req) (v : Fin 64) (u : BitVec 8) : (s.setReq id r).queue v u = s.queue v u := rfl
@[simp] theorem lls_setReq (s : State) (id : Nat) (r : Req) (k : Nat) : (s.setReq id r).lls k = s.lls k := rfl
@[simp] theorem gran_setReq (s : State) (id : Nat) (r : Req) (k : Nat) : (s.setReq id r).gran k = s.gran k := rfl
@[simp] theorem phaser_setReq (s : State) (id : Nat) (r : Req) (k : Nat) : (s.setReq id r).phaser k = s.phaser k := rfl
@[simp] theorem port_setReq (s : State) (id : Nat) (r : Req) (k : Fin 32) : (s.setReq id r).port k = s.port k := rfl
@[simp] theorem now_setReq (s : State) (id : Nat) (r : Req) : (s.setReq id r).now = s.now := rfl
@[simp] theorem lineVal_setReq (s : State) (id : Nat) (r : Req) (k : Nat) : (s.setReq id r).lineVal k = s.lineVal k := rfl
@[simp] theorem linePoison_setReq (s : State) (id : Nat) (r : Req) (k : Nat) : (s.setReq id r).linePoison k = s.linePoison k := rfl
@[simp] theorem dpaWord_setReq (s : State) (id : Nat) (r : Req) (k : Nat) : (s.setReq id r).dpaWord k = s.dpaWord k := rfl
@[simp] theorem nbFind_setReq (s : State) (id : Nat) (r : Req) (k : Nat) : (s.setReq id r).nbFind k = s.nbFind k := rfl
@[simp] theorem isAborted_setReq (s : State) (id : Nat) (r : Req) (k : BitVec 16) (u : BitVec 32) : (s.setReq id r).isAborted k u = s.isAborted k u := rfl

/-! ### State.dropReq -/

@[simp] theorem dropReq_cells (s : State) (id : Nat) : (s.dropReq id).cells = s.cells := rfl
@[simp] theorem dropReq_mem_dram (s : State) (id : Nat) : (s.dropReq id).mem.dram = s.mem.dram := rfl
@[simp] theorem dropReq_mem_host (s : State) (id : Nat) : (s.dropReq id).mem.host = s.mem.host := rfl
@[simp] theorem dropReq_mem_hostBad (s : State) (id : Nat) : (s.dropReq id).mem.hostBad = s.mem.hostBad := rfl
@[simp] theorem dropReq_mem_gran (s : State) (id : Nat) : (s.dropReq id).mem.gran = s.mem.gran := rfl
@[simp] theorem dropReq_mem_lls (s : State) (id : Nat) : (s.dropReq id).mem.lls = s.mem.lls := rfl
@[simp] theorem dropReq_mem_dir (s : State) (id : Nat) : (s.dropReq id).mem.dir = s.mem.dir := rfl
@[simp] theorem dropReq_mem_recalls (s : State) (id : Nat) : (s.dropReq id).mem.recalls = s.mem.recalls := rfl
@[simp] theorem dropReq_mem_timedOut (s : State) (id : Nat) : (s.dropReq id).mem.timedOut = s.mem.timedOut := rfl
@[simp] theorem dropReq_mem_hostResp (s : State) (id : Nat) : (s.dropReq id).mem.hostResp = s.mem.hostResp := rfl
@[simp] theorem dropReq_mem_reqs (s : State) (id : Nat) : (s.dropReq id).mem.reqs = terase s.mem.reqs id := rfl
@[simp] theorem dropReq_mem_nextReq (s : State) (id : Nat) : (s.dropReq id).mem.nextReq = s.mem.nextReq := rfl
@[simp] theorem dropReq_mem_tlb (s : State) (id : Nat) : (s.dropReq id).mem.tlb = s.mem.tlb := rfl
@[simp] theorem dropReq_mem_walks (s : State) (id : Nat) : (s.dropReq id).mem.walks = s.mem.walks := rfl
@[simp] theorem dropReq_mem_walking (s : State) (id : Nat) : (s.dropReq id).mem.walking = s.mem.walking := rfl
@[simp] theorem dropReq_mem_asids (s : State) (id : Nat) : (s.dropReq id).mem.asids = s.mem.asids := rfl
@[simp] theorem dropReq_mem_shoots (s : State) (id : Nat) : (s.dropReq id).mem.shoots = s.mem.shoots := rfl
@[simp] theorem dropReq_mem_nextShoot (s : State) (id : Nat) : (s.dropReq id).mem.nextShoot = s.mem.nextShoot := rfl
@[simp] theorem dropReq_mem_mig (s : State) (id : Nat) : (s.dropReq id).mem.mig = s.mem.mig := rfl
@[simp] theorem dropReq_mem_nb (s : State) (id : Nat) : (s.dropReq id).mem.nb = s.mem.nb := rfl
@[simp] theorem dropReq_mem_bankQ (s : State) (id : Nat) : (s.dropReq id).mem.bankQ = s.mem.bankQ := rfl
@[simp] theorem dropReq_mem_nextNb (s : State) (id : Nat) : (s.dropReq id).mem.nextNb = s.mem.nextNb := rfl
@[simp] theorem dropReq_mem_signals (s : State) (id : Nat) : (s.dropReq id).mem.signals = s.mem.signals := rfl
@[simp] theorem dropReq_mem_skinkPos (s : State) (id : Nat) : (s.dropReq id).mem.skinkPos = s.mem.skinkPos := rfl
@[simp] theorem dropReq_mem_skinkPeriod (s : State) (id : Nat) : (s.dropReq id).mem.skinkPeriod = s.mem.skinkPeriod := rfl
@[simp] theorem dropReq_mem_ecLls (s : State) (id : Nat) : (s.dropReq id).mem.ecLls = s.mem.ecLls := rfl
@[simp] theorem dropReq_mem_ecHbm (s : State) (id : Nat) : (s.dropReq id).mem.ecHbm = s.mem.ecHbm := rfl
@[simp] theorem dropReq_fns (s : State) (id : Nat) : (s.dropReq id).fns = s.fns := rfl
@[simp] theorem dropReq_dies (s : State) (id : Nat) : (s.dropReq id).dies = s.dies := rfl
@[simp] theorem dropReq_disp (s : State) (id : Nat) : (s.dropReq id).disp = s.disp := rfl
@[simp] theorem dropReq_sys (s : State) (id : Nat) : (s.dropReq id).sys = s.sys := rfl
@[simp] theorem dropReq_sched (s : State) (id : Nat) : (s.dropReq id).sched = s.sched := rfl
@[simp] theorem cell_dropReq (s : State) (id : Nat) (k : Nat) : (s.dropReq id).cell k = s.cell k := rfl
@[simp] theorem fn_dropReq (s : State) (id : Nat) (k : Nat) : (s.dropReq id).fn k = s.fn k := rfl
@[simp] theorem die_dropReq (s : State) (id : Nat) (k : Nat) : (s.dropReq id).die k = s.die k := rfl
@[simp] theorem queue_dropReq (s : State) (id : Nat) (v : Fin 64) (u : BitVec 8) : (s.dropReq id).queue v u = s.queue v u := rfl
@[simp] theorem lls_dropReq (s : State) (id : Nat) (k : Nat) : (s.dropReq id).lls k = s.lls k := rfl
@[simp] theorem gran_dropReq (s : State) (id : Nat) (k : Nat) : (s.dropReq id).gran k = s.gran k := rfl
@[simp] theorem phaser_dropReq (s : State) (id : Nat) (k : Nat) : (s.dropReq id).phaser k = s.phaser k := rfl
@[simp] theorem port_dropReq (s : State) (id : Nat) (k : Fin 32) : (s.dropReq id).port k = s.port k := rfl
@[simp] theorem now_dropReq (s : State) (id : Nat) : (s.dropReq id).now = s.now := rfl
@[simp] theorem lineVal_dropReq (s : State) (id : Nat) (k : Nat) : (s.dropReq id).lineVal k = s.lineVal k := rfl
@[simp] theorem linePoison_dropReq (s : State) (id : Nat) (k : Nat) : (s.dropReq id).linePoison k = s.linePoison k := rfl
@[simp] theorem dpaWord_dropReq (s : State) (id : Nat) (k : Nat) : (s.dropReq id).dpaWord k = s.dpaWord k := rfl
@[simp] theorem nbFind_dropReq (s : State) (id : Nat) (k : Nat) : (s.dropReq id).nbFind k = s.nbFind k := rfl
@[simp] theorem isAborted_dropReq (s : State) (id : Nat) (k : BitVec 16) (u : BitVec 32) : (s.dropReq id).isAborted k u = s.isAborted k u := rfl

/-! ### State.addShoot -/

@[simp] theorem addShoot_cells (s : State) (h : Shoot) : (s.addShoot h).cells = s.cells := rfl
@[simp] theorem addShoot_mem_dram (s : State) (h : Shoot) : (s.addShoot h).mem.dram = s.mem.dram := rfl
@[simp] theorem addShoot_mem_host (s : State) (h : Shoot) : (s.addShoot h).mem.host = s.mem.host := rfl
@[simp] theorem addShoot_mem_hostBad (s : State) (h : Shoot) : (s.addShoot h).mem.hostBad = s.mem.hostBad := rfl
@[simp] theorem addShoot_mem_gran (s : State) (h : Shoot) : (s.addShoot h).mem.gran = s.mem.gran := rfl
@[simp] theorem addShoot_mem_lls (s : State) (h : Shoot) : (s.addShoot h).mem.lls = s.mem.lls := rfl
@[simp] theorem addShoot_mem_dir (s : State) (h : Shoot) : (s.addShoot h).mem.dir = s.mem.dir := rfl
@[simp] theorem addShoot_mem_recalls (s : State) (h : Shoot) : (s.addShoot h).mem.recalls = s.mem.recalls := rfl
@[simp] theorem addShoot_mem_timedOut (s : State) (h : Shoot) : (s.addShoot h).mem.timedOut = s.mem.timedOut := rfl
@[simp] theorem addShoot_mem_hostResp (s : State) (h : Shoot) : (s.addShoot h).mem.hostResp = s.mem.hostResp := rfl
@[simp] theorem addShoot_mem_reqs (s : State) (h : Shoot) : (s.addShoot h).mem.reqs = s.mem.reqs := rfl
@[simp] theorem addShoot_mem_nextReq (s : State) (h : Shoot) : (s.addShoot h).mem.nextReq = s.mem.nextReq := rfl
@[simp] theorem addShoot_mem_tlb (s : State) (h : Shoot) : (s.addShoot h).mem.tlb = s.mem.tlb := rfl
@[simp] theorem addShoot_mem_walks (s : State) (h : Shoot) : (s.addShoot h).mem.walks = s.mem.walks := rfl
@[simp] theorem addShoot_mem_walking (s : State) (h : Shoot) : (s.addShoot h).mem.walking = s.mem.walking := rfl
@[simp] theorem addShoot_mem_asids (s : State) (h : Shoot) : (s.addShoot h).mem.asids = s.mem.asids := rfl
@[simp] theorem addShoot_mem_shoots (s : State) (h : Shoot) : (s.addShoot h).mem.shoots = tset s.mem.shoots s.mem.nextShoot h := rfl
@[simp] theorem addShoot_mem_nextShoot (s : State) (h : Shoot) : (s.addShoot h).mem.nextShoot = s.mem.nextShoot + 1 := rfl
@[simp] theorem addShoot_mem_mig (s : State) (h : Shoot) : (s.addShoot h).mem.mig = s.mem.mig := rfl
@[simp] theorem addShoot_mem_nb (s : State) (h : Shoot) : (s.addShoot h).mem.nb = s.mem.nb := rfl
@[simp] theorem addShoot_mem_bankQ (s : State) (h : Shoot) : (s.addShoot h).mem.bankQ = s.mem.bankQ := rfl
@[simp] theorem addShoot_mem_nextNb (s : State) (h : Shoot) : (s.addShoot h).mem.nextNb = s.mem.nextNb := rfl
@[simp] theorem addShoot_mem_signals (s : State) (h : Shoot) : (s.addShoot h).mem.signals = s.mem.signals := rfl
@[simp] theorem addShoot_mem_skinkPos (s : State) (h : Shoot) : (s.addShoot h).mem.skinkPos = s.mem.skinkPos := rfl
@[simp] theorem addShoot_mem_skinkPeriod (s : State) (h : Shoot) : (s.addShoot h).mem.skinkPeriod = s.mem.skinkPeriod := rfl
@[simp] theorem addShoot_mem_ecLls (s : State) (h : Shoot) : (s.addShoot h).mem.ecLls = s.mem.ecLls := rfl
@[simp] theorem addShoot_mem_ecHbm (s : State) (h : Shoot) : (s.addShoot h).mem.ecHbm = s.mem.ecHbm := rfl
@[simp] theorem addShoot_fns (s : State) (h : Shoot) : (s.addShoot h).fns = s.fns := rfl
@[simp] theorem addShoot_dies (s : State) (h : Shoot) : (s.addShoot h).dies = s.dies := rfl
@[simp] theorem addShoot_disp (s : State) (h : Shoot) : (s.addShoot h).disp = s.disp := rfl
@[simp] theorem addShoot_sys (s : State) (h : Shoot) : (s.addShoot h).sys = s.sys := rfl
@[simp] theorem addShoot_sched (s : State) (h : Shoot) : (s.addShoot h).sched = s.sched := rfl
@[simp] theorem cell_addShoot (s : State) (h : Shoot) (k : Nat) : (s.addShoot h).cell k = s.cell k := rfl
@[simp] theorem fn_addShoot (s : State) (h : Shoot) (k : Nat) : (s.addShoot h).fn k = s.fn k := rfl
@[simp] theorem die_addShoot (s : State) (h : Shoot) (k : Nat) : (s.addShoot h).die k = s.die k := rfl
@[simp] theorem queue_addShoot (s : State) (h : Shoot) (v : Fin 64) (u : BitVec 8) : (s.addShoot h).queue v u = s.queue v u := rfl
@[simp] theorem lls_addShoot (s : State) (h : Shoot) (k : Nat) : (s.addShoot h).lls k = s.lls k := rfl
@[simp] theorem gran_addShoot (s : State) (h : Shoot) (k : Nat) : (s.addShoot h).gran k = s.gran k := rfl
@[simp] theorem req_addShoot (s : State) (h : Shoot) (k : Nat) : (s.addShoot h).req k = s.req k := rfl
@[simp] theorem phaser_addShoot (s : State) (h : Shoot) (k : Nat) : (s.addShoot h).phaser k = s.phaser k := rfl
@[simp] theorem port_addShoot (s : State) (h : Shoot) (k : Fin 32) : (s.addShoot h).port k = s.port k := rfl
@[simp] theorem now_addShoot (s : State) (h : Shoot) : (s.addShoot h).now = s.now := rfl
@[simp] theorem lineVal_addShoot (s : State) (h : Shoot) (k : Nat) : (s.addShoot h).lineVal k = s.lineVal k := rfl
@[simp] theorem linePoison_addShoot (s : State) (h : Shoot) (k : Nat) : (s.addShoot h).linePoison k = s.linePoison k := rfl
@[simp] theorem dpaWord_addShoot (s : State) (h : Shoot) (k : Nat) : (s.addShoot h).dpaWord k = s.dpaWord k := rfl
@[simp] theorem nbFind_addShoot (s : State) (h : Shoot) (k : Nat) : (s.addShoot h).nbFind k = s.nbFind k := rfl
@[simp] theorem isAborted_addShoot (s : State) (h : Shoot) (k : BitVec 16) (u : BitVec 32) : (s.addShoot h).isAborted k u = s.isAborted k u := rfl

/-! ### State.setNb -/

@[simp] theorem setNb_cells (s : State) (x : NbCmd) : (s.setNb x).cells = s.cells := rfl
@[simp] theorem setNb_mem_dram (s : State) (x : NbCmd) : (s.setNb x).mem.dram = s.mem.dram := rfl
@[simp] theorem setNb_mem_host (s : State) (x : NbCmd) : (s.setNb x).mem.host = s.mem.host := rfl
@[simp] theorem setNb_mem_hostBad (s : State) (x : NbCmd) : (s.setNb x).mem.hostBad = s.mem.hostBad := rfl
@[simp] theorem setNb_mem_gran (s : State) (x : NbCmd) : (s.setNb x).mem.gran = s.mem.gran := rfl
@[simp] theorem setNb_mem_lls (s : State) (x : NbCmd) : (s.setNb x).mem.lls = s.mem.lls := rfl
@[simp] theorem setNb_mem_dir (s : State) (x : NbCmd) : (s.setNb x).mem.dir = s.mem.dir := rfl
@[simp] theorem setNb_mem_recalls (s : State) (x : NbCmd) : (s.setNb x).mem.recalls = s.mem.recalls := rfl
@[simp] theorem setNb_mem_timedOut (s : State) (x : NbCmd) : (s.setNb x).mem.timedOut = s.mem.timedOut := rfl
@[simp] theorem setNb_mem_hostResp (s : State) (x : NbCmd) : (s.setNb x).mem.hostResp = s.mem.hostResp := rfl
@[simp] theorem setNb_mem_reqs (s : State) (x : NbCmd) : (s.setNb x).mem.reqs = s.mem.reqs := rfl
@[simp] theorem setNb_mem_nextReq (s : State) (x : NbCmd) : (s.setNb x).mem.nextReq = s.mem.nextReq := rfl
@[simp] theorem setNb_mem_tlb (s : State) (x : NbCmd) : (s.setNb x).mem.tlb = s.mem.tlb := rfl
@[simp] theorem setNb_mem_walks (s : State) (x : NbCmd) : (s.setNb x).mem.walks = s.mem.walks := rfl
@[simp] theorem setNb_mem_walking (s : State) (x : NbCmd) : (s.setNb x).mem.walking = s.mem.walking := rfl
@[simp] theorem setNb_mem_asids (s : State) (x : NbCmd) : (s.setNb x).mem.asids = s.mem.asids := rfl
@[simp] theorem setNb_mem_shoots (s : State) (x : NbCmd) : (s.setNb x).mem.shoots = s.mem.shoots := rfl
@[simp] theorem setNb_mem_nextShoot (s : State) (x : NbCmd) : (s.setNb x).mem.nextShoot = s.mem.nextShoot := rfl
@[simp] theorem setNb_mem_mig (s : State) (x : NbCmd) : (s.setNb x).mem.mig = s.mem.mig := rfl
@[simp] theorem setNb_mem_nb (s : State) (x : NbCmd) : (s.setNb x).mem.nb = s.mem.nb.map fun j => if j.id = x.id then x else j := rfl
@[simp] theorem setNb_mem_bankQ (s : State) (x : NbCmd) : (s.setNb x).mem.bankQ = s.mem.bankQ := rfl
@[simp] theorem setNb_mem_nextNb (s : State) (x : NbCmd) : (s.setNb x).mem.nextNb = s.mem.nextNb := rfl
@[simp] theorem setNb_mem_signals (s : State) (x : NbCmd) : (s.setNb x).mem.signals = s.mem.signals := rfl
@[simp] theorem setNb_mem_skinkPos (s : State) (x : NbCmd) : (s.setNb x).mem.skinkPos = s.mem.skinkPos := rfl
@[simp] theorem setNb_mem_skinkPeriod (s : State) (x : NbCmd) : (s.setNb x).mem.skinkPeriod = s.mem.skinkPeriod := rfl
@[simp] theorem setNb_mem_ecLls (s : State) (x : NbCmd) : (s.setNb x).mem.ecLls = s.mem.ecLls := rfl
@[simp] theorem setNb_mem_ecHbm (s : State) (x : NbCmd) : (s.setNb x).mem.ecHbm = s.mem.ecHbm := rfl
@[simp] theorem setNb_fns (s : State) (x : NbCmd) : (s.setNb x).fns = s.fns := rfl
@[simp] theorem setNb_dies (s : State) (x : NbCmd) : (s.setNb x).dies = s.dies := rfl
@[simp] theorem setNb_disp (s : State) (x : NbCmd) : (s.setNb x).disp = s.disp := rfl
@[simp] theorem setNb_sys (s : State) (x : NbCmd) : (s.setNb x).sys = s.sys := rfl
@[simp] theorem setNb_sched (s : State) (x : NbCmd) : (s.setNb x).sched = s.sched := rfl
@[simp] theorem cell_setNb (s : State) (x : NbCmd) (k : Nat) : (s.setNb x).cell k = s.cell k := rfl
@[simp] theorem fn_setNb (s : State) (x : NbCmd) (k : Nat) : (s.setNb x).fn k = s.fn k := rfl
@[simp] theorem die_setNb (s : State) (x : NbCmd) (k : Nat) : (s.setNb x).die k = s.die k := rfl
@[simp] theorem queue_setNb (s : State) (x : NbCmd) (v : Fin 64) (u : BitVec 8) : (s.setNb x).queue v u = s.queue v u := rfl
@[simp] theorem lls_setNb (s : State) (x : NbCmd) (k : Nat) : (s.setNb x).lls k = s.lls k := rfl
@[simp] theorem gran_setNb (s : State) (x : NbCmd) (k : Nat) : (s.setNb x).gran k = s.gran k := rfl
@[simp] theorem req_setNb (s : State) (x : NbCmd) (k : Nat) : (s.setNb x).req k = s.req k := rfl
@[simp] theorem phaser_setNb (s : State) (x : NbCmd) (k : Nat) : (s.setNb x).phaser k = s.phaser k := rfl
@[simp] theorem port_setNb (s : State) (x : NbCmd) (k : Fin 32) : (s.setNb x).port k = s.port k := rfl
@[simp] theorem now_setNb (s : State) (x : NbCmd) : (s.setNb x).now = s.now := rfl
@[simp] theorem lineVal_setNb (s : State) (x : NbCmd) (k : Nat) : (s.setNb x).lineVal k = s.lineVal k := rfl
@[simp] theorem linePoison_setNb (s : State) (x : NbCmd) (k : Nat) : (s.setNb x).linePoison k = s.linePoison k := rfl
@[simp] theorem dpaWord_setNb (s : State) (x : NbCmd) (k : Nat) : (s.setNb x).dpaWord k = s.dpaWord k := rfl
@[simp] theorem isAborted_setNb (s : State) (x : NbCmd) (k : BitVec 16) (u : BitVec 32) : (s.setNb x).isAborted k u = s.isAborted k u := rfl

/-! ### State.forget -/

@[simp] theorem forget_cells (s : State) (n : Nat) : (s.forget n).cells = s.cells := rfl
@[simp] theorem forget_mem_dram (s : State) (n : Nat) : (s.forget n).mem.dram = s.mem.dram := rfl
@[simp] theorem forget_mem_host (s : State) (n : Nat) : (s.forget n).mem.host = s.mem.host := rfl
@[simp] theorem forget_mem_hostBad (s : State) (n : Nat) : (s.forget n).mem.hostBad = s.mem.hostBad := rfl
@[simp] theorem forget_mem_gran (s : State) (n : Nat) : (s.forget n).mem.gran = s.mem.gran := rfl
@[simp] theorem forget_mem_lls (s : State) (n : Nat) : (s.forget n).mem.lls = s.mem.lls := rfl
@[simp] theorem forget_mem_dir (s : State) (n : Nat) : (s.forget n).mem.dir = s.mem.dir.filter (·.line ≠ n) := rfl
@[simp] theorem forget_mem_recalls (s : State) (n : Nat) : (s.forget n).mem.recalls = s.mem.recalls.filter (·.line ≠ n) := rfl
@[simp] theorem forget_mem_timedOut (s : State) (n : Nat) : (s.forget n).mem.timedOut = s.mem.timedOut := rfl
@[simp] theorem forget_mem_hostResp (s : State) (n : Nat) : (s.forget n).mem.hostResp = s.mem.hostResp := rfl
@[simp] theorem forget_mem_reqs (s : State) (n : Nat) : (s.forget n).mem.reqs = s.mem.reqs := rfl
@[simp] theorem forget_mem_nextReq (s : State) (n : Nat) : (s.forget n).mem.nextReq = s.mem.nextReq := rfl
@[simp] theorem forget_mem_tlb (s : State) (n : Nat) : (s.forget n).mem.tlb = s.mem.tlb := rfl
@[simp] theorem forget_mem_walks (s : State) (n : Nat) : (s.forget n).mem.walks = s.mem.walks := rfl
@[simp] theorem forget_mem_walking (s : State) (n : Nat) : (s.forget n).mem.walking = s.mem.walking := rfl
@[simp] theorem forget_mem_asids (s : State) (n : Nat) : (s.forget n).mem.asids = s.mem.asids := rfl
@[simp] theorem forget_mem_shoots (s : State) (n : Nat) : (s.forget n).mem.shoots = s.mem.shoots := rfl
@[simp] theorem forget_mem_nextShoot (s : State) (n : Nat) : (s.forget n).mem.nextShoot = s.mem.nextShoot := rfl
@[simp] theorem forget_mem_mig (s : State) (n : Nat) : (s.forget n).mem.mig = s.mem.mig := rfl
@[simp] theorem forget_mem_nb (s : State) (n : Nat) : (s.forget n).mem.nb = s.mem.nb := rfl
@[simp] theorem forget_mem_bankQ (s : State) (n : Nat) : (s.forget n).mem.bankQ = s.mem.bankQ := rfl
@[simp] theorem forget_mem_nextNb (s : State) (n : Nat) : (s.forget n).mem.nextNb = s.mem.nextNb := rfl
@[simp] theorem forget_mem_signals (s : State) (n : Nat) : (s.forget n).mem.signals = s.mem.signals := rfl
@[simp] theorem forget_mem_skinkPos (s : State) (n : Nat) : (s.forget n).mem.skinkPos = s.mem.skinkPos := rfl
@[simp] theorem forget_mem_skinkPeriod (s : State) (n : Nat) : (s.forget n).mem.skinkPeriod = s.mem.skinkPeriod := rfl
@[simp] theorem forget_mem_ecLls (s : State) (n : Nat) : (s.forget n).mem.ecLls = s.mem.ecLls := rfl
@[simp] theorem forget_mem_ecHbm (s : State) (n : Nat) : (s.forget n).mem.ecHbm = s.mem.ecHbm := rfl
@[simp] theorem forget_fns (s : State) (n : Nat) : (s.forget n).fns = s.fns := rfl
@[simp] theorem forget_dies (s : State) (n : Nat) : (s.forget n).dies = s.dies := rfl
@[simp] theorem forget_disp (s : State) (n : Nat) : (s.forget n).disp = s.disp := rfl
@[simp] theorem forget_sys (s : State) (n : Nat) : (s.forget n).sys = s.sys := rfl
@[simp] theorem forget_sched (s : State) (n : Nat) : (s.forget n).sched = s.sched := rfl
@[simp] theorem cell_forget (s : State) (n : Nat) (k : Nat) : (s.forget n).cell k = s.cell k := rfl
@[simp] theorem fn_forget (s : State) (n : Nat) (k : Nat) : (s.forget n).fn k = s.fn k := rfl
@[simp] theorem die_forget (s : State) (n : Nat) (k : Nat) : (s.forget n).die k = s.die k := rfl
@[simp] theorem queue_forget (s : State) (n : Nat) (v : Fin 64) (u : BitVec 8) : (s.forget n).queue v u = s.queue v u := rfl
@[simp] theorem lls_forget (s : State) (n : Nat) (k : Nat) : (s.forget n).lls k = s.lls k := rfl
@[simp] theorem gran_forget (s : State) (n : Nat) (k : Nat) : (s.forget n).gran k = s.gran k := rfl
@[simp] theorem req_forget (s : State) (n : Nat) (k : Nat) : (s.forget n).req k = s.req k := rfl
@[simp] theorem phaser_forget (s : State) (n : Nat) (k : Nat) : (s.forget n).phaser k = s.phaser k := rfl
@[simp] theorem port_forget (s : State) (n : Nat) (k : Fin 32) : (s.forget n).port k = s.port k := rfl
@[simp] theorem now_forget (s : State) (n : Nat) : (s.forget n).now = s.now := rfl
@[simp] theorem lineVal_forget (s : State) (n : Nat) (k : Nat) : (s.forget n).lineVal k = s.lineVal k := rfl
@[simp] theorem linePoison_forget (s : State) (n : Nat) (k : Nat) : (s.forget n).linePoison k = s.linePoison k := rfl
@[simp] theorem dpaWord_forget (s : State) (n : Nat) (k : Nat) : (s.forget n).dpaWord k = s.dpaWord k := rfl
@[simp] theorem nbFind_forget (s : State) (n : Nat) (k : Nat) : (s.forget n).nbFind k = s.nbFind k := rfl
@[simp] theorem isAborted_forget (s : State) (n : Nat) (k : BitVec 16) (u : BitVec 32) : (s.forget n).isAborted k u = s.isAborted k u := rfl

/-! ### State.hold -/

@[simp] theorem hold_cells (s : State) (n : Nat) (o : Bool) : (s.hold n o).cells = s.cells := rfl
@[simp] theorem hold_mem_dram (s : State) (n : Nat) (o : Bool) : (s.hold n o).mem.dram = s.mem.dram := rfl
@[simp] theorem hold_mem_host (s : State) (n : Nat) (o : Bool) : (s.hold n o).mem.host = s.mem.host := rfl
@[simp] theorem hold_mem_hostBad (s : State) (n : Nat) (o : Bool) : (s.hold n o).mem.hostBad = s.mem.hostBad := rfl
@[simp] theorem hold_mem_gran (s : State) (n : Nat) (o : Bool) : (s.hold n o).mem.gran = s.mem.gran := rfl
@[simp] theorem hold_mem_lls (s : State) (n : Nat) (o : Bool) : (s.hold n o).mem.lls = s.mem.lls := rfl
@[simp] theorem hold_mem_dir (s : State) (n : Nat) (o : Bool) : (s.hold n o).mem.dir = s.mem.dir.filter (·.line ≠ n) ++ [⟨n, o⟩] := rfl
@[simp] theorem hold_mem_recalls (s : State) (n : Nat) (o : Bool) : (s.hold n o).mem.recalls = s.mem.recalls := rfl
@[simp] theorem hold_mem_timedOut (s : State) (n : Nat) (o : Bool) : (s.hold n o).mem.timedOut = s.mem.timedOut := rfl
@[simp] theorem hold_mem_hostResp (s : State) (n : Nat) (o : Bool) : (s.hold n o).mem.hostResp = s.mem.hostResp := rfl
@[simp] theorem hold_mem_reqs (s : State) (n : Nat) (o : Bool) : (s.hold n o).mem.reqs = s.mem.reqs := rfl
@[simp] theorem hold_mem_nextReq (s : State) (n : Nat) (o : Bool) : (s.hold n o).mem.nextReq = s.mem.nextReq := rfl
@[simp] theorem hold_mem_tlb (s : State) (n : Nat) (o : Bool) : (s.hold n o).mem.tlb = s.mem.tlb := rfl
@[simp] theorem hold_mem_walks (s : State) (n : Nat) (o : Bool) : (s.hold n o).mem.walks = s.mem.walks := rfl
@[simp] theorem hold_mem_walking (s : State) (n : Nat) (o : Bool) : (s.hold n o).mem.walking = s.mem.walking := rfl
@[simp] theorem hold_mem_asids (s : State) (n : Nat) (o : Bool) : (s.hold n o).mem.asids = s.mem.asids := rfl
@[simp] theorem hold_mem_shoots (s : State) (n : Nat) (o : Bool) : (s.hold n o).mem.shoots = s.mem.shoots := rfl
@[simp] theorem hold_mem_nextShoot (s : State) (n : Nat) (o : Bool) : (s.hold n o).mem.nextShoot = s.mem.nextShoot := rfl
@[simp] theorem hold_mem_mig (s : State) (n : Nat) (o : Bool) : (s.hold n o).mem.mig = s.mem.mig := rfl
@[simp] theorem hold_mem_nb (s : State) (n : Nat) (o : Bool) : (s.hold n o).mem.nb = s.mem.nb := rfl
@[simp] theorem hold_mem_bankQ (s : State) (n : Nat) (o : Bool) : (s.hold n o).mem.bankQ = s.mem.bankQ := rfl
@[simp] theorem hold_mem_nextNb (s : State) (n : Nat) (o : Bool) : (s.hold n o).mem.nextNb = s.mem.nextNb := rfl
@[simp] theorem hold_mem_signals (s : State) (n : Nat) (o : Bool) : (s.hold n o).mem.signals = s.mem.signals := rfl
@[simp] theorem hold_mem_skinkPos (s : State) (n : Nat) (o : Bool) : (s.hold n o).mem.skinkPos = s.mem.skinkPos := rfl
@[simp] theorem hold_mem_skinkPeriod (s : State) (n : Nat) (o : Bool) : (s.hold n o).mem.skinkPeriod = s.mem.skinkPeriod := rfl
@[simp] theorem hold_mem_ecLls (s : State) (n : Nat) (o : Bool) : (s.hold n o).mem.ecLls = s.mem.ecLls := rfl
@[simp] theorem hold_mem_ecHbm (s : State) (n : Nat) (o : Bool) : (s.hold n o).mem.ecHbm = s.mem.ecHbm := rfl
@[simp] theorem hold_fns (s : State) (n : Nat) (o : Bool) : (s.hold n o).fns = s.fns := rfl
@[simp] theorem hold_dies (s : State) (n : Nat) (o : Bool) : (s.hold n o).dies = s.dies := rfl
@[simp] theorem hold_disp (s : State) (n : Nat) (o : Bool) : (s.hold n o).disp = s.disp := rfl
@[simp] theorem hold_sys (s : State) (n : Nat) (o : Bool) : (s.hold n o).sys = s.sys := rfl
@[simp] theorem hold_sched (s : State) (n : Nat) (o : Bool) : (s.hold n o).sched = s.sched := rfl
@[simp] theorem cell_hold (s : State) (n : Nat) (o : Bool) (k : Nat) : (s.hold n o).cell k = s.cell k := rfl
@[simp] theorem fn_hold (s : State) (n : Nat) (o : Bool) (k : Nat) : (s.hold n o).fn k = s.fn k := rfl
@[simp] theorem die_hold (s : State) (n : Nat) (o : Bool) (k : Nat) : (s.hold n o).die k = s.die k := rfl
@[simp] theorem queue_hold (s : State) (n : Nat) (o : Bool) (v : Fin 64) (u : BitVec 8) : (s.hold n o).queue v u = s.queue v u := rfl
@[simp] theorem lls_hold (s : State) (n : Nat) (o : Bool) (k : Nat) : (s.hold n o).lls k = s.lls k := rfl
@[simp] theorem gran_hold (s : State) (n : Nat) (o : Bool) (k : Nat) : (s.hold n o).gran k = s.gran k := rfl
@[simp] theorem req_hold (s : State) (n : Nat) (o : Bool) (k : Nat) : (s.hold n o).req k = s.req k := rfl
@[simp] theorem phaser_hold (s : State) (n : Nat) (o : Bool) (k : Nat) : (s.hold n o).phaser k = s.phaser k := rfl
@[simp] theorem port_hold (s : State) (n : Nat) (o : Bool) (k : Fin 32) : (s.hold n o).port k = s.port k := rfl
@[simp] theorem now_hold (s : State) (n : Nat) (o : Bool) : (s.hold n o).now = s.now := rfl
@[simp] theorem lineVal_hold (s : State) (n : Nat) (o : Bool) (k : Nat) : (s.hold n o).lineVal k = s.lineVal k := rfl
@[simp] theorem linePoison_hold (s : State) (n : Nat) (o : Bool) (k : Nat) : (s.hold n o).linePoison k = s.linePoison k := rfl
@[simp] theorem dpaWord_hold (s : State) (n : Nat) (o : Bool) (k : Nat) : (s.hold n o).dpaWord k = s.dpaWord k := rfl
@[simp] theorem nbFind_hold (s : State) (n : Nat) (o : Bool) (k : Nat) : (s.hold n o).nbFind k = s.nbFind k := rfl
@[simp] theorem isAborted_hold (s : State) (n : Nat) (o : Bool) (k : BitVec 16) (u : BitVec 32) : (s.hold n o).isAborted k u = s.isAborted k u := rfl

/-! ### State.setPort -/

@[simp] theorem setPort_cells (s : State) (p : Fin 32) (x : Port) : (s.setPort p x).cells = s.cells := rfl
@[simp] theorem setPort_mem (s : State) (p : Fin 32) (x : Port) : (s.setPort p x).mem = s.mem := rfl
@[simp] theorem setPort_fns (s : State) (p : Fin 32) (x : Port) : (s.setPort p x).fns = s.fns := rfl
@[simp] theorem setPort_dies (s : State) (p : Fin 32) (x : Port) : (s.setPort p x).dies = s.dies := rfl
@[simp] theorem setPort_disp (s : State) (p : Fin 32) (x : Port) : (s.setPort p x).disp = s.disp := rfl
@[simp] theorem setPort_sys_devtime (s : State) (p : Fin 32) (x : Port) : (s.setPort p x).sys.devtime = s.sys.devtime := rfl
@[simp] theorem setPort_sys_frac (s : State) (p : Fin 32) (x : Port) : (s.setPort p x).sys.frac = s.sys.frac := rfl
@[simp] theorem setPort_sys_cycle (s : State) (p : Fin 32) (x : Port) : (s.setPort p x).sys.cycle = s.sys.cycle := rfl
@[simp] theorem setPort_sys_mhz (s : State) (p : Fin 32) (x : Port) : (s.setPort p x).sys.mhz = s.sys.mhz := rfl
@[simp] theorem setPort_sys_mhzLow (s : State) (p : Fin 32) (x : Port) : (s.setPort p x).sys.mhzLow = s.sys.mhzLow := rfl
@[simp] theorem setPort_sys_bootStage (s : State) (p : Fin 32) (x : Port) : (s.setPort p x).sys.bootStage = s.sys.bootStage := rfl
@[simp] theorem setPort_sys_bootErr (s : State) (p : Fin 32) (x : Port) : (s.setPort p x).sys.bootErr = s.sys.bootErr := rfl
@[simp] theorem setPort_sys_bootDone (s : State) (p : Fin 32) (x : Port) : (s.setPort p x).sys.bootDone = s.sys.bootDone := rfl
@[simp] theorem setPort_sys_stktrn (s : State) (p : Fin 32) (x : Port) : (s.setPort p x).sys.stktrn = s.sys.stktrn := rfl
@[simp] theorem setPort_sys_cxl (s : State) (p : Fin 32) (x : Port) : (s.setPort p x).sys.cxl = s.sys.cxl := rfl
@[simp] theorem setPort_sys_ports (s : State) (p : Fin 32) (x : Port) : (s.setPort p x).sys.ports = s.sys.ports.set p.val x p.isLt := rfl
@[simp] theorem setPort_sys_eclRetry (s : State) (p : Fin 32) (x : Port) : (s.setPort p x).sys.eclRetry = s.sys.eclRetry := rfl
@[simp] theorem setPort_sys_aborted (s : State) (p : Fin 32) (x : Port) : (s.setPort p x).sys.aborted = s.sys.aborted := rfl
@[simp] theorem setPort_sys_attn (s : State) (p : Fin 32) (x : Port) : (s.setPort p x).sys.attn = s.sys.attn := rfl
@[simp] theorem setPort_sys_attaddr (s : State) (p : Fin 32) (x : Port) : (s.setPort p x).sys.attaddr = s.sys.attaddr := rfl
@[simp] theorem setPort_sys_cfgDigest (s : State) (p : Fin 32) (x : Port) : (s.setPort p x).sys.cfgDigest = s.sys.cfgDigest := rfl
@[simp] theorem setPort_sys_fwDigest (s : State) (p : Fin 32) (x : Port) : (s.setPort p x).sys.fwDigest = s.sys.fwDigest := rfl
@[simp] theorem setPort_sys_cfgVersion (s : State) (p : Fin 32) (x : Port) : (s.setPort p x).sys.cfgVersion = s.sys.cfgVersion := rfl
@[simp] theorem setPort_sys_fwVersion (s : State) (p : Fin 32) (x : Port) : (s.setPort p x).sys.fwVersion = s.sys.fwVersion := rfl
@[simp] theorem setPort_sys_idDigest (s : State) (p : Fin 32) (x : Port) : (s.setPort p x).sys.idDigest = s.sys.idDigest := rfl
@[simp] theorem setPort_sys_errLog (s : State) (p : Fin 32) (x : Port) : (s.setPort p x).sys.errLog = s.sys.errLog := rfl
@[simp] theorem setPort_sys_errDue (s : State) (p : Fin 32) (x : Port) : (s.setPort p x).sys.errDue = s.sys.errDue := rfl
@[simp] theorem setPort_sys_ffrac (s : State) (p : Fin 32) (x : Port) : (s.setPort p x).sys.ffrac = s.sys.ffrac := rfl
@[simp] theorem setPort_sys_fbegun (s : State) (p : Fin 32) (x : Port) : (s.setPort p x).sys.fbegun = s.sys.fbegun := rfl
@[simp] theorem setPort_sys_ticked (s : State) (p : Fin 32) (x : Port) : (s.setPort p x).sys.ticked = s.sys.ticked := rfl
@[simp] theorem setPort_sys_attgo (s : State) (p : Fin 32) (x : Port) : (s.setPort p x).sys.attgo = s.sys.attgo := rfl
@[simp] theorem setPort_sys_report (s : State) (p : Fin 32) (x : Port) : (s.setPort p x).sys.report = s.sys.report := rfl
@[simp] theorem setPort_sys_romKey (s : State) (p : Fin 32) (x : Port) : (s.setPort p x).sys.romKey = s.sys.romKey := rfl
@[simp] theorem setPort_sched (s : State) (p : Fin 32) (x : Port) : (s.setPort p x).sched = s.sched := rfl
@[simp] theorem cell_setPort (s : State) (p : Fin 32) (x : Port) (k : Nat) : (s.setPort p x).cell k = s.cell k := rfl
@[simp] theorem fn_setPort (s : State) (p : Fin 32) (x : Port) (k : Nat) : (s.setPort p x).fn k = s.fn k := rfl
@[simp] theorem die_setPort (s : State) (p : Fin 32) (x : Port) (k : Nat) : (s.setPort p x).die k = s.die k := rfl
@[simp] theorem queue_setPort (s : State) (p : Fin 32) (x : Port) (v : Fin 64) (u : BitVec 8) : (s.setPort p x).queue v u = s.queue v u := rfl
@[simp] theorem lls_setPort (s : State) (p : Fin 32) (x : Port) (k : Nat) : (s.setPort p x).lls k = s.lls k := rfl
@[simp] theorem gran_setPort (s : State) (p : Fin 32) (x : Port) (k : Nat) : (s.setPort p x).gran k = s.gran k := rfl
@[simp] theorem req_setPort (s : State) (p : Fin 32) (x : Port) (k : Nat) : (s.setPort p x).req k = s.req k := rfl
@[simp] theorem phaser_setPort (s : State) (p : Fin 32) (x : Port) (k : Nat) : (s.setPort p x).phaser k = s.phaser k := rfl
@[simp] theorem now_setPort (s : State) (p : Fin 32) (x : Port) : (s.setPort p x).now = s.now := rfl
@[simp] theorem lineVal_setPort (s : State) (p : Fin 32) (x : Port) (k : Nat) : (s.setPort p x).lineVal k = s.lineVal k := rfl
@[simp] theorem linePoison_setPort (s : State) (p : Fin 32) (x : Port) (k : Nat) : (s.setPort p x).linePoison k = s.linePoison k := rfl
@[simp] theorem dpaWord_setPort (s : State) (p : Fin 32) (x : Port) (k : Nat) : (s.setPort p x).dpaWord k = s.dpaWord k := rfl
@[simp] theorem nbFind_setPort (s : State) (p : Fin 32) (x : Port) (k : Nat) : (s.setPort p x).nbFind k = s.nbFind k := rfl
@[simp] theorem isAborted_setPort (s : State) (p : Fin 32) (x : Port) (k : BitVec 16) (u : BitVec 32) : (s.setPort p x).isAborted k u = s.isAborted k u := rfl

/-! ### State.modPort -/

@[simp] theorem modPort_cells (s : State) (p : Fin 32) (f : Port → Port) : (s.modPort p f).cells = s.cells := rfl
@[simp] theorem modPort_mem (s : State) (p : Fin 32) (f : Port → Port) : (s.modPort p f).mem = s.mem := rfl
@[simp] theorem modPort_fns (s : State) (p : Fin 32) (f : Port → Port) : (s.modPort p f).fns = s.fns := rfl
@[simp] theorem modPort_dies (s : State) (p : Fin 32) (f : Port → Port) : (s.modPort p f).dies = s.dies := rfl
@[simp] theorem modPort_disp (s : State) (p : Fin 32) (f : Port → Port) : (s.modPort p f).disp = s.disp := rfl
@[simp] theorem modPort_sys_devtime (s : State) (p : Fin 32) (f : Port → Port) : (s.modPort p f).sys.devtime = s.sys.devtime := rfl
@[simp] theorem modPort_sys_frac (s : State) (p : Fin 32) (f : Port → Port) : (s.modPort p f).sys.frac = s.sys.frac := rfl
@[simp] theorem modPort_sys_cycle (s : State) (p : Fin 32) (f : Port → Port) : (s.modPort p f).sys.cycle = s.sys.cycle := rfl
@[simp] theorem modPort_sys_mhz (s : State) (p : Fin 32) (f : Port → Port) : (s.modPort p f).sys.mhz = s.sys.mhz := rfl
@[simp] theorem modPort_sys_mhzLow (s : State) (p : Fin 32) (f : Port → Port) : (s.modPort p f).sys.mhzLow = s.sys.mhzLow := rfl
@[simp] theorem modPort_sys_bootStage (s : State) (p : Fin 32) (f : Port → Port) : (s.modPort p f).sys.bootStage = s.sys.bootStage := rfl
@[simp] theorem modPort_sys_bootErr (s : State) (p : Fin 32) (f : Port → Port) : (s.modPort p f).sys.bootErr = s.sys.bootErr := rfl
@[simp] theorem modPort_sys_bootDone (s : State) (p : Fin 32) (f : Port → Port) : (s.modPort p f).sys.bootDone = s.sys.bootDone := rfl
@[simp] theorem modPort_sys_stktrn (s : State) (p : Fin 32) (f : Port → Port) : (s.modPort p f).sys.stktrn = s.sys.stktrn := rfl
@[simp] theorem modPort_sys_cxl (s : State) (p : Fin 32) (f : Port → Port) : (s.modPort p f).sys.cxl = s.sys.cxl := rfl
@[simp] theorem modPort_sys_ports (s : State) (p : Fin 32) (f : Port → Port) : (s.modPort p f).sys.ports = s.sys.ports.set p.val (f (s.port p)) p.isLt := rfl
@[simp] theorem modPort_sys_eclRetry (s : State) (p : Fin 32) (f : Port → Port) : (s.modPort p f).sys.eclRetry = s.sys.eclRetry := rfl
@[simp] theorem modPort_sys_aborted (s : State) (p : Fin 32) (f : Port → Port) : (s.modPort p f).sys.aborted = s.sys.aborted := rfl
@[simp] theorem modPort_sys_attn (s : State) (p : Fin 32) (f : Port → Port) : (s.modPort p f).sys.attn = s.sys.attn := rfl
@[simp] theorem modPort_sys_attaddr (s : State) (p : Fin 32) (f : Port → Port) : (s.modPort p f).sys.attaddr = s.sys.attaddr := rfl
@[simp] theorem modPort_sys_cfgDigest (s : State) (p : Fin 32) (f : Port → Port) : (s.modPort p f).sys.cfgDigest = s.sys.cfgDigest := rfl
@[simp] theorem modPort_sys_fwDigest (s : State) (p : Fin 32) (f : Port → Port) : (s.modPort p f).sys.fwDigest = s.sys.fwDigest := rfl
@[simp] theorem modPort_sys_cfgVersion (s : State) (p : Fin 32) (f : Port → Port) : (s.modPort p f).sys.cfgVersion = s.sys.cfgVersion := rfl
@[simp] theorem modPort_sys_fwVersion (s : State) (p : Fin 32) (f : Port → Port) : (s.modPort p f).sys.fwVersion = s.sys.fwVersion := rfl
@[simp] theorem modPort_sys_idDigest (s : State) (p : Fin 32) (f : Port → Port) : (s.modPort p f).sys.idDigest = s.sys.idDigest := rfl
@[simp] theorem modPort_sys_errLog (s : State) (p : Fin 32) (f : Port → Port) : (s.modPort p f).sys.errLog = s.sys.errLog := rfl
@[simp] theorem modPort_sys_errDue (s : State) (p : Fin 32) (f : Port → Port) : (s.modPort p f).sys.errDue = s.sys.errDue := rfl
@[simp] theorem modPort_sys_ffrac (s : State) (p : Fin 32) (f : Port → Port) : (s.modPort p f).sys.ffrac = s.sys.ffrac := rfl
@[simp] theorem modPort_sys_fbegun (s : State) (p : Fin 32) (f : Port → Port) : (s.modPort p f).sys.fbegun = s.sys.fbegun := rfl
@[simp] theorem modPort_sys_ticked (s : State) (p : Fin 32) (f : Port → Port) : (s.modPort p f).sys.ticked = s.sys.ticked := rfl
@[simp] theorem modPort_sys_attgo (s : State) (p : Fin 32) (f : Port → Port) : (s.modPort p f).sys.attgo = s.sys.attgo := rfl
@[simp] theorem modPort_sys_report (s : State) (p : Fin 32) (f : Port → Port) : (s.modPort p f).sys.report = s.sys.report := rfl
@[simp] theorem modPort_sys_romKey (s : State) (p : Fin 32) (f : Port → Port) : (s.modPort p f).sys.romKey = s.sys.romKey := rfl
@[simp] theorem modPort_sched (s : State) (p : Fin 32) (f : Port → Port) : (s.modPort p f).sched = s.sched := rfl
@[simp] theorem cell_modPort (s : State) (p : Fin 32) (f : Port → Port) (k : Nat) : (s.modPort p f).cell k = s.cell k := rfl
@[simp] theorem fn_modPort (s : State) (p : Fin 32) (f : Port → Port) (k : Nat) : (s.modPort p f).fn k = s.fn k := rfl
@[simp] theorem die_modPort (s : State) (p : Fin 32) (f : Port → Port) (k : Nat) : (s.modPort p f).die k = s.die k := rfl
@[simp] theorem queue_modPort (s : State) (p : Fin 32) (f : Port → Port) (v : Fin 64) (u : BitVec 8) : (s.modPort p f).queue v u = s.queue v u := rfl
@[simp] theorem lls_modPort (s : State) (p : Fin 32) (f : Port → Port) (k : Nat) : (s.modPort p f).lls k = s.lls k := rfl
@[simp] theorem gran_modPort (s : State) (p : Fin 32) (f : Port → Port) (k : Nat) : (s.modPort p f).gran k = s.gran k := rfl
@[simp] theorem req_modPort (s : State) (p : Fin 32) (f : Port → Port) (k : Nat) : (s.modPort p f).req k = s.req k := rfl
@[simp] theorem phaser_modPort (s : State) (p : Fin 32) (f : Port → Port) (k : Nat) : (s.modPort p f).phaser k = s.phaser k := rfl
@[simp] theorem now_modPort (s : State) (p : Fin 32) (f : Port → Port) : (s.modPort p f).now = s.now := rfl
@[simp] theorem lineVal_modPort (s : State) (p : Fin 32) (f : Port → Port) (k : Nat) : (s.modPort p f).lineVal k = s.lineVal k := rfl
@[simp] theorem linePoison_modPort (s : State) (p : Fin 32) (f : Port → Port) (k : Nat) : (s.modPort p f).linePoison k = s.linePoison k := rfl
@[simp] theorem dpaWord_modPort (s : State) (p : Fin 32) (f : Port → Port) (k : Nat) : (s.modPort p f).dpaWord k = s.dpaWord k := rfl
@[simp] theorem nbFind_modPort (s : State) (p : Fin 32) (f : Port → Port) (k : Nat) : (s.modPort p f).nbFind k = s.nbFind k := rfl
@[simp] theorem isAborted_modPort (s : State) (p : Fin 32) (f : Port → Port) (k : BitVec 16) (u : BitVec 32) : (s.modPort p f).isAborted k u = s.isAborted k u := rfl

/-! ### State.recordAbort -/

@[simp] theorem recordAbort_cells (s : State) (g : BitVec 16) (r : BitVec 32) : (s.recordAbort g r).cells = s.cells := rfl
@[simp] theorem recordAbort_mem (s : State) (g : BitVec 16) (r : BitVec 32) : (s.recordAbort g r).mem = s.mem := rfl
@[simp] theorem recordAbort_fns (s : State) (g : BitVec 16) (r : BitVec 32) : (s.recordAbort g r).fns = s.fns := rfl
@[simp] theorem recordAbort_dies (s : State) (g : BitVec 16) (r : BitVec 32) : (s.recordAbort g r).dies = s.dies := rfl
@[simp] theorem recordAbort_disp (s : State) (g : BitVec 16) (r : BitVec 32) : (s.recordAbort g r).disp = s.disp := rfl
@[simp] theorem recordAbort_sys_devtime (s : State) (g : BitVec 16) (r : BitVec 32) : (s.recordAbort g r).sys.devtime = s.sys.devtime := rfl
@[simp] theorem recordAbort_sys_frac (s : State) (g : BitVec 16) (r : BitVec 32) : (s.recordAbort g r).sys.frac = s.sys.frac := rfl
@[simp] theorem recordAbort_sys_cycle (s : State) (g : BitVec 16) (r : BitVec 32) : (s.recordAbort g r).sys.cycle = s.sys.cycle := rfl
@[simp] theorem recordAbort_sys_mhz (s : State) (g : BitVec 16) (r : BitVec 32) : (s.recordAbort g r).sys.mhz = s.sys.mhz := rfl
@[simp] theorem recordAbort_sys_mhzLow (s : State) (g : BitVec 16) (r : BitVec 32) : (s.recordAbort g r).sys.mhzLow = s.sys.mhzLow := rfl
@[simp] theorem recordAbort_sys_bootStage (s : State) (g : BitVec 16) (r : BitVec 32) : (s.recordAbort g r).sys.bootStage = s.sys.bootStage := rfl
@[simp] theorem recordAbort_sys_bootErr (s : State) (g : BitVec 16) (r : BitVec 32) : (s.recordAbort g r).sys.bootErr = s.sys.bootErr := rfl
@[simp] theorem recordAbort_sys_bootDone (s : State) (g : BitVec 16) (r : BitVec 32) : (s.recordAbort g r).sys.bootDone = s.sys.bootDone := rfl
@[simp] theorem recordAbort_sys_stktrn (s : State) (g : BitVec 16) (r : BitVec 32) : (s.recordAbort g r).sys.stktrn = s.sys.stktrn := rfl
@[simp] theorem recordAbort_sys_cxl (s : State) (g : BitVec 16) (r : BitVec 32) : (s.recordAbort g r).sys.cxl = s.sys.cxl := rfl
@[simp] theorem recordAbort_sys_ports (s : State) (g : BitVec 16) (r : BitVec 32) : (s.recordAbort g r).sys.ports = s.sys.ports := rfl
@[simp] theorem recordAbort_sys_eclRetry (s : State) (g : BitVec 16) (r : BitVec 32) : (s.recordAbort g r).sys.eclRetry = s.sys.eclRetry := rfl
@[simp] theorem recordAbort_sys_aborted (s : State) (g : BitVec 16) (r : BitVec 32) : (s.recordAbort g r).sys.aborted = ((g, r) :: s.sys.aborted.filter (· ≠ (g, r))).take 256 := rfl
@[simp] theorem recordAbort_sys_attn (s : State) (g : BitVec 16) (r : BitVec 32) : (s.recordAbort g r).sys.attn = s.sys.attn := rfl
@[simp] theorem recordAbort_sys_attaddr (s : State) (g : BitVec 16) (r : BitVec 32) : (s.recordAbort g r).sys.attaddr = s.sys.attaddr := rfl
@[simp] theorem recordAbort_sys_cfgDigest (s : State) (g : BitVec 16) (r : BitVec 32) : (s.recordAbort g r).sys.cfgDigest = s.sys.cfgDigest := rfl
@[simp] theorem recordAbort_sys_fwDigest (s : State) (g : BitVec 16) (r : BitVec 32) : (s.recordAbort g r).sys.fwDigest = s.sys.fwDigest := rfl
@[simp] theorem recordAbort_sys_cfgVersion (s : State) (g : BitVec 16) (r : BitVec 32) : (s.recordAbort g r).sys.cfgVersion = s.sys.cfgVersion := rfl
@[simp] theorem recordAbort_sys_fwVersion (s : State) (g : BitVec 16) (r : BitVec 32) : (s.recordAbort g r).sys.fwVersion = s.sys.fwVersion := rfl
@[simp] theorem recordAbort_sys_idDigest (s : State) (g : BitVec 16) (r : BitVec 32) : (s.recordAbort g r).sys.idDigest = s.sys.idDigest := rfl
@[simp] theorem recordAbort_sys_errLog (s : State) (g : BitVec 16) (r : BitVec 32) : (s.recordAbort g r).sys.errLog = s.sys.errLog := rfl
@[simp] theorem recordAbort_sys_errDue (s : State) (g : BitVec 16) (r : BitVec 32) : (s.recordAbort g r).sys.errDue = s.sys.errDue := rfl
@[simp] theorem recordAbort_sys_ffrac (s : State) (g : BitVec 16) (r : BitVec 32) : (s.recordAbort g r).sys.ffrac = s.sys.ffrac := rfl
@[simp] theorem recordAbort_sys_fbegun (s : State) (g : BitVec 16) (r : BitVec 32) : (s.recordAbort g r).sys.fbegun = s.sys.fbegun := rfl
@[simp] theorem recordAbort_sys_ticked (s : State) (g : BitVec 16) (r : BitVec 32) : (s.recordAbort g r).sys.ticked = s.sys.ticked := rfl
@[simp] theorem recordAbort_sys_attgo (s : State) (g : BitVec 16) (r : BitVec 32) : (s.recordAbort g r).sys.attgo = s.sys.attgo := rfl
@[simp] theorem recordAbort_sys_report (s : State) (g : BitVec 16) (r : BitVec 32) : (s.recordAbort g r).sys.report = s.sys.report := rfl
@[simp] theorem recordAbort_sys_romKey (s : State) (g : BitVec 16) (r : BitVec 32) : (s.recordAbort g r).sys.romKey = s.sys.romKey := rfl
@[simp] theorem recordAbort_sched (s : State) (g : BitVec 16) (r : BitVec 32) : (s.recordAbort g r).sched = s.sched := rfl
@[simp] theorem cell_recordAbort (s : State) (g : BitVec 16) (r : BitVec 32) (k : Nat) : (s.recordAbort g r).cell k = s.cell k := rfl
@[simp] theorem fn_recordAbort (s : State) (g : BitVec 16) (r : BitVec 32) (k : Nat) : (s.recordAbort g r).fn k = s.fn k := rfl
@[simp] theorem die_recordAbort (s : State) (g : BitVec 16) (r : BitVec 32) (k : Nat) : (s.recordAbort g r).die k = s.die k := rfl
@[simp] theorem queue_recordAbort (s : State) (g : BitVec 16) (r : BitVec 32) (v : Fin 64) (u : BitVec 8) : (s.recordAbort g r).queue v u = s.queue v u := rfl
@[simp] theorem lls_recordAbort (s : State) (g : BitVec 16) (r : BitVec 32) (k : Nat) : (s.recordAbort g r).lls k = s.lls k := rfl
@[simp] theorem gran_recordAbort (s : State) (g : BitVec 16) (r : BitVec 32) (k : Nat) : (s.recordAbort g r).gran k = s.gran k := rfl
@[simp] theorem req_recordAbort (s : State) (g : BitVec 16) (r : BitVec 32) (k : Nat) : (s.recordAbort g r).req k = s.req k := rfl
@[simp] theorem phaser_recordAbort (s : State) (g : BitVec 16) (r : BitVec 32) (k : Nat) : (s.recordAbort g r).phaser k = s.phaser k := rfl
@[simp] theorem port_recordAbort (s : State) (g : BitVec 16) (r : BitVec 32) (k : Fin 32) : (s.recordAbort g r).port k = s.port k := rfl
@[simp] theorem now_recordAbort (s : State) (g : BitVec 16) (r : BitVec 32) : (s.recordAbort g r).now = s.now := rfl
@[simp] theorem lineVal_recordAbort (s : State) (g : BitVec 16) (r : BitVec 32) (k : Nat) : (s.recordAbort g r).lineVal k = s.lineVal k := rfl
@[simp] theorem linePoison_recordAbort (s : State) (g : BitVec 16) (r : BitVec 32) (k : Nat) : (s.recordAbort g r).linePoison k = s.linePoison k := rfl
@[simp] theorem dpaWord_recordAbort (s : State) (g : BitVec 16) (r : BitVec 32) (k : Nat) : (s.recordAbort g r).dpaWord k = s.dpaWord k := rfl
@[simp] theorem nbFind_recordAbort (s : State) (g : BitVec 16) (r : BitVec 32) (k : Nat) : (s.recordAbort g r).nbFind k = s.nbFind k := rfl

/-! ### State.freezeAt -/

@[simp] theorem freezeAt_cells (s : State) (c : Nat) (f : Freeze) : (s.freezeAt c f).cells = tset s.cells c { s.cell c with freeze := f } := rfl
@[simp] theorem freezeAt_mem (s : State) (c : Nat) (f : Freeze) : (s.freezeAt c f).mem = s.mem := rfl
@[simp] theorem freezeAt_fns (s : State) (c : Nat) (f : Freeze) : (s.freezeAt c f).fns = s.fns := rfl
@[simp] theorem freezeAt_dies (s : State) (c : Nat) (f : Freeze) : (s.freezeAt c f).dies = s.dies := rfl
@[simp] theorem freezeAt_disp (s : State) (c : Nat) (f : Freeze) : (s.freezeAt c f).disp = s.disp := rfl
@[simp] theorem freezeAt_sys (s : State) (c : Nat) (f : Freeze) : (s.freezeAt c f).sys = s.sys := rfl
@[simp] theorem freezeAt_sched (s : State) (c : Nat) (f : Freeze) : (s.freezeAt c f).sched = s.sched := rfl
@[simp] theorem fn_freezeAt (s : State) (c : Nat) (f : Freeze) (k : Nat) : (s.freezeAt c f).fn k = s.fn k := rfl
@[simp] theorem die_freezeAt (s : State) (c : Nat) (f : Freeze) (k : Nat) : (s.freezeAt c f).die k = s.die k := rfl
@[simp] theorem queue_freezeAt (s : State) (c : Nat) (f : Freeze) (v : Fin 64) (u : BitVec 8) : (s.freezeAt c f).queue v u = s.queue v u := rfl
@[simp] theorem lls_freezeAt (s : State) (c : Nat) (f : Freeze) (k : Nat) : (s.freezeAt c f).lls k = s.lls k := rfl
@[simp] theorem gran_freezeAt (s : State) (c : Nat) (f : Freeze) (k : Nat) : (s.freezeAt c f).gran k = s.gran k := rfl
@[simp] theorem req_freezeAt (s : State) (c : Nat) (f : Freeze) (k : Nat) : (s.freezeAt c f).req k = s.req k := rfl
@[simp] theorem phaser_freezeAt (s : State) (c : Nat) (f : Freeze) (k : Nat) : (s.freezeAt c f).phaser k = s.phaser k := rfl
@[simp] theorem port_freezeAt (s : State) (c : Nat) (f : Freeze) (k : Fin 32) : (s.freezeAt c f).port k = s.port k := rfl
@[simp] theorem now_freezeAt (s : State) (c : Nat) (f : Freeze) : (s.freezeAt c f).now = s.now := rfl
@[simp] theorem lineVal_freezeAt (s : State) (c : Nat) (f : Freeze) (k : Nat) : (s.freezeAt c f).lineVal k = s.lineVal k := rfl
@[simp] theorem linePoison_freezeAt (s : State) (c : Nat) (f : Freeze) (k : Nat) : (s.freezeAt c f).linePoison k = s.linePoison k := rfl
@[simp] theorem dpaWord_freezeAt (s : State) (c : Nat) (f : Freeze) (k : Nat) : (s.freezeAt c f).dpaWord k = s.dpaWord k := rfl
@[simp] theorem nbFind_freezeAt (s : State) (c : Nat) (f : Freeze) (k : Nat) : (s.freezeAt c f).nbFind k = s.nbFind k := rfl
@[simp] theorem isAborted_freezeAt (s : State) (c : Nat) (f : Freeze) (k : BitVec 16) (u : BitVec 32) : (s.freezeAt c f).isAborted k u = s.isAborted k u := rfl

/-! ### Reads after writes -/

@[simp] theorem cell_setCell (s : State) (c : Nat) (x : CellSt) : (s.setCell c x).cell c = x := by
  simp [State.setCell, State.cell]

theorem cell_setCell_ne (s : State) {c n : Nat} (x : CellSt) (h : n ≠ c) : (s.setCell c x).cell n = s.cell n := by
  simp [State.setCell, State.cell, tget_tset_ne _ _ _ h]

@[simp] theorem cell_modCell (s : State) (c : Nat) (f : CellSt → CellSt) : (s.modCell c f).cell c = f (s.cell c) := by
  simp [State.modCell]

theorem cell_modCell_ne (s : State) {c n : Nat} (f : CellSt → CellSt) (h : n ≠ c) : (s.modCell c f).cell n = s.cell n := by
  simp [State.modCell, cell_setCell_ne _ _ h]

@[simp] theorem fn_setFn (s : State) (n : Nat) (x : Fn) : (s.setFn n x).fn n = x := by simp [State.setFn, State.fn]

theorem fn_setFn_ne (s : State) {n k : Nat} (x : Fn) (h : k ≠ n) : (s.setFn n x).fn k = s.fn k := by
  simp [State.setFn, State.fn, tget_tset_ne _ _ _ h]

@[simp] theorem fn_modFn (s : State) (n : Nat) (f : Fn → Fn) : (s.modFn n f).fn n = f (s.fn n) := by simp [State.modFn]

theorem fn_modFn_ne (s : State) {n k : Nat} (f : Fn → Fn) (h : k ≠ n) : (s.modFn n f).fn k = s.fn k := by
  simp [State.modFn, fn_setFn_ne _ _ h]

@[simp] theorem die_setDie (s : State) (d : Nat) (x : Die) : (s.setDie d x).die d = x := by simp [State.setDie, State.die]

theorem die_setDie_ne (s : State) {d n : Nat} (x : Die) (h : n ≠ d) : (s.setDie d x).die n = s.die n := by
  simp [State.setDie, State.die, tget_tset_ne _ _ _ h]

/-- Two queues have one number only if they are the same. -/
theorem qkey_inj {vf vf' : Fin 64} {q q' : BitVec 8} : qkey vf q = qkey vf' q' ↔ vf = vf' ∧ q = q' := by
  unfold qkey
  constructor
  · intro h
    have := q.isLt
    have := q'.isLt
    exact ⟨Fin.ext (by omega), BitVec.eq_of_toNat_eq (by omega)⟩
  · rintro ⟨rfl, rfl⟩; rfl

@[simp] theorem queue_setQueue (s : State) (vf : Fin 64) (q : BitVec 8) (x : Queue) : (s.setQueue vf q x).queue vf q = x := by
  simp [State.setQueue, State.queue]

theorem queue_setQueue_ne (s : State) {vf v : Fin 64} {q u : BitVec 8} (x : Queue) (h : ¬(v = vf ∧ u = q)) :
    (s.setQueue vf q x).queue v u = s.queue v u := by
  have : qkey v u ≠ qkey vf q := fun e => h (qkey_inj.1 e)
  simp [State.setQueue, State.queue, tget_tset_ne _ _ _ this]

@[simp] theorem queue_modQueue (s : State) (vf : Fin 64) (q : BitVec 8) (f : Queue → Queue) :
    (s.modQueue vf q f).queue vf q = f (s.queue vf q) := by simp [State.modQueue]

theorem queue_modQueue_ne (s : State) {vf v : Fin 64} {q u : BitVec 8} (f : Queue → Queue) (h : ¬(v = vf ∧ u = q)) :
    (s.modQueue vf q f).queue v u = s.queue v u := by simp [State.modQueue, queue_setQueue_ne _ _ h]

@[simp] theorem lls_setLls (s : State) (n : Nat) (x : LlsLine) : (s.setLls n x).lls n = some x := by simp [State.setLls, State.lls]

theorem lls_setLls_ne (s : State) {n k : Nat} (x : LlsLine) (h : k ≠ n) : (s.setLls n x).lls k = s.lls k := by
  simp [State.setLls, State.lls, tfind_tset_ne _ _ h]

@[simp] theorem gran_setGran (s : State) (g : Nat) (x : Granule) : (s.setGran g x).gran g = x := by simp [State.setGran, State.gran]

theorem gran_setGran_ne (s : State) {g k : Nat} (x : Granule) (h : k ≠ g) : (s.setGran g x).gran k = s.gran k := by
  simp [State.setGran, State.gran, tget_tset_ne _ _ _ h]

@[simp] theorem req_setReq (s : State) (id : Nat) (r : Req) : (s.setReq id r).req id = some r := by simp [State.setReq, State.req]

theorem req_setReq_ne (s : State) {id k : Nat} (r : Req) (h : k ≠ id) : (s.setReq id r).req k = s.req k := by
  simp [State.setReq, State.req, tfind_tset_ne _ _ h]

@[simp] theorem req_addReq (s : State) (r : Req) : (s.addReq r).req s.mem.nextReq = some r := by simp [State.addReq, State.req]

theorem req_addReq_ne (s : State) {k : Nat} (r : Req) (h : k ≠ s.mem.nextReq) : (s.addReq r).req k = s.req k := by
  simp [State.addReq, State.req, tfind_tset_ne _ _ h]

@[simp] theorem phaser_setPhaser (s : State) (n : Nat) (p : Phaser) : (s.setPhaser n p).phaser n = p := by
  simp [State.setPhaser, State.phaser]

theorem phaser_setPhaser_ne (s : State) {n k : Nat} (p : Phaser) (h : k ≠ n) : (s.setPhaser n p).phaser k = s.phaser k := by
  simp [State.setPhaser, State.phaser, tget_tset_ne _ _ _ h]

@[simp] theorem port_setPort (s : State) (p : Fin 32) (x : Port) : (s.setPort p x).port p = x := by
  simp [State.setPort, State.port]

theorem port_setPort_ne (s : State) {p k : Fin 32} (x : Port) (h : k ≠ p) : (s.setPort p x).port k = s.port k := by
  have : p.val ≠ k.val := fun e => h (Fin.ext e.symm)
  simp [State.setPort, State.port, this]

@[simp] theorem port_modPort (s : State) (p : Fin 32) (f : Port → Port) : (s.modPort p f).port p = f (s.port p) := by
  simp [State.modPort]

theorem port_modPort_ne (s : State) {p k : Fin 32} (f : Port → Port) (h : k ≠ p) : (s.modPort p f).port k = s.port k := by
  simp [State.modPort, port_setPort_ne _ _ h]

end Sys2Proof.Laws
end

