-- ==== Sys2Proof/Laws/Ops.lean ====
section
/-! SUPPORT. What each shared operation of the sequencer can do: the trace, the issue of a word, a register write, a log
entry, a transfer. -/

namespace Sys2Proof.Laws

open Sys2Proof Sys2Proof.Machine Sys2Proof.Safety

/-! ### The trace changes nothing else (R245 to R247) -/

theorem elsewhere_refl (c : Nat) (s : State) : Elsewhere c s s := ⟨fun _ _ => rfl, fun _ => ⟨_, _, rfl⟩, rfl, rfl, rfl⟩

theorem elsewhere_trans {c : Nat} {s t u : State} (h : Elsewhere c s t) (k : Elsewhere c t u) : Elsewhere c s u where
  cells n hn := (k.cells n hn).trans (h.cells n hn)
  dies d := by
    obtain ⟨p, l, h1⟩ := h.dies d
    obtain ⟨p', l', h2⟩ := k.dies d
    exact ⟨p', l', by rw [h2, h1]⟩
  fns := k.fns.trans h.fns
  sys := k.sys.trans h.sys
  sched := k.sched.trans h.sched

theorem traceOnly_refl (c : Nat) (s : State) : TraceOnly c s s := ⟨elsewhere_refl c s, rfl, rfl, rfl⟩

theorem traceOnly_trans {c : Nat} {s t u : State} (h : TraceOnly c s t) (k : TraceOnly c t u) : TraceOnly c s u where
  elsewhere := elsewhere_trans h.elsewhere k.elsewhere
  cell := by rw [k.cell, h.cell]
  mem := k.mem.trans h.mem
  disp := k.disp.trans h.disp

/-- A change of one cell leaves the rest. -/
theorem elsewhere_modCell (s : State) (c : Nat) (f : CellSt → CellSt) : Elsewhere c s (s.modCell c f) :=
  ⟨fun _ h => cell_modCell_ne s f h, fun _ => ⟨_, _, rfl⟩, rfl, rfl, rfl⟩

theorem elsewhere_setCell (s : State) (c : Nat) (x : CellSt) : Elsewhere c s (s.setCell c x) :=
  ⟨fun _ h => cell_setCell_ne s x h, fun _ => ⟨_, _, rfl⟩, rfl, rfl, rfl⟩

/-- A change of a cell's trace or events alone. -/
theorem traceOnly_modCell (s : State) (c : Nat) (f : CellSt → CellSt)
    (h : ∀ x, f x = { x with trace := (f x).trace, events := (f x).events }) : TraceOnly c s (s.modCell c f) :=
  ⟨elsewhere_modCell s c f, by simpa using h (s.cell c), rfl, rfl⟩

/-- A change of a die's collector. -/
theorem traceOnly_setDie (s : State) (c d : Nat) (p : List (BitVec 6 × BitVec 64)) (l : Tab (BitVec 32)) :
    TraceOnly c s (s.setDie d { s.die d with trace := p, lost := l }) where
  elsewhere := by
    refine ⟨fun _ _ => rfl, fun n => ?_, rfl, rfl, rfl⟩
    by_cases h : n = d
    · subst h; exact ⟨p, l, by simp⟩
    · exact ⟨(s.die n).trace, (s.die n).lost, by rw [die_setDie_ne _ _ h]⟩
  cell := rfl
  mem := rfl
  disp := rfl

theorem traceOnly_ev (s : State) (c code : Nat) : TraceOnly c s (s.ev c code) := traceOnly_modCell s c _ fun _ => rfl

theorem traceOnly_collect (s : State) (c typ payload : Nat) : TraceOnly c s (s.collect c typ payload) := by
  by_cases h0 : tget 0 (s.die (c / 1600)).lost c = 0
  · simp only [State.collect, h0, if_true]
    split
    · exact traceOnly_setDie ..
    · exact traceOnly_setDie s c (c / 1600) (s.die (c / 1600)).trace _
  · simp only [State.collect, h0, if_false]
    split
    · split
      · exact traceOnly_setDie ..
      · exact traceOnly_trans (traceOnly_setDie ..) (traceOnly_modCell _ _ _ fun _ => rfl)
    · exact traceOnly_setDie s c (c / 1600) (s.die (c / 1600)).trace _

theorem traceOnly_flushBits (s : State) (c : Nat) : TraceOnly c s (s.flushBits c) := by
  unfold State.flushBits
  dsimp only
  split
  · exact traceOnly_refl c s
  · exact traceOnly_trans (traceOnly_modCell s c _ fun _ => rfl) (traceOnly_collect ..)

theorem traceOnly_emit (s : State) (c typ payload : Nat) : TraceOnly c s (s.emit c typ payload) := by
  unfold State.emit
  split
  · exact traceOnly_trans (traceOnly_flushBits s c) (traceOnly_collect ..)
  · exact traceOnly_refl c s

theorem traceOnly_outcome (s : State) (c : Nat) (b : Bool) : TraceOnly c s (s.outcome c b) := by
  unfold State.outcome
  split
  · dsimp only
    split
    · exact traceOnly_trans (traceOnly_modCell s c _ fun _ => rfl) (traceOnly_flushBits ..)
    · exact traceOnly_modCell s c _ fun _ => rfl
  · exact traceOnly_refl c s

theorem traceOnly_outcomes (c : Nat) (l : List Bool) : ∀ s : State, TraceOnly c s (s.outcomes c l) := by
  induction l with
  | nil => exact traceOnly_refl c
  | cons b t ih => exact fun s => traceOnly_trans (traceOnly_outcome s c b) (ih _)

theorem traceOnly_evs (c code : Nat) (l : List Bool) : ∀ s : State, TraceOnly c s (l.foldl (fun s _ => s.ev c code) s) := by
  induction l with
  | nil => exact traceOnly_refl c
  | cons b t ih => exact fun s => traceOnly_trans (traceOnly_ev s c code) (ih _)

theorem traceOnly_guardBit (s : State) (c : Nat) (g : Guard) (b : Bool) : TraceOnly c s (s.guardBit c g b) := by
  unfold State.guardBit
  split
  · exact traceOnly_refl c s
  · exact traceOnly_outcome ..

/-! ### Loop ends and the next word (R296) -/

/-- What the loop-end step leaves alone. -/
theorem loopEnd_frame (a : VAddr) (n : Nat) : ∀ q : Seq,
    (q.loopEnd a n).1 = { q with loops := (q.loopEnd a n).1.loops, lact := (q.loopEnd a n).1.lact } := by
  induction n with
  | zero => intro q; rfl
  | succ n ih =>
    intro q
    simp only [Seq.loopEnd]
    split
    · split
      · rfl
      · dsimp only; rw [ih]
    · exact ih q

/-- What the issue of a word that is no transfer leaves alone. -/
theorem next_frame (q : Seq) :
    q.next.1 = { q with pc := q.next.1.pc, npc := q.next.1.npc, slot := q.next.1.slot, loops := q.next.1.loops,
                        lact := q.next.1.lact } := by
  unfold Seq.next
  split
  · rfl
  · dsimp only; rw [loopEnd_frame]

theorem next_slot (q : Seq) : q.next.1.slot = .none := by unfold Seq.next; split <;> rfl
theorem next_g (q : Seq) : q.next.1.g = q.g := by rw [next_frame]
theorem next_p (q : Seq) : q.next.1.p = q.p := by rw [next_frame]
theorem next_log (q : Seq) : q.next.1.log = q.log := by rw [next_frame]

/-- A word with no open loop at it is followed by the next in sequence. -/
theorem next_plain (q : Seq) (h : q.lact = 0) : q.next.1 = { q with pc := q.npc, npc := q.npc + 4, slot := .none } := by
  unfold Seq.next
  split
  · rfl
  · simp [Seq.loopEnd, h]

/-! ### The issue of a word that is no transfer -/

/-- Everything that `advance` does. -/
theorem advance_spec (s : State) (c : Nat) :
    Elsewhere c s (s.advance c) ∧ (s.advance c).mem = s.mem ∧ (s.advance c).disp = s.disp ∧
    (s.advance c).cell c = { s.cell c with
      seq := (s.cell c).seq.next.1, freeze := .none, hold := [], issued := true,
      trace := ((s.advance c).cell c).trace, events := ((s.advance c).cell c).events } := by
  have h : TraceOnly c (s.modCell c fun x => { x with seq := (s.cell c).seq.next.1 }.issuedNow) (s.advance c) := by
    unfold State.advance
    exact traceOnly_trans (traceOnly_outcomes c _ _) (traceOnly_evs c _ _ _)
  refine ⟨elsewhere_trans (elsewhere_modCell ..) h.elsewhere, h.mem, h.disp, ?_⟩
  rw [h.cell]
  simp [CellSt.issuedNow, CellSt.ev]

theorem advance_elsewhere (s : State) (c : Nat) : Elsewhere c s (s.advance c) := (advance_spec s c).1
@[simp] theorem advance_mem (s : State) (c : Nat) : (s.advance c).mem = s.mem := (advance_spec s c).2.1
@[simp] theorem advance_disp (s : State) (c : Nat) : (s.advance c).disp = s.disp := (advance_spec s c).2.2.1
theorem advance_cell (s : State) (c : Nat) :
    (s.advance c).cell c = { s.cell c with
      seq := (s.cell c).seq.next.1, freeze := .none, hold := [], issued := true,
      trace := ((s.advance c).cell c).trace, events := ((s.advance c).cell c).events } := (advance_spec s c).2.2.2
@[simp] theorem advance_seq (s : State) (c : Nat) : ((s.advance c).cell c).seq = (s.cell c).seq.next.1 := by
  rw [advance_cell]

/-! ### The checks before an effect (R258, R257, R72) -/

/-- An instruction whose checks pass has its effect. -/
theorem issueAs_ready {s : State} {i : Instr} {g : Guard} {srcs : List Reg} (h : Ready s i g srcs)
    (eff : Nat → State → State) : s.issueAs i g srcs eff = .next (eff s.sched.cur s) := by
  have h1 : (i.isTransfer && (me s).seq.slot != .none) = false := by
    cases ht : i.isTransfer
    · rfl
    · simp [h.slot ht]
  simp [State.issueAs]
  rw [if_neg, if_neg, if_neg]
  · have := h.sources; simp only [me] at this; simp [this]
  · have := h.guard; simp only [me] at this; simp [this]
  · simp [h.limits]
  · simpa [me] using h1

/-- Every sequencer instruction answers a next state. -/
theorem issueAs_next (s : State) (i : Instr) (g : Guard) (srcs : List Reg) (eff : Nat → State → State) :
    ∃ t, s.issueAs i g srcs eff = .next t := ⟨_, rfl⟩

/-! ### Register writes -/

theorem greg_setG (x : CellSt) (d : Reg) (v : Word) (r : Reg) :
    (x.setG d v).greg r = if r = d ∧ d.val ≠ 0 then GReg.of v else x.greg r := by
  unfold CellSt.setG CellSt.greg
  by_cases hd : d.val = 0
  · simp [hd]
  · by_cases hr : r = d
    · subst hr; simp [hd]
    · have : d.val ≠ r.val := fun h => hr (Fin.ext h.symm)
      simp [hd, hr, this]

theorem pval_setP (x : CellSt) (k : Pred) (b : Bool) (j : Pred) :
    (x.setP k b).pval j = if j = k ∧ k.val ≠ 0 then b else x.pval j := by
  by_cases hk : k.val = 0
  · simp [CellSt.setP, hk]
  · revert x b
    have key : ∀ (p : BitVec 8) (b : Bool), (decide (j.val = 0) || (setBit p k.val b).getLsbD j.val) =
        if j = k then b else (decide (j.val = 0) || p.getLsbD j.val) := by
      intro p b
      have e : ∀ i : Nat, i < 8 → (BitVec.ofNat 8 (2 ^ k.val)).getLsbD i = decide (k.val = i) := by
        intro i hi; rw [BitVec.getLsbD_ofNat, Nat.testBit_two_pow]; simp [hi]
      by_cases hj : j = k
      · subst hj
        cases b <;> simp [setBit, -BitVec.ofNat_pow, -BitVec.getLsbD_eq_getElem, e _ j.isLt, hk, BitVec.getLsbD_or,
          BitVec.getLsbD_and, BitVec.getLsbD_not]
      · have hne : k.val ≠ j.val := fun h => hj (Fin.ext h.symm)
        cases b <;> simp [setBit, -BitVec.ofNat_pow, -BitVec.getLsbD_eq_getElem, e _ j.isLt, hj, hne, BitVec.getLsbD_or,
          BitVec.getLsbD_and, BitVec.getLsbD_not]
    intro x b
    have := key x.seq.p b
    simpa [CellSt.setP, CellSt.pval, hk] using this

/-- No injection is armed, so no result takes one. -/
theorem injects_none {s : State} (h : NoInjection s) (cls : Option Nat) : (me s).injects cls = false := by
  have : (me s).seq.errinj.arm = false := h
  simp [CellSt.injects, this]

/-- A state whose issuing cell took a change of general registers, predicates and log, and then advanced. -/
theorem advanced_of {s : State} {f : CellSt → CellSt}
    (hf : f (me s) = { me s with
      seq := { (me s).seq with g := (f (me s)).seq.g, p := (f (me s)).seq.p, log := (f (me s)).seq.log },
      wrote := (f (me s)).wrote }) :
    Advanced s ((s.modCell s.sched.cur f).advance s.sched.cur) ∧
    (me ((s.modCell s.sched.cur f).advance s.sched.cur)).seq.g = (f (me s)).seq.g ∧
    (me ((s.modCell s.sched.cur f).advance s.sched.cur)).seq.p = (f (me s)).seq.p ∧
    (me ((s.modCell s.sched.cur f).advance s.sched.cur)).seq.log = (f (me s)).seq.log := by
  have hs : ((s.modCell s.sched.cur f).advance s.sched.cur).sched = s.sched := (advance_elsewhere ..).sched
  have hm : me ((s.modCell s.sched.cur f).advance s.sched.cur)
      = ((s.modCell s.sched.cur f).advance s.sched.cur).cell s.sched.cur := by simp [me, hs]
  have hc := advance_cell (s.modCell s.sched.cur f) s.sched.cur
  have hx : (s.modCell s.sched.cur f).cell s.sched.cur = f (me s) := by simp [me]
  rw [hx] at hc
  have hn : (f (me s)).seq.next.1 = { (me s).seq.next.1 with
      g := (f (me s)).seq.g, p := (f (me s)).seq.p, log := (f (me s)).seq.log } := by
    rw [hf]
    have lp : ∀ (q : Seq) (g : Vector GReg 32) (p : BitVec 8) (l : List LogEntry) (a : VAddr) (n : Nat),
        ({ q with g := g, p := p, log := l } : Seq).loopEnd a n =
          ({ (q.loopEnd a n).1 with g := g, p := p, log := l }, (q.loopEnd a n).2) := by
      intro q g p l a n
      induction n generalizing q with
      | zero => rfl
      | succ n ih =>
        simp only [Seq.loopEnd]
        split
        · split
          · rfl
          · exact congrArg (fun z : Seq × Option VAddr × List Bool => (z.1, z.2.1, false :: z.2.2)) (ih { q with loops := _, lact := _ })
        · exact ih q
    unfold Seq.next
    dsimp only
    split <;> rename_i hsl
    · rfl
    · rw [lp]
  refine ⟨⟨⟨elsewhere_trans (elsewhere_modCell ..) (advance_elsewhere ..), ?_, ?_⟩, by simp [State.modCell, State.setCell],
    by simp [State.modCell, State.setCell], ⟨?_, ?_, ?_⟩, ?_⟩, ?_, ?_, ?_⟩
  · rw [hm, hc]; simp only [hn]
  · rw [hm, hc]
  · intro a; simp [State.modCell, State.setCell]
  · intro a; simp [State.modCell, State.setCell]
  · intro c a
    by_cases hcc : c = s.sched.cur
    · subst hcc; rw [hc, hf]; rfl
    · rw [(advance_elsewhere ..).cells _ hcc, cell_modCell_ne _ _ hcc]
  · unfold SameUnits; rw [hm, hc]; rw [hf]
  · rw [hm, hc]; simp only [next_g]
  · rw [hm, hc]; simp only [next_p]
  · rw [hm, hc]; simp only [next_log]

/-- A register write of latency 1 as the whole effect. -/
theorem write1_wrote (s : State) (d : Reg) (v : CellSt → Word) :
    Wrote s ((s.modCell s.sched.cur fun x => x.write1 d (v x)).advance s.sched.cur) d (v (me s)) := by
  have hf := advanced_of (s := s) (f := fun x => x.write1 d (v x)) (by
    show (me s).write1 d (v (me s)) = _
    by_cases hd : d.val = 0 <;> simp [hd, CellSt.write1, CellSt.setG])
  obtain ⟨ha, hg, hp, hl⟩ := hf
  have hgr : ∀ r, (me ((s.modCell s.sched.cur fun x => x.write1 d (v x)).advance s.sched.cur)).greg r
      = ((me s).setG d (v (me s))).greg r := by
    intro r
    unfold CellSt.greg
    rw [hg]
    by_cases hd : d.val = 0 <;> simp [hd, CellSt.write1, CellSt.setG]
  refine ⟨⟨?_, ?_, ?_, ?_⟩, ha⟩
  · unfold CellSt.gval
    rw [hgr, greg_setG]
    by_cases hd : d.val = 0
    · simp [hd, CellSt.greg]
    · simp [hd, GReg.of]
  · intro r hr; rw [hgr, greg_setG]; simp [hr]
  · rw [hp]; by_cases hd : d.val = 0 <;> simp [hd, CellSt.write1, CellSt.setG]
  · rw [hl]; by_cases hd : d.val = 0 <;> simp [hd, CellSt.write1, CellSt.setG]

/-- An instruction whose one effect is a register write of latency 1. -/
theorem writeOp_ready {s : State} {i : Instr} {g : Guard} {srcs : List Reg} {d : Reg} {cls : Option Nat}
    {v : CellSt → Word} (h : Ready s i g srcs) (hi : NoInjection s) :
    ∃ t, s.writeOp i g srcs d cls v = .next t ∧ Wrote s t d (v (me s)) := by
  refine ⟨_, ?_, write1_wrote s d v⟩
  have hn : ¬(d.val ≠ 0 ∧ (s.cell s.sched.cur).injects cls = true) := by
    have := injects_none hi cls
    simp only [me] at this
    simp [this]
  rw [State.writeOp, issueAs_ready h]
  simp only [hn, if_false]

/-- An instruction whose one effect is a predicate write of latency 1. -/
theorem predOp_ready {s : State} {i : Instr} {g : Guard} {srcs : List Reg} {k : Pred} {b : CellSt → Bool}
    (h : Ready s i g srcs) : ∃ t, s.predOp i g srcs k b = .next t ∧ WroteP s t k (b (me s)) := by
  refine ⟨_, issueAs_ready h _, ?_⟩
  have hf := advanced_of (s := s) (f := fun x => x.pwrite1 k (b x)) (by
    show (me s).pwrite1 k (b (me s)) = _
    by_cases hk : k.val = 0 <;> simp [CellSt.pwrite1, CellSt.setP, hk])
  obtain ⟨ha, hg, hp, hl⟩ := hf
  have hpv : ∀ j, (me ((s.modCell s.sched.cur fun x => x.pwrite1 k (b x)).advance s.sched.cur)).pval j
      = ((me s).setP k (b (me s))).pval j := by
    intro j; unfold CellSt.pval; rw [hp]; rfl
  refine ⟨?_, ?_, ?_, ?_, ha⟩
  · rw [hpv, pval_setP]; by_cases hk : k.val = 0 <;> simp [hk, CellSt.pval]
  · intro j hj; rw [hpv, pval_setP]; simp [hj]
  · rw [hg]; by_cases hk : k.val = 0 <;> simp [CellSt.pwrite1, CellSt.setP, hk]
  · rw [hl]; by_cases hk : k.val = 0 <;> simp [CellSt.pwrite1, CellSt.setP, hk]

/-- An instruction that records itself in the operand log. -/
theorem logOp_ready {s : State} {i : Instr} {g : Guard} {srcs : List Reg} {dest : BitVec 6} {lat : Nat}
    {a b k : CellSt → GReg} {r : CellSt → Word × Flags} (h : Ready s i g srcs) (hl : (me s).logFull = false) :
    ∃ t, s.logOp i g srcs dest lat a b k r = .next t ∧ Logged s t dest lat (r (me s)).1 (r (me s)).2 := by
  refine ⟨_, issueAs_ready h _, ?_⟩
  have h8 : (s.cell s.sched.cur).logFull = false := hl
  simp only [h8]
  obtain ⟨ha, hg, hp, hlg⟩ := advanced_of (s := s)
    (f := fun x => x.pushLog { word := wordOf i, pcw := x.seq.pc, srcA := a x, srcB := b x, srcC := k x, dest := dest,
                               remain := lat, val := (r x).1, flags := (r x).2 }) (by simp [CellSt.pushLog])
  exact ⟨⟨⟨_, hlg, rfl, rfl, rfl, rfl, rfl, rfl, rfl⟩, hg, hp⟩, ha⟩

end Sys2Proof.Laws
end

