-- ==== Sys2Proof/Laws/Control.lean ====
section
/-! SUPPORT. What the ends of an instruction's issue do: a transfer taken or not, a word whose guard is false, the entry
into a trap, and the steps at loop ends. -/

namespace Sys2Proof.Laws

open Sys2Proof Sys2Proof.Machine Sys2Proof.Safety

/-- A change of one cell that leaves its scratchpad, and memory, leaves every byte. -/
theorem sameBytes_of {s t : State} (c : Nat) (hm : t.mem = s.mem) (hc : ∀ n, n ≠ c → t.cell n = s.cell n)
    (hs : (t.cell c).spad = (s.cell c).spad) : SameBytes s t := by
  refine ⟨by simp [hm], by simp [hm], ?_⟩
  intro n a
  by_cases h : n = c
  · subst h; rw [hs]
  · rw [hc n h]

/-- The issuing cell after a change of it. -/
theorem me_of {s t : State} {c : Nat} (h : Elsewhere c s t) (hc : s.sched.cur = c) : me t = t.cell c := by
  unfold me; rw [h.sched, hc]

/-- A word that does nothing but advance, traced or not. -/
theorem advance_of_trace (s u : State) (hu : TraceOnly s.sched.cur s u) :
    Advanced s (u.advance s.sched.cur) ∧ KeptRegs s (u.advance s.sched.cur) := by
  obtain ⟨h1, h2, h3, h4⟩ := advance_spec u s.sched.cur
  have ee := elsewhere_trans hu.elsewhere h1
  have hme := me_of ee rfl
  rw [hu.cell] at h4
  dsimp only at h4
  refine ⟨⟨⟨ee, ?_, ?_⟩, h2.trans hu.mem, h3.trans hu.disp, ?_, ?_⟩, ⟨?_, ?_, ?_⟩⟩
  · rw [hme, h4]; rfl
  · rw [hme, h4]
  · exact sameBytes_of s.sched.cur (h2.trans hu.mem) ee.cells (by rw [h4])
  · unfold SameUnits; rw [hme, h4]; rfl
  · rw [hme, h4]; dsimp only; rw [next_g]; rfl
  · rw [hme, h4]; dsimp only; rw [next_p]; rfl
  · rw [hme, h4]; dsimp only; rw [next_log]; rfl

/-- R291: what a taken transfer does. -/
theorem take_cell (s : State) (c : Nat) (a : VAddr) :
    (s.take c a).cell c = { s.cell c with
      seq := (s.cell c).seq.taken a, freeze := .none, hold := [], issued := true, events := ((s.take c a).cell c).events } := by
  unfold State.take; rw [cell_modCell]; rfl

theorem take_else (s : State) (c : Nat) (a : VAddr) : Elsewhere c s (s.take c a) := elsewhere_modCell ..

/-- A transfer taken after a change of general registers. -/
theorem taken_of {s u : State} {a : VAddr} (h : Elsewhere s.sched.cur s u) (hm : u.mem = s.mem) (hd : u.disp = s.disp)
    (hc : u.cell s.sched.cur = { me s with
      seq := { (me s).seq with g := (u.cell s.sched.cur).seq.g }, wrote := (u.cell s.sched.cur).wrote, trace := (u.cell s.sched.cur).trace,
      events := (u.cell s.sched.cur).events }) :
    Taken s (u.take s.sched.cur a) a ∧ (me (u.take s.sched.cur a)).seq.g = (u.cell s.sched.cur).seq.g ∧
    (me (u.take s.sched.cur a)).seq.p = (me s).seq.p ∧ (me (u.take s.sched.cur a)).seq.log = (me s).seq.log := by
  have e := elsewhere_trans h (take_else u s.sched.cur a)
  have hme := me_of e rfl
  have tc := take_cell u s.sched.cur a
  refine ⟨⟨e, ?_, ?_, ?_, ?_, ?_, ?_⟩, ?_, ?_, ?_⟩
  · exact hm
  · exact hd
  · exact sameBytes_of s.sched.cur hm e.cells (by rw [tc, hc]; rfl)
  · unfold SameUnits; rw [hme, tc, hc]
  · rw [hme, tc, hc]; rfl
  · rw [hme, tc]
  · rw [hme, tc]; rfl
  · rw [hme, tc, hc]; rfl
  · rw [hme, tc, hc]; rfl

/-- R297: what a transfer that is not taken does. -/
theorem fall_spec (s : State) (c : Nat) :
    Elsewhere c s (s.fall c) ∧ (s.fall c).mem = s.mem ∧ (s.fall c).disp = s.disp ∧
    (s.fall c).cell c = { s.cell c with
      seq := (s.cell c).seq.untaken.1, freeze := .none, hold := [], issued := true,
      trace := ((s.fall c).cell c).trace, events := ((s.fall c).cell c).events } := by
  have h : TraceOnly c (s.modCell c fun x => { x with seq := (s.cell c).seq.untaken.1 }.issuedNow) (s.fall c) := by
    unfold State.fall
    exact traceOnly_trans (traceOnly_outcomes c _ _) (traceOnly_evs c _ _ _)
  refine ⟨elsewhere_trans (elsewhere_modCell ..) h.elsewhere, h.mem, h.disp, ?_⟩
  rw [h.cell]
  simp [CellSt.issuedNow, CellSt.ev]

theorem untaken_frame (q : Seq) :
    q.untaken.1 = { q with
      pc := q.untaken.1.pc, npc := q.untaken.1.npc, slot := q.untaken.1.slot,
      loops := q.untaken.1.loops, lact := q.untaken.1.lact } := by
  unfold Seq.untaken; dsimp only; rw [loopEnd_frame]

/-- R257: what a word does whose guard is false. -/
theorem skip_spec (s : State) (c : Nat) (i : Instr) :
    Elsewhere c s (s.skip c i) ∧ (s.skip c i).mem = s.mem ∧ (s.skip c i).disp = s.disp ∧
    (s.skip c i).cell c = { s.cell c with
      seq := if hasSlot i then (s.cell c).seq.untaken.1 else (s.cell c).seq.next.1, freeze := .none, hold := [], issued := true,
      trace := ((s.skip c i).cell c).trace, events := ((s.skip c i).cell c).events } := by
  have adv : ∀ u, TraceOnly c s u → Elsewhere c s (u.advance c) ∧ (u.advance c).mem = s.mem ∧ (u.advance c).disp = s.disp ∧
      (u.advance c).cell c = { s.cell c with
        seq := (s.cell c).seq.next.1, freeze := .none, hold := [], issued := true,
        trace := ((u.advance c).cell c).trace, events := ((u.advance c).cell c).events } := by
    intro u hu
    obtain ⟨h1, h2, h3, h4⟩ := advance_spec u c
    refine ⟨elsewhere_trans hu.elsewhere h1, h2.trans hu.mem, h3.trans hu.disp, ?_⟩
    rw [h4, hu.cell]
  have fal : ∀ u, TraceOnly c s u → Elsewhere c s (u.fall c) ∧ (u.fall c).mem = s.mem ∧ (u.fall c).disp = s.disp ∧
      (u.fall c).cell c = { s.cell c with
        seq := (s.cell c).seq.untaken.1, freeze := .none, hold := [], issued := true,
        trace := ((u.fall c).cell c).trace, events := ((u.fall c).cell c).events } := by
    intro u hu
    obtain ⟨h1, h2, h3, h4⟩ := fall_spec u c
    refine ⟨elsewhere_trans hu.elsewhere h1, h2.trans hu.mem, h3.trans hu.disp, ?_⟩
    rw [h4, hu.cell]
  unfold State.skip
  split
  case h_6 => exact adv _ (traceOnly_outcome ..)
  case h_7 =>
    rename_i n1 n2 n3 n4 n5 n6
    have : hasSlot i = false := by
      unfold hasSlot; split <;> simp_all
    rw [this]; exact adv _ (traceOnly_refl ..)
  all_goals exact fal _ (traceOnly_outcome ..)

/-- R81: what the entry into a trap does. -/
theorem trapEntry_spec (s : State) (c : Nat) (cause : Cause) (done reg : Bool) (slot : BitVec 2) (info : Word)
    (pc npc : VAddr) :
    let t := s.trapEntry c cause done reg slot info pc npc
    let q := (s.cell c).seq
    Elsewhere c s t ∧ t.mem = s.mem ∧ t.disp = s.disp ∧
    t.cell c = { s.cell c with
      freeze := .none, hold := [],
      seq := { q with trap := { vec := q.trap.vec, pc := pc, npc := npc, done := done, reg := reg, slot := slot, cause := cause, info := info,
                                kind := some q.slot },
                      intrap := true, pc := q.trap.vec, npc := q.trap.vec + 4, slot := .none },
      trace := (t.cell c).trace, events := (t.cell c).events } := by
  intro t q
  obtain ⟨u, hu, ht⟩ : ∃ u, TraceOnly c s u ∧ t = u.modCell c fun y =>
    { y with freeze := .none, hold := [], seq := { y.seq with
        trap := { vec := y.seq.trap.vec, pc := pc, npc := npc, done := done, reg := reg, slot := slot, cause := cause, info := info,
                  kind := some y.seq.slot }
        intrap := true, pc := y.seq.trap.vec, npc := y.seq.trap.vec + 4, slot := .none } } :=
    ⟨_, traceOnly_trans (traceOnly_emit ..) (traceOnly_emit ..), rfl⟩
  refine ⟨?_, ?_, ?_, ?_⟩
  · rw [ht]; exact elsewhere_trans hu.elsewhere (elsewhere_modCell ..)
  · rw [ht]; exact hu.mem
  · rw [ht]; exact hu.disp
  · rw [ht, cell_modCell, hu.cell]

/-- R81: a cause that is taken after its instruction, vectored. -/
theorem raiseDone_spec (s : State) (c : Nat) (i : Instr) (cause : Cause) (info : Word) :
    let t := s.raiseDone c i cause false 0 info
    let q := (s.cell c).seq
    (q.trap.vec ≠ 0 → q.intrap = false → Elsewhere c s t ∧ t.mem = s.mem ∧ t.disp = s.disp ∧
      t.cell c = { s.cell c with
        freeze := .none, hold := [], issued := true,
        seq := { q.next.1 with
          trap := { vec := q.trap.vec, pc := q.pc, npc := q.next.1.pc, done := true, reg := false, slot := 0, cause := cause, info := info,
                    kind := some .none },
          intrap := true, pc := q.trap.vec, npc := q.trap.vec + 4, slot := .none },
        trace := (t.cell c).trace, events := (t.cell c).events }) := by
  intro t q h1 h2
  obtain ⟨k1, k2, k3, k4⟩ := advance_spec s c
  have hv : ((s.advance c).cell c).vectored = true := by
    unfold CellSt.vectored; rw [k4]; dsimp only; rw [next_frame]; dsimp only
    show (q.trap.vec != 0 && !q.intrap) = true
    simp only [bne_iff_ne, ne_eq, Bool.and_eq_true, Bool.not_eq_true', h2, and_true]; exact h1
  have ht : t = (s.advance c).trapEntry c cause true false 0 info (s.cell c).seq.pc ((s.advance c).cell c).seq.pc := by
    show State.raiseDone _ _ _ _ _ _ _ = _
    unfold State.raiseDone; simp only [hv, if_true]
  obtain ⟨e1, e2, e3, e4⟩ := trapEntry_spec (s.advance c) c cause true false 0 info (s.cell c).seq.pc ((s.advance c).cell c).seq.pc
  rw [ht]
  refine ⟨elsewhere_trans k1 e1, e2.trans k2, e3.trans k3, ?_⟩
  have nx : (s.cell c).seq.next.1.trap.vec = q.trap.vec := by rw [next_frame]
  have sl : (s.cell c).seq.next.1.slot = .none := next_slot _
  rw [e4, k4]; dsimp only; rw [nx, sl]

/-- R296: one level of the loop-end step. -/
theorem loopEnd_succ (q : Seq) (a : VAddr) (k : Fin 4) : q.loopEnd a (k.val + 1) =
    let l := q.loops[k.val]
    if q.lact.getLsbD k.val && l.le == a then
      let q' := { q with loops := q.loops.set k.val { l with lc := l.lc - 1 } }
      if l.lc - 1 ≠ 0 then (q', some l.lb, [true])
      else
        let r := ({ q' with lact := setBit q'.lact k.val false }).loopEnd a k.val
        (r.1, r.2.1, false :: r.2.2)
    else q.loopEnd a k.val := by
  match k with
  | 0 => rfl
  | 1 => rfl
  | 2 => rfl
  | 3 => rfl

/-- R296: where no active level ends. -/
theorem loopEnd_none (a : VAddr) (n : Nat) : ∀ q : Seq,
    (∀ j : Fin 4, j.val < n → q.lact.getLsbD j.val = true → (q.loops[j.val]).le ≠ a) → n ≤ 4 →
    q.loopEnd a n = (q, none, []) := by
  induction n with
  | zero => intros; rfl
  | succ n ih =>
    intro q h hn
    rw [loopEnd_succ q a ⟨n, by omega⟩]
    dsimp only
    rw [if_neg]
    · exact ih q (fun j hj => h j (by omega)) (by omega)
    · have := h ⟨n, by omega⟩ (by simp)
      simpa using this

theorem setBit_false (v : BitVec 4) (k j : Fin 4) :
    (setBit v k.val false).getLsbD j.val = (decide (j ≠ k) && v.getLsbD j.val) := by
  revert v k j; decide

/-- R296: where one active level ends. -/
theorem loopEnd_one (a : VAddr) (k : Fin 4) (q : Seq) (hk : q.lact.getLsbD k.val = true) (he : (q.loops[k.val]).le = a)
    (ho : ∀ j : Fin 4, j ≠ k → q.lact.getLsbD j.val = true → (q.loops[j.val]).le ≠ a) (n : Nat) (hn : n ≤ 4) (hkn : k.val < n) :
    q.loopEnd a n =
      let l := q.loops[k.val]
      let q' := { q with loops := q.loops.set k.val { l with lc := l.lc - 1 } }
      if l.lc - 1 ≠ 0 then (q', some l.lb, [true]) else ({ q' with lact := setBit q.lact k.val false }, none, [false]) := by
  induction n with
  | zero => omega
  | succ n ih =>
    rw [loopEnd_succ q a ⟨n, by omega⟩]
    by_cases hnk : n = k.val
    · subst hnk
      dsimp only
      rw [if_pos (by simp [hk, he])]
      split
      · rfl
      · rename_i h
        rw [loopEnd_none]
        · intro j hj h1 h2
          dsimp only at h1 h2
          have hjk : j ≠ k := by rintro rfl; omega
          rw [setBit_false] at h1
          simp [hjk] at h1
          refine ho j hjk h1 ?_
          have : k.val ≠ j.val := fun h => hjk (Fin.ext h.symm)
          simpa [Vector.getElem_set, this] using h2
        · omega
    · dsimp only
      rw [if_neg]
      · exact ih (by omega) (by omega)
      · have := ho ⟨n, by omega⟩ (fun h => hnk (by rw [← h]))
        simpa using this

/-- R296: a level that does not end at the word. -/
theorem loopEnd_keep (a : VAddr) (j : Fin 4) (n : Nat) : ∀ q : Seq, (q.loops[j.val]).le ≠ a → n ≤ 4 →
    (q.loopEnd a n).1.loops[j.val] = q.loops[j.val] ∧ (q.loopEnd a n).1.lact.getLsbD j.val = q.lact.getLsbD j.val := by
  induction n with
  | zero => intros; exact ⟨rfl, rfl⟩
  | succ n ih =>
    intro q h hn
    rw [loopEnd_succ q a ⟨n, by omega⟩]
    dsimp only
    split
    · rename_i hc
      have hjn : j.val ≠ n := by
        intro hj
        simp only [Bool.and_eq_true, beq_iff_eq] at hc
        apply h
        have : j = ⟨n, by omega⟩ := Fin.ext hj
        rw [this]; exact hc.2
      have hl : (q.loops.set n { q.loops[n] with lc := q.loops[n].lc - 1 })[j.val] = q.loops[j.val] := by
        rw [Vector.getElem_set]; simp [Ne.symm hjn]
      split
      · exact ⟨hl, rfl⟩
      · have hb : (setBit q.lact n false).getLsbD j.val = q.lact.getLsbD j.val := by
          have := setBit_false q.lact ⟨n, by omega⟩ j
          simp only at this; rw [this]
          have : j ≠ (⟨n, by omega⟩ : Fin 4) := fun h => hjn (by rw [h])
          simp [this]
        obtain ⟨i1, i2⟩ := ih { q with loops := q.loops.set n { q.loops[n] with lc := q.loops[n].lc - 1 }, lact := setBit q.lact n false } (by dsimp only; rw [hl]; exact h) (by omega)
        exact ⟨i1.trans hl, i2.trans hb⟩
    · exact ih q h (by omega)

/-- R294: what LBRK and a re-entered LOOP leave of LACT and of the levels. -/
theorem closeLoops_lact (q : Seq) (k j : Fin 4) :
    (closeLoops q k.val).lact.getLsbD j.val = (decide (j < k) && q.lact.getLsbD j.val) := by
  unfold closeLoops; dsimp only
  generalize q.lact = v
  revert v k j; decide

theorem closeLoops_loops (q : Seq) (k j : Fin 4) :
    (closeLoops q k.val).loops[j.val] = if k ≤ j then { q.loops[j.val] with lc := 0 } else q.loops[j.val] := by
  unfold closeLoops; dsimp only
  generalize q.loops = v
  have : List.finRange 4 = [0, 1, 2, 3] := by decide
  rw [this]
  simp only [List.foldl]
  fin_cases k <;> fin_cases j <;> simp

end Sys2Proof.Laws
end

