-- ==== Sys2Proof/Laws/Memory.lean ====
section
/-! SUPPORT. A line that nothing stands before is open to the module's own access, and reading it finds nothing to correct. -/

namespace Sys2Proof.Laws

open Sys2Proof.Machine Sys2Proof.Safety

/-- Nothing stands before a line: no migration, no near-bank command, no full write queue, no copy of the host's, and it is not in
the LLS and its granules in DRAM are sound. -/
structure QuietLine (s : State) (n : Nat) : Prop where
  mig : migOf s n = none
  nb : nbBusy s n = (false, false)
  room : s.queueRoom n = true
  dir : dirFind s n = none
  lls : s.lls n = none
  low : s.gran (2 * n) = {}
  high : s.gran (2 * n + 1) = {}

theorem gate_quiet {s : State} {n : Nat} (h : QuietLine s n) (write : Bool) : s.gate n write false = .ok := by
  simp [State.gate, h.mig, lineGate, h.nb, h.dir]

theorem openLine_quiet {s : State} {n : Nat} (h : QuietLine s n) (write : Bool) (f : Nat) :
    s.openLine n write false false (f + 1) = (none, s) := by
  simp [State.openLine, State.openFrom, State.bitsRead, h.mig, h.room, State.gateFor, gate_quiet h]

theorem readLine_quiet {s : State} {n : Nat} (h : QuietLine s n) (need : BitVec 2) : s.readLine n need = (.ok (s.lineVal n), s) := by
  have k : s.soundLine n 0 = s := by simp [State.soundLine, h.lls]
  have d : s.readDram n 3 = s := by simp [State.readDram, State.readGran, State.checkDram, h.low, h.high]
  have p : s.poisonOf n = 0 := by simp [State.poisonOf, h.lls, h.low, h.high, granBits]
  unfold State.readLine
  rw [k]
  simp only [h.lls]
  rw [d]
  simp [p]

/-- A list of quiet lines is open, for a read and for a write. -/
theorem opens_quiet {s : State} (write : Bool) : ∀ l : List Nat, (∀ n ∈ l, QuietLine s n) → Opens s write l
  | [], _ => rfl
  | n :: t, h => by
    have q := h n (by simp)
    have r := opens_quiet write t fun m hm => h m (by simp [hm])
    unfold Opens State.openFor
    cases write <;> simpa [openLine_quiet q, readLine_quiet q, Opens] using r

/-- With no migration, near-bank command, host copy, LLS line or marked granule, every line is quiet. -/
theorem quiet_of {s : State} (mig : s.mem.mig = []) (nb : s.mem.nb = []) (dir : s.mem.dir = []) (lls : s.mem.lls = [])
    (gran : s.mem.gran = []) (reqs : s.mem.reqs = []) (n : Nat) : QuietLine s n :=
  ⟨by simp [migOf, mig], by simp [nbBusy, nb], by simp [State.queueRoom, State.queueLoad, reqs],
    by simp [dirFind, dir], by simp [State.lls, lls, tfind], by simp [State.gran, gran, tget], by simp [State.gran, gran, tget]⟩

end Sys2Proof.Laws
end

