-- ==== Sys2Proof/Laws/Stops.lean ====
section
/-! SUPPORT. What a report to a trap queue and the stop of a cell leave alone, and what a precise cause does. -/

namespace Sys2Proof.Laws

open Sys2Proof Sys2Proof.Machine Sys2Proof.Safety

/-- No cell, die or device time differs, and of the schedule only the list of steps. -/
structure Beside (s t : State) : Prop where
  cells : t.cells = s.cells
  dies : t.dies = s.dies
  sys : t.sys = s.sys
  cur : t.sched.cur = s.sched.cur

theorem beside_refl (s : State) : Beside s s := ⟨rfl, rfl, rfl, rfl⟩
theorem beside_trans {s t u : State} (h : Beside s t) (k : Beside t u) : Beside s u :=
  ⟨k.cells.trans h.cells, k.dies.trans h.dies, k.sys.trans h.sys, k.cur.trans h.cur⟩

theorem Beside.cell {s t : State} (h : Beside s t) (c : Nat) : t.cell c = s.cell c := by simp [State.cell, h.cells]

/-- A record for a trap queue is only kept for the end of the cycle (R216). -/
theorem beside_report (s : State) (f : Nat) (r : Record) : Beside s (s.report f r) := ⟨rfl, rfl, rfl, rfl⟩

theorem beside_fatalFor (s : State) (b : Binding) (k : Cause) : Beside s (s.fatalFor b k) := by
  unfold State.fatalFor; dsimp only; split <;> exact ⟨rfl, rfl, rfl, rfl⟩

theorem beside_kernelFatal (s : State) (c : Nat) (k : Cause) : Beside s (s.kernelFatal c k) := by
  unfold State.kernelFatal; split
  · exact beside_refl s
  · exact beside_fatalFor ..

/-- R161, R163: the stop of a cell that no stop is under way in. -/
theorem cell_stopCell (s : State) (c : Nat) (k : Cause) (h : (s.cell c).stop = none) :
    (s.stopCell c k).cell c = { s.cell c with
      restart := false, stop := some { code := k, cycle := s.sys.cycle + if (s.cell c).fired then 1 else 0 } } := by
  rw [State.stopCell, cell_modCell, h]

theorem cell_stopCell_ne (s : State) {c n : Nat} (k : Cause) (h : n ≠ c) : (s.stopCell c k).cell n = s.cell n :=
  cell_modCell_ne _ _ h

/-- R42: a log with nothing in it has nothing to land. -/
theorem runLog_nil (x : CellSt) (h : x.seq.log = []) (hf : x.fpLanded = []) : ∀ n, x.runLog (n + 1) = { x with wrote := [] } := by
  have t : ∀ y : CellSt, y.seq.log = [] → y.fpLanded = [] → y.tickLog = { y with wrote := [] } := by
    intro y hy hz
    unfold CellSt.tickLog; rw [hy]
    simp only [CellSt.tickFrom, CellSt.closeFp, hz]
    rw [← hy]
  intro n
  induction n generalizing x with
  | zero => exact t x h hf
  | succ n ih =>
    show (x.tickLog).runLog (n + 1) = _
    rw [t x h hf, ih { x with wrote := [] } h hf]

/-- R81: with no ARITH due nothing is taken before a word. -/
theorem vectorArith_none (s : State) (c : Nat) (h : (s.cell c).seq.arith = none) :
    s.vectorArith c = (none, s.modCell c fun y => { y with seq := { y.seq with arith := none } }) := by
  unfold State.vectorArith; simp only [h]

/-- R161, R181: a cause of the sequencer that goes to the trap queue, with an empty operand log and no ARITH due: the cell
stops there. -/
theorem seqFault_cell (s : State) (c : Nat) (k : Cause) (pc : VAddr) (w a : Word) (bad : Option ResBad)
    (hl : (s.cell c).seq.log = []) (hf : (s.cell c).fpLanded = []) (ha : (s.cell c).seq.arith = none)
    (hs : (s.cell c).stop = none) :
    (s.seqFault c k pc w a bad).cell c = { s.cell c with
      freeze := .none, hold := [], wrote := [], restart := false
      stop := some { code := k, cycle := s.sys.cycle + (if (s.cell c).fired then 1 else 0), atSeq := true } } ∧
    (∀ n, n ≠ c → (s.seqFault c k pc w a bad).cell n = s.cell n) ∧
    (s.seqFault c k pc w a bad).sched.cur = s.sched.cur ∧ (s.seqFault c k pc w a bad).dies = s.dies ∧
    (s.seqFault c k pc w a bad).sys = s.sys := by
  have hx : (s.modCell c fun x => x.runLog 24).cell c = { s.cell c with wrote := [] } := by
    rw [cell_modCell]; exact runLog_nil _ hl hf 23
  have hv : (s.modCell c fun x => x.runLog 24).vectorArith c =
      (none, (s.modCell c fun x => x.runLog 24).modCell c fun y => { y with seq := { y.seq with arith := none } }) :=
    vectorArith_none _ _ (by rw [hx]; exact ha)
  have e : s.seqFault c k pc w a bad =
      let v := (s.modCell c fun x => x.runLog 24).vectorArith c
      let s0 := v.2
      let r := s0.seqRecord c v.1 ({ (s0.cellRecord c k (causeClass k)) with pc := pc, opword := w, addr := a }.withBad bad)
      let s1 := (s0.report (s0.cell c).seq.id.vfid.toNat r).modCell c fun y => { y with freeze := .none, hold := [] }
      let s2 := (s1.stopCell c r.cause).modCell c fun y => { y with stop := y.stop.map fun t => { t with atSeq := true } }
      if r.cls = 0 then s2.kernelFatal c r.cause else s2 := rfl
  rw [e, hv]
  extract_lets v s0 x0 r s1 s2
  have h0 : s0.cell c = { s.cell c with wrote := [] } := by
    show (State.modCell _ _ _).cell c = _
    rw [cell_modCell, hx, ← ha]
  have n0 : ∀ n, n ≠ c → s0.cell n = s.cell n := fun n hn => by
    show (State.modCell _ _ _).cell n = _
    rw [cell_modCell_ne _ _ hn, cell_modCell_ne _ _ hn]
  have hr : r.cause = k := by
    have : (s0.cell c).seq.log = [] := by rw [h0]; exact hl
    simp only [r, State.seqRecord, this, List.find?_nil]
    cases bad <;> rfl
  have h1 : s1.cell c = { s.cell c with wrote := [], freeze := .none, hold := [] } := by
    show (State.modCell _ _ _).cell c = _
    rw [cell_modCell, (beside_report _ _ _).cell, h0]
  have n1 : ∀ n, n ≠ c → s1.cell n = s.cell n := by
    intro n hn
    show (State.modCell _ _ _).cell n = _
    rw [cell_modCell_ne _ _ hn, (beside_report _ _ _).cell, n0 n hn]
  have h2 : s2.cell c = { s.cell c with
      freeze := .none, hold := [], wrote := [], restart := false
      stop := some { code := k, cycle := s.sys.cycle + (if (s.cell c).fired then 1 else 0), atSeq := true } } := by
    show (State.modCell _ _ _).cell c = _
    rw [cell_modCell, cell_stopCell _ _ _ (by rw [h1]; exact hs), h1, hr]; rfl
  have n2 : ∀ n, n ≠ c → s2.cell n = s.cell n := by
    intro n hn
    show (State.modCell _ _ _).cell n = _
    rw [cell_modCell_ne _ _ hn, cell_stopCell_ne _ _ hn, n1 n hn]
  split
  · have kf := beside_kernelFatal s2 c r.cause
    exact ⟨by rw [kf.cell, h2], fun n hn => by rw [kf.cell, n2 n hn], kf.cur, kf.dies, kf.sys⟩
  · exact ⟨h2, n2, rfl, rfl, rfl⟩

/-! ### Draining the write-combining buffer (R120) -/

/-- Only the buffer, the cached lines, the events and the request that the sequencer waits for differ in cell `c`, and
elsewhere only the requests. -/
structure Drained (c : Nat) (s t : State) : Prop where
  cells : ∀ n, n ≠ c → t.cell n = s.cell n
  cell : t.cell c = { s.cell c with
    freeze := (t.cell c).freeze, dcache := (t.cell c).dcache, wcb := (t.cell c).wcb, events := (t.cell c).events }
  mem : t.mem = { s.mem with reqs := t.mem.reqs, nextReq := t.mem.nextReq }
  disp : t.disp = s.disp
  fns : t.fns = s.fns
  dies : t.dies = s.dies
  sys : t.sys = s.sys
  sched : t.sched = s.sched

theorem drained_refl (c : Nat) (s : State) : Drained c s s := ⟨fun _ _ => rfl, rfl, rfl, rfl, rfl, rfl, rfl, rfl⟩

theorem drained_trans {c : Nat} {s t u : State} (h : Drained c s t) (k : Drained c t u) : Drained c s u where
  cells n hn := (k.cells n hn).trans (h.cells n hn)
  cell := by rw [k.cell, h.cell]
  mem := by rw [k.mem, h.mem]
  disp := k.disp.trans h.disp
  fns := k.fns.trans h.fns
  dies := k.dies.trans h.dies
  sys := k.sys.trans h.sys
  sched := k.sched.trans h.sched

/-- A change of those fields of a cell. -/
theorem drained_modCell (s : State) (c : Nat) (f : CellSt → CellSt)
    (h : ∀ x, f x = { x with freeze := (f x).freeze, dcache := (f x).dcache, wcb := (f x).wcb, events := (f x).events }) :
    Drained c s (s.modCell c f) :=
  ⟨fun _ hn => cell_modCell_ne s f hn, by simpa using h (s.cell c), rfl, rfl, rfl, rfl, rfl, rfl⟩

theorem drained_reqs (s : State) (c : Nat) (r : Tab Req) (n : Nat) :
    Drained c s { s with mem := { s.mem with reqs := r, nextReq := n } } := ⟨fun _ _ => rfl, rfl, rfl, rfl, rfl, rfl, rfl, rfl⟩

/-- Asking again changes the requests and the one waited for. -/
theorem askAgain_spec (c tag : Nat) (asid : BitVec 16) (l : Tab Req) : ∀ s : State,
    Drained c s (s.askAgain c tag asid l) ∧ ((s.askAgain c tag asid l).cell c).wcb = (s.cell c).wcb := by
  induction l with
  | nil => exact fun s => ⟨drained_refl c s, rfl⟩
  | cons h t ih =>
    intro s
    simp only [State.askAgain]
    split
    · obtain ⟨k1, k2⟩ := ih _
      refine ⟨drained_trans (drained_trans (drained_reqs s c _ _) (drained_modCell _ c _ fun _ => rfl)) k1, k2.trans ?_⟩
      rw [cell_modCell]; rfl
    · exact ih s

theorem drainEntry_spec (s : State) (c : Nat) (e : WcbEntry) :
    Drained c s (s.drainEntry c e) ∧ ((s.drainEntry c e).cell c).wcb = (s.cell c).wcb.filter (· ≠ e) := by
  unfold State.drainEntry
  dsimp only
  obtain ⟨k1, k2⟩ := askAgain_spec c e.tag e.asid
    (s.modCell c fun x => if e.bad = 0 then x.dpatch e.tag e.mask e.data else x.ddrop e.tag).mem.reqs _
  refine ⟨drained_trans (drained_trans (drained_trans ?_ (drained_reqs _ c _ _)) (drained_modCell _ c _ fun _ => rfl)) k1, ?_⟩
  · exact drained_modCell s c _ fun x => by split <;> rfl
  · refine k2.trans ?_
    rw [cell_modCell]
    have hw : ((s.modCell c fun x => if e.bad = 0 then x.dpatch e.tag e.mask e.data else x.ddrop e.tag).cell c).wcb =
        (s.cell c).wcb := by rw [cell_modCell]; split <;> rfl
    exact congrArg (List.filter _) hw

theorem drainList_spec (c : Nat) (l : List WcbEntry) : ∀ s : State,
    Drained c s (s.drainList c l) ∧ ((s.drainList c l).cell c).wcb = (s.cell c).wcb.filter (· ∉ l) := by
  induction l with
  | nil => exact fun s => ⟨drained_refl c s, by simp [State.drainList]⟩
  | cons e t ih =>
    intro s
    obtain ⟨h1, h2⟩ := drainEntry_spec s c e
    obtain ⟨k1, k2⟩ := ih (s.drainEntry c e)
    refine ⟨drained_trans h1 k1, ?_⟩
    show (((s.drainEntry c e).drainList c t).cell c).wcb = _
    rw [k2, h2, List.filter_filter]
    apply List.filter_congr
    intro x _
    simp [Bool.and_comm]

/-- R120: every entry drains, and nothing of the machine but the requests and the cell's cached lines shows it. -/
theorem drainAll_spec (s : State) (c : Nat) : Drained c s (s.drainAll c) ∧ ((s.drainAll c).cell c).wcb = [] := by
  obtain ⟨h1, h2⟩ := drainList_spec c (s.cell c).wcb s
  exact ⟨h1, by rw [State.drainAll, h2]; simp⟩

end Sys2Proof.Laws
end

