-- ==== Sys2Proof/Tests/Slice0.lean ====
section
/-! SUPPORT. Words written out from the spec's encodings, ill-formed terms, worked examples of the spec, and for each
statement states that meet its hypotheses. -/

namespace Sys2Proof.Tests

open Sys2Proof Sys2Proof.Machine Sys2Proof.Safety

-- one theorem after another: many at once need more threads than the memory limit of a check allows
set_option Elab.async false

/-! ### Premises of the statements, evaluated -/

theorem ready {s : State} {i : Instr} {g : Guard} {l : List Reg}
    (h : (!i.isTransfer || (me s).seq.slot == .none) && i.wf && (me s).guardTrue g && ((me s).badSrc l).isNone) : Ready s i g l := by
  simp only [Bool.and_eq_true, Bool.or_eq_true, Bool.not_eq_true', beq_iff_eq, Option.isNone_iff_eq_none] at h
  obtain ⟨⟨⟨a, b⟩, c⟩, d⟩ := h
  exact ⟨fun t => a.resolve_left (by simp [t]), b, c, d⟩

theorem fires {s : State} {i : Instr} {n : Nat} {r : Row}
    (h : i.wf && ((rowCtx s r).badAddress n).isNone && (rowCtx s r).typeOk n && ((rowCtx s r).eccAt n).isNone &&
      ((rowCtx s r).badRead n).isNone) : Fires s i n r := by
  simp only [Bool.and_eq_true, Option.isNone_iff_eq_none] at h
  obtain ⟨⟨⟨⟨a, b⟩, c⟩, d⟩, e⟩ := h
  exact ⟨a, b, c, d, e⟩

theorem readable {x : CellSt} {o n : Nat}
    (h : (List.range n).all fun j => x.bankFree 2 (bankOf (o + 8 * j)) && !x.spBad (o + 8 * j)) : Readable x o n := by
  intro j hj
  simpa using List.all_eq_true.mp h j (List.mem_range.mpr hj)

/-! ### Decoding: words laid out field by field from R256 to R271 -/

theorem test_words_int :
    decode 0x06e265c0 = .ok (.add ⟨⟨true, 3⟩, 17, 6, 11, true⟩) ∧
    decode 0x057d5084 = .ok (.mulhn ⟨⟨false, 5⟩, 30, 21, 1, false⟩) ∧
    decode 0x0413fc45 = .ok (.div ⟨⟨false, 0⟩, 9, 31, 24, true⟩) ∧
    decode 0x06e26586 = .ok (.divn ⟨⟨true, 3⟩, 17, 6, 11, false⟩) ∧
    decode 0x057d50c7 = .ok (.rem ⟨⟨false, 5⟩, 30, 21, 1, true⟩) ∧
    decode 0x0413fc08 = .ok (.remn ⟨⟨false, 0⟩, 9, 31, 24, false⟩) ∧
    decode 0x06e265c1 = .ok (.sub ⟨⟨true, 3⟩, 17, 6, 11, true⟩) ∧
    decode 0x057d5082 = .ok (.mul ⟨⟨false, 5⟩, 30, 21, 1, false⟩) ∧
    decode 0x0413fc43 = .ok (.mulh ⟨⟨false, 0⟩, 9, 31, 24, true⟩) ∧
    decode 0x06e26589 = .ok (.min ⟨⟨true, 3⟩, 17, 6, 11, false⟩) ∧
    decode 0x057d50ca = .ok (.max ⟨⟨false, 5⟩, 30, 21, 1, true⟩) ∧
    decode 0x0413fc0b = .ok (.minn ⟨⟨false, 0⟩, 9, 31, 24, false⟩) ∧
    decode 0x06e265cc = .ok (.maxn ⟨⟨true, 3⟩, 17, 6, 11, true⟩) ∧
    decode 0x057d5098 = .ok (.shl ⟨⟨false, 5⟩, 30, 21, 1, false⟩) ∧
    decode 0x0413fc59 = .ok (.shr ⟨⟨false, 0⟩, 9, 31, 24, true⟩) ∧
    decode 0x06e2659a = .ok (.sar ⟨⟨true, 3⟩, 17, 6, 11, false⟩) ∧
    decode 0x057d50db = .ok (.rot ⟨⟨false, 5⟩, 30, 21, 1, true⟩) := by
  and_intros <;> rfl

theorem test_words_logic :
    decode 0x0413fc10 = .ok (.and ⟨⟨false, 0⟩, 9, 31, 24⟩) ∧
    decode 0x06e26591 = .ok (.or ⟨⟨true, 3⟩, 17, 6, 11⟩) ∧
    decode 0x057d5092 = .ok (.xor ⟨⟨false, 5⟩, 30, 21, 1⟩) ∧
    decode 0x0413fc13 = .ok (.andn ⟨⟨false, 0⟩, 9, 31, 24⟩) ∧
    decode 0x06e26020 = .ok (.clz ⟨⟨true, 3⟩, 17, 6, false⟩) ∧
    decode 0x057d5061 = .ok (.ctz ⟨⟨false, 5⟩, 30, 21, true⟩) ∧
    decode 0x0413f022 = .ok (.popc ⟨⟨false, 0⟩, 9, 31, false⟩) ∧
    decode 0x06e26063 = .ok (.bswap ⟨⟨true, 3⟩, 17, 6, true⟩) ∧
    decode 0x057d5128 = .ok (.sext ⟨⟨false, 5⟩, 30, 21, 2⟩) ∧
    decode 0x0413f0a9 = .ok (.zext ⟨⟨false, 0⟩, 9, 31, 1⟩) ∧
    decode 0x06e265be = .ok (.sel ⟨⟨true, 3⟩, 17, 6, 11, 6⟩) := by
  and_intros <;> rfl

theorem test_words_predicates :
    decode 0x094a9a45 = .ok (.cmp ⟨⟨false, 5⟩, 5, 9, 20, true, .gt⟩) ∧
    decode 0x0c065380 = .ok (.pand ⟨⟨false, 0⟩, 3, 5, 7⟩) ∧
    decode 0x0ecc2081 = .ok (.por ⟨⟨true, 3⟩, 6, 2, 1⟩) ∧
    decode 0x0d465382 = .ok (.pxor ⟨⟨false, 5⟩, 3, 5, 7⟩) ∧
    decode 0x0c0c2003 = .ok (.pnot ⟨⟨false, 0⟩, 6, 2⟩) ∧
    decode 0x36ed5f81 = .ok (.cmpi0 ⟨⟨true, 3⟩, 6, 2, 21, 0xf81⟩) ∧
    decode 0x396dff81 = .ok (.cmpi1 ⟨⟨false, 5⟩, 6, 2, 31, 0xf81⟩) := by
  and_intros <;> rfl

theorem test_words_float :
    decode 0x103c6080 = .ok (.fadd ⟨⟨false, 0⟩, 30, 6, 1, .f32⟩) ∧
    decode 0x12d35c41 = .ok (.fsub ⟨⟨true, 3⟩, 9, 21, 24, .bf16⟩) ∧
    decode 0x1163f582 = .ok (.fmul ⟨⟨false, 5⟩, 17, 31, 11, .f32⟩) ∧
    decode 0x103c60c3 = .ok (.fma ⟨⟨false, 0⟩, 30, 6, 1, .bf16⟩) ∧
    decode 0x12d35c04 = .ok (.fmin ⟨⟨true, 3⟩, 9, 21, 24, .f32⟩) ∧
    decode 0x1163f5c5 = .ok (.fmax ⟨⟨false, 5⟩, 17, 31, 11, .bf16⟩) ∧
    decode 0x10049a14 = .ok (.fcmp ⟨⟨false, 0⟩, 2, 9, 20, .f32, .gt⟩) ∧
    decode 0x16c855a0 = .ok (.fcvt ⟨⟨true, 3⟩, 4, 5, .fp32, .bf16, true⟩) := by
  and_intros <;> rfl

theorem test_words_control :
    decode 0x19400000 = .ok (.nop ⟨false, 5⟩) ∧
    decode 0x18000001 = .ok (.halt ⟨false, 0⟩) ∧
    decode 0x1ac06002 = .ok (.jmp ⟨⟨true, 3⟩, 6⟩) ∧
    decode 0x19400003 = .ok (.ret ⟨false, 5⟩) ∧
    decode 0x1800000a = .ok (.lbrk ⟨⟨false, 0⟩, 2⟩) ∧
    decode 0x1ec00000 = .ok (.yield ⟨true, 3⟩) ∧
    decode 0x1d400001 = .ok (.tret ⟨false, 5⟩) ∧
    decode 0x1c2a0002 = .ok (.trace ⟨⟨false, 0⟩, 21⟩) ∧
    decode 0x1efe1003 = .ok (.invt ⟨⟨true, 3⟩, 31, 1⟩) ∧
    decode 0x3d543003 = .ok (.loop ⟨⟨false, 5⟩, 10, 3, 3⟩) ∧
    decode 0x4801a5c3 = .ok (.trap ⟨⟨false, 0⟩, 0x1a5c3⟩) ∧
    decode 0x4ac20123 = .ok (.bkpt ⟨⟨true, 3⟩, 0x123⟩) ∧
    decode 0x597ffffa = .ok (.br ⟨⟨false, 5⟩, 0x3ffffa⟩) ∧
    decode 0x5c000155 = .ok (.call ⟨⟨false, 0⟩, 0x155⟩) := by
  and_intros <;> rfl

theorem test_words_immediates :
    decode 0x22fc6abc = .ok (.addi ⟨⟨true, 3⟩, 30, 6, 0xabc⟩) ∧
    decode 0x255357ff = .ok (.andi ⟨⟨false, 5⟩, 9, 21, 0x7ff⟩) ∧
    decode 0x2823fabc = .ok (.ori ⟨⟨false, 0⟩, 17, 31, 0xabc⟩) ∧
    decode 0x2efc67ff = .ok (.xori ⟨⟨true, 3⟩, 30, 6, 0x7ff⟩) ∧
    decode 0x3153501d = .ok (.shli ⟨⟨false, 5⟩, 9, 21, false, 29⟩) ∧
    decode 0x3023f0cd = .ok (.shri ⟨⟨false, 0⟩, 17, 31, true, 13⟩) ∧
    decode 0x32fc611d = .ok (.sari ⟨⟨true, 3⟩, 30, 6, false, 29⟩) ∧
    decode 0x4153a5c3 = .ok (.limm ⟨⟨false, 5⟩, 9, 0x1a5c3⟩) ∧
    decode 0x44220123 = .ok (.lhi ⟨⟨false, 0⟩, 17, 0x123⟩) ∧
    decode 0x4efc0013 = .ok (.crd ⟨⟨true, 3⟩, 30, 0x013⟩) ∧
    decode 0x51409013 = .ok (.cwr ⟨⟨false, 5⟩, 9, 0x013⟩) ∧
    decode 0x54220018 = .ok (.time ⟨⟨false, 0⟩, 17, 0x18⟩) ∧
    decode 0x56c1e058 = .ok (.timeSet ⟨⟨true, 3⟩, 30, 0x18⟩) := by
  and_intros <;> rfl

theorem test_words_memory :
    decode 0x615355f3 = .ok (.lds ⟨⟨false, 5⟩, 9, 21, 2, 0x1f3⟩) ∧
    decode 0x6423f45a = .ok (.sts ⟨⟨false, 0⟩, 17, 31, 2, 0x5a⟩) ∧
    decode 0x6afc61f3 = .ok (.sig ⟨⟨true, 3⟩, 30, 6, 0x1f3⟩) ∧
    decode 0x6d41505a = .ok (.pref ⟨⟨false, 5⟩, 21, 0x5a⟩) ∧
    decode 0x6c03f1f3 = .ok (.cln ⟨⟨false, 0⟩, 31, 0x1f3⟩) ∧
    decode 0x6ec4605a = .ok (.inv ⟨⟨true, 3⟩, 6, 0x5a⟩) ∧
    decode 0x71535c05 = .ok (.str ⟨⟨false, 5⟩, 9, 21, 24, 5⟩) ∧
    decode 0x74064282 = .ok (.waita ⟨⟨false, 0⟩, 3, 4, 5, .gen⟩) ∧
    decode 0x7ac7c017 = .ok (.mwc ⟨⟨true, 3⟩, 3, 28, 5, 3⟩) ∧
    decode 0x8163f9f3 = .ok (.ldg8 ⟨⟨false, 5⟩, 17, 31, 4, 0x1f3⟩) ∧
    decode 0x843c685a = .ok (.ldg16 ⟨⟨false, 0⟩, 30, 6, 4, 0x5a⟩) ∧
    decode 0x8ad359f3 = .ok (.ldg32 ⟨⟨true, 3⟩, 9, 21, 4, 0x1f3⟩) ∧
    decode 0x8d63f85a = .ok (.ldg64 ⟨⟨false, 5⟩, 17, 31, 4, 0x5a⟩) ∧
    decode 0x903c69f3 = .ok (.stg8 ⟨⟨false, 0⟩, 30, 6, 4, 0x1f3⟩) ∧
    decode 0x96d3585a = .ok (.stg16 ⟨⟨true, 3⟩, 9, 21, 4, 0x5a⟩) ∧
    decode 0x9963f9f3 = .ok (.stg32 ⟨⟨false, 5⟩, 17, 31, 4, 0x1f3⟩) ∧
    decode 0x9c3c685a = .ok (.stg64 ⟨⟨false, 0⟩, 30, 6, 4, 0x5a⟩) := by
  and_intros <;> rfl

theorem test_words_atomics :
    decode 0xa2d35583 = .ok (.amoAdd ⟨⟨true, 3⟩, 9, 21, 11, 3⟩) ∧
    decode 0xa163f08b = .ok (.amoFadd ⟨⟨false, 5⟩, 17, 31, 1, 3⟩) ∧
    decode 0xa03c6c13 = .ok (.amoMin ⟨⟨false, 0⟩, 30, 6, 24, 3⟩) ∧
    decode 0xa2d3559b = .ok (.amoMax ⟨⟨true, 3⟩, 9, 21, 11, 3⟩) ∧
    decode 0xa163f0a3 = .ok (.amoMinn ⟨⟨false, 5⟩, 17, 31, 1, 3⟩) ∧
    decode 0xa03c6c2b = .ok (.amoMaxn ⟨⟨false, 0⟩, 30, 6, 24, 3⟩) ∧
    decode 0xa2d355b3 = .ok (.amoAnd ⟨⟨true, 3⟩, 9, 21, 11, 3⟩) ∧
    decode 0xa163f0bb = .ok (.amoOr ⟨⟨false, 5⟩, 17, 31, 1, 3⟩) ∧
    decode 0xa03c6c43 = .ok (.amoXor ⟨⟨false, 0⟩, 30, 6, 24, 3⟩) ∧
    decode 0xa2d355cb = .ok (.amoSwap ⟨⟨true, 3⟩, 9, 21, 11, 3⟩) ∧
    decode 0xa163f0d3 = .ok (.cas ⟨⟨false, 5⟩, 17, 31, 1, 3⟩) ∧
    decode 0xa4000025 = .ok (.fenceAcq ⟨⟨false, 0⟩, 5⟩) ∧
    decode 0xa6c00045 = .ok (.fenceRel ⟨⟨true, 3⟩, 5⟩) ∧
    decode 0xa5400065 = .ok (.fenceFull ⟨⟨false, 5⟩, 5⟩) := by
  and_intros <;> rfl

theorem test_words_phasers :
    decode 0xa8006002 = .ok (.phReg ⟨⟨false, 0⟩, 6, 2⟩) ∧
    decode 0xaac15012 = .ok (.phDrop ⟨⟨true, 3⟩, 21, 2⟩) ∧
    decode 0xa941f020 = .ok (.phArr ⟨⟨false, 5⟩, 31⟩) ∧
    decode 0xa8006c30 = .ok (.phWait ⟨⟨false, 0⟩, 6, 24⟩) ∧
    decode 0xaafd5040 = .ok (.phAw ⟨⟨true, 3⟩, 30, 21⟩) ∧
    decode 0xa953f050 = .ok (.phQry ⟨⟨false, 5⟩, 9, 31⟩) := by
  and_intros <;> rfl

theorem test_words_regions :
    decode 0xac0ec001 = .ok (.cfg ⟨⟨false, 0⟩, 7, 0xc, 1⟩) ∧
    decode 0xaecc0013 = .ok (.launch ⟨⟨true, 3⟩, 6, 3⟩) ∧
    decode 0xad6ab015 = .ok (.launchPh ⟨⟨false, 5⟩, 21, 11, 1⟩) ∧
    decode 0xac3e0023 = .ok (.lwait ⟨⟨false, 0⟩, 31, 3⟩) ∧
    decode 0xaec00032 = .ok (.lstop ⟨⟨true, 3⟩, 2⟩) ∧
    decode 0xad464343 = .ok (.acset ⟨⟨false, 5⟩, 3, 4, 2, 1, 3⟩) ∧
    decode 0xac060151 = .ok (.csetSeed ⟨⟨false, 0⟩, 3, 2, 1⟩) ∧
    decode 0xaecc0057 = .ok (.csetTen ⟨⟨true, 3⟩, 6, 3⟩) ∧
    decode 0xad40005a = .ok (.csetClr ⟨⟨false, 5⟩, 2⟩) ∧
    decode 0xac2a1061 = .ok (.vget ⟨⟨false, 0⟩, 21, 1, 1⟩) ∧
    decode 0xaeff8071 = .ok (.vset ⟨⟨true, 3⟩, 31, 24, 1⟩) := by
  and_intros <;> rfl

theorem test_words_engines :
    decode 0xb14c0001 = .ok (.cpIn ⟨⟨false, 5⟩, 6⟩) ∧
    decode 0xb02a0002 = .ok (.cpOut ⟨⟨false, 0⟩, 21⟩) ∧
    decode 0xb2fe0003 = .ok (.cpXfr ⟨⟨true, 3⟩, 31⟩) ∧
    decode 0xb14c0004 = .ok (.cpFill ⟨⟨false, 5⟩, 6⟩) ∧
    decode 0xb02a0005 = .ok (.cpGath ⟨⟨false, 0⟩, 21⟩) ∧
    decode 0xb2fe0006 = .ok (.cpQry ⟨⟨true, 3⟩, 31⟩) ∧
    decode 0xb54c0000 = .ok (.nbZero ⟨⟨false, 5⟩, 6⟩) ∧
    decode 0xb42a0001 = .ok (.nbCopy ⟨⟨false, 0⟩, 21⟩) ∧
    decode 0xb6fe0002 = .ok (.nbRcopy ⟨⟨true, 3⟩, 31⟩) ∧
    decode 0xb54c0013 = .ok (.nbAxpy ⟨⟨false, 5⟩, 6, .bf16⟩) ∧
    decode 0xb42a0014 = .ok (.nbAdd ⟨⟨false, 0⟩, 21, .bf16⟩) ∧
    decode 0xb6fe0015 = .ok (.nbMul ⟨⟨true, 3⟩, 31, .bf16⟩) ∧
    decode 0xb54c0016 = .ok (.nbScale ⟨⟨false, 5⟩, 6, .bf16⟩) ∧
    decode 0xb42a0017 = .ok (.nbSum ⟨⟨false, 0⟩, 21, .bf16⟩) ∧
    decode 0xb6fe0018 = .ok (.nbDot ⟨⟨true, 3⟩, 31, .bf16⟩) ∧
    decode 0xb5400009 = .ok (.nbFence ⟨false, 5⟩) ∧
    decode 0xb8006580 = .ok (.qpush ⟨⟨false, 0⟩, 6, 11⟩) ∧
    decode 0xbae35081 = .ok (.qpop ⟨⟨true, 3⟩, 17, 21, 1⟩) ∧
    decode 0xb97df002 = .ok (.qroom ⟨⟨false, 5⟩, 30, 31⟩) ∧
    decode 0xbc0c0000 = .ok (.lkSend ⟨⟨false, 0⟩, 6⟩) ∧
    decode 0xbeea0001 = .ok (.lkRecv ⟨⟨true, 3⟩, 21⟩) ∧
    decode 0xbd46020a = .ok (.lkAred ⟨⟨false, 5⟩, 3, 4, .bf16⟩) ∧
    decode 0xbc13fc03 = .ok (.lkWait ⟨⟨false, 0⟩, 9, 31, 24⟩) ∧
    decode 0xbecc0004 = .ok (.lkAbort ⟨⟨true, 3⟩, 6⟩) := by
  and_intros <;> rfl

theorem test_words_rows_alu :
    decodeRow 0xaba0124230096c00 = some (.rowAdd ⟨0x55, 0x1a, 18, 0x11, 0x80, 0x4b, 6, 0, 0x0⟩) ∧
    decodeRow 0xaba0224230096c00 = some (.rowSub ⟨0x55, 0x1a, 18, 0x11, 0x80, 0x4b, 6, 0, 0x0⟩) ∧
    decodeRow 0xaba0324230096c00 = some (.rowMul ⟨0x55, 0x1a, 18, 0x11, 0x80, 0x4b, 6, 0, 0x0⟩) ∧
    decodeRow 0xaba0424230096c00 = some (.rowMulh ⟨0x55, 0x1a, 18, 0x11, 0x80, 0x4b, 6, 0, 0x0⟩) ∧
    decodeRow 0xaba0524230096c00 = some (.rowAdds ⟨0x55, 0x1a, 18, 0x11, 0x80, 0x4b, 6, 0, 0x0⟩) ∧
    decodeRow 0xaba0624230096c00 = some (.rowSubs ⟨0x55, 0x1a, 18, 0x11, 0x80, 0x4b, 6, 0, 0x0⟩) ∧
    decodeRow 0xaba0724230096c00 = some (.rowAnd ⟨0x55, 0x1a, 18, 0x11, 0x80, 0x4b, 6, 0, 0x0⟩) ∧
    decodeRow 0xaba0824230096c00 = some (.rowOr ⟨0x55, 0x1a, 18, 0x11, 0x80, 0x4b, 6, 0, 0x0⟩) ∧
    decodeRow 0xaba0924230096c00 = some (.rowXor ⟨0x55, 0x1a, 18, 0x11, 0x80, 0x4b, 6, 0, 0x0⟩) ∧
    decodeRow 0xaba0a24230096c00 = some (.rowAndn ⟨0x55, 0x1a, 18, 0x11, 0x80, 0x4b, 6, 0, 0x0⟩) ∧
    decodeRow 0xaba0b24230096c00 = some (.rowShl ⟨0x55, 0x1a, 18, 0x11, 0x80, 0x4b, 6, 0, 0x0⟩) ∧
    decodeRow 0xaba0c24230096c00 = some (.rowShr ⟨0x55, 0x1a, 18, 0x11, 0x80, 0x4b, 6, 0, 0x0⟩) ∧
    decodeRow 0xaba0d24230096c00 = some (.rowSar ⟨0x55, 0x1a, 18, 0x11, 0x80, 0x4b, 6, 0, 0x0⟩) ∧
    decodeRow 0xaba0e24230096c00 = some (.rowMin ⟨0x55, 0x1a, 18, 0x11, 0x80, 0x4b, 6, 0, 0x0⟩) ∧
    decodeRow 0xaba0f24230096c00 = some (.rowMax ⟨0x55, 0x1a, 18, 0x11, 0x80, 0x4b, 6, 0, 0x0⟩) ∧
    decodeRow 0xaba107e829696200 = some (.rowAbs ⟨0x55, 0x1a, 63, 0x41, 0x4b, 0x4b, 1, 0, 0x0⟩) ∧
    decodeRow 0xaba110a069096415 = some (.rowCmp ⟨0x55, 0x1a, 5, 0x3, 0x48, 0x4b, 2, 0, 0x15⟩) ∧
    decodeRow 0xaba120a0609fe000 = some (.rowSel ⟨0x55, 0x1a, 5, 0x3, 0x4, 0xff, 0, 0, 0x0⟩) ∧
    decodeRow 0xaba137e829696200 = some (.rowMov ⟨0x55, 0x1a, 63, 0x41, 0x4b, 0x4b, 1, 0, 0x0⟩) ∧
    decodeRow 0xaba140a0609fe000 = some (.rowPerm ⟨0x55, 0x1a, 5, 0x3, 0x4, 0xff, 0, 0, 0x0⟩) ∧
    decodeRow 0xaba150a060896400 = some (.rowPack ⟨0x55, 0x1a, 5, 0x3, 0x4, 0x4b, 2, 0, 0x0⟩) ∧
    decodeRow 0xaba160a069696201 = some (.rowUnpk ⟨0x55, 0x1a, 5, 0x3, 0x4b, 0x4b, 1, 0, 0x1⟩) ∧
    decodeRow 0xaba177e829696200 = some (.rowPopc ⟨0x55, 0x1a, 63, 0x41, 0x4b, 0x4b, 1, 0, 0x0⟩) ∧
    decodeRow 0xaba187e829696200 = some (.rowClz ⟨0x55, 0x1a, 63, 0x41, 0x4b, 0x4b, 1, 0, 0x0⟩) ∧
    decodeRow 0xaba1cfe060896000 = some (.rowPand ⟨0x55, 0x1a, 127, 0x3, 0x4, 0x4b, 0, 0, 0x0⟩) ∧
    decodeRow 0xaba1dfe060896000 = some (.rowPor ⟨0x55, 0x1a, 127, 0x3, 0x4, 0x4b, 0, 0, 0x0⟩) ∧
    decodeRow 0xaba1e02069696000 = some (.rowPnot ⟨0x55, 0x1a, 1, 0x3, 0x4b, 0x4b, 0, 0, 0x0⟩) := by
  and_intros <;> rfl

theorem test_words_rows_float_lut :
    decodeRow 0xaba2028060897604 = some (.rowFadd ⟨0x55, 0x1a, 20, 0x3, 0x4, 0x4b, 11, 0, 0x4⟩) ∧
    decodeRow 0xaba2128060897604 = some (.rowFsub ⟨0x55, 0x1a, 20, 0x3, 0x4, 0x4b, 11, 0, 0x4⟩) ∧
    decodeRow 0xaba2228060897604 = some (.rowFmul ⟨0x55, 0x1a, 20, 0x3, 0x4, 0x4b, 11, 0, 0x4⟩) ∧
    decodeRow 0xaba232806080a202 = some (.rowFma ⟨0x55, 0x1a, 20, 0x3, 0x4, 0x5, 1, 0, 0x2⟩) ∧
    decodeRow 0xaba242806080a202 = some (.rowFms ⟨0x55, 0x1a, 20, 0x3, 0x4, 0x5, 1, 0, 0x2⟩) ∧
    decodeRow 0xaba2528068696000 = some (.rowFmin ⟨0x55, 0x1a, 20, 0x3, 0x43, 0x4b, 0, 0, 0x0⟩) ∧
    decodeRow 0xaba2628068696000 = some (.rowFmax ⟨0x55, 0x1a, 20, 0x3, 0x43, 0x4b, 0, 0, 0x0⟩) ∧
    decodeRow 0xaba2728069697603 = some (.rowFabs ⟨0x55, 0x1a, 20, 0x3, 0x4b, 0x4b, 11, 0, 0x3⟩) ∧
    decodeRow 0xaba2828068696000 = some (.rowFcmp ⟨0x55, 0x1a, 20, 0x3, 0x43, 0x4b, 0, 0, 0x0⟩) ∧
    decodeRow 0xaba2928065696204 = some (.rowFcvt ⟨0x55, 0x1a, 20, 0x3, 0x2b, 0x4b, 1, 0, 0x4⟩) ∧
    decodeRow 0xaba2a28069697603 = some (.rowFsum ⟨0x55, 0x1a, 20, 0x3, 0x4b, 0x4b, 11, 0, 0x3⟩) ∧
    decodeRow 0xaba2b28069697603 = some (.rowFmaxh ⟨0x55, 0x1a, 20, 0x3, 0x4b, 0x4b, 11, 0, 0x3⟩) ∧
    decodeRow 0xaba2c28069697603 = some (.rowFrcp ⟨0x55, 0x1a, 20, 0x3, 0x4b, 0x4b, 11, 0, 0x3⟩) ∧
    decodeRow 0xaba2d28069697603 = some (.rowFrsq ⟨0x55, 0x1a, 20, 0x3, 0x4b, 0x4b, 11, 0, 0x3⟩) ∧
    decodeRow 0xaba2e28069697603 = some (.rowFexp2 ⟨0x55, 0x1a, 20, 0x3, 0x4b, 0x4b, 11, 0, 0x3⟩) ∧
    decodeRow 0xaba2f28069697603 = some (.rowFlog2 ⟨0x55, 0x1a, 20, 0x3, 0x4b, 0x4b, 11, 0, 0x3⟩) ∧
    decodeRow 0xaba300c060896003 = some (.rowLut ⟨0x55, 0x1a, 6, 0x3, 0x4, 0x4b, 0, 0, 0x3⟩) ∧
    decodeRow 0xaba310c060896003 = some (.rowLuts ⟨0x55, 0x1a, 6, 0x3, 0x4, 0x4b, 0, 0, 0x3⟩) ∧
    decodeRow 0xaba320c969696002 = some (.rowLutc ⟨0x55, 0x1a, 6, 0x4b, 0x4b, 0x4b, 0, 0, 0x2⟩) ∧
    decodeRow 0xaba340c96969603f = some (.rowConst ⟨0x55, 0x1a, 6, 0x4b, 0x4b, 0x4b, 0, 0, 0x3f⟩) ∧
    decodeRow 0xaba350c020496007 = some (.rowShfl ⟨0x55, 0x1a, 6, 0x1, 0x2, 0x4b, 0, 0, 0x7⟩) ∧
    decodeRow 0xaba360c949696021 = some (.rowIdx ⟨0x55, 0x1a, 6, 0x4a, 0x4b, 0x4b, 0, 0, 0x21⟩) := by
  and_intros <;> rfl

theorem test_words_rows_memory_array :
    decodeRow 0xaba400c8e969663f = some (.rowLd ⟨0x55, 0x1a, 6, 0x47, 0x4b, 0x4b, 3, 0, 0x3f⟩) ∧
    decodeRow 0xaba41fe8a1296181 = some (.rowSt ⟨0x55, 0x1a, 127, 0x45, 0x9, 0x4b, 0, 6, 0x1⟩) ∧
    decodeRow 0xaba420c881296401 = some (.rowLdx ⟨0x55, 0x1a, 6, 0x44, 0x9, 0x4b, 2, 0, 0x1⟩) ∧
    decodeRow 0xaba43fe8c12142c1 = some (.rowStx ⟨0x55, 0x1a, 127, 0x46, 0x9, 0xa, 1, 3, 0x1⟩) ∧
    decodeRow 0xaba440c8e969663f = some (.rowLdb ⟨0x55, 0x1a, 6, 0x47, 0x4b, 0x4b, 3, 0, 0x3f⟩) ∧
    decodeRow 0xaba4892889696000 = some (.rowWld ⟨0x55, 0x1a, 73, 0x44, 0x4b, 0x4b, 0, 0, 0x0⟩) ∧
    decodeRow 0xaba49fe969696000 = some (.rowWsw ⟨0x55, 0x1a, 127, 0x4b, 0x4b, 0x4b, 0, 0, 0x0⟩) ∧
    decodeRow 0xaba4a8e889697200 = some (.rowDot ⟨0x55, 0x1a, 71, 0x44, 0x4b, 0x4b, 9, 0, 0x0⟩) ∧
    decodeRow 0xaba4b80060896a01 = some (.rowDots ⟨0x55, 0x1a, 64, 0x3, 0x4, 0x4b, 5, 0, 0x1⟩) ∧
    decodeRow 0xaba4c0e96969601d = some (.rowAcrd ⟨0x55, 0x1a, 7, 0x4b, 0x4b, 0x4b, 0, 0, 0x1d⟩) ∧
    decodeRow 0xaba4d8c969696200 = some (.rowAcz ⟨0x55, 0x1a, 70, 0x4b, 0x4b, 0x4b, 1, 0, 0x0⟩) ∧
    decodeRow 0xaba4e8c069696004 = some (.rowAcadd ⟨0x55, 0x1a, 70, 0x3, 0x4b, 0x4b, 0, 0, 0x4⟩) ∧
    decodeRow 0xaba4f0e069697404 = some (.rowQnt ⟨0x55, 0x1a, 7, 0x3, 0x4b, 0x4b, 10, 0, 0x4⟩) := by
  and_intros <;> rfl


/-- The words that chapters 14 to 17 write out. -/
theorem test_words_of_the_chapters :
    decode 0x8c085803 = .ok (.ldg64 ⟨⟨false, 0⟩, 4, 5, 4, 3⟩) ∧ decode 0x88085002 = .ok (.ldg32 ⟨⟨false, 0⟩, 4, 5, 0, 2⟩) ∧
    decode 0x900c5bff = .ok (.stg8 ⟨⟨false, 0⟩, 6, 5, 5, 0x1ff⟩) ∧ decode 0x38329064 = .ok (.cmpi1 ⟨⟨false, 0⟩, 1, 3, 9, 100⟩) ∧
    decode 0x10085303 = .ok (.fma ⟨⟨false, 0⟩, 4, 5, 6, .f32⟩) ∧ decode 0x3c140003 = .ok (.loop ⟨⟨false, 0⟩, 10, 0, 3⟩) ∧
    decode 0x60085402 = .ok (.lds ⟨⟨false, 0⟩, 4, 5, 2, 2⟩) ∧ decode 0x64085601 = .ok (.sts ⟨⟨false, 0⟩, 4, 5, 3, 1⟩) ∧
    decode 0x70109503 = .ok (.str ⟨⟨false, 0⟩, 8, 9, 10, 3⟩) ∧ decode 0x680c5001 = .ok (.sig ⟨⟨false, 0⟩, 6, 5, 1⟩) ∧
    decode 0x74085303 = .ok (.waita ⟨⟨false, 0⟩, 4, 5, 6, .done⟩) ∧ decode 0x6c025001 = .ok (.cln ⟨⟨false, 0⟩, 5, 1⟩) ∧
    decode 0xa0085304 = .ok (.amoAdd ⟨⟨false, 0⟩, 4, 5, 6, 4⟩) ∧ decode 0xa0085354 = .ok (.cas ⟨⟨false, 0⟩, 4, 5, 6, 4⟩) ∧
    decode 0x780a8011 = .ok (.mwc ⟨⟨false, 0⟩, 5, 8, 4, 1⟩) ∧ decode 0xa4000064 = .ok (.fenceFull ⟨⟨false, 0⟩, 4⟩) ∧
    decode 0xa8005330 = .ok (.phWait ⟨⟨false, 0⟩, 5, 6⟩) ∧ decode 0xac0af000 = .ok (.cfg ⟨⟨false, 0⟩, 5, 0xf, 0⟩) ∧
    decode 0xac0c7015 = .ok (.launchPh ⟨⟨false, 0⟩, 6, 7, 1⟩) ∧ decode 0xac1092c0 = .ok (.acset ⟨⟨false, 0⟩, 8, 9, 1, 1, 0⟩) ∧
    decode 0xac0e0150 = .ok (.csetSeed ⟨⟨false, 0⟩, 7, 2, 0⟩) ∧ decode 0xb00a0005 = .ok (.cpGath ⟨⟨false, 0⟩, 5⟩) ∧
    decode 0xb40a0013 = .ok (.nbAxpy ⟨⟨false, 0⟩, 5, .bf16⟩) ∧ decode 0xb8085301 = .ok (.qpop ⟨⟨false, 0⟩, 4, 5, 6⟩) ∧
    decode 0xbc0a0302 = .ok (.lkAred ⟨⟨false, 0⟩, 5, 6, .f32⟩) ∧ decode 0x54005058 = .ok (.timeSet ⟨⟨false, 0⟩, 5, 0x18⟩) ∧
    decode 0x1c0a6003 = .ok (.invt ⟨⟨false, 0⟩, 5, 6⟩) := by
  and_intros <;> rfl

/-- The rows that chapters 18 and 19 write out. -/
theorem test_rows_of_the_chapters :
    decodeRow 0x0210124230096600 = some (.rowAdd ⟨1, 1, 18, 0x11, 0x80, 0x4b, 3, 0, 0⟩) ∧
    decodeRow 0x000110a070496422 = some (.rowCmp ⟨0, 0, 5, 3, 0x82, 0x4b, 2, 0, 0x22⟩) ∧
    decodeRow 0x022232821022b600 = some (.rowFma ⟨1, 2, 20, 0x10, 0x81, 0x15, 0xb, 0, 0⟩) ∧
    decodeRow 0x0002806020497600 = some (.rowFcmp ⟨0, 0, 3, 1, 2, 0x4b, 0xb, 0, 0⟩) ∧
    decodeRow 0x0041108070096426 = some (.rowCmp ⟨0, 4, 4, 3, 0x80, 0x4b, 2, 0, 0x26⟩) ∧
    decodeRow 0x00049fe969696000 = some (.rowWsw ⟨0, 0, 127, 0x4b, 0x4b, 0x4b, 0, 0, 0⟩) ∧
    decodeRow 0x0004890889696000 = some (.rowWld ⟨0, 0, 72, 0x44, 0x4b, 0x4b, 0, 0, 0⟩) ∧
    decodeRow 0x0044d80969696000 = some (.rowAcz ⟨0, 4, 64, 0x4b, 0x4b, 0x4b, 0, 0, 0⟩) ∧
    decodeRow 0x0214a80029696000 = some (.rowDot ⟨1, 1, 64, 1, 0x4b, 0x4b, 0, 0, 0⟩) ∧
    decodeRow 0x0264c04969696000 = some (.rowAcrd ⟨1, 6, 2, 0x4b, 0x4b, 0x4b, 0, 0, 0⟩) := by
  and_intros <;> rfl

/-- R257, R258, R260 to R265, R268: reserved codes are ILL_OP, fields outside their limits ILL_OPERAND, marked for a
transfer, and reserved rows are refused. -/
theorem test_words_refused :
    decode 0x00000000 = .illOp ∧ decode 0x7c000000 = .illOp ∧ decode 0xc0000000 = .illOp ∧ decode 0xfc000000 = .illOp ∧
    decode 0x0400001d = .illOp ∧ decode 0x06000000 = .illOperand false ∧ decode 0x0c000004 = .illOp ∧
    decode 0x1a000002 = .illOperand true ∧ decode 0x04000194 = .illOp ∧ decode 0x5a000000 = .illOperand true ∧
    decodeRow 0x0000000000000000 = none ∧ decodeRow 0x0000196969696000 = none ∧ decodeRow 0x0005096969696000 = none ∧
    decodeRow 0x0000194230096601 = none := by
  and_intros <;> rfl

/-! ### Ill-formed terms: one for each check of WellFormed.lean -/

theorem test_ill_formed_words :
    (Instr.add ⟨⟨true, 0⟩, 1, 2, 3, false⟩).wf = false ∧ (Instr.sext ⟨⟨false, 0⟩, 1, 2, 3⟩).wf = false ∧
    (Instr.fcvt ⟨⟨false, 0⟩, 1, 2, .fp32, .e4m3, true⟩).wf = false ∧ (Instr.shli ⟨⟨false, 0⟩, 1, 2, true, 32⟩).wf = false ∧
    (Instr.loop ⟨⟨false, 0⟩, 1, 0, 1⟩).wf = false ∧ (Instr.loop ⟨⟨false, 0⟩, 1, 0, 2048⟩).wf = false ∧
    (Instr.lhi ⟨⟨false, 0⟩, 1, 0x10000⟩).wf = false ∧ (Instr.crd ⟨⟨false, 0⟩, 1, 0x009⟩).wf = false ∧
    (Instr.cwr ⟨⟨false, 0⟩, 1, 0x022⟩).wf = false ∧ (Instr.time ⟨⟨false, 0⟩, 1, 2⟩).wf = false ∧
    (Instr.timeSet ⟨⟨false, 0⟩, 1, 1⟩).wf = false ∧ (Instr.mwc ⟨⟨false, 0⟩, 1, 30, 4, 3⟩).wf = false ∧
    (Instr.mwc ⟨⟨false, 0⟩, 1, 2, 0, 3⟩).wf = false ∧ (Instr.ldg8 ⟨⟨false, 0⟩, 1, 2, 6, 0⟩).wf = false ∧
    (Instr.cas ⟨⟨false, 0⟩, 1, 2, 3, 6⟩).wf = false ∧ (Instr.fenceAcq ⟨⟨false, 0⟩, 0⟩).wf = false ∧
    (Instr.phReg ⟨⟨false, 0⟩, 1, 3⟩).wf = false := by
  and_intros <;> rfl

theorem test_ill_formed_rows :
    -- a reserved destination, one of another class, a reserved source, a source that the row does not read
    (Instr.rowAdd ⟨0, 0, 74, 1, 2, 0x4b, 3, 0, 0⟩).wf = false ∧ (Instr.rowDot ⟨0, 0, 63, 1, 0x4b, 0x4b, 0, 0, 0⟩).wf = false ∧
    (Instr.rowAdd ⟨0, 0, 1, 0x4c, 2, 0x4b, 3, 0, 0⟩).wf = false ∧ (Instr.rowAdd ⟨0, 0, 1, 1, 2, 3, 3, 0, 0⟩).wf = false ∧
    -- MOD and AUX outside their values, a width that PACK has not, a guard on a row that takes none, guard 4
    (Instr.rowAdd ⟨0, 0, 1, 1, 2, 0x4b, 8, 0, 0⟩).wf = false ∧ (Instr.rowAdd ⟨0, 0, 1, 1, 2, 0x4b, 3, 0, 1⟩).wf = false ∧
    (Instr.rowPack ⟨0, 0, 1, 1, 2, 0x4b, 3, 0, 0⟩).wf = false ∧ (Instr.rowAdd ⟨0, 0, 1, 1, 2, 0x4b, 3, 1, 0⟩).wf = false ∧
    (Instr.rowSt ⟨0, 0, 127, 0x44, 1, 0x4b, 3, 4, 0⟩).wf = false ∧
    -- NS of FCVT with a target that R59 does not name, a memory operand where none may stand, LD without one
    (Instr.rowFcvt ⟨0, 0, 1, 1, 0x1b, 0x4b, 2, 0, 0⟩).wf = false ∧ (Instr.rowAdd ⟨0, 0, 1, 0x44, 2, 0x4b, 3, 0, 0⟩).wf = false ∧
    (Instr.rowLd ⟨0, 0, 1, 1, 0x4b, 0x4b, 3, 0, 0⟩).wf = false := by
  and_intros <;> rfl

/-! ### Small states -/

/-- Cell 0 alone, its sequencer issuing. -/
def one (x : CellSt) : State := { State.reset with cells := [(0, x)], sched := {} }
/-- A cell with some general registers written. -/
def withG (l : List (Reg × Word)) : CellSt := l.foldl (fun x p => x.setG p.1 p.2) {}
/-- The state that an instruction leaves, or the default. -/
def out (o : Out) : State := match o with | .next t => t | _ => {}
/-- Cell 0 after an instruction. -/
def after (i : Instr) (x : CellSt) : CellSt := (out (exec i (one x))).cell 0
/-- The guard (p0). -/
def always : Guard := ⟨false, 0⟩

/-! ### Worked examples of the spec, and corners of its rules -/

/-- R283: the constant 0x0123456789abcdef (chapter 15). -/
theorem test_constant :
    (after (.limm ⟨always, 4, 0x0123⟩) {}).gval 4 = 0x0123 ∧
    (after (.lhi ⟨always, 4, 0x89ab⟩) (withG [(4, 0x01234567)])).gval 4 = 0x0123456789ab := by decide +kernel

/-- R280: the examples of chapter 15. -/
theorem test_divides :
    (after (.div ⟨always, 1, 2, 3, false⟩) (withG [(2, -7), (3, 2)])).seq.log.map (·.val) = [-3] ∧
    (after (.rem ⟨always, 1, 2, 3, false⟩) (withG [(2, -7), (3, 2)])).seq.log.map (·.val) = [-1] ∧
    (after (.div ⟨always, 1, 2, 3, false⟩) (withG [(2, 7)])).seq.log.map (·.val) = [-1] ∧
    (after (.remn ⟨always, 1, 2, 3, false⟩) (withG [(2, 7)])).seq.log.map (·.val) = [7] ∧
    (after (.div ⟨always, 1, 2, 3, false⟩) (withG [(2, 0x8000000000000000), (3, -1)])).seq.log.map (·.val)
      = [0x8000000000000000] ∧
    (after (.div ⟨always, 1, 2, 3, true⟩) (withG [(2, 0x0000000500000006), (3, 4)])).seq.log.map (·.val) = [1] ∧
    (after (.divn ⟨always, 1, 2, 3, true⟩) (withG [(2, 0xfffffffe), (3, 1)])).seq.log.map (·.val) = [0xfffffffffffffffe] := by
  decide +kernel

/-- R278, R279: a sum that wraps, its 32-bit form, a source that is the destination, g0 as the destination. -/
theorem test_add :
    (after (.add ⟨always, 7, 7, 8, false⟩) (withG [(7, -1), (8, 2)])).gval 7 = 1 ∧
    (after (.add ⟨always, 7, 7, 8, true⟩) (withG [(7, 0x7fffffff), (8, 1)])).gval 7 = 0xffffffff80000000 ∧
    (after (.add ⟨always, 0, 7, 8, false⟩) (withG [(7, 3), (8, 1)])).gval 0 = 0 := by decide +kernel

/-- R279: shift counts are taken modulo the width, and the order of the sources of ANDN and SUB. -/
theorem test_shifts_and_logic :
    (after (.shl ⟨always, 1, 2, 3, false⟩) (withG [(2, 1), (3, 65)])).gval 1 = 2 ∧
    (after (.sar ⟨always, 1, 2, 3, true⟩) (withG [(2, 0x80000000), (3, 31)])).gval 1 = -1 ∧
    (after (.andn ⟨always, 1, 2, 3⟩) (withG [(2, 0xff), (3, 0x0f)])).gval 1 = 0xf0 ∧
    (after (.sub ⟨always, 1, 2, 3, false⟩) (withG [(2, 1), (3, 3)])).gval 1 = -2 := by decide +kernel

/-- R285: CMPI.LTN against −1 is true for every value but the largest (chapter 15). -/
theorem test_compare_immediate :
    (after (.cmpi1 ⟨always, 1, 0, 4, 0xfff⟩) (withG [(4, -2)])).pval 1 = true ∧
    (after (.cmpi1 ⟨always, 1, 0, 4, 0xfff⟩) (withG [(4, -1)])).pval 1 = false := by decide +kernel

/-- R60: FCVT.BF16.F32 of 0x3f808000 under RNE is 0x3f80 (chapter 15). -/
theorem test_convert :
    (after (.fcvt ⟨always, 4, 5, .fp32, .bf16, false⟩) (withG [(5, 0x3f808000)])).seq.log.map (fun e => (e.val, e.remain))
      = [(0x3f80, 4)] := by decide +kernel

/-- R52, R287: 1.5 + 2.25 in FP32, and a NaN operand without a flag. -/
theorem test_float_add :
    (after (.fadd ⟨always, 1, 2, 3, .f32⟩) (withG [(2, 0x3fc00000), (3, 0x40100000)])).seq.log.map (fun e => (e.val, e.flags))
      = [(0x40700000, 0)] ∧
    (after (.fadd ⟨always, 1, 2, 3, .f32⟩) (withG [(2, 0x7f800001), (3, 0x40100000)])).seq.log.map (fun e => (e.val, e.flags))
      = [(0x7fc00000, 0)] := by decide +kernel

/-- R291, R292: a taken branch six words back, and the slot before it. -/
theorem test_branch :
    let x := after (.br ⟨always, 0x3ffffa⟩) { seq := { pc := 0x1018, npc := 0x101c } }
    x.seq.pc = 0x101c ∧ x.seq.npc = 0x1000 ∧ x.seq.slot = .taken := by decide +kernel

/-- R81, R340: TRAP 5 with a handler. -/
theorem test_trap :
    let x := after (.trap ⟨always, 5⟩) { seq := { pc := 0x1000, npc := 0x1004, trap := { vec := 0x2000 } } }
    x.seq.pc = 0x2000 ∧ x.seq.intrap = true ∧ x.seq.trap.info = 5 ∧ x.seq.trap.pc = 0x1000 ∧ x.seq.trap.npc = 0x1004 := by
  decide +kernel

/-- R108, R303: STS writes its bytes little-endian. -/
theorem test_store :
    mread (after (.sts ⟨always, 6, 5, 2, 2⟩) (withG [(5, 0x1000000000000100), (6, 0xaabbccdd)])).spad 0x108 4
      = [0xdd, 0xcc, 0xbb, 0xaa] := by decide +kernel

/-- Region slot 0 running on PE 0, with two of the PE's registers. -/
def rowState (a b : Word) (rows : List (BitVec 64) := []) : State :=
  let e : PE := { v := ((Vector.replicate 64 ({} : FVal)).set 1 (FVal.of a)).set 2 (FVal.of b), rows := rows }
  one { region := (Vector.replicate 4 ({} : Region)).set 0 { conf := true, peset := 1, s := 0, ii := 8, rn := 1, state := .running }
        pe := (Vector.replicate 4 ({} : PE)).set 0 e }
/-- What the row put into the last landing slot. -/
def landed (o : Out) : Option (Payload × Nat) := (((out o).cell 0).pe[0].slots.getLast?).map fun l => (l.pay, l.remain)

/-- R355: PACK.I16 of 0x000123450000ff80 and 0 (chapter 18). -/
theorem test_pack : landed (exec (.rowPack ⟨0, 0, 3, 1, 2, 0x4b, 1, 0, 0⟩) (rowState 0x000123450000ff80 0))
    = some (.reg (FVal.of 0x000000002345ff80), 1) := by decide +kernel

/-- R360: FCVT.E4M3.F32 of 300.0 and 500.0, low and high (chapter 18). -/
theorem test_row_convert :
    landed (exec (.rowFcvt ⟨0, 0, 3, 1, 0x0b, 0x4b, 2, 0, 0⟩) (rowState 0x43fa000043960000 0))
      = some (.reg { FVal.of 0x7e79 with flags := 2 }, 2) ∧
    landed (exec (.rowFcvt ⟨0, 0, 3, 1, 0x2b, 0x4b, 2, 0, 0⟩) (rowState 0x43fa000043960000 0))
      = some (.reg { FVal.of 0x7e79000000000000 with flags := 2 }, 2) := by decide +kernel

/-- R358: FCMP.F32 of (−1.0, NaN) and (2.5, 3.0) (chapter 18). -/
theorem test_row_compare : landed (exec (.rowFcmp ⟨0, 0, 3, 1, 2, 0x4b, 0xb, 0, 0⟩) (rowState 0x7fc00000bf800000 0x4040000040200000))
    = some (.reg (FVal.of 0x0000000800000002), 4) := by decide +kernel

/-! ### States that meet the hypotheses of the statements, clause by clause -/

theorem witness_sequencerRoundTrip : (Instr.add ⟨⟨true, 7⟩, 31, 31, 31, true⟩).wf = true ∧
    encode (.add ⟨⟨true, 7⟩, 31, 31, 31, true⟩) = some 0x07ffffc0 := by
  and_intros <;> decide +kernel

theorem witness_rowRoundTrip : (Instr.rowSt ⟨127, 31, 127, 0x47, 0x43, 0xff, 3, 7, 63⟩).wf = true ∧
    encodeRow (.rowSt ⟨127, 31, 127, 0x47, 0x43, 0xff, 3, 7, 63⟩) = some 0xfff41fe8e87fe7ff := by
  and_intros <;> decide +kernel

theorem witness_oneMeaningEach :
    decode 0x1bc00000 = .ok (.nop ⟨true, 7⟩) ∧ decodeRow 0x00049fe969696000 = some (.rowWsw ⟨0, 0, 127, 0x4b, 0x4b, 0x4b, 0, 0, 0⟩) ∧
    (∀ w ∈ [(0 : BitVec 32), 0x03ffffff, 0x7fffffff, 0xc0000000, 0xffffffff],
      w.toNat / 2 ^ 26 = 0 ∨ w.toNat / 2 ^ 26 = 0x1f ∨ 0x30 ≤ w.toNat / 2 ^ 26) ∧
    (0x1a000000 : BitVec 32).toNat / 2 ^ 22 % 16 = 8 := by
  simp only [List.forall_mem_cons, List.not_mem_nil, IsEmpty.forall_iff, implies_true, and_true]
  and_intros <;> decide +kernel

/-- The machine of withFetchWord, its next word NOP. -/
def fetching (w : Nat) : State := State.reset.withFetchWord 32 w

theorem witness_stepRunsTheDecodedWord :
    let s := fetching 0x18000000
    let x := s.cell 0
    s.sched.tasks = [.issue 0] ∧ x.bound.isSome = true ∧ x.halted = false ∧ x.replay = false ∧ x.stop = none ∧
    x.causeDue = false ∧ x.deadlineHolds = false ∧ x.seq.log.all (fun e => e.phase.isNone) = true ∧ x.freeze = .none ∧ x.inImage x.seq.pc = true ∧
    (∃ l, x.ifind (vline (x.seq.pc.setWidth 64)) = some l ∧ l.parityBad = false ∧
      decode (lineWord l.data x.seq.pc) = .ok (.nop always)) := by
  and_intros <;> decide +kernel

/-- A cell frozen at a word, in a delay slot if `sl` says so. -/
def frozenAt (w : BitVec 32) (sl : SlotKind) : State :=
  { one { opword := w, freeze := .wait, bound := some ⟨0, 0, 0, 0⟩, seq := { slot := sl } } with sched := { tasks := [.issue 0] } }

theorem witness_stepOfATakenWord :
    (∀ w sl, let s := frozenAt w sl
      let x := s.cell 0
      s.sched.tasks = [.issue 0] ∧ x.bound.isSome = true ∧ x.halted = false ∧ x.replay = false ∧ x.stop = none ∧
      x.causeDue = false ∧ x.seq.log.all (fun e => e.phase.isNone) = true ∧ x.freeze.inWord = true ∧ x.opword = w) ∧
    decode 0x18000000 = .ok (.nop always) ∧ decode 0xffffffff = .illOp ∧ decode 0x1a000002 = .illOperand true ∧
    decode 0x0c000183 = .illOperand false := by
  refine ⟨fun w sl => ?_, rfl, rfl, rfl, rfl⟩
  and_intros <;> rfl

/-- A machine with one step left to make. -/
def due (t : Task) : State := { State.reset with sched := { tasks := [t] } }
/-- A record of a kind, with the byte of OP where TIMER and PHASER keep it. -/
def recOf (kind : BitVec 4) (opAt op : Nat) : Rec := { slot := 0, kind := kind, line0 := BitVec.ofNat 1024 (op * 2 ^ (8 * opAt)), age := 0 }
/-- Queue 3 of function 1 with these records, active. -/
def queued (l : List Rec) (x : Queue := {}) : State :=
  { State.reset with disp := { queues := [(qkey 1 3, { x with state := .active, ringlog := 5, recs := l })] }, sched := {} }

theorem witness_stepsInOrder :
    (∀ t ∈ [Task.event .skinkScrub, .fire {} (.rowWsw ⟨0, 0, 127, 0x4b, 0x4b, 0x4b, 0, 0, 0⟩), .endCycle], (due t).sched.tasks = [t]) ∧
    (due .endCycle).fns = [] ∧ (due .endCycle).sys.errDue = [] ∧
    (one {}).sched.tasks = [] ∧
    ∀ k : Fin 7, (({ queued [recOf (BitVec.ofNat 4 k.val) 0 0] with sched := { tasks := [.start 1 3] } }).queue 1 3).first
      = some (recOf (BitVec.ofNat 4 k.val) 0 0) := by
  simp only [List.forall_mem_cons, List.not_mem_nil, IsEmpty.forall_iff, implies_true, and_true]
  and_intros <;> decide +kernel

theorem witness_memoryStaysCanonical : MemWf State.reset ∧ ∃ t, step State.reset = .next t :=
  ⟨⟨rfl, rfl, by intro c x h; exact absurd h List.not_mem_nil⟩, _, rfl⟩

/-- Every check passes for an unguarded instruction within its limits in a cell whose registers hold their residues. -/
theorem witness_integerResults : ∀ d ∈ [(0 : Reg), 31],
    Ready (one (withG [(31, -1)])) (.sub ⟨⟨false, 0⟩, d, 31, 0, true⟩) ⟨false, 0⟩ [31, 0] ∧
    Ready (one {}) (.andn ⟨⟨true, 7⟩, d, 31, 31⟩) ⟨true, 7⟩ [31, 31] ∧ Ready (one {}) (.sel ⟨always, d, 1, 2, 7⟩) always [1, 2] ∧
    Ready (one {}) (.xori ⟨always, d, 1, 0x800⟩) always [1] ∧ Ready (one {}) (.sari ⟨always, d, 1, true, 31⟩) always [1] ∧
    Ready (one {}) (.sari ⟨always, d, 1, false, 63⟩) always [1] ∧ Ready (one {}) (.rem ⟨always, d, 1, 2, false⟩) always [1, 2] ∧
    NoInjection (one (withG [(31, -1)])) ∧ NoInjection (one {}) ∧ (me (one {})).seq.log.length < 8 := by
  simp only [List.forall_mem_cons, List.not_mem_nil, IsEmpty.forall_iff, implies_true, and_true]
  and_intros <;> first | decide +kernel | rfl | exact ready (by decide +kernel)

theorem witness_bitAndConstantResults : NoInjection (one {}) ∧
    Ready (one {}) (.clz ⟨always, 1, 2, true⟩) always [2] ∧ Ready (one {}) (.ctz ⟨always, 1, 2, false⟩) always [2] ∧
    Ready (one {}) (.popc ⟨always, 1, 2, true⟩) always [2] ∧ Ready (one {}) (.bswap ⟨always, 1, 2, true⟩) always [2] ∧
    Ready (one {}) (.sext ⟨always, 1, 2, 2⟩) always [2] ∧ Ready (one {}) (.zext ⟨always, 1, 2, 0⟩) always [2] ∧
    Ready (one {}) (.limm ⟨always, 1, 0x1ffff⟩) always [] ∧ Ready (one {}) (.lhi ⟨always, 1, 0xffff⟩) always [1] := by
  and_intros <;> first | decide +kernel | rfl | exact ready (by decide +kernel)

theorem witness_compareResults :
    Ready (one {}) (.cmp ⟨always, 0, 1, 2, true, .gtn⟩) always [1, 2] ∧ Ready (one {}) (.cmpi1 ⟨always, 7, 3, 1, 0x800⟩) always [1] ∧
    Guard.wf ⟨true, 7⟩ = true ∧ (0x0800000a : BitVec 32).toNat / 2 ^ 26 = 2 ∧ (0x0800000a : BitVec 32).toNat % 64 = 10 ∧
    (0x08100049 : BitVec 32).toNat / 2 ^ 26 = 2 ∧ (0x08100049 : BitVec 32).toNat % 64 = 9 ∧
    (0x08100049 : BitVec 32).toNat / 2 ^ 17 % 32 = 8 := by
  and_intros <;> first | decide +kernel | rfl | exact ready (by decide +kernel)

theorem witness_predicateInstructions :
    (Guard.wf ⟨true, 7⟩ = true) ∧ Ready (one {}) (.pxor ⟨always, 0, 7, 1⟩) always [] ∧ Ready (one {}) (.pnot ⟨always, 7, 7⟩) always [] ∧
    (∀ w ∈ [(0x0c000004 : BitVec 32), 0x0c00007f], w.toNat / 2 ^ 26 = 0x03 ∧ 4 ≤ w.toNat % 128) ∧
    (0x0c100000 : BitVec 32).toNat / 2 ^ 17 % 32 = 8 ∧ (0x0c008000 : BitVec 32).toNat / 2 ^ 12 % 32 = 8 ∧
    (0x0c000402 : BitVec 32).toNat / 2 ^ 7 % 32 = 8 ∧ (0x0c000083 : BitVec 32).toNat / 2 ^ 7 % 32 = 1 := by
  simp only [List.forall_mem_cons, List.not_mem_nil, IsEmpty.forall_iff, implies_true, and_true]
  and_intros <;> first | decide +kernel | rfl | exact ready (by decide +kernel)

theorem witness_injectedResults : ∀ k ∈ [(0 : BitVec 4), 1, 5, 6, 7, 8, 9],
    let s := one { seq := { errinj := { seq := true, cls := k, arm := true } } }
    (Ready s (.add ⟨always, 31, 1, 2, false⟩) always [1, 2] ∧ Ready s (.mul ⟨always, 1, 1, 2, true⟩) always [1, 2] ∧
      Ready s (.andn ⟨always, 31, 1, 2⟩) always [1, 2] ∧ Ready s (.sel ⟨always, 1, 2, 3, 7⟩) always [2, 3] ∧
      Ready s (.addi ⟨always, 1, 2, 0x800⟩) always [2] ∧ Ready s (.sari ⟨always, 1, 2, true, 31⟩) always [2] ∧
      Ready s (.bswap ⟨always, 1, 2, true⟩) always [2] ∧ Ready s (.sext ⟨always, 1, 2, 2⟩) always [2] ∧
      Ready s (.zext ⟨always, 1, 2, 0⟩) always [2] ∧ Ready s (.lhi ⟨always, 31, 0xffff⟩) always [31]) ∧
    (me s).seq.errinj.arm = true ∧ (me s).seq.errinj.seq = true ∧ (me s).seq.errinj.cls = k ∧ (me s).seq.log.length < 8 := by
  simp only [List.forall_mem_cons, List.not_mem_nil, IsEmpty.forall_iff, implies_true, and_true]
  and_intros <;> first | decide +kernel | rfl | exact ready (by decide +kernel)

theorem witness_floatResults :
    Ready (one {}) (.fma ⟨always, 1, 2, 3, .bf16⟩) always [2, 3, 1] ∧ Ready (one {}) (.fsub ⟨always, 1, 2, 3, .f32⟩) always [2, 3] ∧
    (me (one {})).seq.log.length < 8 ∧ finite (.fin true 3 (-5)) = true ∧ Fp.nan.isNan = true ∧ (Fp.fin false 0 0).isInf = false ∧
    (∀ q ∈ [({ mode := 4, draw := 2 ^ 32 - 1 } : Rounding), { mode := 0 }], q.mode ≤ 4 ∧ q.draw < 2 ^ 32) := by
  simp only [List.forall_mem_cons, List.not_mem_nil, IsEmpty.forall_iff, implies_true, and_true]
  and_intros <;> first | decide +kernel | exact ready (by decide +kernel)

theorem witness_floatPicksAndConversions :
    Ready (one {}) (.fmin ⟨always, 1, 2, 3, .bf16⟩) always [2, 3] ∧ Ready (one {}) (.fmax ⟨always, 1, 2, 3, .f32⟩) always [2, 3] ∧
    Ready (one {}) (.fcmp ⟨always, 7, 2, 3, .bf16, .un⟩) always [2, 3] ∧
    Ready (one {}) (.fcvt ⟨always, 1, 2, .n64, .e5m2, true⟩) always [2] ∧ (me (one {})).seq.log.length < 8 ∧
    (fmtF32.read false 0x7fc00000).isNan = true ∧ (fmtF32.read false 0).isNan = false ∧
    (ScalarType.e5m2, fmtE5M2) ∈ floatTypes ∧ (ScalarType.n64, 64, true) ∈ intTypes ∧ ({ mode := 3 } : Rounding).mode ≤ 3 := by
  and_intros <;> first | decide +kernel | exact ready (by decide +kernel)

theorem witness_issueChecks : let s := one { seq := { slot := .taken } }
    guard? (.br ⟨⟨true, 1⟩, 0⟩) = some ⟨true, 1⟩ ∧ guard? (.add ⟨⟨false, 1⟩, 1, 2, 3, false⟩) = some ⟨false, 1⟩ ∧
    (me (one {})).guardTrue ⟨false, 1⟩ = false ∧ (me (one {})).freeze ≠ .wait ∧ (Instr.halt always).isTransfer = true ∧ (me s).seq.slot ≠ .none ∧
    (Instr.add ⟨⟨true, 0⟩, 1, 2, 3, false⟩).wf = false ∧ (Instr.add ⟨⟨true, 0⟩, 1, 2, 3, false⟩).isTransfer = false := by
  and_intros <;> decide +kernel

theorem witness_transfers :
    Ready (one {}) (.br ⟨always, 0x200000⟩) always [] ∧ Ready (one {}) (.call ⟨always, 0x1fffff⟩) always [] ∧
    (∀ v ∈ [(0xfffffffffffc : Word), 0x1000000000000, 0xffffffffffff],
      Ready (one (withG [(31, v)])) (.ret always) always [31] ∧ Ready (one (withG [(31, v)])) (.jmp ⟨always, 31⟩) always [31] ∧
      (me (one (withG [(31, v)]))).gval 31 = v) := by
  simp only [List.forall_mem_cons, List.not_mem_nil, IsEmpty.forall_iff, implies_true, and_true]
  and_intros <;> first | decide +kernel | rfl | exact ready (by decide +kernel)

/-- Level 3 open at the word that issues, with this count. -/
def looping (n : Word) (k : Fin 4) : Seq :=
  { pc := 0x100, npc := 0x104, lact := BitVec.ofNat 4 (2 ^ k.val), loops := (Vector.replicate 4 {}).set k.val ⟨0x80, 0x100, n⟩ }

theorem witness_loopsAndNextWord :
    (∀ n, (looping n 3).slot ≠ .taken ∧ reached (looping n 3) 3 ∧ ¬reached (looping n 3) 2 ∧ ((looping n 3).loops[3]).lc = n) ∧
    Ready (one (withG [(1, 5)])) (.loop ⟨always, 1, 3, 2047⟩) always [1] ∧ Ready (one {}) (.loop ⟨always, 1, 0, 2⟩) always [1] ∧
    (Seq.lact {}).toNat < 2 ^ 0 ∧ Ready (one { seq := looping 1 0 }) (.loop ⟨always, 1, 0, 2⟩) always [1] ∧
    2 ^ 0 ≤ (looping 1 0).lact.toNat ∧ Ready (one { seq := looping 1 3 }) (.lbrk ⟨always, 3⟩) always [] ∧
    (looping 1 3).lact.getLsbD 3 = true ∧ Ready (one { seq := looping 1 3 }) (.lbrk ⟨always, 2⟩) always [] ∧
    (looping 1 3).lact.getLsbD 2 = false ∧ always.wf = true ∧ (me (one { seq := { slot := .untaken } })).seq.slot ≠ .none := by
  refine ⟨fun n => ⟨nofun, ⟨⟨by simp only [looping]; decide, rfl⟩, ?_⟩, ?_, rfl⟩, ?_⟩
  · intro j h; exact absurd h (by revert j; decide)
  · exact fun h => absurd h.1.1 (by simp only [looping]; decide)
  · and_intros <;> first | decide +kernel | exact ready (by decide +kernel)

theorem witness_nopHaltYield : let y := one { seq := { yreq := true } }
    Ready (one {}) (.nop ⟨true, 7⟩) ⟨true, 7⟩ [] ∧ Ready (one {}) (.halt always) always [] ∧ (one {}).enginesIdle 0 = true ∧
    (one {}).released 0 = true ∧ Ready (one {}) (.yield always) always [] ∧ Ready y (.yield always) always [] ∧
    (me y).seq.yreq = true ∧ (me y).seq.log = [] ∧ (me y).stop = none := by
  and_intros <;> first | decide +kernel | rfl | exact ready (by decide +kernel)

/-- A cell with a handler, inside another handler or not. -/
def handler (inside : Bool) (r : CellSt := {}) : CellSt := { r with seq := { r.seq with trap := { vec := 0x2000 }, intrap := inside } }

theorem witness_softwareTraps : Ready (one (handler false)) (.trap ⟨always, 0x1ffff⟩) always [] ∧
    Ready (one (handler true)) (.bkpt ⟨always, 0⟩) always [] ∧ (handler false).seq.trap.vec ≠ 0 ∧ (handler true).seq.intrap = true ∧
    (handler true).stop = none ∧ (handler true).seq.log = [] ∧ (handler true).fpLanded = [] ∧ (handler true).seq.arith = none := by
  and_intros <;> first | decide +kernel | exact ready (by decide +kernel)

theorem witness_preciseCausesAndReturn : (handler false).seq.trap.vec ≠ 0 ∧ (handler false).seq.intrap = false ∧
    (handler true).seq.log = [] ∧ (handler true).fpLanded = [] ∧ (handler true).seq.arith = none ∧ (handler true).stop = none ∧
    cIllOperand ≠ cMisalign ∧ cIllOperand ≠ cArith ∧ Ready (one (handler true)) (.tret always) always [] ∧
    Ready (one {}) (.tret always) always [] ∧ (∀ d, (handler true { seq := { trap := { done := d } } }).seq.intrap = true) := by
  and_intros <;> first | decide +kernel | exact ready (by decide +kernel)

theorem witness_traceAndInvalidate :
    let t := one { seq := { traceFn := true, traceEn := true, traceMark := true } }
    let s := one (withG [(1, 0xffffffffffff), (2, 1)])
    let w := one { freeze := .wait, hold := [3, 7] }
    Ready t (.trace ⟨always, 5⟩) always [5] ∧ ((me t).seq.traceFn && (me t).seq.traceEn && (me t).seq.traceMark) = true ∧
    (me t).trace.bits = [] ∧ (t.die 0).trace.length < 4096 ∧ tget 0 (t.die 0).lost 0 = 0 ∧ (me t).seq.lact = 0 ∧ Ready (one {}) (.trace ⟨always, 5⟩) always [5] ∧
    Ready s (.invt ⟨always, 1, 0⟩) always [1, 0] ∧ Ready s (.invt ⟨always, 1, 2⟩) always [1, 2] ∧
    ((me s).gval 1).toNat < 2 ^ 48 ∧ (me s).gval 2 ≠ 0 ∧ Ready s (.invt ⟨always, 1, 3⟩) always [1, 3] ∧ (me s).gval 3 = 0 ∧
    Ready w (.invt ⟨always, 1, 2⟩) always [1, 2] ∧ (me w).freeze = .wait ∧ tfind w.mem.shoots 7 = none := by
  and_intros <;> first | decide +kernel | rfl | exact ready (by decide +kernel)

theorem witness_controlRegisters : let f := one { seq := { fw := true } }
    (∀ n ∈ [(0x000 : BitVec 12), 0x010, 0x020], Ready (one {}) (.crd ⟨always, 1, n⟩) always []) ∧
    Ready f (.crd ⟨always, 1, 0x021⟩) always [] ∧ Ready (one {}) (.crd ⟨always, 1, 0x021⟩) always [] ∧
    (∀ n ∈ [(0x000 : BitVec 12), 0x001, 0x008, 0x019, 0x020, 0x021], Ready f (.cwr ⟨always, 0, n⟩) always [0]) ∧ (me f).seq.fw = true ∧
    Ready (one (withG [(1, 4)])) (.cwr ⟨always, 1, 0x007⟩) always [1] ∧ 4 ≤ ((me (one (withG [(1, 4)]))).gval 1).toNat % 8 ∧
    Ready (one {}) (.cwr ⟨always, 1, 0x01f⟩) always [1] ∧ Ready (one {}) (.cwr ⟨always, 1, 0x020⟩) always [1] := by
  simp only [List.forall_mem_cons, List.not_mem_nil, IsEmpty.forall_iff, implies_true, and_true]
  and_intros <;> first | decide +kernel | rfl | exact ready (by decide +kernel)

theorem witness_counterInstructions :
    Ready (one {}) (.time ⟨always, 1, 0x1f⟩) always [] ∧ Ready (one {}) (.time ⟨always, 1, 0x20⟩) always [] ∧
    Ready (one { seq := { fw := true } }) (.time ⟨always, 1, 0x23⟩) always [] ∧
    (∀ n ∈ [(0x10 : BitVec 6), 0x17, 0x18, 0x1f, 0x20, 0x23], Ready (one {}) (.timeSet ⟨always, 1, n⟩) always [1]) ∧ pselOk 0 = true ∧
    (me (one { bound := some ⟨0, 0, 0, 0⟩ })).bound.isSome = true ∧
    (∀ n ∈ [(0x10 : BitVec 6), 0x1f], Ready (one { bound := some ⟨0, 0, 0, 0⟩ }) (.timeSet ⟨always, 0, n⟩) always [0]) := by
  simp only [List.forall_mem_cons, List.not_mem_nil, IsEmpty.forall_iff, implies_true, and_true]
  and_intros <;> first | decide +kernel | rfl | exact ready (by decide +kernel)

/-! ### Memory, phasers, regions, engines -/

/-- R123: the address of a scratchpad byte on path 0x1. -/
def sp (off : Nat) : Word := BitVec.ofNat 64 (2 ^ 60 + off)

theorem witness_scratchpadAccesses :
    (∀ v ∈ [sp 0, sp 0x7fff8], (v.toNat / 2 ^ 19 = 2 ^ 41) ∧ v.toNat % 8 = 0 ∧
      Ready (one (withG [(5, v)])) (.lds ⟨always, 4, 5, 3, 0⟩) always [5] ∧
      Ready (one (withG [(5, v)])) (.sts ⟨always, 4, 5, 3, 0⟩) always [5, 4] ∧
      (me (one (withG [(5, v)]))).bankFree 2 (bankOf (v.toNat % 2 ^ 19)) = true ∧
      (me (one (withG [(5, v)]))).spBad (v.toNat % 2 ^ 19) = false) ∧
    (sp 0x80000).toNat / 2 ^ 19 ≠ 2 ^ 41 ∧ (sp 0x7ffff).toNat % 2 ≠ 0 ∧ (sp 0x7ffff).toNat / 2 ^ 19 = 2 ^ 41 ∧
    ((Instr.ldg64, 8) ∈ loadOps) ∧ ((Instr.stg16, 2) ∈ storeOps) ∧
    (∀ v ∈ [(0xfffffffffff8 : Word), 0x1000000000000, 0xfffffffffffc], Ready (one (withG [(5, v)])) (.ldg64 ⟨always, 4, 5, 4, 0⟩) always [5]) := by
  simp only [List.forall_mem_cons, List.not_mem_nil, IsEmpty.forall_iff, implies_true, and_true]
  and_intros <;> first | decide +kernel | rfl | exact ready (by decide +kernel) | simp [loadOps, storeOps]

/-- A cell whose g5 is an address of device memory, frozen at request 7, with that line cached if `cached` says so. -/
def accessing (f : Freeze) (cached : Bool) (a : Word := 0xfffffffffff8) : CellSt :=
  { withG [(5, a), (6, 1)] with freeze := f, dcache := if cached then [{ tag := vline a, asid := 0, data := 0 }] else [] }
/-- Such a machine, with request 7 of a kind in a stage. -/
def asking (f : Freeze) (cached : Bool) (k : ReqKind) (st : ReqStage) : State :=
  { one (accessing f cached) with mem := { reqs := [(7, { cell := 0, kind := k, line := vline 0xfffffffffff8, asid := 0, vf := 0, q := 0, need := 1, stage := st })] } }

theorem witness_loadsComplete : let s := asking .none true .read .walk
    let w := asking (.mem 7) false .fill .done
    let e := asking (.mem 7) false .read (.failed cPoison)
    let d := asking .none false .read .walk
    Ready s (.ldg64 ⟨always, 4, 5, 0, 0⟩) always [5] ∧ (me s).addrOk [0, 3] ((me s).gval 5) = true ∧ ((me s).gval 5).toNat % 8 = 0 ∧
    (me s).freeze = .none ∧ (me s).wcb = [] ∧ ((me s).dfind (vline ((me s).gval 5))).map (fun l => (l.parityBad, l.past)) = some (false, false) ∧
    Ready w (.ldg8 ⟨always, 4, 5, 5, 0⟩) always [5] ∧ (me w).freeze = .mem 7 ∧ (w.req 7).map (·.stage) = some .done ∧
    Ready e (.ldg16 ⟨always, 4, 5, 4, 0⟩) always [5] ∧ (me e).freeze = .mem 7 ∧ (e.req 7).map (·.stage) = some (.failed cPoison) ∧
    Ready d (.ldg32 ⟨always, 4, 5, 2, 0⟩) always [5] ∧ (me d).wcb = [] ∧ (me d).dfind (vline ((me d).gval 5)) = none := by
  and_intros <;> first | decide +kernel | exact ready (by decide +kernel)

/-- A machine whose cell holds a pending store of the line of g5. -/
def storing : State := one { accessing .none false with wcb := [{ tag := vline 0xfffffffffff8, asid := 0, data := 0, mask := 0, trans := { addr := 0 } }] }

theorem witness_storesComplete : let w := asking (.mem 7) false .alloc .done
    Ready storing (.stg64 ⟨always, 6, 5, 0, 0⟩) always [5, 6] ∧ (me storing).addrOk [0, 3] ((me storing).gval 5) = true ∧
    ((me storing).wfind (vline ((me storing).gval 5))).map (·.bad) = some 0 ∧
    Ready w (.stg64 ⟨always, 6, 5, 0, 0⟩) always [5, 6] ∧ (me w).freeze = .mem 7 ∧ w.pendingWrites 0 = false ∧
    (w.req 7).map (·.stage) = some .done ∧ (me w).wfind (vline ((me w).gval 5)) = none ∧
    Ready w (.stg8 ⟨always, 6, 5, 5, 7⟩) always [5, 6] ∧
    (∀ o ∈ [(0 : Fin 8), 1, 5], let s := one (accessing .none false)
      Ready s (.stg64 ⟨always, 6, 5, o, 0⟩) always [5, 6] ∧ (me s).addrOk [0, 3] ((me s).gval 5) = true ∧ (me s).freeze = .none ∧
      ((me s).gval 5).toNat < 2 ^ 48 ∧ (me s).wfind (vline ((me s).gval 5)) = none ∧ (me s).wcb.length < 256) := by
  simp only [List.forall_mem_cons, List.not_mem_nil, IsEmpty.forall_iff, implies_true, and_true]
  and_intros <;> first | decide +kernel | exact ready (by decide +kernel)

/-- Cell 0, bound, with registers, and cell 5 bound to a gang. -/
def gangOf (l : List (Reg × Word)) (g : Nat) : State :=
  { State.reset with cells := [(0, { withG l with bound := some ⟨0, 0, 0, 0⟩ }), (5, { bound := some ⟨0, 0, 0, g⟩ })], sched := {} }

theorem witness_signalStoresLeave :
    let ta : Word := 0x200000050007ffb8
    (let s := gangOf [(8, ta), (9, sp 0x7ffc0)] 0;
      Ready s (.str ⟨always, 8, 9, 10, 7⟩) always [8, 9, 10] ∧ (me s).addrOk [2] ((me s).gval 8) = true ∧
      (me s).addrOk [1] ((me s).gval 9) = true ∧ ((me s).gval 9).toNat % 2 ^ 19 + 8 * 8 ≤ 2 ^ 19 ∧
      ((me s).gval 8).toNat % 2 ^ 19 + 8 * 8 + 8 ≤ 2 ^ 19 ∧ ((me s).gval 8).toNat % 8 = 0 ∧ (me s).freeze = .none ∧
      Ready s (.sig ⟨always, 10, 8, 0⟩) always [8, 10]) ∧
    (gangOf [(8, ta)] 0).sameGang 0 (cellOf ta) = true ∧ (gangOf [(8, ta)] 1).sameGang 0 (cellOf ta) = false ∧
    Readable (me (gangOf [] 0)) 0x7ffc0 8 := by
  and_intros <;> first | decide +kernel | rfl | exact ready (by decide +kernel) | exact readable (by decide +kernel)

theorem witness_waitsForWords :
    let s := one { withG [(4, sp 0x7fff8), (5, 1), (6, sp 0)] with spad := [(0x7fff8, 1)] }
    let w := one { freeze := .wait, hold := [2, 9] }
    Ready s (.waita ⟨always, 3, 4, 5, .eq⟩) always [4, 5] ∧ NoInjection s ∧ (me s).freeze = .none ∧
    ((me s).gval 4).toNat / 2 ^ 19 = 2 ^ 41 ∧ Readable (me s) 0x7fff8 1 ∧ mword (me s).spad 0x7fff8 = (me s).gval 5 ∧
    Ready s (.waita ⟨always, 3, 6, 5, .gen⟩) always [6, 5] ∧ Readable (me s) 0 1 ∧ ¬((me s).gval 5).toNat ≤ (mword (me s).spad 0).toNat ∧
    (me s).seq.yreq = false ∧ Ready w (.waita ⟨always, 3, 4, 5, .done⟩) always [4, 5] ∧ (me w).hold = [2, 9] ∧
    Ready s (.lkWait ⟨always, 5, 4, 0⟩) always [5, 4, 0] ∧ Ready s (.lkWait ⟨always, 5, 6, 0⟩) always [5, 6, 0] ∧
    (mword (me s).spad 0).getLsbD 63 = false ∧ (mword (me s).spad 0).toNat % 2 ^ 56 ≠ ((me s).gval 5).toNat % 2 ^ 56 ∧
    Ready w (.lkWait ⟨always, 5, 6, 0⟩) always [5, 6, 0] ∧ Ready s (.lkWait ⟨always, 5, 6, 5⟩) always [5, 6, 5] ∧ (me s).gval 5 ≠ 0 ∧
    s.sys.devtime.toNat < 2 ^ 64 - 1 ∧ (me s).stop = none := by
  and_intros <;> first | decide +kernel | rfl | exact ready (by decide +kernel) | exact readable (by decide +kernel)

theorem witness_cacheAndFences : let s := one (accessing .none false 0xffffffffffff)
    let f := one { withG [(5, 0x3000000000000080)] with seq := { (withG [(5, 0x3000000000000080)]).seq with fw := true } }
    (me s).freeze = .none ∧ ((me s).gval 5).toNat < 2 ^ 48 ∧ Ready s (.cln ⟨always, 5, 0⟩) always [5] ∧
    Ready s (.inv ⟨always, 5, 0⟩) always [5] ∧ Ready s (.pref ⟨always, 5, 0⟩) always [5] ∧
    (me s).wfind (vline ((me s).gval 5)) = none ∧ (me s).dfind (vline ((me s).gval 5)) = none ∧
    ((me f).gval 5).toNat / 2 ^ 41 = 3 * 2 ^ 19 ∧ (me f).seq.fw = true ∧ Ready f (.inv ⟨always, 5, 0x1ff⟩) always [5] ∧
    (∀ n ∈ [(1 : BitVec 3), 2, 5], Ready s (.fenceAcq ⟨always, n⟩) always [] ∧ Ready s (.fenceRel ⟨always, n⟩) always [] ∧
      Ready s (.fenceFull ⟨always, n⟩) always []) ∧ (me s).memPending = false ∧ s.released 0 = true := by
  simp only [List.forall_mem_cons, List.not_mem_nil, IsEmpty.forall_iff, implies_true, and_true]
  and_intros <;> first | decide +kernel | rfl | exact ready (by decide +kernel)

theorem witness_atomicsComplete : let s := one (accessing .none false)
    let w := asking (.mem 7) false .read .done
    Ready s (.amoMaxn ⟨always, 4, 5, 6, 1⟩) always [5, 6] ∧ Ready s (.cas ⟨always, 4, 5, 6, 5⟩) always [5, 6, 4] ∧
    (me s).addrOk [0, 3] ((me s).gval 5) = true ∧ ((me s).gval 5).toNat % 8 = 0 ∧ (me s).wfind (vline ((me s).gval 5)) = none ∧
    Ready w (.amoFadd ⟨always, 4, 5, 6, 4⟩) always [5, 6] ∧ (me w).freeze = .mem 7 ∧ (w.req 7).map (·.stage) = some .done ∧
    Ready s (.mwc ⟨always, 5, 31, 4, 0⟩) always [5, 31] ∧ ((me s).gval 5).toNat % 128 + 8 * 1 ≤ 128 ∧
    Ready w (.mwc ⟨always, 5, 28, 1, 3⟩) always [5, 28, 29, 30, 31] ∧ Ready (one (accessing .none false 0xffffffffffe0))
      (.mwc ⟨always, 5, 28, 1, 3⟩) always [5, 28, 29, 30, 31] := by
  and_intros <;> first | decide +kernel | rfl | exact ready (by decide +kernel)

/-- A function that owns phaser 5, and phaser 5 as given; g1 names it, g2 its phase before. -/
def phasing (p : Phaser) (v : Word := 5) : State :=
  { one (withG [(1, v), (2, 0xffffffff)]) with fns := [(0, { Fn.reset 0 with phbase := 5, phcnt := 1 })], disp := { phasers := [(5, p)] } }

theorem witness_phaserInstructions :
    (let s := phasing {};
      s.released 0 = true ∧ (me s).freeze = .none ∧ NoInjection s ∧
      (s.fn (me s).seq.id.vfid.toNat).ownsPhaser (((me s).gval 1).toNat % 65536) = true ∧
      Ready s (.phReg ⟨always, 1, 2⟩) always [1] ∧ Ready s (.phDrop ⟨always, 1, 0⟩) always [1] ∧ Ready s (.phArr ⟨always, 1⟩) always [1] ∧
      Ready s (.phWait ⟨always, 1, 2⟩) always [1, 2] ∧ Ready s (.phAw ⟨always, 3, 1⟩) always [1] ∧ Ready s (.phQry ⟨always, 3, 1⟩) always [1]) ∧
    (∀ n ∈ [0, 65534, 65535], ((phasing { nsig := n, nwait := n, nsw := n }).phaser 5) = { nsig := n, nwait := n, nsw := n }) ∧
    (∀ v ∈ [(4 : Word), 6], ((phasing {} v).fn 0).ownsPhaser (((me (phasing {} v)).gval 1).toNat % 65536) = false ∧
      Ready (phasing {} v) (.phReg ⟨always, 1, 2⟩) always [1]) ∧
    ((phasing {}).phaser 5).phase - ((me (phasing {})).gval 2).setWidth 32 = 1 ∧
    (let p := (phasing { nsig := 1, phase := -1 }).phaser 5; p.nsig + p.nsw = p.arrived + 1 ∧ p.arrived < 131070) ∧
    (phasing { phase := -1 }).phaser 5 = { phase := -1 } ∧
    (phasing { nsig := 1, nsw := 1, arrived := 1 }).phaser 5 = { nsig := 1, nsw := 1, arrived := 1 } ∧
    (let s := phasing { nsig := 2 };
      ((s.phaser 5).nsig + (s.phaser 5).nsw ≠ (s.phaser 5).arrived + 1 ∧ (s.phaser 5).arrived < 131070 ∧ (me s).seq.yreq = false ∧
      (me s).stop = none ∧ (me s).seq.log.length < 8) ∧ Ready s (.phAw ⟨always, 3, 1⟩) always [1]) ∧
    (∀ u ∈ [(0 : Word), 0xffffffff, 0x80000000, 0x80000001], let s : State := (phasing {}).modCell 0 fun x => { x with freeze := .wait, hold := [6, u, 5, 0] }
      (me s).freeze = .wait ∧ (me s).hold = [6, u, 5, 0] ∧ (me s).seq.yreq = false ∧ (me s).stop = none ∧ (s.phaser 5).phase = 0 ∧
      (s.fn (me s).seq.id.vfid.toNat).ownsPhaser (((me s).gval 1).toNat % 65536) = true ∧ Ready s (.phAw ⟨always, 3, 1⟩) always [1]) := by
  simp only [List.forall_mem_cons, List.not_mem_nil, IsEmpty.forall_iff, implies_true, and_true]
  and_intros <;> first | decide +kernel | rfl | exact ready (by decide +kernel)

/-! ### Regions and engines -/

/-- A machine that maps the first GiB of ASID 0 to the host, whose memory holds these bytes. -/
def mapped (m : Memory) (x : CellSt) : State :=
  { one x with sys := { cxl := #v[⟨true, true, 6, 16⟩, ⟨false, false, 0, 0⟩] }, mem := { host := m, asids := [(0, { valid := true })], tlb := [{ die := 0, asid := 0, base := 0, size := 2, pte := 0x20e }] } }
/-- The least context image for PE set 1: II = 1, no rows. -/
def leastImage : Memory := [(0, 1), (1, 1), (2, 1), (16, 0x40), (17, 4)]
/-- Whether the image is read, the cell untouched, and what it holds. -/
def imageRead (m : Memory) : Option Bool :=
  match (mapped m {}).readImage 0 0 0 1 with
  | (.ok (h, secs), u) => if u.cell 0 = me (mapped m {}) then some (imageOf 1 h secs).isSome else none
  | _ => none
/-- Region slot 2 in this state, of PE set 1. -/
def slotIs (st : RState) (x : CellSt := {}) : CellSt := x.setRegion 2 { conf := true, peset := 1, ii := 3, rn := 2, cause := 0, state := st }

theorem witness_regionConfigure :
    (∀ b ∈ [(1 : BitVec 4), 6], Ready (mapped [] {}) (.cfg ⟨always, 1, b, 2⟩) always [1] ∧ ((me (mapped [] {})).gval 1).toNat % 64 = 0) ∧
    Ready (one (slotIs .running)) (.cfg ⟨always, 1, 1, 0⟩) always [1] ∧
    ((me (one (slotIs .running))).region[2]).state = .running ∧ ((me (one (slotIs .running))).region[2]).peset &&& 1 ≠ 0 ∧
    (∀ j : Fin 4, ((me (mapped [] {})).region[j.val]).state ≠ .running) ∧ imageRead leastImage = some true ∧ imageRead [] = some false := by
  simp only [List.forall_mem_cons, List.not_mem_nil, IsEmpty.forall_iff, implies_true, and_true]
  and_intros <;> first | decide +kernel | rfl | exact ready (by decide +kernel)

theorem witness_regionRuns : let s := one (slotIs .ready (withG [(1, 0xffffffffffff), (2, 0x1000000000000)]))
    let r := one (slotIs .running)
    let h := one (CellSt.setRegion (handler false) 2 { conf := true, cause := cArith, state := .failed })
    Ready s (.launch ⟨always, 1, 2⟩) always [1] ∧ ((me s).gval 1).toNat < 2 ^ 48 ∧ ((me s).region[2]).conf = true ∧
    ((me s).region[2]).state ≠ .running ∧ Ready s (.launch ⟨always, 2, 2⟩) always [2] ∧ 2 ^ 48 ≤ ((me s).gval 2).toNat ∧
    Ready s (.launch ⟨always, 1, 3⟩) always [1] ∧ ((me s).region[3]).conf = false ∧
    Ready r (.launch ⟨always, 1, 2⟩) always [1] ∧ ((me r).region[2]).state = .running ∧
    Ready (phasing {}) (.launchPh ⟨always, 1, 2, 0⟩) always [1, 2] ∧ (((phasing {}).fn 0).ownsPhaser (((me (phasing {})).gval 2).toNat % 65536)) = false ∧
    Ready (phasing {}) (.launchPh ⟨always, 2, 1, 0⟩) always [2, 1] ∧ (((phasing {}).fn 0).ownsPhaser (((me (phasing {})).gval 1).toNat % 65536)) = true ∧
    Ready r (.lwait ⟨always, 3, 2⟩) always [] ∧ Ready s (.lwait ⟨always, 3, 2⟩) always [] ∧ ((me s).region[2]).cause ≠ cArith ∧
    NoInjection s ∧ Ready h (.lwait ⟨always, 3, 2⟩) always [] ∧ ((me h).region[2]).cause = cArith ∧ (me h).seq.trap.vec ≠ 0 ∧
    (me h).seq.intrap = false ∧ NoInjection h ∧ ((me h).region[2]).state ≠ .running ∧
    Ready r (.lstop ⟨always, 2⟩) always [] ∧ ((me r).region[2]).rc.toNat < ((me r).region[2]).endAt ∧ ((me r).region[2]).ii ≠ 0 := by
  and_intros <;> first | decide +kernel | rfl | exact ready (by decide +kernel)

theorem witness_regionItems : let y := slotIs .ready (withG [(1, 0xffff0007ffff), (2, 0x000fffff000fffff), (3, 0x0003f), (4, 0x0013f), (5, 0x40000), (6, 0x00200)])
    let s := one y
    (((me s).region[2]).state ≠ .running ∧ ((me s).region[2]).state ≠ .held ∧ ((me s).region[2]).peset.getLsbD 0 = true) ∧
    ((me s).region[2]).peset.getLsbD 1 = false ∧ Ready s (.acset ⟨always, 1, 2, 3, 0, 2⟩) always [1, 2] ∧
    Ready s (.acset ⟨always, 1, 2, 3, 1, 2⟩) always [1, 2] ∧
    (((me s).gval 1).toNat % 2 ^ 48 / 2 ^ 32 ≠ 0 ∧ ((me s).gval 1).toNat / 2 ^ 19 % 2 ^ 13 = 0 ∧ ((me s).gval 1).toNat / 2 ^ 48 = 0 ∧
      ((me s).gval 2).toNat / 2 ^ 20 % 2 ^ 12 = 0 ∧ ((me s).gval 2).toNat / 2 ^ 52 = 0) ∧
    Ready s (.csetSeed ⟨always, 0, 0, 2⟩) always [0] ∧ Ready s (.csetTen ⟨always, 1, 2⟩) always [1] ∧ Ready s (.csetClr ⟨always, 2⟩) always [] ∧
    Ready (one (slotIs .held)) (.csetClr ⟨always, 2⟩) always [] ∧ ((me (one (slotIs .held))).region[2]).state = .held ∧
    Ready s (.vset ⟨always, 1, 3, 2⟩) always [1, 3] ∧ ((me s).gval 3).toNat = (0 : Fin 4).val * 65536 + (63 : Fin 64).val ∧
    Ready s (.vset ⟨always, 1, 4, 2⟩) always [1, 4] ∧ ((me s).gval 4).toNat = (0 : Fin 4).val * 65536 + 256 + (63 : Fin 64).val ∧
    Ready s (.vset ⟨always, 1, 5, 2⟩) always [1, 5] ∧ 2 ^ 18 ≤ ((me s).gval 5).toNat ∧
    Ready s (.vset ⟨always, 1, 6, 2⟩) always [1, 6] ∧ ((me s).gval 6).toNat / 256 % 256 = 2 ∧
    Ready s (.vget ⟨always, 7, 3, 2⟩) always [3] ∧ (me s).seq.log.length < 8 ∧
    (∀ v ∈ [(0x40000 : Word), 0x600, 0x40, 0x308, 0x40c, 0x505, 0x10000, 0x3f, 0x13f, 0x23f, 0x307, 0x41b, 0x504],
      let s := one (slotIs .ready (withG [(1, v)])); Ready s (.vget ⟨always, 7, 1, 2⟩) always [1] ∧ (me s).gval 1 = v) ∧
    srcBad ((peOf s).v[63]).data ((peOf s).v[63]).res = none ∧ srcBad (1 : Word) 0 ≠ none := by
  simp only [List.forall_mem_cons, List.not_mem_nil, IsEmpty.forall_iff, implies_true, and_true]
  and_intros <;> first | decide +kernel | rfl | exact ready (by decide +kernel)

/-- Port 31 as given. -/
def ported (p : Port) (x : CellSt := {}) : State :=
  { one x with sys := { bootDone := true, ports := (Vector.replicate 32 ({} : Port)).set 31 p } }
/-- A started RECV of 8 bytes at port 31. -/
def receiving : LinkCmd :=
  { group := 1, tag := 2, round := 3, port := 31, rport := 0, m := 0, pos := 0, dcell := 0, op := 1, bf16 := false, step := 0,
    boff := 0x7fff8, len := 8, woff := 0, cwoff := 0, cval := 1, started := true }

/-- A descriptor as bytes at scratchpad offset 0x7ffc0, and g5 its address. -/
def described (m : Memory) (l : List (Reg × Word) := []) : CellSt := { withG ((5, sp 0x7ffc0) :: l) with spad := m, bound := some ⟨0, 0, 0, 0⟩ }

theorem witness_copyQuery : let s := one { copyq := [{ gaddr := 0, soff := 0, run := 8, nrun := 1, gstride := 0, sstride := 0, cwoff := 0, cval := 0, op := 1, dir := true, pattern := 0, progress := 2 ^ 40 - 1 }] }
    Ready s (.cpQry ⟨always, 4⟩) always [] ∧ NoInjection s ∧ (me s).copyq.length ≤ 4 ∧ Ready (one {}) (.cpQry ⟨always, 4⟩) always [] := by
  and_intros <;> first | decide +kernel | rfl | exact ready (by decide +kernel)

theorem witness_engineCommands :
    let c := one (described [(0x7ffcc, 8), (0x7ffd0, 1)])
    let k := one (described [(0x7ffd4, 8)])
    let a := one (described [(0x7ffca, 2), (0x7ffd4, 1)])
    let b := ported { state := .up } (described [(0x7ffeb, 0x80)])
    let h : LinkCmd := { receiving with group := 0, round := 0 }
    let x := one (described [(0x7ffc7, 0x20), (0x7ffcc, 8), (0x7ffd0, 1)])
    c.released 0 = true ∧ (me c).freeze = .none ∧ Ready c (.cpIn ⟨always, 5⟩) always [5] ∧ Ready c (.cpFill ⟨always, 5⟩) always [5] ∧
    ((me c).gval 5).toNat / 2 ^ 19 = 2 ^ 41 ∧ ((me c).gval 5).toNat % 8 = 0 ∧ ((me c).gval 5).toNat % 2 ^ 19 + 8 * 8 ≤ 2 ^ 19 ∧
    (∀ x ∈ [c, k, a, b], Readable (me x) 0x7ffc0 8) ∧ leNat (mread (me c).spad (0x7ffc0 + 0x0c) 4) = 8 ∧
    leNat (mread (me c).spad (0x7ffc0 + 0x10) 4) = 1 ∧ leNat (mread (me c).spad 0x7ffc0 8) = 0 ∧
    Ready k (.lkSend ⟨always, 5⟩) always [5] ∧ Ready k (.lkRecv ⟨always, 5⟩) always [5] ∧ k.released 0 = true ∧
    (let ws := (List.range 8).map fun j => mword (me k).spad (0x7ffc0 + 8 * j); linkOk ws 0 (linkOf ws 0 false 0) = true ∧ linkOk ws 1 (linkOf ws 1 false 0) = true) ∧
    Ready a (.lkAred ⟨always, 5, 0, .f32⟩) always [5, 0] ∧ a.released 0 = true ∧
    (let ws := (List.range 8).map fun j => mword (me a).spad (0x7ffc0 + 8 * j); linkOk ws 2 (linkOf ws 2 false 0) = true) ∧
    0 + 2 < 2 * leNat (mread (me a).spad (0x7ffc0 + 0xa) 1) ∧ Ready b (.lkAbort ⟨always, 5⟩) always [5] ∧ b.released 0 = true ∧ (me b).stop = none ∧
    (let ws := (List.range 8).map fun j => mword (me b).spad (0x7ffc0 + 8 * j); linkOk ws 3 (linkOf ws 3 false 0) = true) ∧
    (b.port 31).state = .up ∧ (leNat (mread (me b).spad (0x7ffc0 + 0x28) 4)).testBit 31 = true ∧
    (h.group = 0 ∧ h.round = 0 ∧ (h.phase != LinkPhase.ending) = true) ∧ (me b).stop.any (·.saved) = false ∧
    Ready c (.cpOut ⟨always, 5⟩) always [5] ∧ Ready c (.cpGath ⟨always, 5⟩) always [5] ∧ leNat (mread (me c).spad (0x7ffc0 + 0x14) 4) = 0 ∧
    Ready x (.cpXfr ⟨always, 5⟩) always [5] ∧ (me x).addrOk [2] 0x2000000000000000 = true ∧ x.sameGang 0 0 = true ∧
    leNat (mread (me x).spad 0x7ffc0 8) = 0x2000000000000000 := by
  simp only [List.forall_mem_cons, List.not_mem_nil, IsEmpty.forall_iff, implies_true, and_true]
  and_intros <;> first | decide +kernel | rfl | exact ready (by decide +kernel) | exact readable (by decide +kernel)

theorem witness_nearBankCommands :
    let s : State := { one (described [(0x7ffe4, 1)]) with
      mem := { asids := [(0, { valid := true })], tlb := [{ die := 0, asid := 0, base := 0, size := 1, pte := 0x2e }] } }
    let ws := (List.range 8).map fun j => mword (me s).spad (0x7ffc0 + 8 * j)
    let free : State := { s with mem := { s.mem with nb := [nbOf s 0 [] 0 false] } }
    (me s).freeze = .none ∧ Ready s (.nbZero ⟨always, 5⟩) always [5] ∧ Ready s (.nbAxpy ⟨always, 5, .bf16⟩) always [5] ∧
    s.released 0 = true ∧ Readable (me s) 0x7ffc0 8 ∧ ((me s).gval 5).toNat % 2 ^ 19 + 64 ≤ 2 ^ 19 ∧
    nbOk ws (nbOf s 0 ws 0 false) = true ∧ nbOk ws (nbOf s 0 ws 3 true) = true ∧
    ((nbBases (nbOf s 0 ws 3 true)).all fun b =>
      decide (b.1.toNat < 2 ^ 48) && (tlbFind s 0 (nbOf s 0 ws 3 true).asid (wbits b.1 47 0)).isSome) = true ∧
    s.nbOut 0 < 16 ∧ (∀ j, s.ctrlLoad j < 48) ∧ Ready s (.nbFence always) always [] ∧ free.nbOut 0 ≠ 0 := by
  and_intros <;> first
    | decide +kernel | exact ready (by decide +kernel) | exact readable (by decide +kernel) | simp [State.ctrlLoad]

/-- A machine whose function 0 has work queue 7, with these positions and sleepers; g1 = 7 and g5 an entry address. -/
def workQ (h t : Nat) (sl : List Nat) : State :=
  { one (described [] [(1, 7), (2, 4096)]) with fns := [(0, { Fn.reset 0 with wqbase := 7, wqcnt := 1 })], disp := { wqs := [(7, { m := 4, base := 0x1000, head := h, tail := t, sleepers := sl })] } }

theorem witness_workQueueInstructions :
    (∀ s ∈ [workQ 0 15 [], workQ 1 2 [], workQ 3 3 []], (me s).freeze = .none ∧ NoInjection s ∧ ((me s).gval 5).toNat % 64 = 0 ∧
      ((me s).gval 5).toNat / 2 ^ 19 = 2 ^ 41 ∧ (s.wqOf 0 ((me s).gval 1)).isSome = true ∧ Readable (me s) 0x7ffc0 8 ∧
      s.queueRoom (0x1000 / 128) = true ∧ migOf s (0x1000 / 128) = none ∧ s.gate (0x1000 / 128) true false = .ok ∧
      s.gate (0x1000 / 128) false false = .ok ∧
      (me s).stop = none ∧ s.mem.lls = [] ∧ s.mem.gran = [] ∧
      s.mem.dram.wf = true ∧ (me s).spad.wf = true ∧ (∀ j < 8, (me s).bankFree 2 (bankOf (0x7ffc0 + 8 * j)) = true) ∧
      (me s).seq.yreq = false ∧ Ready s (.qpush ⟨always, 1, 5⟩) always [1, 5] ∧ Ready s (.qpop ⟨always, 3, 1, 5⟩) always [1, 5] ∧
      Ready s (.qroom ⟨always, 3, 1⟩) always [1] ∧ Ready s (.qroom ⟨always, 3, 2⟩) always [2] ∧ s.wqOf 0 ((me s).gval 2) = none) := by
  simp only [List.forall_mem_cons, List.not_mem_nil, IsEmpty.forall_iff, implies_true, and_true]
  and_intros <;> first | decide +kernel | rfl | exact ready (by decide +kernel) | exact readable (by decide +kernel)

/-! ### Rows -/

/-- PE 0 as given, in region slot 0 that runs on it; register 1 of it holds P false with flags. -/
def peState (e : PE) (m : Memory := []) (r : Region := {}) : State :=
  one { region := (Vector.replicate 4 ({} : Region)).set 0 { r with conf := true, peset := 1, ii := 8, rn := 1, state := .running }
        pe := (Vector.replicate 4 ({} : PE)).set 0 { e with v := (e.v.set 1 { p := false, flags := 9 }).set 2 (FVal.of 0x0102030405060708) }
        spad := m }

theorem witness_laneRows :
    (∀ m ∈ [(0 : BitVec 4), 7], Fires (peState {}) (.rowSar ⟨0, 0, 63, 1, 2, 0x4b, m, 0, 0⟩) 0x0d ⟨0, 0, 63, 1, 2, 0x4b, m, 0, 0⟩ ∧
      Fires (peState {}) (.rowAndn ⟨0, 0, 63, 1, 2, 0x4b, m, 0, 0⟩) 0x0a ⟨0, 0, 63, 1, 2, 0x4b, m, 0, 0⟩ ∧
      Fires (peState {}) (.rowClz ⟨0, 0, 127, 1, 0x4b, 0x4b, m, 0, 0⟩) 0x18 ⟨0, 0, 127, 1, 0x4b, 0x4b, m, 0, 0⟩) ∧
    (∀ x ∈ [(0x00 : BitVec 6), 0x17, 0x27], Fires (peState {}) (.rowCmp ⟨0, 0, 4, 1, 2, 0x4b, 3, 0, x⟩) 0x11 ⟨0, 0, 4, 1, 2, 0x4b, 3, 0, x⟩) ∧
    Fires (peState {}) (.rowSel ⟨0, 0, 4, 1, 2, 1, 3, 0, 0⟩) 0x12 ⟨0, 0, 4, 1, 2, 1, 3, 0, 0⟩ ∧
    Fires (peState {}) (.rowMov ⟨0, 0, 16, 1, 0x4b, 0x4b, 3, 0, 0⟩) 0x13 ⟨0, 0, 16, 1, 0x4b, 0x4b, 3, 0, 0⟩ ∧
    Fires (peState {}) (.rowPand ⟨0, 0, 4, 1, 2, 0x4b, 0, 0, 0⟩) 0x1c ⟨0, 0, 4, 1, 2, 0x4b, 0, 0, 0⟩ ∧
    Fires (peState {}) (.rowPor ⟨0, 0, 4, 1, 2, 0x4b, 0, 0, 0⟩) 0x1d ⟨0, 0, 4, 1, 2, 0x4b, 0, 0, 0⟩ ∧
    Fires (peState {}) (.rowPnot ⟨0, 0, 4, 1, 0x4b, 0x4b, 0, 0, 0⟩) 0x1e ⟨0, 0, 4, 1, 0x4b, 0x4b, 0, 0, 0⟩ := by
  simp only [List.forall_mem_cons, List.not_mem_nil, IsEmpty.forall_iff, implies_true, and_true]
  and_intros <;> first | decide +kernel | rfl | exact fires (by decide +kernel)

theorem witness_byteAndLutRows : let l : Lut := { tt := 1, sel := [0x90, 0x91, 0, 0x3f, 0x7f, 0xa3].map (BitVec.ofNat 8) }
    let s := peState { luts := List.replicate 16 l }
    (peOf s).luts.length = 16 ∧ (peOf s).luts.all (fun l => l.sel.all fun q => lutSelOk 0 q.toNat) = true ∧
    Fires s (.rowPerm ⟨0, 0, 4, 1, 2, 0x80, 0, 0, 0⟩) 0x14 ⟨0, 0, 4, 1, 2, 0x80, 0, 0, 0⟩ ∧
    Fires s (.rowPack ⟨0, 0, 4, 1, 2, 0x4b, 2, 0, 0⟩) 0x15 ⟨0, 0, 4, 1, 2, 0x4b, 2, 0, 0⟩ ∧
    Fires s (.rowUnpk ⟨0, 0, 4, 1, 0x4b, 0x4b, 6, 0, 1⟩) 0x16 ⟨0, 0, 4, 1, 0x4b, 0x4b, 6, 0, 1⟩ ∧
    Fires s (.rowConst ⟨0, 0, 4, 0x4b, 0x4b, 0x4b, 0, 0, 0x20⟩) 0x34 ⟨0, 0, 4, 0x4b, 0x4b, 0x4b, 0, 0, 0x20⟩ ∧
    Fires s (.rowShfl ⟨0, 0, 4, 1, 2, 0x4b, 0, 0, 7⟩) 0x35 ⟨0, 0, 4, 1, 2, 0x4b, 0, 0, 7⟩ ∧
    Fires s (.rowIdx ⟨0, 0, 4, 2, 0x4b, 0x4b, 0, 0, 0x3f⟩) 0x36 ⟨0, 0, 4, 2, 0x4b, 0x4b, 0, 0, 0x3f⟩ ∧
    Fires s (.rowLut ⟨0, 0, 4, 1, 2, 0x4b, 0, 0, 3⟩) 0x30 ⟨0, 0, 4, 1, 2, 0x4b, 0, 0, 3⟩ ∧
    Fires s (.rowLuts ⟨0, 0, 4, 1, 2, 0x4b, 0, 0, 0⟩) 0x31 ⟨0, 0, 4, 1, 2, 0x4b, 0, 0, 0⟩ ∧
    Fires s (.rowLutc ⟨0, 0, 4, 0x4b, 0x4b, 0x4b, 0, 0, 3⟩) 0x32 ⟨0, 0, 4, 0x4b, 0x4b, 0x4b, 0, 0, 3⟩ := by
  and_intros <;> first | decide +kernel | rfl | exact fires (by decide +kernel)

theorem witness_floatRows :
    (∀ m ∈ [(0 : BitVec 4), 1, 0xb], Fires (peState {}) (.rowFms ⟨0, 0, 4, 1, 2, 2, m, 0, 4⟩) 0x24 ⟨0, 0, 4, 1, 2, 2, m, 0, 4⟩ ∧
      Fires (peState {}) (.rowFsub ⟨0, 0, 4, 1, 2, 0x4b, m, 0, 0⟩) 0x21 ⟨0, 0, 4, 1, 2, 0x4b, m, 0, 0⟩ ∧
      Fires (peState {}) (.rowFmin ⟨0, 0, 4, 1, 2, 0x4b, m, 0, 0⟩) 0x25 ⟨0, 0, 4, 1, 2, 0x4b, m, 0, 0⟩ ∧
      Fires (peState {}) (.rowFcmp ⟨0, 0, 4, 1, 2, 0x4b, m, 0, 0⟩) 0x28 ⟨0, 0, 4, 1, 2, 0x4b, m, 0, 0⟩ ∧
      Fires (peState {}) (.rowFabs ⟨0, 0, 4, 2, 0x4b, 0x4b, m, 0, 0⟩) 0x27 ⟨0, 0, 4, 2, 0x4b, 0x4b, m, 0, 0⟩ ∧
      Fires (peState {}) (.rowFsum ⟨0, 0, 4, 2, 0x4b, 0x4b, m, 0, 4⟩) 0x2a ⟨0, 0, 4, 2, 0x4b, 0x4b, m, 0, 4⟩ ∧
      Fires (peState {}) (.rowFmaxh ⟨0, 0, 4, 2, 0x4b, 0x4b, m, 0, 0⟩) 0x2b ⟨0, 0, 4, 2, 0x4b, 0x4b, m, 0, 0⟩ ∧
      Fires (peState {}) (.rowFexp2 ⟨0, 0, 4, 2, 0x4b, 0x4b, m, 0, 0⟩) 0x2e ⟨0, 0, 4, 2, 0x4b, 0x4b, m, 0, 0⟩) ∧
    (∀ b ∈ [(0x00 : BitVec 8), 0x0b, 0x2b, 0x29], Fires (peState {}) (.rowFcvt ⟨0, 0, 4, 2, b, 0x4b, 0, 0, 4⟩) 0x29 ⟨0, 0, 4, 2, b, 0x4b, 0, 0, 4⟩) ∧
    fmtF32.read false 0x40000000 = .fin false (2 ^ 23) (-22) ∧ fmtF32.read false 0x80000000 = .fin true 0 (-149) ∧
    fmtF16.read true 0xfc00 = .inf true ∧ (fmtBf16.read true 0x7fc0).isNan = true ∧
    ((2 ^ 23 : Nat) : ℚ) * (2 : ℚ) ^ (-22 : Int) = (2 : ℚ) ^ (1 : Int) ∧ ratOf (.fin false (2 ^ 23) (-22)) = ((2 : Int) : ℚ) ∧
    (∀ c ∈ [0x3f000000, 0x40400000], ∃ g a b r, (if c = 0x3f000000 then exp2Of else log2Of) (fmtF32.read false c) = .mag g a b r) := by
  simp only [List.forall_mem_cons, List.not_mem_nil, IsEmpty.forall_iff, implies_true, and_true]
  and_intros <;> first
    | decide +kernel | rfl | exact fires (by decide +kernel) | exact ⟨_, _, _, _, rfl⟩

/-- A PE whose counter 1 points at the last word of the scratchpad, and counter 2 at its first. -/
def pointing : PE := { ac := ((Vector.replicate 4 ({} : AddrCtr)).set 1 { base := 0x7fff8 }).set 2 { base := 0x1000 } }

theorem witness_loadAndStoreRows : let s := peState pointing
    Fires s (.rowLd ⟨0, 0, 4, 0x45, 0x4b, 0x4b, 3, 0, 0⟩) 0x40 ⟨0, 0, 4, 0x45, 0x4b, 0x4b, 3, 0, 0⟩ ∧
    Fires s (.rowLdb ⟨0, 0, 4, 0x45, 0x4b, 0x4b, 0, 0, 0x3f⟩) 0x44 ⟨0, 0, 4, 0x45, 0x4b, 0x4b, 0, 0, 0x3f⟩ ∧
    Fires s (.rowLdx ⟨0, 0, 4, 0x46, 2, 0x4b, 0, 0, 0⟩) 0x42 ⟨0, 0, 4, 0x46, 2, 0x4b, 0, 0, 0⟩ ∧
    Fires s (.rowSt ⟨0, 0, 127, 0x45, 2, 0x4b, 3, 2, 0⟩) 0x41 ⟨0, 0, 127, 0x45, 2, 0x4b, 3, 2, 0⟩ ∧
    (rowCtx s ⟨0, 0, 127, 0x45, 2, 0x4b, 3, 2, 0⟩).guard = true ∧
    Fires s (.rowSt ⟨0, 0, 127, 0x45, 1, 0x4b, 3, 2, 0⟩) 0x41 ⟨0, 0, 127, 0x45, 1, 0x4b, 3, 2, 0⟩ ∧
    (rowCtx s ⟨0, 0, 127, 0x45, 1, 0x4b, 3, 2, 0⟩).guard = false ∧
    Fires s (.rowStx ⟨0, 0, 127, 0x46, 2, 2, 1, 0, 0⟩) 0x43 ⟨0, 0, 127, 0x46, 2, 2, 1, 0, 0⟩ ∧
    (rowCtx s ⟨0, 0, 127, 0x46, 2, 2, 1, 0, 0⟩).guard = true ∧
    Fires s (.rowStx ⟨0, 0, 127, 0x46, 2, 2, 1, 7, 0⟩) 0x43 ⟨0, 0, 127, 0x46, 2, 2, 1, 7, 0⟩ ∧
    (rowCtx s ⟨0, 0, 127, 0x46, 2, 2, 1, 7, 0⟩).guard = false ∧ (s.cell 0).spad.wf = true := by
  and_intros <;> first | decide +kernel | rfl | exact fires (by decide +kernel)

theorem witness_arrayRows : let s := peState pointing
    Fires s (.rowWld ⟨0, 0, 73, 0x46, 0x4b, 0x4b, 0, 0, 0⟩) 0x48 ⟨0, 0, 73, 0x46, 0x4b, 0x4b, 0, 0, 0⟩ ∧
    Fires s (.rowWld ⟨0, 0, 73, 0x46, 1, 0x4b, 0, 2, 0⟩) 0x48 ⟨0, 0, 73, 0x46, 1, 0x4b, 0, 2, 0⟩ ∧
    (rowCtx s ⟨0, 0, 73, 0x46, 1, 0x4b, 0, 2, 0⟩).guard = false ∧
    Fires s (.rowWsw ⟨0, 0, 127, 0x4b, 0x4b, 0x4b, 0, 0, 0⟩) 0x49 ⟨0, 0, 127, 0x4b, 0x4b, 0x4b, 0, 0, 0⟩ ∧
    Fires s (.rowAcrd ⟨0, 0, 4, 0x4b, 0x4b, 0x4b, 0, 0, 31⟩) 0x4c ⟨0, 0, 4, 0x4b, 0x4b, 0x4b, 0, 0, 31⟩ ∧
    Fires s (.rowAcz ⟨0, 0, 71, 0x4b, 0x4b, 0x4b, 1, 0, 0⟩) 0x4d ⟨0, 0, 71, 0x4b, 0x4b, 0x4b, 1, 0, 0⟩ ∧
    Fires s (.rowAcz ⟨0, 0, 71, 1, 0x4b, 0x4b, 1, 1, 0⟩) 0x4d ⟨0, 0, 71, 1, 0x4b, 0x4b, 1, 1, 0⟩ ∧
    Fires s (.rowAcadd ⟨0, 0, 64, 2, 0x4b, 0x4b, 0, 0, 4⟩) 0x4e ⟨0, 0, 64, 2, 0x4b, 0x4b, 0, 0, 4⟩ ∧
    Fires s (.rowAcadd ⟨0, 0, 64, 2, 0x4b, 0x4b, 0, 5, 3⟩) 0x4e ⟨0, 0, 64, 2, 0x4b, 0x4b, 0, 5, 3⟩ ∧
    (rowCtx s ⟨0, 0, 64, 2, 0x4b, 0x4b, 0, 5, 3⟩).guard = false ∧
    Fires s (.rowDot ⟨0, 0, 64, 2, 0x4b, 0x4b, 0, 5, 0⟩) 0x4a ⟨0, 0, 64, 2, 0x4b, 0x4b, 0, 5, 0⟩ ∧
    Fires s (.rowDots ⟨0, 0, 64, 2, 1, 0x4b, 4, 2, 0⟩) 0x4b ⟨0, 0, 64, 2, 1, 0x4b, 4, 2, 0⟩ := by
  and_intros <;> first | decide +kernel | rfl | exact fires (by decide +kernel)

/-- A PE whose selected bank holds a format, and its accumulators a type and these words. -/
def banked (fmt : BitVec 4) (int : Bool) (d : BitVec 256 := 0) : PE :=
  { pointing with bank := Vector.replicate 2 { fmt := fmt }, acc := Vector.replicate 8 { data := d, int := int, res := BitVec.ofNat 32 (resBits d.toNat 16) } }

theorem witness_dotAndQuantizeRows :
    Fires (peState (banked 9 true)) (.rowDot ⟨0, 0, 71, 0x45, 0x4b, 0x4b, 9, 0, 0⟩) 0x4a ⟨0, 0, 71, 0x45, 0x4b, 0x4b, 9, 0, 0⟩ ∧
    Fires (peState (banked 0 false)) (.rowDot ⟨0, 0, 71, 2, 0x4b, 0x4b, 0, 0, 0⟩) 0x4a ⟨0, 0, 71, 2, 0x4b, 0x4b, 0, 0, 0⟩ ∧
    Fires (peState (banked 3 false)) (.rowDot ⟨0, 0, 71, 2, 0x4b, 0x4b, 2, 0, 0⟩) 0x4a ⟨0, 0, 71, 2, 0x4b, 0x4b, 2, 0, 0⟩ ∧
    Fires (peState (banked 4 false)) (.rowDots ⟨0, 0, 71, 2, 2, 0x4b, 4, 0, 0⟩) 0x4b ⟨0, 0, 71, 2, 2, 0x4b, 4, 0, 0⟩ ∧
    (rowCtx (peState (banked 4 false)) ⟨0, 0, 71, 2, 2, 0x4b, 4, 0, 0⟩).guard = true ∧
    Fires (peState (banked 0 false)) (.rowQnt ⟨0, 0, 4, 2, 0x4b, 0x4b, 4, 0, 0⟩) 0x4f ⟨0, 0, 4, 2, 0x4b, 0x4b, 4, 0, 0⟩ ∧
    (fmtF32.value 0).isZero = true ∧ (fmtF32.value 0x7fc00000).isNan = true ∧
    Fires (peState (banked 0 false 0x7fc00000)) (.rowQnt ⟨0, 0, 4, 2, 0x4b, 0x4b, 5, 0, 4⟩) 0x4f ⟨0, 0, 4, 2, 0x4b, 0x4b, 5, 0, 4⟩ ∧
    Fires (peState (banked 0 false 0x3f800000)) (.rowQnt ⟨0, 0, 4, 2, 0x4b, 0x4b, 0xa, 0, 4⟩) 0x4f ⟨0, 0, 4, 2, 0x4b, 0x4b, 0xa, 0, 4⟩ ∧
    (rowCtx (peState (banked 0 false)) ⟨0, 0, 4, 2, 0x4b, 0x4b, 4, 0, 0⟩).a.data.getLsbD 3 = true ∧
    (fmtF32.value 0x3f800000 = .fin false 0x800000 (-23)) ∧ topExp 0x800000 (-23) = -8 + 8 ∧
    topAt (-8 + 8) (fmtF32.value 0x3f800000) = true ∧ topUpTo (-8 + 8) (fmtF32.value 0x3f800000) = true ∧
    topUpTo (-8 + 8) (fmtF32.value 0) = true ∧ topUpTo (-127 + 15) (fmtF32.value 1) = true ∧ (fmtF32.value 1).isZero = false ∧
    (∀ p ∈ [(fun i => if i = 3 then (2 : ℚ) ^ (-6 : Int) else 0, 0), (fun _ => (2 : ℚ) ^ (9 : Int), 15), (fun _ => 1, 6)], OffsetOf p.1 p.2) ∧
    (∀ c ∈ [0x3f800000, 0xff800000, 0x7fc00000], let s := peState { banked 0 false c with v := (Vector.replicate 64 ({} : FVal)).set 4 (FVal.of 0x3f80000000000008) }
      Fires s (.rowQnt ⟨0, 0, 4, 4, 0x4b, 0x4b, 0xa, 0, 4⟩) 0x4f ⟨0, 0, 4, 4, 0x4b, 0x4b, 0xa, 0, 4⟩ ∧
      (rowCtx s ⟨0, 0, 4, 4, 0x4b, 0x4b, 0xa, 0, 4⟩).a.data = 0x3f80000000000008) := by
  simp only [List.forall_mem_cons, List.not_mem_nil, IsEmpty.forall_iff, implies_true, and_true]
  and_intros <;> first | decide +kernel | rfl | exact fires (by decide +kernel)

theorem witness_rowChecks : let r : Row := ⟨0, 0, 4, 0x45, 0x4b, 0x4b, 3, 0, 1⟩
    let d : Row := ⟨0, 0, 71, 2, 0x4b, 0x4b, 9, 0, 0⟩
    let l : Row := ⟨0, 0, 4, 0x45, 0x4b, 0x4b, 3, 0, 0⟩
    let a : Row := ⟨0, 0, 4, 3, 2, 0x4b, 3, 0, 0⟩
    let e := peState pointing
    let e := e.modCell 0 fun x => { x with ecc := [(0xffff, true)] }
    let m := peState { v := (Vector.replicate 64 ({} : FVal)).set 3 { data := 1 } }
    (Instr.rowAdd ⟨0, 0, 74, 1, 2, 0x4b, 3, 0, 0⟩).rowParts = some (1, ⟨0, 0, 74, 1, 2, 0x4b, 3, 0, 0⟩) ∧
    (Instr.rowAdd ⟨0, 0, 74, 1, 2, 0x4b, 3, 0, 0⟩).wf = false ∧
    (Instr.rowLd r).wf = true ∧ (rowCtx (peState pointing) r).badAddress 0x40 ≠ none ∧ ((peState pointing).cell 0).stop = none ∧
    (Instr.rowDot d).wf = true ∧ (rowCtx (peState {}) d).badAddress 0x4a = none ∧ (rowCtx (peState {}) d).typeOk 0x4a = false ∧
    (Instr.rowLd l).wf = true ∧ (rowCtx e l).badAddress 0x40 = none ∧ (rowCtx e l).typeOk 0x40 = true ∧ (rowCtx e l).eccAt 0x40 ≠ none ∧
    e.sched.firing.quiet = false ∧ (Instr.rowAdd a).wf = true ∧ (rowCtx m a).badAddress 1 = none ∧ (rowCtx m a).typeOk 1 = true ∧
    (rowCtx m a).eccAt 1 = none ∧ (rowCtx m a).badRead 1 ≠ none := by
  and_intros <;> decide +kernel

/-! ### Events -/

/-- A log entry that is due. -/
def entryOf (rem : Nat) : LogEntry := { word := 0, pcw := 0, srcA := {}, srcB := {}, srcC := {}, dest := destG 31, remain := rem, val := 7, flags := 1 }

theorem witness_sequencerEvents :
    (∀ n ∈ [1, 24], let x : CellSt := { issued := true, seq := { log := [entryOf n] } };
      x.issued = true ∧ x.wrote = [] ∧ x.fpLanded = [] ∧ x.seq.errinj.arm = false ∧ (entryOf n).flags &&& x.seq.fp.enable = 0 ∧
      (entryOf n).fault = 0 ∧ (entryOf n).phase = none ∧ (entryOf n).dest = destG 31) ∧
    (one { freeze := .bank }).cell 0 = { freeze := .bank } ∧ (one { freeze := .wait }).cell 0 = { freeze := .wait } ∧
    ((asking (.mem 7) false .read (.failed cPoison)).cell 0).freeze = .mem 7 ∧
    ((asking (.mem 7) false .read (.failed cPoison)).req 7).map (·.stage) = some (.failed cPoison) := by
  simp only [List.forall_mem_cons, List.not_mem_nil, IsEmpty.forall_iff, implies_true, and_true]
  and_intros <;> decide +kernel

/-- A region that runs on PE 0 with this landing slot. -/
def landing (n : Nat) : State :=
  peState { slots := [{ unit := .alu, remain := n, dest := 63, slot := 0, stage := 0, inst := 0, pay := .reg {}, row := 0, k := 0 }] }

/-- A signal-store of these words to cell 5. -/
def signalled (ws : List Word) (sig : Bool) (a : Nat) : State :=
  { gangOf [] 0 with mem := { signals := [{ src := 0, dst := 5, addr := a, words := ws, sig := sig, vf := 0, q := 0 }] } }

theorem witness_regionEvents :
    (let s := rowState 1 2 [0x0000108020496600];
      (s.cell 0).stop = none ∧ (s.cell 0).restart = false ∧ (s.shots 0).length = 1 ∧
      ((s.shots 0).all fun h => ((s.shotCtx h).badAddress h.code).isNone && (s.shotCtx h).typeOk h.code) = true ∧ (s.fabricBanks 0).Nodup) ∧
    (∀ n ∈ [1, 8], ((landing n).cell 0).running 0 = true ∧ ((landing n).cell 0).seq.errinj.arm = false ∧
      ((landing n).cell 0).restart = false ∧ srcBad ({} : FVal).data ({} : FVal).res = none ∧
      (((landing n).cell 0).pe[0]).slots.map (fun l => (l.bad, l.remain, l.pay)) = [(false, n, .reg {})]) ∧
    (let r : Region := { conf := true, peset := 1, ii := 1, rn := 1, rc := 1, state := .running, ph := some 5, relAt := some 9 };
     let s : State := { signalled [1] true 0 with disp := { phasers := [(5, { scope := 2 })] } };
      (one (CellSt.setRegion {} 0 r)).released 0 = true ∧ s.mem.signals.map (fun g => (g.src, g.dst, g.id)) = [(0, 5, 0)] ∧
      (s.phaser 5).order ≠ 1 ∧ r.delay = 0 ∧ r.endAt ≤ r.rc.toNat ∧ r.cause = 0 ∧ (CellSt.setRegion {} 0 r).restart = false ∧
      (CellSt.setRegion {} 0 r).allLanded r = true) ∧
    ({ state := .running, delay := 1 } : Region).delay ≠ 0 := by
  simp only [List.forall_mem_cons, List.not_mem_nil, IsEmpty.forall_iff, implies_true, and_true]
  and_intros <;> decide +kernel

/-- A scratchpad fill of one chunk. -/
def filling (run : Nat) : CopyCmd :=
  { gaddr := 0, soff := 0x7ff80, run := run, nrun := 1, gstride := 0, sstride := 0, cwoff := 0, cval := 1, op := 4, dir := false, pattern := 5 }

/-- A gather descriptor: ROWPTR 0, COLIDX 0x100, VALS 0x200, elements of 8 bytes, one column. -/
def gathering : List Byte := leBytes 0 8 ++ leBytes 0x100 8 ++ leBytes 0x200 8 ++ leBytes 0 8 ++ [3, 0, 0, 0] ++ leBytes 1 4 ++ leBytes 0 24
/-- A cell that fills its scratchpad, its ASID mapped to host memory or to device memory. -/
def mapping (h : Bool) : State :=
  { one { copyq := [filling 8], bound := some ⟨0, 0, 0, 0⟩ } with
    sys := { cxl := #v[⟨true, true, 6, 16⟩, ⟨false, false, 0, 0⟩] }
    mem := { host := [(4, 1)], lls := [(3, { data := 9 })], asids := [(0, { valid := true })], tlb := [{ die := 0, asid := 0, base := 0, size := if h then 2 else 1, pte := if h then 0x20e else 0x2e }] } }
/-- What a translation answers, without the state after it. -/
def answers {α β : Type} (r : Except α β × State) : Bool := match r.1 with | .ok _ => true | .error _ => false

theorem witness_arrivalEvents :
    (let s : State := { one { bound := some ⟨0, 0, 0, 0⟩ } with mem := { reqs := [(7, { cell := 0, kind := .fetch, line := 0x20, asid := 0, vf := 0, q := 0, need := 4, stage := .done })] } };
      (s.cell 0).seq.id.asid = 0 ∧ (s.cell 0).bound.isSome = true ∧ (s.cell 0).ifind 0x20 = none) ∧
    (let s := one { scrub := [0xffff], ecc := [(0xffff, false)] };
      (s.cell 0).scrub = [0xffff] ∧ (s.cell 0).bankFree 5 (bankOf (8 * 0xffff)) = true ∧ tfind (s.cell 0).ecc 0xffff = some false) ∧
    (let s := signalled [1, 2, 3, 4, 5, 6, 7, 8, 9] false 0x7ffb8;
      s.mem.signals.map (fun g => (g.words.length, g.addr % 8, g.sig)) = [(9, 0, false)] ∧ (s.cell 5).spad.wf = true ∧
      (s.cell 5).puts = [] ∧ ∀ j < 9, (s.cell 5).bankFree 3 (bankOf (0x7ffb8 + 8 * j)) = true) ∧
    (let s := signalled [1] true 0x7fff8;
      (s.cell 5).bankFree 3 (bankOf 0x7fff8) = true ∧ (s.cell 5).spBad 0x7fff8 = false ∧ (s.cell 5).puts = []) ∧
    (∀ n ∈ [8, 128], let s := one { copyq := [filling n] };
      (s.cell 0).pending .copy = false ∧ (s.cell 0).stop = none ∧ (filling n).stage = .idle ∧ (filling n).run % 8 = 0 ∧
      0 < (filling n).run ∧ (filling n).run ≤ 128 ∧ (filling n).soff + (filling n).run ≤ 2 ^ 19 ∧ (filling n).progress = 0) ∧
    (∀ st ∈ [CopyStage.idle, .writing, .ending], let k : CopyCmd := { filling 8 with stage := st, progress := 8 };
      (one { copyq := [k] }).cell 0 = { copyq := [k] } ∧ k.op ≠ 3 ∧ k.run * k.nrun ≤ k.progress) ∧
    (∀ op ∈ [(1 : Fin 8), 2, 3, 4, 5], let k := { filling 8 with op := op, gaddr := 0x180 };
      k.run % 8 = 0 ∧ k.gaddr.toNat % 8 = 0 ∧ k.gaddr.toNat < 2 ^ 63 ∧ k.gstride.toInt % 8 = 0 ∧ k.sstride.toInt % 8 = 0 ∧
      k.soff % 8 = 0 ∧ k.progress % 4096 = 0 ∧ k.progress < k.run * k.nrun ∧ k.chunk = [(0, 8)] ∧ k.soff + 7 < 2 ^ 19) ∧
    ({ filling 8 with op := 2, soff := 0x80000 } : CopyCmd).soff = 2 ^ 19 ∧
    (let s := one {}; (match s.readGlobal 0 0 0x180 8 with | (.error (.fail _ _), u) => decide (u = s) | _ => false) = true) ∧
    (∀ h ∈ [true, false], let s := mapping h
      answers (s.readGlobal 0 0 0x180 8) = true ∧ (s.readGlobal 0 0 0x180 8).2 = s ∧
      (match s.translate 0 0 (0x180 / 128 * 128) 2 false with | (.ok t, u) => decide (u = s ∧ t.host = h ∧ t.addr / 128 = 3) | _ => false) = true ∧
      s.cxlReach = true ∧ s.mem.host.wf = true ∧ s.recallLost 3 = false ∧ s.lls 3 = some { data := 9 }) ∧
    (let k : CopyCmd := { filling 8 with op := 3, gaddr := 0x2000000500000180, stage := .reading, got := [(0x7ff80, some 7)] };
      (gangOf [] 0).sameGang 0 (k.gaddr.toNat / 2 ^ 32 % 65536) = true ∧ k.gaddr.toNat / 2 ^ 32 % 2 ^ 15 ≠ 0 ∧ (∀ e ∈ k.got, e.2.isSome = true) ∧
      ((k.got.find? fun e => e.1 = 0x7ff80).bind (·.2)).isSome = true) ∧
    (let k := { filling 8 with op := 5, gath := gathering }
     let s := mapping true;
      k.gath.length = 64 ∧ answers (s.readBytes 0 0 0 4) = true ∧ (s.readBytes 0 0 0 4).2 = s ∧ answers (s.readBytes 0 0 4 4) = true ∧
      (s.readBytes 0 0 4 4).2 = s ∧ leNat ((k.gath.drop 0x24).take 4) = 1 ∧ leNat ((k.gath.drop 0x20).take 1) = 3 ∧
      leNat (mread s.mem.host 0 4) = 0 ∧ leNat (mread s.mem.host 4 4) = 1 ∧ leNat (mread s.mem.host 0x100 4) = 0 ∧
      answers (s.readBytes 0 0 0x100 4) = true ∧ (s.readBytes 0 0 0x100 4).2 = s ∧ answers (s.readBytes 0 0 0x200 8) = true ∧
      (s.readBytes 0 0 0x200 8).2 = s) := by
  simp only [List.forall_mem_cons, List.not_mem_nil, IsEmpty.forall_iff, implies_true, and_true]
  and_intros <;> decide +kernel

/-- Request 7 of cell 0, which waits for it, in a stage with a translation. -/
def requested (k : ReqKind) (st : ReqStage) (t : Trans) (m : MemSt := {}) : State :=
  { one { freeze := .mem 7 } with sys := { cxl := #v[⟨true, true, 6, 16⟩, ⟨false, false, 0, 0⟩] }, mem := { m with asids := [(0, { valid := true })], tlb := [{ die := 0, asid := 0, base := 0, size := 2, pte := 0x20e }], reqs := [(7, { cell := 0, kind := k, line := 3, asid := 0, vf := 0, q := 0, need := 1, trans := t, stage := st })] } }

/-- Of request 7: whether it waits at its slice, whether the slice's queue has room for it, whether an older write stands before it. -/
def first7 (s : State) : Option (Bool × Bool × Bool) :=
  (s.req 7).map fun r => (r.stage == .slice, s.queued 7 r, s.olderWrite 7 r)

theorem witness_requestEvents :
    (∀ k ∈ [ReqKind.read, .fill, .fetch], let s := requested k .walk { addr := 0 };
      (s.cell 0).freeze = .mem 7 ∧ (s.req 7).map (fun r => (r.stage, r.kind)) = some (.walk, k) ∧ answers (s.translate 0 0 384 1 false) = true ∧
      answers ({ s with mem := { s.mem with asids := [] } }.translate 0 0 384 1 false) = false) ∧
    (∀ b ∈ [(0 : BitVec 2), 2], let s := requested .read .slice { addr := 0x180, host := true } { hostBad := [(3, b)] };
      s.cxlReach = true ∧ first7 s = some (true, true, false) ∧ (s.hostPoison 3 &&& 3 = 0 ↔ b = 0)) ∧
    (let s := requested (.write 1 5 false 0) .slice { addr := 0x180, host := true };
      s.cxlReach = true ∧ first7 s = some (true, true, false) ∧ s.mem.host.wf = true) ∧
    (∀ b ∈ [(0 : BitVec 2), 1], let l : LlsLine := { data := 9, poison := b }
      let s := requested .read .slice { addr := 0x180 } { lls := [(3, l)] };
      s.gate 3 false true = .ok ∧ s.bitsRead 3 = (none, s) ∧ s.lls 3 = some l ∧ first7 s = some (true, true, false)) ∧
    (let s := requested (.write 1 5 false 0) .slice { addr := 0x180 } { lls := [(3, { data := 9 })] };
      s.gate 3 true true = .ok ∧ s.bitsRead 3 = (none, s) ∧ (1 : BitVec 128) ≠ BitVec.allOnes 128 ∧ first7 s = some (true, true, false)) ∧
    (let s := requested (.atomic 0 120 8 5 0) .slice { addr := 0x180 } { lls := [(3, { data := 9 })] };
      s.gate 3 true true = .ok ∧ s.bitsRead 3 = (none, s) ∧ (s.req 7).map (·.kind) = some (.atomic 0 120 8 5 0) ∧ first7 s = some (true, true, false)) ∧
    (∀ p ∈ [((1 : Fin 16), (124 : Nat), (4 : Nat), (0 : Word)), (9, 0, 8, 0), (10, 120, 8, 0), (10, 0, 8, 9), (10, 8, 8, 9)],
      let s := requested (.atomic p.1 p.2.1 p.2.2.1 5 p.2.2.2) .slice { addr := 0x180 } { lls := [(3, { data := 9 })] };
      s.gate 3 true true = .ok ∧ first7 s = some (true, true, false) ∧ p.2.1 % p.2.2.1 = 0 ∧ p.2.1 < 128 ∧
      p.2.2.1 = (if p.1.val = 1 then 4 else 8) ∧ (s.req 7).map (·.trans.cbit) = some true) := by
  simp only [List.forall_mem_cons, List.not_mem_nil, IsEmpty.forall_iff, implies_true, and_true]
  and_intros <;> decide +kernel

theorem witness_lineEvents :
    (one {}).gate 5 false true = .fill ∧ (one {}).gran 10 = {} ∧ (one {}).gran 11 = {} ∧
    (∀ b ∈ [(0 : BitVec 2), 2], let l : LlsLine := { data := 1, dirty := true, poison := b, soft := 1 }
      let s : State := { one {} with mem := { lls := [(5, l)] } };
      s.mem.lls = [(5, l)] ∧ l.hard = 0 ∧ l.syn = 0 ∧ s.mem.dram.wf = true) ∧
    (let m : MigEntry := { state := .active, big := false, old := 0x10000, new := 0x20000, bmap := 0x30000 };
     let s : State := { requested .read .slice { addr := 0x20000 } { lls := [(512, { data := 1 })], mig := [(1023, m)] } with sys := { stktrn := 1 } };
      m.oh = false ∧ nextUnpulled s m = some 0 ∧ m.new.toNat / 128 = 1024 ∧ m.old.toNat / 128 = 512 ∧ s.lls 512 = some { data := 1 } ∧
      s.lls 1024 = none ∧ setFull s 1024 = false ∧ m.bitLine 0 ≠ 1024 ∧ s.bitsRead 1024 = (none, s) ∧ s.scan [m.bmap.toNat / 128] = (none, s) ∧ lineGate s (m.bitLine 0) true false = .ok ∧
      s.sys.stktrn.getLsbD (dpaStack m.old.toNat) = true ∧ dirFind s 512 = none ∧ migPulled s m 0 = false ∧ 0 < m.lines ∧
      m.new.toNat % 128 = 0 ∧ first7 s = some (true, true, false) ∧ (s.req 7).map (·.trans.addr / 128) = some 1024) ∧
    ∀ n ∈ [0, 1, 4, 5], (({ one {} with mem := { gran := [(0, { badSyms := n })] } } : State).gran 0).badSyms = n := by
  simp only [List.forall_mem_cons, List.not_mem_nil, IsEmpty.forall_iff, implies_true, and_true]
  and_intros <;> decide +kernel

theorem witness_hostAndShootdownEvents :
    let reached : SysSt := { bootDone := true, cxl := #v[⟨true, true, 6, 16⟩, ⟨false, false, 0, 0⟩] }
    (∀ own ∈ [true, false], let s : State := { one {} with mem := { dir := [⟨3, own⟩], recalls := [⟨3, 0⟩] } };
      s.mem.recalls.any (·.line = 3) = true ∧ migOf s 3 = none ∧ dirFind s 3 = some ⟨3, own⟩ ∧ s.mem.dram.wf = true) ∧
    (let s := requested .read .slice { addr := 0x180 } { recalls := [⟨3, 0⟩] };
      s.mem.recalls = [⟨3, 0⟩] ∧ 0 ≤ s.now ∧ (s.mem.reqs.map fun e => (e.1, e.2.stage, e.2.kind)) = [(7, .slice, .read)] ∧
      first7 s = some (true, true, false) ∧ (s.cell 0).freeze = .mem 7) ∧
    (∀ b ∈ [(0 : BitVec 2), 3], let l : LlsLine := { data := 1, poison := b }
      let s : State := { one {} with mem := { lls := [(0x3ffffffff, l)] }, sys := reached };
      s.hostMem = true ∧ dirFind s 0x3ffffffff = none ∧ dirOldest s 0x3ffffffff = none ∧ s.bitsRead 0x3ffffffff = (none, s) ∧ s.gate 0x3ffffffff false false = .ok ∧
      s.lls 0x3ffffffff = some l) ∧
    (∀ a ∈ [0, 0x1ffffffff80], let s : State := { one {} with sys := reached }
      a < 2 ^ 41 ∧ s.hostMem = true ∧ a % 128 + 128 ≤ 128 ∧ s.hostBehind (a / 128) = false ∧ s.queueRoom (a / 128) = true ∧ migOf s (a / 128) = none ∧
      nbBusy s (a / 128) = (false, false) ∧ s.lls (a / 128) = none) ∧
    (∀ n ∈ [0, 2], let s : State := { one {} with mem := { shoots := [(7, { asid := 3, range := none, passes := n })] } }
      tfind s.mem.shoots 7 = some { asid := 3, range := none, passes := n } ∧ s.mem.reqs = [] ∧ s.mem.nb = []) := by
  simp only [List.forall_mem_cons, List.not_mem_nil, IsEmpty.forall_iff, implies_true, and_true]
  and_intros <;> decide +kernel

/-- Near-bank command 7 of cell 0. -/
def nearBank (op : Fin 16) (count : Nat) (st : NbStage) (rows : List (Option Nat × Option Nat × Option Nat)) : NbCmd :=
  { id := 7, cell := 0, vf := 0, q := 0, asid := 0, op := op, bf16 := false, dbase := 0, xbase := 0, ybase := 0, dstride := 0x400,
    xstride := 0, ystride := 0, count := count, alpha := 0, roff := 0, cwoff := 0x7fff8, cval := 1, ctrls := [], stage := st, rows := rows }
/-- A machine with that command, whose ASID maps the first 2 MiB to device memory. -/
def nearBanked (k : NbCmd) (q : List BankCmd := []) : State :=
  { one {} with mem := { nb := [k], bankQ := q, asids := [(0, { valid := true })], tlb := [{ die := 0, asid := 0, base := 0, size := 1, pte := 0x2e }] } }

theorem witness_nearBankEvents :
    (let k := nearBank 0 1 .accepted [];
     let s := nearBanked k;
      s.nbFind 7 = some k ∧ s.nbBehind k = false ∧ answers (s.nbChecks k) = true ∧ (s.nbChecks k).2 = s ∧ s.mem.dir = [] ∧ s.mem.lls = []) ∧
    ({ nearBank 0 1 .accepted [] with dbase := 8 } : NbCmd).lists.all RowList.aligned = false ∧
    (∀ p ∈ [((0 : Fin 16), (none : Option Nat)), (2, some 0), (1, some 0)], let k := nearBank p.1 1 .executing [(some 0x400400, p.2, none)]
      let b : BankCmd := ⟨7, 0, 0, 0, [⟨0, false⟩]⟩
      (nearBanked k [b]).mem.bankQ = [b] ∧ (nearBanked k [b]).nbFind 7 = some k ∧ k.rows[0]? = some (some 0x400400, p.2, none) ∧
      (p.1 = 1 → sameBank 0 0x400400 = true) ∧ ∀ i < 16, (nearBanked k).gran (0 / 1024 * 16 + i) = {}) ∧
    (∀ st ∈ [NbStage.executing, .results, .finished], let k := nearBank 6 1 st [(some 0x400, none, none)]
      (nearBanked k).nbFind 7 = some k ∧ ((nearBanked k).cell 0).pending (.nb 7) = false ∧ k.left = 0 ∧ k.cause = 0 ∧ k.bad = none) ∧
    (∀ p ∈ [((3 : Fin 16), (some 0x400 : Option Nat), (some 0xc00 : Option Nat)), (4, some 0x400, some 0xc00), (5, some 0x400, some 0xc00), (6, some 0x400, none), (7, none, none),
        (8, none, some 0xc00)], let k := nearBank p.1 1 .executing [(p.2.1, some 0x800, p.2.2)]
      let b : BankCmd := ⟨7, 0, 0, 0, [⟨0, false⟩]⟩
      (nearBanked k [b]).mem.bankQ = [b] ∧ (nearBanked k [b]).nbFind 7 = some k ∧ k.rows[0]? = some (p.2.1, some 0x800, p.2.2) ∧
      (nearBanked k [b]).mem.dram.wf = true ∧ ∀ i < 16, (nearBanked k).gran (0x800 / 1024 * 16 + i) = {} ∧ (nearBanked k).gran (0xc00 / 1024 * 16 + i) = {}) ∧
    (let k := { nearBank 8 2 .executing [] with out := [(1, 9), (0, 7)] };
      (nearBanked k).nbFind 7 = some k ∧ ((nearBanked k).cell 0).pending (.nb 7) = false ∧ k.left = 0 ∧ 7 ≤ k.op.val ∧ k.cause = 0 ∧
      k.out.find? (·.1 = 1) = some (1, 9)) := by
  simp only [List.forall_mem_cons, List.not_mem_nil, IsEmpty.forall_iff, implies_true, and_true]
  and_intros <;> decide +kernel

/-! ### Links, records, placement, functions, the module -/

/-- A step 0 of two modules over two elements, in a phase. -/
def reducing (st : LinkPhase) : LinkCmd :=
  { receiving with op := 2, m := 2, boff := 0, len := 2, woff := 0x100, phase := st, sent := true, rcvd := true,
                   got := (0, some 0x3f800000bf800000) :: (List.range 6).map fun j => (0x130 + 8 * j, some 0) }

theorem witness_linkEvents :
    let m : LinkMsg := { kind := 0, group := 1, round := 3, tag := 2, dcell := 0, data := List.replicate 8 9 }
    let f : Flit := { fseq := 0xffff, typ := 1 }
    let g : Flit := { fseq := 0, typ := 1 }
    let e : Flit := { fseq := 5, typ := 1, last := true, msg := some m }
    let up : Port := { state := .up }
    let snd := ported { state := .up, replay := [e] } { linkq := [{ receiving with op := 0 }] }
    let rcv := ported up { linkq := [receiving] }
    (((ported up).port 31).state = .up ∧ ((ported up).port 31).ackseq + 1 = 0 ∧ (ported up).isAborted 1 3 = false ∧
      ((ported up).cell 0).linkq = [] ∧ ((ported up).port 31).heldBytes + m.data.length ≤ 262144) ∧
    ((rcv.cell 0).linkq = [receiving] ∧ (rcv.cell 0).stop = none ∧ (rcv.port 31).unmatched = [] ∧ m.data.length = receiving.len ∧ receiving.op = 1 ∧
      receiving.started = true ∧ receiving.noRecv = false ∧ receiving.rcvd = false ∧ receiving.phase = .rest ∧ receiving.port = 31 ∧
      m.group = receiving.group ∧ m.round = receiving.round ∧ m.tag = receiving.tag) ∧
    flitCorrupt [] = true ∧ ((ported up).port 31).nak ≠ some ((ported up).port 31).ackseq ∧
    (∀ n ∈ [6, 7], let x := (ported { state := .up, nak := some 0xffff, missed := n }).port 31;
      x.nak = some x.ackseq ∧ x.replay = [] ∧ x.missed = n) ∧ f.fseq ≠ g.fseq ∧
    ((ported { state := .up, replay := [f, g] }).port 31).replay = [f, g] ∧
    (∀ n ∈ [0, 6, 7, 8], let x := (ported { state := .up, replay := [f], replayFrom := some 0xffff, failed := n }).port 31;
      x.replayFrom = some f.fseq ∧ x.failed = n) ∧
    ((ported { state := .up, replay := [f], waiting := [g] }).port 31).waiting = [g] ∧ 1 ≤ (1 : BitVec 16).toNat ∧
    ((snd.port 31).replay = [e] ∧ (snd.port 31).waiting = [] ∧ (snd.cell e.cell).linkq = [{ receiving with op := 0 }] ∧
      receiving.sent = false) ∧
    ((ported { state := .training }).port 31).state = .training ∧
    (∀ d ∈ [(0 : Word), 1], let s := one { freeze := .wait, hold := [1, 0, 0, 3, d] };
      (s.cell 0).freeze = .wait ∧ (s.cell 0).hold = [1, 0, 0, 3, d] ∧ (s.cell 0).stop = none ∧ s.sys.devtime = 0) ∧
    (∀ st ∈ [LinkPhase.rest, .form, .adding, .added, .root, .rooted, .taking], let k := reducing st
      ((one { linkq := [k] }).cell 0).linkq = [k] ∧ ((one { linkq := [k] }).cell 0).pending .link = false ∧ k.op = 2 ∧ k.started = true ∧
      0 < k.m ∧ k.step + 2 = k.m ∧ k.phase = st ∧ k.sent = true ∧ k.rcvd = true ∧ k.got.any (·.2.isNone) = false ∧
      (gotBytes k.got k.boff 8).isSome = true ∧ (gotBytes k.got (k.woff + 48) 48).isSome = true) := by
  simp only [List.forall_mem_cons, List.not_mem_nil, IsEmpty.forall_iff, implies_true, and_true]
  and_intros <;> decide +kernel

/-- A line as its bytes at these offsets. -/
def lineOf (l : List (Nat × Nat)) : Line := BitVec.ofNat 1024 (l.foldl (fun a p => a + p.2 * 256 ^ p.1) 0)
/-- The least KERNEL record. -/
def leastKernel : Rec :=
  { slot := 0, kind := 1, line0 := lineOf [(0x11, 0x10), (0x18, 4), (0x28, 0x11), (127, 0xc1)], line1 := lineOf [(127, 0x8f)], age := 0 }
/-- Function 1 enabled with window 1, its queue 3 at a HEAD before these lines. -/
def monitored (h : Nat) (l0 l1 : Line) : State :=
  { queued [] { head := h } with fns := [(1, { state := .enabled, window := 1 })], mem := { lls := [(512 + h, { data := l0 }), (513 + h, { data := l1 })] } }

theorem witness_recordEvents :
    (∀ p ∈ [(31, lineOf [(127, 0x80)], (0 : Line), false), (30, leastKernel.line0, leastKernel.line1, true)],
      let s := monitored p.1 p.2.1 p.2.2.1
      let x := s.queue 1 3
      let a := (s.fn 1).window.toNat * 512 + x.ringofs + x.head
      let l0 := s.lineVal a
      x.state = .active ∧ (s.fn 1).state ≠ .disabled ∧ (s.fn 1).window ≠ 0 ∧ x.head < 2 ^ x.ringlog ∧ l0.getLsbD 1023 = x.par ∧
      sealKind l0 < 7 ∧ sealExt l0 = p.2.2.2 ∧ sealsOk l0 (if p.2.2.2 then some p.2.2.1 else none) = true ∧
      (p.2.2.2 = true → x.head + 1 < 2 ^ x.ringlog ∧ (s.lineVal (a + 1)).getLsbD 1023 = x.par) ∧
      Opens s false (if p.2.2.2 then [a, a + 1] else [a]) ∧
      Rec.limitsOk s (s.fn 1) { slot := 0, kind := BitVec.ofNat 4 (sealKind l0), line0 := l0, line1 := if p.2.2.2 then p.2.2.1 else 0, age := 0 } = true) ∧
    (∀ k : Fin 7, let s := queued [recOf (BitVec.ofNat 4 k.val) 0 0]
      (s.queue 1 3).first = some (recOf (BitVec.ofNat 4 k.val) 0 0) ∧ (s.queue 1 3).state = .active ∧ (s.queue 1 3).cancel = false) ∧
    (recOf 1 0 0).num 0x20 8 = 0 ∧ (recOf 1 0 0).num 0x30 8 = 0 ∧ (recOf 3 0x24 1).num 0x24 1 = 1 ∧ (recOf 3 0x24 0).num 0x24 1 = 0 ∧
    (recOf 4 0x12 1).num 0x12 1 = 1 ∧ (({ nsig := 1 } : Phaser).drop 0).isSome = true ∧ (∀ i < 4, (recOf 5 0 0).num (0x10 + i) 1 < 2) ∧
    (let r := recOf 2 0x12 1
     let w : WorkQ := { m := 4, base := 0x1000, tail := 15 }
     let s : State := { queued [r] with
       disp := { (queued [r]).disp with wqs := [(0, w)] }
       mem := { asids := [(0, { valid := true })], tlb := [{ die := Fin.ofNat 16 (queueDie ((queued [r]).fn 1)), asid := 0, base := 0, size := 1, pte := 0x2e }] } };
      tfind s.disp.wqs (r.num 0x10 2) = some w ∧ w.appenders = [] ∧ (w.tail - w.head) + r.num 0x12 2 ≤ 2 ^ w.m ∧
      Opens s true ((List.range (r.num 0x12 2)).map fun j => w.slot (w.tail + j) / 128) ∧
      (let u := s.setWq 0 w
       answers (u.readBytes (queueDie (s.fn 1)) 0 (r.num 0x18 8) 64) = true ∧ (u.readBytes (queueDie (s.fn 1)) 0 (r.num 0x18 8) 64).2 = u)) ∧
    ((queued [recOf 6 0 0]).queue 1 3).recs.head? = some (recOf 6 0 0) ∧ (recOf 6 0x10 1).num 0x10 1 = 1 ∧
    ((queued [recOf 6 0x10 1] { cancel := true }).queue 1 3).cancel = true ∧
    (let r : Rec := { recOf 5 0 0 with stage := .live, waitSt := [1, 1, 1, 1] };
      (queued [r] |>.queue 1 3).recs.find? (·.slot = r.slot) = some r ∧ r.num 0 8 = 0 ∧ ∀ i < 4, r.num (0x10 + i) 1 = 0 ∧ r.waitSt.getD i 0 = 1) ∧
    (let r : Rec := { recOf 6 0 0x180 with stage := .ended };
     let m := (requested .read .walk { addr := 0 }).mem
     let s : State := { queued [r] with mem := { m with tlb := m.tlb.map fun e => { e with die := Fin.ofNat 16 (queueDie ((queued [r]).fn 1)) } }, sys := (requested .read .walk { addr := 0 }).sys };
      r.num 0 8 = 0x180 ∧ (s.queue 1 3).recs.find? (·.slot = r.slot) = some r ∧ s.cxlReach = true ∧ s.mem.host.wf = true ∧
      (s.translate (queueDie (s.fn 1)) 0 0x180 2 false).2 = s ∧
      (match s.translate (queueDie (s.fn 1)) 0 0x180 2 false with | (.ok t, _) => t.host | _ => false) = true) := by
  simp only [List.forall_mem_cons, List.not_mem_nil, IsEmpty.forall_iff, implies_true, and_true]
  and_intros <;> first | decide +kernel | (unfold Opens; decide +kernel)

/-- Function 1 enabled on block 0, cell 0 usable, and a ready KERNEL at the head of its queue 3. -/
def kernelReady : State :=
  { queued [{ leastKernel with stage := .ready }] with
    fns := [(1, { state := .enabled, blockmask := 1 })], dies := [(0, { usable := 1 })], sys := { bootDone := true } }

theorem witness_placementEvents :
    (∀ p ∈ [((1 : Word), (none : Option Nat)), (0, some (qkey 1 3)), (0, none)],
      let s : State := { queued [recOf 6 0 0] { next := p.2 } with
        fns := kernelReady.fns
        disp := { (queued [recOf 6 0 0] { next := p.2 }).disp with
          heads := (Vector.replicate 8 ({} : RunHead)).set 0 { next := some (qkey 1 3) }
          walk := { list := 0, node := some (qkey 1 3), gen := p.1 } } }
      (s.queue 1 3).state = .active ∧ (s.fn 1).state = .enabled ∧ (s.queue 1 3).first = some (recOf 6 0 0) ∧
      (s.disp.heads[0]).next ≠ none ∧ (s.queue 1 3).next = p.2 ∧ ((s.readLink 0 none).2 = s.disp.walk.gen ↔ p.1 = 0)) ∧
    (let s := kernelReady;
      (s.queue 1 3).first = some { leastKernel with stage := .ready } ∧ (s.wants.length = 1) ∧ (s.queue 1 3).want 1 3 = s.wants.head? ∧
      (s.wants.head?.bind fun w => s.fit w []) = some ([0], [0]) ∧ (s.wants.all fun w => w.gang.isNone) = true ∧
      s.disp.gangs = [] ∧ (s.queue 1 3).bypass < (s.fn 1).bypassLimit.toNat) ∧
    (let s := one { bound := some ⟨0, 0, 0, 0⟩, seq := { yreq := true } };
      (s.cell 0).bound.isSome = true ∧ (s.cell 0).seq.yreq = true ∧ (s.cell 0).seq.ydeadline = 0 ∧ (s.cell 0).stop = none) ∧
    (let g : Gang := { vf := 0, q := 0, slot := 0, kind := false, w := 1, h := 1, blocks := [0], cells := [0], age := 0 };
     let x : CellSt := { bound := some ⟨0, 0, 0, 0⟩, stop := some { code := cYield, cycle := 0, seqAck := true } };
     let s : State := { one x with disp := { gangs := [(0, g)] } };
      s.enginesStopped 0 = true ∧ tfind s.disp.gangs 0 = some g ∧ g.state = .running ∧ g.image = false ∧ (s.cell 0).hold = [] ∧
      (s.cell 0).tracing = false ∧ ((s.cell 0).frame cYield 0 0).length ≤ 1024 ∧ cYield ≠ cFlrKilled ∧
      ((s.cell 0).frame cYield 0 0).all (fun w => !w.2) = true ∧ (s.cell 0).failing = 0 ∧ Opens s true (linesOf (g.frameAt (s.queue 0 0) 0) (8 * frameWords (s.cell 0).regionMap))) ∧
    (let m : Timer := { id := 0, vf := 1, q := 3, slot := some 0, wq := 0xffff, tag := 0, when_ := 0, period := 0, payload := 0 };
     let s : State := { queued [{ recOf 3 0 0 with stage := .live }] with
       sys := { ticked := true }, disp := { (queued [{ recOf 3 0 0 with stage := .live }]).disp with timers := [m] } };
      s.disp.timers = [m] ∧ s.sys.ticked = true ∧ m.when_ ≤ s.now / 1000 * 1000 ∧ (s.queue 1 3).state = .active ∧
      (s.queue 1 3).recs.map (·.slot) = [0]) ∧
    (let m : Timer := { id := 0, vf := 1, q := 3, slot := none, wq := 5, tag := 0, when_ := 0, period := 1000, payload := 0 };
     let w : WorkQ := { m := 4, base := 0x1000, tail := 15 }
     let s : State := { queued [] with sys := { ticked := true }, disp := { (queued []).disp with timers := [m], wqs := [(5, w)] } };
      tfind s.disp.wqs m.wq.toNat = some w ∧ w.appenders = [] ∧ w.tail - w.head < 2 ^ w.m ∧ Opens s true [w.slot w.tail / 128] ∧
      m.released < (s.now / 1000 * 1000 - m.when_) / m.period + 1) := by
  simp only [List.forall_mem_cons, List.not_mem_nil, IsEmpty.forall_iff, implies_true, and_true]
  and_intros <;> first | decide +kernel | exact Laws.opens_quiet _ _ fun n _ => Laws.quiet_of rfl rfl rfl rfl rfl rfl n

/-- A machine whose functions, journal and queues are these. -/
def served (fns : Tab Fn) (d : DispSt) : State := { State.reset with fns := fns, disp := d, sched := {}, sys := { bootDone := true } }

theorem witness_functionEvents :
    (∀ c ∈ [0, 1, 2, 3, 4, 5, 255], let s := served [(63, { mbox := { req := #v[BitVec.ofNat 64 (c * 2 ^ 56), 0, 0] } })] {};
      (((s.fn 63).mbox.req[0]).toNat / 2 ^ 56 = c) ∧ s.disp.journal.length < 256) ∧
    (let s := served [] { journal := List.replicate 256 ⟨1, 0, 0, 0, 0, false⟩ }; 256 ≤ s.disp.journal.length) ∧
    (let e : JEntry := { seq := 5, vf := 1, r0 := BitVec.ofNat 64 (2 ^ 56 + 3), r1 := 5 * 2 ^ 16, r2 := 0 };
     let s : State := { served [(1, { state := .enabled, window := 1, asidcnt := 1 })] { journal := [e] } with mem := { asids := [(0, { valid := true, vf := 1 })] } };
      s.createOk e = true ∧ (s.fn e.vf.val).state = .enabled ∧ (s.queue 1 3).lastseq ≠ e.seq ∧
      s.sys.bootDone = true ∧ (s.queue 1 3).freeAt ≤ s.disp.anopass ∧ Opens s true (ringLines (s.fn 1) e.queue)) ∧
    (∀ c ∈ [2, 3], let e : JEntry := { seq := 5, vf := 1, r0 := BitVec.ofNat 64 (c * 2 ^ 56 + 3), r1 := 0, r2 := 0 };
     let s := served [(1, { state := .enabled })] { journal := [e], queues := [(qkey 1 3, { state := .active })] };
      e.r0.toNat / 2 ^ 56 = c ∧ e.r0.toNat / 2 ^ 8 % 2 ^ 48 = 0 ∧ (s.queue e.vf (e.r0.setWidth 8)).lastseq < e.seq ∧
      (s.queue e.vf (e.r0.setWidth 8)).state ≠ .free) ∧
    (let e : JEntry := { seq := 5, vf := 0, r0 := BitVec.ofNat 64 (4 * 2 ^ 56 + 63), r1 := 0, r2 := 0 };
     let s := served [(63, { state := .enabled })] { journal := [e] };
      e.r0.toNat / 2 ^ 56 = 4 ∧ e.r0.toNat / 2 ^ 6 % 2 ^ 50 = 0 ∧ (s.fn (e.r0.toNat % 2 ^ 6)).state = .enabled ∧
      (s.fn 63).flrseq < e.seq ∧ (s.fn e.vf.val).state = .enabled) ∧
    (∀ d ∈ [(2 : BitVec 8), 3], let s := served [(1, { state := .resetting, window := 1 })] { queues := [(qkey 1 3, { state := .resetting, drain := some d })] };
      (s.queue 1 3).state = .resetting ∧ (s.queue 1 3).next ≠ some (qkey 1 3) ∧ (s.queue 1 3).drain = some d ∧ (s.fn 1).state = .resetting ∧
      s.disp.gangs = [] ∧ s.mem.reqs = [] ∧ s.mem.nb = [] ∧ s.mem.signals = [] ∧ Opens s true (ringLines (s.fn 1) (s.queue 1 3)) ∧
      Opens s true (s.fn 1).windowLines) ∧
    ((served [] {}).fn 0).state = .enabled ∧ (served [] {}).fn 1 = {} ∧ ((served [] {}).fn 1).held = [] ∧
    (let g : Gang := { vf := 1, q := 3, slot := 0, kind := false, w := 1, h := 1, blocks := [0], cells := [0], age := 0 };
     let s : State := { one { bound := some ⟨1, 3, 0, 0⟩, stop := some { code := cXlateMiss, cycle := 0, saved := true } } with
       fns := [(1, { await := [⟨9, 0, some 0, 0⟩] })], disp := { gangs := [(0, g)] } };
      (s.fn 1).await.find? (·.seq = 9) = some ⟨9, 0, some 0, 0⟩ ∧ g.frameAt (s.queue 1 3) (s.cell 0).seq.id.rank.toNat % 128 = 0 ∧ tfind s.disp.gangs 0 = some g ∧ g.state = .running ∧
      (∀ x, Opens (s.setCell 0 x) false (linesOf (g.frameAt (s.queue 1 3) (s.cell 0).seq.id.rank.toNat) 1792)) ∧
      s.dpaWord (g.frameAt (s.queue 1 3) (s.cell 0).seq.id.rank.toNat + 8 * 2) = 0) := by
  simp only [List.forall_mem_cons, List.not_mem_nil, IsEmpty.forall_iff, implies_true, and_true]
  and_intros <;> first
    | decide +kernel | exact Laws.opens_quiet _ _ fun n _ => Laws.quiet_of rfl rfl rfl rfl rfl rfl n
    | exact fun x => Laws.opens_quiet _ _ fun n _ => Laws.quiet_of rfl rfl rfl rfl rfl rfl n

/-- A machine with die 15 as given, and gang 0 running on a cell of it if `gang` says so. -/
def died (x : Die) (gang : Bool) : State :=
  { State.reset with
    dies := [(15, x)], sched := {}, cells := [(24000, { bound := some ⟨0, 0, 0, 0⟩ })],
    disp := { gangs := if gang then [(0, { vf := 0, q := 0, slot := 0, kind := false, w := 1, h := 1, blocks := [240], cells := [24000], age := 0 })] else [] } }

theorem shaBytes_length (l : List Byte) : (shaBytes l).length = 32 := by simp [shaBytes, Laws.leBytes_length]

theorem lmsUp_length (id : List Byte) : ∀ (h n : Nat) (t p : List Byte), t.length = 32 → (lmsUp id h n t p).length = 32
  | 0, _, _, _, l => l
  | h + 1, _, _, _, _ => lmsUp_length id h _ _ _ (shaBytes_length _)

/-- An image and a signature that some key in ROM verifies: the key whose root the signature gives. -/
theorem witness_signed : ∃ key, signedBy key ⟨[], 0, plainSignature⟩ = true := by
  obtain ⟨r, h⟩ : ∃ r, r = OtsParams.root ⟨1, 265, 7⟩ (List.replicate 16 0) plainSignature [] := ⟨_, rfl⟩
  have l : r.length = 32 := h ▸ lmsUp_length _ _ _ _ _ (shaBytes_length _)
  refine ⟨[0, 0, 0, 8, 0, 0, 0, 1] ++ List.replicate 16 0 ++ r, ?_⟩
  have n : plainSignature.length = 684 + 32 * 265 := by
    simp only [plainSignature, List.length_append, List.length_replicate, List.length_cons, List.length_nil]
  have a : (plainSignature.drop 4).take 4 = [0, 0, 0, 1] := rfl
  have b : (plainSignature.drop (40 + 32 * 265)).take 4 = [0, 0, 0, 8] := by
    have u : ([0, 0, 0, 0, 0, 0, 0, 1] ++ List.replicate 8512 0 : List Byte).length = 40 + 32 * 265 := by
      simp only [List.length_append, List.length_replicate, List.length_cons, List.length_nil]
    rw [plainSignature, List.append_assoc _ [0, 0, 0, 8], ← u, List.drop_left]
    rfl
  have c : plainSignature.take 4 = [0, 0, 0, 0] := rfl
  have k : otsParams (bigNat [0, 0, 0, 1]) = some ⟨1, 265, 7⟩ := rfl
  generalize plainSignature = g at *
  simp only [signedBy, lmsVerifies]
  have d : (([0, 0, 0, 8, 0, 0, 0, 1] ++ List.replicate 16 0 ++ r : List Byte).drop 4).take 4 = [0, 0, 0, 1] := rfl
  have e : ([0, 0, 0, 8, 0, 0, 0, 1] ++ List.replicate 16 0 ++ r : List Byte).take 4 = [0, 0, 0, 8] := rfl
  have f : (([0, 0, 0, 8, 0, 0, 0, 1] ++ List.replicate 16 0 ++ r : List Byte).drop 8).take 16 = List.replicate 16 0 := rfl
  have m : ([0, 0, 0, 8, 0, 0, 0, 1] ++ List.replicate 16 0 ++ r : List Byte).drop 24 = r := rfl
  rw [d, k]
  have t : ([0, 0, 0, 8, 0, 0, 0, 1] ++ List.replicate 16 0 ++ r : List Byte).length = 56 := by
    simp only [List.length_append, List.length_replicate, List.length_cons, List.length_nil, l]
  have v : bigNat [0, 0, 0, 8] = 8 ∧ bigNat [0, 0, 0, 0] = 0 := ⟨rfl, rfl⟩
  simp only [e, f, m, a, b, c, n, t, v.1, v.2, ← h, beq_self_eq_true, Bool.and_self]
  rfl

theorem witness_moduleEvents :
    (let r := PowerOnResult.plain;
      ¬r.cfg.version < r.floor ∧ ¬r.fw.version < r.floor ∧ r.puf = true ∧ r.stk = 0xffff ∧
      r.starts = true) ∧
    (PowerOnResult.plain.cfg.version < 1) ∧ (0xfffe : BitVec 16) ≠ 0xffff ∧
    (((died {} true).die 15).state = .online ∧ (died {} true).disp.gangs.length = 1 ∧ 24000 / 1600 = 15 ∧ ((died {} true).cell 24000).bound.isSome = true) ∧
    (let s := died { state := .fencing } false;
      (s.die 15).state = .fencing ∧ (s.die 15).trace = [] ∧ s.disp.gangs = [] ∧ s.mem.reqs = [] ∧ s.mem.nb = [] ∧ s.mem.signals = []) ∧
    ((died { state := .fenced } false).die 15).state = .fenced ∧
    (let s : State := { died { trace := [(1, 0x1000000000000000)] } false with fns := [(1, { trcsize := 4096, trcbase := 0x10000, trcwr := 4088 })] };
      (s.fn 1).ringOk = true ∧ (s.fn 1).trcwr.toNat % 8 = 0 ∧ s.mem.lls = [] ∧ s.mem.dram.wf = true ∧ tget 0 (s.die 15).drops 0 = 0 ∧
      Opens s true [(0x10000 + 4088 % 4096) / 128]) ∧
    (served [] {}).sys.attgo = false ∧ (served [] {}).sys.bootDone = true ∧ ({ attgo := true } : SysSt).attgo = true ∧
    (∀ m ∈ [1000, 3300], 1000 ≤ m ∧ m ≤ 3300 ∧ m % 100 = 0) ∧ (999 < 1000 ∧ 3300 < 3301 ∧ 1050 % 100 ≠ 0) ∧
    ((one {}).fn 63).state = .disabled ∧
    (let s := one { bound := some ⟨0, 0, 0, 0⟩ }; (me s).bound = some ⟨0, 0, 0, 0⟩ ∧ (me s).seq.log = [] ∧ (me s).fpLanded = [] ∧
      (me s).seq.arith = none ∧ (me s).stop = none) := by
  simp only [List.forall_mem_cons, List.not_mem_nil, IsEmpty.forall_iff, implies_true, and_true]
  and_intros <;> first | decide +kernel | exact Laws.opens_quiet _ _ fun n _ => Laws.quiet_of rfl rfl rfl rfl rfl rfl n

end Sys2Proof.Tests
end

section
/-! PROOFS. The events of the module as a whole: power-on, cell dies, the trace collector, attestation, the clock, register writes and
ILL_OP. Stores by the module to a line outside the LLS come first. -/

namespace Sys2Proof.Proofs

open Sys2Proof Sys2Proof.Machine Sys2Proof.Safety Sys2Proof.Laws

/-! ### Numbers and words, and the bytes of a line under a mask (R119) -/

/-- Bytes as bits. -/
theorem byte_pow (k : Nat) : (256 : Nat) ^ k = 2 ^ (8 * k) := (Nat.pow_mul 2 8 k).symm

/-- 128 bytes fill a line. -/
theorem lt_line {n : Nat} (h : n < 256 ^ 128) : n < 2 ^ 1024 := by rwa [byte_pow, show 8 * 128 = 1024 from rfl] at h

theorem toNat_ofNat_of_lt {w n : Nat} (h : n < 2 ^ w) : (BitVec.ofNat w n).toNat = n := by
  rw [BitVec.toNat_ofNat, Nat.mod_eq_of_lt h]

/-- A word from a number of its own width. -/
theorem ofNat_toNat_mod {w : Nat} (v : BitVec w) (k : Nat) (h : w = 8 * k) : BitVec.ofNat w (v.toNat % 256 ^ k) = v := by
  rw [byte_pow, ← h, Nat.mod_eq_of_lt v.isLt, BitVec.ofNat_toNat, BitVec.setWidth_eq]

/-- Bits of a word as a number and as a shorter word. -/
theorem toNat_extractLsb' (v : Word) (lo len hi : Nat) (h : hi + 1 = lo + len) :
    (v.extractLsb' lo len).toNat = wbits v hi lo := by
  rw [BitVec.extractLsb'_toNat, Nat.shiftRight_eq_div_pow, wbits, bitsOf, h, Nat.add_sub_cancel_left]

theorem ofNat_wbits (v : Word) (lo len hi : Nat) (h : hi + 1 = lo + len) :
    BitVec.ofNat len (wbits v hi lo) = v.extractLsb' lo len := by
  rw [← toNat_extractLsb' v lo len hi h, BitVec.ofNat_toNat, BitVec.setWidth_eq]

theorem mergeFrom_lt (n : Nat) : ∀ mask a b : Nat, mergeFrom mask a b n < 256 ^ n := by
  induction n with
  | zero => intros; simp [mergeFrom]
  | succ n ih =>
    intro mask a b
    have := ih (mask / 2) (a / 256) (b / 256)
    rw [mergeFrom, Nat.pow_succ]
    split <;> omega

/-- The bytes under a mask from byte 0 are the second number's. -/
theorem mergeFrom_low (size : Nat) : ∀ n a v : Nat, size ≤ n →
    mergeFrom (2 ^ size - 1) a v n % 256 ^ size = v % 256 ^ size := by
  induction size with
  | zero => intros; simp [Nat.mod_one]
  | succ k ih =>
    intro n a v h
    obtain ⟨m, rfl⟩ : ∃ m, n = m + 1 := ⟨n - 1, by omega⟩
    have pos : 0 < 2 ^ k := Nat.two_pow_pos k
    have odd : (2 ^ (k + 1) - 1) % 2 = 1 := by rw [Nat.pow_succ]; omega
    have half : (2 ^ (k + 1) - 1) / 2 = 2 ^ k - 1 := by rw [Nat.pow_succ]; omega
    have rest := ih m (a / 256) (v / 256) (by omega)
    rw [mergeFrom, if_pos odd, half, Nat.pow_succ', Nat.mod_mul, Nat.mod_mul]
    have low : (v % 256 + 256 * mergeFrom (2 ^ k - 1) (a / 256) (v / 256) m) / 256 =
        mergeFrom (2 ^ k - 1) (a / 256) (v / 256) m := by omega
    rw [low, rest]
    omega

/-- The bytes under a mask of `size` bytes from `off` are the value's. -/
theorem mergeFrom_placed (size v : Nat) (off : Nat) : ∀ n a : Nat, off + size ≤ n →
    mergeFrom ((2 ^ size - 1) * 2 ^ off) a (v * 256 ^ off) n / 256 ^ off % 256 ^ size = v % 256 ^ size := by
  induction off with
  | zero => intro n a h; simpa using mergeFrom_low size n a v (by omega)
  | succ k ih =>
    intro n a h
    obtain ⟨m, rfl⟩ : ∃ m, n = m + 1 := ⟨n - 1, by omega⟩
    have even : (2 ^ size - 1) * 2 ^ (k + 1) = (2 ^ size - 1) * 2 ^ k * 2 := by rw [Nat.pow_succ, Nat.mul_assoc]
    have shift : v * 256 ^ (k + 1) = v * 256 ^ k * 256 := by rw [Nat.pow_succ, Nat.mul_assoc]
    rw [mergeFrom, even, shift, Nat.mul_div_cancel _ (by omega), Nat.mul_div_cancel _ (by omega),
      if_neg (by omega), Nat.pow_succ', ← Nat.div_div_eq_div_mul, Nat.add_mul_div_left _ _ (by omega),
      Nat.div_eq_of_lt (Nat.mod_lt _ (by omega)), Nat.zero_add]
    exact ih m (a / 256) (by omega)

theorem byteMask_toNat {off size : Nat} (h : off + size ≤ 128) :
    (byteMask off size).toNat = (2 ^ size - 1) * 2 ^ off := by
  refine toNat_ofNat_of_lt ?_
  calc (2 ^ size - 1) * 2 ^ off < 2 ^ size * 2 ^ off :=
        Nat.mul_lt_mul_of_pos_right (Nat.sub_lt (Nat.two_pow_pos _) Nat.one_pos) (Nat.two_pow_pos _)
    _ = 2 ^ (off + size) := by rw [← Nat.pow_add, Nat.add_comm]
    _ ≤ 2 ^ 128 := Nat.pow_le_pow_right (by omega) h

theorem placed_toNat {v off size : Nat} (hv : v < 256 ^ size) (h : off + size ≤ 128) :
    (placed v off).toNat = v * 256 ^ off := by
  refine toNat_ofNat_of_lt (lt_line ?_)
  calc v * 256 ^ off < 256 ^ size * 256 ^ off := Nat.mul_lt_mul_of_pos_right hv (Nat.pow_pos (by omega))
    _ = 256 ^ (off + size) := by rw [← Nat.pow_add, Nat.add_comm]
    _ ≤ 256 ^ 128 := Nat.pow_le_pow_right (by omega) h

/-- The bytes placed in a line are read back from it. -/
theorem lineBytes_mergeLine (l : Line) {v off size : Nat} (hv : v < 256 ^ size) (h : off + size ≤ 128) :
    lineBytes (mergeLine (byteMask off size) l (placed v off)) off size = v := by
  rw [lineBytes, mergeLine, toNat_ofNat_of_lt (lt_line (mergeFrom_lt 128 _ _ _)), byteMask_toNat h, placed_toNat hv h,
    mergeFrom_placed size v off 128 _ h, Nat.mod_eq_of_lt hv]

/-- A line written to a memory is read back. -/
theorem mline_mlineSet {m : Memory} (a : Nat) (v : Line) (h : m.wf = true) : mline (mlineSet m a v) a = v := by
  have back := mread_mwrite (leBytes v.toNat 128) m a h
  rw [leBytes_length] at back
  rw [mline, mlineSet, back, leNat_leBytes, ofNat_toNat_mod v 128 rfl]

/-! ### A store by the module to a line outside the LLS (R129, R144) -/

/-- No cell, function or die differs, and no byte of DRAM or line of the LLS. -/
structure KeptBytes (s t : State) : Prop where
  cells : t.cells = s.cells
  fns : t.fns = s.fns
  dies : t.dies = s.dies
  dram : t.mem.dram = s.mem.dram
  lls : t.mem.lls = s.mem.lls

/-- R139: a read of a granule, corrected or not. -/
theorem keptBytes_readGran (s : State) (g : Nat) (p : BitVec 8) : KeptBytes s (s.readGran g p) := by
  unfold State.readGran
  dsimp only
  split
  · exact ⟨rfl, rfl, rfl, rfl, rfl⟩
  · split <;> exact ⟨rfl, rfl, rfl, rfl, rfl⟩

theorem keptBytes_readGranUnless (s : State) (b : Bool) (g : Nat) (p : BitVec 8) :
    KeptBytes s (if b = true then s else s.readGran g p) := by
  split
  · exact ⟨rfl, rfl, rfl, rfl, rfl⟩
  · exact keptBytes_readGran s g p

theorem KeptBytes.trans {s t u : State} (h : KeptBytes s t) (k : KeptBytes t u) : KeptBytes s u :=
  ⟨k.cells.trans h.cells, k.fns.trans h.fns, k.dies.trans h.dies, k.dram.trans h.dram, k.lls.trans h.lls⟩

/-- R138, R139: a masked write to DRAM merges its bytes into the line; only memory and the error log differ. -/
theorem dramWrite_spec (s : State) (n : Nat) (mask : BitVec 128) (data : Line) (bad : BitVec 2) :
    let t := s.dramWrite n mask data bad
    t.cells = s.cells ∧ t.fns = s.fns ∧ t.dies = s.dies ∧ t.mem.lls = s.mem.lls ∧
      t.mem.dram = mlineSet s.mem.dram (n * 128) (mergeLine mask (mline s.mem.dram (n * 128)) data) := by
  unfold State.dramWrite
  extract_lets w t s1 s2 v m s3 s4 s5
  have k : KeptBytes s s2 := (keptBytes_readGranUnless s _ _ _).trans (keptBytes_readGranUnless s1 _ _ _)
  clear_value s2
  simp only [s5, s4, s3, m, v, setGran_cells, setGran_fns, setGran_dies, setGran_mem_lls, setGran_mem_dram, k.cells, k.fns, k.dies,
    k.lls, k.dram, and_self]

/-- R176, R182: the line monitor and the watched words change the queues and the list of steps only. -/
theorem afterWrite_spec (s : State) (n : Nat) (mask : BitVec 128) :
    let t := s.afterWrite n mask
    t.cells = s.cells ∧ t.fns = s.fns ∧ t.dies = s.dies ∧ t.mem = s.mem := by
  unfold State.afterWrite
  dsimp only
  split <;> exact ⟨rfl, rfl, rfl, rfl⟩

/-- R128: a write that misses, on a page with C = 0, goes to DRAM. -/
theorem acceptWrite_miss {s : State} {n : Nat} (h : s.lls n = none) (mask : BitVec 128) (data : Line) (vf : Option (Fin 64))
    (bad : BitVec 2) : s.acceptWrite n mask data vf false bad = (s.dramWrite n mask data bad).afterWrite n mask := by
  have sound : s.soundLine n (wholeUnits mask) = s := by simp only [State.soundLine, h]
  simp only [State.acceptWrite, sound, h, Bool.false_eq_true, if_false]

/-- What a store to a line outside the LLS leaves, and that its bytes are read back. -/
theorem storeDpa_miss {s : State} {a size : Nat} (v : Nat) (vf : Option (Fin 64)) (h : s.lls (a / 128) = none)
    (wf : s.mem.dram.wf = true) (fits : a % 128 + size ≤ 128) :
    let t := s.storeDpa a size v vf
    t.cells = s.cells ∧ t.fns = s.fns ∧ t.dies = s.dies ∧
      lineBytes (t.lineVal (a / 128)) (a % 128) size = v % 256 ^ size := by
  unfold State.storeDpa
  rw [acceptWrite_miss h]
  extract_lets t
  obtain ⟨c1, f1, d1, l1, m1⟩ := dramWrite_spec s (a / 128) (byteMask (a % 128) size) (placed (v % 256 ^ size) (a % 128)) 0
  obtain ⟨c2, f2, d2, m2⟩ := afterWrite_spec
    (s.dramWrite (a / 128) (byteMask (a % 128) size) (placed (v % 256 ^ size) (a % 128)) 0) (a / 128) (byteMask (a % 128) size)
  refine ⟨c2.trans c1, f2.trans f1, d2.trans d1, ?_⟩
  have miss : t.lls (a / 128) = none := by
    have : t.mem.lls = s.mem.lls := (congrArg MemSt.lls m2).trans l1
    simpa only [State.lls, this] using h
  have dram : t.mem.dram = _ := (congrArg MemSt.dram m2).trans m1
  simp only [State.lineVal, miss, dram]
  rw [mline_mlineSet _ _ wf, lineBytes_mergeLine _ (Nat.mod_lt _ (Nat.pow_pos (by omega))) fits]

/-- R7: a word stored by the module is read back. -/
theorem dpaWord_storeDpa {s : State} {a : Nat} (w : Word) (vf : Option (Fin 64)) (h : s.lls (a / 128) = none)
    (wf : s.mem.dram.wf = true) (aligned : a % 8 = 0) : (s.storeDpa a 8 w.toNat vf).dpaWord a = w := by
  obtain ⟨-, -, -, bytes⟩ := storeDpa_miss w.toNat vf h wf (size := 8) (by omega)
  rw [State.dpaWord, bytes, ofNat_toNat_mod w 8 rfl]

/-! ### Power-on (R249 to R253) -/

/-- R249 to R251: the stages in order, each with what stops it. -/
theorem bootEnd_eq (key : List Byte) (r : PowerOnResult) : bootEnd key r =
    if signedBy key r.cfg = false then some (2, 1) else if r.cfg.version < r.floor then some (2, 3)
    else if signedBy key r.fw = false then some (2, 2) else if r.fw.version < r.floor then some (2, 3)
    else if r.puf = false then some (3, 4) else if r.stk ≠ 0xffff then some (4, 5)
    else if r.starts = false then some (6, 6) else none := by
  simp only [bootEnd, romError, Bool.not_eq_true']
  split_ifs <;> rfl

/-- A power-on that reaches READY found its configuration image good and every stack trained. -/
theorem images_of_bootEnd_none {key : List Byte} {r : PowerOnResult} (h : bootEnd key r = none) :
    signedBy key r.cfg = true ∧ r.floor ≤ r.cfg.version ∧ r.stk = 0xffff := by
  rw [bootEnd_eq] at h
  split_ifs at h with a b c d e f g
  exact ⟨by simpa using a, BitVec.not_lt.1 b, by simpa using f⟩

/-- A power-on that stops does so before READY. -/
theorem stage_lt_of_bootEnd {key : List Byte} {r : PowerOnResult} {st e : Nat} (h : bootEnd key r = some (st, e)) :
    st < 0x0f := by
  rw [bootEnd_eq] at h
  split_ifs at h <;> cases h <;> decide

/-- R249, R252, R253: the status of a module at READY. -/
theorem booted_of_ready {y : SysSt} {r : PowerOnResult} (h : bootEnd y.romKey r = none) :
    (y.booted r).bootStage = 0x0f ∧ (y.booted r).bootErr = 0 ∧ (y.booted r).bootDone = true ∧ (y.booted r).stktrn = 0xffff ∧
      (y.booted r).fwDigest = sha256 r.fw.bytes ∧ (y.booted r).fwVersion = r.fw.version ∧
      (y.booted r).ports = Vector.replicate 32 (({} : Port).attempt 0) := by
  obtain ⟨signed, version, stk⟩ := images_of_bootEnd_none h
  simp [SysSt.booted, bootPasses, bootBegins, h, signed, version, stk]

/-- R249, R252: the status of a module that a stage has stopped. -/
theorem booted_of_stopped {y : SysSt} {r : PowerOnResult} {st e : Nat} (h : bootEnd y.romKey r = some (st, e)) :
    (y.booted r).bootStage = BitVec.ofNat 8 st ∧ (y.booted r).bootErr = BitVec.ofNat 8 e ∧ (y.booted r).bootDone = false ∧
      (st = 4 → (y.booted r).stktrn = r.stk) ∧ (y.booted r).ports = Vector.replicate 32 {} := by
  have before : ¬0x0f < st := by have := stage_lt_of_bootEnd h; omega
  simp +contextual [SysSt.booted, bootPasses, bootBegins, h, before]

/-- R238, R249: STACKS leaves every die with its USABLE. -/
theorem tget_bootDies (usable : List (BitVec 1600)) (d : Fin 16) :
    tget {} (bootDies usable) d.val = { usable := usable.getD d.val 0 } := by
  fin_cases d <;> rfl

/-- Every port of a table that is the same for all. -/
theorem port_of_replicate {s : State} {x : Port} (h : s.sys.ports = Vector.replicate 32 x) (p : Fin 32) : s.port p = x := by
  simp [State.port, h]

/-- R249 to R253: what a power-on leaves, by where it stops. -/
theorem powerOn_spec (r : PowerOnResult) (s : State) :
    ∃ t, exec (.powerOn r) s = .next t ∧ t.cells = [] ∧ t.fns = [] ∧ t.disp = {} ∧
      t.mem = { host := s.mem.host, hostBad := s.mem.hostBad } ∧ t.sched.tasks = s.sched.tasks ∧
      t.sys.romKey = s.sys.romKey ∧ t.sys.cfgDigest = sha256 r.cfg.bytes ∧ t.sys.cfgVersion = r.cfg.version ∧
      (bootEnd s.sys.romKey r = none → t.sys.bootStage = 0x0f ∧ t.sys.bootErr = 0 ∧ t.sys.bootDone = true ∧ t.sys.stktrn = 0xffff ∧
        t.sys.fwDigest = sha256 r.fw.bytes ∧ t.sys.fwVersion = r.fw.version ∧ (∀ p, (t.port p).state = .training) ∧
        ∀ d : Fin 16, (t.die d.val).state = .online ∧ (t.die d.val).usable = r.usable.getD d.val 0) ∧
      ∀ st e, bootEnd s.sys.romKey r = some (st, e) → t.sys.bootStage = BitVec.ofNat 8 st ∧ t.sys.bootErr = BitVec.ofNat 8 e ∧
        t.sys.bootDone = false ∧ (st = 4 → t.sys.stktrn = r.stk) ∧ ∀ p, (t.port p).state ≠ .training := by
  refine ⟨_, rfl, rfl, rfl, rfl, rfl, rfl, rfl, rfl, rfl, fun h => ?_, fun st e h => ?_⟩
  · obtain ⟨stage, err, done, stk, digest, version, ports⟩ := booted_of_ready h
    refine ⟨stage, err, done, stk, digest, version, fun p => by rw [port_of_replicate ports]; rfl, fun d => ?_⟩
    have passes : bootPasses s.sys.romKey r 4 = true := by rw [bootPasses, h]
    simp only [State.die, passes, if_true, tget_bootDies, and_self]
  · obtain ⟨stage, err, done, stk, ports⟩ := booted_of_stopped h
    exact ⟨stage, err, done, stk, fun p => by rw [port_of_replicate ports]; decide⟩

/-! ### Cell dies (R238, R239) -/

/-- R161: cells begin to stop; none is unbound, none starts again, and nothing but the cells differs. -/
structure Stopping (s t : State) : Prop where
  dies : t.dies = s.dies
  mem : t.mem = s.mem
  disp : t.disp = s.disp
  bound : ∀ c, (t.cell c).bound = (s.cell c).bound
  stop : ∀ c, (s.cell c).stop.isSome = true → (t.cell c).stop.isSome = true

theorem Stopping.trans {s t u : State} (h : Stopping s t) (k : Stopping t u) : Stopping s u :=
  ⟨k.dies.trans h.dies, k.mem.trans h.mem, k.disp.trans h.disp, fun c => (k.bound c).trans (h.bound c),
    fun c hc => k.stop c (h.stop c hc)⟩

/-- R163: a cell told to stop is stopping. -/
theorem stop_stopCell (s : State) (c : Nat) (k : Cause) : ((s.stopCell c k).cell c).stop.isSome = true := by
  rw [State.stopCell, cell_modCell]
  dsimp only
  split
  · rfl
  · split <;> rfl

theorem stopping_stopCell (s : State) (c : Nat) (k : Cause) : Stopping s (s.stopCell c k) where
  dies := rfl
  mem := rfl
  disp := rfl
  bound n := by
    by_cases h : n = c
    · subst h; rw [State.stopCell, cell_modCell]
    · rw [cell_stopCell_ne _ _ h]
  stop n hn := by
    by_cases h : n = c
    · subst h; exact stop_stopCell s n k
    · rwa [cell_stopCell_ne _ _ h]

/-- R239, step 2: a bound cell of a gang is told to stop. -/
def preemptBound (s : State) (c : Nat) : State := if (s.cell c).bound.isSome then s.stopCell c cPreempt else s

theorem forceGang_eq (s : State) (n : Nat) (g : Gang) : s.forceGang n g =
    if g.state = .held then s else (g.cells.foldl preemptBound s).setGang n { g with state := .stopping, image := true } := rfl

theorem stopping_preemptBound (s : State) (c : Nat) : Stopping s (preemptBound s c) := by
  unfold preemptBound
  split
  · exact stopping_stopCell s c cPreempt
  · exact ⟨rfl, rfl, rfl, fun _ => rfl, fun _ h => h⟩

theorem stop_preemptBound {s : State} {c : Nat} (h : (s.cell c).bound.isSome = true) :
    ((preemptBound s c).cell c).stop.isSome = true := by
  rw [preemptBound, if_pos h]
  exact stop_stopCell s c cPreempt

/-- R239, step 2: every bound cell of a list is told to stop. -/
theorem foldl_preemptBound (l : List Nat) : ∀ s : State, Stopping s (l.foldl preemptBound s) ∧
    ∀ c ∈ l, (s.cell c).bound.isSome = true → ((l.foldl preemptBound s).cell c).stop.isSome = true := by
  induction l with
  | nil => exact fun s => ⟨⟨rfl, rfl, rfl, fun _ => rfl, fun _ h => h⟩, fun _ h => nomatch h⟩
  | cons a l ih =>
    intro s
    have first := stopping_preemptBound s a
    obtain ⟨rest, stopped⟩ := ih (preemptBound s a)
    refine ⟨first.trans rest, fun c hc hb => ?_⟩
    rcases List.mem_cons.1 hc with rfl | hc
    · exact rest.stop c (stop_preemptBound hb)
    · exact stopped c hc (by rwa [first.bound c])

/-- R239: a request about a die that is malformed shows in RESULT only. -/
theorem dieResult_spec (s : State) (d : Fin 16) (c : Cause) : (s.dieResult d c).die d.val = { s.die d.val with result := c } :=
  die_setDie s d.val _

theorem dieFence_malformed {d : Fin 16} {s : State} (h : (s.die d.val).state ≠ .online) :
    exec (.dieFence d) s = .next (s.dieResult d cRecMalformed) := congrArg Host.Outcome.next (if_pos h)

theorem dieReset_malformed {d : Fin 16} {s : State} (u : BitVec 1600) (h : (s.die d.val).state ≠ .fenced) :
    exec (.dieReset d u) s = .next (s.dieResult d cRecMalformed) := congrArg Host.Outcome.next (if_pos h)

/-- R239, steps 1 and 2: a die that is ONLINE is FENCING, and the one gang, which has a cell on it, is stopped by force. -/
theorem dieFence_online {d : Fin 16} {s : State} {n : Nat} {g : Gang} (h : (s.die d.val).state = .online)
    (one : s.disp.gangs = [(n, g)]) (running : g.state = .running) (on : ∃ c ∈ g.cells, c / 1600 = d.val) :
    ∃ t, exec (.dieFence d) s = .next t ∧ t.die d.val = { s.die d.val with state := .fencing, result := 0 } ∧ t.mem = s.mem ∧
      tfind t.disp.gangs n = some { g with state := .stopping, image := true } ∧
      ∀ c ∈ g.cells, (s.cell c).bound.isSome = true → (t.cell c).stop.isSome = true := by
  have any : g.cells.any (onDie d) = true := by simpa [onDie] using on
  have run : exec (.dieFence d) s =
      .next ((s.setDie d.val { s.die d.val with state := .fencing, result := 0 }).forceGang n g) := by
    show execDieFence d s = _
    simp only [execDieFence, h, not_true_eq_false, ne_eq, if_false, setDie_disp, one, List.foldl_cons, List.foldl_nil, any, if_true]
  obtain ⟨stopping, stopped⟩ :=
    foldl_preemptBound g.cells (s.setDie d.val { s.die d.val with state := .fencing, result := 0 })
  refine ⟨_, run, ?_⟩
  rw [forceGang_eq, if_neg (by simp [running])]
  refine ⟨?_, stopping.mem, tfind_tset_self _ _ _, stopped⟩
  rw [die_setGang, State.die, stopping.dies]
  exact die_setDie s d.val _

/-- What every entry of a table becomes, where the default stays as it is. -/
theorem tget_map {α : Type} (d : α) (f : Nat → α → α) (n : Nat) (h : f n d = d) :
    ∀ t : Tab α, tget d (t.map fun (k, x) => (k, f k x)) n = f n (tget d t n)
  | [] => h.symm
  | (k, x) :: t => by
    simp only [List.map_cons, tget]
    split
    · subst_vars; rfl
    · exact tget_map d f n h t

/-- The cells of a die are changed alike, and no other. -/
theorem tget_map_onDie (f : CellSt → CellSt) (h : f {} = {}) (d : Fin 16) (t : Tab CellSt) (c : Nat) :
    tget {} (t.map fun (c, x) => (c, if onDie d c then f x else x)) c =
      if c / 1600 = d.val then f (tget {} t c) else tget {} t c := by
  have := tget_map {} (fun c x => if onDie d c then f x else x) c (by split; exacts [h, rfl]) t
  simpa only [onDie, beq_iff_eq] using this

/-- R239, step 3: a FENCING die with nothing left on its way is FENCED, its cells free. -/
theorem dieFenced_drained {d : Fin 16} {s : State} (h : (s.die d.val).state = .fencing) (trace : (s.die d.val).trace = [])
    (gangs : s.disp.gangs = []) (reqs : s.mem.reqs = []) (nb : s.mem.nb = []) (signals : s.mem.signals = []) :
    ∃ t, exec (.dieFenced d) s = .next t ∧ t.die d.val = { s.die d.val with state := .fenced } ∧ (∀ e ∈ t.mem.tlb, e.die ≠ d) ∧
      ∀ c, if c / 1600 = d.val then (t.cell c).bound = none ∧ (t.cell c).ec = (s.cell c).ec else t.cell c = s.cell c := by
  have held : s.heldAt d = [] := by rw [State.heldAt, gangs]; rfl
  have holds : s.dieHolds d = false := by simp [State.dieHolds, reqs, nb, signals, trace]
  have off : (s.disp.gangs.all fun (n, g) => s.offDie d n g) = true := by rw [gangs, List.all_nil]
  have run : exec (.dieFenced d) s = .next
      ((State.loseAgent { s with
          disp := { s.disp with gangs := s.disp.gangs.map fun (n, g) => (n, s.leftDie d n g) }
          cells := s.cells.map fun (c, x) => (c, if onDie d c then CellSt.freed x else x) } d).setDie d.val
        { s.die d.val with state := .fenced }) := by
    show execDieFenced d s = _
    rw [execDieFenced, if_neg (by simp [h]), held]
    exact congrArg Host.Outcome.next (if_pos ⟨off, by simp [holds]⟩)
  refine ⟨_, run, die_setDie _ d.val _, fun e he => ?_, fun c => ?_⟩
  · simpa using (List.mem_filter.1 he).2
  · have cell := tget_map_onDie CellSt.freed rfl d s.cells c
    split <;> rename_i hc
    · rw [if_pos hc] at cell
      exact ⟨(congrArg CellSt.bound cell).trans rfl, (congrArg CellSt.ec cell).trans rfl⟩
    · rwa [if_neg hc] at cell

/-- R239: a FENCED die is RESETTING, its cells molted. -/
theorem dieReset_fenced {d : Fin 16} {s : State} (u : BitVec 1600) (h : (s.die d.val).state = .fenced) :
    ∃ t, exec (.dieReset d u) s = .next t ∧
      t.die d.val = { s.die d.val with
        state := .resetting, reload := some u, resets := satInc (s.die d.val).resets, result := 0 } ∧
      ∀ c, t.cell c = if c / 1600 = d.val then { ec := (s.cell c).ec } else s.cell c :=
  ⟨_, congrArg Host.Outcome.next (if_neg (by simp [h])), die_setDie _ d.val _,
    fun c => tget_map_onDie CellSt.molted rfl d s.cells c⟩

/-! ### The trace collector (R245) -/

/-- R131: an access of the module itself to open lines goes on. -/
theorem whenOpen_of_opens {s : State} {write : Bool} {ls : List Nat} (h : Opens s write ls) (go : State → State) :
    s.whenOpen write ls go = go s := by
  rw [State.whenOpen, h]

/-- R245: packets of a usable ring lie at multiples of 8. -/
theorem packetAt_aligned {f : Fn} (ok : f.ringOk = true) (wr : f.trcwr.toNat % 8 = 0) : f.packetAt % 8 = 0 := by
  simp only [Fn.ringOk, Bool.and_eq_true, List.any_eq_true, beq_iff_eq] at ok
  obtain ⟨⟨j, -, size⟩, base⟩ := ok
  have size8 : 8 ∣ f.trcsize.toNat := by
    rw [size, Nat.pow_add]
    exact Dvd.dvd.mul_right (by decide) _
  rw [Nat.max_eq_left (by rw [size]; exact Nat.one_le_two_pow)] at base
  exact Nat.mod_eq_zero_of_dvd (dvd_add (size8.trans (Nat.dvd_of_mod_eq_zero base))
    ((Nat.dvd_mod_iff size8).2 (Nat.dvd_of_mod_eq_zero wr)))

/-- R245: the oldest packet of a die's collector enters its function's ring, and TRCWR passes it. -/
theorem tracePacketWrite_ring {d : Fin 16} {s : State} {vf : BitVec 6} {w : Word} {l : List (BitVec 6 × BitVec 64)}
    (trace : (s.die d.val).trace = (vf, w) :: l) (ok : (s.fn vf.toNat).ringOk = true)
    (drops : tget 0 (s.die d.val).drops (wbits w 59 45) = 0) (wr : (s.fn vf.toNat).trcwr.toNat % 8 = 0)
    (opens : Opens s true [(s.fn vf.toNat).packetAt / 128]) (lls : s.mem.lls = []) (wf : s.mem.dram.wf = true) :
    ∃ t, exec (.tracePacketWrite d) s = .next t ∧ t.die d.val = { s.die d.val with trace := l } ∧
      (t.fn vf.toNat).trcwr = (s.fn vf.toNat).trcwr + 8 ∧ t.dpaWord (s.fn vf.toNat).packetAt = w := by
  have run : exec (.tracePacketWrite d) s =
      .next ((s.setDie d.val { s.die d.val with trace := l }).writePacket vf.toNat w) := by
    show execTracePacketWrite d s = _
    simp only [execTracePacketWrite, trace, ok, drops, whenOpen_of_opens opens, Bool.not_true, Bool.false_eq_true, if_false, ne_eq,
      not_true_eq_false]
  refine ⟨_, run, ?_⟩
  rw [State.writePacket, fn_setDie]
  have miss : (s.setDie d.val { s.die d.val with trace := l }).lls ((s.fn vf.toNat).packetAt / 128) = none := by
    simp [State.lls, lls, tfind]
  have aligned := packetAt_aligned ok wr
  obtain ⟨-, fns, dies, -⟩ := storeDpa_miss (size := 8) w.toNat none miss wf (by omega)
  refine ⟨?_, ?_, ?_⟩
  · rw [die_modFn, State.die, dies]
    exact die_setDie s d.val _
  · rw [fn_modFn, State.fn, fns]
    rfl
  · rw [dpaWord_modFn, dpaWord_storeDpa w none miss wf aligned]

/-! ### Attestation (R254) -/

theorem byteWords_length (n : Nat) : ∀ bs : List Byte, (byteWords n bs).length = n := by
  induction n with
  | zero => exact fun _ => rfl
  | succ n ih => exact fun bs => congrArg (· + 1) (ih _)

theorem getElem?_byteWords (n : Nat) : ∀ (bs : List Byte) (j : Nat), j < n →
    (byteWords n bs)[j]? = some (BitVec.ofNat 64 (leNat ((bs.drop (8 * j)).take 8))) := by
  induction n with
  | zero => exact fun _ _ h => absurd h (Nat.not_lt_zero _)
  | succ n ih =>
    intro bs j h
    cases j with
    | zero => rfl
    | succ j =>
      rw [byteWords, List.getElem?_cons_succ, ih _ j (by omega), List.drop_drop]
      rw [show 8 * (j + 1) = 8 + 8 * j by omega]

/-- A word whose bytes stand at a multiple of eight is read back. -/
theorem byteWords_word {n : Nat} {pre post : List Byte} {j : Nat} (w : Word) (hj : j < n) (hp : pre.length = 8 * j) :
    (byteWords n (pre ++ (leBytes w.toNat 8 ++ post)))[j]? = some w := by
  rw [getElem?_byteWords n _ j hj, ← hp, List.drop_left, List.take_left' (leBytes_length 8 _), leNat_leBytes,
    ofNat_toNat_mod w 8 rfl]

/-- Words as bytes, one after another: where each stands. -/
theorem flatMap_leBytes (ws : List Word) : ∀ (j : Nat) (h : j < ws.length), ∃ pre post : List Byte, pre.length = 8 * j ∧
    ws.flatMap (fun w => leBytes w.toNat 8) = pre ++ (leBytes ws[j].toNat 8 ++ post) := by
  induction ws with
  | nil => exact fun _ h => absurd h (Nat.not_lt_zero _)
  | cons w ws ih =>
    intro j h
    cases j with
    | zero => exact ⟨[], _, rfl, rfl⟩
    | succ j =>
      obtain ⟨pre, post, len, eq⟩ := ih j (Nat.lt_of_succ_lt_succ h)
      refine ⟨leBytes w.toNat 8 ++ pre, post, ?_, ?_⟩
      · rw [List.length_append, leBytes_length, len, Nat.mul_succ, Nat.add_comm]
      · rw [List.flatMap_cons, eq, List.append_assoc, List.getElem_cons_succ]

/-- R254: the report begins with the challenge. -/
theorem attestReport_attn (s : State) (j : Fin 4) : ∃ pre post : List Byte, pre.length = 8 * j.val ∧
    s.attestReport = pre ++ (leBytes s.sys.attn[j.val].toNat 8 ++ post) := by
  obtain ⟨pre, post, len, eq⟩ := flatMap_leBytes s.sys.attn.toList j.val (by simp)
  obtain ⟨rest, head⟩ : ∃ rest, s.attestReport = s.sys.attn.toList.flatMap (fun w => leBytes w.toNat 8) ++ rest :=
    ⟨_, by simp only [State.attestReport, State.attestHead, List.append_assoc]; rfl⟩
  exact ⟨pre, post ++ rest, len, by rw [head, eq, List.append_assoc, List.append_assoc, Vector.getElem_toList]⟩

/-- R254: device time stands at byte 104 of the report. -/
theorem attestReport_devtime (s : State) : ∃ pre post : List Byte, pre.length = 104 ∧
    s.attestReport = pre ++ (leBytes s.sys.devtime.toNat 8 ++ post) := by
  refine ⟨_, _, ?_, (List.append_assoc _ _ _).trans (List.append_assoc _ _ _)⟩
  simp [List.length_flatMap, List.map_const']

/-- R254: a write of 1 to ATTGO signs a report: the challenge comes first, and device time is word 13. -/
theorem attgoWrite_signs {s : State} (h : s.sys.attgo = false) : ∃ t, exec .attgoWrite s = .next t ∧ t.sys.attgo = true ∧
    t.sys.report.length = 38 ∧ (∀ j : Fin 4, t.sys.report[j.val]? = some s.sys.attn[j.val]) ∧
    t.sys.report[13]? = some s.sys.devtime ∧ t.cells = s.cells ∧ t.mem = s.mem := by
  have run : exec .attgoWrite s =
      .next { s with sys := { s.sys with attgo := true, report := byteWords 38 s.attestReport } } :=
    congrArg Host.Outcome.next (if_pos ⟨rfl, by simp [h]⟩)
  refine ⟨_, run, rfl, byteWords_length 38 _, fun j => ?_, ?_, rfl, rfl⟩
  · obtain ⟨pre, post, len, eq⟩ := attestReport_attn s j
    exact eq ▸ byteWords_word _ (by omega) len
  · obtain ⟨pre, post, len, eq⟩ := attestReport_devtime s
    exact eq ▸ byteWords_word _ (by omega) len

/-- R254: while a report is being written ATTGO takes no write, and a write other than 1 does nothing (log 105). -/
theorem writeAttgo_ignored {s : State} {v : Word} (h : v ≠ 1 ∨ s.sys.attgo = true) : s.writeAttgo v = s := by
  refine if_neg fun k => ?_
  rcases h with h | h
  · exact h k.1
  · exact k.2 h

theorem registerWrite_attgo {s : State} {v : Word} (h : v ≠ 1 ∨ s.sys.attgo = true) :
    exec (.registerWrite .attgo v) s = .next s :=
  congrArg Host.Outcome.next ((if_neg (by simp [hostPf])).trans (writeAttgo_ignored h))

/-! ### The clock (R255) -/

/-- R255: the settings of the governor. -/
theorem mhzOk_iff (m : Nat) : mhzOk m = true ↔ 1000 ≤ m ∧ m ≤ 3300 ∧ m % 100 = 0 := by
  simp [mhzOk, and_assoc]

theorem clockChange_spec (m : Nat) (s : State) :
    (1000 ≤ m ∧ m ≤ 3300 ∧ m % 100 = 0 → ∃ t, exec (.clockChange m) s = .next t ∧ t.sys.mhz = m ∧
      t.sys.mhzLow = min s.sys.mhzLow m ∧ t.sys.devtime = s.sys.devtime ∧ t.sys.cycle = s.sys.cycle ∧ t.cells = s.cells ∧
      t.mem = s.mem) ∧
    (m < 1000 ∨ 3300 < m ∨ m % 100 ≠ 0 → exec (.clockChange m) s = .next s) := by
  constructor <;> intro h
  · exact ⟨_, congrArg Host.Outcome.next (if_pos ((mhzOk_iff m).2 h)), rfl, rfl, rfl, rfl, rfl, rfl⟩
  · exact congrArg Host.Outcome.next (if_neg fun k => by have := (mhzOk_iff m).1 k; omega)

/-! ### Register writes (R11) -/

section
variable {s : State} (done : s.sys.bootDone = true) (v : Word)
include done

/-- R249: after READY every register takes writes. -/
theorem registerWrite_taken (g : RegTarget) : (!s.sys.bootDone && !hostPf g) ≠ true := by simp [done]

theorem registerWrite_window (vf : Fin 64) : exec (.registerWrite (.window vf) v) s =
    .next (s.modFn vf.val fun f => { f with window := v.setWidth 25 }) :=
  congrArg Host.Outcome.next (if_neg (registerWrite_taken done _))

theorem registerWrite_phbase (vf : Fin 64) : exec (.registerWrite (.phbase vf) v) s =
    .next (s.modFn vf.val fun f => { f with phbase := v.setWidth 16 }) :=
  congrArg Host.Outcome.next (if_neg (registerWrite_taken done _))

theorem registerWrite_mbreq (vf : Fin 64) (k : Fin 3) : exec (.registerWrite (.mbreq vf k) v) s =
    .next (s.modMbox vf.val fun m => { m with req := m.req.set k.val v k.isLt }) :=
  congrArg Host.Outcome.next (if_neg (registerWrite_taken done _))

theorem registerWrite_asid (a : BitVec 16) : exec (.registerWrite (.asid a) v) s =
    .next { s with mem := { s.mem with asids := tset s.mem.asids a.toNat (asidOf v) } } :=
  congrArg Host.Outcome.next (if_neg (registerWrite_taken done _))

theorem registerWrite_phaser (n : BitVec 16) (k : Fin 4) : exec (.registerWrite (.phaser n k) v) s =
    .next (s.setPhaser n.toNat ((s.phaser n.toNat).withWord k v)) :=
  congrArg Host.Outcome.next (if_neg (registerWrite_taken done _))

theorem registerWrite_workqCreate (n : BitVec 12) {m : Fin 17} (hm : 4 ≤ m.val) : exec (.registerWrite (.workqCreate n m) v) s =
    .next (s.setWq n.toNat { m := m.val, base := wbits v 40 6 * 64 }) :=
  congrArg Host.Outcome.next ((if_neg (registerWrite_taken done _)).trans (if_neg (Nat.not_lt.2 hm)))

theorem registerWrite_elcfg : exec (.registerWrite .elcfg v) s =
    .next { s with sys := { s.sys with errLog := s.sys.errLog.withCfg v } } :=
  congrArg Host.Outcome.next (if_neg (registerWrite_taken done _))

theorem registerWrite_enable (vf : Fin 64) : exec (.registerWrite (.enable vf) v) s = .next (s.enableFn vf) :=
  congrArg Host.Outcome.next (if_neg (registerWrite_taken done _))

end

theorem mbox_modMbox (s : State) (n : Nat) (f : Mailbox → Mailbox) : ((s.modMbox n f).fn n).mbox = f (s.fn n).mbox := by
  rw [State.modMbox, fn_modFn]

/-- R225: an ASID entry as firmware writes it. -/
theorem asidOf_eq (v : Word) : asidOf v =
    { valid := v.getLsbD 63, vf := v.extractLsb' 41 6, root := v.extractLsb' 12 29 } := by
  rw [asidOf, ofNat_wbits v 41 6 46 rfl, ofNat_wbits v 12 29 40 rfl]

/-- R234, R235: new counts of a phaser, whose arrivals they may complete. -/
theorem withWord_counts (p : Phaser) (v : Word) :
    let g := (v.extractLsb' 16 16).toNat
    let w := (v.extractLsb' 48 16).toNat
    if 1 ≤ g + w ∧ p.arrived = g + w then (p.withWord 1 v).phase = p.phase + 1 ∧ (p.withWord 1 v).arrived = 0
    else p.withWord 1 v = { p with nsig := g, nwait := (v.extractLsb' 32 16).toNat, nsw := w } := by
  have counts : p.withWord 1 v = ({ p with
      nsig := (v.extractLsb' 16 16).toNat, nwait := (v.extractLsb' 32 16).toNat,
      nsw := (v.extractLsb' 48 16).toNat } : Phaser).settle := by
    rw [toNat_extractLsb' v 16 16 31 rfl, toNat_extractLsb' v 32 16 47 rfl, toNat_extractLsb' v 48 16 63 rfl]
    rfl
  dsimp only
  rw [counts, Phaser.settle]
  split
  · exact ⟨rfl, rfl⟩
  · rfl

/-- R197: that queues are FREE shows in no cell. -/
theorem freeQueues_cells (s : State) (vf : Fin 64) : (s.freeQueues vf).cells = s.cells :=
  List.foldlRecOn (motive := fun t : State => t.cells = s.cells) _ _ rfl fun _ h _ _ => h

/-- R237: a function that leaves DISABLED or FROZEN is ENABLED. -/
theorem enableFn_spec {s : State} {vf : Fin 64} (h : (s.fn vf.val).state = .disabled ∨ (s.fn vf.val).state = .frozen) :
    (s.enableFn vf).cells = s.cells ∧ ((s.enableFn vf).fn vf.val).state = .enabled := by
  rcases h with h | h
  · simp only [State.enableFn, h, modFn_cells, freeQueues_cells, fn_modFn, and_self]
  · simp only [State.enableFn, h, modFn_cells, fn_modFn, and_self]

/-! ### ILL_OP (R258) -/

theorem kernelFatal_fns (s : State) (c : Nat) (k : Cause) : (s.kernelFatal c k).fns = s.fns := by
  unfold State.kernelFatal State.fatalFor
  split
  · rfl
  · dsimp only
    split <;> rfl

/-- R181: a fatal stop of a cell freezes the queue of its kernel. -/
theorem queue_kernelFatal {s : State} {c : Nat} {b : Binding} (k : Cause) (bound : (s.cell c).bound = some b)
    (active : (s.queue b.vf b.q).state = .active) :
    ((s.kernelFatal c k).queue b.vf b.q).state = .frozen ∧ ((s.kernelFatal c k).queue b.vf b.q).fcause = k := by
  have frozen : (s.kernelFatal c k).queue b.vf b.q = { s.queue b.vf b.q with
      state := .frozen, fcause := k, fidx := BitVec.ofNat 16 (b.slot % 2 ^ (s.queue b.vf b.q).ringlog) } := by
    simp only [State.kernelFatal, bound, State.fatalFor]
    split
    · rw [queue_modQueue, if_pos active]
    · exact (queue_modQueue s b.vf b.q _).trans (if_pos active)
  exact frozen ▸ ⟨rfl, rfl⟩

/-- R42, R81: an empty operand log and no ARITH leave nothing to land and nothing to take before a cause of the sequencer. -/
theorem vectorArith_runLog {s : State} {c : Nat} (log : (s.cell c).seq.log = []) (landed : (s.cell c).fpLanded = [])
    (arith : (s.cell c).seq.arith = none) : ∃ t : State, (s.modCell c fun x => x.runLog 24).vectorArith c = (none, t) ∧
      t.cell c = { s.cell c with wrote := [] } ∧ t.fns = s.fns ∧ t.disp = s.disp := by
  have ran : (s.modCell c fun x => x.runLog 24).cell c = { s.cell c with wrote := [] } := by
    rw [cell_modCell, runLog_nil _ log landed 23]
  refine ⟨_, vectorArith_none _ _ (by rw [ran]; exact arith), ?_, rfl, rfl⟩
  rw [cell_modCell, ran, ← arith]

/-- R161, R181, R215: a fatal cause of the sequencer, with an empty operand log and no ARITH due, is reported, and is fatal to the
cell's kernel. -/
theorem seqFault_fatal {s : State} {c : Nat} {k : Cause} (pc : VAddr) (w a : Word) (fatal : causeClass k = 0)
    (log : (s.cell c).seq.log = []) (landed : (s.cell c).fpLanded = []) (arith : (s.cell c).seq.arith = none) :
    ∃ u : State, s.seqFault c k pc w a none = u.kernelFatal c k ∧
      u.fns = (s.report (s.cell c).seq.id.vfid.toNat { (s.cellRecord c k 0) with pc := pc, opword := w, addr := a }).fns ∧
      u.disp = s.disp ∧ (u.cell c).bound = (s.cell c).bound := by
  obtain ⟨t, quiet, cell, fns, disp⟩ := vectorArith_runLog log landed arith
  have record : t.seqRecord c none ({ (t.cellRecord c k (causeClass k)) with pc := pc, opword := w, addr := a }.withBad none) =
      { (s.cellRecord c k 0) with pc := pc, opword := w, addr := a } := by
    simp only [State.seqRecord, State.cellRecord, cell, log, List.find?_nil, Record.withBad, fatal]
  refine ⟨?stopped, ?run, ?fns, ?disp, ?bound⟩
  case run =>
    simp only [State.seqFault, quiet, record]
    exact if_pos rfl
  case fns =>
    simp only [modCell_fns, State.stopCell, State.report, modFn_fns, State.fn, cell, fns]
  case disp => exact disp
  case bound =>
    rw [cell_modCell]
    show (State.cell (State.stopCell _ _ _) c).bound = _
    rw [(stopping_stopCell _ c _).bound c, cell_modCell]
    show (t.cell c).bound = _
    rw [cell]

/-- R258, R161, R181, R215: a word of no instruction stops its cell with ILL_OP and makes a fatal record, and the queue of the kernel
freezes. -/
theorem unassignedOpcode_stops (w : BitVec 32) {b : Binding} {s : State} (bound : (me s).bound = some b)
    (log : (me s).seq.log = []) (landed : (me s).fpLanded = []) (arith : (me s).seq.arith = none) (stop : (me s).stop = none) :
    let vf := (me s).seq.id.vfid.toNat
    ∃ t r, exec (.unassignedOpcode w) s = .next t ∧ (me t).stop = some
        { code := cIllOp, cycle := s.sys.cycle + (if (me s).fired then 1 else 0), atSeq := true } ∧
      (t.fn vf).found = (s.fn vf).found ++ [r] ∧ r.cause = cIllOp ∧ r.cls = 0 ∧ r.pc = (me s).seq.pc ∧
      r.opword = w.setWidth 64 ∧ (me t).seq.pc = (me s).seq.pc ∧ (me t).seq.g = (me s).seq.g ∧
      (me t).seq.trap = (me s).seq.trap ∧
      ((s.queue b.vf b.q).state = .active → (t.queue b.vf b.q).state = .frozen ∧ (t.queue b.vf b.q).fcause = cIllOp) := by
  obtain ⟨stopped, -, cur, -, -⟩ :=
    seqFault_cell s s.sched.cur cIllOp (me s).seq.pc (w.setWidth 64) 0 none log landed arith stop
  obtain ⟨u, run, fns, disp, bound_u⟩ :=
    seqFault_fatal (me s).seq.pc (w.setWidth 64) 0 (k := cIllOp) (by decide) log landed arith
  generalize ran : s.seqFault s.sched.cur cIllOp (me s).seq.pc (w.setWidth 64) 0 none = t at stopped cur run
  have cell : me t = t.cell s.sched.cur := by rw [me, cur]
  refine ⟨t, { (s.cellRecord s.sched.cur cIllOp 0) with pc := (me s).seq.pc, opword := w.setWidth 64, addr := 0 },
    congrArg Host.Outcome.next ran, congrArg CellSt.stop (cell.trans stopped), ?found, rfl, rfl, rfl, rfl,
    congrArg (·.seq.pc) (cell.trans stopped), congrArg (·.seq.g) (cell.trans stopped),
    congrArg (·.seq.trap) (cell.trans stopped), fun active => ?queue⟩
  case found =>
    rw [run, State.fn, kernelFatal_fns, fns]
    exact congrArg Fn.found (fn_modFn s _ _)
  case queue =>
    have same : u.queue b.vf b.q = s.queue b.vf b.q := by rw [State.queue, disp]; rfl
    rw [run]
    exact queue_kernelFatal cIllOp (bound_u.trans bound) (by rw [same]; exact active)

/-! ### The obligation -/

/-- Settles O60: each part is one event of the module, described by the lemmas above. -/
theorem moduleEvents : Obligations.ModuleEvents := by
  unfold Obligations.ModuleEvents
  refine ⟨fun r s => ?power, fun d s => ⟨?fence, ?notOnline, ?fenced, ?reset, ?notFenced, ?trace⟩,
    fun s => attgoWrite_signs, fun v s => ⟨?busy, ?other⟩, fun s => ⟨rfl, fun m => clockChange_spec m s⟩,
    fun v s done => ⟨?window, ?phbase, ?mbreq, ?asid, ?phaser, ?workq, ?elcfg, ?enable⟩,
    fun w b s bound log landed arith stop => unassignedOpcode_stops w bound log landed arith stop⟩
  case power =>
    rw [← bootEnd_eq]
    exact powerOn_spec r s
  case fence => exact fun n g online one running on => dieFence_online online one running on
  case notOnline => exact fun h => ⟨_, dieFence_malformed h, dieResult_spec s d _, rfl, rfl, rfl⟩
  case fenced => exact dieFenced_drained
  case reset => exact fun u h => dieReset_fenced u h
  case notFenced => exact fun u h => ⟨_, dieReset_malformed u h, dieResult_spec s d _, rfl, rfl, rfl⟩
  case trace =>
    exact fun vf w l trace ok drops wr opens lls wf => tracePacketWrite_ring trace ok drops wr opens lls wf
  case busy => exact fun h => congrArg Host.Outcome.next (writeAttgo_ignored (.inr h))
  case other => exact fun h => registerWrite_attgo h
  case window => exact fun vf => ⟨_, registerWrite_window done v vf, rfl, fn_modFn s _ _⟩
  case phbase => exact fun vf => ⟨_, registerWrite_phbase done v vf, rfl, fn_modFn s _ _⟩
  case mbreq =>
    refine fun vf k => ⟨_, registerWrite_mbreq done v vf k, rfl, ?_⟩
    simp only [mbox_modMbox]
    exact ⟨Vector.getElem_set_self _, fun j hj => Vector.getElem_set_ne _ _ fun e => hj (Fin.ext e.symm)⟩
  case asid =>
    exact fun a => ⟨_, registerWrite_asid done v a, rfl, (tget_tset_self _ _ _ _).trans (asidOf_eq v)⟩
  case phaser =>
    refine fun n => ⟨_, registerWrite_phaser done v n 1, rfl, ?_⟩
    simp only [phaser_setPhaser]
    exact withWord_counts _ v
  case workq => exact fun n m hm => ⟨_, registerWrite_workqCreate done v n hm, _, tfind_tset_self _ _ _, rfl, rfl⟩
  case elcfg => exact ⟨_, registerWrite_elcfg done v, rfl, rfl, rfl⟩
  case enable => exact fun vf h => ⟨_, registerWrite_enable done v vf, enableFn_spec h⟩

end Sys2Proof.Proofs
end

section
/-! PROOFS. What a cell's sequencer does of itself: the word it takes up, injected results, transfers and loops, and what lands at
the end of an issue cycle. -/

namespace Sys2Proof.Proofs

open Sys2Proof Sys2Proof.Machine Sys2Proof.Safety Sys2Proof.Laws

/-! ### The word that a cell issues (R39, R43, R117) -/

theorem traceOnly_startPacket (s : State) (c : Nat) : TraceOnly c s (s.startPacket c) := by
  unfold State.startPacket
  dsimp only
  split
  · split
    · exact traceOnly_trans (traceOnly_modCell s c _ fun _ => rfl) (traceOnly_emit ..)
    · exact traceOnly_refl c s
  · exact traceOnly_refl c s

/-- R117: a cached line whose parity holds stays. -/
theorem icheck_sound {x : CellSt} {tag : Nat} {l : ILine} (found : x.ifind tag = some l) (sound : l.parityBad = false) :
    x.icheck tag = x := by
  simp [CellSt.icheck, found, sound]

/-- A cell with nothing to take before its word looks at the word. -/
theorem prepare_fetches {s : State} {c : Nat} (bound : (s.cell c).bound.isSome = true) (halted : (s.cell c).halted = false)
    (replay : (s.cell c).replay = false) (cause : (s.cell c).causeDue = false) (stays : (s.cell c).mustStop = false)
    (deadline : (s.cell c).deadlineHolds = false) (log : (s.cell c).seq.log.all (fun e => e.phase.isNone) = true) :
    s.prepare c = s.fetchWord c := by
  have noPhase : ((s.cell c).seq.log.findSome? fun e => e.phase.map fun p => (e, p)) = none := by
    simp only [List.findSome?_eq_none_iff, Option.map_eq_none_iff]
    exact fun e he => by simpa using List.all_eq_true.1 log e he
  have isBound : (s.cell c).bound.isNone = false := by simpa using bound
  simp [State.prepare, isBound, -Option.isNone_iff_eq_none, halted, replay, cause, stays, deadline, noPhase]

/-- R43, R117: a sequencer that is not frozen takes up the word at PC from its line. -/
theorem fetchWord_cached {s : State} {c : Nat} {l : ILine} (thawed : (s.cell c).freeze = .none)
    (inside : (s.cell c).inImage (s.cell c).seq.pc = true)
    (found : (s.cell c).ifind (vline ((s.cell c).seq.pc.setWidth 64)) = some l) (sound : l.parityBad = false) :
    ∃ u, s.fetchWord c = (some (lineWord l.data (s.cell c).seq.pc), u) ∧ Elsewhere c s u ∧ u.mem = s.mem ∧ u.disp = s.disp ∧
      u.cell c = { s.cell c with
        opword := lineWord l.data (s.cell c).seq.pc, trace := (u.cell c).trace, events := (u.cell c).events } := by
  let checked := s.modCell c fun y => y.icheck (vline ((s.cell c).seq.pc.setWidth 64))
  have same : checked.cell c = s.cell c := (cell_modCell s c _).trans (icheck_sound found sound)
  have traced := traceOnly_startPacket checked c
  refine ⟨(checked.startPacket c).modCell c fun y => { y with opword := lineWord l.data (s.cell c).seq.pc }, ?_,
    elsewhere_trans (elsewhere_trans (elsewhere_modCell ..) traced.elsewhere) (elsewhere_modCell ..), traced.mem, traced.disp, ?_⟩
  · simp only [State.fetchWord, thawed, Freeze.inWord, inside, Bool.not_true, Bool.false_eq_true, if_false]
    show (match (checked.cell c).ifind _ with | some l => _ | none => _) = _
    rw [same, found]
  · rw [cell_modCell, traced.cell, same]

/-- Settles O5: the cell has nothing to take before its word, so that it takes up the word at PC, which decodes. -/
theorem stepRunsTheDecodedWord : Obligations.StepRunsTheDecodedWord := by
  unfold Obligations.StepRunsTheDecodedWord
  intro s c ts l i x tasks bound halted replay stop cause deadline log thawed inside found sound decodes
  let s0 : State := { s with sched := { s.sched with tasks := ts, cur := c } }
  have stays : (s0.cell c).mustStop = false := by
    show x.mustStop = false
    simp [CellSt.mustStop, stop]
  have prepared : s0.prepare c = s0.fetchWord c := prepare_fetches bound halted replay cause stays deadline log
  obtain ⟨u, fetched, frame, mem, disp, cell⟩ := fetchWord_cached (s := s0) (c := c) thawed inside found sound
  refine ⟨u, ?_, frame.sched, mem, disp, frame.fns, frame.sys, frame.cells, cell⟩
  have word : s0.prepare c = (some (lineWord l.data x.seq.pc), u) := prepared.trans fetched
  simp only [step, tasks, runTask, issue]
  show (match s0.prepare c with | (none, s) => Host.Outcome.next s | (some w, s) => _) = _
  rw [word]
  simp only [decodes]

/-! ### Results of 64 bits and of 32 (R278 to R283) -/

theorem unsignedOf_eq (w : Bool) (a : Word) : unsignedOf w a = (a.setWidth (widthOf w)).toNat := by
  simp [unsignedOf]

theorem sval_toNat {n : Nat} (x : BitVec n) : sval n x.toNat = x.toInt := by
  rcases n with _ | n
  · simp [sval, BitVec.of_length_zero]
  · have half : 2 ^ (n + 1) = 2 * 2 ^ n := Nat.pow_succ'
    simp only [BitVec.toInt_eq_toNat_cond, sval, Nat.mod_eq_of_lt x.isLt, Nat.add_sub_cancel]
    by_cases low : x.toNat < 2 ^ n
    · rw [if_pos low, if_pos (by omega)]
    · rw [if_neg low, if_neg (by omega)]

theorem sval_mod (n v : Nat) : sval n (v % 2 ^ n) = sval n v := by simp [sval]

theorem signedOf_eq (w : Bool) (a : Word) : signedOf w a = (a.setWidth (widthOf w)).toInt := by
  rw [signedOf, ← sval_mod, ← BitVec.toNat_setWidth, sval_toNat]

/-- R279: the low bits of a number, sign-extended. -/
theorem sextN_eq (n v : Nat) : sextN n v = (BitVec.ofNat n v).signExtend 64 := by
  rw [BitVec.signExtend, ← sval_toNat, BitVec.toNat_ofNat, sval_mod]
  simp only [sextN, sval]
  split
  · rw [BitVec.ofInt_natCast]
  · rfl

theorem ofNat_wrapN (n : Nat) (v : Int) : BitVec.ofNat n (wrapN n v) = BitVec.ofInt n v := by
  apply BitVec.eq_of_toNat_eq
  have : 0 ≤ v % ((2 ^ n : Nat) : Int) := Int.emod_nonneg _ (by positivity)
  have : v % ((2 ^ n : Nat) : Int) < (2 ^ n : Nat) := Int.emod_lt_of_pos _ (by positivity)
  rw [BitVec.toNat_ofNat, BitVec.toNat_ofInt, wrapN, Nat.mod_eq_of_lt (by omega)]

/-- R278: a result is the number in the width, sign-extended. -/
theorem resultOf_eq (w : Bool) (v : Int) : resultOf w v = (BitVec.ofInt (widthOf w) v).signExtend 64 := by
  rw [resultOf, sextN_eq, ofNat_wrapN]

/-- R278: an operation of each width gives the 64-bit result, or the 32-bit one sign-extended. -/
theorem resultOf_byWidth {f : ∀ n, BitVec n → BitVec n → BitVec n} {w : Bool} {a b : Word} {v : Int}
    (h : BitVec.ofInt (widthOf w) v = f (widthOf w) (a.setWidth _) (b.setWidth _)) : resultOf w v = byWidth w f a b := by
  rw [resultOf_eq, h]
  cases w
  · show BitVec.signExtend 64 (f 64 (a.setWidth 64) (b.setWidth 64)) = _
    simp [byWidth]
  · simp [byWidth, widthOf]

section
variable {n : Nat} (x y : BitVec n)

theorem ofInt_add_toNat : BitVec.ofInt n ((x.toNat + y.toNat : Nat) : Int) = x + y := by
  rw [BitVec.ofInt_natCast, BitVec.ofNat_add, BitVec.ofNat_toNat, BitVec.ofNat_toNat, BitVec.setWidth_eq, BitVec.setWidth_eq]

theorem ofInt_sub_toNat : BitVec.ofInt n ((x.toNat : Int) - y.toNat) = x - y := by
  rw [Int.sub_eq_add_neg, BitVec.ofInt_add, BitVec.ofInt_neg, BitVec.ofInt_natCast, BitVec.ofInt_natCast, BitVec.ofNat_toNat,
    BitVec.ofNat_toNat, BitVec.setWidth_eq, BitVec.setWidth_eq, BitVec.sub_eq_add_neg]

theorem ofInt_min_toInt : BitVec.ofInt n (min x.toInt y.toInt) = if x.slt y then x else y := by
  rw [BitVec.slt_eq_decide]
  by_cases below : x.toInt < y.toInt
  · rw [if_pos (decide_eq_true below), min_eq_left (by omega), BitVec.ofInt_toInt]
  · rw [if_neg (by simpa using below), min_eq_right (by omega), BitVec.ofInt_toInt]

theorem ofInt_max_toInt : BitVec.ofInt n (max x.toInt y.toInt) = if x.slt y then y else x := by
  rw [BitVec.slt_eq_decide]
  by_cases below : x.toInt < y.toInt
  · rw [if_pos (decide_eq_true below), max_eq_right (by omega), BitVec.ofInt_toInt]
  · rw [if_neg (by simpa using below), max_eq_left (by omega), BitVec.ofInt_toInt]

theorem ofInt_min_toNat : BitVec.ofInt n (min x.toNat y.toNat : Nat) = if x.ult y then x else y := by
  rw [BitVec.ult_eq_decide, BitVec.ofInt_natCast]
  by_cases below : x.toNat < y.toNat
  · rw [if_pos (decide_eq_true below), min_eq_left (by omega), BitVec.ofNat_toNat, BitVec.setWidth_eq]
  · rw [if_neg (by simpa using below), min_eq_right (by omega), BitVec.ofNat_toNat, BitVec.setWidth_eq]

theorem ofInt_max_toNat : BitVec.ofInt n (max x.toNat y.toNat : Nat) = if x.ult y then y else x := by
  rw [BitVec.ult_eq_decide, BitVec.ofInt_natCast]
  by_cases below : x.toNat < y.toNat
  · rw [if_pos (decide_eq_true below), max_eq_right (by omega), BitVec.ofNat_toNat, BitVec.setWidth_eq]
  · rw [if_neg (by simpa using below), max_eq_left (by omega), BitVec.ofNat_toNat, BitVec.setWidth_eq]

theorem ofInt_shl_toNat (k : Nat) : BitVec.ofInt n (x.toNat * 2 ^ k : Nat) = x <<< k := by
  rw [BitVec.ofInt_natCast]
  exact BitVec.eq_of_toNat_eq (by rw [BitVec.toNat_ofNat, BitVec.toNat_shiftLeft, Nat.shiftLeft_eq])

theorem ofInt_shr_toNat (k : Nat) : BitVec.ofInt n (x.toNat / 2 ^ k : Nat) = x >>> k := by
  rw [BitVec.ofInt_natCast]
  apply BitVec.eq_of_toNat_eq
  rw [BitVec.toNat_ofNat, BitVec.toNat_ushiftRight, Nat.shiftRight_eq_div_pow,
    Nat.mod_eq_of_lt (Nat.lt_of_le_of_lt (Nat.div_le_self _ _) x.isLt)]

theorem ofInt_sar_toInt (k : Nat) : BitVec.ofInt n (x.toInt / (2 ^ k : Nat)) = x.sshiftRight k := by
  rw [← Int.shiftRight_eq_div_pow, BitVec.sshiftRight]

theorem ofInt_rot_toNat {k : Nat} (h : k < n) :
    BitVec.ofInt n (x.toNat * 2 ^ k % 2 ^ n + x.toNat / 2 ^ (n - k) : Nat) = x.rotateLeft k := by
  have low : x.toNat / 2 ^ (n - k) < 2 ^ k := by
    rw [Nat.div_lt_iff_lt_mul (Nat.two_pow_pos _), ← Nat.pow_add, Nat.add_sub_cancel' (Nat.le_of_lt h)]
    exact x.isLt
  have high : x.toNat * 2 ^ k % 2 ^ n = (x.toNat % 2 ^ (n - k)) <<< k := by
    rw [Nat.shiftLeft_eq, ← Nat.mul_mod_mul_right, ← Nat.pow_add, Nat.sub_add_cancel (Nat.le_of_lt h)]
  have turned : (x.rotateLeft k).toNat = x.toNat * 2 ^ k % 2 ^ n + x.toNat / 2 ^ (n - k) := by
    rw [BitVec.toNat_rotateLeft, Nat.mod_eq_of_lt h, Nat.shiftLeft_eq, Nat.shiftRight_eq_div_pow, high,
      Nat.shiftLeft_add_eq_or_of_lt low]
  rw [BitVec.ofInt_natCast, ← turned, BitVec.ofNat_toNat, BitVec.setWidth_eq]

end

theorem shiftCount_eq (w : Bool) (b : Word) : shiftCount w b = (b.setWidth (widthOf w)).toNat % widthOf w := by
  cases w <;> simp [shiftCount, widthOf]

/-! ### The value of each instruction of latency 1 (R279 to R283) -/

section
variable (w : Bool) (a b : Word)

theorem add_value : resultOf w (unsignedOf w a + unsignedOf w b : Nat) = byWidth w (fun _ a b => a + b) a b :=
  resultOf_byWidth (by rw [unsignedOf_eq, unsignedOf_eq, ofInt_add_toNat])

theorem sub_value : resultOf w ((unsignedOf w a : Int) - unsignedOf w b) = byWidth w (fun _ a b => a - b) a b :=
  resultOf_byWidth (by rw [unsignedOf_eq, unsignedOf_eq, ofInt_sub_toNat])

theorem min_value : resultOf w (min (signedOf w a) (signedOf w b)) = byWidth w (fun _ a b => if a.slt b then a else b) a b :=
  resultOf_byWidth (by rw [signedOf_eq, signedOf_eq, ofInt_min_toInt])

theorem max_value : resultOf w (max (signedOf w a) (signedOf w b)) = byWidth w (fun _ a b => if a.slt b then b else a) a b :=
  resultOf_byWidth (by rw [signedOf_eq, signedOf_eq, ofInt_max_toInt])

theorem minn_value : resultOf w (min (unsignedOf w a) (unsignedOf w b) : Nat) =
    byWidth w (fun _ a b => if a.ult b then a else b) a b :=
  resultOf_byWidth (by rw [unsignedOf_eq, unsignedOf_eq, ofInt_min_toNat])

theorem maxn_value : resultOf w (max (unsignedOf w a) (unsignedOf w b) : Nat) =
    byWidth w (fun _ a b => if a.ult b then b else a) a b :=
  resultOf_byWidth (by rw [unsignedOf_eq, unsignedOf_eq, ofInt_max_toNat])

theorem shlVal_value (k : Nat) : shlVal w a k = byWidth w (fun _ a _ => a <<< k) a b :=
  resultOf_byWidth (by rw [unsignedOf_eq, ofInt_shl_toNat])

theorem shrVal_value (k : Nat) : shrVal w a k = byWidth w (fun _ a _ => a >>> k) a b :=
  resultOf_byWidth (by rw [unsignedOf_eq, ofInt_shr_toNat])

theorem sarVal_value (k : Nat) : sarVal w a k = byWidth w (fun _ a _ => a.sshiftRight k) a b :=
  resultOf_byWidth (by rw [signedOf_eq, ofInt_sar_toInt])

theorem shl_value : shlVal w a (shiftCount w b) = byWidth w (fun n a b => a <<< (b.toNat % n)) a b :=
  resultOf_byWidth (by rw [unsignedOf_eq, ofInt_shl_toNat, shiftCount_eq])

theorem shr_value : shrVal w a (shiftCount w b) = byWidth w (fun n a b => a >>> (b.toNat % n)) a b :=
  resultOf_byWidth (by rw [unsignedOf_eq, ofInt_shr_toNat, shiftCount_eq])

theorem sar_value : sarVal w a (shiftCount w b) = byWidth w (fun n a b => a.sshiftRight (b.toNat % n)) a b :=
  resultOf_byWidth (by rw [signedOf_eq, ofInt_sar_toInt, shiftCount_eq])

theorem rot_value : rotVal w a (shiftCount w b) = byWidth w (fun n a b => a.rotateLeft (b.toNat % n)) a b :=
  resultOf_byWidth (by
    rw [unsignedOf_eq, shiftCount_eq]
    exact ofInt_rot_toNat _ (Nat.mod_lt _ (by cases w <;> decide)))

end

/-- R7: a bit of the number of some bytes. -/
theorem testBit_leNat (l : List Byte) : ∀ j : Nat, (leNat l).testBit j = (l.getD (j / 8) 0).getLsbD (j % 8) := by
  induction l with
  | nil => intro j; simp [leNat]
  | cons b t ih =>
    intro j
    rw [leNat, Nat.add_comm, show (256 : Nat) = 2 ^ 8 from rfl, Nat.testBit_two_pow_mul_add _ b.isLt]
    by_cases low : j < 8
    · rw [if_pos low, Nat.div_eq_of_lt low, Nat.mod_eq_of_lt low]
      rfl
    · rw [if_neg low, ih, show j / 8 = (j - 8) / 8 + 1 by omega, show j % 8 = (j - 8) % 8 by omega]
      rfl

/-- R7: a byte of a number. -/
theorem getElem_leBytes (n : Nat) : ∀ (v k : Nat) (h : k < (leBytes v n).length), (leBytes v n)[k] = BitVec.ofNat 8 (v / 256 ^ k) := by
  induction n with
  | zero => intro v k h; exact absurd h (by simp [leBytes])
  | succ n ih =>
    intro v k h
    cases k with
    | zero => simp [leBytes]
    | succ k => simpa [leBytes, Nat.div_div_eq_div_mul, Nat.pow_succ'] using ih (v / 256) k (by simpa [leBytes] using h)

/-- R279: BSWAP takes the bytes of a number of `n` bytes from the highest down. -/
theorem testBit_bswapN {n j : Nat} (v : Nat) (h : j < 8 * n) :
    (bswapN n v).testBit j = v.testBit (8 * n - 8 - j / 8 * 8 + j % 8) := by
  have inside : j / 8 < (leBytes v n).reverse.length := by simp; omega
  rw [bswapN, testBit_leNat, List.getD_eq_getElem _ _ inside, List.getElem_reverse, getElem_leBytes, leBytes_length,
    BitVec.getLsbD_ofNat, byte_pow, Nat.testBit_div_two_pow]
  simp only [show j % 8 < 8 by omega, decide_true, Bool.true_and]
  congr 1
  omega

/-- R278: the bits of a result. -/
theorem getLsbD_resultOf (w : Bool) (v : Nat) (j : Nat) (h : j < 64) :
    (resultOf w v).getLsbD j = if j < widthOf w then v.testBit j else v.testBit (widthOf w - 1) := by
  rw [resultOf_eq, BitVec.getLsbD_signExtend, BitVec.ofInt_natCast, BitVec.getLsbD_ofNat, BitVec.msb_eq_getLsbD_last,
    BitVec.getLsbD_ofNat]
  have : widthOf w - 1 < widthOf w := by cases w <;> decide
  by_cases low : j < widthOf w <;> simp [h, low, this]

/-- R279: the bytes of the width reversed, and the result sign-extended. -/
def BytesReversed (w : Bool) (a v : Word) : Prop :=
  let n := if w then 32 else 64
  (∀ j < n, v.getLsbD j = a.getLsbD (n - 8 - j / 8 * 8 + j % 8)) ∧ ∀ j, n ≤ j → j < 64 → v.getLsbD j = v.getLsbD 31

theorem bswap_value (w : Bool) (a : Word) : BytesReversed w a (resultOf w (bswapN (widthOf w / 8) (unsignedOf w a) : Nat)) := by
  have bytes : 8 * (widthOf w / 8) = widthOf w := by cases w <;> rfl
  have most : widthOf w ≤ 64 := by cases w <;> decide
  unfold BytesReversed
  intro n
  constructor
  · intro j hj
    have inside : j < widthOf w := hj
    have source : n - 8 - j / 8 * 8 + j % 8 < widthOf w := by
      show widthOf w - 8 - j / 8 * 8 + j % 8 < widthOf w
      omega
    rw [getLsbD_resultOf w _ j (by omega), if_pos inside, testBit_bswapN _ (by omega), bytes, unsignedOf_eq, BitVec.testBit_toNat,
      BitVec.getLsbD_setWidth, decide_eq_true (show widthOf w - 8 - j / 8 * 8 + j % 8 < widthOf w from source), Bool.true_and]
    rfl
  · intro j hn hj
    have narrow : w = true := by
      cases w
      · exact absurd hn (by show ¬64 ≤ j; omega)
      · rfl
    subst narrow
    rw [getLsbD_resultOf _ _ j hj, getLsbD_resultOf _ _ 31 (by decide), if_neg (show ¬j < widthOf true from Nat.not_lt.2 hn)]
    rfl

/-! ### A result that an injection takes (R42, R69, R85) -/

/-- R42, R85: the entry that an injected result leaves. -/
theorem inject1_spec (x : CellSt) (i : Instr) (srcs : List Reg) (d : Reg) (v : Word) :
    ∃ e : LogEntry, x.inject1 i srcs d v = { x with
        seq := { x.seq with errinj := { x.seq.errinj with arm := false }, log := x.seq.log ++ [e] },
        ec := { x.ec with resid := satInc x.ec.resid } } ∧
      e.fault = cMcResidue ∧ e.remain = 1 ∧ e.dest = destG d ∧ e.val = v ∧ e.pcw = x.seq.pc ∧ e.word = wordOf i :=
  ⟨_, rfl, rfl, rfl, rfl, rfl, rfl, rfl⟩

/-- R42, R69, R85: with an injection armed for its class, a result of latency 1 with the property `P` stays in the operand log as
a late fault. -/
def FailsWith (s : State) (i : Instr) (g : Guard) (srcs : List Reg) (d : Reg) (cls : BitVec 4) (P : Word → Prop) : Prop :=
  Ready s i g srcs → d.val ≠ 0 → (me s).seq.log.length < 8 → (me s).seq.errinj.arm = true →
  (me s).seq.errinj.seq = true → (me s).seq.errinj.cls = cls →
  ∃ t e, exec i s = .next t ∧ (me t).seq.log = (me s).seq.log ++ [e] ∧ e.fault = cMcResidue ∧ e.remain = 1 ∧
    e.dest = destG d ∧ P e.val ∧ e.pcw = (me s).seq.pc ∧ e.word = wordOf i ∧ (me t).seq.g = (me s).seq.g ∧
    (me t).seq.p = (me s).seq.p ∧ (me t).seq.errinj = { (me s).seq.errinj with arm := false } ∧
    (me t).ec.resid = satInc (me s).ec.resid ∧ t.mem = s.mem ∧ t.disp = s.disp ∧ SameBytes s t

/-- An instruction whose one effect is a register write of a class that an injection takes. -/
theorem failsWith_of_writeOp {s : State} {i : Instr} {g : Guard} {srcs : List Reg} {d : Reg} {cls : BitVec 4}
    {v : CellSt → Word} {P : Word → Prop} (run : exec i s = s.writeOp i g srcs d (some cls.toNat) v) (value : P (v (me s))) :
    FailsWith s i g srcs d cls P := by
  intro ready dest room arm seq cl
  obtain ⟨e, cell, fault, remain, named, val, pcw, word⟩ := inject1_spec (me s) i srcs d (v (me s))
  let u := s.modCell s.sched.cur fun x => x.inject1 i srcs d (v x)
  have taken : (s.cell s.sched.cur).injects (some cls.toNat) = true := by
    show (me s).injects _ = true
    simp [CellSt.injects, arm, seq, cl]
  have notFull : (s.cell s.sched.cur).logFull = false := by
    show (me s).logFull = false
    simpa [CellSt.logFull] using room
  have injected : u.cell s.sched.cur = _ := (cell_modCell s _ _).trans cell
  have frame := elsewhere_trans (elsewhere_modCell s s.sched.cur fun x => x.inject1 i srcs d (v x)) (advance_elsewhere u s.sched.cur)
  have after : me (u.advance s.sched.cur) = _ := (me_of frame rfl).trans ((advance_cell u s.sched.cur).trans (by rw [injected]))
  have answer : exec i s = .next (u.advance s.sched.cur) := by
    rw [run, State.writeOp, issueAs_ready ready]
    simp only [dest, taken, notFull, ne_eq, not_false_eq_true, and_self, if_true, Bool.false_eq_true, if_false, u]
  refine ⟨_, e, answer, ?log, fault, remain, named, val ▸ value, pcw, word, ?regs, ?preds, ?spent, ?counted, advance_mem u _,
    advance_disp u _, ?bytes⟩
  case log => rw [after, next_log]
  case regs => rw [after, next_g]
  case preds => rw [after, next_p]
  case spent => rw [after, next_frame]
  case counted => rw [after]
  case bytes => exact sameBytes_of s.sched.cur (advance_mem u _) frame.cells (by rw [advance_cell, injected]; rfl)

theorem failsWith_value {s : State} {i : Instr} {g : Guard} {srcs : List Reg} {d : Reg} {cls : BitVec 4} {v : CellSt → Word}
    {z : Word} (run : exec i s = s.writeOp i g srcs d (some cls.toNat) v) (value : v (me s) = z) :
    FailsWith s i g srcs d cls (· = z) := failsWith_of_writeOp run value

theorem sext_value {x : ExtArgs} {n : Nat} (a : Word) (h : (x.width, n) ∈ [((0 : Fin 32), 8), (1, 16), (2, 32)]) :
    sextN (keptWidth x.width) a.toNat = (a.setWidth n).signExtend 64 ∧
    BitVec.ofNat 64 (a.toNat % 2 ^ keptWidth x.width) = (a.setWidth n).setWidth 64 := by
  have width : keptWidth x.width = n := by
    simp only [List.mem_cons, Prod.mk.injEq, List.not_mem_nil, or_false] at h
    obtain ⟨hw, rfl⟩ | ⟨hw, rfl⟩ | ⟨hw, rfl⟩ := h <;> rw [hw] <;> rfl
  rw [width, sextN_eq, BitVec.ofNat_toNat]
  refine ⟨rfl, BitVec.eq_of_toNat_eq ?_⟩
  simp

theorem lhi_value (a : Word) (v : BitVec 17) : a <<< 16 + v.setWidth 64 = a * 65536 + v.setWidth 64 := by
  rw [BitVec.shiftLeft_eq_mul_twoPow]
  rfl

/-- Settles O15: every instruction of latency 1 with a class is a register write that the injection takes. -/
theorem injectedResults : Obligations.InjectedResults := by
  unfold Obligations.InjectedResults
  intro s a fails
  refine ⟨?int, ?logic, fun x => failsWith_value rfl rfl, ?imm, ?shift,
    fun x => failsWith_of_writeOp (P := BytesReversed x.w (a x.a)) rfl (bswap_value x.w _),
    fun x n h => ⟨failsWith_value rfl (sext_value _ h).1,
      failsWith_value rfl (sext_value _ h).2⟩,
    fun x => failsWith_value rfl (lhi_value _ _)⟩
  case int =>
    simp only [intOps, List.zip_cons_cons, List.zip_nil_right, List.forall_mem_cons, List.not_mem_nil, IsEmpty.forall_iff,
      implies_true, and_true]
    exact ⟨fun x => failsWith_value rfl (add_value _ _ _), fun x => failsWith_value rfl (sub_value _ _ _),
      fun x => failsWith_value rfl (min_value _ _ _), fun x => failsWith_value rfl (max_value _ _ _),
      fun x => failsWith_value rfl (minn_value _ _ _), fun x => failsWith_value rfl (maxn_value _ _ _),
      fun x => failsWith_value rfl (shl_value _ _ _), fun x => failsWith_value rfl (shr_value _ _ _),
      fun x => failsWith_value rfl (sar_value _ _ _), fun x => failsWith_value rfl (rot_value _ _ _)⟩
  case logic =>
    simp only [logicOps, List.forall_mem_cons, List.not_mem_nil, IsEmpty.forall_iff, implies_true, and_true]
    exact ⟨fun x => failsWith_value rfl rfl, fun x => failsWith_value rfl rfl, fun x => failsWith_value rfl rfl,
      fun x => failsWith_value rfl rfl⟩
  case imm =>
    simp only [immOps, List.zip_cons_cons, List.zip_nil_right, List.forall_mem_cons, List.not_mem_nil, IsEmpty.forall_iff,
      implies_true, and_true]
    exact ⟨fun x => failsWith_value rfl rfl, fun x => failsWith_value rfl rfl, fun x => failsWith_value rfl rfl,
      fun x => failsWith_value rfl rfl⟩
  case shift =>
    simp only [shiftOps, List.forall_mem_cons, List.not_mem_nil, IsEmpty.forall_iff, implies_true, and_true]
    exact ⟨fun x => failsWith_value rfl (shlVal_value _ _ _ _), fun x => failsWith_value rfl (shrVal_value _ _ _ _),
      fun x => failsWith_value rfl (sarVal_value _ _ _ _)⟩

/-! ### Transfers (R291 to R293) -/

/-- R258: an instruction whose checks pass answers what the effect of its arm leaves. -/
theorem exec_ready {s : State} {i : Instr} {g : Guard} {srcs : List Reg} {eff : Nat → State → State} (arm : Out)
    (named : exec i s = arm) (run : arm = s.issueAs i g srcs eff) (ready : Ready s i g srcs) :
    exec i s = .next (eff s.sched.cur s) :=
  (named.trans run).trans (issueAs_ready ready eff)

theorem wbits_toNat (a : Word) (hi lo : Nat) : wbits a hi lo = a.toNat / 2 ^ lo % 2 ^ (hi + 1 - lo) := rfl

/-- R75: a word address keeps its bits. -/
theorem wordAddr_aligned {a : Word} (h : a.toNat % 4 = 0) : wordAddr a = a.setWidth 48 := by
  apply BitVec.eq_of_toNat_eq
  simp only [wordAddr, BitVec.toNat_shiftLeft, BitVec.toNat_ushiftRight, BitVec.toNat_setWidth, Nat.shiftLeft_eq,
    Nat.shiftRight_eq_div_pow]
  omega

/-- A transfer taken after nothing but the trace has changed. -/
theorem taken_traced {s u : State} (h : TraceOnly s.sched.cur s u) (a : VAddr) :
    Taken s (u.take s.sched.cur a) a ∧ KeptRegs s (u.take s.sched.cur a) := by
  obtain ⟨taken, regs, preds, log⟩ := taken_of (a := a) h.elsewhere h.mem h.disp (by rw [h.cell]; rfl)
  exact ⟨taken, regs.trans (by rw [h.cell]; rfl), preds, log⟩

theorem br_taken {x : BranchArgs} {s : State} (ready : Ready s (.br x) x.g []) : ∃ t, exec (.br x) s = .next t ∧
    Taken s t ((me s).seq.pc + x.off.signExtend 48 * 4) ∧ KeptRegs s t :=
  ⟨_, (exec_ready (execBr x s) rfl rfl ready :), taken_traced (traceOnly_guardBit s _ x.g true) _⟩

/-- R292: CALL writes the address after its slot to g31 and is taken. -/
theorem call_taken {x : BranchArgs} {s : State} (ready : Ready s (.call x) x.g []) : ∃ t, exec (.call x) s = .next t ∧
    Taken s t ((me s).seq.pc + x.off.signExtend 48 * 4) ∧ TookG s t 31 ((me s).seq.pc.setWidth 64 + 8) := by
  let link : Word := (me s).seq.pc.setWidth 64 + 8
  let linked := s.modCell s.sched.cur fun y => y.write1 31 link
  have traced := traceOnly_guardBit linked s.sched.cur x.g true
  have cell : (linked.guardBit s.sched.cur x.g true).cell s.sched.cur = { (me s).write1 31 link with
      trace := ((linked.guardBit s.sched.cur x.g true).cell s.sched.cur).trace,
      events := ((linked.guardBit s.sched.cur x.g true).cell s.sched.cur).events } := by
    rw [traced.cell]
    simp only [linked, cell_modCell]
    rfl
  obtain ⟨taken, regs, preds, log⟩ := taken_of (a := (me s).seq.pc + x.off.signExtend 48 * 4)
    (elsewhere_trans (elsewhere_modCell ..) traced.elsewhere) traced.mem traced.disp (by rw [cell]; rfl)
  let t := (linked.guardBit s.sched.cur x.g true).take s.sched.cur ((me s).seq.pc + x.off.signExtend 48 * 4)
  have greg : ∀ r, (me t).greg r = ((me s).setG 31 link).greg r := by
    intro r
    rw [CellSt.greg, regs, cell]
    rfl
  refine ⟨t, (exec_ready (execCall x s) rfl rfl ready :), taken, ?value, ?others, preds, log⟩
  case value => exact (congrArg GReg.data (greg 31)).trans (by rw [greg_setG, if_pos ⟨rfl, by decide⟩]; rfl)
  case others => exact fun r hr => (greg r).trans (by rw [greg_setG, if_neg fun h => hr h.1])

/-- R293: what an indirect transfer does by its target. -/
theorem indirect_spec (s : State) (i : Instr) (g : Guard) (a : Word) :
    (a.toNat < 2 ^ 48 → a.toNat % 4 = 0 → Taken s (s.indirect s.sched.cur i g a) (a.setWidth 48) ∧
      KeptRegs s (s.indirect s.sched.cur i g a)) ∧
    (2 ^ 48 ≤ a.toNat → s.indirect s.sched.cur i g a = s.raise s.sched.cur i cAddrIllegal a) ∧
    (a.toNat < 2 ^ 48 → a.toNat % 4 ≠ 0 → s.indirect s.sched.cur i g a = s.raise s.sched.cur i cMisalign a) := by
  have wide : wbits a 63 48 = a.toNat / 2 ^ 48 := by
    rw [wbits_toNat]; exact Nat.mod_eq_of_lt (by omega)
  have low : wbits a 1 0 = a.toNat % 4 := by rw [wbits_toNat, Nat.pow_zero, Nat.div_one]; rfl
  unfold State.indirect
  rw [wide, low]
  refine ⟨fun small aligned => ?_, fun big => if_pos (by omega), fun small odd => ?_⟩
  · rw [if_neg (by omega), if_neg (by omega), wordAddr_aligned aligned]
    exact taken_traced (traceOnly_trans (traceOnly_guardBit s _ g true) (traceOnly_emit ..)) _
  · rw [if_neg (by omega), if_pos odd]

/-- Settles O19: BR and CALL are taken; JMP and RET are indirect transfers to the address in their register. -/
theorem transfers : Obligations.Transfers := by
  unfold Obligations.Transfers
  refine ⟨fun x s => ⟨br_taken, fun ready _ => call_taken ready⟩, ?_⟩
  intro s i g r names ready a
  have run : exec i s = .next (s.indirect s.sched.cur i g a) := by
    obtain ⟨rfl, rfl⟩ | rfl := names
    · exact exec_ready (execRet g s) rfl rfl ready
    · exact exec_ready (execJmp ⟨g, r⟩ s) rfl rfl ready
  obtain ⟨goes, illegal, odd⟩ := indirect_spec s i g a
  exact ⟨fun small aligned => ⟨_, run, goes small aligned⟩, fun big => run.trans (congrArg _ (illegal big)),
    fun small off => run.trans (congrArg _ (odd small off))⟩

/-! ### The loop-end step over every open level (R296) -/

/-- R296: an open level ends at an address. -/
def endsAt (q : Seq) (a : VAddr) (k : Fin 4) : Prop := q.lact.getLsbD k.val = true ∧ (q.loops[k.val]).le = a

/-- R296: the step that begins with the level below `n` reaches a level: every level above it that ends there has its last
turn. -/
def reachedBelow (q : Seq) (a : VAddr) (n : Nat) (k : Fin 4) : Prop :=
  k.val < n ∧ endsAt q a k ∧ ∀ j : Fin 4, k < j → j.val < n → endsAt q a j → (q.loops[j.val]).lc = 1

/-- What the loop-end step over the levels below `n` leaves. -/
structure LoopsEnded (q : Seq) (a : VAddr) (n : Nat) (r : Seq) (t : Option VAddr) : Prop where
  onward : (∀ k : Fin 4, k.val < n → endsAt q a k → (q.loops[k.val]).lc = 1) → t = none
  again : ∀ k, reachedBelow q a n k → (q.loops[k.val]).lc ≠ 1 →
    t = some (q.loops[k.val]).lb ∧ r.lact.getLsbD k.val = true
  closed : ∀ k, reachedBelow q a n k → (q.loops[k.val]).lc = 1 → r.lact.getLsbD k.val = false
  counted : ∀ k, reachedBelow q a n k → r.loops[k.val] = { q.loops[k.val] with lc := (q.loops[k.val]).lc - 1 }
  kept : ∀ k, ¬reachedBelow q a n k → r.loops[k.val] = q.loops[k.val] ∧ r.lact.getLsbD k.val = q.lact.getLsbD k.val

/-- The levels below `n` decide what is reached below `n`. -/
theorem reachedBelow_congr {p q : Seq} {a : VAddr} {n : Nat} (loops : ∀ j : Fin 4, j.val < n → p.loops[j.val] = q.loops[j.val])
    (open_ : ∀ j : Fin 4, j.val < n → p.lact.getLsbD j.val = q.lact.getLsbD j.val) (k : Fin 4) :
    reachedBelow p a n k ↔ reachedBelow q a n k := by
  have ends : ∀ j : Fin 4, j.val < n → (endsAt p a j ↔ endsAt q a j) := fun j hj => by rw [endsAt, endsAt, loops j hj, open_ j hj]
  constructor
  · rintro ⟨hk, here, above⟩
    exact ⟨hk, (ends k hk).1 here, fun j hkj hj hje => loops j hj ▸ above j hkj hj ((ends j hj).2 hje)⟩
  · rintro ⟨hk, here, above⟩
    exact ⟨hk, (ends k hk).2 here, fun j hkj hj hje => (loops j hj).symm ▸ above j hkj hj ((ends j hj).1 hje)⟩

/-- A level that does not stop the step at `k` passes it on to the levels below. -/
theorem reachedBelow_succ {q : Seq} {a : VAddr} {k : Fin 4} (passes : endsAt q a k → (q.loops[k.val]).lc = 1) (j : Fin 4)
    (hj : j ≠ k) : reachedBelow q a (k.val + 1) j ↔ reachedBelow q a k.val j := by
  have below : j.val < k.val + 1 ↔ j.val < k.val := by have : j.val ≠ k.val := fun h => hj (Fin.ext h); omega
  constructor
  · rintro ⟨hk, here, above⟩
    exact ⟨below.1 hk, here, fun i hji hi => above i hji (by omega)⟩
  · rintro ⟨hk, here, above⟩
    refine ⟨below.2 hk, here, fun i hji hi hie => ?_⟩
    by_cases same : i = k
    · exact same ▸ passes (same ▸ hie)
    · have : i.val ≠ k.val := fun h => same (Fin.ext h)
      exact above i hji (by omega) hie

theorem sub_one_eq_zero {l : Word} : l - 1 = 0 ↔ l = 1 := by
  constructor
  · intro h; bv_omega
  · rintro rfl; rfl

theorem endsAt_iff {q : Seq} {a : VAddr} {k : Fin 4} :
    (q.lact.getLsbD k.val && (q.loops[k.val]).le == a) = true ↔ endsAt q a k := by
  rw [Bool.and_eq_true, beq_iff_eq, endsAt]

/-- A level that ends there is reached by the step that begins with it. -/
theorem reachedBelow_top {q : Seq} {a : VAddr} {k : Fin 4} (here : endsAt q a k) : reachedBelow q a (k.val + 1) k :=
  ⟨Nat.lt_succ_self _, here, fun _ hkj hj => absurd (Nat.lt_succ_iff.1 hj) (Nat.not_le.2 hkj)⟩

/-- A level that does not end there is left to the levels below. -/
theorem LoopsEnded.past {q r : Seq} {a : VAddr} {k : Fin 4} {t : Option VAddr} (rest : LoopsEnded q a k.val r t)
    (here : ¬endsAt q a k) : LoopsEnded q a (k.val + 1) r t := by
  have same : ∀ j, reachedBelow q a (k.val + 1) j ↔ reachedBelow q a k.val j := by
    intro j
    by_cases hjk : j = k
    · subst hjk
      exact ⟨fun h => absurd h.2.1 here, fun h => absurd h.2.1 here⟩
    · exact reachedBelow_succ (fun h => absurd h here) j hjk
  exact ⟨fun all => rest.onward fun j hj => all j (by omega), fun j h => rest.again j ((same j).1 h),
    fun j h => rest.closed j ((same j).1 h), fun j h => rest.counted j ((same j).1 h),
    fun j h => rest.kept j fun hn => h ((same j).2 hn)⟩

/-- A level with more turns is counted down, and the step ends with it. -/
theorem loopsEnded_again {q : Seq} {a : VAddr} {k : Fin 4} (here : endsAt q a k) (more : (q.loops[k.val]).lc ≠ 1) :
    LoopsEnded q a (k.val + 1) { q with loops := q.loops.set k.val { q.loops[k.val] with lc := (q.loops[k.val]).lc - 1 } }
      (some (q.loops[k.val]).lb) := by
  have only : ∀ j, reachedBelow q a (k.val + 1) j → j = k := by
    rintro j ⟨hj, -, above⟩
    by_contra hjk
    have : j.val ≠ k.val := fun h => hjk (Fin.ext h)
    exact more (above k (show j.val < k.val by omega) (Nat.lt_succ_self _) here)
  refine ⟨fun all => absurd (all k (Nat.lt_succ_self _) here) more, fun j hj _ => ?_, fun j hj one => ?_, fun j hj => ?_,
    fun j hj => ?_⟩
  · rw [only j hj]; exact ⟨rfl, here.1⟩
  · rw [only j hj] at one; exact absurd one more
  · rw [only j hj]; exact Vector.getElem_set_self _
  · exact ⟨Vector.getElem_set_ne k.isLt j.isLt fun h => hj ((Fin.ext h : k = j) ▸ reachedBelow_top here), rfl⟩

/-- A level with its last turn is closed with count 0, and the step goes on below it. -/
theorem LoopsEnded.last {q r : Seq} {a : VAddr} {k : Fin 4} {t : Option VAddr} (here : endsAt q a k)
    (last : (q.loops[k.val]).lc = 1)
    (rest : LoopsEnded { q with loops := q.loops.set k.val { q.loops[k.val] with lc := 0 }, lact := setBit q.lact k.val false }
      a k.val r t) : LoopsEnded q a (k.val + 1) r t := by
  generalize closed : ({ q with loops := q.loops.set k.val { q.loops[k.val] with lc := 0 },
                                lact := setBit q.lact k.val false } : Seq) = q' at rest
  have loops : ∀ j : Fin 4, j ≠ k → q'.loops[j.val] = q.loops[j.val] := fun j hj =>
    closed ▸ Vector.getElem_set_ne k.isLt j.isLt fun h => hj (Fin.ext h.symm)
  have lact : ∀ j : Fin 4, q'.lact.getLsbD j.val = (decide (j ≠ k) && q.lact.getLsbD j.val) := closed ▸ setBit_false q.lact k
  have lact_ne : ∀ j : Fin 4, j ≠ k → q'.lact.getLsbD j.val = q.lact.getLsbD j.val := fun j hj => by
    rw [lact, decide_eq_true hj, Bool.true_and]
  have ne_of : ∀ j : Fin 4, j.val < k.val → j ≠ k := fun j hj h => absurd (h ▸ hj) (Nat.lt_irrefl _)
  have same : ∀ j, j ≠ k → (reachedBelow q a (k.val + 1) j ↔ reachedBelow q' a k.val j) := fun j hj =>
    (reachedBelow_succ (fun _ => last) j hj).trans
      (reachedBelow_congr (fun i hi => loops i (ne_of i hi)) (fun i hi => lact_ne i (ne_of i hi)) j).symm
  have top : ¬reachedBelow q' a k.val k := fun h => absurd h.1 (Nat.lt_irrefl _)
  refine ⟨fun all => rest.onward fun j hj hje => ?_, fun j hj more => ?_, fun j hj one => ?_, fun j hj => ?_, fun j hj => ?_⟩
  · rw [endsAt, loops j (ne_of j hj), lact_ne j (ne_of j hj)] at hje
    rw [loops j (ne_of j hj)]
    exact all j (by omega) hje
  · have hjk : j ≠ k := by rintro rfl; exact more last
    have := rest.again j ((same j hjk).1 hj) (by rw [loops j hjk]; exact more)
    rwa [loops j hjk] at this
  · by_cases hjk : j = k
    · rw [hjk, (rest.kept k top).2, lact]
      simp
    · exact rest.closed j ((same j hjk).1 hj) (by rw [loops j hjk]; exact one)
  · by_cases hjk : j = k
    · rw [hjk, (rest.kept k top).1, last, BitVec.sub_self, ← closed]
      exact Vector.getElem_set_self _
    · have := rest.counted j ((same j hjk).1 hj)
      rwa [loops j hjk] at this
  · have hjk : j ≠ k := by rintro rfl; exact hj (reachedBelow_top here)
    have := rest.kept j fun h => hj ((same j hjk).2 h)
    rwa [loops j hjk, lact_ne j hjk] at this

/-- R296: the step takes the levels from the highest down. -/
theorem loopEnd_spec (a : VAddr) (n : Nat) : ∀ q : Seq, n ≤ 4 → LoopsEnded q a n (q.loopEnd a n).1 (q.loopEnd a n).2.1 := by
  induction n with
  | zero =>
    intro q _
    have nowhere : ∀ k, ¬reachedBelow q a 0 k := fun k h => Nat.not_lt_zero _ h.1
    exact ⟨fun _ => rfl, fun k h => (nowhere k h).elim, fun k h => (nowhere k h).elim, fun k h => (nowhere k h).elim,
      fun _ _ => ⟨rfl, rfl⟩⟩
  | succ n ih =>
    intro q hn
    let k : Fin 4 := ⟨n, by omega⟩
    have unfolded := loopEnd_succ q a k
    by_cases here : endsAt q a k
    · simp only [endsAt_iff.2 here, if_true] at unfolded
      by_cases last : (q.loops[k.val]).lc = 1
      · simp only [sub_one_eq_zero.2 last, ne_eq, not_true, if_false] at unfolded
        exact unfolded ▸ LoopsEnded.last (k := k) here last (ih _ (by omega))
      · simp only [mt sub_one_eq_zero.1 last, ne_eq, not_false_eq_true, if_true] at unfolded
        exact unfolded ▸ loopsEnded_again here last
    · simp only [mt endsAt_iff.1 here, Bool.false_eq_true, if_false] at unfolded
      exact unfolded ▸ LoopsEnded.past (k := k) (ih q (by omega)) here

/-! ### The next word (R74, R291, R296, R297) -/

theorem next_in_taken_slot {q : Seq} (h : q.slot = .taken) :
    q.next.1 = { q with pc := q.npc, npc := q.npc + 4, slot := .none } := by
  simp only [Seq.next, h]

theorem untaken_plain {q : Seq} (h : q.lact = 0) : q.untaken.1 = { q with pc := q.npc, npc := q.npc + 4, slot := .untaken } := by
  have nothing := loopEnd_none q.pc 4 q (fun j _ hj => by rw [h] at hj; simp at hj) (Nat.le_refl 4)
  simp only [Seq.untaken, nothing, Option.getD_none]

/-- R296: at a word that stands in no taken transfer's slot, what the loop-end step leaves decides the next. -/
theorem next_loopEnd {q : Seq} (h : q.slot ≠ .taken) : ∃ r t, LoopsEnded q q.pc 4 r t ∧ r.npc = q.npc ∧
    q.next.1 = { r with pc := t.getD r.npc, npc := t.getD r.npc + 4, slot := .none } := by
  refine ⟨_, _, loopEnd_spec q.pc 4 q (Nat.le_refl 4), by rw [loopEnd_frame], ?_⟩
  unfold Seq.next
  split
  · contradiction
  · rfl

theorem reached_iff {q : Seq} {k : Fin 4} : reached q k ↔ reachedBelow q q.pc 4 k :=
  ⟨fun h => ⟨k.isLt, h.1, fun j hkj _ => h.2 j hkj⟩, fun h => ⟨h.2.1, fun j hkj => h.2.2 j hkj j.isLt⟩⟩

/-! ### LOOP and LBRK (R295, R298) -/

/-- A word has issued with the sequencer as `q`, and changed no register, memory or unit. -/
structure SeqBecame (s t : State) (q : Seq) : Prop where
  kept : KeptRegs s t ∧ t.mem = s.mem ∧ t.disp = s.disp ∧ SameBytes s t ∧ SameUnits (me s) (me t)
  seq : (me t).seq = q

theorem seqBecame_of {s t : State} {q : Seq} (frame : Elsewhere s.sched.cur s t) (mem : t.mem = s.mem) (disp : t.disp = s.disp)
    (units : SameUnits (me s) (t.cell s.sched.cur)) (seq : (t.cell s.sched.cur).seq = q) (regs : q.g = (me s).seq.g)
    (preds : q.p = (me s).seq.p) (log : q.log = (me s).seq.log) : SeqBecame s t q := by
  have cell := me_of frame rfl
  have bytes : SameBytes s t := sameBytes_of s.sched.cur mem frame.cells (by rw [units]; rfl)
  rw [← cell] at units seq
  exact ⟨⟨⟨seq ▸ regs, seq ▸ preds, seq ▸ log⟩, mem, disp, bytes, units⟩, seq⟩

/-- A transfer that is taken after a change of the loops alone. -/
theorem seqBecame_take {s u : State} {q : Seq} {a : VAddr} (frame : Elsewhere s.sched.cur s u) (mem : u.mem = s.mem)
    (disp : u.disp = s.disp) (units : SameUnits (me s) (u.cell s.sched.cur)) (seq : (u.cell s.sched.cur).seq = q)
    (regs : q.g = (me s).seq.g) (preds : q.p = (me s).seq.p) (log : q.log = (me s).seq.log) :
    SeqBecame s (u.take s.sched.cur a) (q.taken a) := by
  have cell := take_cell u s.sched.cur a
  refine seqBecame_of (elsewhere_trans frame (take_else ..)) mem disp ?_ (by rw [cell, seq]) regs preds log
  rw [SameUnits, cell, units]

/-- A transfer that is not taken after a change of the loops alone. -/
theorem seqBecame_fall {s u : State} {q : Seq} (frame : Elsewhere s.sched.cur s u) (mem : u.mem = s.mem)
    (disp : u.disp = s.disp) (units : SameUnits (me s) (u.cell s.sched.cur)) (seq : (u.cell s.sched.cur).seq = q)
    (regs : q.g = (me s).seq.g) (preds : q.p = (me s).seq.p) (log : q.log = (me s).seq.log) :
    SeqBecame s (u.fall s.sched.cur) q.untaken.1 := by
  obtain ⟨fallen, mem', disp', cell⟩ := fall_spec u s.sched.cur
  refine seqBecame_of (elsewhere_trans frame fallen) (mem'.trans mem) (disp'.trans disp) ?_ (by rw [cell, seq])
    (by rw [untaken_frame]; exact regs) (by rw [untaken_frame]; exact preds) (by rw [untaken_frame]; exact log)
  rw [SameUnits, cell, units]

/-- R295: the sequencer with level `k` as LOOP loads it for a count of `n`. -/
def looped (q : Seq) (x : LoopArgs) (n : Word) : Seq :=
  { q with loops := q.loops.set x.k.val { lb := q.pc + 8, le := q.pc + x.last.setWidth 48 * 4, lc := n },
           lact := if n = 0 then q.lact else setBit q.lact x.k.val true }

theorem loop_spec {x : LoopArgs} {s : State} (ready : Ready s (.loop x) x.g [x.d]) :
    let q := (me s).seq
    let n := (me s).gval x.d
    (q.lact.toNat < 2 ^ x.k.val → n ≠ 0 → ∃ t, exec (.loop x) s = .next t ∧ SeqBecame s t (looped q x n).untaken.1) ∧
    (q.lact.toNat < 2 ^ x.k.val → n = 0 → ∃ t, exec (.loop x) s = .next t ∧
      SeqBecame s t ((looped q x n).taken (q.pc + x.last.setWidth 48 * 4 + 4))) ∧
    (2 ^ x.k.val ≤ q.lact.toNat → exec (.loop x) s = .next (s.raise s.sched.cur (.loop x) cLoopNest 0)) := by
  intro q n
  have run := exec_ready (execLoop x s) rfl rfl ready
  let u := s.modCell s.sched.cur fun y => { y with seq := looped y.seq x n }
  have traced := traceOnly_outcome u s.sched.cur (n ≠ 0)
  have frame := elsewhere_trans (elsewhere_modCell s s.sched.cur _) traced.elsewhere
  have cell : (u.outcome s.sched.cur (n ≠ 0)).cell s.sched.cur = _ := traced.cell.trans (by rw [cell_modCell])
  have units : SameUnits (me s) ((u.outcome s.sched.cur (n ≠ 0)).cell s.sched.cur) := by rw [SameUnits, cell]; rfl
  have seq : ((u.outcome s.sched.cur (n ≠ 0)).cell s.sched.cur).seq = looped q x n := by rw [cell]; rfl
  have free (h : q.lact.toNat < 2 ^ x.k.val) : ¬q.lact.toNat / 2 ^ x.k.val ≠ 0 := not_not.2 (Nat.div_eq_of_lt h)
  refine ⟨fun level more => ⟨_, ?_, seqBecame_fall frame traced.mem traced.disp units seq rfl rfl rfl⟩,
    fun level none_ => ⟨_, ?_, seqBecame_take frame traced.mem traced.disp units seq rfl rfl rfl⟩, fun open_ => ?_⟩
  · rw [run]
    exact congrArg _ ((if_neg (free level)).trans (if_neg more))
  · rw [run]
    exact congrArg _ ((if_neg (free level)).trans (if_pos none_))
  · rw [run]
    exact congrArg _ (if_pos (Nat.pos_iff_ne_zero.1 (Nat.div_pos open_ (Nat.two_pow_pos _))))

/-- R298: LBRK of an open level. -/
theorem lbrk_open {x : LevelArgs} {s : State} (ready : Ready s (.lbrk x) x.g []) (level : (me s).seq.lact.getLsbD x.k.val = true) :
    ∃ t, exec (.lbrk x) s = .next t ∧ SeqBecame s t { closeLoops (me s).seq x.k.val with
      pc := (me s).seq.loops[x.k.val].le + 4, npc := (me s).seq.loops[x.k.val].le + 4 + 4, slot := .none } := by
  have traced := traceOnly_guardBit s s.sched.cur x.g true
  refine ⟨_, (exec_ready (execLbrk x s) rfl rfl ready).trans (congrArg _ (if_pos level)), ?_⟩
  refine seqBecame_of (elsewhere_trans traced.elsewhere (elsewhere_modCell ..)) traced.mem traced.disp ?_ ?_ rfl rfl rfl
  · rw [SameUnits, cell_modCell, traced.cell]; rfl
  · rw [cell_modCell, traced.cell]; rfl

/-- R298: LBRK of a level that is not open. -/
theorem lbrk_closed {x : LevelArgs} {s : State} (ready : Ready s (.lbrk x) x.g [])
    (level : (me s).seq.lact.getLsbD x.k.val = false) : ∃ t, exec (.lbrk x) s = .next t ∧ Advanced s t ∧ KeptRegs s t :=
  ⟨_, (exec_ready (execLbrk x s) rfl rfl ready).trans (congrArg _ (if_neg (Bool.eq_false_iff.1 level))),
    advance_of_trace s _ (traceOnly_guardBit ..)⟩

/-- R258: a control transfer in a delay slot. -/
theorem issueAs_in_slot {s : State} {i : Instr} (transfer : i.isTransfer = true) (slot : (me s).seq.slot ≠ .none) (g : Guard)
    (srcs : List Reg) (eff : Nat → State → State) :
    s.issueAs i g srcs eff = .next (s.raise s.sched.cur i cBranchInSlot 0) :=
  congrArg _ (if_pos (by rw [transfer, Bool.true_and, bne_iff_ne]; exact slot))

/-- Settles O20: the loop-end step is `loopEnd_spec`; LOOP and LBRK are described by the lemmas above. -/
theorem loopsAndNextWord : Obligations.LoopsAndNextWord := by
  unfold Obligations.LoopsAndNextWord
  refine ⟨fun q => ⟨fun _ => next_plain q, next_in_taken_slot, untaken_plain, fun a => next_in_taken_slot (q := q.taken a) rfl⟩,
    ?ends, ?loop, by decide +kernel, fun x s => ⟨?inSlot, ?opened, lbrk_closed⟩⟩
  case ends =>
    intro q slot r
    obtain ⟨ended, t, spec, npc, next⟩ := next_loopEnd slot
    have word : r = _ := next
    rw [word]
    refine ⟨fun all => ?_, fun k => ⟨fun hit more => ?_, fun hit last => spec.closed k (reached_iff.1 hit) last,
      fun hit => spec.counted k (reached_iff.1 hit), fun miss => spec.kept k (mt reached_iff.2 miss)⟩⟩
    · rw [spec.onward fun k _ => all k, ← npc]
      exact ⟨rfl, rfl⟩
    · obtain ⟨target, stays⟩ := spec.again k (reached_iff.1 hit) more
      rw [target]
      exact ⟨rfl, rfl, stays⟩
  case loop =>
    intro x s ready q n last l kept
    obtain ⟨opens, skips, nests⟩ := loop_spec ready
    refine ⟨fun level more => ?_, fun level none_ => ?_, nests⟩
    · obtain ⟨t, run, became⟩ := opens level more
      refine ⟨t, run, became.kept, became.seq.trans ?_⟩
      rw [looped, if_neg more]
    · obtain ⟨t, run, became⟩ := skips level none_
      refine ⟨t, run, became.kept, became.seq.trans ?_⟩
      rw [looped, if_pos none_]
      rfl
  case inSlot => exact fun _ slot => (issueAs_in_slot rfl slot x.g [] _ : execLbrk x s = _)
  case opened =>
    intro ready level
    obtain ⟨t, run, ⟨regs, mem, disp, bytes, units⟩, seq⟩ := lbrk_open ready level
    refine ⟨t, run, congrArg Seq.pc seq, (congrArg Seq.npc seq).trans (BitVec.add_assoc ..), congrArg Seq.slot seq, fun j => ?_,
      fun j => ?_, regs, mem, disp, bytes, units⟩
    · rw [seq]; exact closeLoops_lact _ x.k j
    · simp only [seq]; exact closeLoops_loops _ x.k j

/-! ### The end of an issue cycle for the operand log (R273, R290) -/

/-- R290: results that have landed with no trapped flag leave nothing due. -/
theorem closeFp_untrapped {x : CellSt} (h : x.fpLanded.foldl (fun f e => f ||| e.flags) 0 &&& x.seq.fp.enable = 0) :
    x.closeFp = { x with fpLanded := [] } := by
  unfold CellSt.closeFp
  dsimp only
  split
  · rename_i none_; rw [← none_]
  · rw [if_pos h]

/-- R290: a result that lands is noted among the floating-point ones of its cycle, or not at all. -/
theorem landFp_spec (x : CellSt) (e : LogEntry) : ∃ l : List ArithDue, x.landFp e = { x with fpLanded := x.fpLanded ++ l } ∧
    ∀ enable : Flags, e.flags &&& enable = 0 → l.foldl (fun f e => f ||| e.flags) 0 &&& enable = 0 := by
  have unnoted : ∃ l : List ArithDue, x = { x with fpLanded := x.fpLanded ++ l } ∧
      ∀ enable : Flags, e.flags &&& enable = 0 → l.foldl (fun f e => f ||| e.flags) 0 &&& enable = 0 :=
    ⟨[], by rw [List.append_nil], fun _ _ => BitVec.zero_and⟩
  unfold CellSt.landFp
  split
  · split
    · refine ⟨[⟨e.flags, e.pcw, e.word⟩], rfl, fun enable h => ?_⟩
      show (0 ||| e.flags) &&& enable = 0
      rwa [show (0 : Flags) ||| e.flags = e.flags from BitVec.zero_or]
    · exact unnoted
  · exact unnoted

/-- R76: the destination of an entry that names a general register. -/
theorem setDest_destG (x : CellSt) (d : Reg) (v : Word) : x.setDest (destG d) v = x.setG d v := by
  have num : (destG d).toNat = d.val := toNat_ofNat_of_lt (by omega)
  rw [CellSt.setDest, num, if_pos d.isLt]
  congr 1
  exact Fin.ext (Nat.mod_eq_of_lt d.isLt)

/-- R42: what a cell with one entry in its log may be, for its entry to land without a fault. -/
structure LandsAlone (x : CellSt) (e : LogEntry) : Prop where
  log : x.seq.log = [e]
  phase : e.phase = none
  fault : e.fault = 0
  wrote : x.wrote = []
  landed : x.fpLanded = []
  disarmed : x.seq.errinj.arm = false
  untrapped : e.flags &&& x.seq.fp.enable = 0

/-- R273: the last cycle of an entry: its result lands in its register, its flags in STICKY. -/
theorem tickLog_lands {x : CellSt} {e : LogEntry} {d : Reg} (alone : LandsAlone x e) (due : e.remain = 1)
    (dest : e.dest = destG d) : x.tickLog = { x.setG d e.val with
      seq := { (x.setG d e.val).seq with log := [], fp := { x.seq.fp with sticky := x.seq.fp.sticky ||| e.flags } } } := by
  have same : (x.setG d e.val).wrote = [] ∧ (x.setG d e.val).fpLanded = [] ∧ (x.setG d e.val).seq.fp = x.seq.fp := by
    unfold CellSt.setG
    split
    · exact ⟨alone.wrote, alone.landed, rfl⟩
    · exact ⟨alone.wrote, alone.landed, rfl⟩
  obtain ⟨wrote, landed, fp⟩ := same
  let y := x.setG d e.val
  let z : CellSt := { y with seq := { y.seq with fp := { y.seq.fp with sticky := y.seq.fp.sticky ||| e.flags } } }
  obtain ⟨l, lands, untrapped⟩ := landFp_spec z e
  have idle : ∀ cls, x.injects cls = false := fun cls => by simp [CellSt.injects, alone.disarmed]
  have entry : x.landEntry e = (z.landFp e, []) := by
    simp only [CellSt.landEntry, alone.fault, ne_eq, not_true, if_false, idle, Bool.false_eq_true, and_false, alone.wrote,
      List.contains_nil, dest, setDest_destG]
    rfl
  have ticked : x.tickFrom x.seq.log = (z.landFp e, []) := by
    rw [alone.log]
    simp only [CellSt.tickFrom, due, Nat.one_ne_zero, alone.phase, ne_eq, not_true, or_self, if_false, if_true, entry,
      List.append_nil]
  have quiet : (z.fpLanded ++ l).foldl (fun f e => f ||| e.flags) 0 &&& z.seq.fp.enable = 0 := by
    show ((x.setG d e.val).fpLanded ++ l).foldl _ 0 &&& (x.setG d e.val).seq.fp.enable = 0
    rw [landed, fp, List.nil_append]
    exact untrapped _ alone.untrapped
  rw [CellSt.tickLog, ticked, lands]
  refine (closeFp_untrapped (x := { z with fpLanded := _, seq := { z.seq with log := [] }, wrote := [] }) quiet).trans ?_
  rw [← wrote, ← landed, ← fp]

/-- R273: an entry with cycles left counts down. -/
theorem tickLog_counts {x : CellSt} {e : LogEntry} (alone : LandsAlone x e) (left : 1 < e.remain) :
    x.tickLog = { x with seq := { x.seq with log := [{ e with remain := e.remain - 1 }] } } := by
  have ticked : x.tickFrom x.seq.log = (x, [{ e with remain := e.remain - 1 }]) := by
    have more : e.remain ≠ 0 ∧ e.remain ≠ 1 := by omega
    rw [alone.log]
    simp only [CellSt.tickFrom, more, alone.phase, ne_eq, not_true, or_self, if_false]
  have quiet : x.fpLanded.foldl (fun f e => f ||| e.flags) 0 &&& x.seq.fp.enable = 0 := by
    rw [alone.landed]
    exact BitVec.zero_and
  rw [CellSt.tickLog, ticked]
  refine (closeFp_untrapped (x := { x with seq := { x.seq with log := [_] }, wrote := [] }) quiet).trans ?_
  rw [← alone.landed, ← alone.wrote]

theorem operandLogLanding_issued {c : Nat} {s : State} (h : (s.cell c).issued = true) :
    exec (.operandLogLanding c) s = .next (s.modCell c fun x => { x.tickLog with issued := false }) :=
  congrArg Host.Outcome.next (if_pos h)

/-- R42, R273, R290: the one entry of a log lands in its register. -/
theorem operandLogLanding_lands {c : Nat} {s : State} {e : LogEntry} {d : Reg} (issued : (s.cell c).issued = true)
    (alone : LandsAlone (s.cell c) e) (due : e.remain = 1) (reg : d.val ≠ 0) (dest : e.dest = destG d) :
    ∃ t, exec (.operandLogLanding c) s = .next t ∧ (t.cell c).gval d = e.val ∧
      (∀ r, r ≠ d → (t.cell c).greg r = (s.cell c).greg r) ∧ (t.cell c).seq.log = [] ∧
      (t.cell c).seq.fp = { (s.cell c).seq.fp with sticky := (s.cell c).seq.fp.sticky ||| e.flags } ∧
      (t.cell c).issued = false ∧ (∀ n, n ≠ c → t.cell n = s.cell n) ∧ t.mem = s.mem := by
  let t := s.modCell c fun x => { x.tickLog with issued := false }
  have cell : t.cell c = _ := (cell_modCell s c _).trans (by rw [tickLog_lands alone due dest])
  have greg : ∀ r, (t.cell c).greg r = ((s.cell c).setG d e.val).greg r := fun r => by rw [cell]; rfl
  refine ⟨t, operandLogLanding_issued issued, ?_, fun r hr => ?_, congrArg (·.seq.log) cell, congrArg (·.seq.fp) cell,
    congrArg (·.issued) cell, fun n hn => cell_modCell_ne s _ hn, rfl⟩
  · rw [CellSt.gval, greg, greg_setG, if_pos ⟨rfl, reg⟩]; rfl
  · rw [greg, greg_setG, if_neg fun h => hr h.1]

theorem answered_of {c id : Nat} {s : State} {r : Req} (frozen : (s.cell c).freeze = .mem id) (req : s.req id = some r)
    (done : r.stage = .done ∨ ∃ f, r.stage = .failed f) : s.answered c = true := by
  simp only [State.answered, frozen, req]
  obtain h | ⟨f, h⟩ := done
  · rw [h]; rfl
  · rw [h]; rfl

/-- Settles O49: one entry of the log by its cycles left; a sequencer whose freeze may end takes its word up again. -/
theorem sequencerEvents : Obligations.SequencerEvents := by
  unfold Obligations.SequencerEvents
  intro c s x again
  refine ⟨fun e issued log phase fault wrote landed disarmed untrapped => ?_, fun h => ?_, fun id r frozen req done => ?_,
    fun h => ?_⟩
  · have alone : LandsAlone x e := ⟨log, phase, fault, wrote, landed, disarmed, untrapped⟩
    refine ⟨fun due d reg dest => operandLogLanding_lands issued alone due reg dest,
      fun left => ⟨_, operandLogLanding_issued issued, ?_, rfl⟩⟩
    rw [cell_modCell]
    exact congrArg CellSt.seq (tickLog_counts alone left)
  · exact congrArg Host.Outcome.next (if_pos (by rw [show (s.cell c).freeze = .bank from h]; rfl))
  · exact congrArg Host.Outcome.next (if_pos (answered_of frozen req done))
  · exact congrArg Host.Outcome.next (if_pos (by rw [show (s.cell c).freeze = .wait from h]; rfl))

end Sys2Proof.Proofs
end

section
/-! PROOFS. The instructions that load, start, await and stop a region. -/

namespace Sys2Proof.Proofs

open Sys2Proof Sys2Proof.Machine Sys2Proof.Safety Sys2Proof.Laws

/-! ### A wait (R40, R84) -/

/-- R40, R84, R193: what a wait leaves: the cell may yield, which touches no more of it than its stop. -/
structure Waits (s t : State) (c : Nat) (hold : List Word) : Prop where
  cell : t.cell c = { s.cell c with freeze := .wait, hold := hold, stop := (t.cell c).stop, restart := (t.cell c).restart }
  others : ∀ n, n ≠ c → t.cell n = s.cell n
  mem : t.mem = s.mem
  sched : t.sched = s.sched

theorem waitAt_spec (s : State) (c : Nat) (hold : List Word) : Waits s (s.waitAt c hold) c hold := by
  let frozen := s.modCell c fun x => { x with freeze := .wait, hold := hold }
  have cell : frozen.cell c = { s.cell c with freeze := .wait, hold := hold } := cell_modCell s c _
  have others : ∀ n, n ≠ c → frozen.cell n = s.cell n := fun n hn => cell_modCell_ne s _ hn
  have stays : ∀ d, Waits s { frozen with disp := d } c hold := fun d => ⟨by
    show frozen.cell c = { s.cell c with freeze := .wait, hold := hold, stop := (frozen.cell c).stop,
                                         restart := (frozen.cell c).restart }
    rw [cell], others, rfl, rfl⟩
  have yields : Waits s ((frozen.yieldAt c false).leaveLists c) c hold := by
    refine ⟨?_, fun n hn => ?_, rfl, rfl⟩
    · show (frozen.yieldAt c false).cell c = { s.cell c with
        freeze := .wait, hold := hold, stop := ((frozen.yieldAt c false).cell c).stop,
        restart := ((frozen.yieldAt c false).cell c).restart }
      rw [State.yieldAt, cell_modCell, State.stopCell, cell_modCell, cell]
    · show (frozen.yieldAt c false).cell n = _
      rw [State.yieldAt, cell_modCell_ne _ _ hn, cell_stopCell_ne _ _ hn, others n hn]
  unfold State.waitAt
  dsimp only
  split
  · split
    · exact yields
    · exact stays _
  · split
    · exact stays _
    · exact stays _

/-- The issuing cell in a wait. -/
theorem me_waitAt (s : State) (hold : List Word) :
    let t := s.waitAt s.sched.cur hold
    (me t).freeze = .wait ∧ (me t).seq = (me s).seq ∧ t.mem = s.mem ∧ (me t).region = (me s).region ∧ (me t).pe = (me s).pe := by
  intro t
  have waits := waitAt_spec s s.sched.cur hold
  have cell : me t = t.cell s.sched.cur := congrArg (fun h : Sched => t.cell h.cur) waits.sched
  rw [cell, waits.cell]
  exact ⟨rfl, rfl, waits.mem, rfl, rfl⟩

/-- A word that has changed no register, and issues. -/
theorem advance_left {s u : State} (frame : Elsewhere s.sched.cur s u) (seq : (u.cell s.sched.cur).seq = (me s).seq) :
    Left s (u.advance s.sched.cur) (u.cell s.sched.cur) := by
  have whole := elsewhere_trans frame (advance_elsewhere u s.sched.cur)
  have cell := (me_of whole rfl).trans (advance_cell u s.sched.cur)
  refine ⟨⟨whole, ?seq, ?thawed⟩, ⟨?regs, ?preds, ?log⟩, ?units⟩
  case seq => rw [cell, seq]
  case thawed => rw [cell]
  case regs => rw [cell, next_g, seq]
  case preds => rw [cell, next_p, seq]
  case log => rw [cell, next_log, seq]
  case units => rw [SameUnits, cell]

/-! ### CFG (R19 to R22, R320, R321) -/

theorem cfgBusy_iff {x : CellSt} {k : Fin 4} {b : BitVec 4} : x.cfgBusy k b = true ↔
    ∃ j : Fin 4, (x.region[j.val]).state = .running ∧ (j = k ∨ (x.region[j.val]).peset &&& b ≠ 0) := by
  simp [CellSt.cfgBusy, List.any_eq_true]

/-- R19: the sets that are no set of a region. -/
theorem peSetOk_iff (b : BitVec 4) : peSetOk b = true ↔ b.toNat ∉ [0, 6, 7, 9, 11, 13, 14] := by
  revert b
  decide

/-- R123: an address of path 0 within 48 bits, at a multiple of the size that is asked for. -/
theorem addrChecked_low {s : State} {c : Nat} {a : Word} (i : Instr) (n : Nat) (go : State) (small : a.toNat < 2 ^ 48)
    (aligned : a.toNat % n = 0) : s.addrChecked c i [0] a (alignedTo a n) go = go := by
  have path : pathOf a = 0 := by rw [pathOf, wbits_toNat]; omega
  have high : wbits a 59 48 = 0 := by rw [wbits_toNat]; omega
  have ok : (s.cell c).addrOk [0] a = true := by simp [CellSt.addrOk, legalAddr, path, high]
  have even : alignedTo a n = true := by simpa [alignedTo] using aligned
  simp [State.addrChecked, ok, even]

/-- R321: the sections read are those of the PEs of the set. -/
theorem readSections_pes {die : Nat} {asid : BitVec 16} {va head : Nat} : ∀ {l : List (Fin 4)} {s u : State}
    {secs : List (Fin 4 × Option Nat)}, s.readSections die asid va head l = (.ok secs, u) → secs.map (·.1) = l := by
  intro l
  induction l with
  | nil =>
    intro s u secs h
    cases h
    rfl
  | cons p t ih =>
    intro s u secs h
    simp only [State.readSections] at h
    split at h
    · cases h
    · split at h
      · cases h
      · rename_i rest
        cases h
        exact congrArg (p :: ·) (ih rest)

theorem readImage_pes {s u : State} {die : Nat} {asid : BitVec 16} {va h : Nat} {b : BitVec 4}
    {secs : List (Fin 4 × Option Nat)} (read : s.readImage die asid va b = (.ok (h, secs), u)) :
    secs.map (·.1) = peList b := by
  simp only [State.readImage] at read
  split at read
  · cases read
  · split at read
    · cases read
    · rename_i sections
      cases read
      exact readSections_pes sections

/-- R321: the images are those of the PEs whose sections were read. -/
theorem peImgs_pes {ii : Nat} {b : BitVec 4} : ∀ {secs : List (Fin 4 × Option Nat)} {l : List (Fin 4 × PeImg)},
    peImgs ii b secs = some l → l.map (·.1) = secs.map (·.1) := by
  intro secs
  induction secs with
  | nil =>
    intro l h
    cases h
    rfl
  | cons e t ih =>
    obtain ⟨p, sec⟩ := e
    intro l h
    simp only [peImgs, Option.bind_eq_bind, Option.bind_eq_some_iff] at h
    obtain ⟨n, -, i, -, r, rest, built⟩ := h
    cases built
    exact congrArg (p :: ·) (ih rest)

theorem imageOf_pes {b : BitVec 4} {h : Nat} {secs : List (Fin 4 × Option Nat)} {i : RegionImg}
    (image : imageOf b h secs = some i) : i.pes.map (·.1) = secs.map (·.1) := by
  simp only [imageOf] at image
  split at image
  · cases image
  · obtain ⟨l, pes, built⟩ := Option.map_eq_some_iff.1 image
    cases built
    exact peImgs_pes pes

theorem mem_peList {b : BitVec 4} {p : Fin 4} : p ∈ peList b ↔ b.getLsbD p.val = true := by simp [peList]

theorem peList_nodup (b : BitVec 4) : (peList b).Nodup := (List.nodup_finRange 4).filter _

/-- R321: a PE after CFG has given it its section. -/
def loadedPe (e : PE) (m : PeImg) : PE := { e with rows := m.rows, luts := m.luts, ff := m.ff, ac := m.ac }

/-- R321: each PE of an image takes its section, and nothing else of the cell changes. -/
theorem takePes_spec : ∀ (l : List (Fin 4 × PeImg)) (x : CellSt), (l.map (·.1)).Nodup →
    x.takePes true l = { x with pe := (x.takePes true l).pe } ∧
    (∀ p : Fin 4, p ∉ l.map (·.1) → (x.takePes true l).pe[p.val] = x.pe[p.val]) ∧
    ∀ (p : Fin 4) (m : PeImg), (p, m) ∈ l → (x.takePes true l).pe[p.val] = loadedPe x.pe[p.val] m := by
  intro l
  induction l with
  | nil => exact fun x _ => ⟨rfl, fun _ _ => rfl, fun p m h => absurd h (List.not_mem_nil)⟩
  | cons e t ih =>
    obtain ⟨q, i⟩ := e
    intro x distinct
    obtain ⟨fresh, rest⟩ := List.nodup_cons.1 distinct
    let y := x.setPe q (loadedPe x.pe[q.val] i)
    have step : x.takePes true ((q, i) :: t) = y.takePes true t := rfl
    have same : y.pe[q.val] = loadedPe x.pe[q.val] i := Vector.getElem_set_self _
    have other : ∀ p : Fin 4, p ≠ q → y.pe[p.val] = x.pe[p.val] := fun p hp =>
      Vector.getElem_set_ne q.isLt p.isLt fun h => hp (Fin.ext h.symm)
    obtain ⟨frame, kept, taken⟩ := ih y rest
    rw [step]
    refine ⟨by rw [frame]; rfl, fun p hp => ?_, fun p m hm => ?_⟩
    · obtain ⟨hpq, hpt⟩ := not_or.1 (mt List.mem_cons.2 hp)
      exact (kept p hpt).trans (other p hpq)
    · obtain h | h := List.mem_cons.1 hm
      · cases h
        exact (kept q fresh).trans same
      · have hpt : p ∈ t.map (·.1) := List.mem_map_of_mem (f := Prod.fst) h
        exact (taken p m h).trans (by rw [other p fun e => fresh (e ▸ hpt)])

/-- R321: what CFG makes of a cell. -/
theorem configure_spec {x : CellSt} {k : Fin 4} {b : BitVec 4} {va : VAddr} {i : RegionImg} (pes : i.pes.map (·.1) = peList b) :
    let y := x.configure k b va i
    y = { x with region := y.region, pe := y.pe } ∧
    y.region[k.val] = { x.region[k.val] with
      conf := true, peset := b, s := BitVec.ofNat 7 i.s, ii := BitVec.ofNat 6 i.ii, ten := i.ten, ftz := i.ftz,
      rimg := va, cause := 0, cut := false, state := .ready, pool := i.pool } ∧
    (∀ j : Fin 4, j ≠ k → y.region[j.val] =
      if (x.region[j.val]).conf = true ∧ (x.region[j.val]).peset &&& b ≠ 0
      then { x.region[j.val] with conf := false, state := .empty } else x.region[j.val]) ∧
    ∀ p : Fin 4, (b.getLsbD p.val = false → y.pe[p.val] = x.pe[p.val]) ∧
      ∀ m, (p, m) ∈ i.pes → y.pe[p.val] = loadedPe x.pe[p.val] m := by
  intro y
  obtain ⟨frame, kept, taken⟩ := takePes_spec i.pes _ (pes ▸ peList_nodup b)
  have region : y.region = _ := congrArg CellSt.region frame
  refine ⟨?_, ?_, fun j hj => ?_, fun p => ⟨fun out => kept p ?_, fun m hm => taken p m hm⟩⟩
  · refine frame.trans ?_
    rw [region]
    rfl
  · rw [region]
    exact Vector.getElem_set_self _
  · rw [region]
    refine (Vector.getElem_set_ne k.isLt j.isLt fun h => hj (Fin.ext h.symm)).trans ?_
    simp [CellSt.dropOverlap, hj, Region.emptied]
  · rw [pes, mem_peList, out]
    decide

/-- R321: CFG of a set that a region may have, by what its image is read as. -/
theorem cfg_reads {x : CfgArgs} {s u : State} {h : Nat} {secs : List (Fin 4 × Option Nat)} (ready : Ready s (.cfg x) x.g [x.a])
    (free : (me s).cfgBusy x.k x.peset = false) (set_ : peSetOk x.peset = true) (small : ((me s).gval x.a).toNat < 2 ^ 48)
    (aligned : ((me s).gval x.a).toNat % 64 = 0)
    (read : s.readImage (s.sched.cur / 1600) (me s).seq.id.asid ((me s).gval x.a).toNat x.peset = (.ok (h, secs), u)) :
    exec (.cfg x) s = .next (match imageOf x.peset h secs with
      | none => (u.modCell s.sched.cur fun z => z.setRegion x.k (z.region[x.k.val]).emptied).raise s.sched.cur (.cfg x) cCtxBad 0
      | some i => (u.modCell s.sched.cur fun z =>
          z.configure x.k x.peset (((me s).gval x.a).setWidth 48) i).advance s.sched.cur) := by
  have va : wbits ((me s).gval x.a) 47 0 = ((me s).gval x.a).toNat := by
    rw [wbits_toNat, Nat.pow_zero, Nat.div_one]
    exact Nat.mod_eq_of_lt small
  have run := exec_ready (execCfg x s) rfl rfl ready
  refine run.trans (congrArg Host.Outcome.next ?_)
  show (if (me s).cfgBusy x.k x.peset then _ else if !peSetOk x.peset then _ else
    s.addrChecked _ _ _ ((me s).gval x.a) (alignedTo ((me s).gval x.a) 64) _) = _
  rw [free, set_, addrChecked_low _ _ _ small aligned]
  show (match s.readImage _ (me s).seq.id.asid (wbits ((me s).gval x.a) 47 0) x.peset with
    | (.error .wait, s) => _ | (.error (.fail f v), s) => _ | (.ok (h, secs), s) => _) = _
  rw [va, read]
  rfl

/-- Settles O35: CFG waits, loses its slot or is loaded, as its set and image are. -/
theorem regionConfigure : Obligations.RegionConfigure := by
  unfold Obligations.RegionConfigure
  intro x s ready c a emptied busy
  have run := exec_ready (execCfg x s) rfl rfl ready
  have free (h : ¬busy) : (me s).cfgBusy x.k x.peset = false := Bool.eq_false_iff.2 (mt cfgBusy_iff.1 h)
  refine ⟨fun h => ⟨_, run.trans (congrArg _ (if_pos (cfgBusy_iff.2 h))), me_waitAt s []⟩, fun h shape => ?_, ?_⟩
  · have bad : (!peSetOk x.peset) = true := by
      rw [Bool.not_eq_true', Bool.eq_false_iff]
      exact fun ok => (peSetOk_iff _).1 ok shape
    exact run.trans (congrArg _ ((if_neg (Bool.eq_false_iff.1 (free h))).trans (if_pos bad)))
  · intro h shape small aligned hd secs u read same
    have result := cfg_reads ready (free h) ((peSetOk_iff _).2 shape) small aligned read
    refine ⟨fun none_ => by rw [result, none_]; rfl, fun i image => ?_⟩
    rw [image] at result
    have pes : i.pes.map (·.1) = peList x.peset := (imageOf_pes image).trans (readImage_pes read)
    obtain ⟨frame, slot, others, loaded⟩ := configure_spec (x := me s) (k := x.k) (va := a.setWidth 48) pes
    let v := u.modCell c fun z => z.configure x.k x.peset (a.setWidth 48) i
    have cell : v.cell c = (me s).configure x.k x.peset (a.setWidth 48) i := by rw [cell_modCell, same]
    have after := advance_cell v c
    rw [cell] at after
    refine ⟨v.advance c, result, ?_, congrArg (·.freeze) after, ?_, advance_mem v c, ?_, fun j hj => ?_, fun p => ?_⟩
    · rw [after, frame]
    · rw [after, frame]
    · rw [after]; exact slot
    · rw [after]; exact others j hj
    · rw [after]; exact loaded p

/-! ### LAUNCH and LAUNCH.PH (R21, R322) -/

/-- A word that changes neither memory nor a register, and of its cell what `x` says, and issues. -/
theorem advance_unit {s u : State} (frame : Elsewhere s.sched.cur s u) (mem : u.mem = s.mem) (disp : u.disp = s.disp)
    (seq : (u.cell s.sched.cur).seq = (me s).seq) (spad : (u.cell s.sched.cur).spad = (me s).spad) :
    let t := u.advance s.sched.cur
    Issued s t ∧ KeptRegs s t ∧ t.mem = s.mem ∧ t.disp = s.disp ∧ SameBytes s t ∧ SameUnits (u.cell s.sched.cur) (me t) := by
  intro t
  have left := advance_left frame seq
  have mem' : t.mem = s.mem := (advance_mem u _).trans mem
  refine ⟨left.toIssued, left.kept, mem', (advance_disp u _).trans disp, ?_, left.units⟩
  refine sameBytes_of s.sched.cur mem' left.elsewhere.cells ?_
  rw [advance_cell]
  exact spad

/-- R322: the PEs of a launched region are cleared, and nothing else of the cell changes. -/
theorem clearPes_spec : ∀ (l : List (Fin 4)) (x : CellSt),
    x.clearPes l = { x with pe := (x.clearPes l).pe } ∧
    ∀ p : Fin 4, (x.clearPes l).pe[p.val] = if p ∈ l then { x.pe[p.val] with slots := [], bus := {} } else x.pe[p.val] := by
  intro l
  induction l with
  | nil => exact fun x => ⟨rfl, fun p => rfl⟩
  | cons q t ih =>
    intro x
    let y := x.setPe q { x.pe[q.val] with slots := [], bus := {} }
    obtain ⟨frame, pes⟩ := ih y
    have step : x.clearPes (q :: t) = y.clearPes t := rfl
    rw [step]
    refine ⟨by rw [frame]; rfl, fun p => ?_⟩
    rw [pes p]
    by_cases hpq : p = q
    · subst hpq
      have same : y.pe[p.val] = { x.pe[p.val] with slots := [], bus := {} } := Vector.getElem_set_self _
      rw [same, if_pos (List.mem_cons_self)]
      split <;> rfl
    · have other : y.pe[p.val] = x.pe[p.val] := Vector.getElem_set_ne q.isLt p.isLt fun h => hpq (Fin.ext h.symm)
      simp only [other, List.mem_cons, hpq, false_or]

/-- R322: what a launch makes of a cell. -/
theorem launch_spec (x : CellSt) (k : Fin 4) (n : Word) (ph : Option (BitVec 16)) :
    let y := x.launch k n ph
    let r := x.region[k.val]
    y = { x with region := y.region, pe := y.pe } ∧
    y.region[k.val] = { r with
      rn := n.setWidth 48, rc := 0, rb := 0, sink := 0, ffl := none, ph := ph, state := .running, cause := 0, cut := false,
      stopRc := none, launchPc := x.seq.pc, delay := 1, relAt := none } ∧
    (∀ j : Fin 4, j ≠ k → y.region[j.val] = x.region[j.val]) ∧
    ∀ p : Fin 4, y.pe[p.val] = if r.peset.getLsbD p.val = true then { x.pe[p.val] with slots := [], bus := {} } else x.pe[p.val] := by
  intro y r
  obtain ⟨frame, pes⟩ := clearPes_spec (peList r.peset) (x.setRegion k { r with
    rn := n.setWidth 48, rc := 0, rb := 0, sink := 0, ffl := none, ph := ph, state := .running, cause := 0, cut := false,
    stopRc := none, launchPc := x.seq.pc, delay := 1, relAt := none })
  have region : y.region = _ := congrArg CellSt.region frame
  refine ⟨frame.trans (by rw [region]; rfl), ?_, fun j hj => ?_, fun p => ?_⟩
  · rw [region]
    exact Vector.getElem_set_self _
  · rw [region]
    exact Vector.getElem_set_ne k.isLt j.isLt fun h => hj (Fin.ext h.symm)
  · refine (pes p).trans ?_
    simp only [mem_peList]
    rfl

/-- R322: the sequencer may name a phaser, if it names one. -/
def owned (s : State) (b : Option Reg) : Prop :=
  ∀ q ∈ b, (s.fn (me s).seq.id.vfid.toNat).ownsPhaser (((me s).gval q).toNat % 65536) = true

/-- R322: LAUNCH and LAUNCH.PH by what they find. -/
theorem launchOp_spec {s : State} {i : Instr} {g : Guard} {a : Reg} {b : Option Reg} {k : Fin 4}
    (run : exec i s = launchOp i g a b k s) (ready : Ready s i g (a :: b.toList)) :
    let y := me s
    let n := y.gval a
    let r := y.region[k.val]
    (r.conf = false ∨ 2 ^ 48 ≤ n.toNat ∨ ¬owned s b → exec i s = .next (s.raise s.sched.cur i cIllOperand 0)) ∧
    (r.conf = true → n.toNat < 2 ^ 48 → owned s b → r.state = .running → exec i s = .next (s.waitAt s.sched.cur [])) ∧
    (r.conf = true → n.toNat < 2 ^ 48 → owned s b → r.state ≠ .running → ∃ u, TraceOnly s.sched.cur s u ∧
      exec i s = .next ((u.modCell s.sched.cur fun z => z.launch k n (b.map fun q => (y.gval q).setWidth 16)).advance
        s.sched.cur)) := by
  intro y n r
  have high : wbits n 63 48 = n.toNat / 2 ^ 48 := by
    rw [wbits_toNat]; exact Nat.mod_eq_of_lt (by omega)
  have foreign : (match b.map fun q => (y.gval q).setWidth 16 with
      | some (p : BitVec 16) => !(s.fn y.seq.id.vfid.toNat).ownsPhaser p.toNat
      | none => false) = true ↔ ¬owned s b := by
    cases b with
    | none => simp [owned]
    | some q => simp [owned, BitVec.toNat_setWidth, y]
  have refused : (!r.conf || wbits n 63 48 != 0 || (match b.map fun q => (y.gval q).setWidth 16 with
      | some (p : BitVec 16) => !(s.fn y.seq.id.vfid.toNat).ownsPhaser p.toNat
      | none => false)) = true ↔ r.conf = false ∨ 2 ^ 48 ≤ n.toNat ∨ ¬owned s b := by
    have wide : (wbits n 63 48 != 0) = true ↔ 2 ^ 48 ≤ n.toNat := by
      rw [bne_iff_ne, high]; omega
    rw [Bool.or_eq_true, Bool.or_eq_true, foreign, wide, Bool.not_eq_true', or_assoc]
  have accepts : r.conf = true → n.toNat < 2 ^ 48 → owned s b → ¬(r.conf = false ∨ 2 ^ 48 ≤ n.toNat ∨ ¬owned s b) := by
    rintro conf small own (h | h | h)
    · simp [conf] at h
    · omega
    · exact h own
  have effect := run.trans (issueAs_ready ready _)
  refine ⟨fun h => effect.trans (congrArg _ (if_pos (refused.2 h))), fun conf small own busy => effect.trans (congrArg _ ?_),
    fun conf small own idle => ⟨_, traceOnly_emit s s.sched.cur 0x6 (k.val + n.toNat % 2 ^ 43 * 4), effect.trans (congrArg _ ?_)⟩⟩
  · exact (if_neg (mt refused.1 (accepts conf small own))).trans (if_pos busy)
  · exact (if_neg (mt refused.1 (accepts conf small own))).trans (if_neg idle)

/-! ### LWAIT and LSTOP (R80, R81, R323, R324) -/

theorem lwait_running {x : SlotSrcArgs} {s : State} (ready : Ready s (.lwait x) x.g [])
    (busy : ((me s).region[x.k.val]).state = .running) : exec (.lwait x) s = .next (s.waitAt s.sched.cur []) :=
  (exec_ready (execLwait x s) rfl rfl ready).trans (congrArg _ (if_pos busy))

/-- R323: LWAIT of a slot that is not RUNNING writes its status, and takes the ARITH of its region. -/
theorem lwait_over {x : SlotSrcArgs} {s : State} (ready : Ready s (.lwait x) x.g [])
    (ended : ((me s).region[x.k.val]).state ≠ .running) :
    let r := (me s).region[x.k.val]
    let u := s.modCell s.sched.cur fun z => z.write1 x.a r.status
    exec (.lwait x) s = .next (if r.cause = cArith then
      u.raiseDone s.sched.cur (.lwait x) cArith true (BitVec.ofNat 2 x.k.val) r.arithInfo else u.advance s.sched.cur) :=
  (exec_ready (execLwait x s) rfl rfl ready).trans (congrArg _ (if_neg ended))

theorem trap_of_advanced {s t : State} (h : Issued s t) :
    (me t).seq.trap = (me s).seq.trap ∧ (me t).seq.intrap = (me s).seq.intrap ∧ (me t).seq.pc = (me s).seq.next.1.pc := by
  rw [h.seq, next_frame]
  exact ⟨rfl, rfl, rfl⟩

/-- R81: a trap after a register write that has completed. -/
theorem raiseDone_wrote {s u : State} {d : Reg} {v : Word} (wrote : Wrote s (u.advance s.sched.cur) d v)
    (sched : (u.advance s.sched.cur).sched = s.sched) (pc : (u.cell s.sched.cur).seq.pc = (me s).seq.pc)
    (handler : (me s).seq.trap.vec ≠ 0) (outside : (me s).seq.intrap = false) (i : Instr) (cause : Cause) (reg : Bool)
    (slot : BitVec 2) (info : Word) :
    let t := u.raiseDone s.sched.cur i cause reg slot info
    TookG s t d v ∧ (me t).seq.intrap = true ∧ (me t).seq.pc = (me s).seq.trap.vec ∧ (me t).seq.trap.cause = cause ∧
      (me t).seq.trap.reg = reg ∧ (me t).seq.trap.done = true ∧ (me t).seq.trap.slot = slot ∧
      (me t).seq.trap.pc = (me s).seq.pc ∧ (me t).seq.trap.npc = (me s).seq.next.1.pc ∧ SameBytes s t := by
  intro t
  obtain ⟨took, advanced⟩ := wrote
  generalize w_eq : u.advance s.sched.cur = w at took advanced sched
  have issuing : me w = w.cell s.sched.cur := congrArg (fun h : Sched => w.cell h.cur) sched
  obtain ⟨trap, intrap, next⟩ := trap_of_advanced advanced.toIssued
  rw [issuing] at trap intrap next
  have vectored : (w.cell s.sched.cur).vectored = true := by
    rw [CellSt.vectored, trap, intrap, outside]
    simpa using handler
  have entered : t = w.trapEntry s.sched.cur cause true reg slot info (me s).seq.pc (w.cell s.sched.cur).seq.pc := by
    show u.raiseDone _ _ _ _ _ _ = _
    unfold State.raiseDone
    dsimp only
    rw [w_eq, if_pos vectored, pc]
  obtain ⟨frame, mem, -, cell⟩ := trapEntry_spec w s.sched.cur cause true reg slot info (me s).seq.pc (w.cell s.sched.cur).seq.pc
  rw [← entered] at frame mem cell
  have after : me t = t.cell s.sched.cur := congrArg (fun h : Sched => t.cell h.cur) (frame.sched.trans sched)
  have greg : ∀ r, (me t).greg r = (me w).greg r := fun r => by rw [after, cell, issuing]; rfl
  refine ⟨⟨?_, fun r hr => (greg r).trans (took.others r hr), ?_, ?_⟩, ?_⟩
  · exact (congrArg GReg.data (greg d)).trans took.value
  · rw [after, cell, ← took.preds, issuing]
  · rw [after, cell, ← took.log, issuing]
  · have bytes : SameBytes s t := by
      refine sameBytes_of s.sched.cur (mem.trans advanced.mem) (elsewhere_trans advanced.elsewhere
        (by exact frame)).cells ?_
      rw [cell, ← issuing, advanced.units]
      rfl
    rw [after, cell]
    exact ⟨rfl, congrArg TrapRegs.vec trap, rfl, rfl, rfl, rfl, rfl, next, bytes⟩

theorem status_value (r : Region) (code : RState → Nat) (codes : ∀ st, code st = st.code) :
    r.status = BitVec.ofNat 64 (r.cause.toNat + code r.state * 256 + r.cut.toNat * 2048 + r.rc.toNat % 2 ^ 48 * 65536) := by
  rw [codes, Region.status]
  cases r.cut <;> rfl

/-- The first multiple of `ii` from `t` on. -/
theorem boundaryFrom_spec (t : Nat) {ii : Nat} (h : 0 < ii) :
    boundaryFrom t ii % ii = 0 ∧ t ≤ boundaryFrom t ii ∧ boundaryFrom t ii < t + ii := by
  have split := Nat.div_add_mod (t + ii - 1) ii
  have rest := Nat.mod_lt (t + ii - 1) h
  rw [boundaryFrom, Nat.mul_comm]
  refine ⟨Nat.mul_mod_right _ _, ?_, ?_⟩ <;> omega

/-- R324: LSTOP of a running region ends its issue at a boundary. -/
theorem lstop_spec {r : Region} (running : r.state = .running) (issues : r.rc.toNat < r.endAt) (some_ : r.ii ≠ 0) :
    let now := r.rc.toNat + (if r.delay = 0 then 1 else 0)
    ∃ n, r.lstop = { r with stopRc := some n } ∧ n ≤ r.endAt ∧
      (n = r.endAt ∨ n % r.ii.toNat = 0 ∧ now ≤ n ∧ n < now + r.ii.toNat) := by
  intro now
  have pos : 0 < r.ii.toNat := Nat.pos_of_ne_zero fun h => some_ (BitVec.eq_of_toNat_eq h)
  obtain ⟨even, from_, before⟩ := boundaryFrom_spec now pos
  refine ⟨min r.endAt (boundaryFrom now r.ii.toNat), if_pos ⟨running, issues⟩, Nat.min_le_left _ _, ?_⟩
  obtain h | h := Nat.le_total r.endAt (boundaryFrom now r.ii.toNat)
  · exact .inl (Nat.min_eq_left h)
  · rw [Nat.min_eq_right h]
    exact .inr ⟨even, from_, before⟩

/-- Settles O36: LAUNCH by what it finds of its slot, LWAIT by the state of its region, LSTOP by its issue. -/
theorem regionRuns : Obligations.RegionRuns := by
  unfold Obligations.RegionRuns
  refine ⟨?launch, ?lwait, ?lstop⟩
  case launch =>
    intro s i g k a b names ready y n r own
    have run : exec i s = launchOp i g a b k s := by
      obtain ⟨rfl, rfl⟩ | ⟨q, rfl, rfl⟩ := names
      · rfl
      · rfl
    obtain ⟨refuses, waits, starts⟩ := launchOp_spec run ready
    refine ⟨refuses, fun conf small mine busy => ?_, fun conf small mine idle => ?_⟩
    · obtain ⟨freeze, seq, mem, region, -⟩ := me_waitAt s []
      exact ⟨_, waits conf small mine busy, freeze, region, seq, mem⟩
    · obtain ⟨u, traced, runs⟩ := starts conf small mine idle
      let v := u.modCell s.sched.cur fun z => z.launch k n (b.map fun q => (y.gval q).setWidth 16)
      have traceRow : u.cell s.sched.cur = { me s with trace := (u.cell s.sched.cur).trace, events := (u.cell s.sched.cur).events } :=
        traced.cell
      obtain ⟨frame, slot, others, pes⟩ := launch_spec (u.cell s.sched.cur) k n (b.map fun q => (y.gval q).setWidth 16)
      have cell : v.cell s.sched.cur = _ := (cell_modCell u s.sched.cur _).trans frame
      obtain ⟨issued, kept, mem, disp, bytes, units⟩ := advance_unit (s := s) (u := v)
        (elsewhere_trans traced.elsewhere (elsewhere_modCell ..)) traced.mem traced.disp (by rw [cell, traceRow])
        (by rw [cell, traceRow])
      refine ⟨_, runs, issued, kept, mem, disp, bytes, ?_, fun j hj => ?_, fun p => ?_⟩
      · rw [units, cell]
        refine slot.trans ?_
        rw [traceRow]
      · rw [units, cell]
        refine (others j hj).trans ?_
        rw [traceRow]
      · rw [units, cell]
        refine (pes p).trans ?_
        rw [traceRow]
  case lwait =>
    intro x s ready r code v
    have value : r.status = v := status_value r code fun st => by cases st <;> rfl
    clear_value v
    subst value
    have wrote := write1_wrote s x.a fun _ => r.status
    refine ⟨fun busy => ?_, fun ended calm _ => ?_, fun ended arith _ handler outside => ?_⟩
    · obtain ⟨freeze, seq, mem, -, -⟩ := me_waitAt s []
      exact ⟨_, lwait_running ready busy, freeze, seq, mem⟩
    · exact ⟨_, (lwait_over ready ended).trans (congrArg _ (if_neg calm)), wrote⟩
    · refine ⟨_, (lwait_over ready ended).trans (congrArg _ (if_pos arith)), ?_⟩
      refine raiseDone_wrote wrote wrote.2.elsewhere.sched ?_ handler outside _ _ _ _ _
      rw [cell_modCell]
      unfold CellSt.write1 CellSt.setG
      split <;> rfl
  case lstop =>
    intro x s ready r now
    let v := s.modCell s.sched.cur fun z => z.setRegion x.k (z.region[x.k.val]).lstop
    have cell : v.cell s.sched.cur = (me s).setRegion x.k r.lstop := cell_modCell ..
    obtain ⟨issued, kept, mem, disp, bytes, units⟩ := advance_unit (s := s) (u := v) (elsewhere_modCell ..) rfl rfl
      (by rw [cell]; rfl) (by rw [cell]; rfl)
    have slot : (me (v.advance s.sched.cur)).region[x.k.val] = r.lstop := by
      rw [units, cell]
      exact Vector.getElem_set_self _
    refine ⟨_, exec_ready (execLstop x s) rfl rfl ready, issued, kept, mem, disp, bytes, ?_, fun j hj => ?_, fun ended => ?_,
      fun running issues some_ => ?_⟩
    · rw [units, cell]; rfl
    · rw [units, cell]
      exact Vector.getElem_set_ne x.k.isLt j.isLt fun h => hj (Fin.ext h.symm)
    · refine slot.trans (if_neg ?_)
      rintro ⟨running, issues⟩
      obtain h | h := ended
      · exact h running
      · omega
    · obtain ⟨n, stops, bound⟩ := lstop_spec running issues some_
      exact ⟨n, slot.trans stops, bound⟩

end Sys2Proof.Proofs
end

section
/-! PROOFS. The rows of a region: the checks of a firing, and what integer, memory and array rows put into landing slots. -/

namespace Sys2Proof.Proofs

open Sys2Proof Sys2Proof.Machine Sys2Proof.Safety Sys2Proof.Laws

/-! ### What a step of a firing changes (R23, R387) -/

/-- The scratchpad of the firing's cell. -/
def spadOf (s : State) : Memory := (s.cell s.sched.firing.cell).spad

theorem rowFrame_refl (s : State) : RowFrame s s :=
  ⟨fun _ _ => rfl, rfl, fun _ _ => rfl, fun _ _ => rfl, rfl, rfl, rfl, rfl, rfl⟩

theorem rowFrame_trans {s t u : State} (h : RowFrame s t) (k : RowFrame t u) : RowFrame s u := by
  obtain ⟨cells, seq, pes, regions, mem, fns, disp, sys, sched⟩ := k
  rw [h.sched] at cells seq pes regions
  exact ⟨fun n hn => (cells n hn).trans (h.cells n hn), seq.trans h.seq, fun p hp => (pes p hp).trans (h.pes p hp),
    fun j hj => (regions j hj).trans (h.regions j hj), mem.trans h.mem, fns.trans h.fns, disp.trans h.disp, sys.trans h.sys,
    sched.trans h.sched⟩

/-- A step of a firing leaves its PE as `e`, its region slot as `g` and its scratchpad as `m`. -/
structure RowChange (s t : State) (e : PE) (g : Region) (m : Memory) : Prop extends RowFrame s t where
  pe : peOf t = e
  region : regionOf t = g
  spad : spadOf t = m

theorem RowChange.trans {s t u : State} {e e' : PE} {g g' : Region} {m m' : Memory} (h : RowChange s t e g m)
    (k : RowChange t u e' g' m') : RowChange s u e' g' m' :=
  ⟨rowFrame_trans h.toRowFrame k.toRowFrame, k.pe, k.region, k.spad⟩

theorem RowChange.refl (s : State) : RowChange s s (peOf s) (regionOf s) (spadOf s) := ⟨rowFrame_refl s, rfl, rfl, rfl⟩

theorem RowChange.nothing {s t : State} (h : RowChange s t (peOf s) (regionOf s) (spadOf s)) : RowNothing s t :=
  ⟨h.toRowFrame, h.pe, h.region, by
    have := h.spad
    rwa [spadOf, h.sched] at this⟩

/-- A change of the firing's cell that leaves its sequencer, PEs and region slots. -/
theorem rowChange_modCell (s : State) (f : CellSt → CellSt)
    (seq : (f (s.cell s.sched.firing.cell)).seq = (s.cell s.sched.firing.cell).seq)
    (pe : (f (s.cell s.sched.firing.cell)).pe = (s.cell s.sched.firing.cell).pe)
    (region : (f (s.cell s.sched.firing.cell)).region = (s.cell s.sched.firing.cell).region) :
    RowChange s (s.modCell s.sched.firing.cell f) (peOf s) (regionOf s) (f (s.cell s.sched.firing.cell)).spad := by
  have cell := cell_modCell s s.sched.firing.cell f
  exact ⟨⟨fun n hn => cell_modCell_ne s f hn, by rw [cell, seq], fun p _ => by rw [cell, pe], fun k _ => by rw [cell, region],
    rfl, rfl, rfl, rfl, rfl⟩, by simp only [peOf, modCell_sched, cell, pe], by simp only [regionOf, modCell_sched, cell, region],
    by simp only [spadOf, modCell_sched, cell]⟩

/-- A change of the firing's PE. -/
theorem rowChange_modPe (s : State) (g : PE → PE) :
    RowChange s (s.modPe s.sched.firing g) (g (peOf s)) (regionOf s) (spadOf s) := by
  have cell : (s.modPe s.sched.firing g).cell s.sched.firing.cell = _ := cell_modCell s s.sched.firing.cell _
  refine ⟨⟨fun n hn => cell_modCell_ne s _ hn, by rw [cell]; rfl, fun p hp => ?_, fun k _ => by rw [cell]; rfl,
    rfl, rfl, rfl, rfl, rfl⟩, ?_, ?_, ?_⟩
  · rw [cell]
    exact Vector.getElem_set_ne s.sched.firing.pe.isLt p.isLt fun h => hp (Fin.ext h.symm)
  · show ((s.modPe s.sched.firing g).cell s.sched.firing.cell).pe[s.sched.firing.pe.val] = _
    rw [cell]
    exact Vector.getElem_set_self _
  · show ((s.modPe s.sched.firing g).cell s.sched.firing.cell).region[s.sched.firing.k.val] = _
    rw [cell]
    rfl
  · show ((s.modPe s.sched.firing g).cell s.sched.firing.cell).spad = _
    rw [cell]
    rfl

/-- A change of the firing's region slot. -/
theorem rowChange_modRegion (s : State) (g : Region → Region) :
    RowChange s (s.modRegion s.sched.firing.cell s.sched.firing.k g) (peOf s) (g (regionOf s)) (spadOf s) := by
  have cell : (s.modRegion s.sched.firing.cell s.sched.firing.k g).cell s.sched.firing.cell = _ :=
    cell_modCell s s.sched.firing.cell _
  refine ⟨⟨fun n hn => cell_modCell_ne s _ hn, by rw [cell]; rfl, fun p _ => by rw [cell]; rfl, fun k hk => ?_,
    rfl, rfl, rfl, rfl, rfl⟩, ?_, ?_, ?_⟩
  · rw [cell]
    exact Vector.getElem_set_ne s.sched.firing.k.isLt k.isLt fun h => hk (Fin.ext h.symm)
  · show ((s.modRegion s.sched.firing.cell s.sched.firing.k g).cell s.sched.firing.cell).pe[s.sched.firing.pe.val] = _
    rw [cell]
    rfl
  · show ((s.modRegion s.sched.firing.cell s.sched.firing.k g).cell s.sched.firing.cell).region[s.sched.firing.k.val] = _
    rw [cell]
    exact Vector.getElem_set_self _
  · show ((s.modRegion s.sched.firing.cell s.sched.firing.k g).cell s.sched.firing.cell).spad = _
    rw [cell]
    rfl

/-! ### A firing whose checks pass (R23, R243) -/

/-- A state whose firing is counted (R243). -/
def fired (s : State) (r : Row) (code : Nat) : State :=
  s.modCell s.sched.firing.cell fun x => x.rowEvents (rowCtx s r) code

theorem rowEvents_frame (x : CellSt) (cx : RowCtx) (code : Nat) :
    x.rowEvents cx code = { x with events := (x.rowEvents cx code).events } := by
  unfold CellSt.rowEvents
  dsimp only
  split <;> split <;> rfl

theorem fired_change (s : State) (r : Row) (code : Nat) :
    RowChange s (fired s r code) (peOf s) (regionOf s) (spadOf s) := by
  have h := rowChange_modCell s (fun x => x.rowEvents (rowCtx s r) code) (by rw [rowEvents_frame]) (by rw [rowEvents_frame])
    (by rw [rowEvents_frame])
  have spad : ((s.cell s.sched.firing.cell).rowEvents (rowCtx s r) code).spad = spadOf s := by rw [rowEvents_frame]; rfl
  exact spad ▸ h

theorem fireRow_ready {s : State} {i : Instr} {code : Nat} {r : Row} (h : Fires s i code r) (eff : RowCtx → State → State) :
    s.fireRow i code r eff = .next (eff (rowCtx s r) (fired s r code)) := by
  have address : (s.ctxOf s.sched.firing r).badAddress code = none := h.address
  have types : (s.ctxOf s.sched.firing r).typeOk code = true := h.types
  have words : (s.ctxOf s.sched.firing r).eccAt code = none := h.words
  have reads : (s.ctxOf s.sched.firing r).badRead code = none := h.reads
  simp only [State.fireRow, h.limits, Bool.not_true, Bool.false_eq_true, if_false, address, types, words, reads]
  rfl

/-! ### A landing slot (R30, R90, R93, R94, R103) -/

theorem slot_dest (s : State) (r : Row) (i : Instr) (u : FUnit) (lat : Nat) (bad : Bool) (p : Payload) :
    ((rowCtx s r).slot i u lat bad p).dest.toNat = let d := r.dest.toNat
      if 16 ≤ d ∧ d < 64 then 16 + (d - 16 + s.sched.firing.rb.toNat) % 48 else d := by
  show (if 16 ≤ r.dest.toNat ∧ r.dest.toNat < 64 then BitVec.ofNat 7 (physReg r.dest.toNat s.sched.firing.rb.toNat)
    else r.dest).toNat = if 16 ≤ r.dest.toNat ∧ r.dest.toNat < 64 then _ else _
  by_cases h : 16 ≤ r.dest.toNat ∧ r.dest.toNat < 64
  · have small : (r.dest.toNat - 16 + s.sched.firing.rb.toNat) % 48 < 48 := Nat.mod_lt _ (by decide)
    rw [if_pos h, if_pos h, physReg, if_neg (Nat.not_lt.2 h.1)]
    exact toNat_ofNat_of_lt (by omega)
  · rw [if_neg h, if_neg h]

/-- R103: the region slot after the flags of a firing that no source carried. -/
def latched (s : State) (r : Row) (g : Region) (fresh : Flags) : Region :=
  if fresh = 0 ∨ g.ffl.isSome = true then g else
    { g with ffl := some { flags := fresh, pe := s.sched.firing.pe, stage := r.stage, slot := r.slot, inst := s.sched.firing.inst } }

theorem latch_change {s u : State} (r : Row) (fresh : Flags) (sched : u.sched = s.sched) :
    RowChange u (u.latch (rowCtx s r) fresh) (peOf u) (latched s r (regionOf u) fresh) (spadOf u) := by
  have same : (rowCtx s r).f = u.sched.firing := congrArg Sched.firing sched.symm
  unfold State.latch
  rw [same]
  by_cases none_ : fresh = 0
  · rw [if_pos none_, latched, if_pos (.inl none_)]
    exact .refl u
  · rw [if_neg none_]
    have h := rowChange_modRegion u fun g => match g.ffl with
      | some _ => g
      | none => { g with ffl := some { flags := fresh, pe := u.sched.firing.pe, stage := r.stage, slot := r.slot,
                                       inst := u.sched.firing.inst } }
    have : (match (regionOf u).ffl with
      | some _ => regionOf u
      | none => { regionOf u with ffl := some { flags := fresh, pe := u.sched.firing.pe, stage := r.stage, slot := r.slot,
                                                inst := u.sched.firing.inst } }) = latched s r (regionOf u) fresh := by
      unfold latched
      cases held : (regionOf u).ffl with
      | some f => rw [if_pos (.inr rfl)]
      | none => rw [if_neg (by rintro (h | h); exacts [none_ h, Bool.false_ne_true h]), sched]
    rw [this] at h
    exact h

/-- A firing that puts `p` into a new landing slot, after steps that left its PE. -/
theorem rowResult_addSlot {s u : State} (h : RowChange s u (peOf s) (regionOf s) (spadOf s)) (i : Instr) (r : Row) (un : FUnit)
    (lat : Nat) (p : Payload) (fresh : Flags) :
    RowResult s ((u.addSlot (rowCtx s r).f ((rowCtx s r).slot i un lat false p)).latch (rowCtx s r) fresh) r un lat p (peOf s)
      fresh := by
  let l := (rowCtx s r).slot i un lat false p
  have firing : (rowCtx s r).f = u.sched.firing := congrArg Sched.firing h.sched.symm
  have added : RowChange u (u.addSlot (rowCtx s r).f l) { peOf u with slots := (peOf u).slots ++ [l] } (regionOf u) (spadOf u) :=
    firing ▸ rowChange_modPe u fun e => { e with slots := e.slots ++ [l] }
  have sched : (u.addSlot (rowCtx s r).f l).sched = s.sched := added.sched.trans h.sched
  have whole := (h.trans added).trans (latch_change r fresh sched)
  refine ⟨whole.toRowFrame, ⟨l, ?_, rfl, rfl, rfl, rfl, rfl, rfl, slot_dest ..⟩, ?_, ?_⟩
  · rw [whole.pe, added.pe, h.pe]
  · rw [whole.region, added.region, h.region]
    rfl
  · have := whole.spad
    rw [added.spad, h.spad, spadOf, whole.sched] at this
    exact this

/-- A register result of a firing. -/
theorem rowResult_putVal {s u : State} {r : Row} {code lat : Nat} {un : FUnit} (h : RowChange s u (peOf s) (regionOf s) (spadOf s))
    (unit_ : rowUnit code = some (un, lat)) (i : Instr) (v : FVal) (fresh : Flags) :
    RowResult s (u.putVal (rowCtx s r) i code v fresh) r un lat (.reg v) (peOf s) fresh := by
  simp only [State.putVal, unit_]
  exact rowResult_addSlot h i r un lat (.reg v) fresh

/-! ### Lanes (R351) -/

theorem lanes_eq_map (w : Nat) : ∀ n v : Nat, lanes w v n = (List.range n).map fun j => v / 2 ^ (w * j) % 2 ^ w := by
  intro n
  induction n with
  | zero => intro v; rfl
  | succ n ih =>
    intro v
    rw [lanes, ih, List.range_succ_eq_map, List.map_cons, List.map_map]
    simp only [Nat.mul_zero, Nat.pow_zero, Nat.div_one, List.cons.injEq, true_and]
    refine List.map_congr_left fun j _ => ?_
    rw [Function.comp_apply, Nat.div_div_eq_div_mul, ← Nat.pow_add, Nat.mul_succ, Nat.add_comm]

theorem joinLanes_lt (w : Nat) (l : List Nat) : joinLanes w l < 2 ^ (w * l.length) := by
  induction l with
  | nil => simp [joinLanes]
  | cons a t ih =>
    have low : a % 2 ^ w < 2 ^ w := Nat.mod_lt _ (Nat.two_pow_pos w)
    have high : 2 ^ w * (joinLanes w t + 1) ≤ 2 ^ w * 2 ^ (w * t.length) := Nat.mul_le_mul_left _ ih
    rw [joinLanes, List.length_cons, Nat.mul_succ, Nat.add_comm (w * t.length), Nat.pow_add]
    rw [Nat.mul_succ] at high
    omega

theorem joinLanes_lane (w : Nat) (l : List Nat) : ∀ (j : Nat) (h : j < l.length), joinLanes w l / 2 ^ (w * j) % 2 ^ w = l[j] % 2 ^ w := by
  induction l with
  | nil => intro j h; exact absurd h (Nat.not_lt_zero j)
  | cons a t ih =>
    intro j h
    have low : a % 2 ^ w < 2 ^ w := Nat.mod_lt _ (Nat.two_pow_pos w)
    rw [joinLanes]
    cases j with
    | zero => simp
    | succ j =>
      rw [Nat.mul_succ, Nat.add_comm (w * j), Nat.pow_add, ← Nat.div_div_eq_div_mul, Nat.add_mul_div_left _ _ (Nat.two_pow_pos w),
        Nat.div_eq_of_lt low, Nat.zero_add]
      exact ih j (Nat.lt_of_succ_lt_succ h)

theorem laneOf_toNat (w j : Nat) (v : Word) : (laneOf w j v).toNat = v.toNat / 2 ^ (w * j) % 2 ^ w := by
  rw [laneOf, BitVec.extractLsb'_toNat, Nat.shiftRight_eq_div_pow]

theorem wordLanes_eq_map (w : Nat) (v : Word) : wordLanes w v = (List.range (64 / w)).map fun j => (laneOf w j v).toNat := by
  simp only [wordLanes, lanes_eq_map, laneOf_toNat]

theorem laneOf_laneWord {w j : Nat} (l : List Nat) (fits : w * l.length ≤ 64) (h : j < l.length) :
    laneOf w j (laneWord w l) = BitVec.ofNat w l[j] := by
  apply BitVec.eq_of_toNat_eq
  have small : joinLanes w l < 2 ^ 64 := Nat.lt_of_lt_of_le (joinLanes_lt w l) (Nat.pow_le_pow_right (by decide) fits)
  rw [laneOf_toNat, laneWord, toNat_ofNat_of_lt small, joinLanes_lane w l j h, BitVec.toNat_ofNat]

/-- The word whose lanes are given has them. -/
theorem laneOf_laneWord_map {w j : Nat} (g : Nat → Nat) (h : j < 64 / w) :
    laneOf w j (laneWord w ((List.range (64 / w)).map g)) = BitVec.ofNat w (g j) := by
  have inside : j < ((List.range (64 / w)).map g).length := by simpa using h
  rw [laneOf_laneWord _ (by simpa using Nat.mul_div_le 64 w) inside, List.getElem_map, List.getElem_range]

theorem laneBits_cases (r : Row) : laneBits r = 8 ∨ laneBits r = 16 ∨ laneBits r = 32 ∨ laneBits r = 64 := by
  have : r.mod.toNat % 4 < 4 := Nat.mod_lt _ (by decide)
  unfold laneBits
  interval_cases r.mod.toNat % 4 <;> decide

theorem rowUns_eq (r : Row) : rowUns r = r.mod.getLsbD 2 := by
  rw [rowUns, BitVec.getLsbD, Nat.testBit_eq_decide_div_mod_eq]
  rfl

/-! ### What each row does to a lane (R352, R353) -/

section
variable {n : Nat} (u : Bool) (x y : BitVec n)

theorem laneVal_toNat : laneVal u n x.toNat = laneNum u x := by rw [laneVal, laneNum, sval_toNat]

theorem ofNat_mod_two_pow (v : Nat) : BitVec.ofNat n (v % 2 ^ n) = BitVec.ofNat n v := by
  apply BitVec.eq_of_toNat_eq
  simp

theorem add_lane : BitVec.ofNat n ((x.toNat + y.toNat) % 2 ^ n) = x + y := by
  rw [ofNat_mod_two_pow, ← BitVec.ofInt_natCast, ofInt_add_toNat]

theorem sub_lane : BitVec.ofNat n (wrapN n ((x.toNat : Int) - y.toNat)) = x - y := by rw [ofNat_wrapN, ofInt_sub_toNat]

theorem mul_lane : BitVec.ofNat n (x.toNat * y.toNat % 2 ^ n) = x * y := by
  rw [ofNat_mod_two_pow, BitVec.ofNat_mul, BitVec.ofNat_toNat, BitVec.ofNat_toNat, BitVec.setWidth_eq, BitVec.setWidth_eq]

/-- The high half of a number of `2 n` bits. -/
theorem high_half (v : Int) : ((BitVec.ofInt (2 * n) v) >>> n).setWidth n = BitVec.ofInt n (v / (2 ^ n : Nat)) := by
  apply BitVec.eq_of_toNat_eq
  rw [BitVec.toNat_setWidth, BitVec.toNat_ushiftRight, Nat.shiftRight_eq_div_pow, BitVec.toNat_ofInt, BitVec.toNat_ofInt,
    show (2 : Nat) ^ (2 * n) = 2 ^ n * 2 ^ n by rw [← Nat.pow_add, Nat.two_mul]]
  have pos : (0 : Int) < (2 ^ n : Nat) := by exact_mod_cast Nat.two_pow_pos n
  generalize 2 ^ n = m at pos
  have split : v / (m : Int) = v % ((m * m : Nat) : Int) / m + m * (v / ((m * m : Nat) : Int)) := by
    rw [← Int.add_mul_ediv_left _ _ (by omega), ← mul_assoc, ← Nat.cast_mul, Int.emod_add_mul_ediv]
  have low : 0 ≤ v % ((m * m : Nat) : Int) := Int.emod_nonneg _ (by push_cast; nlinarith)
  rw [split, Int.add_mul_emod_self_left]
  lift v % ((m * m : Nat) : Int) to Nat using low with a
  norm_cast

theorem mulh_lane : BitVec.ofNat n (wrapN n (laneVal u n x.toNat * laneVal u n y.toNat / (2 ^ n : Nat))) =
    if u then ((x.setWidth (2 * n) * y.setWidth (2 * n)) >>> n).setWidth n
    else ((x.signExtend (2 * n) * y.signExtend (2 * n)) >>> n).setWidth n := by
  rw [ofNat_wrapN, ← high_half, BitVec.ofInt_mul, laneVal_toNat, laneVal_toNat]
  cases u
  · rfl
  · simp only [laneNum, if_true, BitVec.ofInt_natCast, BitVec.ofNat_toNat]

theorem clamp_lane (v : Int) : BitVec.ofNat n (clampLane u n v) = clampTo u n v := by
  rw [clampLane, clampTo, ofNat_wrapN]
  have limits : (if u then 0 else -2 ^ (n - 1) : Int) ≤ if u then 2 ^ n - 1 else 2 ^ (n - 1) - 1 := by
    have whole : (0 : Int) < 2 ^ n := by positivity
    have half : (0 : Int) < 2 ^ (n - 1) := by positivity
    split <;> omega
  generalize (if u then 0 else -2 ^ (n - 1) : Int) = lo at *
  generalize (if u then 2 ^ n - 1 else 2 ^ (n - 1) - 1 : Int) = hi at *
  congr 1
  by_cases low : v < lo
  · rw [if_pos low]
    omega
  · rw [if_neg low]
    split <;> omega

theorem shl_lane : BitVec.ofNat n (x.toNat * 2 ^ (y.toNat % n) % 2 ^ n) = x <<< (y.toNat % n) := by
  rw [ofNat_mod_two_pow, ← BitVec.ofInt_natCast, ofInt_shl_toNat]

theorem shr_lane : BitVec.ofNat n (x.toNat / 2 ^ (y.toNat % n)) = x >>> (y.toNat % n) := by
  rw [← BitVec.ofInt_natCast, ofInt_shr_toNat]

theorem sar_lane : BitVec.ofNat n (wrapN n (sval n x.toNat / (2 ^ (y.toNat % n) : Nat))) = x.sshiftRight (y.toNat % n) := by
  rw [ofNat_wrapN, sval_toNat, ofInt_sar_toInt]

/-- The lane that a comparison chooses. -/
theorem chosen_lane (p : Prop) [Decidable p] : BitVec.ofNat n (if p then y.toNat else x.toNat) = if ¬ p then x else y := by
  by_cases h : p
  · rw [if_pos h, if_neg (not_not_intro h), BitVec.ofNat_toNat, BitVec.setWidth_eq]
  · rw [if_neg h, if_pos h, BitVec.ofNat_toNat, BitVec.setWidth_eq]

theorem min_lane : BitVec.ofNat n (if laneVal u n y.toNat < laneVal u n x.toNat then y.toNat else x.toNat) =
    if laneNum u x ≤ laneNum u y then x else y := by
  simp only [chosen_lane, laneVal_toNat, Int.not_lt]

theorem max_lane : BitVec.ofNat n (if laneVal u n x.toNat < laneVal u n y.toNat then y.toNat else x.toNat) =
    if laneNum u x ≤ laneNum u y then y else x := by
  rw [chosen_lane, laneVal_toNat, laneVal_toNat]
  rcases lt_trichotomy (laneNum u x) (laneNum u y) with less | same | more
  · rw [if_neg (not_not_intro less), if_pos (Int.le_of_lt less)]
  · have : x = y := by
      cases u
      · exact BitVec.eq_of_toInt_eq same
      · exact BitVec.eq_of_toNat_eq (Int.ofNat_inj.1 same)
    subst this
    simp
  · rw [if_pos (by omega), if_neg (by omega)]

theorem abs_lane : BitVec.ofNat n (wrapN n (sval n x.toNat).natAbs) = if x.msb then -x else x := by
  rw [ofNat_wrapN, sval_toNat, BitVec.msb_eq_toInt]
  by_cases negative : x.toInt < 0
  · rw [if_pos (decide_eq_true negative), Int.ofNat_natAbs_of_nonpos (by omega), BitVec.ofInt_neg, BitVec.ofInt_toInt]
  · rw [if_neg (by simpa using negative), Int.natAbs_of_nonneg (by omega), BitVec.ofInt_toInt]

theorem laneHolds_eq (cc : Nat) : laneHolds cc u n x.toNat y.toNat = laneCond cc u x y := by
  have same : (x == y) = decide (x.toNat = y.toNat) := by rw [Bool.eq_iff_iff]; simp [BitVec.toNat_eq]
  have apart : (x &&& y == 0) = decide (x.toNat.land y.toNat = 0) := by
    rw [Bool.eq_iff_iff, beq_iff_eq, BitVec.toNat_eq, BitVec.toNat_and, decide_eq_true_eq]
    rfl
  unfold laneHolds laneCond
  simp only [laneVal_toNat, bne, same, apart]
  split <;> simp

end

theorem popN_eq_countP (n : Nat) : ∀ v : Nat, popN n v = (List.range n).countP v.testBit := by
  induction n with
  | zero => intro v; rfl
  | succ n ih =>
    intro v
    rw [popN, ih, List.range_succ_eq_map, List.countP_cons, List.countP_map, Nat.add_comm]
    have bit : (if v.testBit 0 = true then 1 else 0) = v % 2 := by
      simp only [Nat.testBit_zero, decide_eq_true_eq]
      split <;> omega
    rw [bit]
    congr 2
    funext j
    rw [Function.comp_apply, Nat.succ_eq_add_one, Nat.testBit_succ]

theorem clzN_eq {n : Nat} : ∀ v : Nat, v < 2 ^ n → clzN n v = if v = 0 then n else n - 1 - Nat.log2 v := by
  induction n with
  | zero => intro v h; simp [clzN]
  | succ n ih =>
    intro v h
    have pos : 0 < 2 ^ n := Nat.two_pow_pos n
    rw [Nat.pow_succ] at h
    by_cases high : 2 ^ n ≤ v
    · have bit : v / 2 ^ n = 1 := Nat.div_eq_of_lt_le (by omega) (by omega)
      have top : Nat.log2 v = n := (Nat.log2_eq_iff (by omega)).2 ⟨high, by rw [Nat.pow_succ]; omega⟩
      rw [clzN, bit, if_pos rfl, if_neg (by omega), top]
      omega
    · rw [clzN, Nat.div_eq_of_lt (by omega), if_neg (by decide), ih v (by omega)]
      by_cases zero : v = 0
      · rw [if_pos zero, if_pos zero, Nat.add_comm]
      · have top : Nat.log2 v < n := (Nat.log2_lt zero).2 (by omega)
        rw [if_neg zero, if_neg zero]
        omega

/-! ### Integer-lane, compare and predicate rows (R349, R351 to R354, R356) -/

/-- A firing of the ALU that puts a value of sources and raises no flag. -/
theorem putVal_alu (s : State) (r : Row) {code : Nat} (unit_ : rowUnit code = some (.alu, 1)) (i : Instr) (v : FVal) :
    RowResult s ((fired s r code).putVal (rowCtx s r) i code v 0) r .alu 1 (.reg v) (peOf s) 0 :=
  rowResult_putVal (fired_change s r code) unit_ i v 0

theorem newFlags_zero (carried : Flags) : newFlags 0 carried = 0 := by simp [newFlags]

theorem putResult_alu (s : State) (r : Row) {code : Nat} (unit_ : rowUnit code = some (.alu, 1)) (i : Instr) (data : Word)
    (srcs : List FVal) :
    RowResult s ((fired s r code).putResult (rowCtx s r) i code data srcs 0) r .alu 1 (.reg (resultVal data srcs 0)) (peOf s) 0 := by
  rw [State.putResult, newFlags_zero]
  exact putVal_alu s r unit_ i _

section
variable {s : State} {r : Row} (arm : Out)

theorem laneRow2_result {p : (Row → Instr) × Nat × (Bool → ∀ n, BitVec n → BitVec n → BitVec n)}
    {f : Nat → Nat → Nat → Nat}
    (named : exec (p.1 r) s = arm) (run : arm = laneRow2 (p.1 r) p.2.1 r f s) (unit_ : rowUnit p.2.1 = some (.alu, 1))
    (lane : ∀ (n : Nat) (x y : BitVec n), BitVec.ofNat n (f n x.toNat y.toNat) = p.2.2 (rowUns r) n x y)
    (fires : Fires s (p.1 r) p.2.1 r) :
    ∃ t v, exec (p.1 r) s = .next t ∧
      RowResult s t r .alu 1 (.reg (resultVal v [(rowCtx s r).a, (rowCtx s r).b] 0)) (peOf s) 0 ∧
      ∀ j < 64 / laneBits r, laneOf (laneBits r) j v = p.2.2 (r.mod.getLsbD 2) (laneBits r)
        (laneOf (laneBits r) j (rowCtx s r).a.data) (laneOf (laneBits r) j (rowCtx s r).b.data) := by
  refine ⟨_, _, named.trans (run.trans (fireRow_ready fires _)), putResult_alu s r unit_ _ _ _, fun j inside => ?_⟩
  rw [wordLanes_eq_map, wordLanes_eq_map, List.zipWith_map, List.zipWith_self, ← rowUns_eq]
  exact (laneOf_laneWord_map _ inside).trans (lane _ _ _)

theorem laneRow1_result {p : (Row → Instr) × Nat × (∀ n, BitVec n → BitVec n)} {f : Nat → Nat → Nat}
    (named : exec (p.1 r) s = arm) (run : arm = laneRow1 (p.1 r) p.2.1 r f s) (unit_ : rowUnit p.2.1 = some (.alu, 1))
    (lane : ∀ (n : Nat) (x : BitVec n), BitVec.ofNat n (f n x.toNat) = p.2.2 n x) (fires : Fires s (p.1 r) p.2.1 r) :
    ∃ t v, exec (p.1 r) s = .next t ∧
      RowResult s t r .alu 1 (.reg (resultVal v [(rowCtx s r).a] 0)) (peOf s) 0 ∧
      ∀ j < 64 / laneBits r, laneOf (laneBits r) j v = p.2.2 (laneBits r) (laneOf (laneBits r) j (rowCtx s r).a.data) := by
  refine ⟨_, _, named.trans (run.trans (fireRow_ready fires _)), putResult_alu s r unit_ _ _ _, fun j inside => ?_⟩
  rw [wordLanes_eq_map, List.map_map]
  exact (laneOf_laneWord_map _ inside).trans (lane _ _)

theorem wholeRow_result {p : (Row → Instr) × Nat × (Word → Word → Word)}
    (named : exec (p.1 r) s = arm) (run : arm = wholeRow (p.1 r) p.2.1 r p.2.2 s) (unit_ : rowUnit p.2.1 = some (.alu, 1))
    (fires : Fires s (p.1 r) p.2.1 r) :
    ∃ t, exec (p.1 r) s = .next t ∧ RowResult s t r .alu 1
      (.reg (resultVal (p.2.2 (rowCtx s r).a.data (rowCtx s r).b.data) [(rowCtx s r).a, (rowCtx s r).b] 0)) (peOf s) 0 :=
  ⟨_, named.trans (run.trans (fireRow_ready fires _)), putResult_alu s r unit_ _ _ _⟩

/-- A row whose value is not formed by R349. -/
theorem valueRow_result {i : Instr} {code : Nat} {v : RowCtx → FVal}
    (named : exec i s = arm) (run : arm = s.fireRow i code r fun cx s => s.putVal cx i code (v cx) 0)
    (unit_ : rowUnit code = some (.alu, 1))
    (fires : Fires s i code r) :
    ∃ t, exec i s = .next t ∧ RowResult s t r .alu 1 (.reg (v (rowCtx s r))) (peOf s) 0 :=
  ⟨_, named.trans (run.trans (fireRow_ready fires _)), putVal_alu s r unit_ i _⟩

theorem predRow_result {i : Instr} {code : Nat} (f : RowCtx → Word × Bool) (srcs : RowCtx → List FVal)
    (named : exec i s = arm) (run : arm = predRow i code r f srcs s) (unit_ : rowUnit code = some (.alu, 1))
    (fires : Fires s i code r) :
    ∃ t, exec i s = .next t ∧ RowResult s t r .alu 1
      (.reg { resultVal (f (rowCtx s r)).1 (srcs (rowCtx s r)) 0 with p := (f (rowCtx s r)).2 }) (peOf s) 0 :=
  valueRow_result arm (v := fun cx => { resultVal (f cx).1 (srcs cx) 0 with p := (f cx).2 }) named run unit_ fires

end

/-- R353: whether lane `j` of a CMP meets its condition. -/
def cmpHolds (r : Row) (a b : Word) (j : Nat) : Bool :=
  laneCond (r.aux.toNat % 16) (r.mod.getLsbD 2) (laneOf (laneBits r) j a) (laneOf (laneBits r) j b)

theorem cmpLanes_eq_map (s : State) (r : Row) :
    cmpLanes (rowCtx s r) = (List.range (64 / laneBits r)).map (cmpHolds r (rowCtx s r).a.data (rowCtx s r).b.data) := by
  show List.zipWith (laneHolds (r.aux.toNat % 16) (rowUns r) (laneBits r)) (wordLanes (laneBits r) _) (wordLanes (laneBits r) _) = _
  rw [wordLanes_eq_map, wordLanes_eq_map, List.zipWith_map, List.zipWith_self]
  refine List.map_congr_left fun j _ => ?_
  rw [laneHolds_eq, rowUns_eq]
  rfl

theorem lane_count_pos (r : Row) : 0 < 64 / laneBits r := by
  rcases laneBits_cases r with h | h | h | h <;> rw [h] <;> decide

theorem cmpReduce_first {n : Nat} (f : Nat → Bool) (pos : 0 < n) : cmpReduce 0 ((List.range n).map f) = f 0 := by
  obtain ⟨n, rfl⟩ := Nat.exists_eq_succ_of_ne_zero (Nat.ne_of_gt pos)
  rw [List.range_succ_eq_map]
  rfl

theorem cmpReduce_all (n : Nat) (f : Nat → Bool) : cmpReduce 1 ((List.range n).map f) = true ↔ ∀ j < n, f j = true := by
  simp [cmpReduce]

theorem cmpReduce_any (n : Nat) (f : Nat → Bool) : cmpReduce 2 ((List.range n).map f) = true ↔ ∃ j < n, f j = true := by
  simp [cmpReduce]

theorem mask_lane (n : Nat) (b : Bool) : BitVec.ofNat n (if b then 2 ^ n - 1 else 0) = if b then BitVec.allOnes n else 0 := by
  cases b
  · rfl
  · rw [if_pos rfl, if_pos rfl]
    exact BitVec.eq_of_toNat_eq (by rw [BitVec.toNat_ofNat, BitVec.toNat_allOnes, Nat.mod_eq_of_lt (by have := Nat.two_pow_pos n; omega)])

theorem laneOps_spec (r : Row) (s : State) : ∀ p ∈ laneOps, Fires s (p.1 r) p.2.1 r →
    ∃ t v, exec (p.1 r) s = .next t ∧
      RowResult s t r .alu 1 (.reg (resultVal v [(rowCtx s r).a, (rowCtx s r).b] 0)) (peOf s) 0 ∧
      ∀ j < 64 / laneBits r, laneOf (laneBits r) j v = p.2.2 (r.mod.getLsbD 2) (laneBits r)
        (laneOf (laneBits r) j (rowCtx s r).a.data) (laneOf (laneBits r) j (rowCtx s r).b.data) := by
  intro p hp
  simp only [laneOps, List.mem_cons, List.not_mem_nil, or_false] at hp
  rcases hp with rfl | rfl | rfl | rfl | rfl | rfl | rfl | rfl | rfl | rfl | rfl
  · exact laneRow2_result (execRowAdd r s) rfl rfl rfl fun _ => add_lane
  · exact laneRow2_result (execRowSub r s) rfl rfl rfl fun _ => sub_lane
  · exact laneRow2_result (execRowMul r s) rfl rfl rfl fun _ => mul_lane
  · exact laneRow2_result (execRowMulh r s) rfl rfl rfl fun _ => mulh_lane (rowUns r)
  · exact laneRow2_result (execRowAdds r s) rfl rfl rfl fun _ x y => by rw [clamp_lane, laneVal_toNat, laneVal_toNat]
  · exact laneRow2_result (execRowSubs r s) rfl rfl rfl fun _ x y => by rw [clamp_lane, laneVal_toNat, laneVal_toNat]
  · exact laneRow2_result (execRowShl r s) rfl rfl rfl fun _ => shl_lane
  · exact laneRow2_result (execRowShr r s) rfl rfl rfl fun _ => shr_lane
  · exact laneRow2_result (execRowSar r s) rfl rfl rfl fun _ => sar_lane
  · exact laneRow2_result (execRowMin r s) rfl rfl rfl fun _ => min_lane (rowUns r)
  · exact laneRow2_result (execRowMax r s) rfl rfl rfl fun _ => max_lane (rowUns r)

theorem wholeOps_spec (r : Row) (s : State) : ∀ p ∈ wholeOps, Fires s (p.1 r) p.2.1 r →
    ∃ t, exec (p.1 r) s = .next t ∧ RowResult s t r .alu 1
      (.reg (resultVal (p.2.2 (rowCtx s r).a.data (rowCtx s r).b.data) [(rowCtx s r).a, (rowCtx s r).b] 0)) (peOf s) 0 := by
  intro p hp
  simp only [wholeOps, List.mem_cons, List.not_mem_nil, or_false] at hp
  rcases hp with rfl | rfl | rfl | rfl
  · exact wholeRow_result (execRowAnd r s) rfl rfl rfl
  · exact wholeRow_result (execRowOr r s) rfl rfl rfl
  · exact wholeRow_result (execRowXor r s) rfl rfl rfl
  · exact wholeRow_result (execRowAndn r s) rfl rfl rfl

theorem laneOps1_spec (r : Row) (s : State) : ∀ p ∈ laneOps1, Fires s (p.1 r) p.2.1 r →
    ∃ t v, exec (p.1 r) s = .next t ∧ RowResult s t r .alu 1 (.reg (resultVal v [(rowCtx s r).a] 0)) (peOf s) 0 ∧
      ∀ j < 64 / laneBits r, laneOf (laneBits r) j v = p.2.2 (laneBits r) (laneOf (laneBits r) j (rowCtx s r).a.data) := by
  intro p hp
  simp only [laneOps1, List.mem_cons, List.not_mem_nil, or_false] at hp
  rcases hp with rfl | rfl | rfl
  · exact laneRow1_result (execRowAbs r s) rfl rfl rfl fun _ => abs_lane
  · exact laneRow1_result (execRowPopc r s) rfl rfl rfl fun n x => congrArg (BitVec.ofNat n) (popN_eq_countP n x.toNat)
  · exact laneRow1_result (execRowClz r s) rfl rfl rfl fun _ x => by
      rw [clzN_eq _ x.isLt]
      simp only [BitVec.toNat_eq]
      rfl

/-- R353: the mask and the predicate of a CMP. -/
theorem cmp_spec {r : Row} {s : State} (fires : Fires s (.rowCmp r) 0x11 r) : ∃ d p,
    (∃ t, exec (.rowCmp r) s = .next t ∧ RowResult s t r .alu 1
      (.reg { resultVal d [(rowCtx s r).a, (rowCtx s r).b] 0 with p := p }) (peOf s) 0) ∧
    let holds := cmpHolds r (rowCtx s r).a.data (rowCtx s r).b.data
    (∀ j < 64 / laneBits r, laneOf (laneBits r) j d = if holds j then BitVec.allOnes (laneBits r) else 0) ∧
    (r.aux.toNat / 16 = 0 → p = holds 0) ∧ (r.aux.toNat / 16 = 1 → (p = true ↔ ∀ j < 64 / laneBits r, holds j = true)) ∧
    (r.aux.toNat / 16 = 2 → (p = true ↔ ∃ j < 64 / laneBits r, holds j = true)) := by
  refine ⟨_, _, predRow_result (execRowCmp r s) _ _ rfl rfl rfl fires, fun j inside => ?_, fun first => ?_,
    fun all => ?_, fun any => ?_⟩
  · show laneOf (laneBits r) j (laneWord (laneBits r) ((cmpLanes (rowCtx s r)).map fun b => if b then 2 ^ laneBits r - 1 else 0)) = _
    rw [cmpLanes_eq_map, List.map_map, laneOf_laneWord_map _ inside]
    exact mask_lane _ _
  · rw [first, cmpLanes_eq_map, cmpReduce_first _ (lane_count_pos r)]
  · rw [all, cmpLanes_eq_map, cmpReduce_all]
  · rw [any, cmpLanes_eq_map, cmpReduce_any]

/-- Settles O42: each row is one firing whose checks pass, and its value lane by lane is that of the lane's own operation. -/
theorem laneRows : Obligations.LaneRows := by
  refine ⟨fun r s => ⟨laneOps_spec r s, wholeOps_spec r s, laneOps1_spec r s⟩, fun r s => ?_⟩
  exact ⟨cmp_spec, valueRow_result (execRowSel r s) rfl rfl rfl, valueRow_result (execRowMov r s) rfl rfl rfl,
    predRow_result (execRowPand r s) _ _ rfl rfl rfl, predRow_result (execRowPor r s) _ _ rfl rfl rfl,
    predRow_result (execRowPnot r s) _ _ rfl rfl rfl⟩

/-! ### Numbers of bytes (R7) -/

theorem leNat_mread_lt (m : Memory) (n : Nat) : ∀ a : Nat, leNat (mread m a n) < 256 ^ n := by
  induction n with
  | zero => intro a; simp [mread, leNat]
  | succ n ih =>
    intro a
    have low := (mget m a).isLt
    have high := ih (a + 1)
    rw [mread, leNat, Nat.pow_succ]
    omega

/-- Some bytes of a number are the number of those bytes. -/
theorem leNat_mread_slice (m : Memory) (k : Nat) : ∀ (n N a : Nat), k + n ≤ N →
    leNat (mread m a N) / 256 ^ k % 256 ^ n = leNat (mread m (a + k) n) := by
  induction k with
  | zero =>
    intro n
    induction n with
    | zero => intro N a _; simp [mread, leNat, Nat.mod_one]
    | succ n ih =>
      intro N a h
      obtain ⟨N, rfl⟩ := Nat.exists_eq_succ_of_ne_zero (show N ≠ 0 by omega)
      have low := (mget m a).isLt
      have rest := ih N (a + 1) (by omega)
      rw [Nat.pow_zero, Nat.div_one] at rest
      simp only [mread, leNat, Nat.pow_zero, Nat.div_one, Nat.add_zero] at rest ⊢
      rw [Nat.pow_succ, Nat.mul_comm (256 ^ n), Nat.mod_mul, Nat.add_mul_mod_self_left, Nat.mod_eq_of_lt low,
        Nat.add_mul_div_left _ _ (by decide), Nat.div_eq_of_lt low, Nat.zero_add, rest]
  | succ k ih =>
    intro n N a h
    obtain ⟨N, rfl⟩ := Nat.exists_eq_succ_of_ne_zero (show N ≠ 0 by omega)
    have low := (mget m a).isLt
    rw [mread, leNat, Nat.pow_succ, Nat.mul_comm (256 ^ k), ← Nat.div_div_eq_div_mul, Nat.add_mul_div_left _ _ (by decide),
      Nat.div_eq_of_lt low, Nat.zero_add, ih n N (a + 1) (by omega), Nat.add_right_comm, Nat.add_assoc]

theorem extractLsb'_byte {n : Nat} (x : BitVec n) (k : Nat) : x.extractLsb' (8 * k) 8 = BitVec.ofNat 8 (x.toNat / 256 ^ k) := by
  rw [byte_pow, ← Nat.shiftRight_eq_div_pow]
  rfl

/-- A byte of a number that has been written. -/
theorem mget_mwrite_leBytes (m : Memory) {a n k : Nat} (v : Nat) (wf : m.wf = true) (h : k < n) :
    mget (mwrite m a (leBytes v n)) (a + k) = BitVec.ofNat 8 (v / 256 ^ k) := by
  have inside : k < (leBytes v n).length := by simpa using h
  rw [mget_mwrite _ m a k wf inside, getElem_leBytes]

/-- Numbers of `n` bytes written one after another. -/
def storesAt (m : Memory) (at_ v : Nat → Nat) (n N : Nat) : Memory :=
  (List.range N).foldl (fun m j => mwrite m (at_ j) (leBytes (v j) n)) m

section
variable (m : Memory) (at_ v : Nat → Nat) (n : Nat)

theorem storesAt_succ (N : Nat) : storesAt m at_ v n (N + 1) = mwrite (storesAt m at_ v n N) (at_ N) (leBytes (v N) n) := by
  simp [storesAt, List.range_succ]

theorem storesAt_wf (wf : m.wf = true) (N : Nat) : (storesAt m at_ v n N).wf = true := by
  induction N with
  | zero => exact wf
  | succ N ih => rw [storesAt_succ]; exact mwrite_wf _ _ _ ih

theorem mget_storesAt_ne {N a : Nat} (h : ∀ j < N, a < at_ j ∨ at_ j + n ≤ a) : mget (storesAt m at_ v n N) a = mget m a := by
  induction N with
  | zero => rfl
  | succ N ih =>
    rw [storesAt_succ, mget_mwrite_ne _ _ _ _ (by simpa using h N (Nat.lt_succ_self N))]
    exact ih fun j hj => h j (Nat.lt_succ_of_lt hj)

/-- The last number written at an address stands there, when every address is a multiple of the size. -/
theorem mget_storesAt {N j k : Nat} (wf : m.wf = true) (aligned : ∀ i < N, n ∣ at_ i) (inside : j < N)
    (last : ∀ i, j < i → i < N → at_ i ≠ at_ j) (byte : k < n) :
    mget (storesAt m at_ v n N) (at_ j + k) = BitVec.ofNat 8 (v j / 256 ^ k) := by
  induction N with
  | zero => exact absurd inside (Nat.not_lt_zero j)
  | succ N ih =>
    rw [storesAt_succ]
    rcases Nat.lt_succ_iff_lt_or_eq.1 inside with earlier | rfl
    · have apart := last N earlier (Nat.lt_succ_self N)
      have clear : at_ j + k < at_ N ∨ at_ N + n ≤ at_ j + k := by
        obtain ⟨p, hp⟩ := aligned N (Nat.lt_succ_self N)
        obtain ⟨q, hq⟩ := aligned j inside
        rw [hp, hq] at apart ⊢
        rcases Nat.lt_or_gt_of_ne (fun e : p = q => apart (e ▸ rfl)) with less | more
        · have := Nat.mul_le_mul_left n (Nat.succ_le_of_lt less)
          rw [Nat.mul_succ] at this
          omega
        · have := Nat.mul_le_mul_left n (Nat.succ_le_of_lt more)
          rw [Nat.mul_succ] at this
          omega
      rw [mget_mwrite_ne _ _ _ _ (by simpa using clear)]
      exact ih (fun i hi => aligned i (Nat.lt_succ_of_lt hi)) earlier fun i hji hi => last i hji (Nat.lt_succ_of_lt hi)
    · exact mget_mwrite_leBytes _ _ (storesAt_wf m at_ v n wf j) byte

end

/-! ### Bank words of a cell (R108, R109, R113, R116) -/

/-- A cell that keeps its sequencer, PEs and region slots. -/
structure SameUnits (x y : CellSt) : Prop where
  seq : y.seq = x.seq
  pe : y.pe = x.pe
  region : y.region = x.region

theorem SameUnits.refl (x : CellSt) : SameUnits x x := ⟨rfl, rfl, rfl⟩

theorem SameUnits.trans {x y z : CellSt} (h : SameUnits x y) (k : SameUnits y z) : SameUnits x z :=
  ⟨k.seq.trans h.seq, k.pe.trans h.pe, k.region.trans h.region⟩

theorem rowChange_of_sameUnits {s : State} {f : CellSt → CellSt}
    (h : SameUnits (s.cell s.sched.firing.cell) (f (s.cell s.sched.firing.cell))) :
    RowChange s (s.modCell s.sched.firing.cell f) (peOf s) (regionOf s) (f (s.cell s.sched.firing.cell)).spad :=
  rowChange_modCell s f h.seq h.pe h.region

theorem spNote_same (x : CellSt) (a : Nat) : SameUnits x (x.spNote a) ∧ (x.spNote a).spad = x.spad := by
  unfold CellSt.spNote
  split <;> exact ⟨⟨rfl, rfl, rfl⟩, rfl⟩

theorem spWake_same (x : CellSt) (a : Nat) : SameUnits x (x.spWake a) ∧ (x.spWake a).spad = x.spad := by
  unfold CellSt.spWake
  split
  · split <;> exact ⟨⟨rfl, rfl, rfl⟩, rfl⟩
  · exact ⟨⟨rfl, rfl, rfl⟩, rfl⟩

theorem foldl_same {f : CellSt → Nat → CellSt} (one : ∀ x a, SameUnits x (f x a) ∧ (f x a).spad = x.spad) (l : List Nat) :
    ∀ x : CellSt, SameUnits x (l.foldl f x) ∧ (l.foldl f x).spad = x.spad := by
  induction l with
  | nil => exact fun x => ⟨.refl x, rfl⟩
  | cons a t ih =>
    intro x
    obtain ⟨units, spad⟩ := one x a
    obtain ⟨units', spad'⟩ := ih (f x a)
    exact ⟨units.trans units', spad'.trans spad⟩

/-- R109: the bytes of a list of accesses, in its order. -/
theorem spMerge_same (l : List ((Int × Nat × Nat) × Nat)) : ∀ x : CellSt, SameUnits x (x.spMerge l) ∧
    (x.spMerge l).spad = l.foldl (fun m p => mwrite m p.1.1.toNat (leBytes p.2 p.1.2.1)) x.spad := by
  induction l with
  | nil => exact fun x => ⟨.refl x, rfl⟩
  | cons p t ih =>
    obtain ⟨⟨a, n, k⟩, v⟩ := p
    intro x
    obtain ⟨units, spad⟩ : SameUnits x (if n < 8 then x.spNote a.toNat else x) ∧
        (if n < 8 then x.spNote a.toNat else x).spad = x.spad := by
      split
      · exact spNote_same x a.toNat
      · exact ⟨.refl x, rfl⟩
    obtain ⟨units', spad'⟩ := ih ((if n < 8 then x.spNote a.toNat else x).spPut a.toNat n v)
    have put : SameUnits x ((if n < 8 then x.spNote a.toNat else x).spPut a.toNat n v) := ⟨units.seq, units.pe, units.region⟩
    refine ⟨put.trans units', ?_⟩
    rw [CellSt.spMerge, spad', List.foldl_cons, ← spad]
    rfl

theorem spStores_same (x : CellSt) (l : List ((Int × Nat × Nat) × Nat)) : SameUnits x (x.spStores l) ∧
    (x.spStores l).spad = l.foldl (fun m p => mwrite m p.1.1.toNat (leBytes p.2 p.1.2.1)) x.spad := by
  obtain ⟨units, spad⟩ := spMerge_same l x
  obtain ⟨units', spad'⟩ := foldl_same spWake_same (l.map fun p => p.1.1.toNat / 8 * 8).eraseDups (x.spMerge l)
  exact ⟨units.trans units', spad'.trans spad⟩

/-! ### The accesses of a memory row (R368, R370) -/

/-- R370: the address of a memory row. -/
def rowEa (s : State) (r : Row) : Int := (rowCtx s r).address (Fin.ofNat 4 r.srcA.toNat).val (8 * r.aux.toInt)

/-- R271: the checks of a row that fires. -/
theorem fires_rowWf {s : State} {i : Instr} {code : Nat} {r : Row} (h : Fires s i code r) (parts : i.rowParts = some (code, r)) :
    rowWf code r = true := by
  have := h.limits
  rwa [Instr.wf, parts] at this

theorem fires_memSource {s : State} {i : Instr} {code : Nat} {r : Row} (h : Fires s i code r)
    (parts : i.rowParts = some (code, r)) (mem : rowMemOnly code = true) : srcMem r.srcA = true := by
  have := fires_rowWf h parts
  simp only [rowWf, mem, if_true, Bool.and_eq_true] at this
  obtain ⟨⟨⟨-, source⟩, -⟩, -⟩ := this
  exact source

theorem fires_modAux {s : State} {i : Instr} {code : Nat} {r : Row} (h : Fires s i code r)
    (parts : i.rowParts = some (code, r)) : rowModAuxOk code r = true := by
  have := fires_rowWf h parts
  simp only [rowWf, Bool.and_eq_true] at this
  obtain ⟨⟨⟨⟨-, ok⟩, -⟩, -⟩, -⟩ := this
  exact ok

/-- R28: the address counter of a memory source. -/
theorem address_eq_rowEa {s : State} {r : Row} (mem : srcMem r.srcA = true) :
    (rowCtx s r).address (r.srcA.toNat - 0x44) (rowDisp r) = rowEa s r := by
  simp only [srcMem, Bool.and_eq_true, decide_eq_true_eq] at mem
  have counter : Fin.ofNat 4 (r.srcA.toNat - 0x44) = Fin.ofNat 4 (Fin.ofNat 4 r.srcA.toNat).val := by
    apply Fin.ext
    simp only [Fin.ofNat_eq_cast, Fin.val_natCast]
    omega
  simp only [rowEa, RowCtx.address, counter, rowDisp]

theorem accesses_eq (s : State) {r : Row} {code : Nat} (mem : srcMem r.srcA = true) (plain : rowMemOnly code = true) :
    (rowCtx s r).accesses code = if code = 0x48 then [(rowEa s r, 96, 8)]
      else if code = 0x42 ∨ code = 0x43 then (List.range (64 / laneBits r)).map fun j =>
        (rowEa s r + ((laneOf (laneBits r) j (rowCtx s r).b.data).toNat * (laneBits r / 8) : Nat), laneBits r / 8, laneBits r / 8)
      else [(rowEa s r, laneBits r / 8, laneBits r / 8)] := by
  have counter := address_eq_rowEa (s := s) mem
  have size : laneBits r / 8 = 2 ^ (r.mod.toNat % 4) := Nat.mul_div_cancel_left _ (by decide)
  have inside : (!(0x44 ≤ r.srcA.toNat && r.srcA.toNat ≤ 0x47 : Bool)) = false := by
    rw [srcMem] at mem
    rw [mem]
    rfl
  have notDot : ¬ (code = 0x4a ∨ code = 0x4b) := by
    rintro (rfl | rfl) <;> exact absurd plain (by decide)
  show (if !(0x44 ≤ r.srcA.toNat && r.srcA.toNat ≤ 0x47 : Bool) then _ else _) = _
  rw [inside, if_neg Bool.false_ne_true, if_neg notDot, size]
  show (let ea := (rowCtx s r).address (r.srcA.toNat - 0x44) (rowDisp r)
    let n := 2 ^ (r.mod.toNat % 4)
    if code = 0x48 then [(ea, 96, 8)]
    else if code = 0x42 ∨ code = 0x43 then
      (wordLanes (laneBits r) (rowCtx s r).b.data).map fun (b : Nat) => (ea + ((b * n : Nat) : Int), n, n)
    else [(ea, n, n)]) = _
  simp only [counter, wordLanes_eq_map, List.map_map]
  rfl

/-- R370: an access of a firing whose checks pass is aligned and not below the scratchpad. -/
theorem fires_access {s : State} {i : Instr} {code : Nat} {r : Row} (h : Fires s i code r) {a : Int} {n k : Nat}
    (mem : (a, n, k) ∈ (rowCtx s r).accesses code) : 0 ≤ a ∧ (k : Int) ∣ a := by
  have none_ := h.address
  rw [RowCtx.badAddress, Option.map_eq_none_iff, List.find?_eq_none] at none_
  have fine := none_ _ mem
  simp only [accessBad, Bool.or_eq_true, decide_eq_true_eq, not_or, not_lt, not_not] at fine
  obtain ⟨⟨low, aligned⟩, -⟩ := fine
  exact ⟨low, Int.dvd_of_emod_eq_zero aligned⟩

theorem noteWords_change {s u : State} (r : Row) (code : Nat) (sched : u.sched = s.sched) :
    RowChange u (u.noteWords (rowCtx s r) code) (peOf u) (regionOf u) (spadOf u) := by
  obtain ⟨units, spad⟩ := foldl_same spNote_same ((rowCtx s r).words code) (u.cell u.sched.firing.cell)
  have firing : (rowCtx s r).f = u.sched.firing := congrArg Sched.firing sched.symm
  have h := rowChange_of_sameUnits (f := fun x => ((rowCtx s r).words code).foldl CellSt.spNote x) units
  rw [spad] at h
  rw [State.noteWords, firing]
  exact h

/-- A firing whose checks pass and whose words have been noted (R113). -/
theorem noted_change (s : State) (r : Row) (code : Nat) :
    RowChange s ((fired s r code).noteWords (rowCtx s r) code) (peOf s) (regionOf s) (spadOf s) := by
  have h := fired_change s r code
  have k := noteWords_change (u := fired s r code) r code h.sched
  rw [h.pe, h.region, h.spad] at k
  exact h.trans k

/-! ### Residues of several quarters (R67, R386) -/

theorem firstBad_resBits (n : Nat) : ∀ d q : Nat, firstBad d (resBits d n) n q = none := by
  induction n with
  | zero => exact fun d q => rfl
  | succ n ih =>
    intro d q
    have low := (quarterRes d 0).isLt
    have own : BitVec.ofNat 2 ((quarterRes d 0).toNat + 4 * resBits (d / 65536) n) = quarterRes d 0 := by
      apply BitVec.eq_of_toNat_eq
      rw [BitVec.toNat_ofNat]
      omega
    have rest : ((quarterRes d 0).toNat + 4 * resBits (d / 65536) n) / 4 = resBits (d / 65536) n := by omega
    rw [resBits, firstBad]
    simp only [own, rest, if_true]
    exact ih _ _

theorem resBits_lt (n : Nat) : ∀ d : Nat, resBits d n < 4 ^ n := by
  induction n with
  | zero => intro d; exact Nat.one_pos
  | succ n ih =>
    intro d
    have low := (quarterRes d 0).isLt
    have high := ih (d / 65536)
    rw [resBits, Nat.pow_succ]
    omega

theorem srcBad_resOf (w : Word) : srcBad w (resOf w) = none := by
  rw [srcBad, resOf, toNat_ofNat_of_lt (resBits_lt 4 w.toNat), firstBad_resBits]

theorem quarterRes_mod {d n : Nat} : quarterRes (d % 65536 ^ (n + 1)) 0 = quarterRes d 0 := by
  have : 65536 ∣ 65536 ^ (n + 1) := Dvd.intro_left _ (Nat.pow_succ ..).symm
  simp only [quarterRes, res3, Nat.pow_zero, Nat.div_one, Nat.mod_mod_of_dvd _ this]

theorem resBits_mod (n : Nat) : ∀ d : Nat, resBits (d % 65536 ^ n) n = resBits d n := by
  induction n with
  | zero => exact fun d => rfl
  | succ n ih =>
    intro d
    rw [resBits, resBits, quarterRes_mod, Nat.pow_succ, Nat.mul_comm (65536 ^ n), Nat.mod_mul_right_div_self, ih]

/-- The residues of some quarters are those of the number that they hold. -/
theorem resBits_slice (k : Nat) : ∀ (n N d : Nat), k + n ≤ N → resBits d N / 4 ^ k % 4 ^ n = resBits (d / 65536 ^ k) n := by
  induction k with
  | zero =>
    intro n
    induction n with
    | zero => intro N d _; simp [resBits, Nat.mod_one]
    | succ n ih =>
      intro N d h
      obtain ⟨N, rfl⟩ := Nat.exists_eq_succ_of_ne_zero (show N ≠ 0 by omega)
      have low := (quarterRes d 0).isLt
      have rest := ih N (d / 65536) (by omega)
      simp only [resBits, Nat.pow_zero, Nat.div_one] at rest ⊢
      rw [Nat.pow_succ, Nat.mul_comm (4 ^ n), Nat.mod_mul, Nat.add_mul_mod_self_left, Nat.mod_eq_of_lt low,
        Nat.add_mul_div_left _ _ (by decide), Nat.div_eq_of_lt low, Nat.zero_add, rest]
  | succ k ih =>
    intro n N d h
    obtain ⟨N, rfl⟩ := Nat.exists_eq_succ_of_ne_zero (show N ≠ 0 by omega)
    have low := (quarterRes d 0).isLt
    rw [resBits, Nat.pow_succ, Nat.mul_comm (4 ^ k), ← Nat.div_div_eq_div_mul, Nat.add_mul_div_left _ _ (by decide),
      Nat.div_eq_of_lt low, Nat.zero_add, ih n N _ (by omega), Nat.div_div_eq_div_mul, Nat.pow_succ, Nat.mul_comm 65536]

/-! ### The image of a weight bank (R168, R376) -/

section
variable (v : Nat) (j : Fin 8)

theorem bankOfImage_elem : (bankOfImage v).elem[j.val] = BitVec.ofNat 64 (v / 256 ^ (8 * j.val)) := by
  rw [byte_pow]
  simp [bankOfImage, ← Nat.mul_assoc]

theorem bankOfImage_res : (bankOfImage v).res.extractLsb' (8 * j.val) 8 = resOf (bankOfImage v).elem[j.val] := by
  have at_ : 4 * j.val + 4 ≤ 32 := by omega
  have bytes : (256 : Nat) ^ 64 = 65536 ^ (4 * j.val) * 65536 ^ (32 - 4 * j.val) := by
    rw [← Nat.pow_add, Nat.add_sub_cancel' (by omega)]
    norm_num
  have place : (2 : Nat) ^ (8 * j.val) = 4 ^ (4 * j.val) := by
    rw [show (4 : Nat) = 2 ^ 2 from rfl, ← Nat.pow_mul]
    congr 1
    omega
  have word : (256 : Nat) ^ (8 * j.val) = 65536 ^ (4 * j.val) := by
    rw [show (65536 : Nat) = 256 ^ 2 from rfl, ← Nat.pow_mul]
    congr 1
    omega
  have inside : (65536 : Nat) ^ 4 ∣ 65536 ^ (32 - 4 * j.val) := Nat.pow_dvd_pow _ (by omega)
  apply BitVec.eq_of_toNat_eq
  rw [bankOfImage_elem, resOf, BitVec.extractLsb'_toNat, Nat.shiftRight_eq_div_pow, BitVec.toNat_ofNat, BitVec.toNat_ofNat]
  show (BitVec.ofNat 64 (resBits (v % 256 ^ 64) 32)).toNat / _ % 4 ^ 4 = _ % 4 ^ 4
  rw [toNat_ofNat_of_lt (resBits_lt 32 _), place, resBits_slice _ _ _ _ at_, bytes, Nat.mod_mul_right_div_self, word,
    Nat.mod_eq_of_lt (resBits_lt 4 _), ← resBits_mod, Nat.mod_mod_of_dvd _ inside]
  rfl

theorem bankOfImage_sound : srcBad (bankOfImage v).elem[j.val] ((bankOfImage v).res.extractLsb' (8 * j.val) 8) = none := by
  rw [bankOfImage_res, srcBad_resOf]

end

/-- R168: the fields of a weight bank from the bytes of its image. -/
theorem bankOfImage_bytes (m : Memory) (a : Nat) :
    let b := bankOfImage (leNat (mread m a 96))
    (∀ j : Fin 8, b.elem[j.val] = mword m (a + 8 * j.val)) ∧
    (∀ j : Fin 8, (b.rsc[j.val]).toNat = leNat (mread m (a + 64 + 2 * j.val) 2)) ∧
    b.t.toNat = leNat (mread m (a + 80) 4) ∧ b.fmt.toNat = (mget m (a + 84)).toNat % 16 := by
  refine ⟨fun j => ?_, fun j => ?_, ?_, ?_⟩
  · rw [bankOfImage_elem, mword, ← leNat_mread_slice m (8 * j.val) 8 96 a (by omega)]
    exact (ofNat_mod_two_pow _).symm
  · have place : (2 : Nat) ^ (16 * j.val) = 256 ^ (2 * j.val) := by rw [byte_pow, ← Nat.mul_assoc]
    rw [Nat.add_assoc, ← leNat_mread_slice m (64 + 2 * j.val) 2 96 a (by omega), Nat.pow_add, ← Nat.div_div_eq_div_mul, ← place]
    simp [bankOfImage]
  · rw [← leNat_mread_slice m 80 4 96 a (by decide)]
    exact BitVec.toNat_ofNat ..
  · have byte : leNat (mread m (a + 84) 1) = (mget m (a + 84)).toNat := by simp [mread, leNat]
    rw [← byte, ← leNat_mread_slice m 84 1 96 a (by decide), Nat.mod_mod_of_dvd _ (by decide)]
    exact BitVec.toNat_ofNat ..

/-! ### Rows of the accumulators and weight banks (R95 to R98, R376, R377, R382 to R384) -/

theorem row_runs {s : State} {i : Instr} {code : Nat} {r : Row} (arm : Out) {eff : RowCtx → State → State} (named : exec i s = arm)
    (run : arm = s.fireRow i code r eff) (fires : Fires s i code r) : exec i s = .next (eff (rowCtx s r) (fired s r code)) :=
  named.trans (run.trans (fireRow_ready fires eff))

/-- R35: a guarded row with a false guard has no effect. -/
theorem unguarded_nothing {s : State} {i : Instr} {code : Nat} {r : Row} (arm : Out) {eff : RowCtx → State → State}
    (named : exec i s = arm) (run : arm = s.fireRow i code r fun cx u => if !cx.guard then u else eff cx u)
    (closed : (rowCtx s r).guard = false) (fires : Fires s i code r) : ∃ t, exec i s = .next t ∧ RowNothing s t := by
  refine ⟨fired s r code, ?_, (fired_change s r code).nothing⟩
  rw [row_runs arm named run fires, closed]
  rfl

theorem guarded_runs {s : State} {i : Instr} {code : Nat} {r : Row} (arm : Out) {eff : RowCtx → State → State}
    (named : exec i s = arm) (run : arm = s.fireRow i code r fun cx u => if !cx.guard then u else eff cx u)
    (opened : (rowCtx s r).guard = true) (fires : Fires s i code r) :
    exec i s = .next (eff (rowCtx s r) (fired s r code)) := by
  rw [row_runs arm named run fires, opened]
  rfl

/-- R380: a firing that puts an accumulator row into a landing slot. -/
theorem putAcc_result (s : State) (i : Instr) (r : Row) (code : Nat) (a : Acc) (fresh : Flags) :
    RowResult s ((fired s r code).putAcc (rowCtx s r) i a fresh) r .dot 5 (.acc a) (peOf s) fresh :=
  rowResult_addSlot (fired_change s r code) i r .dot 5 (.acc a) fresh

theorem wld_spec {s : State} {r : Row} (opened : (rowCtx s r).guard = true) (fires : Fires s (.rowWld r) 0x48 r) :
    ∃ t, exec (.rowWld r) s = .next t ∧ RowResult s t r .wld 8
      (.bank (bankOfImage (leNat (mread (spadOf s) (rowEa s r).toNat 96)))) (peOf s) 0 := by
  have mem := fires_memSource fires rfl rfl
  refine ⟨_, guarded_runs (execRowWld r s) rfl rfl opened fires, ?_⟩
  have access : (rowCtx s r).accesses 0x48 = [(rowEa s r, 96, 8)] := accesses_eq s mem rfl
  rw [access]
  exact rowResult_addSlot (noted_change s r 0x48) (.rowWld r) r .wld 8 _ 0

theorem wsw_spec {s : State} {r : Row} (fires : Fires s (.rowWsw r) 0x49 r) :
    ∃ t, exec (.rowWsw r) s = .next t ∧ RowFrame s t ∧ peOf t = { peOf s with act := !(peOf s).act } ∧ regionOf t = regionOf s := by
  have start := fired_change s r 0x49
  have turned := rowChange_modPe (fired s r 0x49) fun e => { e with act := !e.act }
  rw [start.pe, start.region, start.spad, start.sched] at turned
  have whole := start.trans turned
  exact ⟨_, row_runs (execRowWsw r s) rfl rfl fires, whole.toRowFrame, whole.pe, whole.region⟩

/-! ### The outputs of an accumulator row (R61, R384) -/

/-- Output `j` of an accumulator row. -/
def outOf (a : Acc) (j : Nat) : BitVec 32 := a.data.extractLsb' (32 * j) 32

theorem outs_eq_map (a : Acc) : a.outs = (List.range 8).map fun j => (outOf a j).toNat := by
  simp only [Acc.outs, lanes_eq_map, outOf, BitVec.extractLsb'_toNat, Nat.shiftRight_eq_div_pow]

theorem outOf_accOf {l : List (Nat × Flags)} {int : Bool} {fl : Flags} {j : Nat} (eight : l.length = 8) (h : j < l.length) :
    outOf (accOf l int fl) j = BitVec.ofNat 32 l[j].1 := by
  have small : joinLanes 32 (l.map (·.1)) < 2 ^ 256 := by
    have := joinLanes_lt 32 (l.map (·.1))
    rwa [List.length_map, eight] at this
  apply BitVec.eq_of_toNat_eq
  rw [outOf, BitVec.extractLsb'_toNat, Nat.shiftRight_eq_div_pow, accOf, toNat_ofNat_of_lt small,
    joinLanes_lane 32 _ j (by simpa using h), List.getElem_map, BitVec.toNat_ofNat]

theorem accOf_int (l : List (Nat × Flags)) (int : Bool) (fl : Flags) : (accOf l int fl).int = int := rfl

theorem accOf_flags (l : List (Nat × Flags)) (int : Bool) (fl : Flags) : (accOf l int fl).flags = fl := rfl

theorem flagsOf_zero {α : Type} (l : List (α × Flags)) (h : ∀ p ∈ l, p.2 = 0) : flagsOf l = 0 := by
  have step : ∀ f : Flags, l.foldl (fun f p => f ||| p.2) f = f := by
    induction l with
    | nil => exact fun f => rfl
    | cons p t ih =>
      intro f
      rw [List.foldl_cons, h p (by simp), show f ||| (0 : Flags) = f from BitVec.or_zero]
      exact ih (fun q hq => h q (by simp [hq])) f
  exact step 0

theorem intOutput_value (x y : BitVec 32) : BitVec.ofNat 32 (intOutput x.toNat y.toInt).1 = x + y := by
  show BitVec.ofNat 32 (wrapN 32 (sval 32 x.toNat + y.toInt)) = _
  rw [ofNat_wrapN, sval_toNat, BitVec.ofInt_add, BitVec.ofInt_toInt, BitVec.ofInt_toInt]

theorem intOutput_flags {x y : BitVec 32} (h : BitVec.saddOverflow x y = false) : (intOutput x.toNat y.toInt).2 = 0 := by
  simp only [BitVec.saddOverflow, Bool.or_eq_false_iff, decide_eq_false_iff_not] at h
  show flagIf (sval 32 x.toNat + y.toInt < -2 ^ 31 || 2 ^ 31 ≤ sval 32 x.toNat + y.toInt) flOF = 0
  rw [sval_toNat, decide_eq_false (by omega), decide_eq_false (by omega)]
  rfl

section
variable (s : State) (r : Row)

/-- R384: the lane of A that an ACADD adds to output `j`. -/
def addedLane (j : Nat) : BitVec 32 :=
  if r.aux.toNat.testBit 2 ∨ j % 2 = 0 then laneOf 32 0 (rowCtx s r).a.data else laneOf 32 1 (rowCtx s r).a.data

/-- R384: whether an ACADD adds to output `j`. -/
def addsTo (j : Nat) : Prop := r.aux.toNat.testBit 2 = true ∨ j / 2 = r.aux.toNat % 4

/-- R384: what an ACADD leaves as output `j`. -/
def acaddOut (j : Nat) : Nat × Flags := (rowCtx s r).addend j (outOf (rowCtx s r).accSeen j).toNat

theorem acaddOuts_eq_map : (rowCtx s r).accSeen.outs.mapIdx (rowCtx s r).addend = (List.range 8).map (acaddOut s r) := by
  rw [outs_eq_map]
  apply List.ext_getElem
  · simp
  · intro j h k
    simp [acaddOut]

theorem addedLane_toNat (j : Nat) : (addedLane s r j).toNat =
    if (decide (r.aux.toNat / 4 % 2 = 1) || decide (j % 2 = 0)) = true then (rowCtx s r).a.data.toNat % 2 ^ 32
    else (rowCtx s r).a.data.toNat / 2 ^ 32 := by
  have whole := (rowCtx s r).a.data.isLt
  have bit : r.aux.toNat.testBit 2 = decide (r.aux.toNat / 4 % 2 = 1) := Nat.testBit_eq_decide_div_mod_eq
  unfold addedLane
  rw [bit]
  simp only [decide_eq_true_eq, Bool.or_eq_true]
  split
  · rw [laneOf_toNat, Nat.mul_zero, Nat.pow_zero, Nat.div_one]
  · rw [laneOf_toNat, Nat.mul_one]
    omega

theorem acaddOut_eq (j : Nat) [Decidable (addsTo r j)] : acaddOut s r j =
    if ¬ addsTo r j then ((outOf (rowCtx s r).accSeen j).toNat, 0)
    else if (rowCtx s r).accSeen.int = true then
      intOutput (outOf (rowCtx s r).accSeen j).toNat (addedLane s r j).toInt
    else fmtF32.finish { mode := 0 }
      (sumFp 0 [fmtF32.value (outOf (rowCtx s r).accSeen j).toNat, fmtF32.value (addedLane s r j).toNat]) := by
  have bit : r.aux.toNat.testBit 2 = decide (r.aux.toNat / 4 % 2 = 1) := Nat.testBit_eq_decide_div_mod_eq
  have left : (!decide (r.aux.toNat / 4 % 2 = 1) && decide (j / 2 ≠ r.aux.toNat % 4)) = true ↔ ¬ addsTo r j := by
    rw [addsTo, bit]
    simp
  have value : sval 32 (addedLane s r j).toNat = (addedLane s r j).toInt := sval_toNat _
  rw [← value, addedLane_toNat]
  simp only [← left]
  rfl

theorem acadd_outputs (fl : Flags) :
    let a := accOf ((List.range 8).map (acaddOut s r)) (rowCtx s r).accSeen.int fl
    ∀ j < 8, (¬ addsTo r j → outOf a j = outOf (rowCtx s r).accSeen j) ∧
      (addsTo r j → (rowCtx s r).accSeen.int = true → outOf a j = outOf (rowCtx s r).accSeen j + addedLane s r j) ∧
      (addsTo r j → (rowCtx s r).accSeen.int = false → outOf a j = BitVec.ofNat 32 (fmtF32.finish { mode := 0 }
        (sumFp 0 [fmtF32.value (outOf (rowCtx s r).accSeen j).toNat, fmtF32.value (addedLane s r j).toNat])).1) := by
  classical
  intro a j h
  have out : outOf a j = BitVec.ofNat 32 (acaddOut s r j).1 := by
    rw [outOf_accOf (by simp) (by simpa using h), List.getElem_map, List.getElem_range]
  rw [out, acaddOut_eq]
  refine ⟨fun miss => ?_, fun hit int => ?_, fun hit float => ?_⟩
  · rw [if_pos miss, BitVec.ofNat_toNat, BitVec.setWidth_eq]
  · rw [if_neg (not_not_intro hit), if_pos int, intOutput_value]
  · rw [if_neg (not_not_intro hit), if_neg (by simp [float])]

theorem acadd_flags (int : (rowCtx s r).accSeen.int = true)
    (within_ : ∀ j < 8, addsTo r j → BitVec.saddOverflow (outOf (rowCtx s r).accSeen j) (addedLane s r j) = false) :
    flagsOf ((List.range 8).map (acaddOut s r)) = 0 := by
  classical
  refine flagsOf_zero _ fun p hp => ?_
  obtain ⟨j, hj, rfl⟩ := List.mem_map.1 hp
  rw [acaddOut_eq]
  by_cases hit : addsTo r j
  · rw [if_neg (not_not_intro hit), if_pos int, intOutput_flags (within_ j (List.mem_range.1 hj) hit)]
  · rw [if_pos hit]

end

theorem acadd_runs {s : State} {r : Row} (opened : (rowCtx s r).guard = true) (fires : Fires s (.rowAcadd r) 0x4e r) :
    let outs := (List.range 8).map (acaddOut s r)
    let a := accOf outs (rowCtx s r).accSeen.int ((rowCtx s r).accSeen.flags ||| flagsOf outs ||| (rowCtx s r).a.flags)
    ∃ t, exec (.rowAcadd r) s = .next t ∧
      RowResult s t r .dot 5 (.acc a) (peOf s) (newFlags (flagsOf outs) (rowCtx s r).a.flags) := by
  rw [← acaddOuts_eq_map]
  exact ⟨_, guarded_runs (execRowAcadd r s) rfl rfl opened fires, putAcc_result ..⟩

theorem landed_mod (s : State) (r : Row) (n : Nat) :
    (rowCtx s r).landed (n % 8) = (peOf s).acc[n % 8]'(Nat.mod_lt n (by decide)) := by
  show (peOf s).acc[n % 8 % 8] = _
  simp only [Nat.mod_mod]

theorem acrd_value (a : Acc) (q : Nat) :
    BitVec.ofNat 64 (a.data.toNat / 2 ^ (64 * q)) = a.data.extractLsb' (64 * q) 64 := by
  rw [← Nat.shiftRight_eq_div_pow]
  rfl

/-- R271: ACZ types its row by the low bit of MOD. -/
theorem acz_type {s : State} {r : Row} (fires : Fires s (.rowAcz r) 0x4d r) : (r.mod.toNat == 1) = r.mod.getLsbD 0 := by
  have ok : (decide (r.mod.toNat ≤ 1) && r.aux.toNat == 0) = true := fires_modAux fires rfl
  obtain ⟨small, -⟩ := Bool.and_eq_true_iff.1 ok
  have small := of_decide_eq_true small
  rw [BitVec.getLsbD, Nat.testBit_zero, Nat.mod_eq_of_lt (by omega)]
  rfl

/-- Settles O46: each row is one firing whose checks pass; the images and outputs are read and written in their own bytes and lanes. -/
theorem arrayRows : Obligations.ArrayRows := by
  intro r s
  refine ⟨fun closed p hp => ?_, fun opened fires => ?_, wsw_spec, fun fires => ?_, fun opened fires => ?_, fun opened fires => ?_⟩
  · simp only [List.mem_cons, List.not_mem_nil, or_false] at hp
    rcases hp with rfl | rfl | rfl | rfl | rfl
    · exact unguarded_nothing (execRowWld r s) rfl rfl closed
    · exact unguarded_nothing (execRowAcz r s) rfl rfl closed
    · exact unguarded_nothing (execRowAcadd r s) rfl rfl closed
    · exact unguarded_nothing (dotRow (.rowDot r) 0x4a r false s) rfl rfl closed
    · exact unguarded_nothing (dotRow (.rowDots r) 0x4b r true s) rfl rfl closed
  · obtain ⟨t, run, result⟩ := wld_spec opened fires
    obtain ⟨elem, rsc, scale, fmt⟩ := bankOfImage_bytes (spadOf s) (rowEa s r).toNat
    exact ⟨t, _, run, result, elem, rsc, scale, fmt, bankOfImage_sound _⟩
  · refine ⟨_, row_runs (execRowAcrd r s) rfl rfl fires, ?_⟩
    rw [← acrd_value, ← landed_mod]
    exact rowResult_putVal (code := 0x4c) (fired_change s r 0x4c) rfl (.rowAcrd r) _ 0
  · refine ⟨_, guarded_runs (execRowAcz r s) rfl rfl opened fires, ?_⟩
    rw [← acz_type fires]
    exact putAcc_result ..
  · obtain ⟨t, run, result⟩ := acadd_runs opened fires
    refine ⟨t, _, _, run, result, accOf_int .., acadd_outputs s r _, fun int within_ => ?_⟩
    rw [accOf_flags, acadd_flags s r int within_, newFlags_zero]
    exact ⟨congrArg (· ||| (rowCtx s r).a.flags) BitVec.or_zero, rfl⟩

/-! ### Load and store rows (R370 to R375) -/

theorem lane_bytes (r : Row) : (256 : Nat) ^ (laneBits r / 8) = 2 ^ laneBits r := by
  rcases laneBits_cases r with h | h | h | h <;> rw [h] <;> norm_num

/-- R370: the element at an address. -/
def elemAt (s : State) (r : Row) (a : Int) : Nat := leNat (mread (spadOf s) a.toNat (laneBits r / 8))

theorem elemAt_lt (s : State) (r : Row) (a : Int) : elemAt s r a < 2 ^ laneBits r :=
  lane_bytes r ▸ leNat_mread_lt _ _ _

theorem elements_eq (s : State) {r : Row} {code : Nat} (mem : srcMem r.srcA = true) (plain : code = 0x40 ∨ code = 0x44) :
    ((rowCtx s r).accesses code).map (rowCtx s r).x.spElem = [elemAt s r (rowEa s r)] := by
  rcases plain with rfl | rfl
  · rw [accesses_eq s mem rfl]
    rfl
  · rw [accesses_eq s mem rfl]
    rfl

/-- R373: the address of lane `j` of an indexed row. -/
def laneEa (s : State) (r : Row) (j : Nat) : Int :=
  rowEa s r + ((laneOf (laneBits r) j (rowCtx s r).b.data).toNat * (laneBits r / 8) : Nat)

theorem indexed_accesses (s : State) {r : Row} {code : Nat} (mem : srcMem r.srcA = true) (plain : code = 0x42 ∨ code = 0x43) :
    (rowCtx s r).accesses code =
      (List.range (64 / laneBits r)).map fun j => (laneEa s r j, laneBits r / 8, laneBits r / 8) := by
  rcases plain with rfl | rfl
  · exact accesses_eq s mem rfl
  · exact accesses_eq s mem rfl

theorem ld_spec {s : State} {r : Row} (fires : Fires s (.rowLd r) 0x40 r) : ∃ t, exec (.rowLd r) s = .next t ∧
    RowResult s t r .mem 3 (.reg (FVal.of (BitVec.ofNat 64 (elemAt s r (rowEa s r))))) (peOf s) 0 := by
  refine ⟨_, row_runs (execRowLd r s) rfl rfl fires, ?_⟩
  rw [elements_eq s (fires_memSource fires rfl rfl) (.inl rfl)]
  exact rowResult_putVal (code := 0x40) (noted_change s r 0x40) rfl (.rowLd r) _ 0

theorem ldb_spec {s : State} {r : Row} (fires : Fires s (.rowLdb r) 0x44 r) : ∃ t v, exec (.rowLdb r) s = .next t ∧
    RowResult s t r .mem 3 (.reg (FVal.of v)) (peOf s) 0 ∧
    ∀ j < 64 / laneBits r, (laneOf (laneBits r) j v).toNat = elemAt s r (rowEa s r) := by
  refine ⟨_, laneWord (laneBits r) (List.replicate (64 / laneBits r) (elemAt s r (rowEa s r))),
    row_runs (execRowLdb r s) rfl rfl fires, ?_, fun j inside => ?_⟩
  · rw [elements_eq s (fires_memSource fires rfl rfl) (.inr rfl)]
    exact rowResult_putVal (code := 0x44) (noted_change s r 0x44) rfl (.rowLdb r) _ 0
  · rw [laneOf_laneWord _ (by simpa using Nat.mul_div_le 64 _) (by simpa using inside), List.getElem_replicate,
      toNat_ofNat_of_lt (elemAt_lt s r _)]

theorem ldx_spec {s : State} {r : Row} (fires : Fires s (.rowLdx r) 0x42 r) : ∃ t v, exec (.rowLdx r) s = .next t ∧
    RowResult s t r .mem 3 (.reg (resultVal v [(rowCtx s r).b] 0)) (peOf s) 0 ∧
    ∀ j < 64 / laneBits r, (laneOf (laneBits r) j v).toNat = elemAt s r (laneEa s r j) := by
  refine ⟨_, laneWord (laneBits r) ((List.range (64 / laneBits r)).map fun j => elemAt s r (laneEa s r j)),
    row_runs (execRowLdx r s) rfl rfl fires, ?_, fun j inside => ?_⟩
  · rw [indexed_accesses s (fires_memSource fires rfl rfl) (.inl rfl), List.map_map, State.putResult, newFlags_zero]
    exact rowResult_putVal (code := 0x42) (noted_change s r 0x42) rfl (.rowLdx r) _ 0
  · rw [laneOf_laneWord_map _ inside, toNat_ofNat_of_lt (elemAt_lt s r _)]

/-! ### The sink of a stored value (R36) -/

/-- R36: a region slot after the flags of a stored value. -/
def sunk (g : Region) (fl : Flags) : Region :=
  if trapsFlags fl g.ten then { g with sink := g.sink ||| fl }.halt cArith else { g with sink := g.sink ||| fl }

theorem sinkFlags_change {s u : State} (r : Row) (fl : Flags) (sched : u.sched = s.sched) :
    RowChange u (u.sinkFlags (rowCtx s r) fl) (peOf u) (sunk (regionOf u) fl) (spadOf u) := by
  have firing : (rowCtx s r).f = u.sched.firing := congrArg Sched.firing sched.symm
  rw [State.sinkFlags, firing]
  exact rowChange_modRegion u fun g => sunk g fl

theorem sunk_quiet {g : Region} {fl : Flags} (h : fl &&& g.ten = 0) : sunk g fl = { g with sink := g.sink ||| fl } := by
  rw [sunk, trapsFlags, h]
  rfl

/-- R36, R37: a region that is halted ends at its limit or at an iteration boundary before it. -/
theorem halt_spec (g : Region) (c : Cause) : (g.halt c).cause = (if g.cause = 0 then c else g.cause) ∧
    ∃ e, (g.halt c).stopRc = some e ∧ e ≤ g.endAt ∧ (e = g.endAt ∨ e % g.ii.toNat = 0) := by
  refine ⟨rfl, _, rfl, Nat.min_le_left .., ?_⟩
  rcases Nat.le_total g.endAt (((g.rc.toNat - 1) / g.ii.toNat + 1) * g.ii.toNat) with low | high
  · exact .inl (Nat.min_eq_left low)
  · exact .inr ((congrArg (· % g.ii.toNat) (Nat.min_eq_right high)).trans (Nat.mul_mod_left ..))

theorem sunk_trapped {g : Region} {fl : Flags} (h : fl &&& g.ten ≠ 0) : (sunk g fl).sink = g.sink ||| fl ∧
    (sunk g fl).cause = (if g.cause = 0 then cArith else g.cause) ∧
    ∃ e, (sunk g fl).stopRc = some e ∧ e ≤ g.endAt ∧ (e = g.endAt ∨ e % g.ii.toNat = 0) := by
  rw [sunk, trapsFlags, if_pos (by simpa using h)]
  exact ⟨rfl, halt_spec { g with sink := g.sink ||| fl } cArith⟩

/-- What a store with a true guard leaves: its bytes, its flags in the sink, and the rest alone (R36, R374, R375). -/
structure StoreEnds (s : State) (i : Instr) (t : State) (fl : Flags) (m : Memory) : Prop where
  run : exec i s = .next t
  change : RowChange s t (peOf s) (sunk (regionOf s) fl) m

theorem storeEnds_parts {s t : State} {i : Instr} {fl : Flags} {m : Memory} (h : StoreEnds s i t fl m) :
    (exec i s = .next t ∧ RowFrame s t ∧ peOf t = peOf s ∧
      (fl &&& (regionOf s).ten = 0 → regionOf t = { regionOf s with sink := (regionOf s).sink ||| fl }) ∧
      (fl &&& (regionOf s).ten ≠ 0 → (regionOf t).sink = (regionOf s).sink ||| fl ∧
        (regionOf t).cause = (if (regionOf s).cause = 0 then cArith else (regionOf s).cause) ∧
        ∃ e, (regionOf t).stopRc = some e ∧ e ≤ (regionOf s).endAt ∧
          (e = (regionOf s).endAt ∨ e % (regionOf s).ii.toNat = 0))) ∧
    (t.cell s.sched.firing.cell).spad = m := by
  obtain ⟨run, change⟩ := h
  have spad := change.spad
  rw [spadOf, change.sched] at spad
  rw [change.region]
  exact ⟨⟨run, change.toRowFrame, change.pe, sunk_quiet, sunk_trapped⟩, spad⟩

theorem store_ends {s : State} {r : Row} {i : Instr} {code : Nat} (arm : Out) {l : RowCtx → List ((Int × Nat × Nat) × Nat)}
    {fl : RowCtx → Flags} (named : exec i s = arm)
    (run : arm = s.fireRow i code r fun cx u => if !cx.guard then u else
      (u.modCell cx.f.cell fun x => x.spStores (l cx)).sinkFlags cx (fl cx))
    (opened : (rowCtx s r).guard = true) (fires : Fires s i code r) : ∃ t, StoreEnds s i t (fl (rowCtx s r))
      ((l (rowCtx s r)).foldl (fun m p => mwrite m p.1.1.toNat (leBytes p.2 p.1.2.1)) (spadOf s)) := by
  have start := fired_change s r code
  obtain ⟨units, spad⟩ := spStores_same ((fired s r code).cell (fired s r code).sched.firing.cell) (l (rowCtx s r))
  have stored := rowChange_of_sameUnits (f := fun x => x.spStores (l (rowCtx s r))) units
  have before : ((fired s r code).cell (fired s r code).sched.firing.cell).spad = spadOf s := start.spad
  rw [spad, before, start.pe, start.region, start.sched] at stored
  have whole := start.trans stored
  have sink := sinkFlags_change r (fl (rowCtx s r)) whole.sched
  rw [whole.pe, whole.region, whole.spad] at sink
  exact ⟨_, guarded_runs arm named run opened fires, whole.trans sink⟩

/-- R374: the bytes that an ST leaves. -/
theorem st_spec {s : State} {r : Row} (opened : (rowCtx s r).guard = true) (fires : Fires s (.rowSt r) 0x41 r) :
    ∃ t, StoreEnds s (.rowSt r) t (rowCtx s r).b.flags
      (mwrite (spadOf s) (rowEa s r).toNat (leBytes (rowCtx s r).b.data.toNat (laneBits r / 8))) := by
  have h := store_ends (execRowSt r s) (l := fun cx => (cx.accesses 0x41).map fun a => (a, cx.b.data.toNat))
    (fl := fun cx => cx.b.flags) rfl rfl opened fires
  have access : (rowCtx s r).accesses 0x41 = [(rowEa s r, laneBits r / 8, laneBits r / 8)] :=
    accesses_eq s (fires_memSource fires rfl rfl) rfl
  rw [access] at h
  exact h

/-- R375: the bytes that an STX leaves. -/
theorem stx_spec {s : State} {r : Row} (opened : (rowCtx s r).guard = true) (fires : Fires s (.rowStx r) 0x43 r) :
    ∃ t, StoreEnds s (.rowStx r) t (rowCtx s r).c.flags
      (storesAt (spadOf s) (fun j => (laneEa s r j).toNat) (fun j => (laneOf (laneBits r) j (rowCtx s r).c.data).toNat)
        (laneBits r / 8) (64 / laneBits r)) := by
  have h := store_ends (execRowStx r s) (l := fun cx => (cx.accesses 0x43).zip (wordLanes (rowWidth r) cx.c.data))
    (fl := fun cx => cx.c.flags) rfl rfl opened fires
  rw [indexed_accesses s (fires_memSource fires rfl rfl) (.inr rfl), show rowWidth r = laneBits r from rfl, wordLanes_eq_map,
    List.zip_map', List.foldl_map] at h
  exact h

theorem laneEa_aligned {s : State} {r : Row} (fires : Fires s (.rowStx r) 0x43 r) {j : Nat} (h : j < 64 / laneBits r) :
    laneBits r / 8 ∣ (laneEa s r j).toNat := by
  obtain ⟨low, aligned⟩ := fires_access fires (indexed_accesses s (fires_memSource fires rfl rfl) (.inr rfl) ▸
    List.mem_map_of_mem (f := fun j => (laneEa s r j, laneBits r / 8, laneBits r / 8)) (List.mem_range.2 h))
  rw [← Int.natCast_dvd_natCast, Int.toNat_of_nonneg low]
  exact aligned

/-- Settles O45: loads read and stores write the elements that their addresses name, and nothing else of the scratchpad. -/
theorem loadAndStoreRows : Obligations.LoadAndStoreRows := by
  refine ⟨fun r s => ⟨ld_spec, ldb_spec, ldx_spec⟩, fun r s => ⟨fun closed p hp => ?_,
    fun opened wf fires => ?_, fun opened wf fires => ?_⟩⟩
  · simp only [List.mem_cons, List.not_mem_nil, or_false] at hp
    rcases hp with rfl | rfl
    · exact unguarded_nothing (execRowSt r s) rfl rfl closed
    · exact unguarded_nothing (execRowStx r s) rfl rfl closed
  · obtain ⟨t, stored⟩ := st_spec opened fires
    obtain ⟨ends, spad⟩ := storeEnds_parts stored
    refine ⟨t, ends, fun k hk => ?_, fun a outside => ?_⟩
    · rw [spad, laneOf, extractLsb'_byte]
      exact mget_mwrite_leBytes _ _ wf hk
    · rw [spad]
      exact mget_mwrite_ne _ _ _ _ (by rw [leBytes_length]; exact outside)
  · obtain ⟨t, stored⟩ := stx_spec opened fires
    obtain ⟨ends, spad⟩ := storeEnds_parts stored
    refine ⟨t, ends, fun j inside last k hk => ?_, fun a outside => ?_⟩
    · rw [spad, extractLsb'_byte]
      exact mget_storesAt _ _ _ _ wf (fun i hi => laneEa_aligned fires hi) inside last hk
    · rw [spad]
      exact mget_storesAt_ne _ _ _ _ outside

/-! ### Every fabric row is a firing (R268, R387) -/

/-- An outcome that is the firing of a row, whatever its effect. -/
def IsFiring (s : State) (i : Instr) (code : Nat) (r : Row) (o : Out) : Prop := ∃ eff, o = s.fireRow i code r eff

section
variable (s : State) (i : Instr) (code : Nat) (r : Row)

theorem fireRow_isFiring (eff : RowCtx → State → State) : IsFiring s i code r (s.fireRow i code r eff) := ⟨eff, rfl⟩

theorem laneRow2_isFiring (f : Nat → Nat → Nat → Nat) : IsFiring s i code r (laneRow2 i code r f s) := fireRow_isFiring ..

theorem laneRow1_isFiring (f : Nat → Nat → Nat) : IsFiring s i code r (laneRow1 i code r f s) := fireRow_isFiring ..

theorem wholeRow_isFiring (f : Word → Word → Word) : IsFiring s i code r (wholeRow i code r f s) := fireRow_isFiring ..

theorem predRow_isFiring (f : RowCtx → Word × Bool) (srcs : RowCtx → List FVal) :
    IsFiring s i code r (predRow i code r f srcs s) := fireRow_isFiring ..

theorem fpRow_isFiring (useC : Bool) (f : Nat → Fp → Fp → Fp → Fp × Flags) :
    IsFiring s i code r (fpRow i code r useC f s) := fireRow_isFiring ..

theorem fpExact2_isFiring (f : Fmt → Bool → Nat → Nat → Nat) : IsFiring s i code r (fpExact2 i code r f s) :=
  fireRow_isFiring ..

theorem transRow_isFiring (f : Fp → Near) : IsFiring s i code r (transRow i code r f s) := fireRow_isFiring ..

theorem dotRow_isFiring (scaled : Bool) : IsFiring s i code r (dotRow i code r scaled s) := fireRow_isFiring ..

end

theorem exec_isFiring (s : State) {i : Instr} {code : Nat} {r : Row} (parts : i.rowParts = some (code, r)) :
    IsFiring s i code r (exec i s) := by
  cases i <;> cases parts
  all_goals simp only [exec]
  case rowAdd | rowSub | rowMul | rowMulh | rowAdds | rowSubs | rowShl | rowShr | rowSar | rowMin | rowMax =>
    exact laneRow2_isFiring ..
  case rowAbs | rowPopc | rowClz => exact laneRow1_isFiring ..
  case rowAnd | rowOr | rowXor | rowAndn => exact wholeRow_isFiring ..
  case rowCmp | rowPand | rowPor | rowPnot => exact predRow_isFiring ..
  case rowFadd | rowFsub | rowFmul | rowFma | rowFms => exact fpRow_isFiring ..
  case rowFmin | rowFmax | rowFcmp => exact fpExact2_isFiring ..
  case rowFrcp | rowFrsq | rowFexp2 | rowFlog2 => exact transRow_isFiring ..
  case rowDot | rowDots => exact dotRow_isFiring ..
  all_goals exact fireRow_isFiring ..

/-! ### The checks in their order (R387) -/

section
variable {s : State} {i : Instr} {code : Nat} {r : Row} {o : Out} (fires : IsFiring s i code r o)
include fires

theorem firing_rejected (limits : i.wf = false) : o = .fault .rowRejected := by
  obtain ⟨eff, rfl⟩ := fires
  rw [State.fireRow, limits]
  rfl

theorem firing_address (limits : i.wf = true) {a : Int} (address : (rowCtx s r).badAddress code = some a) :
    o = .next (s.rowFatal (rowCtx s r) i cSpadRange (BitVec.ofInt 64 a) 0) := by
  obtain ⟨eff, rfl⟩ := fires
  have address : (s.ctxOf s.sched.firing r).badAddress code = some a := address
  simp only [State.fireRow, limits, address, Bool.not_true, Bool.false_eq_true, if_false]
  rfl

variable (limits : i.wf = true) (address : (rowCtx s r).badAddress code = none)
include limits address

theorem firing_type (types : (rowCtx s r).typeOk code = false) : o = .next (s.rowFatal (rowCtx s r) i cAccType 0 0) := by
  obtain ⟨eff, rfl⟩ := fires
  have address : (s.ctxOf s.sched.firing r).badAddress code = none := address
  have types : (s.ctxOf s.sched.firing r).typeOk code = false := types
  simp only [State.fireRow, limits, address, types, Bool.not_true, Bool.not_false, Bool.false_eq_true, if_false, if_true]
  rfl

variable (types : (rowCtx s r).typeOk code = true)
include types

theorem firing_word {a : Int} (words : (rowCtx s r).eccAt code = some a) : o = .next
    (((fired s r code).badSlot (rowCtx s r) i code).rowFails (rowCtx s r) i cMcSpadEcc (BitVec.ofInt 64 a) none) := by
  obtain ⟨eff, rfl⟩ := fires
  have address : (s.ctxOf s.sched.firing r).badAddress code = none := address
  have types : (s.ctxOf s.sched.firing r).typeOk code = true := types
  have words : (s.ctxOf s.sched.firing r).eccAt code = some a := words
  simp only [State.fireRow, limits, address, types, words, Bool.not_true, Bool.false_eq_true, if_false]
  rfl

theorem firing_read (words : (rowCtx s r).eccAt code = none) {b : ResBad} (reads : (rowCtx s r).badRead code = some b) :
    o = .next ((((fired s r code).modCell s.sched.firing.cell CellSt.countRes).badSlot (rowCtx s r) i code).rowFails
      (rowCtx s r) i cMcResidue 0 (some b)) := by
  obtain ⟨eff, rfl⟩ := fires
  have address : (s.ctxOf s.sched.firing r).badAddress code = none := address
  have types : (s.ctxOf s.sched.firing r).typeOk code = true := types
  have words : (s.ctxOf s.sched.firing r).eccAt code = none := words
  have reads : (s.ctxOf s.sched.firing r).badRead code = some b := reads
  simp only [State.fireRow, limits, address, types, words, reads, Bool.not_true, Bool.false_eq_true, if_false]
  rfl

end

/-! ### A fatal stop (R33, R161, R379) -/

theorem fatalFor_sched (s : State) (b : Binding) (k : Cause) : (s.fatalFor b k).sched = s.sched := by
  unfold State.fatalFor
  dsimp only
  split <;> rfl

theorem kernelFatal_sched (s : State) (c : Nat) (k : Cause) : (s.kernelFatal c k).sched = s.sched := by
  unfold State.kernelFatal
  split
  · rfl
  · exact fatalFor_sched ..

/-- R33, R102: a region slot that a fatal fault has stopped. -/
def failedRegion (g : Region) (c : Cause) : Region := { g.withRb with state := .failed, cause := c, cut := false }

theorem failRegion_cell (s : State) (c : Nat) (k : Fin 4) (cause : Cause) :
    (s.failRegion c k cause).sched = s.sched ∧ ∃ tr ev, (s.failRegion c k cause).cell c =
      { (s.cell c).setRegion k (failedRegion (s.cell c).region[k.val] cause) with trace := tr, events := ev } := by
  let u := s.modRegion c k fun r => failedRegion r cause
  obtain ⟨p, run⟩ : ∃ p, s.failRegion c k cause = u.emit c 0x7 p := ⟨_, rfl⟩
  have here : u.cell c = (s.cell c).setRegion k (failedRegion (s.cell c).region[k.val] cause) := cell_modCell ..
  have kept := traceOnly_emit u c 0x7 p
  have after := kept.cell
  rw [here] at after
  rw [run]
  exact ⟨kept.elsewhere.sched, _, _, after⟩

theorem peOf_of_cell {s t : State} {x : CellSt} (sched : t.sched = s.sched) (cell : t.cell s.sched.firing.cell = x) :
    peOf t = x.pe[s.sched.firing.pe.val] := by
  simp only [peOf, sched, cell]

theorem regionOf_of_cell {s t : State} {x : CellSt} (sched : t.sched = s.sched) (cell : t.cell s.sched.firing.cell = x) :
    regionOf t = x.region[s.sched.firing.k.val] := by
  simp only [regionOf, sched, cell]

/-- What a fatal fault of a firing leaves of its region, PE, stop and scratchpad. -/
theorem rowFatal_spec (s : State) (r : Row) (i : Instr) (k : Cause) (a info : Word)
    (running : (s.cell s.sched.firing.cell).stop = none) :
    let t := s.rowFatal (rowCtx s r) i k a info
    regionOf t = failedRegion (regionOf s) k ∧ peOf t = peOf s ∧
      (∃ p, (t.cell s.sched.firing.cell).stop = some p ∧ p.code = k) ∧
      (t.cell s.sched.firing.cell).spad = (s.cell s.sched.firing.cell).spad := by
  let c := s.sched.firing.cell
  let u := s.report (s.cell c).seq.id.vfid.toNat (s.rowRecord (rowCtx s r) i k 0 a info)
  have reported : u.cell c = s.cell c := (beside_report ..).cell c
  obtain ⟨sched, tr, ev, failed⟩ := failRegion_cell u c s.sched.firing.k k
  rw [reported] at failed
  have stopped := cell_stopCell (u.failRegion c s.sched.firing.k k) c k (by rw [failed]; exact running)
  intro t
  have cell : t.cell c = ((u.failRegion c s.sched.firing.k k).stopCell c k).cell c := (beside_kernelFatal ..).cell c
  have same : t.sched = s.sched := (kernelFatal_sched ..).trans sched
  rw [stopped, failed] at cell
  exact ⟨(regionOf_of_cell same cell).trans (Vector.getElem_set_self _), (peOf_of_cell same cell).trans rfl,
    by rw [cell]; exact ⟨_, rfl, rfl⟩,
    by rw [cell]; rfl⟩

/-! ### A firing that a check of what it reads fails (R91, R94, R113, R387) -/

/-- A step of a firing that at most takes a BAD landing slot. -/
structure BadSlotOnly (s t : State) : Prop where
  sched : t.sched = s.sched
  stop : (t.cell s.sched.firing.cell).stop = (s.cell s.sched.firing.cell).stop
  spad : (t.cell s.sched.firing.cell).spad = (s.cell s.sched.firing.cell).spad
  region : regionOf t = regionOf s
  pe : peOf t = { peOf s with slots := (peOf t).slots }
  slots : (peOf t).slots = (peOf s).slots ∨ ∃ l, (peOf t).slots = (peOf s).slots ++ [l] ∧ l.bad = true ∧ l.remain = 0

theorem badSlot_spec {s u : State} (r : Row) (i : Instr) (code : Nat) (h : RowChange s u (peOf s) (regionOf s) (spadOf s))
    (stop : (u.cell s.sched.firing.cell).stop = (s.cell s.sched.firing.cell).stop) :
    BadSlotOnly s (u.badSlot (rowCtx s r) i code) := by
  have spad : (u.cell s.sched.firing.cell).spad = (s.cell s.sched.firing.cell).spad := by
    have := h.spad
    rwa [spadOf, h.sched] at this
  have none_ : BadSlotOnly s u := ⟨h.sched, stop, spad, h.region, by rw [h.pe], .inl (by rw [h.pe])⟩
  have firing : (rowCtx s r).f = u.sched.firing := congrArg Sched.firing h.sched.symm
  have taken : ∀ l : LandSlot, l.bad = true → l.remain = 0 → BadSlotOnly s (u.addSlot (rowCtx s r).f l) := by
    intro l bad remain
    have added := rowChange_modPe u fun e => { e with slots := e.slots ++ [l] }
    rw [h.pe, h.region, h.spad, ← firing] at added
    have whole := h.trans added
    have cell : (u.addSlot (rowCtx s r).f l).cell s.sched.firing.cell = _ := cell_modCell u s.sched.firing.cell _
    have pe : peOf (u.addSlot (rowCtx s r).f l) = { peOf s with slots := (peOf s).slots ++ [l] } := whole.pe
    exact ⟨whole.sched, by rw [cell]; exact stop, by rw [cell]; exact spad, whole.region, by rw [pe],
      .inr ⟨l, by rw [pe], bad, remain⟩⟩
  unfold State.badSlot
  split
  · split
    · exact none_
    · exact taken _ rfl rfl
  · exact none_

/-- R37: what a failed check leaves of the firing's region, PE, stop and scratchpad. -/
theorem rowFails_spec {s v : State} (r : Row) (i : Instr) (k : Cause) (a : Word) (b : Option ResBad) (h : BadSlotOnly s v)
    (loud : s.sched.firing.quiet = false) :
    let t := v.rowFails (rowCtx s r) i k a b
    (regionOf t).cause = (if (regionOf s).cause = 0 then k else (regionOf s).cause) ∧
      (∃ n, (regionOf t).stopRc = some n ∧ n ≤ (regionOf s).endAt ∧
        (n = (regionOf s).endAt ∨ n % (regionOf s).ii.toNat = 0)) ∧
      (t.cell s.sched.firing.cell).spad = (s.cell s.sched.firing.cell).spad ∧
      (t.cell s.sched.firing.cell).stop = (s.cell s.sched.firing.cell).stop ∧
      peOf t = { peOf s with slots := (peOf t).slots } ∧
      ((peOf t).slots = (peOf s).slots ∨ ∃ l, (peOf t).slots = (peOf s).slots ++ [l] ∧ l.bad = true ∧ l.remain = 0) := by
  let c := s.sched.firing.cell
  intro t
  let u := v.report (v.cell c).seq.id.vfid.toNat ((v.rowRecord (rowCtx s r) i k 2 a 0).withBad b)
  have run : t = u.modRegion c s.sched.firing.k fun g => g.halt k := by
    show (if s.sched.firing.quiet = true then v else _) = _
    rw [loud]
    rfl
  have cell : t.cell c = (v.cell c).setRegion s.sched.firing.k ((v.cell c).region[s.sched.firing.k.val].halt k) := by
    rw [run]
    exact cell_modCell ..
  have sched : t.sched = s.sched := by
    rw [run]
    exact h.sched
  have before : (v.cell c).region[s.sched.firing.k.val] = regionOf s := (regionOf_of_cell h.sched rfl).symm.trans h.region
  have region : regionOf t = (regionOf s).halt k :=
    (regionOf_of_cell sched cell).trans ((Vector.getElem_set_self _).trans (congrArg (Region.halt · k) before))
  have pe : peOf t = peOf v := (peOf_of_cell sched cell).trans (peOf_of_cell h.sched rfl).symm
  rw [region, pe]
  exact ⟨(halt_spec _ k).1, (halt_spec _ k).2, (congrArg CellSt.spad cell).trans h.spad, (congrArg CellSt.stop cell).trans h.stop,
    h.pe, h.slots⟩

theorem fired_stop (s : State) (r : Row) (code : Nat) :
    ((fired s r code).cell s.sched.firing.cell).stop = (s.cell s.sched.firing.cell).stop := by
  rw [fired, cell_modCell, rowEvents_frame]

/-- R72: the count of a wrong residue. -/
theorem counted_change (s : State) (r : Row) (code : Nat) :
    RowChange s ((fired s r code).modCell s.sched.firing.cell CellSt.countRes) (peOf s) (regionOf s) (spadOf s) := by
  have start := fired_change s r code
  have count := rowChange_modCell (fired s r code) CellSt.countRes rfl rfl rfl
  have kept : (((fired s r code).cell (fired s r code).sched.firing.cell).countRes).spad = spadOf s := start.spad
  rw [kept, start.pe, start.region] at count
  exact start.trans count

/-- Settles O48: the first check that fails decides, and what it leaves is the stop of the region and at most a BAD slot. -/
theorem rowChecks : Obligations.RowChecks := by
  intro s i code r parts
  have fires := exec_isFiring s parts
  refine ⟨firing_rejected fires, fun limits address running => ?_, fun limits address types running => ?_,
    fun limits address types words loud => ?_, fun limits address types words reads loud => ?_⟩
  · obtain ⟨a, address⟩ := Option.ne_none_iff_exists'.1 address
    obtain ⟨region, pe, stop, spad⟩ := rowFatal_spec s r i cSpadRange (BitVec.ofInt 64 a) 0 running
    exact ⟨_, firing_address fires limits address, by rw [region]; rfl, by rw [region]; rfl, by rw [region]; rfl, pe, stop, spad⟩
  · obtain ⟨region, pe, stop, spad⟩ := rowFatal_spec s r i cAccType 0 0 running
    exact ⟨_, firing_type fires limits address types, by rw [region]; rfl, by rw [region]; rfl, by rw [region]; rfl, pe, stop, spad⟩
  · obtain ⟨a, words⟩ := Option.ne_none_iff_exists'.1 words
    exact ⟨_, firing_word fires limits address types words,
      rowFails_spec r i cMcSpadEcc _ none (badSlot_spec r i code (fired_change s r code) (fired_stop s r code)) loud⟩
  · obtain ⟨b, reads⟩ := Option.ne_none_iff_exists'.1 reads
    have stop : (((fired s r code).modCell s.sched.firing.cell CellSt.countRes).cell s.sched.firing.cell).stop =
        (s.cell s.sched.firing.cell).stop := by
      rw [cell_modCell]
      exact fired_stop s r code
    exact ⟨_, firing_read fires limits address types words reads,
      rowFails_spec r i cMcResidue 0 (some b) (badSlot_spec r i code (counted_change s r code) stop) loud⟩

end Sys2Proof.Proofs
end

section
/-! PROOFS. The cycles of a cell's regions. -/

namespace Sys2Proof.Proofs

open Sys2Proof Sys2Proof.Machine Sys2Proof.Safety Sys2Proof.Laws

/-! ### A region cycle in which nothing stops a region (R23, R33, R38) -/

theorem foldl_fixed {α β : Type} {f : α → β → α} {a : α} (l : List β) (h : ∀ b, f a b = a) : l.foldl f a = a := by
  induction l with
  | nil => rfl
  | cons b t ih => rw [List.foldl_cons, h, ih]

theorem holdRegions_unstopped {s : State} {c : Nat} (h : (s.cell c).stop = none) : s.holdRegions c = s := by
  refine foldl_fixed _ fun k => ?_
  simp [State.holdRegion, CellSt.meetsHold, h]

section
variable {s : State} {c : Nat}
  (sound : ∀ h ∈ s.shots c, (s.shotCtx h).badAddress h.code = none ∧ (s.shotCtx h).typeOk h.code = true)
include sound

theorem failRange_sound (k : Fin 4) : s.failRange c k = s := by
  have none_ : ((s.shots c).find? fun h => h.f.k = k ∧ ((s.shotCtx h).badAddress h.code).isSome) = none := by
    refine List.find?_eq_none.2 fun h hh => ?_
    simp [(sound h hh).1]
  rw [State.failRange, none_]

theorem failType_sound (k : Fin 4) : s.failType c k = s := by
  have none_ : ((s.shots c).find? fun h => h.f.k = k ∧ !(s.shotCtx h).typeOk h.code) = none := by
    refine List.find?_eq_none.2 fun h hh => ?_
    simp [(sound h hh).2]
  rw [State.failType, none_]

end

/-- An element that a list of pairs names once. -/
theorem filter_fst_lt_two {β : Type} {l : List (Nat × β)} (nodup : (l.map (·.1)).Nodup) (b : Nat) :
    (l.filter fun t => t.1 = b).length < 2 := by
  have once := List.nodup_iff_count_le_one.1 nodup b
  rw [List.count, List.countP_map, List.countP_eq_length_filter] at once
  exact Nat.lt_succ_of_le once

theorem failClash_apart {s : State} {c : Nat} (going : (s.cell c).restart = false) (apart : (s.fabricBanks c).Nodup) :
    s.failClash c = s := by
  have banks : s.fabricBanks c = (((s.shots c).flatMap fun h => (s.shotBanks h).map fun b => (b, h)).map (·.1)) := by
    simp [State.fabricBanks, going, List.map_flatMap, Function.comp_def]
  rw [banks] at apart
  have none_ : (((s.shots c).flatMap fun h => (s.shotBanks h).map fun b => (b, h)).filter fun (b, _) =>
      2 ≤ (((s.shots c).flatMap fun h => (s.shotBanks h).map fun b => (b, h)).filter fun t => t.1 = b).length) = [] := by
    refine List.filter_eq_nil_iff.2 fun ⟨b, h⟩ _ => ?_
    have := filter_fst_lt_two apart b
    simpa using this
  unfold State.failClash
  dsimp only
  rw [none_]

/-- R23, R102: a region slot after a region cycle. -/
def counted (r : Region) : Region :=
  if r.issuing = true then { r with rc := r.rc + 1, rb := rbOf (r.rc.toNat / r.ii.toNat) } else r

/-- R24: a region that issues has firings to make and is short of its limit. -/
theorem withRb_issuing {r : Region} (h : r.issuing = true) : r.withRb = { r with rb := rbOf (r.rc.toNat / r.ii.toNat) } := by
  simp only [Region.issuing, Bool.and_eq_true, decide_eq_true_eq] at h
  obtain ⟨-, short⟩ := h
  have below : r.rc.toNat < r.limit := by
    unfold Region.endAt at short
    split at short
    · exact Nat.lt_of_lt_of_le short (Nat.min_le_right ..)
    · exact short
  have some_ : r.rn ≠ 0 := by
    intro zero
    rw [Region.limit, if_pos zero] at below
    exact Nat.not_lt_zero _ below
  rw [Region.withRb, if_pos ⟨some_, below⟩]

/-- A step that at most counts region cycles of cell `c`, of the regions in `ks`. -/
structure CountsCycle (c : Nat) (ks : List (Fin 4)) (s t : State) : Prop where
  mem : t.mem = s.mem
  sched : t.sched = s.sched
  seq : (t.cell c).seq = (s.cell c).seq
  pe : (t.cell c).pe = (s.cell c).pe
  region : ∀ k : Fin 4, (t.cell c).region[k.val] =
    if k ∈ ks then counted (s.cell c).region[k.val] else (s.cell c).region[k.val]

theorem countRegion_spec (s : State) (c : Nat) (k : Fin 4) : CountsCycle c [k] s (s.countRegion c k) := by
  unfold State.countRegion
  dsimp only
  by_cases issues : (s.cell c).region[k.val].issuing = true
  · rw [if_pos issues]
    refine ⟨rfl, rfl, by rw [cell_modCell]; rfl, by rw [cell_modCell]; rfl, fun j => ?_⟩
    rw [cell_modCell]
    by_cases same : j = k
    · subst same
      rw [if_pos (by simp), counted, if_pos issues]
      exact (Vector.getElem_set_self _).trans (by rw [withRb_issuing issues])
    · rw [if_neg (by simpa using same)]
      exact Vector.getElem_set_ne k.isLt j.isLt fun e => same (Fin.ext e.symm)
  · rw [if_neg issues]
    refine ⟨rfl, rfl, rfl, rfl, fun j => ?_⟩
    by_cases same : j = k
    · subst same
      rw [if_pos (by simp), counted, if_neg issues]
    · rw [if_neg (by simpa using same)]

theorem countRegions_spec (c : Nat) (ks : List (Fin 4)) (nodup : ks.Nodup) :
    ∀ s : State, CountsCycle c ks s (ks.foldl (fun s k => s.countRegion c k) s) := by
  induction ks with
  | nil => exact fun s => ⟨rfl, rfl, rfl, rfl, fun k => by simp⟩
  | cons k t ih =>
    intro s
    obtain ⟨fresh, rest⟩ := List.nodup_cons.1 nodup
    have one := countRegion_spec s c k
    have more := ih rest (s.countRegion c k)
    refine ⟨more.mem.trans one.mem, more.sched.trans one.sched, more.seq.trans one.seq, more.pe.trans one.pe, fun j => ?_⟩
    rw [List.foldl_cons, more.region, one.region]
    by_cases same : j = k
    · subst same
      simp [fresh]
    · simp [same]

theorem regionCycle_spec {c : Nat} {s : State} (unstopped : (s.cell c).stop = none) (going : (s.cell c).restart = false)
    (sound : ∀ h ∈ s.shots c, (s.shotCtx h).badAddress h.code = none ∧ (s.shotCtx h).typeOk h.code = true)
    (apart : (s.fabricBanks c).Nodup) :
    exec (.regionCycle c) s = .next (
      let u := ((List.finRange 4).foldl (fun s k => s.countRegion c k) s).modCell c fun x => { x with fired := true }
      { u with sched := { u.sched with tasks := s.fireTasks c ++ u.sched.tasks } }) := by
  have ranges : (List.finRange 4).foldl (fun s k => s.failRange c k) s = s := foldl_fixed _ (failRange_sound sound)
  have types : (List.finRange 4).foldl (fun s k => s.failType c k) s = s := foldl_fixed _ (failType_sound sound)
  show execRegionCycle c s = _
  unfold execRegionCycle
  rw [going, if_neg Bool.false_ne_true]
  simp only [holdRegions_unstopped unstopped, ranges, failClash_apart going apart, types]

/-! ### The landings of a cell (R29 to R31, R37, R92) -/

/-- A step that at most lands results of cell `c`: it changes no memory and no region's running, and without an armed injection
nothing of the sequencer. -/
structure LandsOnly (c : Nat) (s t : State) : Prop where
  mem : t.mem = s.mem
  running : ∀ p, (t.cell c).running p = (s.cell c).running p
  arm : (s.cell c).seq.errinj.arm = false → (t.cell c).seq = (s.cell c).seq

theorem LandsOnly.refl (c : Nat) (s : State) : LandsOnly c s s := ⟨rfl, fun _ => rfl, fun _ => rfl⟩

theorem LandsOnly.trans {c : Nat} {s t u : State} (h : LandsOnly c s t) (k : LandsOnly c t u) : LandsOnly c s u :=
  ⟨k.mem.trans h.mem, fun p => (k.running p).trans (h.running p),
    fun arm => (k.arm (by rw [h.arm arm]; exact arm)).trans (h.arm arm)⟩

/-- R37: the end of a region's issue does not end its cycles. -/
theorem running_halt (x : CellSt) (k : Fin 4) (cause : Cause) (p : Fin 4) :
    (x.setRegion k (x.region[k.val].halt cause)).running p = x.running p := by
  unfold CellSt.running
  congr 1
  funext j
  by_cases same : j = k
  · subst same
    show (let r := (x.region.set j.val (x.region[j.val].halt cause) j.isLt)[j.val]
      r.state == .running && r.delay == 0 && r.peset.getLsbD p.val) = _
    rw [Vector.getElem_set_self]
    rfl
  · show (let r := (x.region.set k.val (x.region[k.val].halt cause) k.isLt)[j.val]
      r.state == .running && r.delay == 0 && r.peset.getLsbD p.val) = _
    rw [Vector.getElem_set_ne k.isLt j.isLt fun e => same (Fin.ext e.symm)]

theorem landInject_unarmed {x : CellSt} (h : x.seq.errinj.arm = false) (p : Fin 4) (l : LandSlot) : x.landInject p l = none := by
  unfold CellSt.landInject
  dsimp only
  split
  · rfl
  · split
    · rfl
    · simp [h]

theorem landsOnly_setPe (s : State) (c : Nat) (p : Fin 4) (g : CellSt → PE) :
    LandsOnly c s (s.modCell c fun x => x.setPe p (g x)) :=
  ⟨rfl, fun _ => by rw [cell_modCell]; rfl, fun _ => by rw [cell_modCell]; rfl⟩

theorem setPe_ne (s : State) (c : Nat) {p q : Fin 4} (g : CellSt → PE) (h : q ≠ p) :
    ((s.modCell c fun x => x.setPe p (g x)).cell c).pe[q.val] = (s.cell c).pe[q.val] := by
  rw [cell_modCell]
  exact Vector.getElem_set_ne p.isLt q.isLt fun e => h (Fin.ext e.symm)

theorem landOne_spec (s : State) (c : Nat) (p : Fin 4) (l : LandSlot) : LandsOnly c s (s.landOne c p l).1 ∧
    ∀ q : Fin 4, q ≠ p → (((s.landOne c p l).1).cell c).pe[q.val] = (s.cell c).pe[q.val] := by
  unfold State.landOne
  dsimp only
  split
  · exact ⟨landsOnly_setPe s c p fun x => (x.pe[p.val]).land l, fun q h => setPe_ne s c (fun x => (x.pe[p.val]).land l) h⟩
  · next b found =>
    let x := s.cell c
    let y := (if (x.landInject p l).isSome then x.disarm else x).countRes
    have cell : ((((s.report x.seq.id.vfid.toNat (s.landRecord c p l b)).modCell c fun z =>
        (if (x.landInject p l).isSome then z.disarm else z).countRes).modRegion c l.k fun r => r.halt cMcResidue).cell c) =
        y.setRegion l.k (y.region[l.k.val].halt cMcResidue) := by
      rw [State.modRegion, cell_modCell, cell_modCell]
      rfl
    have parts : y.pe = x.pe ∧ y.region = x.region := by
      show (if (x.landInject p l).isSome then x.disarm else x).pe = _ ∧ (if (x.landInject p l).isSome then x.disarm else x).region = _
      split <;> exact ⟨rfl, rfl⟩
    refine ⟨⟨rfl, fun q => ?_, fun arm => ?_⟩, fun q _ => ?_⟩
    · rw [cell, running_halt]
      simp only [CellSt.running, parts.2]
      rfl
    · rw [cell]
      show (if (x.landInject p l).isSome then x.disarm else x).seq = _
      rw [landInject_unarmed arm]
      rfl
    · rw [cell]
      show y.pe[q.val] = _
      simp only [parts.1]
      rfl

theorem landFrom_spec (c : Nat) (p : Fin 4) (l : List LandSlot) : ∀ s : State, LandsOnly c s (s.landFrom c p l).1 ∧
    ∀ q : Fin 4, q ≠ p → (((s.landFrom c p l).1).cell c).pe[q.val] = (s.cell c).pe[q.val] := by
  induction l with
  | nil => exact fun s => ⟨.refl c s, fun _ _ => rfl⟩
  | cons l t ih =>
    intro s
    unfold State.landFrom
    split
    · exact ih s
    · split
      · obtain ⟨one, others⟩ := landOne_spec s c p l
        obtain ⟨more, rest⟩ := ih (s.landOne c p l).1
        exact ⟨one.trans more, fun q h => (rest q h).trans (others q h)⟩
      · exact ih s

theorem landPe_spec (s : State) (c : Nat) (p : Fin 4) : LandsOnly c s (s.landPe c p) ∧
    ∀ q : Fin 4, q ≠ p → ((s.landPe c p).cell c).pe[q.val] = (s.cell c).pe[q.val] := by
  unfold State.landPe
  split
  · obtain ⟨lands, others⟩ := landFrom_spec c p ((s.cell c).pe[p.val]).slots s
    exact ⟨lands.trans (landsOnly_setPe _ c p _), fun q h => (setPe_ne _ c _ h).trans (others q h)⟩
  · exact ⟨.refl c s, fun _ _ => rfl⟩

/-- R31: among the landings of a cell those of one PE are as they would be alone. -/
theorem landPes_spec (c : Nat) (p : Fin 4) (l : List (Fin 4)) (nodup : l.Nodup) : ∀ s : State,
    LandsOnly c s (l.foldl (fun s p => s.landPe c p) s) ∧
    (p ∉ l → ((l.foldl (fun s p => s.landPe c p) s).cell c).pe[p.val] = (s.cell c).pe[p.val]) ∧
    (p ∈ l → ∃ u, LandsOnly c s u ∧ (u.cell c).pe[p.val] = (s.cell c).pe[p.val] ∧
      ((l.foldl (fun s p => s.landPe c p) s).cell c).pe[p.val] = ((u.landPe c p).cell c).pe[p.val]) := by
  induction l with
  | nil => exact fun s => ⟨.refl c s, fun _ => rfl, fun h => absurd h List.not_mem_nil⟩
  | cons q t ih =>
    intro s
    obtain ⟨fresh, rest⟩ := List.nodup_cons.1 nodup
    obtain ⟨one, others⟩ := landPe_spec s c q
    obtain ⟨more, out, inside⟩ := ih rest (s.landPe c q)
    refine ⟨one.trans more, fun h => ?_, fun h => ?_⟩
    · obtain ⟨apart, away⟩ := not_or.1 (mt List.mem_cons.2 h)
      exact (out away).trans (others p apart)
    · by_cases same : p = q
      · subst same
        exact ⟨s, .refl c s, rfl, out fresh⟩
      · obtain ⟨u, lands, pe, result⟩ := inside ((List.mem_cons.1 h).resolve_left same)
        exact ⟨u, one.trans lands, pe.trans (others p same), result⟩

/-- R29: what the landings of a cell leave of a PE whose region runs. -/
theorem rowResultLanding_spec {c : Nat} {s : State} (going : (s.cell c).restart = false) (p : Fin 4)
    (running : (s.cell c).running p = true) :
    ∃ t u, exec (.rowResultLanding c) s = .next t ∧ LandsOnly c s t ∧ LandsOnly c s u ∧
      (u.cell c).pe[p.val] = (s.cell c).pe[p.val] ∧
      (t.cell c).pe[p.val] =
        { (((u.landFrom c p ((s.cell c).pe[p.val]).slots).1).cell c).pe[p.val] with
          slots := (u.landFrom c p ((s.cell c).pe[p.val]).slots).2 } := by
  obtain ⟨lands, -, inside⟩ := landPes_spec c p (List.finRange 4) (List.nodup_finRange 4) s
  obtain ⟨u, kept, pe, result⟩ := inside (List.mem_finRange p)
  refine ⟨_, u, ?_, lands, kept, pe, result.trans ?_⟩
  · show execRowResultLanding c s = _
    rw [execRowResultLanding, going]
    rfl
  · rw [State.landPe, kept.running, running, if_pos rfl, ← pe]
    dsimp only
    rw [cell_modCell]
    exact Vector.getElem_set_self _

/-- R92: the value of a register result, with residues of its own. -/
def landed (v : FVal) : FVal := { v with res := resOf v.data }

theorem land_reg_eq (e : PE) {l : LandSlot} {v : FVal} (pay : l.pay = .reg v) : e.land l =
    if l.dest.toNat < 64 then
      { e with bus := landed v, v := e.v.set (Fin.ofNat 64 l.dest.toNat).val (landed v) (Fin.ofNat 64 l.dest.toNat).isLt }
    else { e with bus := landed v } := by
  simp only [PE.land, pay]
  rfl

theorem land_reg (e : PE) {l : LandSlot} {v : FVal} (pay : l.pay = .reg v) :
    (e.land l).bus = landed v ∧ (∀ n : Fin 64, l.dest.toNat = n.val → (e.land l).v[n.val] = landed v) ∧
    ∀ n : Fin 64, l.dest.toNat ≠ n.val → (e.land l).v[n.val] = e.v[n.val] := by
  by_cases reg : l.dest.toNat < 64
  · have number : (Fin.ofNat 64 l.dest.toNat).val = l.dest.toNat := Nat.mod_eq_of_lt reg
    rw [land_reg_eq e pay, if_pos reg]
    refine ⟨rfl, fun n here => ?_, fun n away => ?_⟩
    · exact (Vector.getElem_set (Fin.ofNat 64 l.dest.toNat).isLt n.isLt).trans (if_pos (number.trans here))
    · exact (Vector.getElem_set (Fin.ofNat 64 l.dest.toNat).isLt n.isLt).trans (if_neg fun h => away (number.symm.trans h))
  · rw [land_reg_eq e pay, if_neg reg]
    exact ⟨rfl, fun n here => absurd (here ▸ n.isLt) reg, fun _ _ => rfl⟩

/-- R29: a slot with cycles to go counts one down. -/
theorem landFrom_waits (s : State) (c : Nat) (p : Fin 4) {l : LandSlot} (sound : l.bad = false) (more : 1 < l.remain) :
    s.landFrom c p [l] = (s, [{ l with remain := l.remain - 1 }]) := by
  simp only [State.landFrom, sound, Bool.false_eq_true, if_false, if_neg (Nat.not_le.2 more)]

/-- R29, R31: a register result that is due is written. -/
theorem landFrom_lands {s : State} {c : Nat} {p : Fin 4} {l : LandSlot} {v : FVal} (sound : l.bad = false)
    (due : l.remain = 1) (pay : l.pay = .reg v) (whole : srcBad v.data v.res = none) (unarmed : (s.cell c).seq.errinj.arm = false) :
    s.landFrom c p [l] = (s.modCell c fun x => x.setPe p ((x.pe[p.val]).land l), []) := by
  have check : (l.pay.bad.or ((s.cell c).landInject p l)) = none := by
    rw [landInject_unarmed unarmed, pay, Payload.bad, whole]
    rfl
  simp only [State.landFrom, sound, Bool.false_eq_true, if_false, due, Nat.le_refl, if_true, State.landOne, check, List.append_nil]

theorem lands_spec {c : Nat} {s : State} {p : Fin 4} {l : LandSlot} {v : FVal} (going : (s.cell c).restart = false)
    (running : (s.cell c).running p = true) (unarmed : (s.cell c).seq.errinj.arm = false) (slots : ((s.cell c).pe[p.val]).slots = [l])
    (sound : l.bad = false) (pay : l.pay = .reg v) (whole : srcBad v.data v.res = none) (due : l.remain = 1) :
    ∃ t, exec (.rowResultLanding c) s = .next t ∧
      (t.cell c).pe[p.val] = { ((s.cell c).pe[p.val]).land l with slots := [] } ∧
      (t.cell c).seq = (s.cell c).seq ∧ t.mem = s.mem := by
  obtain ⟨t, u, run, lands, kept, pe, result⟩ := rowResultLanding_spec going p running
  have before : (u.cell c).seq.errinj.arm = false := by rw [kept.arm unarmed, unarmed]
  rw [slots, landFrom_lands sound due pay whole before] at result
  refine ⟨t, run, result.trans ?_, lands.arm unarmed, lands.mem⟩
  have written : ((u.modCell c fun x => x.setPe p ((x.pe[p.val]).land l)).cell c).pe[p.val] = ((s.cell c).pe[p.val]).land l := by
    rw [cell_modCell, ← pe]
    exact Vector.getElem_set_self _
  simp only [written]

theorem waits_spec {c : Nat} {s : State} {p : Fin 4} {l : LandSlot} (going : (s.cell c).restart = false)
    (running : (s.cell c).running p = true) (slots : ((s.cell c).pe[p.val]).slots = [l]) (sound : l.bad = false)
    (more : 1 < l.remain) : ∃ t, exec (.rowResultLanding c) s = .next t ∧
      (t.cell c).pe[p.val] = { (s.cell c).pe[p.val] with slots := [{ l with remain := l.remain - 1 }] } := by
  obtain ⟨t, u, run, -, -, pe, result⟩ := rowResultLanding_spec going p running
  rw [slots, landFrom_waits u c p sound more] at result
  exact ⟨t, run, result.trans (by simp only [pe])⟩

/-! ### Completion (R24, R104, R146) -/

theorem released_parts {s : State} {c : Nat} (h : s.released c = true) :
    (s.cell c).wcb = [] ∧ s.pendingWrites c = false ∧ s.mem.signals.any (·.src = c) = false := by
  simp only [State.released, Bool.and_eq_true, Bool.not_eq_true', List.isEmpty_iff] at h
  obtain ⟨⟨buffer, writes⟩, signals⟩ := h
  exact ⟨buffer, writes, signals⟩

/-- R147: what a release waits for is none of what a cell with nothing under way has. -/
theorem relWaits_released {s : State} {c : Nat} (h : s.released c = true) (scope m : Nat) : s.relWaits c scope m = false := by
  obtain ⟨-, writes, signals⟩ := released_parts h
  have mine : (s.mem.signals.any fun g => g.src = c && g.id ≤ m && (scope != 1 || g.dst = c)) = false := by
    rw [List.any_eq_false] at signals ⊢
    intro g hg
    have := signals g hg
    simp only [decide_eq_true_eq] at this
    simp [this]
  have waiting : (s.mem.reqs.any fun (id, r) => id ≤ m && r.unaccepted c) = false := by
    rw [State.pendingWrites, List.any_eq_false] at writes
    rw [List.any_eq_false]
    intro g hg
    have := writes g hg
    simp [this]
  rw [State.relWaits, mine, waiting]
  simp

theorem drainAll_empty {s : State} {c : Nat} (h : (s.cell c).wcb = []) : s.drainAll c = s := by
  rw [State.drainAll, h]
  rfl

/-- R146: the release of a region that has nothing under way is complete at once. -/
theorem regionRelease_released {s : State} {c : Nat} {k : Fin 4}
    (clear : ((s.cell c).region[k.val]).ph.isSome = true → s.released c = true) : s.regionRelease c k = (true, s) := by
  unfold State.regionRelease
  dsimp only
  split
  · rfl
  · next n named =>
    have arrives : ((s.cell c).region[k.val]).ph = some n := by
      by_cases fine : ((s.cell c).region[k.val]).cause = 0
      · rwa [if_pos fine] at named
      · rw [if_neg fine] at named
        exact absurd named (by simp)
    have clear := clear (by rw [arrives]; rfl)
    split
    · rw [relWaits_released clear]
      rfl
    · rw [drainAll_empty (released_parts clear).1, ite_self, relWaits_released clear]
      rfl

/-- R147: the release of a region waits while a signal-store of its cell is under way. -/
theorem regionRelease_waits {s : State} {c : Nat} {k : Fin 4} {n : BitVec 16} {m : Nat}
    (fine : ((s.cell c).region[k.val]).cause = 0) (arrives : ((s.cell c).region[k.val]).ph = some n)
    (begun : ((s.cell c).region[k.val]).relAt = some m)
    (under : ∃ g ∈ s.mem.signals, g.src = c ∧ g.id ≤ m ∧ (g.dst = c ∨ (s.phaser n.toNat).order ≠ 1)) :
    s.regionRelease c k = (false, s) := by
  obtain ⟨g, mem, src, early, aims⟩ := under
  have waits : s.relWaits c (s.phaser n.toNat).order m = true := by
    have : (s.mem.signals.any fun g => g.src = c && g.id ≤ m && ((s.phaser n.toNat).order != 1 || g.dst = c)) = true :=
      List.any_eq_true.2 ⟨g, mem, by simp [src, early, Or.comm.1 aims]⟩
    rw [State.relWaits, this]
    rfl
  unfold State.regionRelease
  simp only [fine, if_true, arrives, begun, waits]
  rfl

theorem completed_spec (r : Region) (fine : r.cause = 0) : r.completed.state = .done ∧ r.completed.rc = r.rc ∧
    r.completed.cut = (decide (r.rn ≠ 0) && decide (r.rc.toNat < r.limit)) := by
  have rc : r.withRb.rc = r.rc := by
    unfold Region.withRb
    split <;> rfl
  have some_ : (r.rn != 0) = decide (r.rn ≠ 0) := by rw [Bool.eq_iff_iff]; simp
  simp only [Region.completed, fine, rc, some_, if_true, decide_true, Bool.true_and, and_self]

section
variable {c : Nat} {s : State} {k : Fin 4} (going : (s.cell c).restart = false)
  (runs : ((s.cell c).region[k.val]).state = .running)
include going runs

/-- R322: a region that has not begun yet counts a cycle. -/
theorem completion_delayed (delay : ((s.cell c).region[k.val]).delay ≠ 0) : exec (.regionCompletion c k) s =
    .next (s.modRegion c k fun r => { r with delay := r.delay - 1 }) := by
  show execRegionCompletion c k s = _
  unfold execRegionCompletion
  dsimp only
  rw [if_neg (by simp [runs, going]), if_pos delay]

variable (delay : ((s.cell c).region[k.val]).delay = 0)
  (ended : ((s.cell c).region[k.val]).endAt ≤ ((s.cell c).region[k.val]).rc.toNat)
  (landed_ : (s.cell c).allLanded (s.cell c).region[k.val] = true)
include delay ended landed_

theorem completion_waits (release : s.regionRelease c k = (false, s)) : exec (.regionCompletion c k) s = .next s := by
  show execRegionCompletion c k s = _
  unfold execRegionCompletion
  dsimp only
  rw [if_neg (by simp [runs, going]), if_neg (not_not_intro delay), if_pos ⟨ended, landed_⟩, release]

theorem completion_done (fine : ((s.cell c).region[k.val]).cause = 0) (release : s.regionRelease c k = (true, s)) :
    ∃ t, exec (.regionCompletion c k) s = .next t ∧ (t.cell c).region[k.val] = ((s.cell c).region[k.val]).completed ∧
      (∀ n, ((s.cell c).region[k.val]).ph = some n → t.phaser n.toNat = (s.phaser n.toNat).arrive) ∧ t.mem = s.mem := by
  let r := (s.cell c).region[k.val]
  let u := (s.modRegion c k Region.completed).regionArrives r
  have cell : u.cell c = (s.cell c).setRegion k r.completed ∧ u.mem = s.mem := by
    have completed : (s.modRegion c k Region.completed).cell c = (s.cell c).setRegion k r.completed := cell_modCell ..
    show State.cell (State.regionArrives _ r) c = _ ∧ (State.regionArrives _ r).mem = _
    unfold State.regionArrives
    split
    · split <;> exact ⟨completed, rfl⟩
    · exact ⟨completed, rfl⟩
  have phaser : ∀ n, r.ph = some n → u.phaser n.toNat = (s.phaser n.toNat).arrive := by
    intro n named
    have arrives : u = (s.modRegion c k Region.completed).setPhaser n.toNat (s.phaser n.toNat).arrive := by
      show State.regionArrives _ r = _
      unfold State.regionArrives
      rw [named]
      exact if_pos fine
    rw [arrives]
    exact tget_tset_self ..
  have kept := traceOnly_emit u c 0x7 (k.val + (r.completed.state.code) * 4 + (r.rc.toNat % 2 ^ 40) * 2 ^ 5)
  refine ⟨_, ?_, ?_, fun n named => ?_, kept.mem.trans cell.2⟩
  · show execRegionCompletion c k s = _
    unfold execRegionCompletion
    dsimp only
    rw [if_neg (by simp [runs, going]), if_neg (not_not_intro delay), if_pos ⟨ended, landed_⟩, release]
  · rw [kept.cell, cell.1]
    exact Vector.getElem_set_self _
  · rw [← phaser n named]
    simp only [State.phaser, kept.disp]

end

theorem fireTasks_length (s : State) (c : Nat) : (s.fireTasks c).length = (s.shots c).length := List.length_map ..

/-- Settles O50: no stop falls in the cycle, so each region is counted once; a PE's landings are those of its own slots; and a
region completes once its release has nothing left to wait for. -/
theorem regionEvents : Obligations.RegionEvents := by
  intro c s
  refine ⟨fun unstopped going sound apart => ?_, fun p l v going running unarmed slots fine pay whole due => ?_,
    fun p l going running slots fine more => waits_spec going running slots fine more, fun going k => ⟨?_, ?_, ?_⟩⟩
  · have counts := countRegions_spec c (List.finRange 4) (List.nodup_finRange 4) s
    have fired : ∀ u : State, (u.modCell c fun x => { x with fired := true }).cell c = { u.cell c with fired := true } :=
      fun u => cell_modCell ..
    refine ⟨_, regionCycle_spec unstopped going sound apart, ?_⟩
    generalize (List.finRange 4).foldl (fun s k => s.countRegion c k) s = u at counts
    refine ⟨congrArg (fun h : Sched => s.fireTasks c ++ h.tasks) counts.sched, fireTasks_length s c, counts.mem,
      (congrArg CellSt.seq (fired u)).trans counts.seq, (congrArg CellSt.pe (fired u)).trans counts.pe, fun k => ?_⟩
    have region := counts.region k
    rw [if_pos (List.mem_finRange k)] at region
    exact (congrArg (fun x : CellSt => x.region[k.val]) (fired u)).trans region
  · obtain ⟨t, run, pe, seq, mem⟩ := lands_spec going running unarmed slots fine pay whole due
    obtain ⟨bus, here, away⟩ := land_reg ((s.cell c).pe[p.val]) pay
    exact ⟨t, run, by rw [pe], by rw [pe]; exact bus, fun n h => by rw [pe]; exact here n h, fun n h => by rw [pe]; exact away n h,
      seq, mem⟩
  · intro runs delay ended landed_ fine clear
    obtain ⟨t, run, region, phaser, mem⟩ :=
      completion_done going runs delay ended landed_ fine (regionRelease_released clear)
    obtain ⟨state, rc, cut⟩ := completed_spec _ fine
    exact ⟨t, run, by rw [region, state], by rw [region, rc], by rw [region, cut], phaser, mem⟩
  · intro n m runs delay ended landed_ fine arrives begun under
    exact completion_waits going runs delay ended landed_ (regionRelease_waits fine arrives begun under)
  · intro runs delay
    refine ⟨_, completion_delayed going runs delay, ?_, rfl⟩
    rw [State.modRegion, cell_modCell]
    exact Vector.getElem_set_self _

end Sys2Proof.Proofs
end

section
/-! PROOFS. Placement on the cells of a held gang. -/

namespace Sys2Proof.Proofs

open Sys2Proof Sys2Proof.Machine Sys2Proof.Safety Sys2Proof.Laws

/-! ### Placement that has to wait for the frame of a held gang (R131, R172, R187) -/

/-- The KERNEL of queue 3 of function 1, which is ready and asks for one cell. -/
def oneCellKernel : Rec := { slot := 0, kind := 1, line0 := 0x11 <<< (8 * 0x28), age := 0, stage := .ready }

/-- A gang of function 2 that holds cell 0, of younger AGE, whose kernel has met a fatal cause. -/
def heldFatalGang : Gang :=
  { vf := 2, q := 0, slot := 0, kind := false, w := 1, h := 1, blocks := [0], cells := [0], state := .held, age := 1,
    fatal := some cIllOp }

/-- Cell 0 is the one usable cell of the module; the host holds the line of the gang's frame. -/
def frameAtHost : State :=
  { fns := [(1, { state := .enabled, blockmask := 1 })]
    dies := [(0, { usable := 1 })]
    sys := { bootDone := true }
    mem := { dir := [{ line := 0, owned := true }] }
    disp := { queues := [(qkey 1 3, { state := .active, recs := [oneCellKernel] })], gangs := [(0, heldFatalGang)] } }

/-- The want of that KERNEL. -/
def oneCellWant : Want := { prio := 0, age := 0, vf := 1, q := 3, kind := false, w := 1, h := 1, k := 0 }

/-- The steps that an outcome leaves to make. -/
def stepsLeft : Out → List Task
  | .next t => t.sched.tasks
  | _ => []

theorem frameAtHost_wants : frameAtHost.wants = [oneCellWant] := by decide +kernel

/-- R172: the KERNEL fits on the cell that the gang below it holds. -/
theorem frameAtHost_fit : frameAtHost.fit oneCellWant [] = some ([0], [0]) := by decide +kernel

/-- R131: the gang gives its cell up only once the host's copy of its frame has been recalled, and placement waits with it. -/
theorem frameAtHost_placement : stepsLeft (exec .placement frameAtHost) = [] := by decide +kernel

/-- Refutes O58: where the cells that a KERNEL fits on are those of a held gang, placement does not start it while a line of the
gang's frame is not open, as when the host holds it. -/
theorem not_placementEvents : ¬ Obligations.PlacementEvents := by
  intro h
  obtain ⟨-, -, placement, -⟩ := h frameAtHost
  have starts := placement oneCellWant ([0], [0]) frameAtHost_wants rfl frameAtHost_fit (by decide)
  have waits := frameAtHost_placement
  rw [starts] at waits
  exact List.cons_ne_nil _ _ waits

end Sys2Proof.Proofs
end

section
/-! PROOFS. Numbers in a format: the codes in their order, what lies between two of them, and a value rounded once (R47, R54 to R60). -/

namespace Sys2Proof.Proofs

open Sys2Proof Sys2Proof.Machine Sys2Proof.Safety Sys2Proof.Laws

/-! ### The codes of a format in their order (R47) -/

section
variable (f : Fmt)

/-- A code by the exponent of its last place and the units of that place: only the lowest place has subnormals. -/
theorem magOf_units {d c : Nat} (place : d = 0 ∨ 2 ^ f.man ≤ c) (few : c < 2 * 2 ^ f.man) :
    magOf f (d * 2 ^ f.man + c) = c * (2 : ℚ) ^ (f.qmin + d) := by
  have pos : 0 < 2 ^ f.man := Nat.two_pow_pos _
  by_cases sub : c < 2 ^ f.man
  · have lowest : d = 0 := place.resolve_right (Nat.not_le.2 sub)
    subst lowest
    simp [magOf, sub]
  · obtain ⟨b, rfl⟩ := Nat.exists_eq_add_of_le (Nat.not_lt.1 sub)
    have code : d * 2 ^ f.man + (2 ^ f.man + b) = b + 2 ^ f.man * (d + 1) := by ring
    rw [magOf, if_neg (by rw [code]; nlinarith), code, Nat.add_mul_mod_self_left, Nat.add_mul_div_left _ _ pos,
      Nat.mod_eq_of_lt (by omega), Nat.div_eq_of_lt (by omega), Nat.zero_add, Nat.add_sub_cancel, Nat.add_comm b]

/-- The next code stands for one unit more. -/
theorem magOf_units_succ {d c : Nat} (place : d = 0 ∨ 2 ^ f.man ≤ c) (few : c < 2 * 2 ^ f.man) :
    magOf f (d * 2 ^ f.man + c + 1) = (c + 1) * (2 : ℚ) ^ (f.qmin + d) := by
  by_cases last : c + 1 < 2 * 2 ^ f.man
  · have := magOf_units f (c := c + 1) (place.imp_right fun h => by omega) last
    exact_mod_cast this
  · have full : c + 1 = 2 * 2 ^ f.man := by omega
    have next := magOf_units f (d := d + 1) (c := 2 ^ f.man) (.inr (Nat.le_refl _)) (by have := Nat.two_pow_pos f.man; omega)
    have code : d * 2 ^ f.man + c + 1 = (d + 1) * 2 ^ f.man + 2 ^ f.man := by rw [Nat.add_assoc, full]; ring
    have units : ((c : ℚ) + 1) = 2 * 2 ^ f.man := by exact_mod_cast full
    rw [code, next, units]
    push_cast
    rw [← add_assoc, zpow_add_one₀ (by norm_num)]
    ring

theorem exists_units (k : Nat) : ∃ d c, k = d * 2 ^ f.man + c ∧ (d = 0 ∨ 2 ^ f.man ≤ c) ∧ c < 2 * 2 ^ f.man := by
  have pos : 0 < 2 ^ f.man := Nat.two_pow_pos _
  have low := Nat.mod_lt k pos
  have split := Nat.div_add_mod' k (2 ^ f.man)
  rcases Nat.eq_zero_or_pos (k / 2 ^ f.man) with none_ | some_
  · exact ⟨0, k, by simp, .inl rfl, by rw [none_] at split; omega⟩
  · obtain ⟨d, hd⟩ := Nat.exists_eq_succ_of_ne_zero (Nat.ne_of_gt some_)
    refine ⟨d, 2 ^ f.man + k % 2 ^ f.man, ?_, .inr (Nat.le_add_right ..), by omega⟩
    rw [hd, Nat.succ_mul] at split
    omega

theorem magOf_strictMono : StrictMono (magOf f) := by
  refine strictMono_nat_of_lt_succ fun k => ?_
  obtain ⟨d, c, rfl, place, few⟩ := exists_units f k
  rw [magOf_units f place few, magOf_units_succ f place few]
  have : (0 : ℚ) < 2 ^ (f.qmin + d) := by positivity
  nlinarith

end

/-! ### Exact magnitudes -/

/-- A whole number of 2^g. -/
def OnGrid (g : Int) (a : ℚ) : Prop := ∃ n : Int, a = n * (2 : ℚ) ^ g

theorem onGrid_units {g q : Int} (n : Int) (h : g ≤ q) : OnGrid g (n * (2 : ℚ) ^ q) := by
  refine ⟨n * 2 ^ (q - g).toNat, ?_⟩
  have : (2 : ℚ) ^ q = 2 ^ (q - g).toNat * 2 ^ g := by
    rw [← zpow_natCast, ← zpow_add₀ (by norm_num), Int.toNat_of_nonneg (by omega), sub_add_cancel]
  rw [this]
  push_cast
  ring

/-- An exact magnitude is `x`, or with a rest lies above `x` and below the next whole number of 2^g. -/
structure Reads (y : Exact) (x : ℚ) (rest : Bool) (g : Int) : Prop where
  le_of : ∀ a ≤ x, y.le a = true
  not_le : ∀ a b, OnGrid g a → x < a → a ≤ b → y.le b = false
  not_eq : ∀ a < x, y.eq a = false
  eq_grid : ∀ a, OnGrid g a → y.eq a = (!rest && decide (a = x))

theorem Reads.le_grid {y : Exact} {x : ℚ} {rest : Bool} {g : Int} (h : Reads y x rest g) {a : ℚ} (on : OnGrid g a) :
    y.le a = decide (a ≤ x) := by
  by_cases below : a ≤ x
  · rw [h.le_of a below, decide_eq_true below]
  · rw [h.not_le a a on (lt_of_not_ge below) le_rfl, decide_eq_false below]

/-- A rational magnitude is what it is. -/
theorem reads_of (x : ℚ) (g : Int) : Reads (Exact.of x) x false g :=
  ⟨fun _ h => decide_eq_true h, fun _ _ _ h k => decide_eq_false (not_le_of_gt (h.trans_le k)),
    fun _ h => decide_eq_false (ne_of_lt h), fun _ _ => rfl⟩

theorem reads_near (m : Nat) (e : Int) (rest : Bool) (g : Int) : Reads (Exact.near m e rest) (m * (2 : ℚ) ^ e) rest g := by
  refine ⟨fun _ h => decide_eq_true h, fun _ _ _ h k => decide_eq_false (not_le_of_gt (h.trans_le k)), fun a h => ?_, fun _ _ => rfl⟩
  show (!rest && decide (a = _)) = false
  rw [decide_eq_false (ne_of_lt h), Bool.and_false]

/-! ### What rounds away (R55, R57) -/

/-- `x` is `k` whole units of 2^q and `r` parts of 2^s of one. -/
structure Cut (x : ℚ) (q : Int) (k r s : Nat) : Prop where
  part : r < 2 ^ s
  value : x = (k + r / 2 ^ s) * (2 : ℚ) ^ q

section
variable {x : ℚ} {q : Int} {k r s : Nat} (cut : Cut x q k r s)
include cut

theorem Cut.le : k * (2 : ℚ) ^ q ≤ x := by
  have : (0 : ℚ) ≤ r / 2 ^ s * 2 ^ q := by positivity
  rw [cut.value, add_mul]
  linarith

theorem Cut.lt : x < (k + 1) * (2 : ℚ) ^ q := by
  have part : (r : ℚ) / 2 ^ s < 1 := (div_lt_one (by positivity)).2 (by exact_mod_cast cut.part)
  have : (0 : ℚ) < 2 ^ q := by positivity
  rw [cut.value]
  nlinarith

/-- A share of the unit that `x` has reached. -/
theorem Cut.share_le (t : ℚ) : (k + t) * (2 : ℚ) ^ q ≤ x ↔ t * 2 ^ s ≤ r := by
  have : (0 : ℚ) < 2 ^ q := by positivity
  rw [cut.value, mul_le_mul_iff_left₀ this, add_le_add_iff_left, le_div_iff₀ (by positivity)]

theorem Cut.share_eq (t : ℚ) : (k + t) * (2 : ℚ) ^ q = x ↔ t * 2 ^ s = r := by
  have : (2 : ℚ) ^ q ≠ 0 := by positivity
  rw [cut.value, mul_left_inj' this, add_right_inj, eq_div_iff (by positivity)]

theorem Cut.part_eq_zero (zero : x = 0) : r = 0 := by
  have units := cut.value.symm.trans zero
  have : (0 : ℚ) < 2 ^ q := by positivity
  have whole : (0 : ℚ) ≤ k := by positivity
  have part : (0 : ℚ) ≤ r / 2 ^ s := by positivity
  have none_ := (mul_eq_zero.1 units).resolve_right this.ne'
  have : (r : ℚ) / 2 ^ s = 0 := by linarith
  simpa using this

variable {y : Exact} {rest : Bool} {g : Int} (reads : Reads y x rest g)
include reads

theorem Cut.eq_low (fine : g ≤ q) : y.eq (k * (2 : ℚ) ^ q) = (r == 0 && !rest) := by
  have zero := cut.share_eq 0
  rw [add_zero, zero_mul] at zero
  have : ((0 : ℚ) = r) ↔ r = 0 := by rw [eq_comm, Nat.cast_eq_zero]
  rw [reads.eq_grid _ (by exact_mod_cast onGrid_units (k : Int) fine), decide_eq_decide.2 (zero.trans this), Bool.and_comm]
  rfl

theorem Cut.mid (fine : g + 1 ≤ q) :
    y.le ((k * (2 : ℚ) ^ q + (k + 1) * (2 : ℚ) ^ q) / 2) = decide (2 ^ s ≤ 2 * r) ∧
    y.eq ((k * (2 : ℚ) ^ q + (k + 1) * (2 : ℚ) ^ q) / 2) = (!rest && decide (2 * r = 2 ^ s)) := by
  have half : (k * (2 : ℚ) ^ q + (k + 1) * (2 : ℚ) ^ q) / 2 = (k + 1 / 2) * (2 : ℚ) ^ q := by ring
  have on : OnGrid g ((k + 1 / 2) * (2 : ℚ) ^ q) := by
    have h := onGrid_units (g := g) (q := q - 1) (2 * k + 1) (by omega)
    rw [zpow_sub_one₀ (by norm_num)] at h
    push_cast at h
    convert h using 1
    ring
  rw [half, reads.le_grid on, reads.eq_grid _ on]
  constructor
  · rw [decide_eq_decide, cut.share_le, div_mul_eq_mul_div, one_mul, div_le_iff₀ (by norm_num), mul_comm (r : ℚ)]
    exact_mod_cast Iff.rfl
  · congr 1
    rw [decide_eq_decide, cut.share_eq, div_mul_eq_mul_div, one_mul, div_eq_iff (by norm_num), mul_comm (r : ℚ), eq_comm]
    exact_mod_cast Iff.rfl

/-- R57: the draw rounds `x` away when the share that `x` has reached is at least what the draw leaves. -/
theorem Cut.drawn {draw : Nat} (fine : g + 32 ≤ q) (small : draw < 2 ^ 32) :
    y.le (k * (2 : ℚ) ^ q + ((k + 1) * (2 : ℚ) ^ q - k * (2 : ℚ) ^ q) * ((2 ^ 32 - (draw : ℚ)) / 2 ^ 32)) =
      decide (2 ^ 32 ≤ r * 2 ^ 32 / 2 ^ s + draw) := by
  have share : k * (2 : ℚ) ^ q + ((k + 1) * (2 : ℚ) ^ q - k * (2 : ℚ) ^ q) * ((2 ^ 32 - (draw : ℚ)) / 2 ^ 32) =
      (k + (2 ^ 32 - draw) / 2 ^ 32) * (2 : ℚ) ^ q := by ring
  have on : OnGrid g ((k + (2 ^ 32 - draw) / 2 ^ 32) * (2 : ℚ) ^ q) := by
    have h := onGrid_units (g := g) (q := q - 32) (k * 2 ^ 32 + (2 ^ 32 - draw)) (by omega)
    rw [zpow_sub₀ (by norm_num)] at h
    push_cast at h
    convert h using 1
    ring
  have left : ((2 : ℚ) ^ 32 - draw) = ((2 ^ 32 - draw : Nat) : ℚ) := by rw [Nat.cast_sub small.le]; norm_num
  rw [share, reads.le_grid on, decide_eq_decide, cut.share_le, left, div_mul_eq_mul_div, div_le_iff₀ (by norm_num)]
  have whole : (2 ^ 32 - draw) * 2 ^ s ≤ r * 2 ^ 32 ↔ 2 ^ 32 - draw ≤ r * 2 ^ 32 / 2 ^ s :=
    (Nat.le_div_iff_mul_le (Nat.two_pow_pos s)).symm
  constructor
  · intro h
    have := whole.1 (by exact_mod_cast h)
    omega
  · intro h
    exact_mod_cast whole.2 (by omega)

/-- R55, R57: the model's rule of rounding away is the statements'. -/
theorem roundsUp_eq {z : Rounding} (neg : Bool) (fine : g + 32 ≤ q) (code : z.mode ≤ 4) (small : z.mode = 4 → z.draw < 2 ^ 32) :
    roundsUp z.mode z.draw neg k r s rest = roundsAway z neg (k * (2 : ℚ) ^ q) ((k + 1) * (2 : ℚ) ^ q) y (k % 2 == 1) := by
  obtain ⟨mid_le, mid_eq⟩ := cut.mid reads (by omega)
  have low := cut.eq_low reads (by omega)
  have modes : z.mode = 0 ∨ z.mode = 1 ∨ z.mode = 2 ∨ z.mode = 3 ∨ z.mode = 4 := by omega
  unfold roundsUp roundsAway
  rcases modes with nearest | zero | up | down | random
  · simp only [nearest, mid_le, mid_eq]
    rcases lt_trichotomy (2 ^ s) (2 * r) with more | half | less
    · simp [more, more.le, more.ne']
    · simp [half]
    · simp [less.not_gt, less.not_ge, less.ne]
  · simp only [zero]
  · simp only [up, low]
  · simp only [down, low]
  · simp only [random, cut.drawn reads fine (small random)]

end

/-- The model's whole number of 2^q, the part below it and the bits of that part. -/
theorem exists_cut (m : Nat) (e q : Int) : ∃ k r s, Cut (m * (2 : ℚ) ^ e) q k r s ∧ ∀ (mode draw : Nat) (neg rest : Bool),
    quantise mode draw neg m e q rest = (if roundsUp mode draw neg k r s rest then k + 1 else k, r != 0 || rest) := by
  by_cases whole : q ≤ e
  · refine ⟨m * 2 ^ (e - q).toNat, 0, 0, ⟨by simp, ?_⟩, fun mode draw neg rest => ?_⟩
    · have : (2 : ℚ) ^ e = 2 ^ (e - q).toNat * 2 ^ q := by
        rw [← zpow_natCast, ← zpow_add₀ (by norm_num), Int.toNat_of_nonneg (by omega), sub_add_cancel]
      rw [this]
      push_cast
      ring
    · simp [quantise, whole]
  · refine ⟨m / 2 ^ (q - e).toNat, m % 2 ^ (q - e).toNat, (q - e).toNat, ⟨Nat.mod_lt _ (Nat.two_pow_pos _), ?_⟩,
      fun mode draw neg rest => by rw [quantise, if_neg whole]⟩
    have unit : (2 : ℚ) ^ q = 2 ^ (q - e).toNat * 2 ^ e := by
      rw [← zpow_natCast, ← zpow_add₀ (by norm_num), Int.toNat_of_nonneg (by omega), sub_add_cancel]
    have split : (m : ℚ) = 2 ^ (q - e).toNat * (m / 2 ^ (q - e).toNat : Nat) + (m % 2 ^ (q - e).toNat : Nat) := by
      exact_mod_cast (Nat.div_add_mod m (2 ^ (q - e).toNat)).symm
    generalize m / 2 ^ (q - e).toNat = k at split ⊢
    generalize m % 2 ^ (q - e).toNat = r at split ⊢
    rw [unit, split]
    field_simp

/-! ### The exponent of a magnitude, and tininess (R54) -/

section
variable {m : Nat} (e : Int)

theorem topExp_le (pos : m ≠ 0) : (2 : ℚ) ^ topExp m e ≤ m * (2 : ℚ) ^ e := by
  have low : ((2 : ℚ) ^ Nat.log2 m) ≤ m := by exact_mod_cast Nat.log2_self_le pos
  rw [topExp, add_comm, zpow_add₀ (by norm_num), zpow_natCast]
  exact mul_le_mul_of_nonneg_right low (by positivity)

theorem lt_topExp : m * (2 : ℚ) ^ e < (2 : ℚ) ^ (topExp m e + 1) := by
  have high : (m : ℚ) < 2 ^ (Nat.log2 m + 1) := by exact_mod_cast Nat.lt_log2_self
  rw [topExp, show e + (Nat.log2 m : Int) + 1 = ((Nat.log2 m + 1 : Nat) : Int) + e by push_cast; ring,
    zpow_add₀ (by norm_num), zpow_natCast]
  exact mul_lt_mul_of_pos_right high (by positivity)

/-- The exponent of the leading bit is that of the power of two below. -/
theorem topExp_eq (pos : m ≠ 0) {t : Int} (low : (2 : ℚ) ^ t ≤ m * (2 : ℚ) ^ e) (high : m * (2 : ℚ) ^ e < (2 : ℚ) ^ (t + 1)) :
    topExp m e = t := by
  have h := (zpow_lt_zpow_iff_right₀ (a := (2 : ℚ)) (by norm_num)).1 (low.trans_lt (lt_topExp e))
  have k := (zpow_lt_zpow_iff_right₀ (a := (2 : ℚ)) (by norm_num)).1 ((topExp_le e pos).trans_lt high)
  omega

end

/-- The exponent of the last place in which a magnitude is rounded. -/
def placeOf (f : Fmt) (m : Nat) (e : Int) : Int := if m = 0 then f.qmin else max (topExp m e - f.man) f.qmin

/-- The smallest normal value, and what lies `c` units of 2^(qmin − b) below it. -/
theorem least_sub (f : Fmt) (b : Nat) :
    (2 : ℚ) ^ (1 - f.bias) - (2 : ℚ) ^ (f.qmin - b) = ((2 ^ (f.man + b) - 1 : Int) : ℚ) * (2 : ℚ) ^ (f.qmin - b) := by
  have : (2 : ℚ) ^ (1 - f.bias) = 2 ^ (f.man + b) * 2 ^ (f.qmin - b) := by
    rw [← zpow_natCast, ← zpow_add₀ (by norm_num), Fmt.qmin]
    congr 1
    push_cast
    ring
  rw [this]
  push_cast
  ring

section
variable {f : Fmt} {m : Nat} {e g : Int} {rest : Bool} {y : Exact} (reads : Reads y (m * (2 : ℚ) ^ e) rest g)
include reads

/-- A magnitude of a normal value is not tiny. -/
theorem tinyIn_normal (mode : Nat) (neg : Bool) (normal : (2 : ℚ) ^ (1 - f.bias) ≤ m * (2 : ℚ) ^ e) :
    tinyIn f mode neg y = false := by
  have below : ∀ b : Int, (2 : ℚ) ^ (1 - f.bias) - (2 : ℚ) ^ b < m * (2 : ℚ) ^ e := fun b => by
    have : (0 : ℚ) < 2 ^ b := by positivity
    linarith
  unfold tinyIn
  simp [reads.le_of _ (below _).le, reads.le_of _ normal, reads.not_eq _ (below _)]

/-- A magnitude below half the smallest normal value, or a little more, is tiny. -/
theorem tinyIn_low (mode : Nat) (neg : Bool) (fine : g + 2 ≤ f.qmin)
    (low : m * (2 : ℚ) ^ e < (2 : ℚ) ^ (1 - f.bias) - (2 : ℚ) ^ (f.qmin - 1)) : tinyIn f mode neg y = true := by
  have grid1 : OnGrid g ((2 : ℚ) ^ (1 - f.bias) - (2 : ℚ) ^ (f.qmin - 1)) := by
    have h := least_sub f 1
    rw [show ((1 : Nat) : Int) = 1 from rfl] at h
    rw [h]
    exact onGrid_units _ (by omega)
  have last : ∀ a, (2 : ℚ) ^ (1 - f.bias) - (2 : ℚ) ^ (f.qmin - 1) ≤ a → y.le a = false := fun a h => reads.not_le _ a grid1 low h
  have half : (2 : ℚ) ^ (f.qmin - 2) ≤ 2 ^ (f.qmin - 1) := zpow_le_zpow_right₀ (by norm_num) (by omega)
  have pos : (0 : ℚ) < 2 ^ (f.qmin - 1) := by positivity
  unfold tinyIn
  simp [last _ le_rfl, last ((2 : ℚ) ^ (1 - f.bias) - (2 : ℚ) ^ (f.qmin - 2)) (by linarith),
    last ((2 : ℚ) ^ (1 - f.bias)) (by linarith)]

/-- R54: a magnitude that rounds to the smallest normal value, or to the value of the exponent below it that is next to that. -/
theorem tinyIn_last {z : Rounding} (neg : Bool) {k r s : Nat} (cut : Cut (m * (2 : ℚ) ^ e) (f.qmin - 1) k r s)
    (code : z.mode ≤ 4) (fine : g + 1 ≤ f.qmin) (most : k + 1 = 2 ^ (f.man + 1)) :
    tinyIn f z.mode neg y = !roundsAway { mode := if z.mode = 4 then 0 else z.mode } neg
      (k * (2 : ℚ) ^ (f.qmin - 1)) ((k + 1) * (2 : ℚ) ^ (f.qmin - 1)) y (k % 2 == 1) := by
  have odd : (k % 2 == 1) = true := by rw [Nat.pow_succ] at most; rw [beq_iff_eq]; omega
  have least : (2 : ℚ) ^ (1 - f.bias) = (k + 1) * (2 : ℚ) ^ (f.qmin - 1) := by
    rw [show (k : ℚ) + 1 = 2 ^ (f.man + 1) by exact_mod_cast most, ← zpow_natCast, ← zpow_add₀ (by norm_num), Fmt.qmin]
    congr 1
    push_cast
    ring
  have last : (2 : ℚ) ^ (1 - f.bias) - (2 : ℚ) ^ (f.qmin - 1) = k * (2 : ℚ) ^ (f.qmin - 1) := by rw [least]; ring
  have pair : (2 : ℚ) ^ (f.qmin - 1) = 2 * 2 ^ (f.qmin - 2) := by
    rw [show f.qmin - 1 = f.qmin - 2 + 1 by ring, zpow_add_one₀ (by norm_num), mul_comm]
  have mid : (2 : ℚ) ^ (1 - f.bias) - (2 : ℚ) ^ (f.qmin - 2) =
      (k * (2 : ℚ) ^ (f.qmin - 1) + (k + 1) * (2 : ℚ) ^ (f.qmin - 1)) / 2 := by rw [least, pair]; ring
  have le_last : y.le (k * (2 : ℚ) ^ (f.qmin - 1)) = true := reads.le_of _ cut.le
  have not_least : y.le ((2 : ℚ) ^ (1 - f.bias)) = false := by
    rw [least]
    exact reads.not_le _ _ (by exact_mod_cast onGrid_units ((k : Int) + 1) (by omega)) cut.lt le_rfl
  unfold tinyIn roundsAway
  simp only [last, mid, le_last, not_least, odd]
  have modes : z.mode = 0 ∨ z.mode = 1 ∨ z.mode = 2 ∨ z.mode = 3 ∨ z.mode = 4 := by omega
  rcases modes with h | h | h | h | h <;> cases neg <;> simp [h]

/-- R54: a magnitude with the exponent below that of the smallest normal value is tiny unless it rounds to that value. -/
theorem tinyIn_edge {z : Rounding} (neg : Bool) {k r s : Nat} (cut : Cut (m * (2 : ℚ) ^ e) (f.qmin - 1) k r s)
    (code : z.mode ≤ 4) (fine : g + 33 ≤ f.qmin) (few : k < 2 ^ (f.man + 1)) :
    decide ((if roundsUp (if z.mode = 4 then 0 else z.mode) 0 neg k r s rest then k + 1 else k) < 2 ^ (f.man + 1)) =
      tinyIn f z.mode neg y := by
  have away := roundsUp_eq cut reads (z := { mode := if z.mode = 4 then 0 else z.mode }) neg (by omega)
    (by dsimp only; split <;> omega) (fun _ => Nat.two_pow_pos 32)
  by_cases most : k + 1 = 2 ^ (f.man + 1)
  · rw [tinyIn_last reads neg cut code (by omega) most, ← away]
    cases roundsUp (if z.mode = 4 then 0 else z.mode) 0 neg k r s rest
    · simpa using few
    · simpa using most.ge
  · have under : (if roundsUp (if z.mode = 4 then 0 else z.mode) 0 neg k r s rest = true then k + 1 else k) <
        2 ^ (f.man + 1) := by
      cases roundsUp (if z.mode = 4 then 0 else z.mode) 0 neg k r s rest
      · exact few
      · exact Nat.lt_of_le_of_ne few most
    have step : ((k + 1 : Int) : ℚ) ≤ ((2 ^ (f.man + 1) - 1 : Int) : ℚ) := by
      have : k + 1 < 2 ^ (f.man + 1) := Nat.lt_of_le_of_ne few most
      have : (k : Int) + 1 < 2 ^ (f.man + 1) := by exact_mod_cast this
      exact Int.cast_le.2 (by omega)
    have units := least_sub f 1
    rw [show ((1 : Nat) : Int) = 1 from rfl] at units
    rw [decide_eq_true under, tinyIn_low reads _ _ (by omega)]
    rw [units]
    refine cut.lt.trans_le (mul_le_mul_of_nonneg_right ?_ (by positivity))
    exact_mod_cast step

/-- R54: the model's judgement of tininess is the statements'. -/
theorem tiny_eq {z : Rounding} (neg : Bool) (man : 1 ≤ f.man) (code : z.mode ≤ 4) (fine : g + 33 ≤ placeOf f m e)
    (low : m = 0 → e + 2 ≤ 1 - f.bias) : f.tiny z.mode neg m e rest = tinyIn f z.mode neg y := by
  have least : f.qmin + f.man = 1 - f.bias := by rw [Fmt.qmin]; ring
  unfold Fmt.tiny
  dsimp only
  by_cases normal : 1 - f.bias ≤ topExp m e
  · have pos : m ≠ 0 := by
      rintro rfl
      have := low rfl
      simp [topExp] at normal
      omega
    rw [if_pos normal]
    exact (tinyIn_normal reads _ _ ((zpow_le_zpow_right₀ (by norm_num) normal).trans (topExp_le e pos))).symm
  · have place : placeOf f m e = f.qmin := by
      unfold placeOf
      split
      · rfl
      · exact max_eq_right (by omega)
    rw [place] at fine
    rw [if_neg normal]
    by_cases under : topExp m e < 1 - f.bias - 1
    · rw [if_pos under]
      refine (tinyIn_low reads _ _ (by omega) ?_).symm
      have last : (2 : ℚ) ^ (f.qmin - 1) ≤ 2 ^ (1 - f.bias - 1) := zpow_le_zpow_right₀ (by norm_num) (by omega)
      have half : (2 : ℚ) ^ (1 - f.bias) = 2 ^ (1 - f.bias - 1) * 2 := by
        rw [← zpow_add_one₀ (by norm_num), sub_add_cancel]
      have upper : m * (2 : ℚ) ^ e < 2 ^ (1 - f.bias - 1) :=
        (lt_topExp e).trans_le (zpow_le_zpow_right₀ (by norm_num) (by omega))
      linarith
    · have pos : m ≠ 0 := by
        rintro rfl
        have := low rfl
        simp [topExp] at under
        omega
      have exact_ : topExp m e - f.man = f.qmin - 1 := by omega
      obtain ⟨k, r, s, cut, quantised⟩ := exists_cut m e (f.qmin - 1)
      have few : k < 2 ^ (f.man + 1) := by
        have upper := lt_topExp (m := m) e
        rw [show topExp m e + 1 = ((f.man + 1 : Nat) : Int) + (f.qmin - 1) by push_cast; omega, zpow_add₀ (by norm_num),
          zpow_natCast] at upper
        have := lt_of_mul_lt_mul_right (cut.le.trans_lt upper) (by positivity)
        exact_mod_cast this
      rw [if_neg under, exact_, quantised]
      exact tinyIn_edge reads neg cut code fine few

end

/-! ### A magnitude rounded once (R54 to R59) -/

theorem overflow_eq (f : Fmt) (z : Rounding) (neg : Bool) : f.overflow z neg = beyond f z neg := by
  unfold Fmt.overflow beyond
  cases z.ovf <;> simp [or_assoc, ← apply_ite (f.signed neg)]

/-- R56, R58: what a format makes of a rounded magnitude, given as its code, and of the flag UF that it would raise. -/
def delivered (f : Fmt) (z : Rounding) (neg : Bool) (mag : Nat) (uf : Flags) : Nat × Flags :=
  if f.maxCode < mag then beyond f z neg
  else if z.ftz = true ∧ (f.width = 32 ∨ f.width = 16) ∧ 0 < mag ∧ mag < 2 ^ f.man then (f.signed neg 0, flUF)
  else (f.signed neg mag, uf)

/-- A magnitude in units of its last place is the code that many units above the codes of the lower places. -/
theorem cut_units {f : Fmt} {m c r s : Nat} {e : Int} (cut : Cut (m * (2 : ℚ) ^ e) (placeOf f m e) c r s) :
    ((placeOf f m e - f.qmin).toNat = 0 ∨ 2 ^ f.man ≤ c) ∧ c < 2 * 2 ^ f.man := by
  have two : (1 : ℚ) < 2 := by norm_num
  constructor
  · by_cases lowest : placeOf f m e = f.qmin
    · exact .inl (by rw [lowest]; simp)
    · have pos : m ≠ 0 := fun h => lowest (if_pos h)
      have place : placeOf f m e = topExp m e - f.man := by
        unfold placeOf at lowest ⊢
        rw [if_neg pos] at lowest ⊢
        omega
      have full := (topExp_le e pos).trans_lt cut.lt
      rw [show topExp m e = (f.man : Int) + placeOf f m e by omega, zpow_add₀ (by norm_num), zpow_natCast] at full
      have := lt_of_mul_lt_mul_right full (by positivity)
      exact .inr (Nat.lt_succ_iff.1 (by exact_mod_cast this))
  · have high : m * (2 : ℚ) ^ e < 2 ^ ((f.man + 1 : Nat) + placeOf f m e : Int) := by
      rcases Nat.eq_zero_or_pos m with rfl | pos
      · simpa using (by positivity : (0 : ℚ) < 2 ^ (((f.man : Int) + 1) + placeOf f 0 e))
      · refine (lt_topExp e).trans_le (zpow_le_zpow_right₀ two.le ?_)
        rw [placeOf, if_neg (by omega)]
        push_cast
        omega
    rw [zpow_add₀ (by norm_num), zpow_natCast, pow_succ'] at high
    have := lt_of_mul_lt_mul_right (cut.le.trans_lt high) (by positivity)
    exact_mod_cast this

/-- The model's rounding: the units of the last place, one more where the rounding goes away, and what the format makes of them. -/
theorem roundFin_eq (f : Fmt) {z : Rounding} (neg : Bool) {m : Nat} {e : Int} {rest : Bool}
    (low : m = 0 → rest = true → e + 2 ≤ 1 - f.bias) (code : z.mode ≤ 4) (small : z.mode = 4 → z.draw < 2 ^ 32) :
    ∃ c r s, Cut (m * (2 : ℚ) ^ e) (placeOf f m e) c r s ∧ f.roundFin z neg m e rest =
      delivered f z neg (if roundsUp z.mode z.draw neg c r s rest then (placeOf f m e - f.qmin).toNat * 2 ^ f.man + c + 1
          else (placeOf f m e - f.qmin).toNat * 2 ^ f.man + c)
        (flagIf ((r != 0 || rest) && f.tiny z.mode neg m e rest) flUF) := by
  have flushes : f.flushes = decide (f.width = 32 ∨ f.width = 16) := by
    rw [Bool.eq_iff_iff]
    simp [Fmt.flushes]
  by_cases zero : m = 0 ∧ rest = false
  · obtain ⟨rfl, rfl⟩ := zero
    have stays : roundsUp z.mode z.draw neg 0 0 0 false = false := by
      have modes : z.mode = 0 ∨ z.mode = 1 ∨ z.mode = 2 ∨ z.mode = 3 ∨ z.mode = 4 := by omega
      rcases modes with h | h | h | h | h <;> simp [roundsUp, h]
      exact small h
    refine ⟨0, 0, 0, ⟨by simp, by simp⟩, ?_⟩
    rw [stays]
    simp [Fmt.roundFin, delivered, placeOf, flagIf]
  · obtain ⟨c, r, s, cut, quantised⟩ := exists_cut m e (placeOf f m e)
    have place : max (topExp m e - f.man) f.qmin = placeOf f m e := by
      unfold placeOf
      split
      · rename_i h
        have := low h (by cases rest <;> simp_all)
        rw [h, Fmt.qmin]
        simp [topExp]
        omega
      · rfl
    have live : (decide (m = 0) && !rest) = false := by cases rest <;> simp_all
    refine ⟨c, r, s, cut, ?_⟩
    rw [Fmt.roundFin, live, place, if_neg Bool.false_ne_true]
    dsimp only
    rw [quantised, overflow_eq, delivered, flushes, Nat.add_assoc, ← apply_ite]
    simp only [Bool.and_eq_true, decide_eq_true_eq, bne_iff_ne, Nat.pos_iff_ne_zero, and_assoc]

/-- A magnitude from code `n` up to the next: what its rounding delivers is that of one of the two. -/
theorem roundsTo_of_code (f : Fmt) (z : Rounding) (neg : Bool) {y : Exact} {n : Nat} (reached : ∀ k ≤ n, y.le (magOf f k) = true)
    (unreached : ∀ k, n < k → y.le (magOf f k) = false) :
    RoundsTo f z neg y (delivered f z neg
      (if roundsAway z neg (magOf f n) (magOf f (n + 1)) y (n % 2 == 1) then n + 1 else n)
      (if y.eq (magOf f n) = false ∧ tinyIn f z.mode neg y = true then flUF else 0)) := by
  refine ⟨fun high => ?_, fun k most le_k lt_k => ?_⟩
  · have : f.maxCode + 1 ≤ n := by
      by_contra h
      rw [unreached _ (not_le.1 h)] at high
      exact Bool.false_ne_true high
    rw [delivered, if_pos]
    split <;> omega
  · have code : k = n := by
      rcases lt_trichotomy k n with less | same | more
      · rw [reached _ less] at lt_k; exact absurd lt_k (by decide)
      · exact same
      · rw [unreached _ more] at le_k; exact absurd le_k (by decide)
    subst code
    rfl

/-- R54 to R58: the model rounds an exact magnitude to one of the two codes that bracket it, as the statements say. -/
theorem roundFin_roundsTo {f : Fmt} {z : Rounding} (neg : Bool) {m : Nat} {e g : Int} {rest : Bool} {y : Exact}
    (reads : Reads y (m * (2 : ℚ) ^ e) rest g) (man : 1 ≤ f.man) (fine : g + 33 ≤ placeOf f m e)
    (low : m = 0 → rest = true → e + 2 ≤ 1 - f.bias) (code : z.mode ≤ 4) (small : z.mode = 4 → z.draw < 2 ^ 32) :
    RoundsTo f z neg y (f.roundFin z neg m e rest) := by
  obtain ⟨c, r, s, cut, rounded⟩ := roundFin_eq f neg low code small
  obtain ⟨place, few⟩ := cut_units cut
  have above : f.qmin ≤ placeOf f m e := by
    unfold placeOf
    split
    · exact le_rfl
    · exact le_max_right ..
  have exp : f.qmin + ((placeOf f m e - f.qmin).toNat : Int) = placeOf f m e := by omega
  have lo := magOf_units f place few
  have hi := magOf_units_succ f place few
  rw [exp] at lo hi
  have mono := (magOf_strictMono f).monotone
  have parity : (((placeOf f m e - f.qmin).toNat * 2 ^ f.man + c) % 2 == 1) = (c % 2 == 1) := by
    obtain ⟨b, hb⟩ := Nat.exists_eq_add_of_le' man
    rw [hb, Nat.pow_succ, ← Nat.mul_assoc, Nat.mul_comm _ 2, Nat.mul_add_mod]
  generalize (placeOf f m e - f.qmin).toNat * 2 ^ f.man + c = n at lo hi parity rounded
  have inexact : (r != 0 || rest) = !y.eq (magOf f n) := by
    rw [lo, cut.eq_low reads (by omega)]
    cases rest <;> simp [bne]
  have tiny : (!y.eq (magOf f n)) = true → f.tiny z.mode neg m e rest = tinyIn f z.mode neg y := fun above => by
    refine tiny_eq reads neg man code fine fun zero => low zero ?_
    rw [← inexact, cut.part_eq_zero (by simp [zero])] at above
    simpa using above
  have uf : flagIf ((r != 0 || rest) && f.tiny z.mode neg m e rest) flUF =
      if y.eq (magOf f n) = false ∧ tinyIn f z.mode neg y = true then flUF else 0 := by
    rw [inexact, flagIf]
    cases same : y.eq (magOf f n)
    · simp [tiny (by rw [same]; rfl)]
    · rfl
  have spec := roundsTo_of_code f z neg (n := n)
    (fun k h => reads.le_of _ ((mono h).trans (lo ▸ cut.le)))
    (fun k h => reads.not_le _ _ (by exact_mod_cast onGrid_units ((c : Int) + 1) (by omega)) cut.lt (hi ▸ mono h))
  rwa [rounded, uf, roundsUp_eq cut reads neg (by omega) code small, ← lo, ← hi, ← parity]

/-- R54 to R58: a rational magnitude rounded once. -/
theorem roundFin_of {f : Fmt} {z : Rounding} (neg : Bool) (m : Nat) (e : Int) (man : 1 ≤ f.man) (code : z.mode ≤ 4)
    (small : z.mode = 4 → z.draw < 2 ^ 32) : RoundsTo f z neg (Exact.of (m * (2 : ℚ) ^ e)) (f.roundFin z neg m e) :=
  roundFin_roundsTo neg (reads_of _ (placeOf f m e - 33)) man (by omega) (fun _ h => absurd h (by decide)) code small

theorem finish_eq (f : Fmt) (z : Rounding) (x : Fp) (fl : Flags) : f.finish z (x, fl) = ((f.round z x).1, (f.round z x).2 ||| fl) := rfl

theorem finish_quiet (f : Fmt) (z : Rounding) (x : Fp) : f.finish z (x, 0) = f.round z x := by
  rw [finish_eq, show (f.round z x).2 ||| (0 : Flags) = (f.round z x).2 from BitVec.or_zero]

/-! ### The formats -/

/-- The formats that the statements speak of. -/
def fmts : List Fmt := [fmtF32, fmtBf16, fmtF16, fmtE4M3, fmtE5M2, fmtE3M2, fmtE2M3, fmtE2M1]

theorem fmts_man : ∀ f ∈ fmts, 1 ≤ f.man := by decide

end Sys2Proof.Proofs
end

section
/-! PROOFS. Scalar floating point: exact sums and products, comparisons and conversions (R53 to R60, R287 to R289). -/

namespace Sys2Proof.Proofs

open Sys2Proof Sys2Proof.Machine Sys2Proof.Safety Sys2Proof.Laws

/-! ### Exact sums and products (R53, R54, R56) -/

/-- The whole number of 2^q that a finite value is. -/
def units (q : Int) (x : Fp) : Int := if x.isZero then 0 else x.scaled q

theorem finite_iff (x : Fp) : finite x = true ↔ ∃ n m e, x = .fin n m e := by
  cases x <;> simp [finite, Fp.isNan, Fp.isInf]

theorem isZero_of_exp_none {x : Fp} (fin : finite x = true) (h : x.exp? = none) : x.isZero = true := by
  obtain ⟨n, m, e, rfl⟩ := (finite_iff x).1 fin
  by_cases zero : m = 0 <;> simp_all [Fp.exp?, Fp.isZero]

theorem ratOf_units {x : Fp} {q : Int} (fin : finite x = true) (low : ∀ e, x.exp? = some e → q ≤ e) :
    ratOf x = units q x * (2 : ℚ) ^ q := by
  obtain ⟨n, m, e, rfl⟩ := (finite_iff x).1 fin
  unfold units
  by_cases zero : m = 0
  · simp [Fp.isZero, ratOf, zero]
  · have below : q ≤ e := low e (by simp [Fp.exp?, zero])
    have : (2 : ℚ) ^ e = 2 ^ (e - q).toNat * 2 ^ q := by
      rw [← zpow_natCast, ← zpow_add₀ (by norm_num), Int.toNat_of_nonneg (by omega), sub_add_cancel]
    rw [if_neg (by simpa [Fp.isZero] using zero)]
    cases n <;> simp [ratOf, Fp.scaled, this] <;> ring

theorem minExp_le {xs : List Fp} {x : Fp} (mem : x ∈ xs) {e : Int} (h : x.exp? = some e) : ∃ q, minExp xs = some q ∧ q ≤ e := by
  induction xs with
  | nil => exact absurd mem List.not_mem_nil
  | cons y t ih =>
    rcases List.mem_cons.1 mem with rfl | later
    · simp only [minExp, h]
      cases minExp t with
      | none => exact ⟨e, rfl, le_rfl⟩
      | some k => exact ⟨min e k, rfl, min_le_left ..⟩
    · obtain ⟨q, hq, below⟩ := ih later
      simp only [minExp, hq]
      cases y.exp? with
      | none => exact ⟨q, rfl, below⟩
      | some k => exact ⟨min k q, rfl, (min_le_right ..).trans below⟩

theorem foldl_units (q : Int) (xs : List Fp) : ∀ a : Int,
    xs.foldl (fun a x => a + (if x.isZero then 0 else x.scaled q)) a = a + (xs.map (units q)).sum := by
  induction xs with
  | nil => intro a; simp
  | cons x t ih => intro a; rw [List.foldl_cons, ih, List.map_cons, List.sum_cons, ← add_assoc]; rfl

theorem sum_ratOf (q : Int) (xs : List Fp) (h : ∀ x ∈ xs, ratOf x = units q x * (2 : ℚ) ^ q) :
    (xs.map ratOf).sum = ((xs.map (units q)).sum : Int) * (2 : ℚ) ^ q := by
  induction xs with
  | nil => simp
  | cons x t ih =>
    rw [List.map_cons, List.sum_cons, List.map_cons, List.sum_cons, ih fun y hy => h y (List.mem_cons_of_mem _ hy),
      h x List.mem_cons_self]
    push_cast
    ring

/-- The values of a list in whole numbers of the least unit among them. -/
theorem ratOf_least {xs : List Fp} {x : Fp} (mem : x ∈ xs) (fin : finite x = true) :
    ratOf x = units ((minExp xs).getD 0) x * (2 : ℚ) ^ (minExp xs).getD 0 :=
  ratOf_units fin fun e he => by
    obtain ⟨q, hq, below⟩ := minExp_le mem he
    rw [hq]
    exact below

theorem ratOf_signed (k q : Int) : ratOf (.fin (k < 0) k.natAbs q) = k * (2 : ℚ) ^ q := by
  rcases lt_or_ge k 0 with neg | pos
  · have size : ((k.natAbs : Int) : ℚ) = ((-k : Int) : ℚ) := by rw [Int.ofNat_natAbs_of_nonpos neg.le]
    push_cast at size
    simp [ratOf, neg, size]
  · have size : ((k.natAbs : Int) : ℚ) = (k : ℚ) := by rw [Int.natAbs_of_nonneg pos]
    push_cast at size
    simp [ratOf, not_lt.2 pos, size]

theorem not_isNan {x : Fp} (fin : finite x = true) : x.isNan = false := by
  obtain ⟨n, m, e, rfl⟩ := (finite_iff x).1 fin
  rfl

theorem not_isInf {x : Fp} (fin : finite x = true) : x.isInf = false := by
  obtain ⟨n, m, e, rfl⟩ := (finite_iff x).1 fin
  rfl

/-- R53: the exact sum of finite values is their sum, and raises no flag. -/
theorem sumFp_finite (mode : Nat) (xs : List Fp) (fin : ∀ x ∈ xs, finite x = true) :
    (sumFp mode xs).2 = 0 ∧ finite (sumFp mode xs).1 = true ∧ ratOf (sumFp mode xs).1 = (xs.map ratOf).sum := by
  have noNan : xs.any Fp.isNan = false := List.any_eq_false.2 fun x hx => by simp [not_isNan (fin x hx)]
  have noInf : xs.any Fp.isInf = false := List.any_eq_false.2 fun x hx => by simp [not_isInf (fin x hx)]
  have noNegInf : (xs.any fun x => x.isInf && x.neg) = false := List.any_eq_false.2 fun x hx => by simp [not_isInf (fin x hx)]
  have total := sum_ratOf _ xs fun x hx => ratOf_least hx (fin x hx)
  rw [total, sumFp, noNan, noNegInf, noInf]
  cases least : minExp xs with
  | none =>
    have none_ : xs.map (units 0) = List.replicate xs.length 0 := List.map_eq_replicate_iff.2 fun x hx => by
      refine if_pos (isZero_of_exp_none (fin x hx) ?_)
      by_contra some_
      obtain ⟨e, he⟩ := Option.ne_none_iff_exists'.1 some_
      obtain ⟨q, hq, -⟩ := minExp_le hx he
      exact absurd (least.symm.trans hq) (by simp)
    exact ⟨rfl, rfl, by simp [none_, ratOf]⟩
  | some q =>
    simp only [foldl_units, zero_add, Option.getD_some, Bool.false_eq_true, if_false]
    by_cases zero : (xs.map (units q)).sum = 0
    · rw [if_pos zero, zero]
      exact ⟨rfl, rfl, by simp [ratOf]⟩
    · rw [if_neg zero]
      exact ⟨rfl, rfl, ratOf_signed _ q⟩

theorem mulFp_finite {a b : Fp} (ha : finite a = true) (hb : finite b = true) :
    (mulFp a b).2 = 0 ∧ finite (mulFp a b).1 = true ∧ ratOf (mulFp a b).1 = ratOf a * ratOf b := by
  obtain ⟨n, m, e, rfl⟩ := (finite_iff a).1 ha
  obtain ⟨n', m', e', rfl⟩ := (finite_iff b).1 hb
  refine ⟨rfl, rfl, ?_⟩
  simp only [mulFp, ratOf, zpow_add₀ (by norm_num : (2 : ℚ) ≠ 0)]
  cases n <;> cases n' <;> push_cast <;> simp <;> ring

theorem finite_negate {a : Fp} (ha : finite a = true) : finite a.negate = true ∧ ratOf a.negate = -ratOf a := by
  obtain ⟨n, m, e, rfl⟩ := (finite_iff a).1 ha
  refine ⟨rfl, ?_⟩
  cases n <;> simp [Fp.negate, ratOf]

theorem sumFp_pair (mode : Nat) {a b : Fp} (ha : finite a = true) (hb : finite b = true) :
    (sumFp mode [a, b]).2 = 0 ∧ finite (sumFp mode [a, b]).1 = true ∧ ratOf (sumFp mode [a, b]).1 = ratOf a + ratOf b := by
  simpa using sumFp_finite mode [a, b] (by simp [ha, hb])

theorem fmaFp_finite (mode : Nat) {a b c : Fp} (ha : finite a = true) (hb : finite b = true) (hc : finite c = true) :
    (fmaFp mode a b c).2 = 0 ∧ finite (fmaFp mode a b c).1 = true ∧ ratOf (fmaFp mode a b c).1 = ratOf a * ratOf b + ratOf c := by
  obtain ⟨quiet, fin, value⟩ := mulFp_finite ha hb
  obtain ⟨quiet', fin', value'⟩ := sumFp_pair mode fin hc
  refine ⟨?_, fin', by rw [← value]; exact value'⟩
  show (mulFp a b).2 ||| (sumFp mode [(mulFp a b).1, c]).2 = 0
  rw [quiet, quiet']
  rfl

/-! ### NaN operands (R52) -/

theorem sumFp_nan (mode : Nat) {xs : List Fp} (h : xs.any Fp.isNan = true) : sumFp mode xs = (.nan, 0) := by
  rw [sumFp, h]
  rfl

theorem isNan_iff (x : Fp) : x.isNan = true ↔ x = .nan := by
  cases x <;> simp [Fp.isNan]

theorem mulFp_nan {a b : Fp} (h : a.isNan = true ∨ b.isNan = true) : mulFp a b = (.nan, 0) := by
  rcases h with h | h
  · rw [(isNan_iff a).1 h]
    rfl
  · rw [(isNan_iff b).1 h]
    cases a <;> rfl

/-- A NaN factor or addend gives NaN and no flag, unless the product is invalid. -/
theorem fmaFp_nan (mode : Nat) {a b c : Fp}
    (h : a.isNan = true ∨ b.isNan = true ∨ c.isNan = true ∧ a.isInf = false ∧ b.isInf = false) : fmaFp mode a b c = (.nan, 0) := by
  have factor : a.isNan = true ∨ b.isNan = true → fmaFp mode a b c = (.nan, 0) := fun h => by
    rw [fmaFp, mulFp_nan h]
    rfl
  rcases h with h | h | ⟨h, ha, hb⟩
  · exact factor (.inl h)
  · exact factor (.inr h)
  · rw [(isNan_iff c).1 h] at *
    cases a with
    | nan => exact factor (.inl rfl)
    | inf => exact absurd ha (by simp [Fp.isInf])
    | fin n m e =>
      cases b with
      | nan => exact factor (.inr rfl)
      | inf => exact absurd hb (by simp [Fp.isInf])
      | fin => rfl

theorem finish_nan {m : Fmt} (quiet : m.canon.2 = 0) (z : Rounding) : m.finish z (.nan, 0) = (m.canon.1, 0) := by
  rw [finish_quiet, ← quiet]
  rfl

/-! ### FADD, FSUB, FMUL and FMA (R287) -/

theorem logFull_of_room {s : State} (room : (me s).seq.log.length < 8) : (me s).logFull = false :=
  decide_eq_false (Nat.not_le.2 room)

/-- R287: an operation enters the log with its exact result rounded once. -/
theorem fpOp_logged {s : State} {i : Instr} {x : FpArgs} {useD : Bool} {f : Nat → Fp → Fp → Fp → Fp × Flags} (arm : Out)
    (named : exec i s = arm) (run : arm = fpOp i x useD f s)
    (ready : Ready s i x.g (if useD then [x.a, x.b, x.d] else [x.a, x.b])) (room : (me s).seq.log.length < 8) :
    let v (r : Reg) : Fp := (fpFmt x.t).read (me s).seq.fp.ftz ((me s).gval r).toNat
    let o := (fpFmt x.t).finish (me s).rounding (f (me s).seq.fp.mode.toNat (v x.a) (v x.b) (v x.d))
    ∃ t, exec i s = .next t ∧ Logged s t (destG x.d) 4 (BitVec.ofNat 64 o.1) o.2 := by
  rw [named, run]
  exact logOp_ready ready (logFull_of_room room)

theorem fpOps_logged (x : FpArgs) (s : State) : ∀ p ∈ fpOps,
    Ready s (p.1 x) x.g (if p.2.1 then [x.a, x.b, x.d] else [x.a, x.b]) → (me s).seq.log.length < 8 →
    let v (r : Reg) : Fp := (fpFmt x.t).read (me s).seq.fp.ftz ((me s).gval r).toNat
    let o := (fpFmt x.t).finish (me s).rounding (p.2.2 (me s).seq.fp.mode.toNat (v x.a) (v x.b) (v x.d))
    ∃ t, exec (p.1 x) s = .next t ∧ Logged s t (destG x.d) 4 (BitVec.ofNat 64 o.1) o.2 := by
  intro p hp
  simp only [fpOps, List.mem_cons, List.not_mem_nil, or_false] at hp
  rcases hp with rfl | rfl | rfl | rfl
  · exact fpOp_logged (execFadd x s) rfl rfl
  · exact fpOp_logged (execFsub x s) rfl rfl
  · exact fpOp_logged (execFmul x s) rfl rfl
  · exact fpOp_logged (execFma x s) rfl rfl

/-- Of finite operands every operation raises no flag before the rounding and gives a finite value. -/
theorem fpOps_finite (mode : Nat) {a b d : Fp} (ha : finite a = true) (hb : finite b = true) (hd : finite d = true) :
    ∀ p ∈ fpOps, (p.2.2 mode a b d).2 = 0 ∧ finite (p.2.2 mode a b d).1 = true := by
  intro p hp
  simp only [fpOps, List.mem_cons, List.not_mem_nil, or_false] at hp
  rcases hp with rfl | rfl | rfl | rfl
  · exact ⟨(sumFp_pair mode ha hb).1, (sumFp_pair mode ha hb).2.1⟩
  · exact ⟨(sumFp_pair mode ha (finite_negate hb).1).1, (sumFp_pair mode ha (finite_negate hb).1).2.1⟩
  · exact ⟨(mulFp_finite ha hb).1, (mulFp_finite ha hb).2.1⟩
  · exact ⟨(fmaFp_finite mode ha hb hd).1, (fmaFp_finite mode ha hb hd).2.1⟩

/-- R52: a NaN operand makes the result NaN, and no flag. -/
theorem fpOps_nan (mode : Nat) {a b d : Fp} : ∀ p ∈ fpOps, a.isNan = true ∨ b.isNan = true ∨
    (p.2.1 = true ∧ d.isNan = true ∧ a.isInf = false ∧ b.isInf = false) → p.2.2 mode a b d = (.nan, 0) := by
  have either : ∀ {c : Fp}, a.isNan = true ∨ c.isNan = true → ([a, c].any Fp.isNan) = true := by simp
  have pair : ∀ {q : Prop}, a.isNan = true ∨ b.isNan = true ∨ (false = true ∧ q) → a.isNan = true ∨ b.isNan = true := by simp
  have negated : b.negate.isNan = b.isNan := by cases b <;> rfl
  intro p hp h
  simp only [fpOps, List.mem_cons, List.not_mem_nil, or_false] at hp
  rcases hp with rfl | rfl | rfl | rfl
  · exact sumFp_nan mode (either (pair h))
  · exact sumFp_nan mode (either (negated ▸ pair h))
  · exact mulFp_nan (pair h)
  · exact fmaFp_nan mode (h.imp_right (Or.imp_right And.right))

/-- R54 to R58: a finite exact value is rounded once. -/
theorem finish_roundsTo {m : Fmt} {z : Rounding} (neg : Bool) (k : Nat) (e : Int) (man : 1 ≤ m.man) (code : z.mode ≤ 4)
    (small : z.mode = 4 → z.draw < 2 ^ 32) : RoundsTo m z neg (Exact.of (k * (2 : ℚ) ^ e)) (m.finish z (.fin neg k e, 0)) :=
  finish_quiet m z (.fin neg k e) ▸ roundFin_of neg k e man code small

/-- Settles O16: the operations enter the log, their exact results are the rational ones, and every rounding is `roundFin_of`. -/
theorem floatResults : Obligations.FloatResults := by
  refine ⟨fun p hp x s => fpOps_logged x s p hp, fun mode a b d ha hb hd => ⟨fpOps_finite mode ha hb hd, ?_, ?_, ?_, ?_⟩,
    fun p hp m hm q a b d h => ?_, fun m hm q neg k e code small => finish_roundsTo neg k e (fmts_man m hm) code fun _ => small⟩
  · exact (sumFp_pair mode ha hb).2.2
  · rw [(sumFp_pair mode ha (finite_negate hb).1).2.2, (finite_negate hb).2, sub_eq_add_neg]
  · exact (mulFp_finite ha hb).2.2
  · exact (fmaFp_finite mode ha hb hd).2.2
  · rw [fpOps_nan q.mode p hp h]
    refine finish_nan ?_ q
    simp only [List.mem_cons, List.not_mem_nil, or_false] at hm
    rcases hm with rfl | rfl <;> rfl

end Sys2Proof.Proofs
end

section
/-! PROOFS. Scalar floating-point picks, comparisons and conversions (R53, R59, R60, R287 to R289). -/

namespace Sys2Proof.Proofs

open Sys2Proof Sys2Proof.Machine Sys2Proof.Safety Sys2Proof.Laws

/-! ### Comparison and choice (R53, R288) -/

/-- Two finite values compare as the rational numbers that they are. -/
theorem cmpFp_finite {x y : Fp} (hx : finite x = true) (hy : finite y = true) :
    cmpFp x y = some (if ratOf x < ratOf y then -1 else if ratOf x = ratOf y then 0 else 1) := by
  have value : ∀ z ∈ [x, y], ratOf z = units ((minExp [x, y]).getD 0) z * (2 : ℚ) ^ (minExp [x, y]).getD 0 := by
    intro z hz
    refine ratOf_least hz ?_
    rcases List.mem_pair.1 hz with rfl | rfl
    · exact hx
    · exact hy
  have unit : (0 : ℚ) < 2 ^ (minExp [x, y]).getD 0 := by positivity
  have less : ratOf x < ratOf y ↔ units ((minExp [x, y]).getD 0) x < units ((minExp [x, y]).getD 0) y := by
    rw [value x (by simp), value y (by simp), mul_lt_mul_iff_left₀ unit, Int.cast_lt]
  have same : ratOf x = ratOf y ↔ units ((minExp [x, y]).getD 0) x = units ((minExp [x, y]).getD 0) y := by
    rw [value x (by simp), value y (by simp), mul_left_inj' unit.ne', Int.cast_inj]
  obtain ⟨n, m, e, rfl⟩ := (finite_iff x).1 hx
  obtain ⟨n', m', e', rfl⟩ := (finite_iff y).1 hy
  simp only [less, same]
  show some (if units _ _ - units _ _ < 0 then (-1 : Int) else if units _ _ - units _ _ = 0 then 0 else 1) = _
  simp only [sub_neg, sub_eq_zero]

theorem cmpFp_nan {x y : Fp} (h : x.isNan = true ∨ y.isNan = true) : cmpFp x y = none := by
  rcases h with h | h
  · rw [(isNan_iff x).1 h]
    rfl
  · rw [(isNan_iff y).1 h]
    cases x <;> rfl

/-- R288: a comparison of two numbers is negative, zero or positive as the first is less, equal or greater. -/
theorem cmpFp_spec {x y : Fp} (hx : x.isNan = false) (hy : y.isNan = false) :
    ∃ d, cmpFp x y = some d ∧ (d < 0 ↔ fpLess x y) ∧ (0 < d ↔ fpLess y x) := by
  cases x with
  | nan => exact absurd hx (by simp [Fp.isNan])
  | inf a =>
    cases y with
    | nan => exact absurd hy (by simp [Fp.isNan])
    | inf b => refine ⟨_, rfl, ?_⟩; cases a <;> cases b <;> simp [fpLess]
    | fin => refine ⟨_, rfl, ?_⟩; cases a <;> simp [fpLess]
  | fin n m e =>
    cases y with
    | nan => exact absurd hy (by simp [Fp.isNan])
    | inf b => refine ⟨_, rfl, ?_⟩; cases b <;> simp [fpLess]
    | fin n' m' e' =>
      refine ⟨_, cmpFp_finite rfl rfl, ?_⟩
      simp only [fpLess]
      rcases lt_trichotomy (ratOf (.fin n m e)) (ratOf (.fin n' m' e')) with less | same | more
      · simp [less, less.not_gt]
      · simp [same]
      · simp [more, more.not_gt, more.ne']

/-- R53: FMIN takes the second of two numbers when it lies below the first. -/
theorem minFirst_iff {x y : Fp} (hx : x.isNan = false) (hy : y.isNan = false) : minFirst x y = true ↔ ¬ fpBelow y x := by
  obtain ⟨d, hd, less, more⟩ := cmpFp_spec hx hy
  rw [minFirst, hd, fpBelow, ← less, ← more]
  rcases lt_trichotomy d 0 with neg | rfl | pos
  · simp [neg, neg.ne, neg.le]
  · cases x.neg <;> cases y.neg <;> simp
  · simp [pos, pos.ne', pos.le]

/-- R53: FMAX takes the second of two numbers when the first lies below it. -/
theorem maxFirst_iff {x y : Fp} (hx : x.isNan = false) (hy : y.isNan = false) : maxFirst x y = true ↔ ¬ fpBelow x y := by
  obtain ⟨d, hd, less, more⟩ := cmpFp_spec hx hy
  rw [maxFirst, hd, fpBelow, ← less, ← more]
  rcases lt_trichotomy d 0 with neg | rfl | pos
  · simp [neg, neg.ne, neg.le]
  · cases x.neg <;> cases y.neg <;> simp
  · simp [pos, pos.ne', pos.le]

theorem first_of_nan {x y : Fp} (h : x.isNan = true ∨ y.isNan = true) : minFirst x y = y.isNan ∧ maxFirst x y = y.isNan := by
  rw [minFirst, maxFirst, cmpFp_nan h]
  exact ⟨rfl, rfl⟩

/-- Whether a pick of two numbers is the second. -/
def picksSecond (big : Bool) (x y : Fp) : Prop := if big then fpBelow x y else fpBelow y x

/-- R53: what FMIN and FMAX give of two codes. -/
theorem pick_spec (f : Fmt) (ftz big : Bool) (a b : Nat) :
    ((f.read ftz a).isNan = true → (f.read ftz b).isNan = true → f.pick ftz big a b = f.canon.1) ∧
    ((f.read ftz a).isNan = true → (f.read ftz b).isNan = false → f.pick ftz big a b = f.flush ftz b) ∧
    ((f.read ftz a).isNan = false → (f.read ftz b).isNan = true → f.pick ftz big a b = f.flush ftz a) ∧
    ((f.read ftz a).isNan = false → (f.read ftz b).isNan = false →
      (picksSecond big (f.read ftz a) (f.read ftz b) → f.pick ftz big a b = f.flush ftz b) ∧
      (¬picksSecond big (f.read ftz a) (f.read ftz b) → f.pick ftz big a b = f.flush ftz a)) := by
  have one : ∀ {x y : Fp}, x.isNan = true ∨ y.isNan = true → (if big then maxFirst x y else minFirst x y) = y.isNan :=
    fun h => by rw [(first_of_nan h).1, (first_of_nan h).2, ite_self]
  refine ⟨fun ha hb => ?_, fun ha hb => ?_, fun ha hb => ?_, fun ha hb => ?_⟩
  · simp [Fmt.pick, ha, hb]
  · simp only [Fmt.pick, ha, hb, one (.inl ha)]; rfl
  · simp only [Fmt.pick, ha, hb, one (.inr hb)]; rfl
  · have first : (if big then maxFirst (f.read ftz a) (f.read ftz b) else minFirst (f.read ftz a) (f.read ftz b)) = true ↔
        ¬picksSecond big (f.read ftz a) (f.read ftz b) := by
      cases big
      · exact minFirst_iff ha hb
      · exact maxFirst_iff ha hb
    simp only [Fmt.pick, ha, hb]
    exact ⟨fun second => if_neg fun h => first.1 h second, fun h => if_pos (first.2 h)⟩

/-- R288: the model's comparison is the condition on numbers. -/
theorem compare_iff (f : Fmt) (ftz : Bool) (cc : FcmpCond) (a b : Nat) :
    f.compare ftz (fcmpCode cc) a b = true ↔ fcmpHolds cc (f.read ftz a) (f.read ftz b) := by
  rw [Fmt.compare]
  by_cases nan : (f.read ftz a).isNan = true ∨ (f.read ftz b).isNan = true
  · have none_ : ¬((f.read ftz a).isNan = false ∧ (f.read ftz b).isNan = false) := by rintro ⟨ha, hb⟩; simp [ha, hb] at nan
    have unordered : ¬fpLess (f.read ftz a) (f.read ftz b) ∧ ¬fpLess (f.read ftz b) (f.read ftz a) := by
      rcases nan with h | h
      · rw [(isNan_iff _).1 h]; cases f.read ftz b <;> simp [fpLess]
      · rw [(isNan_iff _).1 h]; cases f.read ftz a <;> simp [fpLess]
    rw [cmpFp_nan nan]
    cases cc <;> simp only [fcmpHolds, none_, unordered, fcmpCode] <;> simp
  · have both : (f.read ftz a).isNan = false ∧ (f.read ftz b).isNan = false := by simpa using nan
    obtain ⟨d, hd, less, more⟩ := cmpFp_spec both.1 both.2
    rw [hd]
    cases cc <;> simp only [fcmpHolds, both, ← less, ← more, fcmpCode] <;> simp <;> omega

/-! ### Codes within the width of their format -/

/-- What the codes of a format keep to: infinity and NaN lie above the codes of the lowest place, and all within the width. -/
def Fits (f : Fmt) : Prop :=
  f.maxCode < 2 ^ (f.width - 1) ∧ f.inf.getD 0 < 2 ^ (f.width - 1) ∧ f.nan.getD 0 < 2 ^ (f.width - 1) ∧ 1 ≤ f.width ∧
    2 ^ f.man ≤ f.inf.getD (2 ^ f.man) ∧ 2 ^ f.man ≤ f.nan.getD (2 ^ f.man)

theorem fmts_fit : ∀ f ∈ fmts, Fits f := by
  intro f hf
  simp only [fmts, List.mem_cons, List.not_mem_nil, or_false] at hf
  rcases hf with rfl | rfl | rfl | rfl | rfl | rfl | rfl | rfl <;> refine ⟨?_, ?_, ?_, ?_, ?_, ?_⟩ <;> decide

section
variable {f : Fmt} (fits : Fits f)
include fits

theorem signed_lt {mag : Nat} (neg : Bool) (h : mag < 2 ^ (f.width - 1)) : f.signed neg mag < 2 ^ f.width := by
  obtain ⟨-, -, -, wide, -⟩ := fits
  have halves : 2 ^ f.width = 2 ^ (f.width - 1) * 2 := by rw [← Nat.pow_succ, Nat.succ_eq_add_one, Nat.sub_add_cancel wide]
  rw [Fmt.signed, halves]
  split <;> omega

theorem canon_lt : f.canon.1 < 2 ^ f.width := by
  obtain ⟨-, -, nan, -⟩ := fits
  have half : 2 ^ (f.width - 1) ≤ 2 ^ f.width := Nat.pow_le_pow_right (by decide) (Nat.sub_le ..)
  unfold Fmt.canon
  cases h : f.nan with
  | none => exact Nat.two_pow_pos _
  | some n => rw [h] at nan; exact nan.trans_le half

theorem inf_lt : f.inf.getD f.maxCode < 2 ^ (f.width - 1) := by
  obtain ⟨most, inf, -⟩ := fits
  cases h : f.inf with
  | none => exact most
  | some i => rw [h] at inf; exact inf

theorem beyond_lt (z : Rounding) (neg : Bool) : (beyond f z neg).1 < 2 ^ f.width := by
  have most := signed_lt fits neg fits.1
  have inf := signed_lt fits neg (inf_lt fits)
  unfold beyond
  cases z.ovf
  · dsimp only; split
    · exact inf
    · exact most
  · exact most
  · exact inf
  · exact most

theorem roundFin_lt (z : Rounding) (neg : Bool) (m : Nat) (e : Int) (rest : Bool) : (f.roundFin z neg m e rest).1 < 2 ^ f.width := by
  have zero := signed_lt fits neg (Nat.two_pow_pos (f.width - 1))
  unfold Fmt.roundFin
  split
  · exact zero
  · dsimp only
    split
    · exact overflow_eq f z neg ▸ beyond_lt fits z neg
    · rename_i within_
      split
      · exact zero
      · exact signed_lt fits neg ((Nat.le_of_not_lt within_).trans_lt fits.1)

theorem round_lt (z : Rounding) (x : Fp) : (f.round z x).1 < 2 ^ f.width := by
  cases x with
  | nan => exact canon_lt fits
  | inf n =>
    have most := signed_lt fits n fits.1
    have inf := inf_lt fits
    unfold Fmt.round Fmt.roundInf
    cases h : f.inf with
    | none => cases z.ovf <;> exact most
    | some i =>
      rw [h] at inf
      have := signed_lt fits n inf
      cases z.ovf <;> assumption
  | fin n m e => exact roundFin_lt fits z n m e false

theorem flush_lt (ftz : Bool) (c : Nat) : f.flush ftz c < 2 ^ f.width := by
  unfold Fmt.flush
  split
  · exact signed_lt fits _ (Nat.two_pow_pos _)
  · exact Nat.mod_lt _ (Nat.two_pow_pos _)

theorem convert_lt (src : Fmt) (z : Rounding) (ns : Bool) (c : Nat) : (f.convert src z ns c).1 < 2 ^ f.width := by
  unfold Fmt.convert
  split
  · split
    · exact canon_lt fits
    · rename_i same _
      subst same
      exact flush_lt fits ..
  · exact round_lt fits ..

theorem ofInt_lt (z : Rounding) (ns : Bool) (v : Int) : (f.ofInt z ns v).1 < 2 ^ f.width := round_lt fits ..

/-- R47: a code of the lowest place is a finite value. -/
theorem value_low {c : Nat} (low : c % 2 ^ (f.width - 1) < 2 ^ f.man) :
    f.value c = .fin (c / 2 ^ (f.width - 1) % 2 == 1) (c % 2 ^ (f.width - 1)) f.qmin := by
  obtain ⟨-, -, -, -, infs, nans⟩ := fits
  have exp : c % 2 ^ (f.width - 1) / 2 ^ f.man = 0 := Nat.div_eq_of_lt low
  unfold Fmt.value
  rcases hi : f.inf with _ | i
  · rcases hn : f.nan with _ | n
    · simp [exp, Nat.mod_eq_of_lt low]
    · rw [hn, Option.getD_some] at nans
      simp [exp, Nat.mod_eq_of_lt low, (low.trans_le nans).ne]
  · rw [hi, Option.getD_some] at infs
    simp [exp, Nat.mod_eq_of_lt low, (low.trans_le infs).ne, (low.trans_le infs).not_gt]

/-- A subnormal is no NaN, so a flushed source is one when its code is. -/
theorem read_isNan (ftz : Bool) (c : Nat) : (f.read ftz c).isNan = (f.value c).isNan := by
  unfold Fmt.read
  split
  · rename_i h
    simp only [Bool.and_eq_true, Fmt.subnormal, decide_eq_true_eq] at h
    rw [value_low fits h.2.2]
    rfl
  · rfl

end

/-- R47: a code is a NaN, an infinity of a format that has them, or a finite value within the format's mantissa and exponents. -/
theorem value_cases (f : Fmt) (c : Nat) : f.value c = .nan ∨ (∃ n, f.value c = .inf n ∧ f.inf.isSome = true) ∨
    ∃ n m e, f.value c = .fin n m e ∧ m < 2 ^ (f.man + 1) ∧ f.qmin ≤ e := by
  have low := Nat.mod_lt (c % 2 ^ (f.width - 1)) (Nat.two_pow_pos f.man)
  have number : ∃ n m e, (if c % 2 ^ (f.width - 1) / 2 ^ f.man = 0 then
        Fp.fin (c / 2 ^ (f.width - 1) % 2 == 1) (c % 2 ^ (f.width - 1) % 2 ^ f.man) f.qmin
      else .fin (c / 2 ^ (f.width - 1) % 2 == 1) (c % 2 ^ (f.width - 1) % 2 ^ f.man + 2 ^ f.man)
        (f.qmin + (c % 2 ^ (f.width - 1) / 2 ^ f.man - 1 : Nat))) = .fin n m e ∧ m < 2 ^ (f.man + 1) ∧ f.qmin ≤ e := by
    rw [Nat.pow_succ]
    split
    · exact ⟨_, _, _, rfl, by omega, le_rfl⟩
    · exact ⟨_, _, _, rfl, by omega, by omega⟩
  obtain ⟨isNan, isInf, value, some_⟩ : ∃ isNan isInf : Bool, f.value c = (if isNan then .nan
      else if isInf then .inf (c / 2 ^ (f.width - 1) % 2 == 1)
      else if c % 2 ^ (f.width - 1) / 2 ^ f.man = 0 then
        .fin (c / 2 ^ (f.width - 1) % 2 == 1) (c % 2 ^ (f.width - 1) % 2 ^ f.man) f.qmin
      else .fin (c / 2 ^ (f.width - 1) % 2 == 1) (c % 2 ^ (f.width - 1) % 2 ^ f.man + 2 ^ f.man)
        (f.qmin + (c % 2 ^ (f.width - 1) / 2 ^ f.man - 1 : Nat))) ∧ (isInf = true → f.inf.isSome = true) := by
    refine ⟨_, _, rfl, ?_⟩
    cases f.inf <;> simp
  rw [value]
  cases isNan
  · cases isInf
    · exact .inr (.inr number)
    · exact .inr (.inl ⟨_, rfl, some_ rfl⟩)
  · exact .inl rfl

theorem value_fin {f : Fmt} {c m : Nat} {n : Bool} {e : Int} (h : f.value c = .fin n m e) : m < 2 ^ (f.man + 1) ∧ f.qmin ≤ e := by
  rcases value_cases f c with nan | ⟨_, inf, -⟩ | ⟨n', m', e', fin, bounds⟩
  · exact absurd (nan.symm.trans h) (by simp)
  · exact absurd (inf.symm.trans h) (by simp)
  · injection fin.symm.trans h with _ units place
    exact units ▸ place ▸ bounds

/-- R47: the mantissa and the exponent of a finite source. -/
theorem read_fin {f : Fmt} {ftz : Bool} {c m : Nat} {n : Bool} {e : Int} (h : f.read ftz c = .fin n m e) :
    m = 0 ∨ m < 2 ^ (f.man + 1) ∧ f.qmin ≤ e := by
  unfold Fmt.read at h
  split at h
  · injection h with _ zero
    exact .inl zero.symm
  · exact .inr (value_fin h)

/-! ### Conversions between floating formats (R59) -/

/-- The formats of FCVT. -/
def cvtFmts : List Fmt := [fmtBf16, fmtF16, fmtE4M3, fmtE5M2, fmtF32]

theorem cvtFmts_subset : ∀ f ∈ cvtFmts, f ∈ fmts := by decide

theorem cvtFmts_canon : ∀ f ∈ cvtFmts, f.canon.2 = 0 := by decide

/-- A format with a wider word has infinities. -/
theorem cvtFmts_wider : ∀ f ∈ cvtFmts, ∀ g ∈ cvtFmts, f.width < g.width → g.inf.isSome = true := by decide

/-- R59: what an infinity becomes. -/
theorem roundInf_spec (g : Fmt) (z : Rounding) (n : Bool) :
    (z.ovf = .saturate → g.roundInf z n = (g.signed n g.maxCode, if g.inf.isSome then flOF else flNV)) ∧
    (z.ovf = .ieee ∨ z.ovf = .infinite → g.inf.isSome = true → g.roundInf z n = (g.signed n (g.inf.getD g.maxCode), 0)) := by
  unfold Fmt.roundInf
  constructor
  · intro h
    cases hi : g.inf <;> simp [h]
  · intro h some_
    obtain ⟨i, hi⟩ := Option.isSome_iff_exists.1 some_
    rcases h with h | h <;> simp [h, hi]

/-- R59, R289, R360: a code of one format in another. -/
theorem convert_converts {f g : Fmt} (hf : f ∈ cvtFmts) (hg : g ∈ cvtFmts) {ns : Bool} {q : Rounding} (a : Nat)
    (nsOk : ns = true → g.inf.isSome = true) (code : q.mode ≤ 4) (small : q.mode = 4 → q.draw < 2 ^ 32) :
    Converts f g ns q a (g.convert f q ns a) := by
  have fits := fmts_fit f (cvtFmts_subset f hf)
  have quiet := cvtFmts_canon g hg
  have other : f ≠ g → g.convert f q ns a =
      g.round { q with ovf := if f.width < g.width then .ieee else if ns then .infinite else .saturate } (f.read q.ftz a) :=
    fun ne => if_neg fun h => ne h.symm
  refine ⟨fun same => ?_, fun ne nan => ?_, fun n ne inf => ⟨fun wide => ?_, fun narrow sat => ?_⟩, fun n m e ne fin => ?_⟩
  · subst same
    rw [read_isNan fits]
    exact if_pos rfl
  · rw [other ne, (isNan_iff _).1 nan, ← quiet]
    rfl
  · rw [other ne, inf]
    refine (roundInf_spec g _ n).2 ?_ ?_
    · dsimp only
      by_cases w : f.width < g.width
      · exact .inl (if_pos w)
      · exact .inr (by rw [if_neg w, if_pos (wide.resolve_left w)])
    · exact wide.elim (cvtFmts_wider f hf g hg) nsOk
  · rw [other ne, inf]
    exact (roundInf_spec g _ n).1 (by dsimp only; rw [if_neg narrow, sat]; rfl)
  · rw [other ne, fin]
    exact roundFin_of n m e (fmts_man g (cvtFmts_subset g hg)) code small

/-- R60: an integer in a floating format. -/
theorem ofInt_convertsInt {g : Fmt} (hg : g ∈ fmts) (ns : Bool) {q : Rounding} (v : Int) (code : q.mode ≤ 4)
    (small : q.mode = 4 → q.draw < 2 ^ 32) : ConvertsInt g ns q v (g.ofInt q ns v) := by
  have size : |(v : ℚ)| = v.natAbs * (2 : ℚ) ^ (0 : Int) := by rw [zpow_zero, mul_one, Nat.cast_natAbs, Int.cast_abs]
  rw [ConvertsInt, size]
  exact roundFin_of _ _ 0 (fmts_man g hg) code small

/-! ### Values as integers (R60) -/

/-- The least and the greatest number of `n` bits, unsigned with `u`. -/
def intLow (u : Bool) (n : Nat) : Int := if u then 0 else -2 ^ (n - 1)
def intTop (u : Bool) (n : Nat) : Int := if u then 2 ^ n - 1 else 2 ^ (n - 1) - 1

/-- A number between two limits, with NV where it lies outside. -/
def clamped (lo hi v : Int) : Int × Flags := if v < lo then (lo, flNV) else if hi < v then (hi, flNV) else (v, 0)

theorem clamped_eq {lo hi : Int} (h : lo ≤ hi) (v : Int) :
    clamped lo hi v = (max lo (min hi v), if lo ≤ v ∧ v ≤ hi then 0 else flNV) := by
  unfold clamped
  rcases lt_or_ge v lo with below | above
  · rw [if_pos below, if_neg (by omega), max_eq_left (by omega)]
  · rw [if_neg (not_lt.2 above)]
    rcases lt_or_ge hi v with high | inside
    · rw [if_pos high, if_neg (by omega), min_eq_left high.le, max_eq_right h]
    · rw [if_neg (not_lt.2 inside), if_pos ⟨above, inside⟩, min_eq_right inside, max_eq_right above]

theorem intLow_le_intTop (u : Bool) (n : Nat) : intLow u n ≤ intTop u n := by
  have whole : (0 : Int) < 2 ^ n := by positivity
  have half : (0 : Int) < 2 ^ (n - 1) := by positivity
  unfold intLow intTop
  split <;> omega

theorem clampTo_eq (u : Bool) (n : Nat) (v : Int) : clampTo u n v = BitVec.ofInt n (clamped (intLow u n) (intTop u n) v).1 := by
  rw [clamped_eq (intLow_le_intTop u n)]
  rfl

/-- R60: a rounded value as an integer. -/
theorem toInt_eq {q : Rounding} (s : Bool) (m : Nat) (e : Int) (code : q.mode ≤ 4) (small : q.mode = 4 → q.draw < 2 ^ 32) :
    let v : ℚ := m * (2 : ℚ) ^ e
    let j := if roundsAway q s ⌊v⌋ (⌊v⌋ + 1) (Exact.of v) (⌊v⌋ % 2 == 1) then ⌊v⌋ + 1 else ⌊v⌋
    Fp.toInt q s m e = if s then -j else j := by
  intro v j
  obtain ⟨c, r, b, cut, quantised⟩ := exists_cut m e 0
  have lo := cut.le
  have hi := cut.lt
  have away := roundsUp_eq cut (reads_of _ (-32)) (z := q) s (by omega) code small
  simp only [zpow_zero, mul_one] at lo hi away
  have floor : ⌊v⌋ = (c : Int) := Int.floor_eq_iff.2 ⟨by exact_mod_cast lo, by exact_mod_cast hi⟩
  have odd : ((c : Int) % 2 == 1) = (c % 2 == 1) := by
    rw [Bool.eq_iff_iff, beq_iff_eq, beq_iff_eq]
    omega
  have value : (((quantise q.mode q.draw s m e 0 false).1 : Nat) : Int) = j := by
    show _ = if roundsAway q s ⌊v⌋ (⌊v⌋ + 1) (Exact.of v) (⌊v⌋ % 2 == 1) then ⌊v⌋ + 1 else ⌊v⌋
    rw [quantised, floor, odd, Int.cast_natCast, ← away]
    split <;> rfl
  rw [Fp.toInt, value]

/-- R60: a value as an integer of `n` bits. -/
theorem clampInt_roundsToInt (u : Bool) {n : Nat} (bits : 1 ≤ n) {q : Rounding} (x : Fp) (code : q.mode ≤ 4)
    (small : q.mode = 4 → q.draw < 2 ^ 32) :
    RoundsToInt u n q x (BitVec.ofInt n (x.clampInt q (intLow u n) (intTop u n)).1, (x.clampInt q (intLow u n) (intTop u n)).2) := by
  have whole : (2 : Int) ^ n = 2 * 2 ^ (n - 1) := by rw [← pow_succ', Nat.sub_add_cancel bits]
  have half : (0 : Int) < 2 ^ (n - 1) := by positivity
  refine ⟨fun nan => ?_, fun s inf => ?_, fun s m e fin => ?_⟩
  · rw [(isNan_iff x).1 nan]
    rfl
  · rw [inf, clampTo_eq]
    unfold clamped
    cases s
    · have high : ¬((2 : Int) ^ n < intLow u n) ∧ intTop u n < 2 ^ n := by
        unfold intLow intTop
        split <;> omega
      simp [Fp.clampInt, high]
    · have low : -(2 : Int) ^ n < intLow u n := by
        unfold intLow
        split <;> omega
      simp [Fp.clampInt, low]
  · intro v k j i
    have value : Fp.toInt q s m e = i := toInt_eq s m e code small
    have result : x.clampInt q (intLow u n) (intTop u n) = clamped (intLow u n) (intTop u n) i := by
      rw [fin, Fp.clampInt, value]
      rfl
    have limits : (intLow u n ≤ i ∧ i ≤ intTop u n) ↔
        ((if u then 0 else -2 ^ (n - 1)) ≤ i ∧ i < (if u then 2 ^ n else 2 ^ (n - 1))) := by
      unfold intLow intTop
      split <;> omega
    rw [result, clampTo_eq, clamped_eq (intLow_le_intTop u n)]
    simp only [limits]

/-! ### FCVT (R289) -/

/-- R289: an integer of a type in a register: zero-extended if it is unsigned, else sign-extended. -/
def extended (u : Bool) {n : Nat} (v : BitVec n) : Word := if u then v.setWidth 64 else v.signExtend 64

theorem scalarExtend_eq : ∀ i ∈ intTypes, ∀ v : Int, scalarExtend i.1 v = extended i.2.2 (BitVec.ofInt i.2.1 v) := by
  have zero : ∀ n ≤ 64, ∀ v : Int, BitVec.ofNat 64 (wrapN n v) = (BitVec.ofInt n v).setWidth 64 := by
    intro n _ v
    rw [← ofNat_wrapN]
    apply BitVec.eq_of_toNat_eq
    have low : wrapN n v < 2 ^ n := by
      have pos : (0 : Int) < (2 ^ n : Nat) := by positivity
      have := Int.emod_lt_of_pos v pos
      have := Int.emod_nonneg v pos.ne'
      unfold wrapN
      omega
    rw [BitVec.toNat_setWidth, BitVec.toNat_ofNat, BitVec.toNat_ofNat, Nat.mod_eq_of_lt low]
  have sign : ∀ n (v : Int), sextN n (wrapN n v) = (BitVec.ofInt n v).signExtend 64 := fun n v => by rw [sextN_eq, ofNat_wrapN]
  intro i hi v
  simp only [intTypes, List.mem_cons, List.not_mem_nil, or_false] at hi
  rcases hi with rfl | rfl | rfl | rfl
  · exact sign 32 v
  · exact sign 64 v
  · exact zero 32 (by decide) v
  · exact zero 64 (by decide) v

theorem setWidth_extended {n : Nat} (h : n ≤ 64) (u : Bool) (v : BitVec n) : (extended u v).setWidth n = v := by
  cases u
  · show (v.signExtend 64).setWidth n = v
    apply BitVec.eq_of_getLsbD_eq
    intro j hj
    rw [BitVec.getLsbD_setWidth, BitVec.getLsbD_signExtend, if_pos hj]
    simp [hj, show j < 64 by omega]
  · exact (BitVec.setWidth_setWidth_of_le _ h).trans (BitVec.setWidth_eq v)

theorem scalarLimits_eq : ∀ i ∈ intTypes, scalarLimits i.1 = (intLow i.2.2 i.2.1, intTop i.2.2 i.2.1) := by decide

theorem intTypes_width : ∀ i ∈ intTypes, 1 ≤ i.2.1 ∧ i.2.1 ≤ 64 := by decide

theorem floatTypes_fmt : ∀ f ∈ floatTypes, scalarFmt f.1 = some f.2 ∧ f.2 ∈ cvtFmts := by decide

theorem intTypes_fmt : ∀ i ∈ intTypes, scalarFmt i.1 = none := by decide

theorem cvtFmts_width : ∀ f ∈ cvtFmts, f.width ≤ 64 := by decide

/-- R59, R289: the targets that NS is accepted for have infinities. -/
theorem nsTarget_inf : ∀ g ∈ floatTypes, g.1 = .bf16 ∨ g.1 = .fp16 ∨ g.1 = .e5m2 → g.2.inf.isSome = true := by decide

/-- A code within the width of its format stands in a register as it is. -/
theorem codeWord_toNat {f : Fmt} (hf : f ∈ cvtFmts) {r : Nat × Flags} (h : r.1 < 2 ^ f.width) :
    ((codeWord r).1.toNat, (codeWord r).2) = r :=
  Prod.ext (toNat_ofNat_of_lt (h.trans_le (Nat.pow_le_pow_right (by decide) (cvtFmts_width f hf)))) rfl

section
variable {ns : Bool} {q : Rounding} {a : Word}

/-- R59: FCVT between floating types. -/
theorem fcvtVal_float {f g : ScalarType × Fmt} (hf : f ∈ floatTypes) (hg : g ∈ floatTypes)
    (nsOk : ns = true → g.1 = .bf16 ∨ g.1 = .fp16 ∨ g.1 = .e5m2) (code : q.mode ≤ 3) :
    Converts f.2 g.2 ns q a.toNat ((fcvtVal f.1 g.1 ns q a).1.toNat, (fcvtVal f.1 g.1 ns q a).2) := by
  obtain ⟨src, hsrc⟩ := floatTypes_fmt f hf
  obtain ⟨dst, hdst⟩ := floatTypes_fmt g hg
  have value : fcvtVal f.1 g.1 ns q a = codeWord (g.2.convert f.2 q ns a.toNat) := by rw [fcvtVal, src, dst]
  rw [value, codeWord_toNat hdst (convert_lt (fmts_fit _ (cvtFmts_subset _ hdst)) ..)]
  exact convert_converts hsrc hdst a.toNat (fun h => nsTarget_inf g hg (nsOk h)) (by omega) (by omega)

/-- R60: FCVT to an integer type. -/
theorem fcvtVal_toInt {f : ScalarType × Fmt} {i : ScalarType × Nat × Bool} (hf : f ∈ floatTypes) (hi : i ∈ intTypes) :
    fcvtVal f.1 i.1 ns q a =
      let r := (f.2.read q.ftz a.toNat).clampInt q (intLow i.2.2 i.2.1) (intTop i.2.2 i.2.1)
      (extended i.2.2 (BitVec.ofInt i.2.1 r.1), r.2) := by
  rw [fcvtVal, (floatTypes_fmt f hf).1, intTypes_fmt i hi]
  dsimp only
  rw [scalarLimits_eq i hi, scalarExtend_eq i hi]

/-- R289: the number that FCVT reads of an integer type. -/
theorem intSource_eq {i : ScalarType × Nat × Bool} (hi : i ∈ intTypes) :
    (if (scalarInt i.1).2 then sval (scalarInt i.1).1 a.toNat else ((a.toNat % 2 ^ (scalarInt i.1).1 : Nat) : Int)) =
      laneNum i.2.2 (a.setWidth i.2.1) := by
  simp only [intTypes, List.mem_cons, List.not_mem_nil, or_false] at hi
  have sign : ∀ n, sval n a.toNat = (a.setWidth n).toInt := fun n => by rw [← sval_mod, ← BitVec.toNat_setWidth, sval_toNat]
  rcases hi with rfl | rfl | rfl | rfl
  · exact sign 32
  · exact sign 64
  · exact congrArg Int.ofNat (BitVec.toNat_setWidth 32 a).symm
  · exact congrArg Int.ofNat (BitVec.toNat_setWidth 64 a).symm

/-- R60: FCVT from an integer type to a floating one. -/
theorem fcvtVal_ofInt {i : ScalarType × Nat × Bool} {g : ScalarType × Fmt} (hi : i ∈ intTypes) (hg : g ∈ floatTypes)
    (code : q.mode ≤ 3) :
    ConvertsInt g.2 ns q (laneNum i.2.2 (a.setWidth i.2.1)) ((fcvtVal i.1 g.1 ns q a).1.toNat, (fcvtVal i.1 g.1 ns q a).2) := by
  obtain ⟨dst, hdst⟩ := floatTypes_fmt g hg
  have value : fcvtVal i.1 g.1 ns q a = codeWord (g.2.ofInt q ns (laneNum i.2.2 (a.setWidth i.2.1))) := by
    rw [fcvtVal, intTypes_fmt i hi, dst, ← intSource_eq hi]
  rw [value, codeWord_toNat hdst (ofInt_lt (fmts_fit _ (cvtFmts_subset _ hdst)) ..)]
  exact ofInt_convertsInt (cvtFmts_subset _ hdst) ns _ (by omega) (by omega)

/-- R289: FCVT from an integer type to another. -/
theorem fcvtVal_int {i j : ScalarType × Nat × Bool} (hi : i ∈ intTypes) (hj : j ∈ intTypes) :
    fcvtVal i.1 j.1 ns q a =
      let v := laneNum i.2.2 (a.setWidth i.2.1)
      (extended j.2.2 (clampTo j.2.2 j.2.1 v), if intLow j.2.2 j.2.1 ≤ v ∧ v ≤ intTop j.2.2 j.2.1 then 0 else flNV) := by
  have value : fcvtVal i.1 j.1 ns q a =
      let r := clamped (intLow j.2.2 j.2.1) (intTop j.2.2 j.2.1) (laneNum i.2.2 (a.setWidth i.2.1))
      (scalarExtend j.1 r.1, r.2) := by
    rw [fcvtVal, intTypes_fmt i hi, intTypes_fmt j hj]
    dsimp only
    rw [scalarLimits_eq j hj, intSource_eq hi, clamped]
    dsimp only
    split
    · rfl
    · split <;> rfl
  rw [value]
  dsimp only
  rw [scalarExtend_eq j hj, clampTo_eq]
  rw [congrArg Prod.snd (clamped_eq (intLow_le_intTop j.2.2 j.2.1) _)]

end

theorem toInt_clampTo {n : Nat} (pos : 1 ≤ n) (v : Int) :
    (clampTo false n v).toInt = v ↔ intLow false n ≤ v ∧ v ≤ intTop false n := by
  have low : intLow false n = -2 ^ (n - 1) := rfl
  have top : intTop false n = 2 ^ (n - 1) - 1 := rfl
  constructor
  · intro h
    have := BitVec.le_toInt (clampTo false n v)
    have := BitVec.toInt_lt (x := clampTo false n v)
    omega
  · rintro ⟨below, above⟩
    rw [clampTo_eq, clamped_eq (intLow_le_intTop false n), min_eq_right above, max_eq_right below]
    exact BitVec.toInt_ofInt_eq_self pos (by omega) (by omega)

/-- A number of `n` bits is itself between the limits of a wider type. -/
theorem clampTo_of_within {u : Bool} {n : Nat} {v : Int} (low : intLow u n ≤ v) (top : v ≤ intTop u n) :
    clampTo u n v = BitVec.ofInt n v := by
  rw [clampTo_eq, clamped_eq (intLow_le_intTop u n), min_eq_right top, max_eq_right low]

/-- R289: the conversions between integer types that can leave their limits, and the two that widen. -/
theorem fcvtVal_ints (ns : Bool) (q : Rounding) (a : Word) :
    fcvtVal .i64 .i32 ns q a = ((clampTo false 32 a.toInt).signExtend 64, if (clampTo false 32 a.toInt).toInt = a.toInt then 0 else flNV) ∧
    fcvtVal .n64 .n32 ns q a = ((clampTo true 32 a.toNat).setWidth 64, if a.toNat < 2 ^ 32 then 0 else flNV) ∧
    fcvtVal .n64 .i64 ns q a = (clampTo false 64 a.toNat, if a.toNat < 2 ^ 63 then 0 else flNV) ∧
    fcvtVal .i64 .n64 ns q a = (clampTo true 64 a.toInt, if 0 ≤ a.toInt then 0 else flNV) ∧
    fcvtVal .i32 .i64 ns q a = ((a.setWidth 32).signExtend 64, 0) ∧ fcvtVal .n32 .n64 ns q a = ((a.setWidth 32).setWidth 64, 0) := by
  have i32 : (ScalarType.i32, 32, false) ∈ intTypes := by decide
  have i64 : (ScalarType.i64, 64, false) ∈ intTypes := by decide
  have n32 : (ScalarType.n32, 32, true) ∈ intTypes := by decide
  have n64 : (ScalarType.n64, 64, true) ∈ intTypes := by decide
  have signed : laneNum false (a.setWidth 64) = a.toInt := by rw [BitVec.setWidth_eq]; rfl
  have plain : laneNum true (a.setWidth 64) = (a.toNat : Int) := by rw [BitVec.setWidth_eq]; rfl
  have whole := a.isLt
  have above := BitVec.toInt_lt (x := a)
  refine ⟨(fcvtVal_int i64 i32).trans ?_, (fcvtVal_int n64 n32).trans ?_, (fcvtVal_int n64 i64).trans ?_,
    (fcvtVal_int i64 n64).trans ?_, (fcvtVal_int i32 i64).trans ?_, (fcvtVal_int n32 n64).trans ?_⟩
  · dsimp only
    rw [signed, if_congr (toInt_clampTo (by decide) _).symm rfl rfl]
    rfl
  · dsimp only
    rw [plain, if_congr (show _ ↔ a.toNat < 2 ^ 32 by simp [intLow, intTop]; omega) rfl rfl]
    rfl
  · dsimp only
    rw [plain, if_congr (show _ ↔ a.toNat < 2 ^ 63 by simp [intLow, intTop]; omega) rfl rfl]
    exact Prod.ext (BitVec.signExtend_eq _) rfl
  · dsimp only
    rw [signed, if_congr (show _ ↔ 0 ≤ a.toInt by simp [intLow, intTop]; omega) rfl rfl]
    exact Prod.ext (BitVec.setWidth_eq _) rfl
  · have low := BitVec.le_toInt (a.setWidth 32)
    have top := BitVec.toInt_lt (x := a.setWidth 32)
    have within_ : intLow false 64 ≤ laneNum false (a.setWidth 32) ∧ laneNum false (a.setWidth 32) ≤ intTop false 64 := by
      simp only [intLow, intTop, laneNum, Bool.false_eq_true, if_false]
      omega
    dsimp only
    rw [if_pos within_, clampTo_of_within within_.1 within_.2]
    exact Prod.ext (BitVec.signExtend_eq _) rfl
  · have top := (a.setWidth 32).isLt
    have within_ : intLow true 64 ≤ laneNum true (a.setWidth 32) ∧ laneNum true (a.setWidth 32) ≤ intTop true 64 := by
      simp only [intLow, intTop, laneNum, if_true]
      omega
    dsimp only
    rw [if_pos within_, clampTo_of_within within_.1 within_.2]
    refine Prod.ext ((BitVec.setWidth_eq _).trans ?_) rfl
    exact (BitVec.ofInt_natCast ..).trans (BitVec.ofNat_toNat ..)

/-! ### The instructions (R287 to R289) -/

theorem fpPick_logged {s : State} {i : Instr} {x : FpArgs} {big : Bool} (arm : Out) (named : exec i s = arm)
    (run : arm = fpPick i x big s) (ready : Ready s i x.g [x.a, x.b]) (room : (me s).seq.log.length < 8) :
    ∃ t, exec i s = .next t ∧ Logged s t (destG x.d) 4 (BitVec.ofNat 64
      ((fpFmt x.t).pick (me s).seq.fp.ftz big ((me s).gval x.a).toNat ((me s).gval x.b).toNat)) 0 := by
  rw [named, run]
  exact logOp_ready ready (logFull_of_room room)

theorem fpPicks_logged (x : FpArgs) (s : State) : ∀ p ∈ [(Instr.fmin, false), (Instr.fmax, true)],
    Ready s (p.1 x) x.g [x.a, x.b] → (me s).seq.log.length < 8 →
    ∃ t, exec (p.1 x) s = .next t ∧ Logged s t (destG x.d) 4 (BitVec.ofNat 64
      ((fpFmt x.t).pick (me s).seq.fp.ftz p.2 ((me s).gval x.a).toNat ((me s).gval x.b).toNat)) 0 := by
  intro p hp
  rcases List.mem_pair.1 hp with rfl | rfl
  · exact fpPick_logged (execFmin x s) rfl rfl
  · exact fpPick_logged (execFmax x s) rfl rfl

theorem fcmp_logged {x : FcmpArgs} {s : State} (ready : Ready s (.fcmp x) x.g [x.a, x.b]) (room : (me s).seq.log.length < 8) :
    let v := (fpFmt x.t).compare (me s).seq.fp.ftz (fcmpCode x.cc) ((me s).gval x.a).toNat ((me s).gval x.b).toNat
    ∃ t, exec (.fcmp x) s = .next t ∧ Logged s t (destP x.p) 4 (if v then 1 else 0) 0 :=
  logOp_ready ready (logFull_of_room room)

theorem fcvt_logged {x : FcvtArgs} {s : State} (ready : Ready s (.fcvt x) x.g [x.a]) (room : (me s).seq.log.length < 8) :
    let r := fcvtVal x.src x.dst x.ns (me s).rounding ((me s).gval x.a)
    ∃ t, exec (.fcvt x) s = .next t ∧ Logged s t (destG x.d) 4 r.1 r.2 :=
  logOp_ready ready (logFull_of_room room)

/-- Settles O17: the picks and comparisons are those of numbers, and a conversion is a rounding to the format or the integer. -/
theorem floatPicksAndConversions : Obligations.FloatPicksAndConversions := by
  refine ⟨fun p hp x s ready room => ?_, fun x s ready room => ?_, fun x s ready room => fcvt_logged ready room,
    fun ns q a code => ⟨fun f hf g hg nsOk => fcvtVal_float hf hg nsOk code, fun f hf i hi => ?_,
      fun i hi g hg _ => fcvtVal_ofInt hi hg code⟩, fun ns q a => ?_⟩
  · obtain ⟨t, run, logged⟩ := fpPicks_logged x s p hp ready room
    exact ⟨t, _, run, logged, pick_spec ..⟩
  · obtain ⟨t, run, logged⟩ := fcmp_logged ready room
    exact ⟨t, _, run, logged, compare_iff ..⟩
  · obtain ⟨pos, most⟩ := intTypes_width i hi
    rw [fcvtVal_toInt hf hi]
    dsimp only
    rw [setWidth_extended most]
    exact ⟨clampInt_roundsToInt _ pos _ (by omega) (by omega), rfl⟩
  · exact fcvtVal_ints ns q a

end Sys2Proof.Proofs
end

section
/-! PROOFS. The floating-point and conversion rows: what their lanes put into a landing slot, and the draws of XS (R57, R357 to R361). -/

namespace Sys2Proof.Proofs

open Sys2Proof Sys2Proof.Machine Sys2Proof.Safety Sys2Proof.Laws

/-! ### Draws of XS (R57, R101) -/

theorem xsAfter_xorshift (n : Nat) : ∀ x : BitVec 32, xsAfter (xorshift x) n = xsAfter x (n + 1) := by
  induction n with
  | zero => intro x; rfl
  | succ n ih => intro x; exact congrArg xorshift (ih x)

theorem draws_spec (n : Nat) : ∀ x : BitVec 32, (draws n x).2 = xsAfter x n ∧
    ∀ k < n, (draws n x).1.getD k 0 = (xsAfter x (k + 1)).toNat := by
  induction n with
  | zero => exact fun x => ⟨rfl, fun k h => absurd h (Nat.not_lt_zero k)⟩
  | succ n ih =>
    intro x
    obtain ⟨last, each⟩ := ih (xorshift x)
    refine ⟨last.trans (xsAfter_xorshift n x), fun k h => ?_⟩
    cases k with
    | zero => rfl
    | succ k => exact (each k (Nat.lt_of_succ_lt_succ h)).trans (congrArg BitVec.toNat (xsAfter_xorshift (k + 1) x))

theorem roundingAt_eq (s : State) (r : Row) (k : Nat) : (rowCtx s r).roundingAt k = laneRounding s r k := by
  unfold RowCtx.roundingAt laneRounding
  rw [(draws_spec (k + 1) _).2 k (Nat.lt_succ_self k)]
  rfl

/-- A PE whose XS has been drawn from `n` times under RSR. -/
def drawnPe (e : PE) (mode n : Nat) : PE := if mode = 4 then { e with xs := xsAfter e.xs n } else e

/-- R101: the draws of a firing leave its landing slot. -/
theorem rowResult_stepXs {s t : State} {r : Row} {u : FUnit} {lat : Nat} {p : Payload} {fresh : Flags}
    (h : RowResult s t r u lat p (peOf s) fresh) (mode n : Nat) :
    RowResult s (t.stepXs (rowCtx s r) mode n) r u lat p (drawnPe (peOf s) mode n) fresh := by
  unfold State.stepXs drawnPe
  by_cases random : mode = 4
  · have firing : (rowCtx s r).f = t.sched.firing := congrArg Sched.firing h.sched.symm
    have change := rowChange_modPe t fun e => { e with xs := (draws n (peOf s).xs).2 }
    obtain ⟨l, pe, unit_, remain, bad, pay, inst, slot, dest⟩ := h.slot
    have cell := change.spad
    rw [spadOf, change.sched, spadOf] at cell
    rw [if_pos random, if_pos random, firing]
    refine ⟨rowFrame_trans h.toRowFrame change.toRowFrame, ⟨l, ?_, unit_, remain, bad, pay, inst, slot, dest⟩,
      change.region.trans h.region, ?_⟩
    · refine change.pe.trans ?_
      rw [pe, (draws_spec n _).1]
    · rw [← h.spad, ← h.sched]
      exact cell
  · rw [if_neg random, if_neg random]
    exact h

/-! ### Lanes of results (R349, R357) -/

/-- A lane above those of a list is 0. -/
theorem laneOf_laneWord_above {w j : Nat} (l : List Nat) (fits : w * l.length ≤ 64) (h : l.length ≤ j) :
    laneOf w j (laneWord w l) = 0 := by
  apply BitVec.eq_of_toNat_eq
  have small := joinLanes_lt w l
  have word : joinLanes w l < 2 ^ 64 := small.trans_le (Nat.pow_le_pow_right (by decide) fits)
  rw [laneOf_toNat, laneWord, toNat_ofNat_of_lt word,
    Nat.div_eq_of_lt (small.trans_le (Nat.pow_le_pow_right (by decide) (Nat.mul_le_mul_left w h)))]
  exact Nat.zero_mod _

/-- The OR of the flags that `k` lanes raise. -/
def raisedBy (l : Nat → Nat × Flags) (k : Nat) : Flags := (List.range k).foldl (fun f j => f ||| (l j).2) 0

/-- A firing has put the codes of `k` lanes of `w` bits, and their flags, into a landing slot; the lanes above are 0. -/
def PutsLanes (s t : State) (r : Row) (u : FUnit) (lat : Nat) (e : PE) (srcs : List FVal) (w : Nat) (l : Nat → Nat × Flags)
    (k : Nat) (v : Word) : Prop :=
  (∀ j, (laneOf w j v).toNat = if j < k then (l j).1 % 2 ^ w else 0) ∧
  RowResult s t r u lat (.reg (resultVal v srcs (raisedBy l k))) e (raisedBy l k &&& ~~~carriedBy srcs)

section
variable {s : State} {r : Row} {code lat : Nat} {u : FUnit} (unit_ : rowUnit code = some (u, lat)) (i : Instr) (srcs : List FVal)
  {w k : Nat} (fits : w * k ≤ 64) (l : Nat → Nat × Flags)
include unit_ fits

/-- R357: the lanes of a floating row enter a landing slot. -/
theorem putFp_lanes : ∃ v, PutsLanes s ((fired s r code).putFp (rowCtx s r) i code w ((List.range k).map l) srcs) r u lat (peOf s)
    srcs w l k v := by
  refine ⟨laneWord w ((List.range k).map fun j => (l j).1), fun j => ?_, ?_⟩
  · by_cases inside : j < k
    · rw [if_pos inside, laneOf_laneWord _ (by simpa using fits) (by simpa using inside), List.getElem_map, List.getElem_range,
        BitVec.toNat_ofNat]
    · rw [if_neg inside, laneOf_laneWord_above _ (by simpa using fits) (by simpa using inside)]
      rfl
  · rw [State.putFp, List.map_map, List.foldl_map]
    exact rowResult_putVal (fired_change s r code) unit_ i _ _

/-- R57, R357: the same of a row that rounds, under a mode that may draw. -/
theorem putFp_drawn (mode n : Nat) :
    ∃ v, PutsLanes s (((fired s r code).putFp (rowCtx s r) i code w ((List.range k).map l) srcs).stepXs (rowCtx s r) mode n) r u lat
      (drawnPe (peOf s) mode n) srcs w l k v := by
  obtain ⟨v, lanes_, result⟩ := putFp_lanes (s := s) (r := r) unit_ i srcs fits l
  exact ⟨v, lanes_, rowResult_stepXs result mode n⟩

end

/-! ### The formats of the lanes (R357) -/

/-- R269: MOD of a floating row names FP32, BF16 or FP16. -/
theorem rowFmt_mem {s : State} {i : Instr} {code : Nat} {r : Row} (fires : Fires s i code r) (parts : i.rowParts = some (code, r))
    (float : 0x1e < code ∧ code ≤ 0x2f ∧ code ≠ 0x29) : rowFmt r ∈ [fmtBf16, fmtF16, fmtF32] := by
  have ok := fires_modAux fires parts
  obtain ⟨low, high, notCvt⟩ := float
  rw [rowModAuxOk] at ok
  simp only [show ¬code ≤ 0x18 by omega, show ¬code ≤ 0x1e by omega, beq_iff_eq, notCvt, high, if_false, if_true,
    Bool.and_eq_true, Bool.or_eq_true, decide_eq_true_eq] at ok
  rcases ok.1 with (h | h) | h <;> simp [rowFmt, h, fmtOfCode]

theorem rowFmts_fit : ∀ m ∈ [fmtBf16, fmtF16, fmtF32], Fits m ∧ m.width * (64 / m.width) = 64 := by
  intro m hm
  refine ⟨fmts_fit m ?_, ?_⟩
  · revert m; decide
  · revert m; decide

/-- Lane `j` of a source as a code. -/
def laneCode (r : Row) (v : FVal) (j : Nat) : Nat := (laneOf (rowFmt r).width j v.data).toNat

theorem fpLanes_eq_map (r : Row) (v : FVal) :
    fpLanes (rowFmt r) v = (List.range (64 / (rowFmt r).width)).map (laneCode r v) := wordLanes_eq_map _ _

theorem fpLanes_getD (r : Row) (v : FVal) {j : Nat} (h : j < 64 / (rowFmt r).width) :
    (fpLanes (rowFmt r) v).getD j 0 = laneCode r v j := by
  rw [fpLanes_eq_map, List.getD_eq_getElem _ _ (by simpa using h), List.getElem_map, List.getElem_range]

/-- Lane `j` of a source as the row reads it (R58). -/
def laneFp (s : State) (r : Row) (v : FVal) (j : Nat) : Fp := (rowFmt r).read (regionOf s).ftz (laneCode r v j)

/-- A row has put the codes of `k` lanes of its format, and their flags, into a landing slot; the lanes above are 0. -/
def PutsRow (s : State) (i : Instr) (r : Row) (u : FUnit) (lat : Nat) (e : PE) (srcs : List FVal) (l : Nat → Nat × Flags)
    (k : Nat) : Prop :=
  ∃ t v, exec i s = .next t ∧ PutsLanes s t r u lat e srcs (rowFmt r).width l k v

section
variable {s : State} {r : Row} {i : Instr} {code : Nat} (arm : Out) (named : exec i s = arm) (fires : Fires s i code r)
  (parts : i.rowParts = some (code, r)) (float : 0x1e < code ∧ code ≤ 0x2f ∧ code ≠ 0x29)
include named fires parts float

/-- R357: a floating row whose effect is a list of lanes. -/
theorem putsRow_of {srcs : RowCtx → List FVal} {ls : RowCtx → List (Nat × Flags)} {l : Nat → Nat × Flags} {k : Nat}
    {u : FUnit} {lat : Nat}
    (run : arm = s.fireRow i code r fun cx v => v.putFp cx i code (rowFmt r).width (ls cx) (srcs cx))
    (unit_ : rowUnit code = some (u, lat)) (few : k ≤ 64 / (rowFmt r).width) (lanes_ : ls (rowCtx s r) = (List.range k).map l) :
    PutsRow s i r u lat (peOf s) (srcs (rowCtx s r)) l k := by
  have word := (rowFmts_fit _ (rowFmt_mem fires parts float)).2
  have fits : (rowFmt r).width * k ≤ 64 := (Nat.mul_le_mul_left _ few).trans_eq word
  obtain ⟨v, puts⟩ := putFp_lanes (s := s) (r := r) unit_ i (srcs (rowCtx s r)) fits l
  exact ⟨_, v, row_runs arm named run fires, lanes_ ▸ puts⟩

/-- R57, R357: the same of a row that rounds each lane. -/
theorem putsRow_drawn {srcs : RowCtx → List FVal} {ls : RowCtx → List (Nat × Flags)} {l : Nat → Nat × Flags} {mode : RowCtx → Nat}
    {k n : Nat}
    (run : arm = s.fireRow i code r fun cx v =>
      (v.putFp cx i code (rowFmt r).width (ls cx) (srcs cx)).stepXs cx (mode cx) n)
    (unit_ : rowUnit code = some (.fvl, 4)) (few : k ≤ 64 / (rowFmt r).width) (aux : mode (rowCtx s r) = r.aux.toNat % 8)
    (lanes_ : ls (rowCtx s r) = (List.range k).map l) :
    PutsRow s i r .fvl 4 (peDrawn s r n) (srcs (rowCtx s r)) l k := by
  have word := (rowFmts_fit _ (rowFmt_mem fires parts float)).2
  have fits : (rowFmt r).width * k ≤ 64 := (Nat.mul_le_mul_left _ few).trans_eq word
  obtain ⟨v, puts⟩ := putFp_drawn (s := s) (r := r) unit_ i (srcs (rowCtx s r)) fits l (r.aux.toNat % 8) n
  exact ⟨_, v, row_runs arm named run fires, aux ▸ lanes_ ▸ puts⟩

end

/-! ### Rows that round in each lane (R358) -/

/-- R358: a lane of a rounding row. -/
def roundedLane (s : State) (r : Row) (useC : Bool) (f : Nat → Fp → Fp → Fp → Fp × Flags) (j : Nat) : Nat × Flags :=
  let cx := rowCtx s r
  (rowFmt r).finish (laneRounding s r j)
    (f (r.aux.toNat % 8) (laneFp s r cx.a j) (laneFp s r cx.b j) (if useC then laneFp s r cx.c j else .nan))

theorem fpRow_puts {s : State} {r : Row} {i : Instr} {code : Nat} {useC : Bool} {f : Nat → Fp → Fp → Fp → Fp × Flags} (arm : Out)
    (named : exec i s = arm) (run : arm = fpRow i code r useC f s) (parts : i.rowParts = some (code, r))
    (float : 0x1e < code ∧ code ≤ 0x2f ∧ code ≠ 0x29) (unit_ : rowUnit code = some (.fvl, 4)) (fires : Fires s i code r) :
    PutsRow s i r .fvl 4 (peDrawn s r (64 / (rowFmt r).width))
      (if useC then [(rowCtx s r).a, (rowCtx s r).b, (rowCtx s r).c] else [(rowCtx s r).a, (rowCtx s r).b])
      (roundedLane s r useC f) (64 / (rowFmt r).width) := by
  refine putsRow_drawn arm named fires parts float (srcs := fun cx => if useC then [cx.a, cx.b, cx.c] else [cx.a, cx.b])
    (mode := fun _ => r.aux.toNat % 8) run unit_ le_rfl rfl (List.map_congr_left fun j hj => ?_)
  have inside := List.mem_range.1 hj
  dsimp only
  rw [fpLanes_getD r _ inside, fpLanes_getD r _ inside, fpLanes_getD r _ inside, roundingAt_eq]
  rfl

theorem fpRows_puts (r : Row) (s : State) : ∀ p ∈ fpRows, Fires s (p.1 r) p.2.1 r →
    PutsRow s (p.1 r) r .fvl 4 (peDrawn s r (64 / (rowFmt r).width))
      (if p.2.2.1 then [(rowCtx s r).a, (rowCtx s r).b, (rowCtx s r).c] else [(rowCtx s r).a, (rowCtx s r).b])
      (roundedLane s r p.2.2.1 p.2.2.2) (64 / (rowFmt r).width) := by
  intro p hp
  simp only [fpRows, List.mem_cons, List.not_mem_nil, or_false] at hp
  rcases hp with rfl | rfl | rfl | rfl | rfl
  · exact fpRow_puts (execRowFadd r s) rfl rfl rfl (by decide) rfl
  · exact fpRow_puts (execRowFsub r s) rfl rfl rfl (by decide) rfl
  · exact fpRow_puts (execRowFmul r s) rfl rfl rfl (by decide) rfl
  · exact fpRow_puts (execRowFma r s) rfl rfl rfl (by decide) rfl
  · exact fpRow_puts (execRowFms r s) rfl rfl rfl (by decide) rfl

/-! ### Rows that round nothing (R358, R359) -/

theorem fpExact2_puts {s : State} {r : Row} {i : Instr} {code : Nat} {f : Fmt → Bool → Nat → Nat → Nat} (arm : Out)
    (named : exec i s = arm) (run : arm = fpExact2 i code r f s) (parts : i.rowParts = some (code, r))
    (float : 0x1e < code ∧ code ≤ 0x2f ∧ code ≠ 0x29) (unit_ : rowUnit code = some (.fvl, 4)) (fires : Fires s i code r) :
    PutsRow s i r .fvl 4 (peOf s) [(rowCtx s r).a, (rowCtx s r).b]
      (fun j => (f (rowFmt r) (regionOf s).ftz (laneCode r (rowCtx s r).a j) (laneCode r (rowCtx s r).b j), 0))
      (64 / (rowFmt r).width) := by
  refine putsRow_of arm named fires parts float (srcs := fun cx => [cx.a, cx.b]) run unit_ le_rfl ?_
  rw [fpLanes_eq_map, fpLanes_eq_map, List.zipWith_map, List.zipWith_self, List.map_map]
  rfl

/-- A row on the lanes of A, each by itself. -/
theorem fpLanes1_puts {s : State} {r : Row} {i : Instr} {code : Nat} {u : FUnit} {lat : Nat} {f : Bool → Nat → Nat × Flags}
    (arm : Out) (named : exec i s = arm)
    (run : arm = s.fireRow i code r fun cx v =>
      v.putFp cx i code (rowFmt r).width ((fpLanes (rowFmt r) cx.a).map (f cx.reg.ftz)) [cx.a])
    (parts : i.rowParts = some (code, r)) (float : 0x1e < code ∧ code ≤ 0x2f ∧ code ≠ 0x29)
    (unit_ : rowUnit code = some (u, lat)) (fires : Fires s i code r) :
    PutsRow s i r u lat (peOf s) [(rowCtx s r).a] (fun j => f (regionOf s).ftz (laneCode r (rowCtx s r).a j))
      (64 / (rowFmt r).width) := by
  refine putsRow_of arm named fires parts float (srcs := fun cx => [cx.a]) run unit_ le_rfl ?_
  rw [fpLanes_eq_map, List.map_map]
  rfl

theorem picks_puts (r : Row) (s : State) : ∀ p ∈ [(Instr.rowFmin, 0x25, false), (.rowFmax, 0x26, true)], Fires s (p.1 r) p.2.1 r →
    PutsRow s (p.1 r) r .fvl 4 (peOf s) [(rowCtx s r).a, (rowCtx s r).b]
      (fun j => ((rowFmt r).pick (regionOf s).ftz p.2.2 (laneCode r (rowCtx s r).a j) (laneCode r (rowCtx s r).b j), 0))
      (64 / (rowFmt r).width) := by
  intro p hp
  rcases List.mem_pair.1 hp with rfl | rfl
  · exact fpExact2_puts (execRowFmin r s) rfl rfl rfl (by decide) rfl
  · exact fpExact2_puts (execRowFmax r s) rfl rfl rfl (by decide) rfl

theorem fabs_puts {r : Row} {s : State} (fires : Fires s (.rowFabs r) 0x27 r) :
    PutsRow s (.rowFabs r) r .fvl 4 (peOf s) [(rowCtx s r).a]
      (fun j => (if (laneFp s r (rowCtx s r).a j).isNan then (rowFmt r).canon.1
        else (rowFmt r).flush (regionOf s).ftz (laneCode r (rowCtx s r).a j) % 2 ^ ((rowFmt r).width - 1), 0))
      (64 / (rowFmt r).width) := by
  have fits := (rowFmts_fit _ (rowFmt_mem fires rfl (by decide))).1
  have puts := fpLanes1_puts (f := fun z a => (absCode (rowFmt r) z a, 0)) (execRowFabs r s) rfl rfl rfl (by decide) rfl fires
  simpa only [absCode, laneFp, read_isNan fits] using puts

theorem fcmp_puts {r : Row} {s : State} (fires : Fires s (.rowFcmp r) 0x28 r) :
    PutsRow s (.rowFcmp r) r .fvl 4 (peOf s) [(rowCtx s r).a, (rowCtx s r).b]
      (fun j => (relation (rowFmt r) (regionOf s).ftz (laneCode r (rowCtx s r).a j) (laneCode r (rowCtx s r).b j), 0))
      (64 / (rowFmt r).width) :=
  fpExact2_puts (execRowFcmp r s) rfl rfl rfl (by decide) rfl fires

/-! ### FSUM and FMAXH (R361) -/

theorem lane_pos {r : Row} (hm : rowFmt r ∈ [fmtBf16, fmtF16, fmtF32]) : 1 ≤ 64 / (rowFmt r).width := by
  generalize rowFmt r = m at hm
  revert m
  decide

theorem fsum_puts {r : Row} {s : State} (fires : Fires s (.rowFsum r) 0x2a r) :
    PutsRow s (.rowFsum r) r .fvl 4 (peDrawn s r 1) [(rowCtx s r).a]
      (fun _ => (rowFmt r).finish (laneRounding s r 0)
        (sumFp (r.aux.toNat % 8) ((List.range (64 / (rowFmt r).width)).map (laneFp s r (rowCtx s r).a)))) 1 := by
  refine putsRow_drawn (execRowFsum r s) rfl fires rfl (by decide) (srcs := fun cx => [cx.a])
    (ls := fun cx => [(rowFmt r).finish (cx.roundingAt 0)
      (sumFp (cx.roundingAt 0).mode ((fpLanes (rowFmt r) cx.a).map ((rowFmt r).read cx.reg.ftz)))])
    (mode := fun cx => (cx.roundingAt 0).mode) rfl rfl (lane_pos (rowFmt_mem fires rfl (by decide))) rfl ?_
  rw [fpLanes_eq_map, List.map_map, roundingAt_eq]
  rfl

theorem fmaxh_puts {r : Row} {s : State} (fires : Fires s (.rowFmaxh r) 0x2b r) :
    PutsRow s (.rowFmaxh r) r .fvl 4 (peOf s) [(rowCtx s r).a]
      (fun _ => (((List.range (64 / (rowFmt r).width - 1)).map fun j => laneCode r (rowCtx s r).a (j + 1)).foldl
        ((rowFmt r).pick (regionOf s).ftz true) (laneCode r (rowCtx s r).a 0), 0)) 1 := by
  have pos := lane_pos (rowFmt_mem fires rfl (by decide))
  refine putsRow_of (execRowFmaxh r s) rfl fires rfl (by decide) (srcs := fun cx => [cx.a])
    (ls := fun cx => [((fpLanes (rowFmt r) cx.a).tail.foldl ((rowFmt r).pick cx.reg.ftz true) ((fpLanes (rowFmt r) cx.a).headD 0), 0)])
    rfl rfl pos ?_
  obtain ⟨n, hn⟩ := Nat.exists_eq_add_of_le' pos
  rw [fpLanes_eq_map, hn, List.range_succ_eq_map, List.map_cons, List.map_map, List.tail_cons, List.headD_cons,
    Nat.add_sub_cancel]
  rfl

theorem transcendental_puts (r : Row) (s : State) :
    ∀ p ∈ [(Instr.rowFrcp, 0x2c, rcpOf), (.rowFrsq, 0x2d, rsqOf), (.rowFexp2, 0x2e, exp2Of), (.rowFlog2, 0x2f, log2Of)],
    Fires s (p.1 r) p.2.1 r → PutsRow s (p.1 r) r .xc 6 (peOf s) [(rowCtx s r).a]
      (fun j => nearCode (rowFmt r) p.2.1 (laneCode r (rowCtx s r).a j) (regionOf s).ftz (p.2.2 (laneFp s r (rowCtx s r).a j)))
      (64 / (rowFmt r).width) := by
  intro p hp
  simp only [List.mem_cons, List.not_mem_nil, or_false] at hp
  rcases hp with rfl | rfl | rfl | rfl
  · exact fpLanes1_puts (f := fun z v => nearCode (rowFmt r) 0x2c v z (rcpOf ((rowFmt r).read z v))) (execRowFrcp r s) rfl rfl rfl
      (by decide) rfl
  · exact fpLanes1_puts (f := fun z v => nearCode (rowFmt r) 0x2d v z (rsqOf ((rowFmt r).read z v))) (execRowFrsq r s) rfl rfl rfl
      (by decide) rfl
  · exact fpLanes1_puts (f := fun z v => nearCode (rowFmt r) 0x2e v z (exp2Of ((rowFmt r).read z v))) (execRowFexp2 r s) rfl rfl rfl
      (by decide) rfl
  · exact fpLanes1_puts (f := fun z v => nearCode (rowFmt r) 0x2f v z (log2Of ((rowFmt r).read z v))) (execRowFlog2 r s) rfl rfl rfl
      (by decide) rfl

/-! ### FCVT (R360) -/

theorem raisedBy_eq (l : Nat → Nat × Flags) (k : Nat) : raisedBy l k = flagsOf ((List.range k).map l) :=
  by rw [raisedBy, flagsOf, List.foldl_map]

/-- Lanes that stand from `p` up, over lanes of 0. -/
def shifted (p : Nat) (l : Nat → Nat × Flags) (j : Nat) : Nat × Flags := if j < p then (0, 0) else l (j - p)

theorem map_shifted (p n : Nat) (l : Nat → Nat × Flags) :
    (List.range (p + n)).map (shifted p l) = List.replicate p (0, 0) ++ (List.range n).map l := by
  rw [List.range_add, List.map_append, List.map_map]
  congr 1
  · exact List.map_eq_replicate_iff.2 (fun j hj => if_pos (List.mem_range.1 hj)) |>.trans (by rw [List.length_range])
  · refine List.map_congr_left fun j _ => ?_
    rw [Function.comp_apply, shifted, if_neg (by omega), Nat.add_sub_cancel_left]

theorem raisedBy_shifted (p n : Nat) (l : Nat → Nat × Flags) : raisedBy (shifted p l) (p + n) = raisedBy l n := by
  have below : flagsOf (List.replicate p ((0, 0) : Nat × Flags)) = 0 :=
    flagsOf_zero _ fun q hq => by rw [List.eq_of_mem_replicate hq]
  rw [raisedBy_eq, raisedBy_eq, map_shifted, flagsOf, List.foldl_append]
  exact congrArg (fun f => ((List.range n).map l).foldl (fun f p => f ||| p.2) f) below

section
variable (s : State) (r : Row)

/-- R46: the element widths of an FCVT, from the format of SRCB to that of MOD. -/
def cvtFrom : Nat := cvtWidth (r.srcB.toNat % 16)
def cvtTo : Nat := cvtWidth r.mod.toNat

/-- R360: how many elements an FCVT converts. -/
def cvtCount : Nat := 64 / max (cvtFrom r) (cvtTo r)

/-- R360: the first of the elements of `w` bits that an FCVT reads or writes: those of the high part when P of the literal is set. -/
def cvtFirst (w : Nat) : Nat := if r.srcB.toNat / 32 % 2 = 1 then 64 / w - cvtCount r else 0

/-- R360: element `k` of an FCVT. -/
def cvtLane (k : Nat) : Nat × Flags :=
  cvtElem (r.srcB.toNat % 16) r.mod.toNat (r.srcB.toNat / 16 % 2 == 1) (laneRounding s r k)
    (laneOf (cvtFrom r) (cvtFirst r (cvtFrom r) + k) (rowCtx s r).a.data).toNat

theorem cvtWidth_cases (f : Nat) : cvtWidth f = 8 ∨ cvtWidth f = 16 ∨ cvtWidth f = 32 := by
  unfold cvtWidth
  split
  · exact .inr (.inl rfl)
  · split
    · exact .inr (.inr rfl)
    · exact .inl rfl

theorem cvtCount_le : cvtCount r ≤ 64 / cvtFrom r ∧ cvtCount r ≤ 64 / cvtTo r := by
  unfold cvtCount cvtFrom cvtTo
  rcases cvtWidth_cases (r.srcB.toNat % 16) with h | h | h <;> rcases cvtWidth_cases r.mod.toNat with k | k | k <;>
    rw [h, k] <;> decide

theorem cvtFirst_le {w : Nat} (few : cvtCount r ≤ 64 / w) : cvtFirst r w + cvtCount r ≤ 64 / w := by
  unfold cvtFirst
  split <;> omega

theorem cvt_eq_map : (rowCtx s r).cvt = (List.range (cvtCount r)).map (cvtLane s r) := by
  have few := cvtFirst_le r (cvtCount_le r).1
  apply List.ext_getElem
  · show (List.map _ ((List.range (cvtCount r)).zip ((wordLanes (cvtFrom r) (rowCtx s r).a.data).drop (cvtFirst r (cvtFrom r))))).length = _
    rw [wordLanes_eq_map]
    simp
    omega
  · intro k h h'
    have inside : k < cvtCount r := by simpa using h'
    show (List.map (fun p : Nat × Nat => cvtElem (r.srcB.toNat % 16) r.mod.toNat (r.srcB.toNat / 16 % 2 == 1)
      ((rowCtx s r).roundingAt p.1) p.2)
      ((List.range (cvtCount r)).zip ((wordLanes (cvtFrom r) (rowCtx s r).a.data).drop (cvtFirst r (cvtFrom r)))))[k]'h = _
    simp [wordLanes_eq_map, cvtLane, roundingAt_eq]

end

theorem fcvt_puts {r : Row} {s : State} (fires : Fires s (.rowFcvt r) 0x29 r) : ∃ t v, exec (.rowFcvt r) s = .next t ∧
    PutsLanes s t r .fvs 2 (if r.srcB.toNat % 16 = r.mod.toNat then peOf s else peDrawn s r (cvtCount r)) [(rowCtx s r).a] (cvtTo r)
      (shifted (cvtFirst r (cvtTo r)) (cvtLane s r)) (cvtFirst r (cvtTo r) + cvtCount r) v := by
  have fits : cvtTo r * (cvtFirst r (cvtTo r) + cvtCount r) ≤ 64 :=
    (Nat.mul_le_mul_left _ (cvtFirst_le r (cvtCount_le r).2)).trans (Nat.mul_div_le 64 _)
  obtain ⟨v, puts⟩ := putFp_drawn (s := s) (r := r) (code := 0x29) rfl (.rowFcvt r) [(rowCtx s r).a] fits
    (shifted (cvtFirst r (cvtTo r)) (cvtLane s r)) (if r.srcB.toNat % 16 = r.mod.toNat then 0 else r.aux.toNat % 8) (cvtCount r)
  refine ⟨_, v, row_runs (execRowFcvt r s) rfl rfl fires, ?_⟩
  have drawn : drawnPe (peOf s) (if r.srcB.toNat % 16 = r.mod.toNat then 0 else r.aux.toNat % 8) (cvtCount r) =
      if r.srcB.toNat % 16 = r.mod.toNat then peOf s else peDrawn s r (cvtCount r) := by
    split <;> rfl
  rw [drawn, map_shifted, ← cvt_eq_map] at puts
  exact puts

end Sys2Proof.Proofs
end

section
/-! PROOFS. The transcendental rows and the conversion of elements: reciprocals, roots and what lies between two codes (R360, R362). -/

namespace Sys2Proof.Proofs

open Sys2Proof Sys2Proof.Machine Sys2Proof.Safety Sys2Proof.Laws

/-! ### Magnitudes known to a whole number of 2^g -/

theorem lt_add_grid {g : Int} {a x : ℚ} (ha : OnGrid g a) (hx : OnGrid g x) (h : x < a) : x + 2 ^ g ≤ a := by
  obtain ⟨n, rfl⟩ := ha
  obtain ⟨k, rfl⟩ := hx
  have unit : (0 : ℚ) < 2 ^ g := by positivity
  have less : k < n := by exact_mod_cast lt_of_mul_lt_mul_right h unit.le
  have : ((k : ℚ) + 1) ≤ n := by exact_mod_cast less
  nlinarith

/-- A rational magnitude by the whole number of 2^g below it. -/
theorem reads_floor {t x : ℚ} {g : Int} {rest : Bool} (grid : OnGrid g x) (none_ : rest = false → t = x)
    (some_ : rest = true → x < t ∧ t < x + 2 ^ g) : Reads (Exact.of t) x rest g := by
  have below : x ≤ t := by
    cases rest
    · exact (none_ rfl).ge
    · exact (some_ rfl).1.le
  have above : t < x + 2 ^ g := by
    cases rest
    · rw [none_ rfl]
      have : (0 : ℚ) < 2 ^ g := by positivity
      linarith
    · exact (some_ rfl).2
  refine ⟨fun a h => decide_eq_true (h.trans below), fun a b ha h k => decide_eq_false ?_,
    fun a h => decide_eq_false (h.trans_le below).ne, fun a ha => ?_⟩
  · exact not_le_of_gt ((above.trans_le (lt_add_grid ha grid h)).trans_le k)
  · show decide (a = t) = (!rest && decide (a = x))
    cases rest
    · rw [none_ rfl]; rfl
    · refine decide_eq_false fun same => ?_
      have := lt_add_grid ha grid (same ▸ (some_ rfl).1)
      exact absurd (same ▸ above) (not_lt_of_ge this)

/-- An exact magnitude is one number: it exceeds what is below a number that it exceeds, and nothing beyond itself. -/
structure Ordered (y : Exact) : Prop where
  le_le : ∀ {a b : ℚ}, a ≤ b → y.le b = true → y.le a = true
  eq_lt : ∀ {a b : ℚ}, y.eq a = true → a < b → y.le b = false

theorem ordered_of (t : ℚ) : Ordered (Exact.of t) where
  le_le h k := decide_eq_true (h.trans (of_decide_eq_true k))
  eq_lt h k := decide_eq_false (not_le_of_gt ((of_decide_eq_true h).ge.trans_lt k))

theorem ordered_near (m : Nat) (e : Int) (rest : Bool) : Ordered (Exact.near m e rest) where
  le_le h k := decide_eq_true (h.trans (of_decide_eq_true k))
  eq_lt h k := decide_eq_false (not_le_of_gt ((of_decide_eq_true (Bool.and_eq_true_iff.1 h).2).ge.trans_lt k))

/-! ### One of two FP32 values (R362) -/

theorem signed_mod {neg : Bool} {j : Nat} (h : j < 2 ^ 31) : fmtF32.signed neg j % 2 ^ 31 = j := by
  cases neg
  · exact Nat.mod_eq_of_lt h
  · show (j + 2 ^ 31) % 2 ^ 31 = j
    rw [Nat.add_mod_right, Nat.mod_eq_of_lt h]

/-- The least normal FP32 value, and the last subnormal, are at least the codes below them. -/
theorem magOf_subnormal {k : Nat} (h : k + 1 < 2 ^ 23) :
    magOf fmtF32 (k + 1) ≤ (2 : ℚ) ^ (1 - fmtF32.bias) - (2 : ℚ) ^ (fmtF32.qmin - 1) := by
  have top := (magOf_strictMono fmtF32).monotone (show k + 1 ≤ 2 ^ 23 - 1 by omega)
  refine top.trans ?_
  have last := magOf_units fmtF32 (d := 0) (c := 2 ^ 23 - 1) (.inl rfl) (by decide)
  rw [show 0 * 2 ^ fmtF32.man + (2 ^ 23 - 1) = 2 ^ 23 - 1 from rfl] at last
  rw [last]
  norm_num [Fmt.qmin, fmtF32]

theorem magOf_normal {k : Nat} (h : 2 ^ 23 ≤ k) : (2 : ℚ) ^ (1 - fmtF32.bias) ≤ magOf fmtF32 k := by
  refine le_trans ?_ ((magOf_strictMono fmtF32).monotone h)
  have least := magOf_units fmtF32 (d := 0) (c := 2 ^ 23) (.inl rfl) (by decide)
  rw [show 0 * 2 ^ fmtF32.man + 2 ^ 23 = 2 ^ 23 from rfl] at least
  rw [least]
  norm_num [Fmt.qmin, fmtF32]

section
variable {y : Exact} (ord : Ordered y)
include ord

theorem Ordered.not_le {a b : ℚ} (h : y.le a = false) (k : a ≤ b) : y.le b = false := by
  by_contra le_b
  rw [ord.le_le k (Bool.not_eq_false _ ▸ le_b)] at h
  exact Bool.false_ne_true h.symm

/-- R54: below the last subnormal every inexact result is tiny. -/
theorem tinyIn_subnormal (mode : Nat) (neg : Bool) {k : Nat} (above : y.le (magOf fmtF32 (k + 1)) = false) (low : k + 1 < 2 ^ 23) :
    tinyIn fmtF32 mode neg y = true := by
  have last := ord.not_le above (magOf_subnormal low)
  have half : (2 : ℚ) ^ (fmtF32.qmin - 2) ≤ 2 ^ (fmtF32.qmin - 1) := zpow_le_zpow_right₀ (by norm_num) (by decide)
  have pos : (0 : ℚ) < 2 ^ (fmtF32.qmin - 1) := by positivity
  have mid := ord.not_le last (show _ ≤ (2 : ℚ) ^ (1 - fmtF32.bias) - (2 : ℚ) ^ (fmtF32.qmin - 2) by linarith)
  have least := ord.not_le last (show _ ≤ (2 : ℚ) ^ (1 - fmtF32.bias) by linarith)
  unfold tinyIn
  simp [last, mid, least]

/-- R54: a result of a normal value is not tiny. -/
theorem tinyIn_of_normal (mode : Nat) (neg : Bool) {k : Nat} (reached : y.le (magOf fmtF32 k) = true) (normal : 2 ^ 23 ≤ k) :
    tinyIn fmtF32 mode neg y = false := by
  have below : ∀ b : Int, (2 : ℚ) ^ (1 - fmtF32.bias) - (2 : ℚ) ^ b < magOf fmtF32 k := fun b => by
    have := magOf_normal normal
    have : (0 : ℚ) < 2 ^ b := by positivity
    linarith
  have noEq : ∀ b : Int, y.eq ((2 : ℚ) ^ (1 - fmtF32.bias) - (2 : ℚ) ^ b) = false := fun b => by
    by_contra h
    have := ord.eq_lt (Bool.not_eq_false _ ▸ h) (below b)
    rw [reached] at this
    exact Bool.false_ne_true this.symm
  unfold tinyIn
  simp [ord.le_le (below _).le reached, ord.le_le (magOf_normal normal) reached, noEq]

/-- R362: what a rounding delivers of one of the two codes that bracket a magnitude. -/
theorem delivered_brackets {z : Rounding} {neg : Bool} {k j : Nat} {r : Nat × Flags} (reached : y.le (magOf fmtF32 k) = true)
    (above : y.le (magOf fmtF32 (k + 1)) = false) (most : j ≤ fmtF32.maxCode)
    (choice : j = k ∨ y.eq (magOf fmtF32 k) = false ∧ j = k + 1)
    (made : r = delivered fmtF32 z neg j
      (if y.eq (magOf fmtF32 k) = false ∧ tinyIn fmtF32 z.mode neg y = true then flUF else 0)) :
    (r.1 = fmtF32.signed neg k ∨ y.eq (magOf fmtF32 k) = false ∧ r.1 = fmtF32.signed neg (k + 1) ∨
      z.ftz = true ∧ k < 2 ^ 23 ∧ r = (fmtF32.signed neg 0, flUF)) ∧
    (z.ftz = true → r.1 % 2 ^ 31 = 0 ∨ 2 ^ 23 ≤ r.1 % 2 ^ 31) ∧
    (z.ftz = false → y.eq (magOf fmtF32 k) = true → r.2 = 0) ∧
    (y.eq (magOf fmtF32 k) = false → k + 1 < 2 ^ 23 → r.2 = flUF) ∧ (2 ^ 23 ≤ k → r.2 = 0) := by
  have word : j < 2 ^ 31 := most.trans_lt (by decide)
  rw [delivered, if_neg (not_lt.2 most)] at made
  by_cases zero : z.ftz = true ∧ (fmtF32.width = 32 ∨ fmtF32.width = 16) ∧ 0 < j ∧ j < 2 ^ fmtF32.man
  · rw [if_pos zero] at made
    obtain ⟨on, -, -, sub⟩ := zero
    have sub : j < 2 ^ 23 := sub
    rw [made]
    refine ⟨.inr (.inr ⟨on, by omega, rfl⟩), fun _ => .inl (signed_mod (by decide)), fun off => ?_, fun _ _ => rfl, fun normal => ?_⟩
    · rw [on] at off; exact absurd off (by decide)
    · omega
  · rw [if_neg zero] at made
    rw [made]
    refine ⟨?_, fun on => ?_, fun _ same => ?_, fun apart low => ?_, fun normal => ?_⟩
    · rcases choice with rfl | ⟨apart, rfl⟩
      · exact .inl rfl
      · exact .inr (.inl ⟨apart, rfl⟩)
    · dsimp only
      rw [signed_mod word]
      by_contra h
      have : 0 < j ∧ j < 2 ^ 23 := by omega
      exact zero ⟨on, .inl rfl, this.1, this.2⟩
    · simp [same]
    · simp [apart, tinyIn_subnormal ord z.mode neg above low]
    · simp [tinyIn_of_normal ord z.mode neg reached normal]

/-- R362: away from zero, or toward it where that does not overflow, is one of the two values of a bracket. -/
theorem brackets_of_roundsTo {ftz neg : Bool} {up down r : Nat × Flags}
    (away : RoundsTo fmtF32 { mode := if neg then 3 else 2, ftz := ftz } neg y up)
    (toward : RoundsTo fmtF32 { mode := 1, ftz := ftz } neg y down) (choice : r = up ∨ up.2 &&& flOF = 0 ∧ r = down) :
    Brackets ftz neg y r := by
  have inf : beyond fmtF32 { mode := if neg then 3 else 2, ftz := ftz } neg = (fmtF32.signed neg 0x7f800000, flOF) := by
    cases neg <;> rfl
  have overflow : up = (fmtF32.signed neg 0x7f800000, flOF) → r = (fmtF32.signed neg 0x7f800000, flOF) := fun h => by
    rcases choice with rfl | ⟨quiet, -⟩
    · exact h
    · rw [h] at quiet
      exact absurd (show flOF &&& flOF = 0 from quiet) (by decide)
  have step : ∀ k, roundsAway { mode := if neg then 3 else 2, ftz := ftz } neg (magOf fmtF32 k) (magOf fmtF32 (k + 1)) y
      (k % 2 == 1) = !y.eq (magOf fmtF32 k) := fun k => by
    cases neg <;> rfl
  obtain ⟨upHigh, upNear⟩ := away
  obtain ⟨-, downNear⟩ := toward
  refine ⟨fun high => overflow ((upHigh high).trans inf), fun k most reached above => ⟨fun last apart => ?_, fun room => ?_⟩⟩
  · refine overflow ((upNear k most reached above).trans ?_)
    dsimp only
    rw [step, apart, last]
    exact inf
  · rcases choice with rfl | ⟨-, rfl⟩
    · have upIs := upNear k most reached above
      dsimp only at upIs
      rw [step] at upIs
      rcases Bool.eq_false_or_eq_true (y.eq (magOf fmtF32 k)) with same | apart
      · rw [same] at upIs
        exact delivered_brackets ord reached above most (.inl rfl) (upIs.trans (by rw [same]; rfl))
      · have less : k < fmtF32.maxCode := room.resolve_right (by rw [apart]; decide)
        rw [apart] at upIs
        exact delivered_brackets ord reached above less (.inr ⟨apart, rfl⟩) (upIs.trans (by rw [apart]; rfl))
    · exact delivered_brackets ord reached above most (.inl rfl) (downNear k most reached above)

end

/-! ### The values of the transcendental rows (R362) -/

/-- The formats of the transcendental rows. -/
def laneFmts : List Fmt := [fmtF32, fmtBf16, fmtF16]

theorem laneFmts_subset : ∀ m ∈ laneFmts, m ∈ fmts := by decide

theorem laneFmts_canon : ∀ m ∈ laneFmts, m.canon.2 = 0 := by decide

theorem laneFmts_man : ∀ m ∈ laneFmts, m.man ≤ 23 := by decide

theorem laneFmts_bias : ∀ m ∈ laneFmts, 1 ≤ m.bias ∧ m.bias ≤ 127 ∧ 2 * m.bias.toNat * 2 ^ m.man ≤ m.maxCode := by decide

theorem laneFmts_inf : ∀ m ∈ laneFmts, m.inf = some (m.inf.getD 0) := by decide

/-- R362: one of the two FP32 values about a magnitude, or the nearest of another format. -/
def Close (m : Fmt) (ftz neg : Bool) (y : Exact) (o : Nat × Flags) : Prop :=
  if m = fmtF32 then Brackets ftz neg y o else RoundsTo m { mode := 0, ftz := ftz } neg y o

/-- A magnitude known finely enough is rounded as the row's format asks. -/
theorem nearCode_close {m : Fmt} (hm : m ∈ laneFmts) (code input : Nat) (ftz neg : Bool) {k : Nat} {e g : Int} {rest : Bool}
    {y : Exact} (reads : Reads y (k * (2 : ℚ) ^ e) rest g) (ord : Ordered y) (fine : g + 33 ≤ placeOf m k e)
    (low : k = 0 → rest = true → e + 2 ≤ 1 - m.bias) : Close m ftz neg y (nearCode m code input ftz (.mag neg k e rest)) := by
  have man := fmts_man m (laneFmts_subset m hm)
  have rounds : ∀ z : Rounding, z.mode ≤ 3 → RoundsTo m z neg y (m.roundFin z neg k e rest) := fun z h =>
    roundFin_roundsTo neg reads man fine low (by omega) (by omega)
  unfold Close
  by_cases single : m = fmtF32
  · rw [if_pos single]
    subst single
    have up := rounds { mode := if neg then 3 else 2, ftz := ftz } (by dsimp only; split <;> omega)
    refine brackets_of_roundsTo ord up (rounds { mode := 1, ftz := ftz } (Nat.le_of_ble_eq_true rfl)) ?_
    rw [nearCode, if_pos rfl, bracket]
    by_cases goes : (decide ((fmtF32.roundFin { mode := if neg then 3 else 2, ftz := ftz } neg k e rest).2 &&& flOF ≠ 0) ||
        Config.roundAway code (BitVec.ofNat 32 input)) = true
    · exact .inl (if_pos goes)
    · refine .inr ⟨?_, if_neg goes⟩
      simp only [Bool.or_eq_true, decide_eq_true_eq, not_or, not_not] at goes
      exact goes.1
  · rw [if_neg single]
    simp only [nearCode, single, if_false]
    exact rounds _ (Nat.zero_le 3)

theorem nearCode_special (m : Fmt) (code input : Nat) (ftz : Bool) (x : Fp) (fl : Flags) :
    nearCode m code input ftz (.special x fl) = m.finish { mode := 0, ftz := ftz } (x, fl) := rfl

section
variable {m : Fmt} (hm : m ∈ laneFmts) (z : Rounding)
include hm

theorem finish_special_nan (fl : Flags) : m.finish z (.nan, fl) = (m.canon.1, fl) := by
  rw [finish_eq]
  show (m.canon.1, m.canon.2 ||| fl) = _
  rw [laneFmts_canon m hm, show (0 : Flags) ||| fl = fl from BitVec.zero_or]

theorem finish_special_inf (ieee : z.ovf = .ieee) (n : Bool) (fl : Flags) :
    m.finish z (.inf n, fl) = (m.signed n (m.inf.getD 0), fl) := by
  have some_ := laneFmts_inf m hm
  have rounded : m.roundInf z n = (m.signed n (m.inf.getD 0), 0) := by
    unfold Fmt.roundInf
    rw [ieee, some_]
    rfl
  rw [finish_eq]
  show ((m.roundInf z n).1, (m.roundInf z n).2 ||| fl) = _
  rw [rounded, show (0 : Flags) ||| fl = fl from BitVec.zero_or]

end

theorem finish_special_zero (m : Fmt) (z : Rounding) (n : Bool) (e : Int) : m.finish z (.fin n 0 e, 0) = (m.signed n 0, 0) := by
  rw [finish_quiet]
  rfl

/-- A code's own magnitude is rounded to that code in every mode. -/
theorem roundFin_code {f : Fmt} (man : 1 ≤ f.man) {z : Rounding} (neg : Bool) {m c : Nat} {e : Int} (code : z.mode ≤ 4)
    (small : z.mode = 4 → z.draw < 2 ^ 32) (value : m * (2 : ℚ) ^ e = magOf f c) (most : c ≤ f.maxCode) (normal : 2 ^ f.man ≤ c) :
    f.roundFin z neg m e = (f.signed neg c, 0) := by
  obtain ⟨-, near⟩ := roundFin_of neg m e man code small
  rw [value] at near
  have next : magOf f c < magOf f (c + 1) := magOf_strictMono f (Nat.lt_succ_self c)
  have same : (Exact.of (magOf f c)).eq (magOf f c) = true := decide_eq_true rfl
  have stays : roundsAway z neg (magOf f c) (magOf f (c + 1)) (Exact.of (magOf f c)) (c % 2 == 1) = false := by
    have mid : (Exact.of (magOf f c)).le ((magOf f c + magOf f (c + 1)) / 2) = false := decide_eq_false (by linarith)
    have drawn : z.mode = 4 → (Exact.of (magOf f c)).le
        (magOf f c + (magOf f (c + 1) - magOf f c) * ((2 ^ 32 - (z.draw : ℚ)) / 2 ^ 32)) = false := fun random => by
      have left : (0 : ℚ) < 2 ^ 32 - z.draw := by
        have : (z.draw : ℚ) < 2 ^ 32 := by exact_mod_cast small random
        linarith
      have : 0 < (magOf f (c + 1) - magOf f c) * ((2 ^ 32 - (z.draw : ℚ)) / 2 ^ 32) :=
        mul_pos (by linarith) (by positivity)
      exact decide_eq_false (by linarith)
    have modes : z.mode = 0 ∨ z.mode = 1 ∨ z.mode = 2 ∨ z.mode = 3 ∨ z.mode = 4 := by omega
    unfold roundsAway
    rcases modes with h | h | h | h | h
    · simp [h, mid]
    · simp [h]
    · simp [h, same]
    · simp [h, same]
    · simp only [h]; exact drawn h
  have made := near c most (decide_eq_true le_rfl) (decide_eq_false (by linarith))
  rw [stays, same] at made
  rw [made]
  simp [not_lt.2 most, not_lt.2 normal]

/-- R362: FRCP of NaN, infinities and zeros. -/
theorem rcp_special {m : Fmt} (hm : m ∈ laneFmts) (c : Nat) (z : Bool) :
    nearCode m 0x2c c z (rcpOf .nan) = (m.canon.1, 0) ∧
    (∀ n, nearCode m 0x2c c z (rcpOf (.inf n)) = (m.signed n 0, 0)) ∧
    ∀ n e, nearCode m 0x2c c z (rcpOf (.fin n 0 e)) = (m.signed n (m.inf.getD 0), flDZ) :=
  ⟨finish_special_nan hm { mode := 0, ftz := z } 0, fun n => finish_special_zero m { mode := 0, ftz := z } n 0,
    fun n _ => finish_special_inf hm { mode := 0, ftz := z } rfl n flDZ⟩

/-- At least 2^b units of 2^e have their leading bit at e + b or above. -/
theorem le_topExp {b k : Nat} (e : Int) (h : 2 ^ b ≤ k) : e + b ≤ topExp k e := by
  have pos : k ≠ 0 := by have := Nat.two_pow_pos b; omega
  have := (Nat.le_log2 pos).2 h
  rw [topExp]
  omega

/-- A magnitude of more than 56 bits is known finely enough for every format of a lane. -/
theorem fine_of_long {m : Fmt} (hm : m ∈ laneFmts) {b k : Nat} (e : Int) (h : 2 ^ b ≤ k) (long : 56 ≤ b) : e + 33 ≤ placeOf m k e := by
  have top := le_topExp e h
  have man := laneFmts_man m hm
  have pos : k ≠ 0 := by have := Nat.two_pow_pos b; omega
  rw [placeOf, if_neg pos]
  omega

/-- R362: FRCP of a number is next to its reciprocal. -/
theorem rcp_close {m : Fmt} (hm : m ∈ laneFmts) (c : Nat) (z n : Bool) {k : Nat} (e : Int) (pos : k ≠ 0) (short : k < 2 ^ 24) :
    Close m z n (Exact.rcp (k * (2 : ℚ) ^ e)) (nearCode m 0x2c c z (rcpOf (.fin n k e))) := by
  have kpos : (0 : ℚ) < k := by exact_mod_cast Nat.pos_of_ne_zero pos
  have vpos : (0 : ℚ) < k * 2 ^ e := by positivity
  have inverse : Exact.rcp (k * (2 : ℚ) ^ e) = Exact.of (1 / (k * (2 : ℚ) ^ e)) := by
    unfold Exact.rcp Exact.of
    congr 1
    · funext a; rw [decide_eq_decide, le_div_iff₀ vpos]
    · funext a; rw [decide_eq_decide, eq_div_iff vpos.ne']
  have unit : 1 / (k * (2 : ℚ) ^ e) = (2 ^ 96 / k) * 2 ^ (-e - 96) := by
    rw [zpow_sub₀ (by norm_num), zpow_neg]
    field_simp
  have split : (2 ^ 96 : ℚ) / k = (2 ^ 96 / k : Nat) + (2 ^ 96 % k : Nat) / k := by
    rw [eq_comm, ← eq_sub_iff_add_eq, eq_comm, sub_eq_iff_eq_add, div_eq_iff kpos.ne', add_mul, div_mul_cancel₀ _ kpos.ne']
    exact_mod_cast (Nat.div_add_mod' (2 ^ 96) k).symm
  have low : 2 ^ 72 ≤ 2 ^ 96 / k := (Nat.le_div_iff_mul_le (Nat.pos_of_ne_zero pos)).2 (by nlinarith)
  have grid : (0 : ℚ) < 2 ^ (-e - 96) := by positivity
  have part : ((2 ^ 96 % k : Nat) : ℚ) / k < 1 := (div_lt_one kpos).2 (by exact_mod_cast Nat.mod_lt _ (Nat.pos_of_ne_zero pos))
  have reads : Reads (Exact.of (1 / (k * (2 : ℚ) ^ e))) ((2 ^ 96 / k : Nat) * (2 : ℚ) ^ (-e - 96)) (decide (2 ^ 96 % k ≠ 0)) (-e - 96) := by
    refine reads_floor ⟨(2 ^ 96 / k : Nat), by push_cast; rfl⟩ (fun whole => ?_) fun rest => ?_
    · have : 2 ^ 96 % k = 0 := by simpa using whole
      rw [unit, split, this]
      simp
    · have : 0 < 2 ^ 96 % k := Nat.pos_of_ne_zero (by simpa using rest)
      have : (0 : ℚ) < (2 ^ 96 % k : Nat) / k := div_pos (by exact_mod_cast this) kpos
      rw [unit, split]
      constructor <;> nlinarith
  rw [inverse, rcpOf, if_neg pos]
  exact nearCode_close hm _ _ _ _ reads (ordered_of _) (fine_of_long hm _ low (by decide)) fun zero => by
    rw [zero] at low
    exact absurd low (by decide)

end Sys2Proof.Proofs
end

section
/-! PROOFS. Roots, powers and logarithms of a lane, and the elements of FCVT (R360, R362). -/

namespace Sys2Proof.Proofs

open Sys2Proof Sys2Proof.Machine Sys2Proof.Safety Sys2Proof.Laws

/-! ### FRSQ (R362) -/

/-- The bits of an integer square root, from one that is short of it by less than 2^b. -/
theorem isqrt_spec (n : Nat) (b : Nat) : ∀ r : Nat, r * r ≤ n → n < (r + 2 ^ b) * (r + 2 ^ b) →
    isqrt n b r * isqrt n b r ≤ n ∧ n < (isqrt n b r + 1) * (isqrt n b r + 1) := by
  induction b with
  | zero => exact fun r low high => ⟨low, high⟩
  | succ b ih =>
    intro r low high
    rw [isqrt]
    split
    · rename_i more
      refine ih _ more ?_
      rwa [Nat.add_assoc, ← Nat.two_mul, ← Nat.pow_succ']
    · rename_i less
      exact ih _ low (Nat.lt_of_not_le less)

/-- R362: a root whose square times `m` is at most 2^192, next to the exact one. -/
theorem isqrt_bounds {m : Nat} (pos : m ≠ 0) : let q := isqrt (2 ^ 192 / m) 97 0
    q * q * m ≤ 2 ^ 192 ∧ 2 ^ 192 < (q + 1) * (q + 1) * m := by
  have few : 2 ^ 192 / m < (0 + 2 ^ 97) * (0 + 2 ^ 97) := (Nat.div_le_self ..).trans_lt (by norm_num)
  obtain ⟨low, high⟩ := isqrt_spec (2 ^ 192 / m) 97 0 (Nat.zero_le _) few
  exact ⟨(Nat.le_div_iff_mul_le (Nat.pos_of_ne_zero pos)).1 low, (Nat.div_lt_iff_lt_mul (Nat.pos_of_ne_zero pos)).1 high⟩

theorem isqrt_long {m : Nat} (pos : m ≠ 0) (short : m < 2 ^ 25) : 2 ^ 83 ≤ isqrt (2 ^ 192 / m) 97 0 := by
  have high := (isqrt_bounds pos).2
  generalize isqrt (2 ^ 192 / m) 97 0 = q at high
  by_contra less
  have root : q + 1 ≤ 2 ^ 83 := by omega
  have : (q + 1) * (q + 1) * m ≤ 2 ^ 83 * 2 ^ 83 * 2 ^ 25 := Nat.mul_le_mul (Nat.mul_le_mul root root) short.le
  exact absurd (high.trans_le this) (by norm_num)

theorem ordered_rsq {v : ℚ} (pos : 0 < v) : Ordered (Exact.rsq v) where
  le_le {a b} h k := by
    have k : b < 0 ∨ b * b * v ≤ 1 := of_decide_eq_true k
    refine decide_eq_true ?_
    by_cases neg : a < 0
    · exact .inl neg
    · have := not_lt.1 neg
      have : a * a ≤ b * b := by nlinarith
      exact .inr ((mul_le_mul_of_nonneg_right this pos.le).trans (k.resolve_left (by linarith)))
  eq_lt {a b} h k := by
    obtain ⟨nonneg, one⟩ : 0 ≤ a ∧ a * a * v = 1 := of_decide_eq_true h
    refine decide_eq_false ?_
    rintro (neg | le)
    · linarith
    · have : a * a < b * b := by nlinarith
      have := mul_lt_mul_of_pos_right this pos
      linarith

/-- The exact root of 1 / (m · 2^(2h)) by the whole number of 2^(−h − 96) below it. -/
theorem reads_rsq {m q : Nat} {h : Int} {v : ℚ} (value : v = m * (2 : ℚ) ^ (2 * h)) (pos : m ≠ 0) (low : q * q * m ≤ 2 ^ 192)
    (high : 2 ^ 192 < (q + 1) * (q + 1) * m) :
    Reads (Exact.rsq v) (q * (2 : ℚ) ^ (-h - 96)) (decide (q * q * m ≠ 2 ^ 192)) (-h - 96) := by
  have mpos : (0 : ℚ) < m := by exact_mod_cast Nat.pos_of_ne_zero pos
  have unit : (0 : ℚ) < 2 ^ (-h - 96) := by positivity
  have vpos : 0 < v := by rw [value]; positivity
  have ord := ordered_rsq vpos
  have square : ∀ n : ℚ, n * (2 : ℚ) ^ (-h - 96) * (n * (2 : ℚ) ^ (-h - 96)) * v = n * n * m / 2 ^ 192 := fun n => by
    have : (2 : ℚ) ^ (-h - 96) * (2 : ℚ) ^ (-h - 96) * (2 : ℚ) ^ (2 * h) = 1 / 2 ^ 192 := by
      rw [← zpow_add₀ (by norm_num), ← zpow_add₀ (by norm_num), show -h - 96 + (-h - 96) + 2 * h = -192 by ring]
      norm_num
    rw [value, show n * (2 : ℚ) ^ (-h - 96) * (n * (2 : ℚ) ^ (-h - 96)) * (m * (2 : ℚ) ^ (2 * h)) =
      n * n * m * ((2 : ℚ) ^ (-h - 96) * (2 : ℚ) ^ (-h - 96) * (2 : ℚ) ^ (2 * h)) by ring, this]
    ring
  have low_le : (Exact.rsq v).le (q * (2 : ℚ) ^ (-h - 96)) = true := by
    refine decide_eq_true (.inr ?_)
    rw [square, div_le_one (by positivity)]
    exact_mod_cast low
  have next : (Exact.rsq v).le ((q + 1) * (2 : ℚ) ^ (-h - 96)) = false := by
    refine decide_eq_false ?_
    rw [square, div_le_one (by positivity), not_or]
    refine ⟨not_lt.2 (by positivity), not_le.2 ?_⟩
    exact_mod_cast high
  have beyond_ : ∀ a, OnGrid (-h - 96) a → q * (2 : ℚ) ^ (-h - 96) < a → (Exact.rsq v).le a = false := fun a ha less => by
    refine ord.not_le next ?_
    have := lt_add_grid ha ⟨(q : Int), by push_cast; rfl⟩ less
    linarith
  have eq_le : ∀ a, (Exact.rsq v).eq a = true → (Exact.rsq v).le a = true := fun a h => by
    have : 0 ≤ a ∧ a * a * v = 1 := of_decide_eq_true h
    exact decide_eq_true (.inr this.2.le)
  refine ⟨fun a h => ord.le_le h low_le, fun a b ha less le => ord.not_le (beyond_ a ha less) le, fun a less => ?_, fun a ha => ?_⟩
  · by_contra h
    rw [ord.eq_lt (Bool.not_eq_false _ ▸ h) less] at low_le
    exact Bool.false_ne_true low_le
  · rcases lt_trichotomy a (q * (2 : ℚ) ^ (-h - 96)) with less | same | more
    · rw [decide_eq_false less.ne, Bool.and_false]
      by_contra h
      rw [ord.eq_lt (Bool.not_eq_false _ ▸ h) less] at low_le
      exact Bool.false_ne_true low_le
    · have root : (Exact.rsq v).eq a = decide (q * q * m = 2 ^ 192) := by
        refine decide_eq_decide.2 ?_
        rw [same, square, div_eq_one_iff_eq (by positivity)]
        constructor
        · rintro ⟨-, h⟩
          exact_mod_cast h
        · intro h
          exact ⟨by positivity, by exact_mod_cast h⟩
      rw [root, decide_eq_true same, Bool.and_true]
      simp
    · rw [decide_eq_false more.ne', Bool.and_false]
      by_contra h
      have := eq_le a (Bool.not_eq_false _ ▸ h)
      rw [beyond_ a ha more] at this
      exact Bool.false_ne_true this

end Sys2Proof.Proofs
end

section
/-! PROOFS. Roots, powers and logarithms of a lane next to their bounds, and their special values (R362). -/

namespace Sys2Proof.Proofs

open Sys2Proof Sys2Proof.Machine Sys2Proof.Safety Sys2Proof.Laws

/-! ### FRSQ -/

/-- R362: the model's root, of a number with an even exponent. -/
theorem rsqOf_even {k : Nat} (e : Int) (pos : k ≠ 0) (short : k < 2 ^ 24) : ∃ (m : Nat) (h : Int), m ≠ 0 ∧ m < 2 ^ 25 ∧
    (k : ℚ) * (2 : ℚ) ^ e = m * (2 : ℚ) ^ (2 * h) ∧ rsqOf (.fin false k e) =
      let q := isqrt (2 ^ 192 / m) 97 0
      .mag false q (-h - 96) (decide (q * q * m ≠ 2 ^ 192)) := by
  by_cases even : e % 2 = 0
  · refine ⟨k, e / 2, pos, by omega, ?_, ?_⟩
    · rw [show 2 * (e / 2) = e by omega]
    · simp only [rsqOf, pos, even, if_true, if_false, Bool.false_eq_true]
  · refine ⟨2 * k, (e - 1) / 2, by omega, by omega, ?_, ?_⟩
    · rw [show 2 * ((e - 1) / 2) = e - 1 by omega, zpow_sub_one₀ (by norm_num)]
      push_cast
      ring
    · simp only [rsqOf, pos, even, if_false, Bool.false_eq_true]

section
variable {m : Fmt} (hm : m ∈ laneFmts) (c : Nat) (z : Bool)
include hm

/-- R362: FRSQ of a positive number is next to the reciprocal of its root. -/
theorem rsq_close {k : Nat} (e : Int) (pos : k ≠ 0) (short : k < 2 ^ 24) :
    Close m z false (Exact.rsq (k * (2 : ℚ) ^ e)) (nearCode m 0x2d c z (rsqOf (.fin false k e))) := by
  obtain ⟨n, h, npos, nshort, value, made⟩ := rsqOf_even e pos short
  obtain ⟨low, high⟩ := isqrt_bounds npos
  have long := isqrt_long npos nshort
  have vpos : (0 : ℚ) < k * (2 : ℚ) ^ e := mul_pos (by exact_mod_cast Nat.pos_of_ne_zero pos) (by positivity)
  rw [made]
  refine nearCode_close hm 0x2d c z false (reads_rsq value npos low high) (ordered_rsq vpos)
    (fine_of_long hm _ long (by decide)) fun zero => ?_
  rw [zero] at long
  exact absurd long (by decide)

/-- R362: FRSQ of NaN, infinities, zeros and negative numbers. -/
theorem rsq_special : nearCode m 0x2d c z (rsqOf .nan) = (m.canon.1, 0) ∧
    (∀ n, nearCode m 0x2d c z (rsqOf (.inf n)) = if n then (m.canon.1, flNV) else (0, 0)) ∧
    (∀ n e, nearCode m 0x2d c z (rsqOf (.fin n 0 e)) = (m.signed n (m.inf.getD 0), 0)) ∧
    ∀ k e, k ≠ 0 → nearCode m 0x2d c z (rsqOf (.fin true k e)) = (m.canon.1, flNV) := by
  have nan := finish_special_nan hm { mode := 0, ftz := z }
  refine ⟨nan 0, fun n => ?_, fun n _ => finish_special_inf hm { mode := 0, ftz := z } rfl n 0, fun k e pos => ?_⟩
  · cases n
    · exact finish_special_zero m { mode := 0, ftz := z } false 0
    · exact nan flNV
  · simp only [rsqOf, pos, if_false, if_true]
    exact nan flNV

/-! ### FEXP2 -/

/-- R362: a lane of a rational bound is next to that bound. -/
theorem near_close (code : Nat) (neg : Bool) {k : Nat} {e : Int} {rest : Bool}
    (low : k = 0 → rest = true → e + 2 ≤ 1 - m.bias) :
    Close m z neg (Exact.near k e rest) (nearCode m code c z (.mag neg k e rest)) :=
  nearCode_close hm code c z neg (reads_near k e rest (placeOf m k e - 33)) (ordered_near k e rest) (by omega) low

/-- R362: a power of two of a normal exponent is its own code. -/
theorem nearCode_power (code : Nat) {i : Int} (low : 1 - m.bias ≤ i) (high : i ≤ m.bias) :
    nearCode m code c z (.mag false 1 i false) = ((i + m.bias).toNat * 2 ^ m.man, 0) := by
  obtain ⟨bias, -, most⟩ := laneFmts_bias m hm
  have man := fmts_man m (laneFmts_subset m hm)
  obtain ⟨d, hd⟩ : ∃ d : Nat, i + m.bias = d + 1 := ⟨(i + m.bias - 1).toNat, by omega⟩
  have word : (i + m.bias).toNat * 2 ^ m.man = d * 2 ^ m.man + 2 ^ m.man := by
    rw [show (i + m.bias).toNat = d + 1 by omega, Nat.succ_mul]
  have value : ((1 : Nat) : ℚ) * (2 : ℚ) ^ i = magOf m ((i + m.bias).toNat * 2 ^ m.man) := by
    have whole : ((2 ^ m.man : Nat) : ℚ) = (2 : ℚ) ^ (m.man : Int) := by push_cast; rw [zpow_natCast]
    rw [word, magOf_units m (.inr le_rfl) (by have := Nat.two_pow_pos m.man; omega), whole, ← zpow_add₀ (by norm_num),
      Nat.cast_one, one_mul]
    congr 1
    rw [Fmt.qmin]
    omega
  have room : (i + m.bias).toNat * 2 ^ m.man ≤ m.maxCode := (Nat.mul_le_mul_right _ (by omega)).trans most
  have normal : 2 ^ m.man ≤ (i + m.bias).toNat * 2 ^ m.man := by rw [word]; exact Nat.le_add_left ..
  have rounds : ∀ q : Rounding, q.mode ≤ 3 → m.roundFin q false 1 i = ((i + m.bias).toNat * 2 ^ m.man, 0) := fun q hq =>
    roundFin_code man false (by omega) (by omega) value room normal
  by_cases single : m = fmtF32
  · subst single
    rw [nearCode, if_pos rfl, bracket, rounds _ (Nat.le_of_ble_eq_true rfl), rounds _ (Nat.le_of_ble_eq_true rfl)]
    exact ite_self _
  · rw [nearCode, if_neg single, rounds _ (Nat.zero_le 3)]

/-- R362: FEXP2 of NaN, infinities and zeros. -/
theorem exp2_special : nearCode m 0x2e c z (exp2Of .nan) = (m.canon.1, 0) ∧
    (∀ n, nearCode m 0x2e c z (exp2Of (.inf n)) = (if n then 0 else m.inf.getD 0, 0)) ∧
    ∀ n e, nearCode m 0x2e c z (exp2Of (.fin n 0 e)) = (m.bias.toNat * 2 ^ m.man, 0) := by
  refine ⟨finish_special_nan hm { mode := 0, ftz := z } 0, fun n => ?_, fun n e => ?_⟩
  · cases n
    · exact finish_special_inf hm { mode := 0, ftz := z } rfl false 0
    · exact finish_special_zero m { mode := 0, ftz := z } false 0
  · obtain ⟨bias, -, -⟩ := laneFmts_bias m hm
    exact (nearCode_power hm c z 0x2e (i := 0) (by omega) (by omega)).trans (by rw [zero_add])

end

/-- A finite source in units of 2^−p, where 2^p is the least unit that makes it whole. -/
theorem scaled_ratOf (n : Bool) (k : Nat) (e : Int) :
    (((if n then -1 else 1) * (k * 2 ^ e.toNat : Nat) : Int) : ℚ) = ratOf (.fin n k e) * 2 ^ (-e).toNat := by
  have unit : (2 : ℚ) ^ e * 2 ^ (-e).toNat = 2 ^ e.toNat := by
    rw [← zpow_natCast, ← zpow_natCast, ← zpow_add₀ (by norm_num)]
    congr 1
    omega
  rw [ratOf, mul_assoc, unit]
  cases n <;> push_cast <;> ring

/-- The exponent of a finite source of magnitude at most 127. -/
theorem topExp_small {n : Bool} {k : Nat} {e : Int} (pos : k ≠ 0) {i : Int} (whole : ratOf (.fin n k e) = i) (low : -127 ≤ i) (high : i ≤ 127) :
    topExp k e < 9 := by
  have least := topExp_le e pos
  have size : (k : ℚ) * (2 : ℚ) ^ e = |(i : ℚ)| := by
    have : (0 : ℚ) ≤ k * (2 : ℚ) ^ e := by positivity
    rw [← whole, ratOf, mul_assoc, abs_mul, abs_of_nonneg this]
    cases n <;> simp
  have small : |(i : ℚ)| ≤ 127 := by
    rw [abs_le]
    exact ⟨by exact_mod_cast low, by exact_mod_cast high⟩
  have : (2 : ℚ) ^ topExp k e < 2 ^ (9 : Int) := (least.trans (size ▸ small)).trans_lt (by norm_num)
  exact (zpow_lt_zpow_iff_right₀ (by norm_num)).1 this

/-- R362: the model's power of two of a whole number. -/
theorem exp2Of_whole {n : Bool} {k : Nat} {e : Int} (pos : k ≠ 0) {i : Int} (whole : ratOf (.fin n k e) = i) (low : -127 ≤ i)
    (high : i ≤ 127) : exp2Of (.fin n k e) = .mag false 1 i false := by
  have small := topExp_small pos whole low high
  have scaled := scaled_ratOf n k e
  have value : (if n then -1 else 1) * ((k * 2 ^ e.toNat : Nat) : Int) = i * ((2 ^ (-e).toNat : Nat) : Int) := by
    rw [whole] at scaled
    exact_mod_cast scaled
  have unit : ((2 ^ (-e).toNat : Nat) : Int) ≠ 0 := by positivity
  simp only [exp2Of, pos, if_false, not_le.2 small, value, Int.mul_emod_left, Int.toNat_zero, if_true, Int.mul_ediv_cancel _ unit]

theorem le_expFrom (t n k term : Nat) : term ≤ expFrom t n k term := by
  cases n with
  | zero => exact le_rfl
  | succ n => exact Nat.le_add_right ..

/-- R362: the model's power of two of a number is not 0. -/
theorem exp2Of_pos {n : Bool} {k : Nat} {e : Int} {g : Bool} {a : Nat} {b : Int} {rest : Bool}
    (h : exp2Of (.fin n k e) = .mag g a b rest) : a ≠ 0 := by
  have frac : ∀ f p, exp2Frac f p ≠ 0 := fun f p => by
    have first : 2 ^ 16 ≤ expFrom (f * ln2Fixed / 2 ^ p) 80 1 (2 ^ seriesBits) :=
      (Nat.pow_le_pow_right (by decide) (by decide)).trans (le_expFrom _ 80 1 _)
    exact (Nat.div_pos first (by decide)).ne'
  rw [exp2Of] at h
  dsimp only at h
  generalize (if n = true then (-1 : Int) else 1) * _ = v at h
  split at h
  · injection h with _ one; omega
  · split at h
    · injection h with _ one; omega
    · split at h
      · injection h with _ one; omega
      · injection h with _ series
        exact series ▸ frac _ _

/-! ### FLOG2 -/

/-- R362: the bound of a logarithm is in units of 2^−304. -/
theorem log2Of_unit {n : Bool} {k : Nat} {e : Int} {g : Bool} {a : Nat} {b : Int} {rest : Bool}
    (h : log2Of (.fin n k e) = .mag g a b rest) : b = -304 := by
  rw [log2Of] at h
  dsimp only at h
  split at h
  · exact Near.noConfusion h
  · split at h
    · exact Near.noConfusion h
    · split at h
      · exact Near.noConfusion h
      · injection h with _ _ unit
        exact unit.symm

/-- R362: the model's logarithm of a power of two. -/
theorem log2Of_power {k : Nat} {e i : Int} (pos : k ≠ 0) (power : (k : ℚ) * (2 : ℚ) ^ e = (2 : ℚ) ^ i) :
    log2Of (.fin false k e) = .special (fpOfInt i) 0 := by
  have top : topExp k e = i := topExp_eq e pos power.ge (power.trans_lt (zpow_lt_zpow_right₀ (by norm_num) (by omega)))
  have exponent : e + (Nat.log2 k : Int) = i := by
    rw [topExp] at top
    exact top
  have unit : (2 : ℚ) ^ e ≠ 0 := by positivity
  have single : k = 2 ^ Nat.log2 k := by
    rw [← exponent, add_comm, zpow_add₀ (by norm_num), zpow_natCast] at power
    exact_mod_cast mul_right_cancel₀ unit power
  rw [log2Of, if_neg pos, if_neg Bool.false_ne_true]
  dsimp only
  rw [if_pos single, exponent]

section
variable {m : Fmt} (hm : m ∈ laneFmts) (c : Nat) (z : Bool)
include hm

/-- R362: FLOG2 of a power of two is its exponent, rounded. -/
theorem log2_power {k : Nat} {e i : Int} (pos : k ≠ 0) (power : (k : ℚ) * (2 : ℚ) ^ e = (2 : ℚ) ^ i) :
    RoundsTo m { mode := 0, ftz := z } (decide (i < 0)) (Exact.of |(i : ℚ)|) (nearCode m 0x2f c z (log2Of (.fin false k e))) := by
  have size : |(i : ℚ)| = i.natAbs * (2 : ℚ) ^ (0 : Int) := by rw [zpow_zero, mul_one, Nat.cast_natAbs, Int.cast_abs]
  rw [log2Of_power pos power, nearCode_special, size]
  exact finish_roundsTo _ _ 0 (fmts_man m (laneFmts_subset m hm)) (Nat.zero_le 4) (fun h => absurd h (Nat.succ_ne_zero 3).symm)

/-- R362: FLOG2 of NaN, infinities, zeros and negative numbers. -/
theorem log2_special : nearCode m 0x2f c z (log2Of .nan) = (m.canon.1, 0) ∧
    (∀ n, nearCode m 0x2f c z (log2Of (.inf n)) = if n then (m.canon.1, flNV) else (m.inf.getD 0, 0)) ∧
    (∀ n e, nearCode m 0x2f c z (log2Of (.fin n 0 e)) = (m.signed true (m.inf.getD 0), flDZ)) ∧
    ∀ k e, k ≠ 0 → nearCode m 0x2f c z (log2Of (.fin true k e)) = (m.canon.1, flNV) := by
  have nan := finish_special_nan hm { mode := 0, ftz := z }
  refine ⟨nan 0, fun n => ?_, fun n _ => finish_special_inf hm { mode := 0, ftz := z } rfl true flDZ, fun k e pos => ?_⟩
  · cases n
    · exact finish_special_inf hm { mode := 0, ftz := z } rfl false 0
    · exact nan flNV
  · simp only [log2Of, pos, if_false, if_true]
    exact nan flNV

end

end Sys2Proof.Proofs
end

section
/-! PROOFS. The floating-point rows, lane by lane (R357 to R362). -/

namespace Sys2Proof.Proofs

open Sys2Proof Sys2Proof.Machine Sys2Proof.Safety Sys2Proof.Laws

/-! ### The transcendental rows on each lane (R362) -/

/-- R47: a finite source of a lane's format has at most 24 bits. -/
theorem read_short {m : Fmt} (hm : m ∈ laneFmts) {z n : Bool} {c k : Nat} {e : Int} (fin : m.read z c = .fin n k e) (pos : k ≠ 0) :
    k < 2 ^ 24 := by
  obtain ⟨short, -⟩ := (read_fin fin).resolve_left pos
  have := laneFmts_man m hm
  exact short.trans_le (Nat.pow_le_pow_right (by decide) (by omega))

section
variable {m : Fmt} (hm : m ∈ laneFmts) (c : Nat) (z : Bool)
include hm

theorem transcendental_nan : ∀ o ∈ [nearCode m 0x2c c z (rcpOf .nan), nearCode m 0x2d c z (rsqOf .nan), nearCode m 0x2e c z (exp2Of .nan),
    nearCode m 0x2f c z (log2Of .nan)], o = (m.canon.1, 0) := by
  intro o ho
  simp only [List.mem_cons, List.not_mem_nil, or_false] at ho
  rcases ho with rfl | rfl | rfl | rfl
  · exact (rcp_special hm c z).1
  · exact (rsq_special hm c z).1
  · exact (exp2_special hm c z).1
  · exact (log2_special hm c z).1

theorem transcendental_inf (n : Bool) : nearCode m 0x2c c z (rcpOf (.inf n)) = (m.signed n 0, 0) ∧
    nearCode m 0x2d c z (rsqOf (.inf n)) = (if n then (m.canon.1, flNV) else (0, 0)) ∧
    nearCode m 0x2e c z (exp2Of (.inf n)) = (if n then 0 else m.inf.getD 0, 0) ∧
    nearCode m 0x2f c z (log2Of (.inf n)) = if n then (m.canon.1, flNV) else (m.inf.getD 0, 0) :=
  ⟨(rcp_special hm c z).2.1 n, (rsq_special hm c z).2.1 n, (exp2_special hm c z).2.1 n, (log2_special hm c z).2.1 n⟩

theorem transcendental_zero (n : Bool) (e : Int) : nearCode m 0x2c c z (rcpOf (.fin n 0 e)) = (m.signed n (m.inf.getD 0), flDZ) ∧
    nearCode m 0x2d c z (rsqOf (.fin n 0 e)) = (m.signed n (m.inf.getD 0), 0) ∧
    nearCode m 0x2e c z (exp2Of (.fin n 0 e)) = (m.bias.toNat * 2 ^ m.man, 0) ∧
    nearCode m 0x2f c z (log2Of (.fin n 0 e)) = (m.signed true (m.inf.getD 0), flDZ) :=
  ⟨(rcp_special hm c z).2.2 n e, (rsq_special hm c z).2.2.1 n e, (exp2_special hm c z).2.2 n e, (log2_special hm c z).2.2.1 n e⟩

theorem exp2_whole {n : Bool} {k : Nat} {e : Int} (pos : k ≠ 0) {i : Int} (whole : ratOf (.fin n k e) = i) (low : 1 - m.bias ≤ i)
    (high : i ≤ m.bias) : nearCode m 0x2e c z (exp2Of (.fin n k e)) = ((i + m.bias).toNat * 2 ^ m.man, 0) := by
  obtain ⟨-, most, -⟩ := laneFmts_bias m hm
  rw [exp2Of_whole pos whole (by omega) (by omega)]
  exact nearCode_power hm c z 0x2e low high

theorem exp2_near {n : Bool} {k : Nat} {e : Int} {g : Bool} {a : Nat} {b : Int} {rest : Bool}
    (made : exp2Of (.fin n k e) = .mag g a b rest) : Close m z g (Exact.near a b rest) (nearCode m 0x2e c z (exp2Of (.fin n k e))) := by
  rw [made]
  exact near_close hm c z 0x2e g fun zero => absurd zero (exp2Of_pos made)

theorem log2_near {n : Bool} {k : Nat} {e : Int} {g : Bool} {a : Nat} {b : Int} {rest : Bool}
    (made : log2Of (.fin n k e) = .mag g a b rest) : Close m z g (Exact.near a b rest) (nearCode m 0x2f c z (log2Of (.fin n k e))) := by
  obtain ⟨-, most, -⟩ := laneFmts_bias m hm
  rw [made]
  exact near_close hm c z 0x2f g fun _ _ => by rw [log2Of_unit made]; omega

end

/-! ### The elements of FCVT (R360) -/

/-- The codes of the floating formats of FCVT. -/
def cvtCodes : List Nat := [0, 1, 2, 3, 0xb]

theorem fmtOfCode_mem : ∀ f ∈ cvtCodes, fmtOfCode f ∈ cvtFmts := by decide

theorem cvtCodes_float : ∀ f ∈ cvtCodes, f ≠ 9 := by decide

theorem nsCodes_inf : ∀ g ∈ [0, 1, 3], (fmtOfCode g).inf.isSome = true := by decide

section
variable (ns : Bool) (q : Rounding) (a : Nat)

theorem cvtElem_float {f g : Nat} (hf : f ∈ cvtCodes) (hg : g ∈ cvtCodes) :
    cvtElem f g ns q a = (fmtOfCode g).convert (fmtOfCode f) q ns a := by
  simp [cvtElem, cvtCodes_float f hf, cvtCodes_float g hg]

theorem cvtElem_toInt {f : Nat} (hf : f ∈ cvtCodes) : cvtElem f 9 ns q a =
    (wrapN 8 (((fmtOfCode f).read q.ftz a).clampInt q (intLow false 8) (intTop false 8)).1,
      (((fmtOfCode f).read q.ftz a).clampInt q (intLow false 8) (intTop false 8)).2) := by
  simp only [cvtElem, cvtCodes_float f hf, false_and, if_false, if_true]
  rfl

theorem cvtElem_ofInt {g : Nat} (hg : g ∈ cvtCodes) :
    cvtElem 9 g ns q a = (fmtOfCode g).ofInt q ns (BitVec.ofNat 8 a).toInt := by
  have number : sval 8 a = (BitVec.ofNat 8 a).toInt := by rw [← sval_mod, ← BitVec.toNat_ofNat, sval_toNat]
  simp only [cvtElem, cvtCodes_float g hg, and_false, if_false, if_true, number]

variable {q} (code : q.mode ≤ 4) (small : q.draw < 2 ^ 32)
include code small

/-- R59, R60, R360: an element of FCVT. -/
theorem cvtElem_converts :
    (∀ f ∈ cvtCodes, ∀ g ∈ cvtCodes, (ns = true → g ∈ [0, 1, 3]) →
      Converts (fmtOfCode f) (fmtOfCode g) ns q a (cvtElem f g ns q a)) ∧
    (∀ f ∈ cvtCodes, RoundsToInt false 8 q ((fmtOfCode f).read q.ftz a)
      (BitVec.ofNat 8 (cvtElem f 9 ns q a).1, (cvtElem f 9 ns q a).2)) ∧
    (∀ g ∈ cvtCodes, (ns = true → g ∈ [0, 1, 3]) →
      ConvertsInt (fmtOfCode g) ns q (BitVec.ofNat 8 a).toInt (cvtElem 9 g ns q a)) ∧
    cvtElem 9 9 ns q a = (a, 0) := by
  refine ⟨fun f hf g hg nsOk => ?_, fun f hf => ?_, fun g hg _ => ?_, rfl⟩
  · rw [cvtElem_float ns q a hf hg]
    exact convert_converts (fmtOfCode_mem f hf) (fmtOfCode_mem g hg) a (fun h => nsCodes_inf g (nsOk h)) code fun _ => small
  · rw [cvtElem_toInt ns q a hf]
    dsimp only
    rw [ofNat_wrapN]
    exact clampInt_roundsToInt false (by decide) _ code fun _ => small
  · rw [cvtElem_ofInt ns q a hg]
    exact ofInt_convertsInt (cvtFmts_subset _ (fmtOfCode_mem g hg)) ns _ code fun _ => small

end

/-! ### FCVT (R360) -/

section
variable (r : Row)

theorem cvtWidth_eq (f : Nat) : cvtWidth f = if f ≤ 1 then 16 else if f = 0xb then 32 else 8 := by
  simp only [cvtWidth, beq_iff_eq]

/-- R360: the place of the elements, by bit 5 of the literal. -/
theorem cvtFirst_eq (w : Nat) : cvtFirst r w = if r.srcB.toNat.testBit 5 then 64 / w - cvtCount r else 0 := by
  unfold cvtFirst
  rw [Nat.testBit_eq_decide_div_mod_eq]
  simp

end

/-- R360: a lane that an FCVT writes, and a lane that it leaves 0. -/
theorem shifted_lane {p n : Nat} (l : Nat → Nat × Flags) {w : Nat} {v : Word}
    (lanes_ : ∀ j, (laneOf w j v).toNat = if j < p + n then (shifted p l j).1 % 2 ^ w else 0) :
    (∀ k < n, (laneOf w (p + k) v).toNat = (l k).1 % 2 ^ w) ∧ ∀ k, k < p ∨ p + n ≤ k → laneOf w k v = 0 := by
  refine ⟨fun k inside => ?_, fun k outside => BitVec.eq_of_toNat_eq ?_⟩
  · rw [lanes_, if_pos (by omega), shifted, if_neg (by omega), Nat.add_sub_cancel_left]
  · rw [lanes_, shifted]
    rcases outside with below | above
    · rw [if_pos (by omega), if_pos below]
      exact Nat.zero_mod _
    · rw [if_neg (by omega)]
      rfl

/-- R360: FCVT puts the converted elements into the lanes of its format, and 0 elsewhere. -/
theorem fcvt_lanes {r : Row} {s : State} (fires : Fires s (.rowFcvt r) 0x29 r) : ∃ t v, exec (.rowFcvt r) s = .next t ∧
    RowResult s t r .fvs 2 (.reg (resultVal v [(rowCtx s r).a] (raisedBy (cvtLane s r) (cvtCount r))))
      (if r.srcB.toNat % 16 = r.mod.toNat then peOf s else peDrawn s r (cvtCount r))
      (raisedBy (cvtLane s r) (cvtCount r) &&& ~~~(rowCtx s r).a.flags) ∧
    (∀ k < cvtCount r, (laneOf (cvtTo r) (cvtFirst r (cvtTo r) + k) v).toNat = (cvtLane s r k).1 % 2 ^ cvtTo r) ∧
    ∀ k, k < cvtFirst r (cvtTo r) ∨ cvtFirst r (cvtTo r) + cvtCount r ≤ k → laneOf (cvtTo r) k v = 0 := by
  obtain ⟨t, v, run, lanes_, result⟩ := fcvt_puts fires
  have carried : carriedBy [(rowCtx s r).a] = (rowCtx s r).a.flags := BitVec.zero_or
  rw [raisedBy_shifted, carried] at result
  exact ⟨t, v, run, result, shifted_lane (cvtLane s r) lanes_⟩

/-- Settles O44: every floating row puts its lanes by `PutsLanes`, the transcendental values are next to their exact ones, and FCVT
converts element by element. -/
theorem floatRows : Obligations.FloatRows := by
  refine ⟨fun r s => ?_, fun m hm z c => ?_, fun ns q a code small => cvtElem_converts ns a code small, fun r s fires => ?_⟩
  · intro cx m n z code rd puts
    have of_puts : ∀ {i : Instr} {u : FUnit} {lat : Nat} {e : PE} {srcs : List FVal} {l : Nat → Nat × Flags} {k : Nat},
        PutsRow s i r u lat e srcs l k → puts i u lat e srcs l k := by
      rintro i u lat e srcs l k ⟨t, v, run, lanes_, result⟩
      exact ⟨t, v, run, fun j _ => lanes_ j, result⟩
    exact ⟨fun p hp fires => of_puts (fpRows_puts r s p hp fires), fun p hp fires => of_puts (picks_puts r s p hp fires),
      fun fires => of_puts (fabs_puts fires), fun fires => of_puts (fcmp_puts fires), fun fires => of_puts (fsum_puts fires),
      fun fires => of_puts (fmaxh_puts fires), fun p hp fires => of_puts (transcendental_puts r s p hp fires)⟩
  · intro x rcp rsq exp2 log2 inf close
    refine ⟨fun nan => ?_, fun n infinite => ?_, fun n k e fin => ⟨fun zero => ?_, fun pos => ?_⟩⟩
    · simp only [rcp, rsq, exp2, log2, (isNan_iff x).1 nan]
      exact transcendental_nan hm c z
    · simp only [rcp, rsq, exp2, log2, infinite]
      exact transcendental_inf hm c z n
    · simp only [rcp, rsq, exp2, log2, fin, zero]
      exact transcendental_zero hm c z n e
    · simp only [rcp, rsq, exp2, log2, fin]
      have short := read_short hm fin pos
      refine ⟨rcp_close hm c z n e pos short, ?_, ?_, fun i whole low high => exp2_whole hm c z pos whole low high, ?_,
        fun g a b rest made => exp2_near hm c z made, fun g a b rest made => log2_near hm c z made⟩
      · rintro rfl
        exact rsq_close hm c z e pos short
      · rintro rfl
        exact ⟨(rsq_special hm c z).2.2.2 k e pos, (log2_special hm c z).2.2.2 k e pos⟩
      · rintro i rfl power
        exact log2_power hm c z pos power
  · obtain ⟨t, v, run, result, inside, outside⟩ := fcvt_lanes fires
    intro cx l src dst bits n from_ to_ el fl
    have from_eq : cvtFrom r = bits src := cvtWidth_eq _
    have to_eq : cvtTo r = bits dst := cvtWidth_eq _
    have count : cvtCount r = n := by rw [cvtCount, from_eq, to_eq]
    have first : cvtFirst r (cvtTo r) = to_ := by rw [cvtFirst_eq, to_eq, count]
    have lane : cvtLane s r = el := by
      funext k
      have ns : (r.srcB.toNat / 16 % 2 == 1) = l.testBit 4 := by rw [Nat.testBit_eq_decide_div_mod_eq]; rfl
      rw [cvtLane, ns, cvtFirst_eq, from_eq, count]
    rw [lane, count] at result
    rw [first, count, lane, to_eq] at inside
    rw [first, count, to_eq] at outside
    exact ⟨t, v, run, result, inside, fun k _ => outside k⟩

end Sys2Proof.Proofs
end

section
/-! PROOFS. DOT and DOTS: the elements of a word and the outputs of a firing (R48 to R50, R61 to R64, R378, R379). -/

namespace Sys2Proof.Proofs

open Sys2Proof Sys2Proof.Machine Sys2Proof.Safety Sys2Proof.Laws

/-! ### The elements of a word (R48 to R50, R378) -/

/-- R49: the bits of an element of a format. -/
def elemWidth (fmt : Nat) : Nat := if fmt ≤ 1 then 16 else if fmt = 8 ∨ fmt = 0xa then 4 else 8

/-- R49: a six-bit format reads the low bits of its byte. -/
theorem value_low_six {f : Fmt} (six : f.width = 6) (c : Nat) : f.value (c % 64) = f.value c := by
  have mag : c % 64 % 2 ^ (f.width - 1) = c % 2 ^ (f.width - 1) := by rw [six]; omega
  have sign : c % 64 / 2 ^ (f.width - 1) % 2 = c / 2 ^ (f.width - 1) % 2 := by rw [six]; omega
  rw [Fmt.value, Fmt.value, mag, sign]

/-- R49: the code of an element as its word holds it, by its value. -/
theorem elemCodes_eq_map (fmt : Nat) (w : Word) : elemCodes fmt w = (List.range (64 / elemWidth fmt)).map fun k =>
    if fmt = 6 ∨ fmt = 7 then (laneOf (elemWidth fmt) k w).toNat % 64 else (laneOf (elemWidth fmt) k w).toNat := by
  unfold elemCodes elemWidth
  by_cases wide : fmt ≤ 1
  · simp only [wide, show ¬(fmt = 6 ∨ fmt = 7) by omega, if_true, if_false, wordLanes_eq_map, laneOf_toNat]
  · by_cases four : fmt = 8 ∨ fmt = 0xa
    · simp only [wide, four, show ¬(fmt = 6 ∨ fmt = 7) by omega, if_true, if_false, wordLanes_eq_map, laneOf_toNat]
    · by_cases six : fmt = 6 ∨ fmt = 7
      · simp only [wide, four, six, if_true, if_false, wordLanes_eq_map, List.map_map, laneOf_toNat]
        rfl
      · simp only [wide, four, six, if_false, wordLanes_eq_map, laneOf_toNat]

/-- R378: the model's value of an element, by its code. -/
theorem elemValue_eq (fmt scale : Nat) (t : Fp) (w : Word) (k : Nat) :
    elemValue fmt scale t k (if fmt = 6 ∨ fmt = 7 then (laneOf (elemWidth fmt) k w).toNat % 64 else (laneOf (elemWidth fmt) k w).toNat) =
      elemOf fmt scale t w k := by
  have code : (fmtOfCode fmt).value (if fmt = 6 ∨ fmt = 7 then (laneOf (elemWidth fmt) k w).toNat % 64 else (laneOf (elemWidth fmt) k w).toNat) =
      (fmtOfCode fmt).value (laneOf (elemWidth fmt) k w).toNat := by
    split
    · rename_i six
      refine value_low_six ?_ _
      rcases six with rfl | rfl <;> rfl
    · rfl
  rw [elemValue, mxValue, code]
  by_cases b4 : fmt = 0xa
  · subst b4
    rfl
  · rw [if_neg b4, elemOf, if_neg b4]
    rfl

theorem elemValues_eq_map (fmt scale : Nat) (t : Fp) (w : Word) {h n : Nat} (fits : h * n + n ≤ 64 / elemWidth fmt) :
    elemValues fmt scale t w h n = (List.range n).map fun k => elemOf fmt scale t w (h * n + k) := by
  unfold elemValues
  rw [elemCodes_eq_map]
  apply List.ext_getElem
  · simp
    omega
  · intro k inside inside'
    simp only [List.getElem_mapIdx, List.getElem_take, List.getElem_drop, List.getElem_map, List.getElem_range]
    exact elemValue_eq fmt scale t w (h * n + k)

/-- R50: only the low sixteen bits of an offset word are read. -/
theorem elemOf_offsets (scale : Nat) (t : Fp) (w : Word) {k : Nat} (h : k < 16) : elemOf 0xa (scale % 2 ^ 16) t w k = elemOf 0xa scale t w k := by
  have offset : scale % 2 ^ 16 / 16 ^ (k / 4) % 16 = scale / 16 ^ (k / 4) % 16 := by
    have : k / 4 = 0 ∨ k / 4 = 1 ∨ k / 4 = 2 ∨ k / 4 = 3 := by omega
    rcases this with h | h | h | h <;> rw [h] <;> omega
  simp only [elemOf, if_true, offset]

/-- R61: how many elements of a weight and an activation format a firing multiplies, and the first of the weights. -/
def dotCount (f g : Nat) : Nat := if f ≤ 1 then 4 else if f = 8 ∧ g = 8 ∨ f = 0xa then 16 else 8
def dotFirst (f g x : Nat) : Nat := if f = 8 ∧ g ≠ 8 then 8 * (x % 2) else 0

/-- R61: a pairing as the statements say it, and what it takes of each word. -/
theorem pairing_table : ∀ f < 16, ∀ g < 16, (pairing f g).all (fun p => p.1 == dotCount f g && p.2 == decide (f = 9) &&
    decide (p.1 ≤ 64 / elemWidth g) && decide (p.1 ≤ 16) && decide (∀ x < 2, (if p.1 = 8 ∧ f = 8 then x else 0) * p.1 = dotFirst f g x ∧
      dotFirst f g x + p.1 ≤ 64 / elemWidth f)) = true := by decide

/-! ### One output (R62, R64) -/

theorem foldl_flags {α : Type} (l : List (α × Flags)) : ∀ f : Flags, l.foldl (fun f p => f ||| p.2) f = f ||| flagsOf l := by
  induction l with
  | nil => exact fun f => BitVec.or_zero.symm
  | cons p t ih =>
    intro f
    have zero : (0 : Flags) ||| p.2 = p.2 := BitVec.zero_or
    rw [flagsOf, List.foldl_cons, List.foldl_cons, ih, ih (0 ||| p.2), zero, BitVec.or_assoc]

theorem dotOutput_eq (acc : Nat) (a w : List (Fp × Flags)) : dotOutput acc a w = dotOf acc a w := by
  rw [dotOutput, dotOf, List.foldl_append, List.foldl_append, foldl_flags, foldl_flags, foldl_flags]

theorem intOutput_eq (acc : BitVec 32) (add : Int) : intOutput acc.toNat add = intOf acc add := by
  rw [intOutput, intOf, sval_toNat]
  refine Prod.ext ?_ ?_
  · rw [← ofNat_wrapN, BitVec.toNat_ofNat, Nat.mod_eq_of_lt]
    unfold wrapN
    omega
  · dsimp only
    unfold flagIf
    by_cases inside : -2 ^ 31 ≤ acc.toInt + add ∧ acc.toInt + add < 2 ^ 31
    · rw [if_pos inside, if_neg]
      simp only [Bool.or_eq_true, decide_eq_true_eq]
      omega
    · rw [if_neg inside, if_pos]
      simp only [Bool.or_eq_true, decide_eq_true_eq]
      omega

/-- R64: the products of two words of bytes. -/
theorem byteProducts_eq (a e : Word) {n : Nat} (eight : n = 8) :
    (List.zipWith (fun x y => sval 8 x * sval 8 y) ((wordLanes 8 a).take n) (wordLanes 8 e)).sum =
    ((List.range 8).map fun k => (laneOf 8 k a).toInt * (laneOf 8 k e).toInt).sum := by
  have all : (List.range (64 / 8)).take n = List.range 8 := by rw [eight]; rfl
  rw [wordLanes_eq_map, wordLanes_eq_map, ← List.map_take, all, List.zipWith_map, List.zipWith_self]
  simp only [sval_toNat]

theorem pairing_spec {f g n : Nat} {int : Bool} (hf : f < 16) (hg : g < 16) (pair : pairing f g = some (n, int)) (x : Nat) :
    n = dotCount f g ∧ int = decide (f = 9) ∧ n ≤ 64 / elemWidth g ∧ n ≤ 16 ∧
      (if n = 8 ∧ f = 8 then x % 2 else 0) * n = dotFirst f g x ∧ dotFirst f g x + n ≤ 64 / elemWidth f := by
  have table := pairing_table f hf g hg
  rw [pair, Option.all_some] at table
  simp only [Bool.and_eq_true, beq_iff_eq, decide_eq_true_eq] at table
  obtain ⟨⟨⟨⟨count, int_⟩, many⟩, few⟩, first⟩ := table
  have low := first (x % 2) (Nat.mod_lt x (by decide))
  rw [show dotFirst f g (x % 2) = dotFirst f g x by rw [dotFirst, Nat.mod_mod, dotFirst]] at low
  exact ⟨count, int_, many, few, low⟩

/-! ### A firing (R378, R379) -/

/-- R97: the weight bank of a firing. -/
def activeBank (s : State) : WBank := (peOf s).bank[(peOf s).act.toNat]'(by cases (peOf s).act <;> decide)

section
variable (s : State) (r : Row) (scaled : Bool)

theorem wbank_eq : (rowCtx s r).wbank = activeBank s := by
  have place : (Fin.ofNat 2 (peOf s).act.toNat).val = (peOf s).act.toNat := by cases (peOf s).act <;> rfl
  show (peOf s).bank[(Fin.ofNat 2 (peOf s).act.toNat).val] = (peOf s).bank[(peOf s).act.toNat]'_
  simp only [place]

/-- R379: the word that scales A in a DOTS. -/
def scaleWord : Nat := if scaled then (rowCtx s r).b.data.toNat else 0

/-- R378: the elements of A in a firing, and those of output `j` of the bank. -/
def dotInputs : List (Fp × Flags) :=
  (List.range (dotCount (activeBank s).fmt.toNat r.mod.toNat)).map fun k =>
    elemOf r.mod.toNat (scaleWord s r scaled) (fmtF32.value (scaleWord s r scaled / 2 ^ 32)) (rowCtx s r).a.data k
def dotWeights (j : Fin 8) : List (Fp × Flags) :=
  (List.range (dotCount (activeBank s).fmt.toNat r.mod.toNat)).map fun k =>
    elemOf (activeBank s).fmt.toNat ((activeBank s).rsc[j.val]).toNat (fmtF32.value (activeBank s).t.toNat) (activeBank s).elem[j.val]
      (dotFirst (activeBank s).fmt.toNat r.mod.toNat r.aux.toNat + k)

/-- R62, R64: output `j` of a firing. -/
def dotOut (j : Fin 8) : Nat × Flags :=
  if (activeBank s).fmt.toNat = 9 then intOf (outOf (rowCtx s r).accSeen j.val)
    ((List.range 8).map fun k => (laneOf 8 k (rowCtx s r).a.data).toInt * (laneOf 8 k (activeBank s).elem[j.val]).toInt).sum
  else dotOf (outOf (rowCtx s r).accSeen j.val).toNat (dotInputs s r scaled) (dotWeights s r j)

variable {n : Nat} {int : Bool} (pair : pairing (activeBank s).fmt.toNat r.mod.toNat = some (n, int))
include pair

theorem dotInputs_eq : elemValues r.mod.toNat (if r.mod.toNat = 0xa then scaleWord s r scaled % 2 ^ 16 else scaleWord s r scaled)
    (fmtF32.value (scaleWord s r scaled / 2 ^ 32)) (rowCtx s r).a.data 0 n = dotInputs s r scaled := by
  obtain ⟨count, -, many, few, -⟩ := pairing_spec (activeBank s).fmt.isLt r.mod.isLt pair 0
  rw [elemValues_eq_map _ _ _ _ (by simpa using many), dotInputs, ← count, Nat.zero_mul]
  refine List.map_congr_left fun k hk => ?_
  have inside := List.mem_range.1 hk
  rw [Nat.zero_add]
  split
  · rename_i b4
    rw [b4]
    exact elemOf_offsets _ _ _ (by omega)
  · rfl

theorem dotWeights_eq (j : Fin 8) : elemValues (activeBank s).fmt.toNat ((activeBank s).rsc[j.val]).toNat (fmtF32.value (activeBank s).t.toNat)
    (activeBank s).elem[j.val] (if n = 8 ∧ (activeBank s).fmt.toNat = 8 then r.aux.toNat % 2 else 0) n = dotWeights s r j := by
  obtain ⟨count, -, -, -, first, many⟩ := pairing_spec (activeBank s).fmt.isLt r.mod.isLt pair r.aux.toNat
  rw [elemValues_eq_map _ _ _ _ (by rw [first]; exact many), first, dotWeights, count]

theorem dotOuts_eq_map : (rowCtx s r).dotOuts scaled = (List.finRange 8).map (dotOut s r scaled) := by
  obtain ⟨count, kind, -⟩ := pairing_spec (activeBank s).fmt.isLt r.mod.isLt pair 0
  have pair : pairing (activeBank s).fmt.toNat (rowCtx s r).r.mod.toNat = some (n, int) := pair
  simp only [RowCtx.dotOuts, wbank_eq, pair, Option.getD_some]
  apply List.ext_getElem
  · rw [outs_eq_map]; simp
  · intro j h h'
    have inside : j < 8 := by simpa using h'
    have inputs := dotInputs_eq s r scaled pair
    have weights := dotWeights_eq s r pair ⟨j, inside⟩
    simp only [List.getElem_map, List.getElem_zip, outs_eq_map, List.getElem_range, Vector.getElem_toList, List.getElem_finRange]
    rw [dotOut]
    by_cases whole : (activeBank s).fmt.toNat = 9
    · have eight : n = 8 := by rw [count, whole]; rfl
      rw [if_pos (kind.trans (decide_eq_true whole)), if_pos whole, byteProducts_eq _ _ eight, intOutput_eq]
      rfl
    · rw [if_neg (by simpa [kind] using whole), if_neg whole, dotOutput_eq]
      exact congrArg₂ (dotOf _) inputs weights

end

/-- R61, R387: a DOT or DOTS that fires has formats that pair, for an accumulator of their type. -/
theorem fires_pairing {s : State} {i : Instr} {code : Nat} {r : Row} (fires : Fires s i code r) (dot : code = 0x4a ∨ code = 0x4b)
    (opened : (rowCtx s r).guard = true) : ∃ n, pairing (activeBank s).fmt.toNat r.mod.toNat = some (n, (rowCtx s r).accSeen.int) := by
  have ok := fires.types
  rw [RowCtx.typeOk, if_pos dot, opened, wbank_eq] at ok
  have ok : (match pairing (activeBank s).fmt.toNat r.mod.toNat with
    | some (_, int) => int == (rowCtx s r).accSeen.int
    | none => false) = true := ok
  cases pair : pairing (activeBank s).fmt.toNat r.mod.toNat with
  | none => rw [pair] at ok; exact absurd ok Bool.false_ne_true
  | some p =>
    rw [pair] at ok
    exact ⟨p.1, congrArg some (Prod.ext rfl (beq_iff_eq.1 ok))⟩

/-- R379: the flags of the sources of a firing. -/
def dotCarried (s : State) (r : Row) (scaled : Bool) : Flags :=
  (rowCtx s r).a.flags ||| (if scaled then (rowCtx s r).b.flags else 0)

/-- R62, R64: the flags that the sums of a firing raise. -/
def dotRaised (s : State) (r : Row) (scaled : Bool) : Flags := (List.finRange 8).foldl (fun f j => f ||| (dotOut s r scaled j).2) 0

/-- R379: a firing puts its row of outputs into a landing slot. -/
def PutsDot (s : State) (i : Instr) (r : Row) (scaled : Bool) : Prop :=
  ∃ t a, exec i s = .next t ∧ RowResult s t r .dot 5 (.acc a) (peOf s) (dotRaised s r scaled &&& ~~~dotCarried s r scaled) ∧
    a.int = (rowCtx s r).accSeen.int ∧ a.flags = (rowCtx s r).accSeen.flags ||| dotRaised s r scaled ||| dotCarried s r scaled ∧
    ∀ j : Fin 8, outOf a j.val = BitVec.ofNat 32 (dotOut s r scaled j).1

theorem dotRow_puts {s : State} {r : Row} {i : Instr} {code : Nat} {scaled : Bool} (arm : Out) (named : exec i s = arm)
    (run : arm = dotRow i code r scaled s) (dot : code = 0x4a ∨ code = 0x4b) (opened : (rowCtx s r).guard = true)
    (fires : Fires s i code r) : PutsDot s i r scaled := by
  obtain ⟨n, pair⟩ := fires_pairing fires dot opened
  have outs := dotOuts_eq_map s r scaled pair
  have raised : flagsOf ((rowCtx s r).dotOuts scaled) = dotRaised s r scaled := by rw [outs, flagsOf, List.foldl_map]; rfl
  have carried : (if scaled then (rowCtx s r).a.flags ||| (rowCtx s r).b.flags else (rowCtx s r).a.flags) = dotCarried s r scaled := by
    unfold dotCarried
    cases scaled
    · exact BitVec.or_zero.symm
    · rfl
  have runs := guarded_runs arm (eff := fun cx u =>
    (u.noteWords cx code).putAcc cx i (accOf (cx.dotOuts scaled) cx.accSeen.int (cx.accSeen.flags ||| flagsOf (cx.dotOuts scaled) |||
        (if scaled then cx.a.flags ||| cx.b.flags else cx.a.flags)))
      (newFlags (flagsOf (cx.dotOuts scaled)) (if scaled then cx.a.flags ||| cx.b.flags else cx.a.flags))) named run opened fires
  rw [raised, carried] at runs
  refine ⟨_, accOf ((rowCtx s r).dotOuts scaled) (rowCtx s r).accSeen.int
    ((rowCtx s r).accSeen.flags ||| dotRaised s r scaled ||| dotCarried s r scaled), runs,
    rowResult_addSlot (noted_change s r code) i r .dot 5 _ _, accOf_int .., accOf_flags .., fun j => ?_⟩
  have eight : ((rowCtx s r).dotOuts scaled).length = 8 := by rw [outs]; simp
  rw [outOf_accOf eight (by rw [eight]; exact j.isLt)]
  simp [outs]

theorem dots_put (r : Row) (s : State) (opened : (rowCtx s r).guard = true) :
    ∀ p ∈ [(Instr.rowDot r, 0x4a, false), (.rowDots r, 0x4b, true)], Fires s p.1 p.2.1 r → PutsDot s p.1 r p.2.2 := by
  intro p hp
  rcases List.mem_pair.1 hp with rfl | rfl
  · exact dotRow_puts (execRowDot r s) rfl rfl (.inl rfl) opened
  · exact dotRow_puts (execRowDots r s) rfl rfl (.inr rfl) opened

end Sys2Proof.Proofs
end

section
/-! PROOFS. QNT: the values of a block, their largest magnitude, and a block under one scale (R65, R385). -/

namespace Sys2Proof.Proofs

open Sys2Proof Sys2Proof.Machine Sys2Proof.Safety Sys2Proof.Laws

/-! ### The largest magnitude of a list (R65) -/

/-- `t` is the exponent of the largest magnitude of the finite values of a list. -/
structure IsTop (vs : List Fp) (t : Int) : Prop where
  reached : ∃ n m e, Fp.fin n m e ∈ vs ∧ m ≠ 0 ∧ topExp m e = t
  most : ∀ n m e, Fp.fin n m e ∈ vs → m ≠ 0 → topExp m e ≤ t

/-- What one more value leaves of a list without non-zero finite ones, and of one with. -/
theorem isTop_single {vs : List Fp} {n : Bool} {m : Nat} {e : Int} (pos : m ≠ 0) (zeros : ∀ n m e, Fp.fin n m e ∈ vs → m = 0) :
    IsTop (.fin n m e :: vs) (topExp m e) := by
  refine ⟨⟨n, m, e, by simp, pos, rfl⟩, fun n' m' e' mem pos' => ?_⟩
  rcases List.mem_cons.1 mem with same | old
  · injection same with _ hm he
    rw [hm, he]
  · exact absurd (zeros n' m' e' old) pos'

theorem isTop_cons {vs : List Fp} {t : Int} (top : IsTop vs t) {n : Bool} {m : Nat} {e : Int} (pos : m ≠ 0) :
    IsTop (.fin n m e :: vs) (max t (topExp m e)) := by
  obtain ⟨⟨n', m', e', mem, pos', same⟩, most⟩ := top
  constructor
  · rcases le_total (topExp m e) t with less | more
    · exact ⟨n', m', e', List.mem_cons_of_mem _ mem, pos', by rw [same, max_eq_left less]⟩
    · exact ⟨n, m, e, List.mem_cons_self, pos, by rw [max_eq_right more]⟩
  · intro n₁ m₁ e₁ mem₁ pos₁
    rcases List.mem_cons.1 mem₁ with same₁ | old
    · injection same₁ with _ hm he
      rw [hm, he]
      exact le_max_right ..
    · exact (most n₁ m₁ e₁ old pos₁).trans (le_max_left ..)

theorem IsTop.skip {vs : List Fp} {t : Int} (top : IsTop vs t) {x : Fp} (skipped : ∀ n m e, x = .fin n m e → m = 0) : IsTop (x :: vs) t := by
  obtain ⟨⟨n', m', e', mem, pos', same⟩, most⟩ := top
  refine ⟨⟨n', m', e', List.mem_cons_of_mem _ mem, pos', same⟩, fun n m e mem₁ pos => ?_⟩
  rcases List.mem_cons.1 mem₁ with same₁ | old
  · exact absurd (skipped n m e same₁.symm) pos
  · exact most n m e old pos

/-- R65: the model's largest magnitude. -/
theorem topOf_spec (vs : List Fp) : (topOf vs = none → ∀ n m e, Fp.fin n m e ∈ vs → m = 0) ∧ ∀ t, topOf vs = some t → IsTop vs t := by
  induction vs with
  | nil => exact ⟨fun _ n m e mem => absurd mem List.not_mem_nil, fun t h => absurd h (Option.some_ne_none t).symm⟩
  | cons x vs ih =>
    obtain ⟨zeros, tops⟩ := ih
    have skip : (∀ n m e, x = .fin n m e → m = 0) → topOf (x :: vs) = topOf vs →
        (topOf (x :: vs) = none → ∀ n m e, Fp.fin n m e ∈ x :: vs → m = 0) ∧ ∀ t, topOf (x :: vs) = some t → IsTop (x :: vs) t := by
      intro skipped same
      rw [same]
      refine ⟨fun none_ n m e mem => ?_, fun t some_ => (tops t some_).skip skipped⟩
      exact (List.mem_cons.1 mem).elim (fun h => skipped n m e h.symm) (zeros none_ n m e)
    cases x with
    | nan => exact skip (fun n m e h => Fp.noConfusion h) rfl
    | inf => exact skip (fun n m e h => Fp.noConfusion h) rfl
    | fin n m e =>
      by_cases zero : m = 0
      · exact skip (fun n' m' e' h => by injection h with _ hm; rw [← hm, zero]) (if_pos zero)
      · have made : topOf (.fin n m e :: vs) = some (match topOf vs with | some k => max k (topExp m e) | none => topExp m e) :=
          if_neg zero
        rw [made]
        refine ⟨fun h => absurd h (Option.some_ne_none _), fun t h => ?_⟩
        cases old : topOf vs with
        | none =>
          rw [old] at h
          exact Option.some.inj h ▸ isTop_single zero (zeros old)
        | some k =>
          rw [old] at h
          exact Option.some.inj h ▸ isTop_cons (tops k old) zero

theorem topOf_zeros {vs : List Fp} (zeros : ∀ x ∈ vs, x.isZero = true) : topOf vs = none := by
  cases made : topOf vs with
  | none => rfl
  | some k =>
    obtain ⟨⟨n, m, e, mem, pos, -⟩, -⟩ := (topOf_spec vs).2 k made
    exact absurd (beq_iff_eq.1 (zeros _ mem)) pos

/-! ### A block under one scale (R65) -/

section
variable {f : Fmt} {emax : Int} {vs : List Fp} {first : Nat} {q : Nat → Rounding}

theorem special_iff (x : Fp) : (x.isNan || x.isInf) = true ↔ finite x = false := by
  cases x <;> simp [finite, Fp.isNan, Fp.isInf]

/-- R65: a block with a NaN or an infinity. -/
theorem qntMx_special {x : Fp} (mem : x ∈ vs) (special : finite x = false) :
    qntMx f emax vs first q = (0xff, List.replicate 8 0, flagIf (vs.any Fp.isInf) flNV) :=
  if_pos (List.any_eq_true.2 ⟨x, mem, (special_iff x).2 special⟩)

theorem qntMx_finite (fin : ∀ x ∈ vs, finite x = true) : qntMx f emax vs first q =
    match topOf vs with
    | none => (0, List.replicate 8 0, 0)
    | some t =>
      let x := max (t - emax) (-127)
      ((x + 127).toNat, ((vs.drop first).take 8).mapIdx (fun k v => qntElem f (q k) v x false), 0) := by
  refine if_neg fun h => ?_
  obtain ⟨x, mem, special⟩ := List.any_eq_true.1 h
  exact absurd ((special_iff x).1 special) (by rw [fin x mem]; decide)

/-- R65: only an infinity raises a flag. -/
theorem qntMx_flags : (qntMx f emax vs first q).2.2 = flagIf (vs.any Fp.isInf) flNV := by
  by_cases fin : ∀ x ∈ vs, finite x = true
  · have none_ : vs.any Fp.isInf = false := List.any_eq_false.2 fun x mem => by
      have := fin x mem
      simp_all [finite]
    rw [qntMx_finite fin, none_]
    cases topOf vs <;> rfl
  · push Not at fin
    obtain ⟨x, mem, special⟩ := fin
    rw [qntMx_special mem (by simpa using special)]

/-- R65: the scale of a block by its largest magnitude. -/
theorem qntMx_scale {x : Int} (low : -127 ≤ x) (up : ∀ v ∈ vs, topUpTo (x + emax) v = true)
    (top : ∃ v ∈ vs, v.isZero = false ∧ (x = -127 ∨ topAt (x + emax) v = true)) : qntMx f emax vs first q =
      ((x + 127).toNat, ((vs.drop first).take 8).mapIdx (fun k v => qntElem f (q k) v x false), 0) := by
  have fin : ∀ v ∈ vs, ∃ n m e, v = .fin n m e ∧ (m ≠ 0 → topExp m e ≤ x + emax) := fun v mem => by
    have := up v mem
    cases v with
    | nan => exact absurd this Bool.false_ne_true
    | inf => exact absurd this Bool.false_ne_true
    | fin n m e =>
      refine ⟨n, m, e, rfl, fun pos => ?_⟩
      simpa [topUpTo, pos] using this
  have all : ∀ v ∈ vs, finite v = true := fun v mem => by
    obtain ⟨n, m, e, rfl, -⟩ := fin v mem
    rfl
  obtain ⟨v, mem, nonzero, least⟩ := top
  obtain ⟨n, m, e, rfl, -⟩ := fin v mem
  have pos : m ≠ 0 := beq_eq_false_iff_ne.1 nonzero
  rw [qntMx_finite all]
  cases made : topOf vs with
  | none => exact absurd ((topOf_spec vs).1 made n m e mem) pos
  | some t =>
    obtain ⟨⟨n', m', e', mem', pos', same⟩, most⟩ := (topOf_spec vs).2 t made
    obtain ⟨_, _, _, is, high⟩ := fin _ mem'
    injection is with _ hm he
    subst hm he
    have high := high pos'
    have reach := most n m e mem pos
    have value : max (t - emax) (-127) = x := by
      rcases least with least | at_
      · omega
      · have : topExp m e = x + emax := by simpa [topAt, pos] using at_
        omega
    dsimp only
    rw [value]

end

/-! ### The values of a QNT (R385) -/

section
variable {α : Type}

theorem flatMap_rows (g : Nat → Nat → α) :
    (List.range 4).flatMap (fun m => (List.range 8).map (g m)) = (List.range 32).map fun j => g (j / 8) (j % 8) := rfl

theorem map_drop_take (g : Nat → α) {p n k : Nat} (fits : p + n ≤ k) :
    (((List.range k).map g).drop p).take n = (List.range n).map fun j => g (p + j) := by
  apply List.ext_getElem
  · simp
    omega
  · intro j h h'
    simp

end

section
variable (s : State) (r : Row)

/-- R385: row `m` of the group of a QNT, and output `j` of its 32. -/
def qntRow (m : Nat) : Acc := (rowCtx s r).landed ((rowCtx s r).group + m)
def qntCode (j : Nat) : Nat := (outOf (qntRow s r (j / 8)) (j % 8)).toNat
def qntVal (j : Nat) : Fp := fmtF32.value (qntCode s r j)

theorem groupCodes_eq_map : (rowCtx s r).groupCodes = (List.range 32).map (qntCode s r) := by
  show ((List.range 4).flatMap fun m => (qntRow s r m).outs) = _
  simp only [outs_eq_map]
  exact flatMap_rows fun m j => (outOf (qntRow s r m) j).toNat

/-- R385: the flags that the sources of a QNT carry. -/
def qntCarried : Flags := (List.range 4).foldl (fun f m => f ||| (qntRow s r m).flags) (rowCtx s r).a.flags

/-- R385: the quarter of the values that a QNT rounds. -/
def qntQuarter : Nat := (rowCtx s r).a.data.toNat / 2 % 4

/-- R65, R66: the scale word, the elements and the flag of a QNT. -/
def qntMxMade : Nat × List Nat × Flags :=
  qntMx (fmtOfCode r.mod.toNat) (if r.mod.toNat = 4 then 8 else 15) ((List.range 32).map (qntVal s r)) (8 * qntQuarter s r) (laneRounding s r)
def qntB4Made : Nat × List Nat × Flags :=
  qntB4 ((List.range 16).map fun j => qntCode s r (16 * (qntQuarter s r % 2) + j)) ((rowCtx s r).a.data.toNat / 2 ^ 32) (laneRounding s r)
def qntMade : Nat × List Nat × Flags := if r.mod.toNat = 0xa then qntB4Made s r else qntMxMade s r

/-- R385: the same as the model reads the group. -/
def qntRead : Nat × List Nat × Flags :=
  if r.mod.toNat = 0xa then
    qntB4 (((rowCtx s r).groupCodes.drop (16 * (qntQuarter s r % 2))).take 16) ((rowCtx s r).a.data.toNat / 2 ^ 32) (rowCtx s r).roundingAt
  else qntMx (fmtOfCode r.mod.toNat) (if r.mod.toNat = 4 then 8 else 15) ((rowCtx s r).groupCodes.map fmtF32.value) (8 * qntQuarter s r)
    (rowCtx s r).roundingAt

theorem qntRead_eq : qntRead s r = qntMade s r := by
  have rounding : (rowCtx s r).roundingAt = laneRounding s r := funext (roundingAt_eq s r)
  rw [qntRead, groupCodes_eq_map, rounding, map_drop_take _ (by omega), List.map_map]
  rfl

/-- R385: the data of a QNT: its scale word, or its elements. -/
def qntData (made : Nat × List Nat × Flags) : Nat :=
  if (rowCtx s r).a.data.toNat / 8 % 2 = 1 then made.1 else joinLanes (if r.mod.toNat = 0xa then 4 else 8) made.2.1

/-- R385: what a QNT puts into its landing slot. -/
def qntWord (made : Nat × List Nat × Flags) : FVal :=
  { FVal.of (BitVec.ofNat 64 (qntData s r made)) with p := (rowCtx s r).a.p, flags := qntCarried s r ||| made.2.2 }

end

theorem qnt_puts {s : State} {r : Row} (fires : Fires s (.rowQnt r) 0x4f r) : ∃ t, exec (.rowQnt r) s = .next t ∧
    RowResult s t r .acr 6 (.reg (qntWord s r (qntMade s r)))
      (drawnPe (peOf s) (if (rowCtx s r).a.data.toNat / 8 % 2 = 1 then 0 else r.aux.toNat % 8) (if r.mod.toNat = 0xa then 16 else 8))
      (newFlags (qntMade s r).2.2 (qntCarried s r)) := by
  have run : exec (.rowQnt r) s = .next (((fired s r 0x4f).putVal (rowCtx s r) (.rowQnt r) 0x4f (qntWord s r (qntRead s r))
      (newFlags (qntRead s r).2.2 (qntCarried s r))).stepXs (rowCtx s r)
      (if (rowCtx s r).a.data.toNat / 8 % 2 = 1 then 0 else r.aux.toNat % 8) (if r.mod.toNat = 0xa then 16 else 8)) :=
    row_runs (execRowQnt r s) rfl rfl fires
  rw [qntRead_eq] at run
  exact ⟨_, run, rowResult_stepXs (rowResult_putVal (fired_change s r 0x4f) rfl (.rowQnt r) _ _) _ _⟩

end Sys2Proof.Proofs
end

section
/-! PROOFS. QNT: what an MXFP8 block puts into its landing slot (R65, R385). -/

namespace Sys2Proof.Proofs

open Sys2Proof Sys2Proof.Machine Sys2Proof.Safety Sys2Proof.Laws

/-! ### The fields of a QNT (R271, R385) -/

/-- R271: MOD of a QNT names MXFP8 or B4 and AUX a rounding mode. -/
theorem qnt_modAux {s : State} {r : Row} (fires : Fires s (.rowQnt r) 0x4f r) :
    (r.mod.toNat = 4 ∨ r.mod.toNat = 5 ∨ r.mod.toNat = 0xa) ∧ r.aux.toNat ≤ 4 := by
  have ok : ((r.mod.toNat == 4 || r.mod.toNat == 5 || r.mod.toNat == 0xa) && decide (r.aux.toNat ≤ 4)) = true := fires_modAux fires rfl
  simpa [or_assoc] using ok

/-- R55, R57: a QNT rounds by a mode of the five and draws of 32 bits. -/
theorem laneRounding_mode {s : State} {r : Row} (few : r.aux.toNat ≤ 4) (k : Nat) :
    (laneRounding s r k).mode ≤ 4 ∧ (laneRounding s r k).draw < 2 ^ 32 :=
  ⟨(Nat.mod_le ..).trans few, BitVec.isLt _⟩

/-- How lane `k` of a QNT rounds: it stops at the largest finite value, without flags and without flushing. -/
def clampedLane (s : State) (r : Row) (k : Nat) : Rounding := { laneRounding s r k with ovf := .clamp, ftz := false }

section
variable {s : State} {r : Row} (made : Nat × List Nat × Flags)

theorem qnt_scale_iff : (rowCtx s r).a.data.toNat / 8 % 2 = 1 ↔ (rowCtx s r).a.data.getLsbD 3 = true := by
  rw [BitVec.getLsbD, Nat.testBit_eq_decide_div_mod_eq, decide_eq_true_eq]

theorem qntData_scale (sc : (rowCtx s r).a.data.getLsbD 3 = true) : qntData s r made = made.1 := if_pos (qnt_scale_iff.2 sc)

theorem qntData_elems (sc : (rowCtx s r).a.data.getLsbD 3 = false) :
    qntData s r made = joinLanes (if r.mod.toNat = 0xa then 4 else 8) made.2.1 :=
  if_neg fun h => by rw [qnt_scale_iff.1 h] at sc; exact absurd sc (by decide)

theorem qntWord_data : (qntWord s r made).data = BitVec.ofNat 64 (qntData s r made) := rfl
theorem qntWord_flags : (qntWord s r made).flags = qntCarried s r ||| made.2.2 := rfl

/-- R57: a QNT draws only for its elements. -/
theorem qnt_drawn (n : Nat) : drawnPe (peOf s) (if (rowCtx s r).a.data.toNat / 8 % 2 = 1 then 0 else r.aux.toNat % 8) n =
    if (rowCtx s r).a.data.getLsbD 3 = false then peDrawn s r n else peOf s := by
  cases sc : (rowCtx s r).a.data.getLsbD 3
  · rw [if_neg (by rw [qnt_scale_iff, sc]; decide), if_pos rfl]
    rfl
  · rw [if_pos (qnt_scale_iff.2 sc), if_neg (by decide)]
    rfl

/-- R385: the rows of the group. -/
theorem qntRow_eq (m : Nat) : (peOf s).acc[(4 * ((rowCtx s r).a.data.getLsbD 0).toNat + m) % 8]'(Nat.mod_lt _ (by decide)) = qntRow s r m := by
  have bit : ((rowCtx s r).a.data.getLsbD 0).toNat = (rowCtx s r).a.data.toNat % 2 := by
    rw [BitVec.getLsbD, Nat.testBit_zero]
    rcases Nat.mod_two_eq_zero_or_one (rowCtx s r).a.data.toNat with h | h <;> rw [h] <;> rfl
  show _ = (peOf s).acc[(4 * ((rowCtx s r).a.data.toNat % 2) + m) % 8]
  simp only [bit]

end

/-- R36: the new flags are those that the word has beyond the carried ones. -/
theorem newFlags_or (nv fl : Flags) : newFlags nv fl = (fl ||| nv) &&& ~~~fl := by
  apply BitVec.eq_of_getLsbD_eq
  intro i hi
  simp only [newFlags, BitVec.getLsbD_and, BitVec.getLsbD_or, BitVec.getLsbD_not, hi, decide_true, Bool.true_and]
  cases nv.getLsbD i <;> cases fl.getLsbD i <;> rfl

theorem joinLanes_zeros (w n : Nat) : joinLanes w (List.replicate n 0) = 0 := by
  induction n with
  | zero => rfl
  | succ n ih => rw [List.replicate_succ, joinLanes, ih, Nat.zero_mod, Nat.mul_zero]

theorem mapIdx_range {α β : Type} (g : Nat → α) (h : Nat → α → β) (n : Nat) :
    ((List.range n).map g).mapIdx h = (List.range n).map fun k => h k (g k) := by
  apply List.ext_getElem
  · simp
  · intro k _ _
    simp

/-- R66: a flag of a list is raised or not. -/
theorem or_flagIf (fl : Flags) (b : Bool) : fl ||| flagIf b flNV = if b then fl ||| flNV else fl := by
  cases b
  · exact BitVec.or_zero
  · rfl

/-! ### A block of MXFP8 (R65) -/

section
variable {s : State} {r : Row} (mx : r.mod.toNat ≠ 0xa)
include mx

theorem qntMade_mx : qntMade s r = qntMxMade s r := if_neg mx

theorem qnt_mx_flags : (qntWord s r (qntMade s r)).flags =
    if ((List.range 32).any fun j => (qntVal s r j).isInf) then qntCarried s r ||| flNV else qntCarried s r := by
  rw [qntMade_mx mx, qntWord_flags, qntMxMade, qntMx_flags, List.any_map, or_flagIf]
  rfl

/-- R65: an infinity raises NV, and nothing else does. -/
theorem qnt_mx_inf : ((∃ j < 32, (qntVal s r j).isInf = true) → (qntWord s r (qntMade s r)).flags = qntCarried s r ||| flNV) ∧
    ((∀ j < 32, (qntVal s r j).isInf = false) → (qntWord s r (qntMade s r)).flags = qntCarried s r) := by
  rw [qnt_mx_flags mx]
  refine ⟨fun ⟨j, hj, inf⟩ => if_pos (List.any_eq_true.2 ⟨j, List.mem_range.2 hj, inf⟩), fun none_ => if_neg ?_⟩
  rintro h
  obtain ⟨j, hj, inf⟩ := List.any_eq_true.1 h
  rw [none_ j (List.mem_range.1 hj)] at inf
  exact absurd inf (by decide)

/-- R65: a block of zeros. -/
theorem qnt_mx_zero (zeros : ∀ j < 32, (qntVal s r j).isZero = true) : (qntWord s r (qntMade s r)).data = 0 := by
  have all : ∀ x ∈ (List.range 32).map (qntVal s r), x.isZero = true := by
    intro x hx
    obtain ⟨j, hj, rfl⟩ := List.mem_map.1 hx
    exact zeros j (List.mem_range.1 hj)
  have fin : ∀ x ∈ (List.range 32).map (qntVal s r), finite x = true := fun x hx => by
    have := all x hx
    cases x with
    | fin => rfl
    | nan => exact absurd this Bool.false_ne_true
    | inf => exact absurd this Bool.false_ne_true
  have made : qntMxMade s r = (0, List.replicate 8 0, 0) := by rw [qntMxMade, qntMx_finite fin, topOf_zeros all]
  rw [qntMade_mx mx, made, qntWord_data, qntData]
  dsimp only
  rw [joinLanes_zeros, ite_self]
  rfl

/-- R65: a block with a NaN or an infinity. -/
theorem qnt_mx_special (special : ¬∀ j < 32, finite (qntVal s r j) = true) :
    (qntWord s r (qntMade s r)).data = if (rowCtx s r).a.data.getLsbD 3 then 0xff else 0 := by
  push Not at special
  obtain ⟨j, hj, bad⟩ := special
  have made : qntMxMade s r = (0xff, List.replicate 8 0, flagIf (((List.range 32).map (qntVal s r)).any Fp.isInf) flNV) :=
    qntMx_special (List.mem_map.2 ⟨j, List.mem_range.2 hj, rfl⟩) (by simpa using bad)
  rw [qntMade_mx mx, made, qntWord_data]
  cases sc : (rowCtx s r).a.data.getLsbD 3
  · rw [qntData_elems _ sc]
    dsimp only
    rw [joinLanes_zeros]
    rfl
  · rw [qntData_scale _ sc]
    rfl

section
variable {x : Int} (low : -127 ≤ x) (up : ∀ j < 32, topUpTo (x + if r.mod.toNat = 4 then 8 else 15) (qntVal s r j) = true)
  (top : ∃ j < 32, (qntVal s r j).isZero = false ∧ (x = -127 ∨ topAt (x + if r.mod.toNat = 4 then 8 else 15) (qntVal s r j) = true))
include low up top

omit mx in
/-- R65: the scale and the elements of an ordinary block. -/
theorem qnt_mx_made : qntMxMade s r = ((x + 127).toNat, (List.range 8).map (fun k =>
    qntElem (fmtOfCode r.mod.toNat) (laneRounding s r k) (qntVal s r (8 * qntQuarter s r + k)) x false), 0) := by
  obtain ⟨j, hj, nonzero, least⟩ := top
  have quarter : qntQuarter s r < 4 := Nat.mod_lt _ (by decide)
  rw [qntMxMade, qntMx_scale low ?_ ⟨qntVal s r j, List.mem_map.2 ⟨j, List.mem_range.2 hj, rfl⟩, nonzero, least⟩,
    map_drop_take _ (by omega), mapIdx_range]
  intro v hv
  obtain ⟨i, hi, rfl⟩ := List.mem_map.1 hv
  exact up i (List.mem_range.1 hi)

theorem qnt_mx_scale (sc : (rowCtx s r).a.data.getLsbD 3 = true) :
    (qntWord s r (qntMade s r)).data = BitVec.ofNat 64 (x + 127).toNat := by
  rw [qntMade_mx mx, qntWord_data, qntData_scale _ sc, qnt_mx_made low up top]

/-- R65: an element is its value under the scale, rounded. -/
theorem qnt_mx_elem (codes : r.mod.toNat = 4 ∨ r.mod.toNat = 5) (few : r.aux.toNat ≤ 4) (sc : (rowCtx s r).a.data.getLsbD 3 = false)
    {k : Nat} (hk : k < 8) {sg : Bool} {m : Nat} {e : Int} (value : qntVal s r (8 * qntQuarter s r + k) = .fin sg m e) :
    ∃ fl, RoundsTo (fmtOfCode r.mod.toNat) (clampedLane s r k) sg (Exact.of ((m : ℚ) * (2 : ℚ) ^ (e - x)))
      ((laneOf 8 k (qntWord s r (qntMade s r)).data).toNat, fl) := by
  obtain ⟨mode, draw⟩ := laneRounding_mode (s := s) few k
  have mem : fmtOfCode r.mod.toNat ∈ fmts ∧ (fmtOfCode r.mod.toNat).width = 8 := by
    rcases codes with h | h <;> rw [h] <;> decide
  have word := laneOf_laneWord (w := 8) (j := k) ((List.range 8).map fun k =>
    qntElem (fmtOfCode r.mod.toNat) (laneRounding s r k) (qntVal s r (8 * qntQuarter s r + k)) x false) (by simp) (by simpa using hk)
  have small := roundFin_lt (fmts_fit _ mem.1) (clampedLane s r k) sg m (e - x) false
  rw [mem.2] at small
  rw [qntMade_mx mx, qntWord_data, qntData_elems _ sc, qnt_mx_made low up top, if_neg mx]
  refine ⟨((fmtOfCode r.mod.toNat).roundFin (clampedLane s r k) sg m (e - x) false).2, ?_⟩
  have lane : (laneOf 8 k (BitVec.ofNat 64 (joinLanes 8 ((List.range 8).map fun k =>
      qntElem (fmtOfCode r.mod.toNat) (laneRounding s r k) (qntVal s r (8 * qntQuarter s r + k)) x false)))).toNat =
      ((fmtOfCode r.mod.toNat).roundFin (clampedLane s r k) sg m (e - x) false).1 := by
    rw [laneWord] at word
    rw [word, List.getElem_map, List.getElem_range, value, BitVec.toNat_ofNat]
    exact Nat.mod_eq_of_lt small
  rw [lane]
  exact roundFin_of sg m (e - x) (fmts_man _ mem.1) mode fun _ => draw

end

end

end Sys2Proof.Proofs
end

section
/-! PROOFS. QNT: a group of B4 values, its offset and its elements (R66, R385). -/

namespace Sys2Proof.Proofs

open Sys2Proof Sys2Proof.Machine Sys2Proof.Safety Sys2Proof.Laws

/-! ### The quotient of a value by T (R66) -/

/-- A fraction by the whole number of 2^g below it. -/
theorem reads_div (n : Nat) {d : Nat} (pos : d ≠ 0) (g : Int) :
    Reads (Exact.of ((n : ℚ) / d * (2 : ℚ) ^ g)) ((n / d : Nat) * (2 : ℚ) ^ g) (decide (n % d ≠ 0)) g := by
  have dpos : (0 : ℚ) < d := by exact_mod_cast Nat.pos_of_ne_zero pos
  have unit : (0 : ℚ) < 2 ^ g := by positivity
  have split : (n : ℚ) / d = (n / d : Nat) + (n % d : Nat) / d := by
    rw [div_eq_iff dpos.ne', add_mul, div_mul_cancel₀ _ dpos.ne']
    exact_mod_cast (Nat.div_add_mod' n d).symm
  refine reads_floor ⟨(n / d : Nat), by push_cast; rfl⟩ (fun whole => ?_) fun rest => ?_
  · have : n % d = 0 := by simpa using whole
    rw [split, this]
    simp
  · have : 0 < n % d := Nat.pos_of_ne_zero (by simpa using rest)
    have low : (0 : ℚ) < (n % d : Nat) / d := div_pos (by exact_mod_cast this) dpos
    have high : ((n % d : Nat) : ℚ) / d < 1 := (div_lt_one dpos).2 (by exact_mod_cast Nat.mod_lt n (Nat.pos_of_ne_zero pos))
    rw [split]
    constructor <;> nlinarith

/-- R66: the magnitude of a value over T, in units of the model's quotient. -/
theorem quotient_eq (m d : Nat) (e f k : Int) :
    ((m * 2 ^ 64 : Nat) : ℚ) / d * (2 : ℚ) ^ (e - f - 64 - k) = m * (2 : ℚ) ^ e / (d * (2 : ℚ) ^ f) / (2 : ℚ) ^ k := by
  have units : (2 : ℚ) ^ (e - f - 64 - k) = (2 : ℚ) ^ e / (2 : ℚ) ^ f / 2 ^ 64 / (2 : ℚ) ^ k := by
    rw [zpow_sub₀ (by norm_num), zpow_sub₀ (by norm_num), zpow_sub₀ (by norm_num)]
    norm_num
  rw [units]
  push_cast
  field_simp
  norm_num

section
variable {m d : Nat} (e f : Int) (pos : d ≠ 0) (short : d < 2 ^ 24)
include pos short

theorem quotient_long (some_ : m ≠ 0) : 2 ^ 40 ≤ m * 2 ^ 64 / d :=
  (Nat.le_div_iff_mul_le (Nat.pos_of_ne_zero pos)).2 (by have := Nat.pos_of_ne_zero some_; omega)

/-- R66: the exponent of the model's quotient is that of the exact one. -/
theorem quotient_top (some_ : m ≠ 0) :
    (2 : ℚ) ^ topExp (m * 2 ^ 64 / d) (e - f - 64) ≤ m * (2 : ℚ) ^ e / (d * (2 : ℚ) ^ f) ∧
    m * (2 : ℚ) ^ e / (d * (2 : ℚ) ^ f) < (2 : ℚ) ^ (topExp (m * 2 ^ 64 / d) (e - f - 64) + 1) := by
  have long := quotient_long pos short some_
  have reads := reads_div (m * 2 ^ 64) pos (e - f - 64)
  have value := quotient_eq m d e f 0
  rw [sub_zero, zpow_zero, div_one] at value
  rw [value] at reads
  have high := le_topExp (e - f - 64) long
  have grid : OnGrid (e - f - 64) ((2 : ℚ) ^ (topExp (m * 2 ^ 64 / d) (e - f - 64) + 1)) := by
    have := onGrid_units (g := e - f - 64) (q := topExp (m * 2 ^ 64 / d) (e - f - 64) + 1) 1 (by omega)
    simpa using this
  exact ⟨of_decide_eq_true (reads.le_of _ (topExp_le _ (by omega))),
    not_le.1 (of_decide_eq_false (reads.not_le _ _ grid (lt_topExp _) le_rfl))⟩

/-- R66: an element is its quotient under the offset, rounded. -/
theorem quotient_rounds {z : Rounding} (neg : Bool) (k : Int) (code : z.mode ≤ 4) (small : z.draw < 2 ^ 32) :
    RoundsTo fmtE2M1 z neg (Exact.of (m * (2 : ℚ) ^ e / (d * (2 : ℚ) ^ f) / (2 : ℚ) ^ k))
      (fmtE2M1.roundFin z neg (m * 2 ^ 64 / d) (e - f - 64 - k) (decide (m * 2 ^ 64 % d ≠ 0))) := by
  by_cases zero : m = 0
  · subst zero
    have none_ := roundFin_of (f := fmtE2M1) (z := z) neg 0 (e - f - 64 - k) (by decide) code fun _ => small
    simpa using none_
  · have long := quotient_long pos short zero
    have reads := reads_div (m * 2 ^ 64) pos (e - f - 64 - k)
    rw [quotient_eq] at reads
    refine roundFin_roundsTo neg reads (by decide) ?_ (fun none_ => ?_) code fun _ => small
    · have := le_topExp (e - f - 64 - k) long
      have man : fmtE2M1.man = 1 := rfl
      rw [placeOf, if_neg (by omega), man]
      omega
    · omega

end

/-! ### A group of four (R66) -/

section
variable (w : Nat → Nat) (t : Nat) (q : Nat → Rounding)

/-- R66: value `j` of sixteen over T. -/
def b4Quot (j : Nat) : Fp × Bool := b4Quotient (fmtF32.value (w j)) (fmtF32.value t)

/-- R66: whether group `g` has a NaN, or an infinite value. -/
def b4Nan (g : Nat) : Bool := (List.range 4).any fun i => (b4Quot w t (4 * g + i)).1.isNan
def b4Inf (g : Nat) : Bool := (List.range 4).any fun i => (b4Quot w t (4 * g + i)).1.isInf

/-- R66: the offset of group `g` if it has no NaN. -/
def b4Offset (g : Nat) : Int :=
  if b4Inf w t g then 15 else match topOf ((List.range 4).map fun i => (b4Quot w t (4 * g + i)).1) with
    | none => 0
    | some k => max 0 (min 15 (k - 2 + 8))

/-- R66: element `i` of group `g`. -/
def b4Elem (g i : Nat) : Nat :=
  if b4Nan w t g then 0
  else qntElem fmtE2M1 (q (4 * g + i)) (b4Quot w t (4 * g + i)).1 (b4Offset w t g - 8) (b4Quot w t (4 * g + i)).2

/-- R66: a group as the model makes it. -/
def b4Group (g : Nat) : Nat × List Nat × Flags := qntGroup ((List.range 4).map fun i => w (4 * g + i)) t (4 * g) q

theorem b4Group_nan {g : Nat} (nan : b4Nan w t g = true) :
    (b4Group w t q g).2 = (List.replicate 4 0, flNV) := by
  unfold b4Nan b4Quot at nan
  unfold b4Group qntGroup
  simp only [List.map_map, List.any_map]
  exact congrArg Prod.snd (if_pos nan)

theorem b4Group_number {g : Nat} (number : b4Nan w t g = false) :
    b4Group w t q g = ((b4Offset w t g).toNat, (List.range 4).map (b4Elem w t q g), flagIf (b4Inf w t g) flNV) := by
  have elem : (fun i => b4Elem w t q g i) = fun i =>
      qntElem fmtE2M1 (q (4 * g + i)) (b4Quot w t (4 * g + i)).1 (b4Offset w t g - 8) (b4Quot w t (4 * g + i)).2 := by
    funext i
    rw [b4Elem, number]
    rfl
  show _ = (_, (List.range 4).map (fun i => b4Elem w t q g i), _)
  rw [elem]
  have quots : ((List.range 4).map fun i => w (4 * g + i)).map (fun v => b4Quotient (fmtF32.value v) (fmtF32.value t)) =
      (List.range 4).map fun i => b4Quot w t (4 * g + i) := List.map_map
  unfold b4Group qntGroup
  rw [quots]
  simp only [List.any_map, List.map_map, mapIdx_range]
  exact if_neg fun h => absurd (number.symm.trans h) (by decide)

theorem b4Group_elems (g : Nat) : (b4Group w t q g).2.1 = (List.range 4).map (b4Elem w t q g) := by
  cases nan : b4Nan w t g
  · rw [b4Group_number w t q nan]
  · rw [b4Group_nan w t q nan]
    exact (List.map_eq_replicate_iff (l := List.range 4).2 fun i _ => if_pos nan).symm

theorem b4Group_flags (g : Nat) : (b4Group w t q g).2.2 = flagIf (b4Nan w t g || b4Inf w t g) flNV := by
  cases nan : b4Nan w t g
  · rw [b4Group_number w t q nan]
    rfl
  · rw [b4Group_nan w t q nan]
    rfl

theorem b4Offset_range (g : Nat) : 0 ≤ b4Offset w t g ∧ b4Offset w t g ≤ 15 := by
  unfold b4Offset
  split
  · omega
  · split <;> omega

end

/-! ### Under a usable T (R66) -/

theorem abs_ratOf (n : Bool) (m : Nat) (e : Int) : |ratOf (.fin n m e)| = m * (2 : ℚ) ^ e := by
  have pos : (0 : ℚ) ≤ m * (2 : ℚ) ^ e := by positivity
  rw [ratOf, mul_assoc, abs_mul, abs_of_nonneg pos]
  cases n <;> simp

section
variable {w : Nat → Nat} {t : Nat} {n : Bool} {d : Nat} {f : Int} (tv : fmtF32.value t = .fin n d f) (pos : d ≠ 0)
include tv pos

theorem b4Quot_fin {j : Nat} {sg : Bool} {m : Nat} {e : Int} (value : fmtF32.value (w j) = .fin sg m e) :
    b4Quot w t j = (.fin (sg != n) (m * 2 ^ 64 / d) (e - f - 64), decide (m * 2 ^ 64 % d ≠ 0)) := by
  rw [b4Quot, tv, value]
  exact if_neg pos

omit pos in
theorem b4Quot_inf {j : Nat} {sg : Bool} (value : fmtF32.value (w j) = .inf sg) : b4Quot w t j = (.inf (sg != n), false) := by
  rw [b4Quot, tv, value]
  rfl

theorem b4Quot_kind (j : Nat) : (b4Quot w t j).1.isNan = (fmtF32.value (w j)).isNan ∧
    (b4Quot w t j).1.isInf = (fmtF32.value (w j)).isInf := by
  cases value : fmtF32.value (w j) with
  | nan => rw [b4Quot, tv, value]; exact ⟨rfl, rfl⟩
  | inf => rw [b4Quot_inf tv value]; exact ⟨rfl, rfl⟩
  | fin => rw [b4Quot_fin tv pos value]; exact ⟨rfl, rfl⟩

theorem b4Nan_iff (g : Nat) : b4Nan w t g = true ↔ ∃ i < 4, (fmtF32.value (w (4 * g + i))).isNan = true := by
  simp only [b4Nan, List.any_eq_true, List.mem_range, (b4Quot_kind tv pos _).1]

theorem b4Inf_iff (g : Nat) : b4Inf w t g = true ↔ ∃ i < 4, (fmtF32.value (w (4 * g + i))).isInf = true := by
  simp only [b4Inf, List.any_eq_true, List.mem_range, (b4Quot_kind tv pos _).2]

/-- R66, log 17: a group with an infinite value has the offset 15. -/
theorem b4Offset_special {g : Nat} (number : b4Nan w t g = false) (special : ¬∀ i < 4, finite (fmtF32.value (w (4 * g + i))) = true) :
    b4Offset w t g = 15 := by
  push Not at special
  obtain ⟨i, hi, bad⟩ := special
  have notNan : (fmtF32.value (w (4 * g + i))).isNan = false := by
    by_contra h
    rw [(b4Nan_iff tv pos g).2 ⟨i, hi, by simpa using h⟩] at number
    exact absurd number (by decide)
  have inf : (fmtF32.value (w (4 * g + i))).isInf = true := by
    rw [finite, notNan] at bad
    simpa using bad
  exact if_pos ((b4Inf_iff tv pos g).2 ⟨i, hi, inf⟩)

variable (short : d < 2 ^ 24)
include short

/-- R66: the exponent of a finite value's quotient is that of the greatest power of two within the exact one. -/
theorem b4_magnitude {j : Nat} (fin : finite (fmtF32.value (w j)) = true) : ∃ sg k e, (b4Quot w t j).1 = .fin sg k e ∧
    (k ≠ 0 → (2 : ℚ) ^ topExp k e ≤ |ratOf (fmtF32.value (w j))| / |ratOf (fmtF32.value t)|) ∧
    ∀ x : Int, (2 : ℚ) ^ x ≤ |ratOf (fmtF32.value (w j))| / |ratOf (fmtF32.value t)| → k ≠ 0 ∧ x ≤ topExp k e := by
  obtain ⟨sg, m, e, value⟩ := (finite_iff _).1 fin
  rw [b4Quot_fin tv pos value, value, tv, abs_ratOf, abs_ratOf]
  refine ⟨_, _, _, rfl, fun some_ => (quotient_top e f pos short ?_).1, fun x reach => ?_⟩
  · rintro rfl
    simp at some_
  · have some_ : m ≠ 0 := by
      rintro rfl
      have : (0 : ℚ) < 2 ^ x := by positivity
      simp at reach
      linarith
    have long := quotient_long pos short some_
    have := (zpow_lt_zpow_iff_right₀ (by norm_num)).1 (reach.trans_lt (quotient_top e f pos short some_).2)
    omega

/-- R66: the model's offset of a group of finite values. -/
theorem b4Offset_eq {g e : Nat} (fin : ∀ i < 4, finite (fmtF32.value (w (4 * g + i))) = true)
    (offset : OffsetOf (fun i => |ratOf (fmtF32.value (w (4 * g + i)))| / |ratOf (fmtF32.value t)|) e) : b4Offset w t g = e := by
  obtain ⟨most, low, high⟩ := offset
  have finiteGroup : b4Inf w t g = false := by
    by_contra h
    obtain ⟨i, hi, inf⟩ := (b4Inf_iff tv pos g).1 (by simpa using h)
    have := fin i hi
    simp [finite, inf] at this
  have two : (1 : ℚ) < 2 := by norm_num
  rw [b4Offset, finiteGroup, if_neg Bool.false_ne_true]
  cases made : topOf ((List.range 4).map fun i => (b4Quot w t (4 * g + i)).1) with
  | none =>
    rcases Nat.eq_zero_or_pos e with rfl | some_
    · rfl
    · obtain ⟨i, hi, reach⟩ := low some_
      obtain ⟨sg, k, x, quot, -, within_⟩ := b4_magnitude tv pos short (fin i hi)
      exact absurd ((topOf_spec _).1 made sg k x (List.mem_map.2 ⟨i, List.mem_range.2 hi, quot⟩)) (within_ _ reach).1
  | some top =>
    obtain ⟨⟨sg, k, x, mem, some_, same⟩, mostTop⟩ := (topOf_spec _).2 top made
    obtain ⟨i, hi, quot⟩ := List.mem_map.1 mem
    have below : e < 15 → top < (e : Int) - 5 := fun less => by
      obtain ⟨_, _, _, quot', exact_, -⟩ := b4_magnitude tv pos short (fin i (List.mem_range.1 hi))
      injection quot'.symm.trans quot with _ hk hx
      subst hk hx
      have := (exact_ some_).trans_lt (high less i (List.mem_range.1 hi))
      rw [same] at this
      exact (zpow_lt_zpow_iff_right₀ two).1 this
    have above : 0 < e → (e : Int) - 6 ≤ top := fun more => by
      obtain ⟨i', hi', reach⟩ := low more
      obtain ⟨sg', k', x', quot', -, within_⟩ := b4_magnitude tv pos short (fin i' hi')
      obtain ⟨some', reach'⟩ := within_ _ reach
      exact reach'.trans (mostTop sg' k' x' (List.mem_map.2 ⟨i', List.mem_range.2 hi', quot'⟩) some')
    dsimp only
    omega

end

end Sys2Proof.Proofs
end

section
/-! PROOFS. QNT: sixteen B4 values, and what they put into a landing slot (R66, R385). -/

namespace Sys2Proof.Proofs

open Sys2Proof Sys2Proof.Machine Sys2Proof.Safety Sys2Proof.Laws

/-! ### Sixteen values (R66) -/

/-- R66: T is a finite number other than zero. -/
def UsableT (t : Nat) : Prop := finite (fmtF32.value t) = true ∧ (fmtF32.value t).isZero = false

theorem UsableT.fin {t : Nat} (h : UsableT t) : ∃ n d f, fmtF32.value t = .fin n d f ∧ d ≠ 0 ∧ d < 2 ^ 24 := by
  obtain ⟨fin, nonzero⟩ := h
  obtain ⟨n, d, f, tv⟩ := (finite_iff _).1 fin
  rw [tv] at nonzero
  exact ⟨n, d, f, tv, beq_eq_false_iff_ne.1 nonzero, (value_fin tv).1⟩

/-- R66: under an unusable T. -/
theorem qntB4_unusable {vs : List Nat} {t : Nat} {q : Nat → Rounding} (h : ¬UsableT t) :
    qntB4 vs t q = (0, List.replicate 16 0, flNV) := by
  unfold qntB4
  refine if_pos ?_
  cases tv : fmtF32.value t with
  | nan => rfl
  | inf => rfl
  | fin n d f =>
    by_contra nonzero
    exact h ⟨by rw [tv]; rfl, by rw [tv]; simpa [Fp.isZero] using nonzero⟩

/-- A flag is raised by a list when one of its members raises it. -/
theorem foldl_flagIf {α : Type} (p : α → Bool) (l : List α) : ∀ c : Bool,
    l.foldl (fun f a => f ||| flagIf (p a) flNV) (flagIf c flNV) = flagIf (c || l.any p) flNV := by
  induction l with
  | nil => intro c; rw [List.any_nil, Bool.or_false]; rfl
  | cons a l ih =>
    intro c
    have step : flagIf c flNV ||| flagIf (p a) flNV = flagIf (c || p a) flNV := by
      cases c <;> cases p a <;> rfl
    rw [List.foldl_cons, step, ih, List.any_cons, Bool.or_assoc]

section
variable (w : Nat → Nat) {t : Nat} (q : Nat → Rounding) {n : Bool} {d : Nat} {f : Int} (tv : fmtF32.value t = .fin n d f) (pos : d ≠ 0)
include tv pos

/-- R66: a value that is not finite is in a group that raises NV. -/
theorem groups_special : ((List.range 4).any fun g => b4Nan w t g || b4Inf w t g) =
    !(List.range 16).all fun j => finite (fmtF32.value (w j)) := by
  rw [Bool.eq_iff_iff, Bool.not_eq_true', ← Bool.not_eq_true, List.all_eq_true]
  simp only [List.any_eq_true, List.mem_range, Bool.or_eq_true, b4Nan_iff tv pos, b4Inf_iff tv pos, not_forall]
  constructor
  · rintro ⟨g, hg, ⟨i, hi, nan⟩ | ⟨i, hi, inf⟩⟩
    · exact ⟨4 * g + i, by omega, by simp [finite, nan]⟩
    · exact ⟨4 * g + i, by omega, by simp [finite, inf]⟩
  · rintro ⟨j, hj, special⟩
    have place : 4 * (j / 4) + j % 4 = j := Nat.div_add_mod j 4
    have kinds : (fmtF32.value (w j)).isNan = true ∨ (fmtF32.value (w j)).isInf = true := by
      simpa [special_iff] using (Bool.or_eq_true_iff.1 ((special_iff _).2 (Bool.eq_false_iff.2 special)))
    refine ⟨j / 4, by omega, kinds.imp (fun nan => ⟨j % 4, by omega, ?_⟩) fun inf => ⟨j % 4, by omega, ?_⟩⟩
    · rwa [place]
    · rwa [place]

/-- R66: the offset word, the elements and the flag of sixteen values. -/
theorem qntB4_usable : qntB4 ((List.range 16).map w) t q = (joinLanes 4 ((List.range 4).map fun g => (b4Group w t q g).1),
    (List.range 16).map (fun j => b4Elem w t q (j / 4) (j % 4)),
    flagIf (!(List.range 16).all fun j => finite (fmtF32.value (w j))) flNV) := by
  have groups : ((List.range 4).map fun g => qntGroup ((((List.range 16).map w).drop (4 * g)).take 4) t (4 * g) q) =
      (List.range 4).map (b4Group w t q) := by
    refine List.map_congr_left fun g hg => ?_
    have := List.mem_range.1 hg
    rw [map_drop_take _ (by omega)]
    rfl
  have flags : ((List.range 4).map (b4Group w t q)).foldl (fun f g => f ||| g.2.2) 0 =
      flagIf (!(List.range 16).all fun j => finite (fmtF32.value (w j))) flNV := by
    rw [List.foldl_map, ← groups_special w tv pos]
    simp only [b4Group_flags]
    exact foldl_flagIf _ _ false
  have elems : ((List.range 4).map (b4Group w t q)).flatMap (·.2.1) = (List.range 16).map fun j => b4Elem w t q (j / 4) (j % 4) := by
    rw [List.flatMap_map]
    simp only [b4Group_elems]
    rfl
  unfold qntB4
  rw [groups, ← flags, ← elems, tv]
  refine (if_neg fun h => pos (beq_iff_eq.1 h)).trans ?_
  dsimp only
  rw [List.map_map]
  rfl

end

/-- A rounding whose flags are not told. -/
theorem roundsTo_flags {f : Fmt} {z : Rounding} {neg : Bool} {y : Exact} {made : Nat × Flags} {c : Nat} (rounds : RoundsTo f z neg y made)
    (code : c = made.1) : ∃ fl, RoundsTo f z neg y (c, fl) :=
  ⟨made.2, code ▸ rounds⟩

theorem qntElem_fin (f : Fmt) (z : Rounding) (n : Bool) (m : Nat) (e k : Int) (rest : Bool) :
    qntElem f z (.fin n m e) k rest = (f.roundFin { z with ovf := .clamp, ftz := false } n m (e - k) rest).1 := rfl

/-! ### A QNT of B4 values (R385) -/

section
variable (s : State) (r : Row)

/-- R385: value `j` of the half that a QNT of B4 values takes, as an FP32 code, and T. -/
def b4Code (j : Nat) : Nat := qntCode s r (16 * (qntQuarter s r % 2) + j)
def b4T : Nat := (rowCtx s r).a.data.toNat / 2 ^ 32

variable {s r} (b4 : r.mod.toNat = 0xa)
include b4

theorem qntMade_b4 : qntMade s r = qntB4 ((List.range 16).map (b4Code s r)) (b4T s r) (laneRounding s r) := if_pos b4

theorem qnt_b4_unusable (h : ¬UsableT (b4T s r)) :
    (qntWord s r (qntMade s r)).data = 0 ∧ (qntWord s r (qntMade s r)).flags = qntCarried s r ||| flNV := by
  rw [qntMade_b4 b4, qntB4_unusable h]
  refine ⟨?_, rfl⟩
  rw [qntWord_data, qntData]
  dsimp only
  rw [joinLanes_zeros, ite_self]
  rfl

/-- R66: the offset word is of sixteen bits. -/
theorem qnt_b4_word (sc : (rowCtx s r).a.data.getLsbD 3 = true) : (qntWord s r (qntMade s r)).data.toNat < 2 ^ 16 := by
  by_cases h : UsableT (b4T s r)
  · obtain ⟨n, d, f, tv, pos, -⟩ := h.fin
    have small := joinLanes_lt 4 ((List.range 4).map fun g => (b4Group (b4Code s r) (b4T s r) (laneRounding s r) g).1)
    rw [List.length_map, List.length_range] at small
    rw [qntMade_b4 b4, qntB4_usable _ _ tv pos, qntWord_data, qntData_scale _ sc]
    exact (Nat.mod_le ..).trans_lt small
  · rw [(qnt_b4_unusable b4 h).1]
    decide

section
variable {n : Bool} {d : Nat} {f : Int} (tv : fmtF32.value (b4T s r) = .fin n d f) (pos : d ≠ 0)
include tv pos

theorem qnt_b4_flags : (qntWord s r (qntMade s r)).flags =
    if (List.range 16).all (fun j => finite (fmtF32.value (b4Code s r j))) then qntCarried s r else qntCarried s r ||| flNV := by
  rw [qntMade_b4 b4, qntB4_usable _ _ tv pos, qntWord_flags, or_flagIf]
  cases (List.range 16).all fun j => finite (fmtF32.value (b4Code s r j)) <;> rfl

/-- R66: the offset of a group in the word of the offsets. -/
theorem qnt_b4_offset (sc : (rowCtx s r).a.data.getLsbD 3 = true) {g : Nat} (hg : g < 4)
    (number : b4Nan (b4Code s r) (b4T s r) g = false) :
    ((laneOf 4 g (qntWord s r (qntMade s r)).data).toNat : Int) = b4Offset (b4Code s r) (b4T s r) g := by
  have lane := laneOf_laneWord (w := 4) (j := g) ((List.range 4).map fun g => (b4Group (b4Code s r) (b4T s r) (laneRounding s r) g).1)
    (by simp) (by simpa using hg)
  have range := b4Offset_range (b4Code s r) (b4T s r) g
  rw [laneWord, List.getElem_map, List.getElem_range, b4Group_number _ _ _ number] at lane
  rw [qntMade_b4 b4, qntB4_usable _ _ tv pos, qntWord_data, qntData_scale _ sc, lane, BitVec.toNat_ofNat]
  omega

/-- R66: an element in the word of the elements. -/
theorem qnt_b4_elem (sc : (rowCtx s r).a.data.getLsbD 3 = false) {g i : Nat} (hg : g < 4) (hi : i < 4) :
    laneOf 4 (4 * g + i) (qntWord s r (qntMade s r)).data =
      BitVec.ofNat 4 (b4Elem (b4Code s r) (b4T s r) (laneRounding s r) g i) := by
  have lane := laneOf_laneWord (w := 4) (j := 4 * g + i)
    ((List.range 16).map fun j => b4Elem (b4Code s r) (b4T s r) (laneRounding s r) (j / 4) (j % 4)) (by simp) (by simp; omega)
  rw [laneWord, List.getElem_map, List.getElem_range, show (4 * g + i) / 4 = g by omega, show (4 * g + i) % 4 = i by omega] at lane
  rw [qntMade_b4 b4, qntB4_usable _ _ tv pos, qntWord_data, qntData_elems _ sc, if_pos b4, lane]

/-- R66: the elements of a group with a NaN. -/
theorem qnt_b4_nan (sc : (rowCtx s r).a.data.getLsbD 3 = false) {g i : Nat} (hg : g < 4) (hi : i < 4)
    (nan : b4Nan (b4Code s r) (b4T s r) g = true) : laneOf 4 (4 * g + i) (qntWord s r (qntMade s r)).data = 0 := by
  rw [qnt_b4_elem b4 tv pos sc hg hi, b4Elem, if_pos nan]
  rfl

section
variable (sc : (rowCtx s r).a.data.getLsbD 3 = false) {g i : Nat} (hg : g < 4) (hi : i < 4)
  (number : b4Nan (b4Code s r) (b4T s r) g = false)
include sc hg hi number

/-- R66, log 17: an infinite value becomes the largest one. -/
theorem qnt_b4_inf {sg : Bool} (value : fmtF32.value (b4Code s r (4 * g + i)) = .inf sg) :
    (laneOf 4 (4 * g + i) (qntWord s r (qntMade s r)).data).toNat = fmtE2M1.signed (sg != n) 7 := by
  rw [qnt_b4_elem b4 tv pos sc hg hi, b4Elem, if_neg (by rw [number]; decide), b4Quot_inf tv value]
  cases sg <;> cases n <;> rfl

/-- R66: a finite value becomes its quotient under the offset, rounded. -/
theorem qnt_b4_finite (short : d < 2 ^ 24) (few : r.aux.toNat ≤ 4) {sg : Bool} {m : Nat} {e : Int}
    (value : fmtF32.value (b4Code s r (4 * g + i)) = .fin sg m e) :
    ∃ fl, RoundsTo fmtE2M1 (clampedLane s r (4 * g + i)) (sg != n)
      (Exact.of (m * (2 : ℚ) ^ e / (d * (2 : ℚ) ^ f) / (2 : ℚ) ^ (b4Offset (b4Code s r) (b4T s r) g - 8)))
      ((laneOf 4 (4 * g + i) (qntWord s r (qntMade s r)).data).toNat, fl) := by
  obtain ⟨mode, draw⟩ := laneRounding_mode (s := s) few (4 * g + i)
  have small : ∀ (k : Nat) (x : Int) (rest : Bool), (fmtE2M1.roundFin (clampedLane s r (4 * g + i)) (sg != n) k x rest).1 < 2 ^ 4 :=
    fun _ _ _ => roundFin_lt (fmts_fit fmtE2M1 (by decide)) ..
  have code : (laneOf 4 (4 * g + i) (qntWord s r (qntMade s r)).data).toNat =
      (fmtE2M1.roundFin (clampedLane s r (4 * g + i)) (sg != n) (m * 2 ^ 64 / d)
        (e - f - 64 - (b4Offset (b4Code s r) (b4T s r) g - 8)) (decide (m * 2 ^ 64 % d ≠ 0))).1 := by
    rw [qnt_b4_elem b4 tv pos sc hg hi, b4Elem, if_neg (by rw [number]; decide), b4Quot_fin tv pos value, qntElem_fin, BitVec.toNat_ofNat,
      ← clampedLane, Nat.mod_eq_of_lt (small ..)]
  exact roundsTo_flags (quotient_rounds e f pos short (sg != n) _ mode draw) code

end

end

end

end Sys2Proof.Proofs
end

section
/-! PROOFS. The rows of the array that sum products and quantize (R378, R379, R385). -/

namespace Sys2Proof.Proofs

open Sys2Proof Sys2Proof.Machine Sys2Proof.Safety Sys2Proof.Laws

/-- R65, R66: a QNT raises NV or nothing. -/
theorem qnt_flags (s : State) (r : Row) : (qntWord s r (qntMade s r)).flags = qntCarried s r ∨
    (qntWord s r (qntMade s r)).flags = qntCarried s r ||| flNV := by
  by_cases b4 : r.mod.toNat = 0xa
  · by_cases usable : UsableT (b4T s r)
    · obtain ⟨n, d, f, tv, pos, -⟩ := usable.fin
      rw [qnt_b4_flags b4 tv pos]
      exact ite_eq_or_eq ..
    · exact .inr (qnt_b4_unusable b4 usable).2
  · rw [qnt_mx_flags b4]
    exact (ite_eq_or_eq ..).symm

theorem isInf_of_finite {x : Fp} (fin : finite x = true) : x.isInf = false := by
  obtain ⟨n, m, e, rfl⟩ := (finite_iff x).1 fin
  rfl

theorem isInf_iff (x : Fp) : x.isInf = true ↔ ∃ n, x = .inf n := by
  cases x <;> simp [Fp.isInf]

section
variable {s : State} {r : Row} (b4 : r.mod.toNat = 0xa) (usable : UsableT (b4T s r)) {g : Nat} (hg : g < 4)
  (number : ¬∃ i < 4, (fmtF32.value (b4Code s r (4 * g + i))).isNan = true) {e : Nat}
  (offset : (∀ i < 4, finite (fmtF32.value (b4Code s r (4 * g + i))) = true) ∧ OffsetOf (fun i =>
      |ratOf (fmtF32.value (b4Code s r (4 * g + i)))| / |ratOf (fmtF32.value (b4T s r))|) e ∨
    (¬∀ i < 4, finite (fmtF32.value (b4Code s r (4 * g + i))) = true) ∧ e = 15)
include usable number offset

/-- R66, log 17: the offset of a group without a NaN. -/
theorem b4Offset_spec : b4Nan (b4Code s r) (b4T s r) g = false ∧ b4Offset (b4Code s r) (b4T s r) g = e := by
  obtain ⟨n, d, f, tv, pos, short⟩ := usable.fin
  have notNan : b4Nan (b4Code s r) (b4T s r) g = false := Bool.eq_false_iff.2 fun h => number ((b4Nan_iff tv pos g).1 h)
  refine ⟨notNan, ?_⟩
  rcases offset with ⟨whole, off⟩ | ⟨special, rfl⟩
  · exact b4Offset_eq tv pos short whole off
  · exact b4Offset_special tv pos notNan special

include b4 hg

theorem qnt_b4_scale_spec (sc : (rowCtx s r).a.data.getLsbD 3 = true) : (laneOf 4 g (qntWord s r (qntMade s r)).data).toNat = e := by
  obtain ⟨n, d, f, tv, pos, -⟩ := usable.fin
  obtain ⟨notNan, value⟩ := b4Offset_spec usable number offset
  exact_mod_cast (qnt_b4_offset b4 tv pos sc hg notNan).trans value

/-- R66: the elements of a group without a NaN. -/
theorem qnt_b4_elem_spec (few : r.aux.toNat ≤ 4) (sc : (rowCtx s r).a.data.getLsbD 3 = false) {i : Nat} (hi : i < 4) :
    let y := fmtF32.value (b4Code s r (4 * g + i))
    let t := fmtF32.value (b4T s r)
    let c := (laneOf 4 (4 * g + i) (qntWord s r (qntMade s r)).data).toNat
    (y.isInf = true → c = fmtE2M1.signed (y.neg != t.neg) 7) ∧
      (finite y = true → ∃ fl, RoundsTo fmtE2M1 (clampedLane s r (4 * g + i)) (y.neg != t.neg)
        (Exact.of (|ratOf y| / |ratOf t| / (2 : ℚ) ^ ((e : Int) - 8))) (c, fl)) := by
  obtain ⟨n, d, f, tv, pos, short⟩ := usable.fin
  obtain ⟨notNan, place⟩ := b4Offset_spec usable number offset
  intro y t c
  refine ⟨fun inf => ?_, fun fin => ?_⟩
  · obtain ⟨sg, value⟩ := (isInf_iff y).1 inf
    rw [value, show t = .fin n d f from tv]
    exact qnt_b4_inf b4 tv pos sc hg hi notNan value
  · obtain ⟨sg, m, x, value⟩ := (finite_iff y).1 fin
    rw [value, show t = .fin n d f from tv, abs_ratOf, abs_ratOf, ← place]
    exact qnt_b4_finite b4 tv pos sc hg hi notNan short few value

end

/-- Settles O47: a DOT firing puts the outputs of `dotOut`, and a QNT the scale or the elements of its block, MXFP8 or B4. -/
theorem dotAndQuantizeRows : Obligations.DotAndQuantizeRows := by
  refine ⟨fun r s => ?_, fun r s fires => ?_⟩
  · intro cx b seen f g n h opened p hp fires sb carried out raised
    exact dots_put r s opened p hp fires
  · obtain ⟨t, run, result⟩ := qnt_puts fires
    obtain ⟨codes, few⟩ := qnt_modAux fires
    have number : ∀ c : BitVec 4, r.mod = c ↔ r.mod.toNat = c.toNat := fun c => BitVec.toNat_inj.symm
    rw [qnt_drawn, newFlags_or] at result
    intro cx ctl sc rows
    have rows_eq : rows = qntRow s r := funext fun m => qntRow_eq m
    clear_value rows
    subst rows_eq
    intro v q b4 tv usable u mag n carried ordinary clamped whole nan
    have count : n = if r.mod.toNat = 0xa then 16 else 8 := if_congr (number 0xa) rfl rfl
    refine ⟨t, qntWord s r (qntMade s r), run, ?_, rfl, rfl, qnt_flags s r, fun mxMod => ?_, fun b4Mod => ?_, fun b4Mod isScale => ?_⟩
    · rw [count]
      exact result
    · have mx : r.mod.toNat ≠ 0xa := fun h => mxMod ((number 0xa).2 h)
      have four : (if r.mod = 4 then 8 else 15 : Int) = if r.mod.toNat = 4 then 8 else 15 := if_congr (number 4) rfl rfl
      refine ⟨fun fin => (qnt_mx_inf mx).2 fun j hj => isInf_of_finite (fin j hj), (qnt_mx_inf mx).1, (qnt_mx_inf mx).2, qnt_mx_zero mx,
        qnt_mx_special mx, ?_⟩
      rw [four]
      intro emax x low up top
      exact ⟨qnt_mx_scale mx low up top, fun isElem k hk sg m e =>
        qnt_mx_elem mx low up top (codes.imp_right fun h => h.resolve_right mx) few isElem hk⟩
    · have b4 : r.mod.toNat = 0xa := (number 0xa).1 b4Mod
      refine ⟨qnt_b4_unusable b4, fun use => ?_⟩
      obtain ⟨_, d, f, value, pos, -⟩ := UsableT.fin use
      refine ⟨qnt_b4_flags b4 value pos, fun g hg => ⟨fun hasNan isElem i hi => ?_, fun noNan e _ offset =>
        ⟨fun isScale => ?_, fun isElem i hi => ?_⟩⟩⟩
      · exact qnt_b4_nan b4 value pos isElem hg hi ((b4Nan_iff value pos g).2 hasNan)
      · exact qnt_b4_scale_spec b4 use hg noNan offset isScale
      · exact qnt_b4_elem_spec b4 use hg noNan offset few isElem hi
    · exact qnt_b4_word ((number 0xa).1 b4Mod) isScale

end Sys2Proof.Proofs
end

section
/-! PROOFS. The sequencer's registers: their values at reset, what a write leaves, and the causes that a sequencer takes. -/

namespace Sys2Proof.Proofs

open Sys2Proof Sys2Proof.Machine Sys2Proof.Safety Sys2Proof.Laws

/-! ### Registers at reset and after a write (R71, R80, R82, R101) -/

/-- R71: a cell with the values of reset. -/
theorem cell_reset (c : Nat) : State.reset.cell c = {} := rfl

/-- Settles O9: no cell of the module after reset is listed, so each is the default one. -/
theorem resetState : Obligations.ResetState := by
  refine ⟨⟨rfl, rfl, fun c x h => nomatch h⟩, fun c => ?_⟩
  rw [cell_reset]
  refine ⟨fun r => ?greg, fun k => ?pval, rfl, rfl, rfl, rfl, rfl, fun p => ?xs, fun k => ?region⟩
  case greg => simp [CellSt.greg]
  case pval => revert k; decide
  case xs => simp
  case region => simp

/-- Settles O10: a write is discarded at number 0, and else it is what is read of its own register. -/
theorem hardWiredRegisters : Obligations.HardWiredRegisters := by
  intro x r r' v k k' b
  refine ⟨rfl, rfl, ?general, ?predicate⟩
  case general =>
    rw [CellSt.gval, greg_setG]
    by_cases same : r' = r
    · subst same
      by_cases zero : r'.val = 0 <;> simp [zero, CellSt.greg, GReg.of]
    · by_cases zero : r'.val = 0 <;> simp [zero, same, CellSt.greg, CellSt.gval]
  case predicate =>
    rw [pval_setP]
    by_cases same : k' = k
    · subst same
      by_cases zero : k'.val = 0 <;> simp [zero, CellSt.pval]
    · by_cases zero : k'.val = 0 <;> simp [zero, same, CellSt.pval]

/-! ### Causes of the sequencer that are not vectored (R81, R161, R181) -/

theorem vectored_iff (x : CellSt) : x.vectored = true ↔ x.seq.trap.vec ≠ 0 ∧ x.seq.intrap = false := by
  simp [CellSt.vectored]

theorem not_vectored_iff (x : CellSt) : x.vectored = false ↔ x.seq.trap.vec = 0 ∨ x.seq.intrap = true := by
  simp [CellSt.vectored, or_iff_not_imp_left]

theorem next_trap (q : Seq) : q.next.1.trap = q.trap := by rw [next_frame]
theorem next_intrap (q : Seq) : q.next.1.intrap = q.intrap := by rw [next_frame]
theorem next_arith (q : Seq) : q.next.1.arith = q.arith := by rw [next_frame]
theorem next_id (q : Seq) : q.next.1.id = q.id := by rw [next_frame]

theorem vectored_advance (s : State) (c : Nat) : ((s.advance c).cell c).vectored = (s.cell c).vectored := by
  simp only [CellSt.vectored, advance_seq, next_trap, next_intrap]

/-- R81: the entry into a trap is no write of memory, whether ARITH is vectored or not. -/
theorem vectorArith_mem (s : State) (c : Nat) : (s.vectorArith c).2.mem = s.mem := by
  unfold State.vectorArith
  dsimp only
  split
  · split
    · exact (trapEntry_spec ..).2.1
    · rfl
  · rfl

theorem kernelFatal_mem (s : State) (c : Nat) (k : Cause) : (s.kernelFatal c k).mem = s.mem := by
  unfold State.kernelFatal
  split
  · rfl
  · unfold State.fatalFor
    dsimp only
    split <;> rfl

/-- R161, R181: a cause that goes to the trap queue writes no memory. -/
theorem seqFault_mem (s : State) (c : Nat) (k : Cause) (pc : VAddr) (w a : Word) (bad : Option ResBad) :
    (s.seqFault c k pc w a bad).mem = s.mem := by
  have taken := vectorArith_mem (s.modCell c fun x => x.runLog 24) c
  unfold State.seqFault
  dsimp only
  split
  · exact (kernelFatal_mem ..).trans taken
  · exact taken

/-- R161, R181: what a cause that goes to the trap queue leaves of the machine's bytes, with an empty operand log and no ARITH due. -/
theorem seqFault_bytes {s : State} {c : Nat} (k : Cause) (pc : VAddr) (w a : Word) (bad : Option ResBad)
    (log : (s.cell c).seq.log = []) (landed : (s.cell c).fpLanded = []) (arith : (s.cell c).seq.arith = none)
    (stop : (s.cell c).stop = none) : SameBytes s (s.seqFault c k pc w a bad) := by
  obtain ⟨cell, others, -, -, -⟩ := seqFault_cell s c k pc w a bad log landed arith stop
  exact sameBytes_of c (seqFault_mem ..) others (by rw [cell])

/-! ### TRAP and BKPT (R340) -/

/-- R81: a cause that is taken after its instruction, and that is not vectored, is one of the sequencer that has advanced. -/
theorem raiseDone_not_vectored {s : State} {c : Nat} (h : (s.cell c).vectored = false) (i : Instr) (cause : Cause) (info : Word) :
    s.raiseDone c i cause false 0 info =
      (s.advance c).seqFault c cause (s.cell c).seq.pc ((wordOf i).setWidth 64) 0 none := by
  unfold State.raiseDone
  simp only [vectored_advance, h, Bool.false_eq_true, if_false]

theorem code_lt (g : Guard) : g.code < 16 := by
  have := g.idx.isLt
  unfold Guard.code
  split <;> omega

/-- R257: the guard is read from the bits that hold its code. -/
theorem guardOf_of_code {n : Nat} {g : Guard} (h : n / 2 ^ 22 % 16 = g.code) : guardOf n = g := by
  obtain ⟨neg, idx⟩ := g
  have small := idx.isLt
  unfold Guard.code at h
  rw [guardOf, Guard.mk.injEq, Fin.ext_iff, Fin.val_ofNat]
  cases neg
  · simp only [Bool.false_eq_true, if_false] at h
    exact ⟨beq_eq_false_iff_ne.2 (by omega), by omega⟩
  · simp only [if_true] at h
    exact ⟨beq_iff_eq.2 (by omega), by omega⟩

/-- R264, R340: the words of TRAP and BKPT, which differ in their D field. -/
theorem decode_trap_bkpt {x : CodeArgs} (wf : x.g.wf = true) {n : Nat} {b : Bool}
    (word : n = 0x12 * 2 ^ 26 + x.g.code * 2 ^ 22 + b.toNat * 2 ^ 17 + x.code.toNat) :
    decode (BitVec.ofNat 32 n) = .ok (if b then .bkpt x else .trap x) := by
  have := code_lt x.g
  have := x.code.isLt
  have := b.toNat_lt
  have major : n / 2 ^ 26 % 64 = 0x12 := by omega
  have named : fldD n = b.toNat := by unfold fldD; omega
  have guard : guardOf n = x.g := guardOf_of_code (by omega)
  have low : BitVec.ofNat 17 n = x.code := BitVec.eq_of_toNat_eq (by rw [BitVec.toNat_ofNat]; omega)
  rw [decode, toNat_ofNat_of_lt (by omega)]
  simp only [decodeNat, major, named, guard, low]
  cases b
  · exact if_pos wf
  · exact if_pos wf

/-- R81, R340: a cause taken after its instruction, with a handler outside any other. -/
theorem raiseDone_vectored {s : State} (i : Instr) (cause : Cause) (info : Word) (vec : (me s).seq.trap.vec ≠ 0)
    (free : (me s).seq.intrap = false) :
    let t := s.raiseDone s.sched.cur i cause false 0 info
    let q := (me s).seq
    (me t).seq = { q.next.1 with
        trap := { vec := q.trap.vec, pc := q.pc, npc := q.next.1.pc, done := true, reg := false, slot := 0, cause := cause,
                  info := info, kind := some .none }
        intrap := true, pc := q.trap.vec, npc := q.trap.vec + 4, slot := .none } ∧
      t.mem = s.mem ∧ t.disp = s.disp ∧ SameBytes s t ∧ Safety.SameUnits (me s) (me t) ∧ Elsewhere s.sched.cur s t := by
  obtain ⟨elsewhere, mem, disp, cell⟩ := raiseDone_spec s s.sched.cur i cause info vec free
  extract_lets t q
  have mine : me t = t.cell s.sched.cur := me_of elsewhere rfl
  refine ⟨by rw [mine, cell]; rfl, mem, disp, sameBytes_of s.sched.cur mem elsewhere.cells (by rw [cell]), ?_, elsewhere⟩
  unfold Safety.SameUnits
  rw [mine, cell]
  rfl

/-- R81, R161, R181, R215: a cause taken after its instruction that is not vectored, with an empty operand log and no ARITH due. -/
theorem raiseDone_fatal {s : State} (i : Instr) {cause : Cause} (info : Word) (fatal : causeClass cause = 0)
    (unvectored : (me s).seq.trap.vec = 0 ∨ (me s).seq.intrap = true) (stop : (me s).stop = none) (log : (me s).seq.log = [])
    (landed : (me s).fpLanded = []) (arith : (me s).seq.arith = none) :
    let t := s.raiseDone s.sched.cur i cause false 0 info
    let q := (me s).seq
    ∃ r, (me t).seq = q.next.1 ∧ SameBytes s t ∧
      (me t).stop = some { code := cause, cycle := s.sys.cycle + (if (me s).fired then 1 else 0), atSeq := true } ∧
      (t.fn q.id.vfid.toNat).found = (s.fn q.id.vfid.toNat).found ++ [r] ∧ r.cause = cause ∧ r.cls = 0 ∧
      r.vf = q.id.vfid ∧ r.cell = BitVec.ofNat 15 s.sched.cur ∧ r.pc = q.pc ∧ r.opword = (wordOf i).setWidth 64 := by
  obtain ⟨elsewhere, mem, -, advanced⟩ := advance_spec s s.sched.cur
  generalize ran : s.advance s.sched.cur = u at elsewhere mem advanced
  have seq : (u.cell s.sched.cur).seq = (me s).seq.next.1 := by rw [advanced]; rfl
  have ulog : (u.cell s.sched.cur).seq.log = [] := by rw [seq, next_log, log]
  have ulanded : (u.cell s.sched.cur).fpLanded = [] := by rw [advanced]; exact landed
  have uarith : (u.cell s.sched.cur).seq.arith = none := by rw [seq, next_arith, arith]
  have ustop : (u.cell s.sched.cur).stop = none := by rw [advanced]; exact stop
  rw [raiseDone_not_vectored ((not_vectored_iff _).2 unvectored), ran]
  obtain ⟨cell, others, cur, -, -⟩ :=
    seqFault_cell u s.sched.cur cause (me s).seq.pc ((wordOf i).setWidth 64) 0 none ulog ulanded uarith ustop
  obtain ⟨v, run, fns, -, -⟩ := seqFault_fatal (me s).seq.pc ((wordOf i).setWidth 64) 0 fatal ulog ulanded uarith
  have fmem := seqFault_mem u s.sched.cur cause (me s).seq.pc ((wordOf i).setWidth 64) 0 none
  intro t q
  change t.cell _ = _ at cell
  change t.sched.cur = _ at cur
  have mine : me t = t.cell s.sched.cur := by rw [me, cur, elsewhere.sched]
  refine ⟨{ u.cellRecord s.sched.cur cause 0 with pc := q.pc, opword := (wordOf i).setWidth 64, addr := 0 }, ?seq, ?bytes, ?stop,
    ?found, rfl, rfl, ?vf, rfl, rfl, rfl⟩
  case seq => rw [mine, cell]; exact seq
  case bytes =>
    refine sameBytes_of s.sched.cur (fmem.trans mem) (fun n hn => (others n hn).trans (elsewhere.cells n hn)) ?_
    show (t.cell _).spad = _
    rw [cell, advanced]
  case stop => rw [mine, cell, elsewhere.sys, advanced]; rfl
  case found =>
    have vf : (u.cell s.sched.cur).seq.id = q.id := by rw [seq, next_id]
    have tfns : t.fns = _ := (congrArg State.fns run).trans ((kernelFatal_fns v _ _).trans fns)
    rw [State.fn, tfns, vf]
    refine (congrArg Fn.found (fn_modFn u _ _)).trans ?_
    simp only [State.fn, elsewhere.fns, q]
  case vf => exact (congrArg (·.id.vfid) seq).trans (congrArg Ident.vfid (next_id _))

/-- Settles O22: TRAP and BKPT are one cause each, taken after its instruction, vectored or not. -/
theorem softwareTraps : Obligations.SoftwareTraps := by
  refine ⟨by decide, by decide, fun x wf => ⟨decode_trap_bkpt wf (b := false) (by simp),
    decode_trap_bkpt wf (b := true) (by simp)⟩, fun p hp x s ready => ?_⟩
  intro q
  have run : exec (p.1 x) s = .next (s.raiseDone s.sched.cur (p.1 x) p.2 false 0 (x.code.setWidth 64)) := by
    obtain rfl | rfl : p = (Instr.trap, cSwTrap) ∨ p = (Instr.bkpt, cBkpt) := by simpa using hp
    · exact exec_ready (execTrap x s) rfl rfl ready
    · exact exec_ready (execBkpt x s) rfl rfl ready
  have fatal : causeClass p.2 = 0 := by
    obtain rfl | rfl : p = (Instr.trap, cSwTrap) ∨ p = (Instr.bkpt, cBkpt) := by simpa using hp
    · decide
    · decide
  refine ⟨fun vec free => ⟨_, run, raiseDone_vectored _ _ _ vec free⟩, fun unvectored stop log landed arith => ?_⟩
  obtain ⟨r, made⟩ := raiseDone_fatal (p.1 x) (x.code.setWidth 64) fatal unvectored stop log landed arith
  exact ⟨_, r, run, made⟩

/-! ### Precise causes, and TRET (R81, R342) -/

/-- R81: MISALIGN, with a handler outside any other, is taken before the instruction has any effect. -/
theorem raise_vectored {s : State} (i : Instr) (info : Word) (vec : (me s).seq.trap.vec ≠ 0) (free : (me s).seq.intrap = false) :
    let t := s.raise s.sched.cur i cMisalign info
    let q := (me s).seq
    (me t).seq = { q with
        trap := { vec := q.trap.vec, pc := q.pc, npc := q.npc, done := false, reg := false, slot := 0, cause := cMisalign,
                  info := info, kind := some q.slot }
        intrap := true, pc := q.trap.vec, npc := q.trap.vec + 4, slot := .none } ∧
      t.mem = s.mem ∧ SameBytes s t ∧ Safety.SameUnits (me s) (me t) := by
  have taken : s.raise s.sched.cur i cMisalign info =
      s.trapEntry s.sched.cur cMisalign false false 0 info (me s).seq.pc (me s).seq.npc :=
    if_pos ⟨.inl rfl, (vectored_iff _).2 ⟨vec, free⟩⟩
  obtain ⟨elsewhere, mem, -, cell⟩ :=
    trapEntry_spec s s.sched.cur cMisalign false false 0 info (me s).seq.pc (me s).seq.npc
  rw [taken]
  extract_lets t q
  have mine : me t = t.cell s.sched.cur := me_of elsewhere rfl
  refine ⟨by rw [mine, cell]; rfl, mem, sameBytes_of s.sched.cur mem elsewhere.cells (by rw [cell]), ?_⟩
  unfold Safety.SameUnits
  rw [mine, cell]
  rfl

/-- R81: a precise cause that is not vectored. -/
theorem raise_not_vectored {s : State} {c : Nat} {cause : Cause}
    (h : (cause ≠ cMisalign ∧ cause ≠ cArith) ∨ (s.cell c).vectored = false) (i : Instr) (info : Word) :
    s.raise c i cause info = s.seqFault c cause (s.cell c).seq.pc ((wordOf i).setWidth 64) info none := by
  refine if_neg fun ⟨named, vectored⟩ => ?_
  rcases h with ⟨misalign, arith⟩ | unvectored
  · exact named.elim misalign arith
  · rw [unvectored] at vectored
    contradiction

/-- R81, R161: a precise cause that is not vectored stops the cell, with an empty operand log and no ARITH due. -/
theorem raise_stops {s : State} (i : Instr) {cause : Cause} (info : Word)
    (unvectored : (cause ≠ cMisalign ∧ cause ≠ cArith) ∨ (me s).seq.trap.vec = 0 ∨ (me s).seq.intrap = true)
    (log : (me s).seq.log = []) (landed : (me s).fpLanded = []) (arith : (me s).seq.arith = none) (stop : (me s).stop = none) :
    let t := s.raise s.sched.cur i cause info
    (me t).stop = some { code := cause, cycle := s.sys.cycle + (if (me s).fired then 1 else 0), atSeq := true } ∧
      (me t).seq = (me s).seq ∧ SameBytes s t := by
  obtain ⟨cell, -, cur, -, -⟩ :=
    seqFault_cell s s.sched.cur cause (me s).seq.pc ((wordOf i).setWidth 64) info none log landed arith stop
  have bytes := seqFault_bytes cause (me s).seq.pc ((wordOf i).setWidth 64) info none log landed arith stop
  rw [raise_not_vectored (unvectored.imp_right (not_vectored_iff _).2)]
  extract_lets t
  change t.cell _ = _ at cell
  have mine : me t = t.cell s.sched.cur := by rw [me, show t.sched.cur = _ from cur]
  exact ⟨by rw [mine, cell]; rfl, by rw [mine, cell]; rfl, bytes⟩

/-- R81, R342: what a return from a handler does. -/
theorem trapReturn_spec (s : State) :
    let t := s.trapReturn s.sched.cur
    let q := (me s).seq
    (me t).seq.intrap = false ∧ (me t).seq.trap = q.trap ∧
      (q.trap.done = true → (me t).seq.pc = q.trap.npc ∧ (me t).seq.npc = q.trap.npc + 4) ∧
      (q.trap.done = false → (me t).seq.pc = q.trap.pc ∧ (me t).seq.npc = q.trap.npc) ∧
      KeptRegs s t ∧ t.mem = s.mem ∧ t.disp = s.disp ∧ SameBytes s t ∧ Safety.SameUnits (me s) (me t) := by
  extract_lets t q
  let dest := if q.trap.done then (q.trap.npc, q.trap.npc + 4) else (q.trap.pc, q.trap.npc)
  obtain ⟨u, traced, made⟩ : ∃ u, TraceOnly s.sched.cur s u ∧ t = u.modCell s.sched.cur fun y =>
      { y with seq := { y.seq with intrap := false, pc := dest.1, npc := dest.2, slot := q.trap.slotKind } }.issuedNow :=
    ⟨_, traceOnly_trans (traceOnly_emit s s.sched.cur 0x3 ((me s).ofs dest.1)) (traceOnly_emit _ _ 0x3 ((me s).ofs dest.2)), rfl⟩
  have elsewhere : Elsewhere s.sched.cur s t := made ▸ elsewhere_trans traced.elsewhere (elsewhere_modCell ..)
  have mem : t.mem = s.mem := made ▸ traced.mem
  have cell : me t = { me s with
      seq := { q with intrap := false, pc := dest.1, npc := dest.2, slot := q.trap.slotKind }
      freeze := .none, hold := [], issued := true, trace := (me t).trace, events := (me t).events } := by
    rw [me_of elsewhere rfl, made, cell_modCell, traced.cell]
    rfl
  refine ⟨by rw [cell], by rw [cell], fun done => ?_, fun done => ?_, ⟨by rw [cell], by rw [cell], by rw [cell]⟩, mem,
    made ▸ traced.disp, sameBytes_of s.sched.cur mem elsewhere.cells ?_, ?_⟩
  · rw [cell]
    exact ⟨congrArg Prod.fst (if_pos done), congrArg Prod.snd (if_pos done)⟩
  · rw [cell]
    have other : dest = (q.trap.pc, q.trap.npc) := if_neg (by simp [done])
    exact ⟨congrArg Prod.fst other, congrArg Prod.snd other⟩
  · rw [← me_of elsewhere rfl, cell]
    rfl
  · unfold Safety.SameUnits
    rw [cell]

/-- Settles O23: a precise cause is vectored or stops the cell; TRET is the return, or a precise cause of its own. -/
theorem preciseCausesAndReturn : Obligations.PreciseCausesAndReturn := by
  refine ⟨fun s i cause info => ⟨?vectored, raise_stops i info⟩, by decide, fun g s ready => ?tret⟩
  case vectored =>
    rintro rfl vec free
    exact raise_vectored i info vec free
  case tret =>
    have run := exec_ready (execTret g s) rfl rfl ready
    refine ⟨fun handler => ⟨_, run.trans (congrArg Host.Outcome.next (if_pos handler)), trapReturn_spec s⟩, fun outside => ?_⟩
    exact run.trans (congrArg Host.Outcome.next (if_neg (by simpa [me] using outside)))

end Sys2Proof.Proofs
end

section
/-! PROOFS. CRD and CWR: the fields of the control registers, and what a register reads after a write (R77 to R87, R343). -/

namespace Sys2Proof.Proofs

open Sys2Proof Sys2Proof.Machine Sys2Proof.Safety Sys2Proof.Laws

/-! ### Fields of a control register (R79 to R86) -/

theorem bit_eq_toNat (b : Bool) : bit b = b.toNat := by cases b <;> rfl

theorem bit_getLsbD {w : Nat} (v : BitVec w) (i : Nat) : bit (v.getLsbD i) = v.toNat / 2 ^ i % 2 := by
  rw [bit_eq_toNat, BitVec.getLsbD, Nat.toNat_testBit]

theorem bit_le (b : Bool) : bit b ≤ 1 := by cases b <;> decide

/-- A mask of two parts keeps the bits of each. -/
theorem and_split (v : Nat) {k m r : Nat} (low : r < 2 ^ k) :
    v &&& (2 ^ k * m + r) = 2 ^ k * (v / 2 ^ k &&& m) + (v % 2 ^ k &&& r) := by
  apply Nat.eq_of_testBit_eq
  intro i
  rw [Nat.testBit_two_pow_mul_add _ (lt_of_le_of_lt Nat.and_le_right low), Nat.testBit_and,
    Nat.testBit_two_pow_mul_add _ low]
  split <;> rename_i h
  · rw [Nat.testBit_and, Nat.testBit_mod_two_pow, decide_eq_true h, Bool.true_and]
  · rw [Nat.testBit_and, Nat.testBit_div_two_pow, Nat.sub_add_cancel (Nat.not_lt.1 h)]

theorem and_ones (v k : Nat) : v &&& (2 ^ k - 1) = v % 2 ^ k := Nat.and_two_pow_sub_one_eq_mod v k

section
variable (v : Word)

/-- R80, R82, R85: the bits that a mask keeps, as the fields that they are. -/
theorem and_wordAddr : (v &&& 0xfffffffffffc).toNat = 4 * (v.toNat / 4 % 2 ^ 46) := by
  have split := and_split v.toNat (k := 2) (m := 2 ^ 46 - 1) (r := 0) (by decide)
  rw [and_ones, Nat.and_zero] at split
  exact split

theorem and_causeWord : (v &&& 0xfff).toNat = v.toNat % 2 ^ 12 := and_ones v.toNat 12

theorem and_fflags : (v &&& 0xf0f).toNat = 2 ^ 8 * (v.toNat / 2 ^ 8 % 16) + v.toNat % 2 ^ 8 % 16 := by
  have split := and_split v.toNat (k := 8) (m := 2 ^ 4 - 1) (r := 2 ^ 4 - 1) (by decide)
  rw [and_ones, and_ones] at split
  exact split

theorem and_rmode : (v &&& 0xb).toNat = 2 ^ 3 * (v.toNat / 2 ^ 3 % 2) + v.toNat % 2 ^ 3 % 4 := by
  have split := and_split v.toNat (k := 3) (m := 2 ^ 1 - 1) (r := 2 ^ 2 - 1) (by decide)
  rw [and_ones, and_ones] at split
  exact split

theorem and_errinj : (v &&& 0x1f3d).toNat =
    2 ^ 8 * (v.toNat / 2 ^ 8 % 32) + (2 ^ 2 * (v.toNat % 2 ^ 8 / 2 ^ 2 % 16) + v.toNat % 2 ^ 8 % 2 ^ 2 % 2) := by
  have split := and_split v.toNat (k := 8) (m := 2 ^ 5 - 1) (r := 2 ^ 2 * (2 ^ 4 - 1) + (2 ^ 1 - 1)) (by decide)
  rw [and_ones, and_split (v.toNat % 2 ^ 8) (by decide), and_ones, and_ones] at split
  exact split

/-! ### What a written register reads as (R77, R78, R80, R82, R85, R86) -/

theorem wordAddr_toNat : (wordAddr v).toNat = 4 * (v.toNat / 4 % 2 ^ 46) := by
  simp only [wordAddr, BitVec.toNat_shiftLeft, BitVec.toNat_ushiftRight, BitVec.toNat_setWidth, Nat.shiftLeft_eq,
    Nat.shiftRight_eq_div_pow]
  omega

theorem wordAddr_reads : (wordAddr v).setWidth 64 = v &&& 0xfffffffffffc := by
  apply BitVec.eq_of_toNat_eq
  rw [and_wordAddr, BitVec.toNat_setWidth, wordAddr_toNat]
  omega

theorem withCause_reads (t : TrapRegs) : (t.withCause v).causeWord = v &&& 0xfff := by
  apply BitVec.eq_of_toNat_eq
  rw [and_causeWord]
  simp only [TrapRegs.causeWord, TrapRegs.withCause, bit_getLsbD, wbits_toNat, BitVec.toNat_ofNat, BitVec.toNat_setWidth]
  omega

theorem withFlags_reads (f : FpRegs) : (f.withFlags v).fflags = v &&& 0xf0f := by
  apply BitVec.eq_of_toNat_eq
  rw [and_fflags]
  simp only [FpRegs.fflags, FpRegs.withFlags, wbits_toNat, BitVec.toNat_ofNat]
  omega

theorem withMode_reads (f : FpRegs) : (f.withMode v).rmode = v &&& 0xb := by
  apply BitVec.eq_of_toNat_eq
  rw [and_rmode]
  simp only [FpRegs.rmode, FpRegs.withMode, bit_getLsbD, wbits_toNat, BitVec.toNat_ofNat]
  omega

theorem errInjOf_reads : (errInjOf v).word = v &&& 0x1f3d := by
  have high : v.toNat / 2 ^ 8 % 32 = v.toNat / 2 ^ 8 % 16 + 16 * (v.toNat / 2 ^ 12 % 2) := by omega
  have middle : v.toNat % 2 ^ 8 / 2 ^ 2 % 16 = v.toNat / 2 ^ 2 % 4 + 4 * (v.toNat / 2 ^ 4 % 4) := by omega
  have low : v.toNat % 2 ^ 8 % 2 ^ 2 % 2 = v.toNat / 2 ^ 0 % 2 := by omega
  apply BitVec.eq_of_toNat_eq
  rw [and_errinj, high, middle, low]
  simp only [ErrInj.word, errInjOf, bit_getLsbD, wbits_toNat, BitVec.toNat_ofNat, Nat.reduceAdd, Nat.reduceSub, Nat.mod_mod]
  have sum (a b c d e : Nat) (ha : a < 2) (hb : b < 4) (hc : c < 4) (hd : d < 16) (he : e < 2) :
      (a + 4 * b + 16 * c + 256 * d + 4096 * e) % 2 ^ 64 = 2 ^ 8 * (d + 16 * e) + (2 ^ 2 * (b + 4 * c) + a) := by omega
  exact sum _ _ _ _ _ (Nat.mod_lt _ (by decide)) (Nat.mod_lt _ (by decide)) (Nat.mod_lt _ (by decide))
    (Nat.mod_lt _ (by decide)) (Nat.mod_lt _ (by decide))

/-- R86: of TRACECTL, FN is not written. -/
theorem traceCtl_reads (q : Seq) : ({ q with traceEn := v.getLsbD 0, traceMark := v.getLsbD 1 } : Seq).traceCtl =
    (v &&& 3) ||| (q.traceCtl &&& 0x100) := by
  have old : (q.traceCtl &&& 0x100).toNat = 2 ^ 8 * q.traceFn.toNat := by
    have split := and_split q.traceCtl.toNat (k := 8) (m := 2 ^ 1 - 1) (r := 0) (by decide)
    rw [and_ones, Nat.and_zero] at split
    refine split.trans ?_
    have := bit_le q.traceEn
    have := bit_le q.traceMark
    have := q.traceFn.toNat_lt
    simp only [Seq.traceCtl, bit_eq_toNat q.traceFn, BitVec.toNat_ofNat]
    omega
  apply BitVec.eq_of_toNat_eq
  rw [BitVec.toNat_or, old, show (v &&& 3).toNat = v.toNat % 2 ^ 2 from and_ones v.toNat 2, Nat.or_comm,
    ← Nat.two_pow_add_eq_or_of_lt (by omega)]
  have := q.traceFn.toNat_lt
  simp only [Seq.traceCtl, bit_getLsbD, bit_eq_toNat q.traceFn, BitVec.toNat_ofNat]
  omega

end

/-! ### Where the fields of a control register stand (R79 to R86) -/

theorem slotBits_le (x : CellSt) (f : Region → Bool) : x.slotBits f ≤ 15 := by
  have := bit_le (f x.region[0])
  have := bit_le (f x.region[1])
  have := bit_le (f x.region[2])
  have := bit_le (f x.region[3])
  unfold CellSt.slotBits
  omega

theorem busy_eq : Region.busy = fun g => g.state == .running || g.state == .held := rfl

/-- R79: STATUS, whose field for the operand log holds the length of a log of at most eight entries. -/
theorem status_toNat {x : CellSt} (few : x.seq.log.length ≤ 8) : x.status.toNat =
    bit x.seq.intrap + 2 * bit x.seq.fw + 4 * bit x.seq.testm + 16 * x.seq.lact.toNat + 256 * x.slotBits Region.busy +
      4096 * x.slotBits (·.conf) + 65536 * x.seq.log.length := by
  have := bit_le x.seq.intrap
  have := bit_le x.seq.fw
  have := bit_le x.seq.testm
  have := x.seq.lact.isLt
  have := slotBits_le x Region.busy
  have := slotBits_le x (·.conf)
  exact toNat_ofNat_of_lt (by omega)

theorem causeWord_toNat (t : TrapRegs) :
    t.causeWord.toNat = t.cause.toNat + 256 * t.slot.toNat + 1024 * bit t.reg + 2048 * bit t.done := by
  have := t.cause.isLt
  have := t.slot.isLt
  have := bit_le t.reg
  have := bit_le t.done
  exact toNat_ofNat_of_lt (by omega)

theorem fflags_toNat (f : FpRegs) : f.fflags.toNat = f.sticky.toNat + 256 * f.enable.toNat := by
  have := f.sticky.isLt
  have := f.enable.isLt
  exact toNat_ofNat_of_lt (by omega)

theorem rmode_toNat (f : FpRegs) : f.rmode.toNat = f.mode.toNat + 8 * bit f.ftz := by
  have := f.mode.isLt
  have := bit_le f.ftz
  exact toNat_ofNat_of_lt (by omega)

theorem traceCtl_toNat (q : Seq) : q.traceCtl.toNat = bit q.traceEn + 2 * bit q.traceMark + 256 * bit q.traceFn := by
  have := bit_le q.traceEn
  have := bit_le q.traceMark
  have := bit_le q.traceFn
  exact toNat_ofNat_of_lt (by omega)

theorem errInj_toNat (e : ErrInj) :
    e.word.toNat = bit e.arm + 4 * e.pe.toNat + 16 * e.lane.toNat + 256 * e.cls.toNat + 4096 * bit e.seq := by
  have := bit_le e.arm
  have := e.pe.isLt
  have := e.lane.isLt
  have := e.cls.isLt
  have := bit_le e.seq
  exact toNat_ofNat_of_lt (by omega)

/-- R83: GANG0 holds the origin and the rank. -/
theorem gang0_toNat (i : Ident) :
    (BitVec.ofNat 64 (i.origin.toNat + i.rank.toNat * 2 ^ 32)).toNat = i.origin.toNat + i.rank.toNat * 2 ^ 32 := by
  have := i.origin.isLt
  have := i.rank.isLt
  exact toNat_ofNat_of_lt (by omega)

/-! ### CWR (R78, R343) -/

/-- R77, R78: what a write of a control register changes of the sequencer. -/
theorem ctlWrite_frame (q : Seq) (n : Nat) (v : Word) : q.ctlWrite n v = { q with
    intrap := (q.ctlWrite n v).intrap, trap := (q.ctlWrite n v).trap, fp := (q.ctlWrite n v).fp,
    traceEn := (q.ctlWrite n v).traceEn, traceMark := (q.ctlWrite n v).traceMark, errinj := (q.ctlWrite n v).errinj } := by
  unfold Seq.ctlWrite
  split <;> rfl

section
variable (q : Seq) (i : Bool) (t : TrapRegs) (f : FpRegs) (en mark : Bool) (e : ErrInj)

/-- R296: loop ends and the next word do not depend on what CWR writes. -/
theorem loopEnd_written (a : VAddr) (n : Nat) : ∀ q : Seq,
    ({ q with intrap := i, trap := t, fp := f, traceEn := en, traceMark := mark, errinj := e } : Seq).loopEnd a n =
      ({ (q.loopEnd a n).1 with intrap := i, trap := t, fp := f, traceEn := en, traceMark := mark, errinj := e },
        (q.loopEnd a n).2) := by
  induction n with
  | zero => exact fun _ => rfl
  | succ n ih =>
    intro q
    simp only [Seq.loopEnd]
    split
    · split
      · rfl
      · let l := q.loops[(Fin.ofNat 4 n).val]
        exact congrArg (fun z : Seq × Option VAddr × List Bool => (z.1, z.2.1, false :: z.2.2)) (ih { q with
          loops := q.loops.set (Fin.ofNat 4 n).val { l with lc := l.lc - 1 }, lact := setBit q.lact n false })
    · exact ih q

theorem next_written :
    ({ q with intrap := i, trap := t, fp := f, traceEn := en, traceMark := mark, errinj := e } : Seq).next.1 =
      { q.next.1 with intrap := i, trap := t, fp := f, traceEn := en, traceMark := mark, errinj := e } := by
  unfold Seq.next
  dsimp only
  split
  · rfl
  · rw [loopEnd_written]

end

theorem next_ctlWrite (q : Seq) (n : Nat) (v : Word) : (q.ctlWrite n v).next.1 = { q.next.1 with
    intrap := (q.ctlWrite n v).intrap, trap := (q.ctlWrite n v).trap, fp := (q.ctlWrite n v).fp,
    traceEn := (q.ctlWrite n v).traceEn, traceMark := (q.ctlWrite n v).traceMark, errinj := (q.ctlWrite n v).errinj } :=
  (congrArg (fun q : Seq => q.next.1) (ctlWrite_frame q n v)).trans (next_written ..)

theorem traceOnly_traceWrite (s : State) (c : Nat) (v : Word) : TraceOnly c s (s.traceWrite c v) := by
  unfold State.traceWrite
  dsimp only
  split
  · exact traceOnly_trans (traceOnly_emit ..) (traceOnly_modCell _ c _ fun _ => rfl)
  · exact traceOnly_modCell _ c _ fun _ => rfl

/-- R87: FATAL as firmware writes it; no other number is a register of the function. -/
def fatalWritten (s : State) (c n : Nat) (v : Word) : State :=
  if n = 0x021 then s.modFn (s.cell c).seq.id.vfid.toNat fun f => { f with fatal := v &&& 0xc0000fff007fffff } else s

/-- What a write of a control register does that is allowed and not rejected. -/
structure CtlWritten (s t : State) (n : Nat) (v : Word) : Prop where
  seq : (me t).seq = ((me s).seq.ctlWrite n v).next.1
  thawed : (me t).freeze = .none
  cells : ∀ c, c ≠ s.sched.cur → t.cell c = s.cell c
  spad : (t.cell s.sched.cur).spad = (me s).spad
  mem : t.mem = s.mem
  fns : t.fns = (fatalWritten s s.sched.cur n v).fns
  sched : t.sched = s.sched

theorem cwr_written {x : CtlArgs} {s : State} (ready : Ready s (.cwr x) x.g [x.r])
    (allowed : ctlPriv (me s).seq x.n.toNat = false) (taken : ctlRejects x.n.toNat ((me s).gval x.r) = false) :
    ∃ t, exec (.cwr x) s = .next t ∧ CtlWritten s t x.n.toNat ((me s).gval x.r) := by
  have run := exec_ready (execCwr x s) rfl rfl ready
  let n := x.n.toNat
  let v := (me s).gval x.r
  let c := s.sched.cur
  let traced := if n = 0x008 then s.traceWrite c v else s
  have only : TraceOnly c s traced := by
    unfold traced
    split
    · exact traceOnly_traceWrite s c v
    · exact traceOnly_refl c s
  let u := if n = 0x021 then traced.modFn (me s).seq.id.vfid.toNat fun f => { f with fatal := v &&& 0xc0000fff007fffff } else traced
  have made : exec (.cwr x) s = .next ((u.modCell c fun y => { y with seq := y.seq.ctlWrite n v }).advance c) := by
    refine run.trans (congrArg Host.Outcome.next ?_)
    refine (if_neg (by rw [Bool.not_eq_true]; exact allowed)).trans (if_neg (by rw [Bool.not_eq_true]; exact taken))
  have uCells : u.cells = traced.cells := by unfold u; split <;> rfl
  have uMem : u.mem = traced.mem := by unfold u; split <;> rfl
  have uSched : u.sched = traced.sched := by unfold u; split <;> rfl
  have uFns : u.fns = (fatalWritten s c n v).fns := by
    unfold u fatalWritten
    split
    · simp only [modFn_fns, State.fn, only.elsewhere.fns]
      rfl
    · exact only.elsewhere.fns
  have uCell (k : Nat) : u.cell k = traced.cell k := by simp only [State.cell, uCells]
  have advanced := advance_spec (u.modCell c fun y => { y with seq := y.seq.ctlWrite n v }) c
  generalize (u.modCell c fun y => { y with seq := y.seq.ctlWrite n v }).advance c = t at made advanced
  obtain ⟨elsewhere, mem, -, cell⟩ := advanced
  have sched : t.sched = s.sched := elsewhere.sched.trans (uSched.trans only.elsewhere.sched)
  have mine : me t = t.cell c := by rw [me, sched]
  rw [cell_modCell, uCell, only.cell] at cell
  refine ⟨t, made, ?seq, ?thawed, fun k hk => ?cells, ?spad, mem.trans (uMem.trans only.mem), elsewhere.fns.trans uFns, sched⟩
  case seq => rw [mine, cell]; rfl
  case thawed => rw [mine, cell]
  case cells => rw [elsewhere.cells k hk, cell_modCell_ne _ _ hk, uCell, only.elsewhere.cells k hk]
  case spad => exact (congrArg CellSt.spad cell).trans rfl

section
variable {s t : State} {n : Nat} {v : Word} (w : CtlWritten s t n v)
include w

theorem CtlWritten.cell : t.cell s.sched.cur = me t := by rw [me, w.sched]

/-- R78: what a write leaves of the sequencer's registers. -/
theorem CtlWritten.fields : (me t).seq = { (me s).seq.next.1 with
    intrap := ((me s).seq.ctlWrite n v).intrap, trap := ((me s).seq.ctlWrite n v).trap, fp := ((me s).seq.ctlWrite n v).fp,
    traceEn := ((me s).seq.ctlWrite n v).traceEn, traceMark := ((me s).seq.ctlWrite n v).traceMark,
    errinj := ((me s).seq.ctlWrite n v).errinj } := w.seq.trans (next_ctlWrite ..)

theorem CtlWritten.movedOn : MovedOn s t := ⟨w.cells, by rw [w.fields], by rw [w.fields], w.thawed⟩

theorem CtlWritten.greg (r : Reg) : (me t).greg r = (me s).greg r := by
  simp only [CellSt.greg, w.fields, next_g]

theorem CtlWritten.bytes : SameBytes s t := sameBytes_of s.sched.cur w.mem w.cells w.spad

end

section
variable {s t : State} {v : Word}

/-- R78, R80: each of the writable registers reads the value under its mask. -/
theorem reads_trapvec (w : CtlWritten s t 0x001 v) : t.ctlRead s.sched.cur 0x001 = v &&& 0xfffffffffffc := by
  simp only [State.ctlRead, w.cell, w.fields]
  exact wordAddr_reads v

theorem reads_trappc (w : CtlWritten s t 0x002 v) : t.ctlRead s.sched.cur 0x002 = v &&& 0xfffffffffffc := by
  simp only [State.ctlRead, w.cell, w.fields]
  exact wordAddr_reads v

theorem reads_trapnpc (w : CtlWritten s t 0x003 v) : t.ctlRead s.sched.cur 0x003 = v &&& 0xfffffffffffc := by
  simp only [State.ctlRead, w.cell, w.fields]
  exact wordAddr_reads v

theorem reads_trapcause (w : CtlWritten s t 0x004 v) : t.ctlRead s.sched.cur 0x004 = v &&& 0xfff := by
  simp only [State.ctlRead, w.cell, w.fields]
  exact withCause_reads v _

theorem reads_trapinfo (w : CtlWritten s t 0x005 v) : t.ctlRead s.sched.cur 0x005 = v &&& 0xffffffffffffffff := by
  simp only [State.ctlRead, w.cell, w.fields]
  exact (BitVec.and_allOnes (x := v)).symm

theorem reads_fflags (w : CtlWritten s t 0x006 v) : t.ctlRead s.sched.cur 0x006 = v &&& 0xf0f := by
  simp only [State.ctlRead, w.cell, w.fields]
  exact withFlags_reads v _

theorem reads_rmode (w : CtlWritten s t 0x007 v) : t.ctlRead s.sched.cur 0x007 = v &&& 0xb := by
  simp only [State.ctlRead, w.cell, w.fields]
  exact withMode_reads v _

theorem reads_tracectl (w : CtlWritten s t 0x008 v) :
    t.ctlRead s.sched.cur 0x008 = v &&& 3 ||| s.ctlRead s.sched.cur 0x008 &&& 0x100 := by
  have fn : (me s).seq.next.1.traceFn = (me s).seq.traceFn := by rw [next_frame]
  refine Eq.trans ?_ (traceCtl_reads v (me s).seq)
  simp only [State.ctlRead, w.cell, w.fields, Seq.traceCtl, fn]
  rfl

theorem reads_errinj (w : CtlWritten s t 0x020 v) : t.ctlRead s.sched.cur 0x020 = v &&& 0x1f3d := by
  simp only [State.ctlRead, w.cell, w.fields]
  exact errInjOf_reads v

theorem reads_fatal (w : CtlWritten s t 0x021 v) : t.ctlRead s.sched.cur 0x021 = v &&& 0xc0000fff007fffff := by
  simp only [State.ctlRead, w.cell, w.fields, next_id, State.fn, w.fns, fatalWritten, if_true]
  exact congrArg Fn.fatal (fn_modFn s _ _)

end

/-- R77, R78, R343: a write that is allowed and not rejected reads back, and moves on. -/
theorem cwr_reads {x : CtlArgs} {s : State} (ready : Ready s (.cwr x) x.g [x.r]) {n : Nat} (named : x.n.toNat = n)
    (allowed : ctlPriv (me s).seq n = false) (taken : ctlRejects n ((me s).gval x.r) = false) {r : Word}
    (reads : ∀ t, CtlWritten s t n ((me s).gval x.r) → t.ctlRead s.sched.cur n = r) :
    ∃ t, exec (.cwr x) s = .next t ∧ MovedOn s t ∧ t.ctlRead s.sched.cur n = r ∧
      (∀ r, (me t).greg r = (me s).greg r) ∧ t.mem = s.mem ∧ SameBytes s t := by
  subst named
  obtain ⟨t, run, w⟩ := cwr_written ready allowed taken
  exact ⟨t, run, w.movedOn, reads t w, w.greg, w.mem, w.bytes⟩

/-- R78: a write that is not allowed is PRIV. -/
theorem cwr_priv {x : CtlArgs} {s : State} (ready : Ready s (.cwr x) x.g [x.r])
    (barred : ctlPriv (me s).seq x.n.toNat = true) : exec (.cwr x) s = .next (s.raise s.sched.cur (.cwr x) cPriv 0) :=
  (exec_ready (execCwr x s) rfl rfl ready).trans (congrArg Host.Outcome.next (if_pos barred))

/-- R55, R85: an allowed write of a reserved code is ILL_OPERAND. -/
theorem cwr_rejected {x : CtlArgs} {s : State} (ready : Ready s (.cwr x) x.g [x.r])
    (allowed : ctlPriv (me s).seq x.n.toNat = false) (rejected : ctlRejects x.n.toNat ((me s).gval x.r) = true) :
    exec (.cwr x) s = .next (s.raise s.sched.cur (.cwr x) cIllOperand 0) :=
  (exec_ready (execCwr x s) rfl rfl ready).trans (congrArg Host.Outcome.next
    ((if_neg (by rw [Bool.not_eq_true]; exact allowed)).trans (if_pos rejected)))

/-- R77, R343: CRD writes what its register reads. -/
theorem crd_reads {x : CtlArgs} {s : State} (ready : Ready s (.crd x) x.g []) (allowed : x.n ≠ 0x021 ∨ (me s).seq.fw = true) :
    ∃ t, exec (.crd x) s = .next t ∧ Wrote s t x.r (s.ctlRead s.sched.cur x.n.toNat) := by
  refine ⟨_, (exec_ready (execCrd x s) rfl rfl ready).trans (congrArg Host.Outcome.next (if_neg ?_)), write1_wrote s x.r fun _ => _⟩
  rintro ⟨fatal, other⟩
  rcases allowed with named | firmware
  · exact named (BitVec.eq_of_toNat_eq fatal)
  · rw [show (s.cell s.sched.cur).seq.fw = true from firmware] at other
    contradiction

theorem crd_priv {x : CtlArgs} {s : State} (ready : Ready s (.crd x) x.g []) (fatal : x.n = 0x021) (other : (me s).seq.fw = false) :
    exec (.crd x) s = .next (s.raise s.sched.cur (.crd x) cPriv 0) :=
  (exec_ready (execCrd x s) rfl rfl ready).trans (congrArg Host.Outcome.next
    (if_pos ⟨congrArg BitVec.toNat fatal, by rw [show (s.cell s.sched.cur).seq.fw = false from other]; rfl⟩))

/-- R78, R85: ERRINJ is written in test mode and by firmware. -/
theorem ctlPriv_errinj (q : Seq) : ctlPriv q 0x020 = !(q.testm || q.fw) := rfl

/-- R78, R87: FATAL is written by firmware. -/
theorem ctlPriv_fatal (q : Seq) : ctlPriv q 0x021 = !q.fw := rfl

/-- R55: RMODE takes the codes below 4. -/
theorem ctlRejects_rmode (v : Word) : ctlRejects 0x007 v = true ↔ 4 ≤ v.toNat % 8 := by
  simp [ctlRejects, wbits_toNat]

/-- R85: ERRINJ takes the classes below 13. -/
theorem ctlRejects_errinj (v : Word) : ctlRejects 0x020 v = true ↔ 13 ≤ v.toNat / 256 % 16 := by
  simp only [ctlRejects, wbits_toNat]
  exact decide_eq_true_iff

/-- Settles O25: CRD reads and CWR writes one register of a table, each by the lemmas above. -/
theorem controlRegisters : Obligations.ControlRegisters := by
  refine ⟨fun x s ready _ => ⟨crd_reads ready, crd_priv ready⟩, fun s c => ?layout, fun x s ready => ?cwr⟩
  case layout =>
    intro x q r per
    have slots (f : Region → Bool) : per f = x.slotBits f := by simp only [per, CellSt.slotBits, bit_eq_toNat]
    have yreq : bit q.yreq ≤ 1 := bit_le q.yreq
    clear_value per
    simp only [slots, ← bit_eq_toNat]
    refine ⟨status_toNat, ⟨rfl, rfl, rfl, causeWord_toNat _, rfl, fflags_toNat _, rmode_toNat _, traceCtl_toNat _⟩,
      ⟨rfl, rfl, rfl, gang0_toNat _, rfl, rfl, rfl, rfl, toNat_ofNat_of_lt (lt_of_le_of_lt yreq (by decide)), rfl, fun j => ?_⟩,
      errInj_toNat _, rfl⟩
    fin_cases j <;> rfl
  case cwr =>
    intro v c masks
    have unlocked (allowed : (me s).seq.testm = true ∨ (me s).seq.fw = true) : ctlPriv (me s).seq 0x020 = false := by
      rw [ctlPriv_errinj]
      simpa [or_iff_not_imp_left] using allowed
    refine ⟨fun m hm named mode inject firmware => ?masks, fun status => ?status, fun rmode high => ?rmode,
      fun low high => ?readOnly, fun errinj test fw => ?noInject, fun errinj high allowed => ?reservedClass,
      fun fatal fw => ?noFatal⟩
    case masks =>
      simp only [masks, List.mem_cons, List.not_mem_nil, or_false] at hm
      have number (n : Nat) (h : x.n.toNat = n) (small : n < 2 ^ 12) : x.n = BitVec.ofNat 12 n :=
        BitVec.eq_of_toNat_eq (h.trans (toNat_ofNat_of_lt small).symm)
      rcases hm with rfl | rfl | rfl | rfl | rfl | rfl | rfl | rfl | rfl | rfl
      · exact cwr_reads ready named rfl rfl fun t w => (reads_trapvec w).trans BitVec.or_zero.symm
      · exact cwr_reads ready named rfl rfl fun t w => (reads_trappc w).trans BitVec.or_zero.symm
      · exact cwr_reads ready named rfl rfl fun t w => (reads_trapnpc w).trans BitVec.or_zero.symm
      · exact cwr_reads ready named rfl rfl fun t w => (reads_trapcause w).trans BitVec.or_zero.symm
      · exact cwr_reads ready named rfl rfl fun t w => (reads_trapinfo w).trans BitVec.or_zero.symm
      · exact cwr_reads ready named rfl rfl fun t w => (reads_fflags w).trans BitVec.or_zero.symm
      · have low := mode (number _ named (by decide))
        have taken : ctlRejects 0x007 v = false := Bool.eq_false_iff.2 fun h => by have := (ctlRejects_rmode v).1 h; omega
        exact cwr_reads ready named rfl taken fun t w => (reads_rmode w).trans BitVec.or_zero.symm
      · exact cwr_reads ready named rfl rfl fun t w => reads_tracectl w
      · obtain ⟨low, allowed⟩ := inject (number _ named (by decide))
        have taken : ctlRejects 0x020 v = false := Bool.eq_false_iff.2 fun h => by have := (ctlRejects_errinj v).1 h; omega
        exact cwr_reads ready named (unlocked allowed) taken fun t w => (reads_errinj w).trans BitVec.or_zero.symm
      · have allowed : ctlPriv (me s).seq 0x021 = false := by
          rw [ctlPriv_fatal, firmware (number _ named (by decide))]
          rfl
        exact cwr_reads ready named allowed rfl fun t w => (reads_fatal w).trans BitVec.or_zero.symm
    case status =>
      have named : x.n.toNat = 0 := congrArg BitVec.toNat status
      obtain ⟨t, run, w⟩ := cwr_written ready (by rw [named]; rfl) (by rw [named]; rfl)
      refine ⟨t, run, ?_, w.mem, w.bytes⟩
      rw [named] at w
      rw [w.fields, next_frame]
      rfl
    case rmode =>
      have named : x.n.toNat = 0x007 := congrArg BitVec.toNat rmode
      exact cwr_rejected ready (by rw [named]; rfl) (by rw [named]; exact (ctlRejects_rmode v).2 high)
    case readOnly =>
      refine cwr_priv ready ?_
      unfold ctlPriv
      rw [if_neg (by omega), if_neg (by omega), if_neg (by omega)]
    case noInject =>
      refine cwr_priv ready ?_
      rw [show x.n.toNat = 0x020 from congrArg BitVec.toNat errinj, ctlPriv_errinj, test, fw]
      rfl
    case reservedClass =>
      have named : x.n.toNat = 0x020 := congrArg BitVec.toNat errinj
      exact cwr_rejected ready (by rw [named]; exact unlocked allowed)
        (by rw [named]; exact (ctlRejects_errinj v).2 high)
    case noFatal =>
      refine cwr_priv ready ?_
      rw [show x.n.toNat = 0x021 from congrArg BitVec.toNat fatal, ctlPriv_fatal, fw]
      rfl

end Sys2Proof.Proofs
end

section
/-! PROOFS. The events of a function: the mailbox and the journal, resets, and the answers to trap records (R87, R184, R185, R194 to
R197, R214 to R217, R236, R237). -/

namespace Sys2Proof.Proofs

open Sys2Proof Sys2Proof.Machine Sys2Proof.Safety Sys2Proof.Laws

/-! ### Commits (R194, R195) -/

/-- R195: a commit that finds room is the newest entry of the journal. -/
theorem commit_room {s : State} (room : s.disp.journal.length < 256) (vf : Fin 64) (r0 r1 r2 : Word) (auto : Bool) :
    let t := s.commit vf r0 r1 r2 auto
    t.disp.journal = s.disp.journal ++ [{ seq := s.disp.seqNo + 1, vf := vf, r0 := r0, r1 := r1, r2 := r2, auto := auto }] ∧
      t.disp.seqNo = s.disp.seqNo + 1 ∧
      t.fn vf.val = { s.fn vf.val with mbox := { (s.fn vf.val).mbox with seq := s.disp.seqNo + 1, dropped := false } } ∧
      t.cells = s.cells ∧ t.mem = s.mem := by
  simp only [State.commit, if_neg (Nat.not_le.2 room)]
  exact ⟨rfl, rfl, fn_modFn _ _ _, rfl, rfl⟩

/-- R195: a commit that finds the journal full is lost and counted. -/
theorem commit_full {s : State} (full : 256 ≤ s.disp.journal.length) (vf : Fin 64) (r0 r1 r2 : Word) (auto : Bool) :
    let t := s.commit vf r0 r1 r2 auto
    t.disp = s.disp ∧ (t.fn vf.val).mbox =
      { (s.fn vf.val).mbox with ovfcnt := satInc (s.fn vf.val).mbox.ovfcnt, ovf := true, dropped := true } := by
  simp only [State.commit, if_pos full]
  exact ⟨rfl, mbox_modMbox s vf.val _⟩

/-- R194: the five requests that MBDOOR commits, by the code that MBREQ0 holds. -/
theorem door_commits {vf : Fin 64} {s : State} {i : Instr} (ready : s.sys.bootDone = true ∨ vf = 0) :
    let req := (s.fn vf.val).mbox.req
    let code := (req[0]).toNat / 2 ^ 56
    (i = .create vf ∧ code = 1 ∨ i = .destroy vf ∧ code = 2 ∨ i = .reset vf ∧ code = 3 ∨ i = .flr vf ∧ code = 4 ∨
      i = .unknownCodeRequest vf ∧ (code = 0 ∨ 4 < code)) → exec i s = .next (s.commit vf req[0] req[1] req[2] false) := by
  intro req code named
  have answers : s.answers vf = true := by simpa [State.answers] using ready
  have read : s.mbCode vf = code := by
    rw [State.mbCode, wbits_toNat]
    exact Nat.mod_eq_of_lt (by omega)
  have opens (p : Nat → Bool) (h : p code = true) : s.door vf p = s.commit vf req[0] req[1] req[2] false :=
    if_pos (by rw [read, h, answers]; rfl)
  obtain ⟨rfl, h⟩ | ⟨rfl, h⟩ | ⟨rfl, h⟩ | ⟨rfl, h⟩ | ⟨rfl, h⟩ := named
  · exact congrArg Host.Outcome.next (opens _ (by simp [h]))
  · exact congrArg Host.Outcome.next (opens _ (by simp [h]))
  · exact congrArg Host.Outcome.next (opens _ (by simp [h]))
  · exact congrArg Host.Outcome.next (opens _ (by simp [h]))
  · exact congrArg Host.Outcome.next (opens _ (by simpa using h))

/-- R194, R197: a CXL.io reset of a virtual function commits an FLR on its behalf, which is not done. -/
theorem cxlIoFlr_commits {vf : Fin 64} {s : State} (virtual : vf ≠ 0) (ready : s.sys.bootDone = true)
    (room : s.disp.journal.length < 256) : ∃ t, exec (.cxlIoFlr vf) s = .next t ∧ t.disp.journal = s.disp.journal ++
        [{ seq := s.disp.seqNo + 1, vf := vf, r0 := BitVec.ofNat 64 (4 * 2 ^ 56 + vf.val), r1 := 0, r2 := 0, auto := true }] ∧
      (t.fn vf.val).flrDone = false := by
  let u := s.modFn vf.val fun f => { f with flrDone := false }
  have run : exec (.cxlIoFlr vf) s = .next (u.commit vf (numWord (4 * 2 ^ 56 + vf.val)) 0 0 true) :=
    congrArg Host.Outcome.next (if_neg (by simpa [ready] using virtual))
  obtain ⟨journal, -, fn, -, -⟩ := commit_room (s := u) room vf (numWord (4 * 2 ^ 56 + vf.val)) 0 0 true
  refine ⟨_, run, journal, ?_⟩
  rw [fn]
  exact congrArg Fn.flrDone (fn_modFn s _ _)

/-! ### What a store by the module leaves of the cells, the functions and the queues (R129, R182) -/

/-- No cell, function or queue differs. -/
structure MemoryOnly (s t : State) : Prop where
  cells : t.cells = s.cells
  fns : t.fns = s.fns
  disp : t.disp = s.disp

theorem memoryOnly_refl (s : State) : MemoryOnly s s := ⟨rfl, rfl, rfl⟩

theorem MemoryOnly.trans {s t u : State} (h : MemoryOnly s t) (k : MemoryOnly t u) : MemoryOnly s u :=
  ⟨k.cells.trans h.cells, k.fns.trans h.fns, k.disp.trans h.disp⟩

theorem memoryOnly_readGran (s : State) (g : Nat) (p : BitVec 8) : MemoryOnly s (s.readGran g p) := by
  unfold State.readGran
  dsimp only
  split
  · exact memoryOnly_refl s
  · split <;> exact ⟨rfl, rfl, rfl⟩

theorem memoryOnly_spoilLine (s : State) (n : Nat) (b : BitVec 2) : MemoryOnly s (s.spoilLine n b) := by
  unfold State.spoilLine
  dsimp only
  split <;> split <;> exact ⟨rfl, rfl, rfl⟩

theorem memoryOnly_checkDram (s : State) (n : Nat) (p : BitVec 8) : MemoryOnly s (s.checkDram n p) := by
  unfold State.checkDram
  split
  · exact memoryOnly_refl s
  · exact (memoryOnly_spoilLine s n 3).trans ⟨rfl, rfl, rfl⟩

theorem memoryOnly_readDram (s : State) (n : Nat) (p : BitVec 8) : MemoryOnly s (s.readDram n p) :=
  ((memoryOnly_readGran s _ 7).trans (memoryOnly_readGran _ _ 7)).trans (memoryOnly_checkDram _ n p)

theorem memoryOnly_fillLine (s : State) (n : Nat) : MemoryOnly s (s.fillLine n) := by
  have read := memoryOnly_readDram s n 2
  exact ⟨(setLls_cells ..).trans read.cells, (setLls_fns ..).trans read.fns, (setLls_disp ..).trans read.disp⟩

theorem memoryOnly_countLls (k : Nat) : ∀ s : State, MemoryOnly s (s.countLls k) := by
  induction k with
  | zero => exact memoryOnly_refl
  | succ k ih =>
    intro s
    have rest := ih { s with mem := { s.mem with ecLls := satInc s.mem.ecLls } }
    exact ⟨rest.cells, rest.fns, rest.disp⟩

theorem memoryOnly_soundLine (s : State) (n : Nat) (skip : BitVec 8) : MemoryOnly s (s.soundLine n skip) := by
  unfold State.soundLine
  split
  · exact memoryOnly_refl s
  next l _ =>
    split
    · have again := (memoryOnly_fillLine { s with mem := { s.mem with lls := terase s.mem.lls n } } n).trans (memoryOnly_countLls 1 _)
      exact ⟨again.cells, again.fns, again.disp⟩
    · split
      · exact memoryOnly_refl s
      · have counted := memoryOnly_countLls (popN 8 (l.soft &&& ~~~skip).toNat) (s.setLls n { l with soft := 0 })
        exact ⟨counted.cells, counted.fns, counted.disp⟩

theorem memoryOnly_dramWrite (s : State) (n : Nat) (mask : BitVec 128) (data : Line) (bad : BitVec 2) :
    MemoryOnly s (s.dramWrite n mask data bad) := by
  have read (s : State) (b : Bool) (g : Nat) : MemoryOnly s (if b then s else s.readGran g 7) := by
    split
    · exact memoryOnly_refl s
    · exact memoryOnly_readGran s g 7
  have both := (read s ((wholeGrans mask).getLsbD 0) (2 * n)).trans (read _ ((wholeGrans mask).getLsbD 1) (2 * n + 1))
  obtain ⟨cells, fns, -, -, -⟩ := dramWrite_spec s n mask data bad
  exact ⟨cells, fns, (setGran_disp ..).trans ((setGran_disp ..).trans both.disp)⟩

/-- R182: no cell or function differs, and of a queue at most what the records of it have seen of the words that they wait for. -/
structure Watched (s t : State) : Prop where
  cells : t.cells = s.cells
  fns : t.fns = s.fns
  disp : t.disp = { s.disp with queues := t.disp.queues }
  queue : ∀ k, ∃ f, tget {} t.disp.queues k = { tget {} s.disp.queues k with recs := (tget {} s.disp.queues k).recs.map f }

theorem Watched.trans {s t u : State} (h : Watched s t) (k : Watched t u) : Watched s u where
  cells := k.cells.trans h.cells
  fns := k.fns.trans h.fns
  disp := by rw [k.disp, h.disp]
  queue n := by
    obtain ⟨f, hf⟩ := h.queue n
    obtain ⟨g, hg⟩ := k.queue n
    exact ⟨g ∘ f, by rw [hg, hf, List.map_map]⟩

theorem MemoryOnly.watched {s t : State} (h : MemoryOnly s t) : Watched s t :=
  ⟨h.cells, h.fns, by rw [h.disp], fun k => ⟨id, by rw [h.disp, List.map_id]⟩⟩

theorem watched_watch (s : State) (host : Bool) (n : Nat) : Watched s (s.watch host n) :=
  ⟨rfl, rfl, rfl, fun k => ⟨Rec.reexamine s host n,
    tget_map {} (fun _ q => { q with recs := q.recs.map (Rec.reexamine s host n) }) k rfl s.disp.queues⟩⟩

theorem watched_acceptWrite (s : State) (n : Nat) (mask : BitVec 128) (data : Line) (vf : Option (Fin 64)) (cbit : Bool)
    (bad : BitVec 2) : Watched s (s.acceptWrite n mask data vf cbit bad) := by
  have after (u : State) : Watched u (u.afterWrite n mask) := by
    unfold State.afterWrite
    dsimp only
    split
    · exact (watched_watch u false n).trans ⟨rfl, rfl, rfl, fun k => ⟨id, by rw [List.map_id]; rfl⟩⟩
    · exact watched_watch u false n
  refine Watched.trans (MemoryOnly.watched ((memoryOnly_soundLine s n (wholeUnits mask)).trans ?_)) (after _)
  split
  · exact ⟨rfl, rfl, rfl⟩
  · split
    · exact ⟨rfl, rfl, rfl⟩
    · exact memoryOnly_dramWrite ..

theorem watched_zeroLines (n : Nat) : ∀ (s : State) (a : Nat), Watched s (s.zeroLines a n) := by
  induction n with
  | zero => exact fun s _ => (memoryOnly_refl s).watched
  | succ n ih =>
    intro s a
    unfold State.zeroLines
    generalize BitVec.allOnes 128 = mask
    exact (watched_acceptWrite s a mask 0 none false 0).trans (ih ..)

theorem watched_zeroRing (s : State) (f : Fn) (x : Queue) : Watched s (s.zeroRing f x) := by
  unfold State.zeroRing
  split
  · exact (memoryOnly_refl s).watched
  · exact watched_zeroLines ..

/-! ### Stopping what belongs to a queue or a function (R196, R197, R237) -/

/-- R196: a queue that is being reset, its records gone. -/
def stopped (x : Queue) : Queue := { x with state := .resetting, recs := [], resv := false }

/-- R196, R197: queues begin their reset or stay as they are, functions begin theirs or stay in their state, and nothing of the journal
differs. -/
structure Stops (s t : State) : Prop where
  queue : ∀ k, tget {} t.disp.queues k = tget {} s.disp.queues k ∨ tget {} t.disp.queues k = stopped (tget {} s.disp.queues k)
  state : ∀ n, (t.fn n).state = (s.fn n).state ∨ (t.fn n).state = .resetting
  flrseq : ∀ n, (t.fn n).flrseq = (s.fn n).flrseq
  disabling : ∀ n, (t.fn n).disabling = (s.fn n).disabling
  journal : t.disp.journal = s.disp.journal
  consumed : t.disp.consumed = s.disp.consumed

/-- A change of neither the functions nor of what the journal and the queues hold. -/
theorem stops_of {s t : State} (fns : t.fns = s.fns) (queues : t.disp.queues = s.disp.queues)
    (journal : t.disp.journal = s.disp.journal) (consumed : t.disp.consumed = s.disp.consumed) : Stops s t :=
  have fn (n : Nat) : t.fn n = s.fn n := by rw [State.fn, fns]; rfl
  ⟨fun k => .inl (by rw [queues]), fun n => .inl (by rw [fn]), fun n => by rw [fn], fun n => by rw [fn], journal, consumed⟩

theorem stops_refl (s : State) : Stops s s := stops_of rfl rfl rfl rfl

theorem Stops.trans {s t u : State} (h : Stops s t) (k : Stops t u) : Stops s u where
  queue n := by
    rcases h.queue n with same | began <;> rcases k.queue n with same' | began'
    · exact .inl (same'.trans same)
    · exact .inr (began'.trans (congrArg stopped same))
    · exact .inr (same'.trans began)
    · exact .inr (by rw [began', began]; rfl)
  state n := (k.state n).elim (fun same => (h.state n).imp same.trans same.trans) .inr
  flrseq n := (k.flrseq n).trans (h.flrseq n)
  disabling n := (k.disabling n).trans (h.disabling n)
  journal := k.journal.trans h.journal
  consumed := k.consumed.trans h.consumed

/-- A queue that is being reset, its records gone, stays so. -/
theorem Stops.keeps_queue {s t : State} (h : Stops s t) {k : Nat} (now : stopped (tget {} s.disp.queues k) = tget {} s.disp.queues k) :
    tget {} t.disp.queues k = tget {} s.disp.queues k := (h.queue k).elim id fun began => began.trans now

theorem Stops.keeps_state {s t : State} (h : Stops s t) {n : Nat} (now : (s.fn n).state = .resetting) :
    (t.fn n).state = .resetting := (h.state n).elim (fun same => same.trans now) id

section
variable {α : Type} {R : State → State → Prop} {f : State → α → State} (refl : ∀ s, R s s)
  (trans : ∀ {s t u}, R s t → R t u → R s u) (step : ∀ s a, R s (f s a))
include refl trans step

/-- Several steps keep a relation that each of them keeps. -/
theorem related_foldl (l : List α) : ∀ s : State, R s (l.foldl f s) := by
  induction l with
  | nil => exact refl
  | cons a l ih => exact fun s => trans (step s a) (ih _)

/-- What each of several steps brings about, and no later one undoes. -/
theorem made_foldl {P : α → State → Prop} (made : ∀ s a, P a (f s a)) (kept : ∀ a s t, R s t → P a s → P a t) (l : List α) :
    ∀ s : State, ∀ a ∈ l, P a (l.foldl f s) := by
  induction l with
  | nil => exact fun _ _ h => nomatch h
  | cons a l ih =>
    intro s b hb
    rcases List.mem_cons.1 hb with rfl | hb
    · exact kept _ _ _ (related_foldl refl trans step l _) (made s b)
    · exact ih _ b hb
end

theorem stops_foldl {α : Type} {f : State → α → State} (step : ∀ s a, Stops s (f s a)) (l : List α) (s : State) :
    Stops s (l.foldl f s) := related_foldl stops_refl Stops.trans step l s

theorem stops_floodPairs (s : State) (ps : List (BitVec 16 × BitVec 32)) : Stops s (s.floodPairs ps) := by
  have flit (g : BitVec 16) (r : BitVec 32) (s : State) (p : Fin 32) :
      Stops s (if (s.port p).state = .up then s.sendFlits p [abortFlit g r] else s) := by
    split
    · exact stops_of rfl rfl rfl rfl
    · exact stops_refl s
  unfold State.floodPairs
  refine stops_foldl (fun s p => ?_) ps.eraseDups s
  have noted : Stops s (s.recordAbort p.1 p.2) := stops_of rfl rfl rfl rfl
  exact noted.trans (stops_foldl (flit p.1 p.2) (List.finRange 32) _)

theorem stops_dropRecords (s : State) (vf : Fin 64) (n : Nat) : Stops s (s.dropRecords vf n) := by
  have fn (v : Nat) : ((s.dropRecords vf n).fn v).state = (s.fn v).state ∧ ((s.dropRecords vf n).fn v).flrseq = (s.fn v).flrseq ∧
      ((s.dropRecords vf n).fn v).disabling = (s.fn v).disabling := by
    by_cases same : v = vf.val
    · subst same
      simp only [State.dropRecords, fn_modFn, and_self]
    · simp only [State.dropRecords, fn_modFn_ne _ _ same, and_self]
  exact ⟨fun _ => .inl rfl, fun v => .inl (fn v).1, fun v => (fn v).2.1, fun v => (fn v).2.2, rfl, rfl⟩

theorem stops_killGang (s : State) (flr : Bool) (n : Nat) (g : Gang) : Stops s (s.killGang flr n g) := by
  have dropped : Stops s ((if g.state = .held then s.floodPairs (s.framePairs n g) else s).dropRecords g.vf n) := by
    refine Stops.trans ?_ (stops_dropRecords ..)
    split
    · exact stops_floodPairs ..
    · exact stops_refl s
  have kill (s : State) (c : Nat) : Stops s (if s.isOf n c then s.killCell flr c else s) := by
    split
    · exact stops_of rfl rfl rfl rfl
    · exact stops_refl s
  unfold State.killGang
  dsimp only
  generalize (if g.state = .held then s.floodPairs (s.framePairs n g) else s).dropRecords g.vf n = u at dropped ⊢
  split
  · exact (dropped.trans (stops_foldl kill g.cells _)).trans (stops_of rfl rfl rfl rfl)
  · exact dropped.trans (stops_of rfl rfl rfl rfl)

/-- R196, steps 1 to 3: the reset of a queue begins. -/
theorem stopQueue_spec (s : State) (vf : Fin 64) (flr : Bool) (q : BitVec 8) : Stops s (s.stopQueue vf flr q) ∧
    (s.stopQueue vf flr q).queue vf q = stopped (s.queue vf q) := by
  let u := (s.dropClaims vf q).modQueue vf q fun x => { x with state := .resetting, recs := [], resv := false }
  have begun : Stops s u := by
    refine ⟨fun k => ?_, fun _ => .inl rfl, fun _ => rfl, fun _ => rfl, rfl, rfl⟩
    by_cases same : k = qkey vf q
    · subst same
      exact .inr (tget_tset_self ..)
    · exact .inl (tget_tset_ne _ _ _ same)
  have here : u.queue vf q = stopped (s.queue vf q) := queue_modQueue ..
  have killed : Stops u (s.stopQueue vf flr q) := by
    refine stops_foldl (f := fun s (p : Nat × Gang) => if p.2.vf = vf ∧ p.2.q = q then s.killGang flr p.1 p.2 else s) (fun s p => ?_) _ u
    split
    · exact stops_killGang ..
    · exact stops_refl s
  exact ⟨begun.trans killed, (killed.keeps_queue (by rw [← State.queue, here]; rfl)).trans here⟩

/-- A queue that is being reset, its records gone. -/
def IsStopped (vf : Fin 64) (q : BitVec 8) (s : State) : Prop := stopped (s.queue vf q) = s.queue vf q

theorem IsStopped.spec {vf : Fin 64} {q : BitVec 8} {s : State} (h : IsStopped vf q s) :
    (s.queue vf q).state = .resetting ∧ (s.queue vf q).recs = [] :=
  ⟨(congrArg Queue.state h).symm, (congrArg Queue.recs h).symm⟩

theorem isStopped_stopQueue (s : State) (vf : Fin 64) (flr : Bool) (q : BitVec 8) : IsStopped vf q (s.stopQueue vf flr q) := by
  rw [IsStopped, (stopQueue_spec s vf flr q).2]
  rfl

theorem Stops.keeps_stopped {s t : State} (h : Stops s t) {vf : Fin 64} {q : BitVec 8} (now : IsStopped vf q s) : IsStopped vf q t := by
  rw [IsStopped, State.queue, h.keeps_queue now]
  exact now

/-- A queue that is not FREE is listed. -/
theorem listed_of_not_free {t : Tab Queue} {k : Nat} (live : (tget {} t k).state ≠ .free) : (k, tget {} t k) ∈ t := by
  induction t with
  | nil => exact absurd rfl live
  | cons e t ih =>
    obtain ⟨j, x⟩ := e
    simp only [tget] at live ⊢
    split at live
    · subst_vars
      rw [if_pos rfl]
      exact List.mem_cons_self
    next other =>
      rw [if_neg other]
      exact List.mem_cons_of_mem _ (ih live)

theorem qkey_div (vf : Fin 64) (q : BitVec 8) : qkey vf q / 256 = vf.val := by
  have small := q.isLt
  unfold qkey
  omega

theorem ofNat_qkey (vf : Fin 64) (q : BitVec 8) : BitVec.ofNat 8 (qkey vf q) = q := by
  have small := q.isLt
  refine BitVec.eq_of_toNat_eq ?_
  rw [BitVec.toNat_ofNat]
  unfold qkey
  omega

/-- R196: the queues of a function that are not FREE. -/
theorem mem_liveQueues {s : State} {vf : Fin 64} {q : BitVec 8} (live : (s.queue vf q).state ≠ .free) : q ∈ s.liveQueues vf :=
  List.mem_filterMap.2 ⟨_, listed_of_not_free live,
    (if_pos ⟨qkey_div vf q, live⟩).trans (congrArg some (ofNat_qkey vf q))⟩

/-- R197, steps 1 to 3, R237: the reset of a function begins. -/
theorem stopFunction_spec (s : State) (vf : Fin 64) : Stops s (s.stopFunction vf) ∧ ((s.stopFunction vf).fn vf.val).state = .resetting ∧
    ∀ q, (s.queue vf q).state ≠ .free → IsStopped vf q (s.stopFunction vf) := by
  let u := s.modFn vf.val fun f => { f with state := .resetting }
  have here : u.fn vf.val = { s.fn vf.val with state := .resetting } := fn_modFn ..
  have begun : Stops s u := by
    refine ⟨fun _ => .inl rfl, fun n => ?_, fun n => ?_, fun n => ?_, rfl, rfl⟩ <;> by_cases same : n = vf.val
    · subst same
      exact .inr (by rw [here])
    · exact .inl (by rw [fn_modFn_ne _ _ same])
    · subst same
      rw [here]
    · rw [fn_modFn_ne _ _ same]
    · subst same
      rw [here]
    · rw [fn_modFn_ne _ _ same]
  have stop (s : State) (q : BitVec 8) := (stopQueue_spec s vf true q).1
  have rest : Stops u (s.stopFunction vf) := stops_foldl stop _ u
  refine ⟨begun.trans rest, rest.keeps_state (by rw [here]), fun q live => ?_⟩
  exact made_foldl stops_refl Stops.trans (P := fun q => IsStopped vf q) stop (fun s q => isStopped_stopQueue s vf true q)
    (fun q s t h => h.keeps_stopped) (s.liveQueues vf) u q (mem_liveQueues live)

/-- R237: an ENABLED or FROZEN function is reset, and is DISABLED after it. -/
theorem functionDisable_stops {vf : Fin 64} {s : State} (on : (s.fn vf.val).state = .enabled ∨ (s.fn vf.val).state = .frozen) :
    ∃ t, exec (.functionDisable vf) s = .next t ∧ (t.fn vf.val).state = .resetting ∧ (t.fn vf.val).disabling = true ∧
      ∀ q, (s.queue vf q).state ≠ .free → (t.queue vf q).state = .resetting ∧ (t.queue vf q).recs = [] := by
  let u := s.modFn vf.val fun f => { f with disabling := true }
  obtain ⟨stops, resetting, queues⟩ := stopFunction_spec u vf
  have asked : (u.fn vf.val).disabling = true := by rw [fn_modFn]
  have run : exec (.functionDisable vf) s = .next (u.stopFunction vf) := by
    show execFunctionDisable vf s = _
    obtain h | h := on <;> rw [execFunctionDisable, h]
  exact ⟨_, run, resetting, (stops.disabling _).trans asked, fun q live => (queues q live).spec⟩

/-- R195: a restart takes the reset of a queue up again. -/
def resumeQueue (s : State) (p : Nat × Queue) : State :=
  if p.2.state = .resetting ∧ p.2.drain ≠ none then s.stopQueue (Fin.ofNat 64 (p.1 / 256)) false (BitVec.ofNat 8 p.1) else s

/-- R195: a restart takes the reset of a function up again. -/
def resumeFunction (s : State) (vf : Fin 64) : State := if (s.fn vf.val).state = .resetting then s.stopFunction vf else s

theorem exec_firmwareRestart (s : State) :
    exec .firmwareRestart s = .next ((List.finRange 64).foldl resumeFunction (s.disp.queues.foldl resumeQueue s)) := rfl

theorem stops_resumeQueue (s : State) (p : Nat × Queue) : Stops s (resumeQueue s p) := by
  unfold resumeQueue
  split
  · exact (stopQueue_spec ..).1
  · exact stops_refl s

theorem stops_resumeFunction (s : State) (vf : Fin 64) : Stops s (resumeFunction s vf) := by
  unfold resumeFunction
  split
  · exact (stopFunction_spec ..).1
  · exact stops_refl s

/-- R195: a listed queue whose reset was under way is RESETTING, its records gone. -/
def Resumed (p : Nat × Queue) (t : State) : Prop :=
  p.2.state = .resetting ∧ p.2.drain ≠ none → IsStopped (Fin.ofNat 64 (p.1 / 256)) (BitVec.ofNat 8 p.1) t

theorem resumed_resumeQueue (s : State) (p : Nat × Queue) : Resumed p (resumeQueue s p) := by
  intro due
  rw [resumeQueue, if_pos due]
  exact isStopped_stopQueue ..

theorem Resumed.keeps {p : Nat × Queue} {s t : State} (h : Stops s t) (was : Resumed p s) : Resumed p t :=
  fun due => h.keeps_stopped (was due)

/-- R195: each queue whose reset was under way is RESETTING again, its records gone. -/
theorem isStopped_resumeQueues {s : State} {vf : Fin 64} {q : BitVec 8} (now : (s.queue vf q).state = .resetting)
    (asked : (s.queue vf q).drain ≠ none) : IsStopped vf q (s.disp.queues.foldl resumeQueue s) := by
  have listed : (qkey vf q, s.queue vf q) ∈ s.disp.queues := listed_of_not_free (by rw [← State.queue, now]; decide)
  have begun : Resumed (qkey vf q, s.queue vf q) (s.disp.queues.foldl resumeQueue s) :=
    made_foldl stops_refl Stops.trans stops_resumeQueue resumed_resumeQueue (fun _ _ _ => Resumed.keeps) s.disp.queues s _ listed
  have vfRead : Fin.ofNat 64 (qkey vf q / 256) = vf := Fin.ext (by rw [qkey_div]; exact Nat.mod_eq_of_lt vf.isLt)
  have again := begun ⟨now, asked⟩
  rwa [vfRead, ofNat_qkey] at again

/-- R195: what a restart of firmware finds RESETTING, it takes up again. -/
theorem firmwareRestart_resumes (s : State) : ∃ t, exec .firmwareRestart s = .next t ∧ t.disp.journal = s.disp.journal ∧
    t.disp.consumed = s.disp.consumed ∧
    (∀ vf : Fin 64, (s.fn vf.val).state = .resetting → (t.fn vf.val).state = .resetting) ∧
    ∀ vf q, (s.queue vf q).state = .resetting → (s.queue vf q).drain ≠ none →
      (t.queue vf q).state = .resetting ∧ (t.queue vf q).recs = [] := by
  refine ⟨_, exec_firmwareRestart s, ?_⟩
  generalize List.finRange 64 = vfs
  have rest := stops_foldl stops_resumeFunction vfs (s.disp.queues.foldl resumeQueue s)
  have all := (stops_foldl stops_resumeQueue s.disp.queues s).trans rest
  exact ⟨all.journal, all.consumed, fun vf now => all.keeps_state now,
    fun vf q now asked => (rest.keeps_stopped (isStopped_resumeQueues now asked)).spec⟩

/-! ### Serving the journal (R194, R195) -/

theorem code_eq (e : JEntry) : e.code = e.r0.toNat / 2 ^ 56 := by
  have small := e.r0.isLt
  rw [JEntry.code, wbits_toNat]
  exact Nat.mod_eq_of_lt (by omega)

/-- R195: the only entry of the journal is completed. -/
theorem post_only {s : State} {e : JEntry} (only : s.disp.journal = [e]) (n : Nat) (r : Cause) :
    (s.post n e r).disp.journal = [] ∧ (s.post n e r).disp.consumed = e.seq ∧
      ((s.post n e r).fn n).mbox.doneSeq = e.seq ∧ ((s.post n e r).fn n).mbox.result = r := by
  have box := mbox_modMbox { s with disp := { s.disp with journal := s.disp.journal.filter (·.seq ≠ e.seq), consumed := e.seq } } n
    fun m => { m with doneSeq := e.seq, result := r }
  refine ⟨?_, rfl, congrArg Mailbox.doneSeq box, congrArg Mailbox.result box⟩
  show s.disp.journal.filter (·.seq ≠ e.seq) = []
  simp [only]

section
variable {e : JEntry} {s : State} (only : s.disp.journal = [e]) (boot : s.sys.bootDone = true)
  (on : (s.fn e.vf.val).state = .enabled)
include only boot on

/-- R194, R195: a well-formed CREATE is served once the lines of its ring are open. -/
theorem journalServe_create (code : e.code = 1) (ok : s.createOk e = true) (new : (s.queue e.vf e.qidx).lastseq ≠ e.seq)
    (seen : (s.queue e.vf e.qidx).freeAt ≤ s.disp.anopass) (opens : Opens s true (ringLines (s.fn e.vf.val) e.queue)) :
    exec .journalServe s = .next ((s.applyCreate e).post e.vf.val e 0) := by
  show execJournalServe s = _
  simp [execJournalServe, boot, only, on, code, ok, new, seen, whenOpen_of_opens opens]

/-- R194, R195: a DESTROY or a RESET. -/
theorem journalServe_reset (code : e.code = 2 ∨ e.code = 3) : exec .journalServe s = .next (s.serveReset e) := by
  show execJournalServe s = _
  obtain code | code := code <;> simp [execJournalServe, boot, only, on, code]

/-- R194, R195: an FLR. -/
theorem journalServe_flr (code : e.code = 4) : exec .journalServe s = .next (s.serveFlr e) := by
  show execJournalServe s = _
  simp [execJournalServe, boot, only, on, code]

/-- R195: a request with an unknown CODE. -/
theorem journalServe_malformed (code : e.code = 0 ∨ 4 < e.code) :
    exec .journalServe s = .next (s.post e.vf.val e cRecMalformed) := by
  show execJournalServe s = _
  have other : e.code ≠ 1 ∧ e.code ≠ 2 ∧ e.code ≠ 3 ∧ e.code ≠ 4 := by omega
  obtain ⟨h1, h2, h3, h4⟩ := other
  simp [execJournalServe, boot, only, on]
end

/-- R185: a new queue is linked at the head of its priority's list. -/
theorem spliceInsert_spec {s : State} {vf : Fin 64} {q : BitVec 8} {x : Queue} (made : s.queue vf q = x) :
    let t := s.spliceInsert vf q
    t.queue vf q = { x with next := (s.disp.heads[x.prio.val]).next, lgen := x.lgen + 1 } ∧
      (t.disp.heads[x.prio.val]).next = some (qkey vf q) ∧ t.disp.journal = s.disp.journal := by
  subst made
  refine ⟨queue_setQueue .., ?_, rfl⟩
  simp only [State.spliceInsert, Vector.getElem_set_self]

/-- R175: the ring of a queue without records is zeroed. -/
theorem zeroRing_queue {s : State} {vf : Fin 64} {q : BitVec 8} (none : (s.queue vf q).recs = []) (f : Fn) (x : Queue) :
    (s.zeroRing f x).queue vf q = s.queue vf q := by
  obtain ⟨g, hg⟩ := (watched_zeroRing s f x).queue (qkey vf q)
  rw [State.queue] at none
  rw [State.queue, hg, none, State.queue]
  exact congrArg (fun l => { tget {} s.disp.queues (qkey vf q) with recs := l }) none.symm

/-- R175, R184, R185, R194: the queue that a CREATE makes is linked at the head of its priority's list. -/
theorem applyCreate_spec (s : State) (e : JEntry) :
    let x : Queue := { e.queue with savearea := (s.queue e.vf e.qidx).savearea }
    let t := s.applyCreate e
    t.queue e.vf e.qidx = { x with next := (s.disp.heads[x.prio.val]).next, lgen := x.lgen + 1 } ∧
      (t.disp.heads[x.prio.val]).next = some (qkey e.vf e.qidx) ∧ t.disp.journal = s.disp.journal := by
  intro x t
  let u := s.setQueue e.vf e.qidx x
  have set : u.queue e.vf e.qidx = x := queue_setQueue ..
  have made : (u.zeroRing (s.fn e.vf.val) x).queue e.vf e.qidx = x := (zeroRing_queue (by rw [set]; rfl) _ x).trans set
  have heads : (u.zeroRing (s.fn e.vf.val) x).disp.heads = s.disp.heads := by rw [(watched_zeroRing u ..).disp]; rfl
  have journal : (u.zeroRing (s.fn e.vf.val) x).disp.journal = s.disp.journal := by rw [(watched_zeroRing u ..).disp]; rfl
  have linked := spliceInsert_spec made
  rwa [heads, journal] at linked

/-- R196: a RESET or DESTROY that is newer than what the queue has seen begins its reset. -/
theorem serveReset_begins {s : State} {e : JEntry} (zero : e.r0.toNat / 2 ^ 8 % 2 ^ 48 = 0) (r1 : e.r1 = 0) (r2 : e.r2 = 0)
    (newer : (s.queue e.vf e.qidx).lastseq < e.seq) (live : (s.queue e.vf e.qidx).state ≠ .free) :
    let t := s.serveReset e
    (t.queue e.vf e.qidx).state = .resetting ∧ (t.queue e.vf e.qidx).recs = [] ∧
      (t.queue e.vf e.qidx).drain = some (BitVec.ofNat 8 e.code) ∧ t.disp.journal = s.disp.journal := by
  intro t
  let u := s.modQueue e.vf e.qidx fun x => { x with lastseq := e.seq, drain := some (BitVec.ofNat 8 e.code) }
  have bits : wbits e.r0 55 8 = 0 := zero
  have formed : ¬(wbits e.r0 55 8 ≠ 0 ∨ e.r1 ≠ 0 ∨ e.r2 ≠ 0) := by simp [bits, r1, r2]
  have served : t = u.stopQueue e.vf false e.qidx := by
    simp only [t, State.serveReset, if_neg formed, if_pos newer, if_neg live]
    rfl
  obtain ⟨stops, began⟩ := stopQueue_spec u e.vf false e.qidx
  rw [queue_modQueue] at began
  rw [served, began]
  exact ⟨rfl, rfl, rfl, stops.journal⟩

/-- R197: an FLR that is newer than what the function has seen begins its reset. -/
theorem serveFlr_begins {s : State} {e : JEntry} (pf : e.vf = 0) (zero : e.r0.toNat / 2 ^ 6 % 2 ^ 50 = 0) (r1 : e.r1 = 0)
    (r2 : e.r2 = 0) (on : (s.fn (e.r0.toNat % 2 ^ 6)).state = .enabled) (newer : (s.fn (e.r0.toNat % 2 ^ 6)).flrseq < e.seq) :
    let t := s.serveFlr e
    let v := e.r0.toNat % 2 ^ 6
    (t.fn v).state = .resetting ∧ (t.fn v).flrseq = e.seq ∧ t.disp.journal = s.disp.journal := by
  intro t v
  let vf : Fin 64 := Fin.ofNat 64 (wbits e.r0 5 0)
  have named : vf.val = v := by
    show wbits e.r0 5 0 % 64 = _
    rw [wbits_toNat]
    omega
  let u := s.modFn vf.val fun f => { f with flrseq := e.seq }
  have bits : wbits e.r0 55 6 = 0 := zero
  have formed : ¬((e.vf.val ≠ 0 ∧ ¬e.auto) ∨ wbits e.r0 55 6 ≠ 0 ∨ e.r1 ≠ 0 ∨ e.r2 ≠ 0) := by simp [bits, r1, r2, pf]
  rw [show e.r0.toNat % 2 ^ 6 = vf.val from named.symm] at on newer
  have served : t = u.stopFunction vf := by
    have awake : ¬(s.fn vf.val).state = .disabled := by rw [on]; decide
    simp only [t, State.serveFlr, if_neg formed]
    rw [if_neg awake, if_pos newer]
  obtain ⟨stops, resetting, -⟩ := stopFunction_spec u vf
  have seen : (u.fn vf.val).flrseq = e.seq := by rw [fn_modFn]
  rw [served, ← named]
  exact ⟨resetting, (stops.flrseq _).trans seen, stops.journal⟩

theorem asid_queue (e : JEntry) : e.queue.asid.toNat = e.r0.toNat / 2 ^ 16 % 2 ^ 16 :=
  (BitVec.toNat_ofNat _ _).trans (Nat.mod_mod _ _)

theorem ringofs_queue (e : JEntry) : e.queue.ringofs = e.r1.toNat % 2 ^ 9 := congrArg (· % 2 ^ 9) (Nat.div_one e.r1.toNat)

/-! ### Drains (R196, R197) -/

section
variable {s : State} (gangs : s.disp.gangs = [])
include gangs

theorem freeGangs_none (vf : Fin 64) (q : Option (BitVec 8)) (molt : Bool) : s.freeGangs vf q molt = s := by
  have unchanged : { s with disp := { s.disp with gangs := [] } } = s := by rw [← gangs]
  simpa [State.freeGangs, State.floodPairs, gangs] using unchanged

/-- R196, step 3 and 4: nothing of a queue or a function is on its way. -/
theorem drained (reqs : s.mem.reqs = []) (nb : s.mem.nb = []) (signals : s.mem.signals = []) (vf : Fin 64)
    (q : Option (BitVec 8)) : ¬((s.tagHeld vf q || !s.gangsQuiet vf q) = true) := by
  simp [State.tagHeld, State.gangsQuiet, gangs, reqs, nb, signals]
end

theorem Watched.state {s t : State} (h : Watched s t) (k : Nat) : (tget {} t.disp.queues k).state = (tget {} s.disp.queues k).state := by
  obtain ⟨f, hf⟩ := h.queue k
  rw [hf]

/-- R185: what unlinking a queue does to each of the others, and to itself when it is not linked to itself. -/
theorem queues_spliceRemove (s : State) (vf : Fin 64) (q : BitVec 8) (k : Nat) :
    let x := tget {} s.disp.queues k
    tget {} (s.spliceRemove vf q).disp.queues k =
      if x.next = some (qkey vf q) ∧ x.state ≠ .free then { x with next := (s.queue vf q).next, lgen := x.lgen + 1 } else x :=
  tget_map {} (fun _ x => if x.next = some (qkey vf q) ∧ x.state ≠ .free then
    { x with next := (s.queue vf q).next, lgen := x.lgen + 1 } else x) k rfl s.disp.queues

/-- R185: a queue that is unlinked is at the head of no list. -/
theorem heads_spliceRemove {s : State} {vf : Fin 64} {q : BitVec 8} (other : (s.queue vf q).next ≠ some (qkey vf q)) (p : Fin 8) :
    ((s.spliceRemove vf q).disp.heads[p.val]).next ≠ some (qkey vf q) := by
  simp only [State.spliceRemove, Vector.getElem_map]
  split
  · exact other
  · assumption

/-- R196, steps 4 to 6: a queue is as after a reset, RESET or DESTROY having ended. -/
theorem finishQueue_spec {s : State} {vf : Fin 64} {q : BitVec 8} {d : BitVec 8} (gangs : s.disp.gangs = [])
    (other : (s.queue vf q).next ≠ some (qkey vf q)) (opens : Opens s true (ringLines (s.fn vf.val) (s.queue vf q)))
    (asked : (s.queue vf q).drain = some d) : let t := s.finishQueue vf q
    (∃ y : Queue, ∃ st n, t.queue vf q = { y.cleared with state := st, freeAt := n } ∧ (d = 3 → st = .active) ∧ (d = 2 → st = .free)) ∧
      t.cells = s.cells ∧ (d = 2 → ∀ p : Fin 8, (t.disp.heads[p.val]).next ≠ some (qkey vf q)) := by
  intro t
  let u := s.zeroRing (s.fn vf.val) (s.queue vf q)
  have zeroed : Watched s u := watched_zeroRing ..
  have run : t = if d = 2 then (u.spliceRemove vf q).modQueue vf q fun x => { x.cleared with state := .free, freeAt := u.disp.anopass + 2 }
      else u.modQueue vf q fun x => { x.cleared with state := .active } := by
    simp only [t, State.finishQueue, whenOpen_of_opens opens, freeGangs_none gangs, asked, Option.some.injEq]
    rfl
  have next : (u.queue vf q).next = (s.queue vf q).next := by
    obtain ⟨f, hf⟩ := zeroed.queue (qkey vf q)
    rw [State.queue, hf]
    rfl
  rw [run]
  split
  next two =>
    exact ⟨⟨_, _, _, queue_modQueue .., by simp [two], fun _ => rfl⟩, zeroed.cells, fun _ => heads_spliceRemove (by rw [next]; exact other)⟩
  next two =>
    exact ⟨⟨u.queue vf q, .active, _, queue_modQueue .., fun _ => rfl, fun h => absurd h two⟩, zeroed.cells, fun h => absurd h two⟩

/-- R196: a queue's reset or destruction ends once nothing of it is on its way. -/
theorem queueTagDrain_queue {vf : Fin 64} {q : BitVec 8} {s : State} (quiet : ¬((s.tagHeld vf (some q) || !s.gangsQuiet vf (some q)) = true))
    (now : (s.queue vf q).state = .resetting) {d : BitVec 8} (asked : (s.queue vf q).drain = some d) :
    exec (.queueTagDrain vf (some q)) s = .next (s.finishQueue vf q) :=
  congrArg Host.Outcome.next ((if_neg quiet).trans (if_pos ⟨now, by rw [asked]; exact Option.some_ne_none d⟩))

/-- R197: a function's reset ends once nothing of it is on its way. -/
theorem queueTagDrain_function {vf : Fin 64} {s : State} (quiet : ¬((s.tagHeld vf none || !s.gangsQuiet vf none) = true))
    (now : (s.fn vf.val).state = .resetting) : exec (.queueTagDrain vf none) s = .next (s.finishFunction vf) :=
  congrArg Host.Outcome.next ((if_neg quiet).trans (if_pos now))

/-- R197: one queue of a function is unlinked and FREE. -/
def freeQueue (vf : Fin 64) (s : State) (q : BitVec 8) : State :=
  (s.spliceRemove vf q).modQueue vf q fun x =>
    { next := x.next, lgen := x.lgen, lastseq := x.lastseq, savearea := x.savearea, freeAt := s.disp.anopass + 2 }

theorem freeQueues_eq (s : State) (vf : Fin 64) : s.freeQueues vf = (s.liveQueues vf).foldl (freeQueue vf) s := rfl

/-- R197: no function differs, and a queue that is FREE stays so. -/
structure KeepsFree (s t : State) : Prop where
  fns : t.fns = s.fns
  free : ∀ k, (tget {} s.disp.queues k).state = .free → (tget {} t.disp.queues k).state = .free

theorem keepsFree_refl (s : State) : KeepsFree s s := ⟨rfl, fun _ => id⟩

theorem KeepsFree.trans {s t u : State} (h : KeepsFree s t) (k : KeepsFree t u) : KeepsFree s u :=
  ⟨k.fns.trans h.fns, fun n free => k.free n (h.free n free)⟩

theorem state_freeQueue (vf : Fin 64) (s : State) (q : BitVec 8) : ((freeQueue vf s q).queue vf q).state = .free := by
  rw [freeQueue, queue_modQueue]

theorem keepsFree_freeQueue (vf : Fin 64) (s : State) (q : BitVec 8) : KeepsFree s (freeQueue vf s q) := by
  refine ⟨rfl, fun k free => ?_⟩
  by_cases same : k = qkey vf q
  · subst same
    exact state_freeQueue vf s q
  · have kept : tget {} (freeQueue vf s q).disp.queues k = tget {} (s.spliceRemove vf q).disp.queues k := tget_tset_ne _ _ _ same
    rw [kept, queues_spliceRemove]
    split <;> exact free

/-- R197: every queue of the function is FREE. -/
theorem freeQueues_spec (s : State) (vf : Fin 64) : (s.freeQueues vf).fns = s.fns ∧
    ∀ q, ((s.freeQueues vf).queue vf q).state = .free := by
  have all := related_foldl keepsFree_refl KeepsFree.trans (keepsFree_freeQueue vf) (s.liveQueues vf) s
  rw [freeQueues_eq]
  refine ⟨all.fns, fun q => ?_⟩
  by_cases live : (s.queue vf q).state = .free
  · exact all.free _ live
  · exact made_foldl keepsFree_refl KeepsFree.trans (P := fun q t => (t.queue vf q).state = .free) (keepsFree_freeQueue vf)
      (state_freeQueue vf) (fun _ _ _ h => h.free _) (s.liveQueues vf) s q (mem_liveQueues live)

theorem clearLog_frame (s : State) (vf : Fin 64) : (s.clearLog vf).fns = s.fns ∧ (s.clearLog vf).disp = s.disp := by
  unfold State.clearLog
  split <;> exact ⟨rfl, rfl⟩

/-- R197, steps 4 to 6: the reset of a function leaves its entry cleared and its queues FREE. -/
theorem finishFunction_spec {s : State} {vf : Fin 64} (gangs : s.disp.gangs = []) (opens : Opens s true (s.fn vf.val).windowLines) :
    let t := s.finishFunction vf
    t.fn vf.val = (s.fn vf.val).cleared ∧ ∀ q, (t.queue vf q).state = .free := by
  intro t
  let u := ((s.moltOf vf).clearTables vf).freeQueues vf
  obtain ⟨fns, free⟩ := freeQueues_spec ((s.moltOf vf).clearTables vf) vf
  let z := if (s.fn vf.val).window = 0 then u else u.zeroLines ((s.fn vf.val).window.toNat * 512) 512
  have zeroed : Watched u z := by
    unfold z
    generalize 512 = n
    split
    · exact (memoryOnly_refl u).watched
    · exact watched_zeroLines ..
  have run : t = (z.modFn vf.val Fn.cleared).clearLog vf := by
    simp only [t, State.finishFunction, whenOpen_of_opens opens, freeGangs_none gangs]
    rfl
  obtain ⟨sameFns, sameDisp⟩ := clearLog_frame (z.modFn vf.val Fn.cleared) vf
  rw [run]
  constructor
  · calc ((z.modFn vf.val Fn.cleared).clearLog vf).fn vf.val = (z.modFn vf.val Fn.cleared).fn vf.val := by rw [State.fn, sameFns]; rfl
      _ = (z.fn vf.val).cleared := fn_modFn ..
      _ = (s.fn vf.val).cleared := by rw [State.fn, zeroed.fns, fns]; rfl
  · intro q
    rw [State.queue, sameDisp]
    exact (zeroed.state _).trans (free q)

/-! ### A frame that is read back (R164, R173) -/

/-- R173: the words of a frame are those that stand from its address on. -/
theorem fwAt_readFrame (s : State) (n : Nat) : ∀ (a i : Nat), i < n →
    fwAt (s.readFrame a n) i = (s.dpaWord (a + 8 * i), s.granBad (a + 8 * i)) := by
  induction n with
  | zero => exact fun _ _ h => absurd h (Nat.not_lt_zero _)
  | succ n ih =>
    intro a i h
    cases i with
    | zero => rfl
    | succ i =>
      have next : fwAt (s.readFrame a (n + 1)) (i + 1) = fwAt (s.readFrame (a + 8) n) i := rfl
      rw [next, ih _ _ (Nat.lt_of_succ_lt_succ h), show a + 8 + 8 * i = a + 8 * (i + 1) by omega]

theorem slotWords_zero : slotWords 0 = fun _ => 0 := by
  funext k
  simp [slotWords, wbits_toNat]

/-- R164: a frame without regions. -/
theorem frameWords_zero : frameWords 0 = 224 := by
  rw [frameWords, slotWords_zero]
  rfl

/-- R173: a frame without regions restores none. -/
theorem restoreRegions_none (s : State) (c : Nat) (n : Option StopNote) (ks : List (Fin 4)) :
    ∀ ws, s.restoreRegions c 0 n ks ws = (some [], s) := by
  induction ks with
  | nil => exact fun _ => rfl
  | cons k ks ih =>
    intro ws
    rw [State.restoreRegions]
    simp only [slotWords_zero, if_true, ih]

theorem linesOf_none {a : Nat} (h : a % 128 = 0) : linesOf a 0 = [] := by
  rw [linesOf, show (a + 0 + 127) / 128 - a / 128 = 0 by omega]
  rfl

/-- R244: what the count of residue mismatches changes of a cell. -/
theorem countLog_eq (x : CellSt) : x.countLog = { x with ec := x.countLog.ec } := by
  unfold CellSt.countLog
  generalize x.seq.log = l
  induction l generalizing x with
  | nil => rfl
  | cons e l ih =>
    rw [List.foldl_cons]
    split
    · rw [ih]
      rfl
    · exact ih x

/-- R211: what the end of link operations changes of a cell. -/
theorem abortAll_eq (gs : List (BitVec 16 × BitVec 32)) : ∀ x : CellSt,
    x.abortAll gs = { x with linkq := (x.abortAll gs).linkq, puts := (x.abortAll gs).puts } := by
  induction gs with
  | nil => exact fun _ => rfl
  | cons p gs ih =>
    intro x
    exact ih (x.abortLinks p.1 p.2)

/-- R246: a resume is noted in the trace. -/
theorem traceOnly_startResume (s : State) (c : Nat) : TraceOnly c s (s.startResume c c) := by
  unfold State.startResume
  dsimp only
  rw [if_pos rfl]
  split
  · exact traceOnly_refl c s
  · split
    · exact traceOnly_trans (traceOnly_emit s ..) (traceOnly_emit ..)
    · exact traceOnly_emit s ..

/-- R173, step 4: a cell as the words of its frame leave it. -/
def fromFrame (ws : List FWord) (note : Option StopNote) (x : CellSt) : CellSt :=
  ({ x with seq := x.seq.restored ws note, copyq := copiesRestored (ws.drop 106), linkq := linksRestored (ws.drop 106),
            restart := true }.countLog).abortAll (match note with | some m => m.aborts | none => [])

theorem fromFrame_eq (ws : List FWord) (note : Option StopNote) (x : CellSt) : ∃ ec linkq puts, fromFrame ws note x =
    { x with seq := x.seq.restored ws note, copyq := copiesRestored (ws.drop 106), restart := true, ec := ec, linkq := linkq,
             puts := puts } := by
  let y : CellSt := { x with seq := x.seq.restored ws note, copyq := copiesRestored (ws.drop 106),
                             linkq := linksRestored (ws.drop 106), restart := true }
  let gs := match note with | some m => m.aborts | none => []
  have counted : y.countLog = { y with ec := y.countLog.ec } := countLog_eq y
  have cut : fromFrame ws note x = { y.countLog with linkq := (y.countLog.abortAll gs).linkq, puts := (y.countLog.abortAll gs).puts } :=
    abortAll_eq gs y.countLog
  exact ⟨y.countLog.ec, (y.countLog.abortAll gs).linkq, (y.countLog.abortAll gs).puts, cut.trans <|
    congrArg (fun z : CellSt => { z with linkq := (y.countLog.abortAll gs).linkq, puts := (y.countLog.abortAll gs).puts }) counted⟩

/-- R173, steps 3 to 5: a cell goes on where its frame, without regions, says. -/
theorem restoreCell_noRegions {s : State} {a : Nat} (c : Nat) (note : Option StopNote) (map : s.dpaWord (a + 16) = 0)
    (aligned : a % 128 = 0) (opens : Opens s false (linesOf a 1792)) : s.restoreCell c c a note =
      (true, (s.modCell c (fromFrame (s.readFrame a 224) note)).startResume c c) := by
  have words : fwAt (s.readFrame a 224) 2 = (0, s.granBad (a + 16)) := by
    rw [fwAt_readFrame _ _ _ _ (by decide), ← map]
  have rest : linesOf (a + 1792) (8 * 224 - 1792) = [] := linesOf_none (by omega)
  have opened : s.openFor false (linesOf a 1792) = (true, s) := opens
  have none : s.openFor false [] = (true, s) := rfl
  simp only [State.restoreCell, opened, none, map, frameWords_zero, rest, words, restoreRegions_none]
  rfl

/-! ### Answers to trap records (R214, R216, R217) -/

/-- R173: the words of a frame are those of memory, whatever a cell holds. -/
theorem readFrame_modCell (s : State) (c : Nat) (f : CellSt → CellSt) (n : Nat) :
    ∀ a, (s.modCell c f).readFrame a n = s.readFrame a n := by
  induction n with
  | zero => exact fun _ => rfl
  | succ n ih => exact fun a => congrArg ((s.dpaWord a, s.granBad a) :: ·) (ih (a + 8))

/-- R173, R217: a stopped cell as its resume finds it. -/
def unstopped (x : CellSt) : CellSt :=
  { x with stop := none, freeze := .none, hold := [], replay := false, copyq := [], linkq := [] }

/-- R173: a cell goes on where the words of a frame say; its scratchpad is as it was. -/
structure GoesOn (ws : List FWord) (note : Option StopNote) (x y : CellSt) : Prop where
  stop : y.stop = none
  bound : y.bound = x.bound
  freeze : y.freeze = .none
  spad : y.spad = x.spad
  seq : y.seq = { x.seq.restored ws note with log := y.seq.log }

theorem goesOn_fromFrame (ws : List FWord) (note : Option StopNote) (x : CellSt) : GoesOn ws note x (fromFrame ws note (unstopped x)) := by
  obtain ⟨ec, linkq, puts, shape⟩ := fromFrame_eq ws note (unstopped x)
  have same : (unstopped x).seq = x.seq := rfl
  have registers : (fromFrame ws note (unstopped x)).seq = (unstopped x).seq.restored ws note := by rw [shape]
  rw [same] at registers
  refine ⟨?_, ?_, ?_, ?_, by rw [registers]⟩ <;> rw [shape] <;> rfl

/-- R173: the replay of an operand log leaves every other register. -/
theorem clearFaults_seq (x : CellSt) {q : Seq} (seq : x.seq = { q with log := x.seq.log }) :
    x.clearFaults.seq = { q with log := x.clearFaults.seq.log } :=
  congrArg (fun r : Seq => { r with log := x.clearFaults.seq.log }) seq

/-- R173, R217: a cell resumed in place from a frame without regions. -/
theorem resumeInPlace_noRegions {s : State} {c a : Nat} {b : Binding} {g : Gang}
    (place : g.frameAt (s.queue b.vf b.q) (s.cell c).seq.id.rank.toNat = a) (map : s.dpaWord (a + 16) = 0) (aligned : a % 128 = 0)
    (opens : ∀ x, Opens (s.setCell c x) false (linesOf a 1792)) :
    ∃ t, s.resumeInPlace c b g = (true, t) ∧ t.fns = s.fns ∧ t.mem = s.mem ∧
      GoesOn (s.readFrame a 224) (g.noteOf (s.cell c).seq.id.rank.toNat) (s.cell c) (t.cell c) := by
  let note := g.noteOf (s.cell c).seq.id.rank.toNat
  let u := s.modCell c unstopped
  let v := u.modCell c (fromFrame (s.readFrame a 224) note)
  have restored : u.restoreCell c c a note = (true, v.startResume c c) := by
    rw [restoreCell_noRegions c note (show u.dpaWord (a + 16) = 0 from map) aligned (opens _), readFrame_modCell]
  have run : s.resumeInPlace c b g = (true, ((v.startResume c c).modCell c CellSt.clearFaults).setGang b.gang
      { g with saved := g.saved.filter (· ≠ (s.cell c).seq.id.rank.toNat) }) := by
    simp only [State.resumeInPlace, place]
    rw [show s.modCell c (fun y => { y with stop := none, freeze := .none, hold := [], replay := false, copyq := [], linkq := [] }) = u from rfl,
      restored]
  have traced := traceOnly_startResume v c
  have here : v.cell c = fromFrame (s.readFrame a 224) note (unstopped (s.cell c)) := by simp only [v, u, cell_modCell]
  have goes := goesOn_fromFrame (s.readFrame a 224) note (s.cell c)
  rw [← here] at goes
  obtain ⟨stop, bound, freeze, spad, seq⟩ := goes
  have cell := traced.cell
  refine ⟨_, run, traced.elsewhere.fns, traced.mem, ?_⟩
  rw [cell_setGang, cell_modCell, cell]
  exact ⟨stop, bound, freeze, spad, clearFaults_seq _ seq⟩

/-- R164, R173: the registers that the words of a frame give. -/
theorem GoesOn.registers {x y : CellSt} {ws : List FWord} {n : Option StopNote} (h : GoesOn ws n x y) {w : Nat → Word}
    (words : ∀ i < 224, (fwAt ws i).1 = w i) : y.seq.pc = wordAddr (w 41) ∧ y.seq.npc = wordAddr (w 42) ∧
      (∀ r : Reg, r.val ≠ 0 → y.gval r = w (8 + r.val)) ∧ (∀ k : Pred, k.val ≠ 0 → y.pval k = (w 40).getLsbD k.val) ∧
      y.seq.trap.vec = wordAddr (w 57) := by
  have seq := h.seq
  have reg (r : Reg) (other : r.val ≠ 0) : y.gval r = (y.seq.g[r.val]).data := congrArg GReg.data (if_neg other)
  have pred (k : Pred) (other : k.val ≠ 0) : y.pval k = y.seq.p.getLsbD k.val := by simp [CellSt.pval, other]
  refine ⟨?_, ?_, fun r other => ?_, fun k other => ?_, ?_⟩
  · rw [seq, ← words 41 (by decide)]; rfl
  · rw [seq, ← words 42 (by decide)]; rfl
  · rw [reg r other, seq, ← words (8 + r.val) (by omega)]
    simp only [Seq.restored, Vector.getElem_ofFn, if_neg other, GReg.restored]
    split <;> rfl
  · rw [pred k other, seq, ← words 40 (by decide)]
    have one : k ≠ 0 := fun h => other (congrArg Fin.val h)
    simp [Seq.restored, one]
  · rw [seq, ← words 57 (by decide)]; rfl

/-- R217: the causes of the records that a response answers with the cell's own frame. -/
theorem codeRank_answered {k : Cause} (named : k ∈ [cXlateMiss, cMigrateSrc, cMcResidue]) : codeRank k = 1 := by
  simp only [List.mem_cons, List.not_mem_nil, or_false] at named
  obtain rfl | rfl | rfl := named <;> decide

/-- R214, R217: TQRESP after a response. -/
theorem respond_spec (s : State) (vf : Fin 64) (seq : BitVec 32) (n : BitVec 2) : let t := s.respond vf seq n
    (t.fn vf.val).tq.action = n ∧ (t.fn vf.val).tq.respSeq = seq ∧ (t.fn vf.val).await = (s.fn vf.val).await.filter (·.seq ≠ seq) := by
  intro t
  have fn : t.fn vf.val = _ := fn_modFn ..
  rw [fn]
  exact ⟨rfl, rfl, rfl⟩

section
variable {s : State} {vf : Fin 64} {seq : BitVec 32} {e : Await} {c : Nat} {st : Stop} {b : Binding}
  (found : (s.fn vf.val).await.find? (·.seq = seq) = some e) (cell : e.cell = c) (gang : e.gang = some b.gang)
  (stop : (s.cell c).stop = some st) (named : st.code ∈ [cXlateMiss, cMigrateSrc, cMcResidue])
  (bound : (s.cell c).bound = some b)
include found cell gang stop named bound

/-- R217: a response with ACTION 1 resumes a cell whose frame is saved and whose gang runs. -/
theorem exec_tqrespResume {g : Gang} {t : State} (saved : st.saved = true) (listed : tfind s.disp.gangs b.gang = some g)
    (running : g.state = .running) (resumed : s.resumeInPlace c b g = (true, t)) :
    exec (.tqrespResume vf seq) s = .next (t.respond vf seq 1) := by
  subst cell
  show execTqrespResume vf seq s = _
  have answered : s.answeredBy vf seq = some e := found
  simp only [execTqrespResume, answered, stop, bound, gang, saved, codeRank_answered named, listed, running, resumed, ne_eq,
    not_true_eq_false, if_false, Bool.not_true, Bool.false_eq_true]

/-- R217: a response with ACTION 2 makes the fault fatal. -/
theorem exec_tqrespFail : exec (.tqrespFail vf seq) s = .next ((s.respond vf seq 2).fatalFor b st.code) := by
  subst cell
  show execTqrespFail vf seq s = _
  have answered : s.answeredBy vf seq = some e := found
  have stop' : ((s.respond vf seq 2).cell e.cell).stop = some st := stop
  have bound' : ((s.respond vf seq 2).cell e.cell).bound = some b := bound
  simp only [execTqrespFail, answered, stop', bound', gang, codeRank_answered named, ne_eq, not_true_eq_false, if_false, if_true]
end

/-- R181: a fatal fault marks its gang and freezes its queue. -/
theorem fatalFor_spec {s : State} {b : Binding} {g : Gang} (listed : tfind s.disp.gangs b.gang = some g) (k : Cause) :
    let t := s.fatalFor b k
    t.cells = s.cells ∧ t.fns = s.fns ∧ tfind t.disp.gangs b.gang = some { g with fatal := g.fatal.or (some k) } ∧
      ((s.queue b.vf b.q).state = .active → (t.queue b.vf b.q).state = .frozen ∧ (t.queue b.vf b.q).fcause = k) := by
  intro t
  let u := s.modQueue b.vf b.q fun q =>
    if q.state = .active then { q with state := .frozen, fcause := k, fidx := BitVec.ofNat 16 (b.slot % 2 ^ q.ringlog) } else q
  have run : t = { u with disp := { u.disp with gangs := tset u.disp.gangs b.gang { g with fatal := g.fatal.or (some k) } } } := by
    simp only [t, State.fatalFor, modQueue_disp_gangs, listed]
    rfl
  have queue : u.queue b.vf b.q = _ := queue_modQueue ..
  rw [run]
  refine ⟨rfl, rfl, tfind_tset_self .., fun active => ?_⟩
  rw [if_pos active] at queue
  show (u.queue b.vf b.q).state = _ ∧ (u.queue b.vf b.q).fcause = _
  rw [queue]
  exact ⟨rfl, rfl⟩

/-- R214: a write of TQHEAD, with no record held. -/
theorem tqheadWrite_spec {vf : Fin 64} {s : State} (held : (s.fn vf.val).held = []) (v : BitVec 32) :
    ∃ t, exec (.tqheadWrite vf v) s = .next t ∧ t.cells = s.cells ∧ t.mem = s.mem ∧
      (t.fn vf.val).tq = (s.fn vf.val).tq.withHead v := by
  let u := s.modFn vf.val fun f => { f with tq := f.tq.withHead v }
  have here : u.fn vf.val = { s.fn vf.val with tq := (s.fn vf.val).tq.withHead v } := fn_modFn ..
  have none : u.releaseHeld vf.val = u := by
    rw [State.releaseHeld, here]
    simp only [held]
  have run : exec (.tqheadWrite vf v) s = .next (u.releaseHeld vf.val) := rfl
  rw [none] at run
  exact ⟨u, run, rfl, rfl, congrArg Fn.tq here⟩

/-- Settles O59: the mailbox and the journal by the lemmas of a commit and of each kind of entry, the resets by what stopping, draining
and restarting leave of queues and functions, the responses by the frame of a cell that is restored in place. -/
theorem functionEvents : Obligations.FunctionEvents := by
  unfold Obligations.FunctionEvents
  refine ⟨fun vf s => ⟨fun i named ready => ⟨fun room => ?_, fun full => ?_⟩, cxlIoFlr_commits, ?_⟩, fun e s only boot on => ?_,
    fun vf s gangs reqs nb signals => ⟨fun q now other opens d asked => ?_, fun now opens => ?_⟩, fun vf s => functionDisable_stops,
    firmwareRestart_resumes, fun vf v s held => tqheadWrite_spec held v,
    fun vf seq c e st b g s found cell gang stop saved named bound listed => ⟨fun running map aligned opens => ?_, ?_⟩⟩
  · obtain ⟨journal, seqNo, fn, cells, mem⟩ := commit_room room vf (s.fn vf.val).mbox.req[0] (s.fn vf.val).mbox.req[1]
      (s.fn vf.val).mbox.req[2] false
    exact ⟨_, door_commits ready named, journal, seqNo, congrArg Fn.mbox fn, cells, mem⟩
  · exact ⟨_, door_commits ready named, commit_full full ..⟩
  · exact ⟨_, rfl, mbox_modMbox .., rfl, rfl⟩
  · dsimp only
    rw [← code_eq]
    refine ⟨fun code ok new seen opens => ?_, fun code zero r1 r2 newer live => ?_, fun code pf zero r1 r2 awake newer => ?_,
      fun code => ⟨_, journalServe_malformed only boot on code, post_only only .., rfl⟩⟩
    · obtain ⟨queue, head, journal⟩ := applyCreate_spec s e
      exact ⟨_, _, journalServe_create only boot on code ok new seen opens, post_only (journal.trans only) .., queue,
        rfl, rfl, rfl, ringofs_queue e, asid_queue e, rfl, rfl, rfl, rfl, rfl, rfl, head⟩
    · obtain ⟨state, recs, drain, journal⟩ := serveReset_begins zero r1 r2 newer live
      exact ⟨_, journalServe_reset only boot on code, state, recs, drain, journal.trans only⟩
    · obtain ⟨state, seen, journal⟩ := serveFlr_begins pf zero r1 r2 awake newer
      exact ⟨_, journalServe_flr only boot on code, state, seen, journal.trans only⟩
  · obtain ⟨⟨y, state, n, queue, reset, destroyed⟩, cells, heads⟩ := finishQueue_spec gangs other opens asked
    refine ⟨_, queueTagDrain_queue (drained gangs reqs nb signals _ _) now asked, ?_⟩
    rw [queue]
    exact ⟨rfl, rfl, rfl, rfl, rfl, cells, reset, fun two => ⟨destroyed two, heads two⟩⟩
  · obtain ⟨fn, free⟩ := finishFunction_spec gangs opens
    refine ⟨_, queueTagDrain_function (drained gangs reqs nb signals _ _) now, ?_⟩
    rw [fn]
    exact ⟨rfl, rfl, rfl, rfl, rfl, rfl, free⟩
  · obtain ⟨t, resumed, fns, mem, goes⟩ := resumeInPlace_noRegions rfl map aligned opens
    obtain ⟨action, respSeq, await⟩ := respond_spec t vf seq 1
    obtain ⟨pc, npc, regs, preds, vec⟩ := goes.registers
      (w := fun j => s.dpaWord (g.frameAt (s.queue b.vf b.q) (s.cell c).seq.id.rank.toNat + 8 * j))
      fun i h => congrArg Prod.fst (fwAt_readFrame s 224 _ i h)
    refine ⟨_, exec_tqrespResume found cell gang stop named bound saved listed running resumed, ⟨action, respSeq, ?_⟩, goes.stop,
      goes.bound.trans bound, goes.freeze, pc, npc, regs, preds, vec, goes.spad, mem⟩
    rw [await, State.fn, fns]
    rfl
  · obtain ⟨cells, fns, marked, frozen⟩ := fatalFor_spec (s := s.respond vf seq 2) (b := b) listed st.code
    obtain ⟨action, respSeq, await⟩ := respond_spec s vf seq 2
    refine ⟨_, exec_tqrespFail found cell gang stop named bound, ?_, cells, marked, frozen⟩
    dsimp only
    rw [State.fn, fns]
    exact ⟨action, respSeq, await⟩

end Sys2Proof.Proofs
end

section
/-! PROOFS. The instructions that write and read the items of a region slot and of its PEs. -/

namespace Sys2Proof.Proofs

open Sys2Proof Sys2Proof.Machine Sys2Proof.Safety Sys2Proof.Laws

/-! ### A slot in its issue cycle (R106, R325) -/

/-- R106: a slot that is neither RUNNING nor HELD. -/
def idleSlot (y : CellSt) (k : Fin 4) : Prop := (y.region[k.val]).state ≠ .running ∧ (y.region[k.val]).state ≠ .held

/-- R106, R325: such a slot, and a PE of its set. -/
def opensPe (y : CellSt) (k p : Fin 4) : Prop := idleSlot y k ∧ (y.region[k.val]).peset.getLsbD p.val = true

theorem slotFree_none_iff {y : CellSt} {k : Fin 4} : y.slotFree k none = true ↔ idleSlot y k := by
  simp [CellSt.slotFree, Region.busy, idleSlot]

theorem slotFree_some_iff {y : CellSt} {k p : Fin 4} : y.slotFree k (some p) = true ↔ opensPe y k p := by
  simp [CellSt.slotFree, Region.busy, opensPe, idleSlot]

section
variable {i : Instr} {g : Guard} {srcs : List Reg} {k : Fin 4} {p : CellSt → Option (Fin 4)} {go : CellSt → Option CellSt}
  {s : State}

/-- R325: a slot that is not free, or an item that does not exist. -/
theorem slotOp_stops (arm : Out) (named : exec i s = arm) (run : arm = slotOp i g srcs k p go s) (ready : Ready s i g srcs)
    (refused : (me s).slotFree k (p (me s)) = true → go (me s) = none) :
    exec i s = .next (s.raise s.sched.cur i cIllOperand 0) := by
  refine (exec_ready arm named run ready).trans (congrArg _ ?_)
  change (if !(me s).slotFree k (p (me s)) then _ else match go (me s) with | none => _ | some z => _) = _
  by_cases free : (me s).slotFree k (p (me s)) = true
  · rw [free, refused free]; rfl
  · rw [Bool.eq_false_iff.2 free]; rfl

/-- R325: the cell is left as the instruction makes it, but for what its issue marks. -/
theorem slotOp_left {z : CellSt} (arm : Out) (named : exec i s = arm) (run : arm = slotOp i g srcs k p go s)
    (ready : Ready s i g srcs) (free : (me s).slotFree k (p (me s)) = true) (made : go (me s) = some z)
    (seq : z.seq = (me s).seq) :
    ∃ t, exec i s = .next t ∧ Left s t z ∧ t.mem = s.mem ∧ t.disp = s.disp := by
  let u := s.setCell s.sched.cur z
  have cell : u.cell s.sched.cur = z := cell_setCell ..
  have left := advance_left (elsewhere_setCell s s.sched.cur z) (u := u) (by rw [cell, seq])
  rw [cell] at left
  refine ⟨u.advance s.sched.cur, (exec_ready arm named run ready).trans (congrArg _ ?_), left, advance_mem ..,
    advance_disp ..⟩
  change (if !(me s).slotFree k (p (me s)) then _ else match go (me s) with | none => _ | some z => _) = _
  rw [free, made]; rfl

end

/-! ### ACSET (R99, R325) -/

/-- R99: the two words of an address counter whose reserved bits are 0. -/
theorem acOf_words {a b : Word} (mid : a.toNat / 2 ^ 19 % 2 ^ 13 = 0) (high : a.toNat / 2 ^ 48 = 0)
    (mid' : b.toNat / 2 ^ 20 % 2 ^ 12 = 0) (high' : b.toNat / 2 ^ 52 = 0) :
    acOf (b.toNat * 2 ^ 64 + a.toNat) = some
      { base := a.extractLsb' 0 19, n0 := a.extractLsb' 32 16, s0 := b.extractLsb' 0 20, s1 := b.extractLsb' 32 20 } := by
  have bound := a.isLt
  have fields : ¬(bitsOf (b.toNat * 2 ^ 64 + a.toNat) 31 19 ≠ 0 ∨ bitsOf (b.toNat * 2 ^ 64 + a.toNat) 63 48 ≠ 0 ∨
      bitsOf (b.toNat * 2 ^ 64 + a.toNat) 95 84 ≠ 0 ∨ bitsOf (b.toNat * 2 ^ 64 + a.toNat) 127 116 ≠ 0) := by
    simp only [bitsOf]
    omega
  rw [acOf, if_neg fields]
  congr 2 <;> apply BitVec.eq_of_toNat_eq <;>
    simp only [bitsOf, BitVec.toNat_ofNat, BitVec.extractLsb'_toNat, Nat.shiftRight_eq_div_pow] <;> omega

/-- R99: a counter whose N0 is not 0. -/
theorem acN0_ne_zero {a : Word} (some_ : a.toNat % 2 ^ 48 / 2 ^ 32 ≠ 0) : a.extractLsb' 32 16 ≠ 0 := by
  intro h
  have zero := congrArg BitVec.toNat h
  rw [BitVec.extractLsb'_toNat, Nat.shiftRight_eq_div_pow] at zero
  have : (0 : BitVec 16).toNat = 0 := rfl
  omega

theorem acset_left {x : AcsetArgs} {s : State} {m : AddrCtr} (ready : Ready s (.acset x) x.g [x.a, x.b])
    (free : opensPe (me s) x.k x.pe) (words : acOf (((me s).gval x.b).toNat * 2 ^ 64 + ((me s).gval x.a).toNat) = some m)
    (some_ : m.n0 ≠ 0) :
    let e := (me s).pe[x.pe.val]
    ∃ t, exec (.acset x) s = .next t ∧ Left s t ((me s).setPe x.pe { e with ac := e.ac.set x.n.val m }) ∧
      t.mem = s.mem ∧ t.disp = s.disp := by
  refine slotOp_left (execAcset x s) rfl rfl ready (slotFree_some_iff.2 free) ?_ rfl
  rw [words]
  exact if_neg some_

/-! ### Selectors (R326) -/

/-- R326: the parts of a selector with no bit outside them. -/
theorem selParts_named {v : Word} (small : v.toNat < 2 ^ 18) (kind : v.toNat / 256 % 256 < 16) :
    selParts v = some (Fin.ofNat 4 (v.toNat / 65536), v.toNat / 256 % 256, v.toNat % 256) := by
  have fields : ¬(wbits v 63 18 ≠ 0 ∨ wbits v 15 12 ≠ 0) := by
    simp only [wbits_toNat]
    omega
  rw [selParts, if_neg fields]
  simp only [wbits_toNat, Option.some.injEq, Prod.mk.injEq, Fin.ext_iff, Fin.val_ofNat]
  omega

theorem selParts_none {v : Word} (bad : 2 ^ 18 ≤ v.toNat ∨ 16 ≤ v.toNat / 256 % 256) : selParts v = none := by
  have bound := v.isLt
  refine if_pos ?_
  simp only [wbits_toNat]
  omega

/-- R326: the selector that names an item. -/
theorem selParts_at {v : Word} {p : Fin 4} {k kind idx : Nat} (hk : kind < 16) (hi : idx < 256)
    (at_ : k = kind * 256 + idx) (value : v.toNat = p.val * 65536 + k) : selParts v = some (p, kind, idx) := by
  have hp := p.isLt
  subst at_
  rw [selParts_named (by omega) (by omega), value]
  simp only [Option.some.injEq, Prod.mk.injEq, Fin.ext_iff, Fin.val_ofNat]
  omega

/-! ### VSET (R325, R326) -/

section
variable {x : SlotSrc2Args} {s : State} {p : Fin 4} {kind idx : Nat}

theorem vset_stops_unnamed (ready : Ready s (.vset x) x.g [x.a, x.b]) (unnamed : selParts ((me s).gval x.b) = none) :
    exec (.vset x) s = .next (s.raise s.sched.cur (.vset x) cIllOperand 0) :=
  slotOp_stops (execVset x s) rfl rfl ready fun _ => by rw [unnamed]

/-- VSET of a PE that the sequencer may not reach, or of an item that does not exist. -/
theorem vset_stops (ready : Ready s (.vset x) x.g [x.a, x.b]) (named : selParts ((me s).gval x.b) = some (p, kind, idx))
    (refused : opensPe (me s) x.k p → ((me s).pe[p.val]).vset kind idx ((me s).gval x.a) = none) :
    exec (.vset x) s = .next (s.raise s.sched.cur (.vset x) cIllOperand 0) := by
  refine slotOp_stops (execVset x s) rfl rfl ready fun free => ?_
  rw [named] at free ⊢
  exact Option.map_eq_none_iff.2 (refused (slotFree_some_iff.1 free))

theorem vset_left {e : PE} (ready : Ready s (.vset x) x.g [x.a, x.b])
    (named : selParts ((me s).gval x.b) = some (p, kind, idx)) (free : opensPe (me s) x.k p)
    (item : ((me s).pe[p.val]).vset kind idx ((me s).gval x.a) = some e) :
    ∃ t, exec (.vset x) s = .next t ∧ Left s t ((me s).setPe p e) ∧ t.mem = s.mem ∧ t.disp = s.disp := by
  refine slotOp_left (execVset x s) rfl rfl ready ?_ ?_ rfl
  · rw [named]
    exact slotFree_some_iff.2 free
  · rw [named]
    exact congrArg (Option.map _) item

end

theorem vset_data (e : PE) (n : Fin 64) (v : Word) :
    e.vset 0 n.val v = some { e with v := e.v.set n.val { e.v[n.val] with data := v, res := resOf v } } := by
  simp [PE.vset, Nat.not_le.2 n.isLt]

theorem vset_tag (e : PE) (n : Fin 64) (v : Word) :
    e.vset 1 n.val v = some { e with v := e.v.set n.val { e.v[n.val] with p := v.getLsbD 4, flags := v.setWidth 4 } } := by
  simp [PE.vset, Nat.not_le.2 n.isLt]

theorem vset_reserved {e : PE} {kind idx : Nat} {v : Word} (h : kind ∉ [0, 1] ∨ 64 ≤ idx) : e.vset kind idx v = none := by
  rw [PE.vset]
  split
  · rfl
  · rename_i small
    obtain ⟨h0, h1⟩ : kind ≠ 0 ∧ kind ≠ 1 := by simpa using h.resolve_right small
    rw [if_neg h0, if_neg h1]

/-- VSET of a selector that names no item. -/
theorem vset_reserved_stops {x : SlotSrc2Args} {s : State} (ready : Ready s (.vset x) x.g [x.a, x.b])
    (reserved : 2 ^ 18 ≤ ((me s).gval x.b).toNat ∨ ((me s).gval x.b).toNat / 256 % 256 ∉ [0, 1] ∨
      64 ≤ ((me s).gval x.b).toNat % 256) : exec (.vset x) s = .next (s.raise s.sched.cur (.vset x) cIllOperand 0) := by
  by_cases parts : 2 ^ 18 ≤ ((me s).gval x.b).toNat ∨ 16 ≤ ((me s).gval x.b).toNat / 256 % 256
  · exact vset_stops_unnamed ready (selParts_none parts)
  · obtain ⟨small, kind⟩ := not_or.1 parts
    exact vset_stops ready (selParts_named (Nat.not_le.1 small) (Nat.not_le.1 kind)) fun _ =>
      vset_reserved (reserved.resolve_left small)

/-! ### The items of a PE (R326) -/

/-- R326: the items that do not exist. -/
def reservedItem (kind idx : Nat) : Prop :=
  5 < kind ∨ (kind ≤ 2 ∧ 64 ≤ idx) ∨ (kind = 3 ∧ 8 ≤ idx) ∨ (kind = 4 ∧ (32 ≤ idx ∨ 12 ≤ idx % 16)) ∨ (kind = 5 ∧ 5 ≤ idx)

theorem item_reserved {e : PE} {kind idx : Nat} (h : reservedItem kind idx) : e.item kind idx = none := by
  unfold reservedItem at h
  match kind with
  | 0 | 1 | 2 => exact if_neg (by omega)
  | 3 => exact if_neg (by omega)
  | 4 =>
    change (if idx < 32 then _ else none) = none
    split
    · rw [WBank.item, if_neg (by omega), if_neg (by omega), if_neg (by omega), if_neg (by omega)]
    · rfl
  | 5 =>
    match idx with
    | 0 | 1 | 2 | 3 | 4 => omega
    | _ + 5 => rfl
  | _ + 6 => rfl

theorem bit_toNat (b : Bool) : bit b = b.toNat := by cases b <;> rfl

section
variable (e : PE)

theorem item_data (n : Fin 64) : e.item 0 n.val = some (e.v[n.val]).data := by
  simp [PE.item]

theorem item_tag (n : Fin 64) :
    e.item 1 n.val = some (BitVec.ofNat 64 ((e.v[n.val]).p.toNat * 16 + (e.v[n.val]).flags.toNat)) := by
  simp [PE.item, FVal.tag, bit_toNat]

theorem item_acc (n : Fin 64) :
    e.item 2 n.val = some (((e.acc[n.val / 8]).data.extractLsb' (32 * (n.val % 8)) 32).setWidth 64) := by
  have row : n.val / 8 % 8 = n.val / 8 := Nat.mod_eq_of_lt (by omega)
  simp only [PE.item, n.isLt, if_true, Fin.val_ofNat, row, Option.some.injEq]
  apply BitVec.eq_of_toNat_eq
  simp [Nat.shiftRight_eq_div_pow]

theorem item_accTag (m : Fin 8) :
    e.item 3 m.val = some (BitVec.ofNat 64 ((e.acc[m.val]).int.toNat * 16 + (e.acc[m.val]).flags.toNat)) := by
  simp [PE.item, bit_toNat]

/-- R326: the sixteen words of a weight bank. -/
theorem item_bank (b : Fin 2) {w : Nat} (h : w < 16) : e.item 4 (16 * b.val + w) = (e.bank[b.val]).item w := by
  have small : 16 * b.val + w < 32 := by omega
  have bank : (16 * b.val + w) / 16 % 2 = b.val := by omega
  have word : (16 * b.val + w) % 16 = w := by omega
  simp only [PE.item, small, if_true, Fin.val_ofNat, bank, word]

end

theorem bankItem_elem (b : WBank) (m : Fin 8) : b.item m.val = some b.elem[m.val] := by
  simp [WBank.item]

theorem fourQuarters_sum (f : Nat → Nat) :
    f 0 + f 1 * 2 ^ 16 + f 2 * 2 ^ 32 + f 3 * 2 ^ 48 = ((List.range 4).map fun j => f j * 2 ^ (16 * j)).sum := by
  simp only [List.sum_range_succ, List.range_zero, List.map_nil, List.sum_nil]
  omega

/-- R326: words 8 and 9: four row scales each. -/
theorem bankItem_scales (b : WBank) (h : Fin 2) : b.item (8 + h.val) = some (BitVec.ofNat 64
    ((List.range 4).map fun j => ((b.rsc[(Fin.ofNat 8 (4 * h.val + j)).val]).toNat * 2 ^ (16 * j))).sum) := by
  have first : 4 * (8 + h.val - 8) = 4 * h.val := by omega
  rw [WBank.item, if_neg (by omega), if_pos (by omega), first,
    ← fourQuarters_sum fun j => (b.rsc[(Fin.ofNat 8 (4 * h.val + j)).val]).toNat]
  rfl

/-! ### VGET (R325, R326) -/

/-- R42, R76: an entry joins the log and its word issues. -/
theorem logged_spec (s : State) (e : LogEntry) :
    let t := s.logged s.sched.cur e
    Advanced s t ∧ (me t).seq.log = (me s).seq.log ++ [e] ∧ (me t).seq.g = (me s).seq.g ∧ (me t).seq.p = (me s).seq.p := by
  obtain ⟨advanced, regs, preds, log⟩ := advanced_of (s := s) (f := fun y => y.pushLog e) (by rfl)
  exact ⟨advanced, log, regs, preds⟩

/-- The entry of a VGET: its operand, and the value read in SRCC (log 30). -/
def vgetEntry (x : SlotSrc2Args) (y : CellSt) (v : Word) : LogEntry :=
  { word := wordOf (.vget x), pcw := y.seq.pc, srcA := {}, srcB := y.greg x.b, srcC := GReg.of v, dest := destG x.a,
    remain := 2, val := v }

section
variable {x : SlotSrc2Args} {s : State} {p : Fin 4} {kind idx : Nat} {v : Word}

theorem vget_stops_unnamed (ready : Ready s (.vget x) x.g [x.b]) (unnamed : selParts ((me s).gval x.b) = none) :
    exec (.vget x) s = .next (s.raise s.sched.cur (.vget x) cIllOperand 0) := by
  refine (exec_ready (execVget x s) rfl rfl ready).trans (congrArg _ ?_)
  rw [me] at unnamed
  simp only [unnamed]

/-- VGET of an item that does not exist, or of a PE that the sequencer may not reach. -/
theorem vget_stops (ready : Ready s (.vget x) x.g [x.b]) (named : selParts ((me s).gval x.b) = some (p, kind, idx))
    (refused : ((me s).pe[p.val]).item kind idx = none ∨ ¬opensPe (me s) x.k p) :
    exec (.vget x) s = .next (s.raise s.sched.cur (.vget x) cIllOperand 0) := by
  refine (exec_ready (execVget x s) rfl rfl ready).trans (congrArg _ ?_)
  rw [← slotFree_some_iff] at refused
  rw [me] at named refused
  simp only [named]
  split
  · rfl
  · rename_i v item
    obtain none_ | held := refused
    · rw [none_] at item; cases item
    · simp [held]

/-- VGET of a PE that the sequencer may not reach, or of an item that does not exist, or of a selector that names none. -/
theorem vget_refused (ready : Ready s (.vget x) x.g [x.b])
    (refused : 2 ^ 18 ≤ ((me s).gval x.b).toNat ∨
      reservedItem (((me s).gval x.b).toNat / 256 % 256) (((me s).gval x.b).toNat % 256) ∨
      ¬opensPe (me s) x.k (Fin.ofNat 4 (((me s).gval x.b).toNat / 65536))) :
    exec (.vget x) s = .next (s.raise s.sched.cur (.vget x) cIllOperand 0) := by
  by_cases parts : 2 ^ 18 ≤ ((me s).gval x.b).toNat ∨ 16 ≤ ((me s).gval x.b).toNat / 256 % 256
  · exact vget_stops_unnamed ready (selParts_none parts)
  · obtain ⟨small, kind⟩ := not_or.1 parts
    exact vget_stops ready (selParts_named (Nat.not_le.1 small) (Nat.not_le.1 kind))
      ((refused.resolve_left small).imp_left item_reserved)

/-- R325: VGET of an item by its residues, with room in the log. -/
theorem vget_enters (ready : Ready s (.vget x) x.g [x.b]) (room : (me s).seq.log.length < 8)
    (named : selParts ((me s).gval x.b) = some (p, kind, idx)) (free : opensPe (me s) x.k p)
    (item : ((me s).pe[p.val]).item kind idx = some v) :
    exec (.vget x) s = .next (match ((me s).pe[p.val]).itemBad kind idx with
      | some b => (s.modCell s.sched.cur CellSt.countRes).logged s.sched.cur
          { vgetEntry x (me s) v with fault := cMcResidue, bad := some b }
      | none => s.logged s.sched.cur (vgetEntry x (me s) v)) := by
  refine (exec_ready (execVget x s) rfl rfl ready).trans (congrArg _ ?_)
  have reach := slotFree_some_iff.2 free
  have fits := logFull_of_room room
  rw [me] at named reach fits item
  simp only [named, item, reach, fits]
  rfl

/-- VGET of an item that passes its check, or has none. -/
theorem vget_logged (ready : Ready s (.vget x) x.g [x.b]) (room : (me s).seq.log.length < 8)
    (free : opensPe (me s) x.k p) {k : Nat} (hk : kind < 16) (hi : idx < 256) (at_ : k = kind * 256 + idx)
    (item : ((me s).pe[p.val]).item kind idx = some v) (sound : ((me s).pe[p.val]).itemBad kind idx = none)
    (value : ((me s).gval x.b).toNat = p.val * 65536 + k) :
    ∃ t, exec (.vget x) s = .next t ∧ Logged s t (destG x.a) 2 v 0 := by
  have run := vget_enters ready room (selParts_at hk hi at_ value) free item
  rw [sound] at run
  obtain ⟨advanced, log, regs, preds⟩ := logged_spec s (vgetEntry x (me s) v)
  exact ⟨_, run, ⟨⟨_, log, rfl, rfl, rfl, rfl, rfl, rfl, rfl⟩, regs, preds⟩, advanced⟩

/-- R325: VGET of a register whose residues are wrong. -/
theorem vget_late {n : Fin 64} (ready : Ready s (.vget x) x.g [x.b]) (room : (me s).seq.log.length < 8)
    (free : opensPe (me s) x.k p) (bad : srcBad (((me s).pe[p.val]).v[n.val]).data (((me s).pe[p.val]).v[n.val]).res ≠ none)
    (value : ((me s).gval x.b).toNat = p.val * 65536 + n.val) :
    ∃ t l, exec (.vget x) s = .next t ∧ Issued s t ∧ (me t).seq.log = (me s).seq.log ++ [l] ∧ l.fault = cMcResidue ∧
      l.remain = 2 ∧ l.dest = destG x.a ∧ (me t).seq.g = (me s).seq.g ∧ t.mem = s.mem := by
  let pe := (me s).pe[p.val]
  have item := item_data pe n
  obtain ⟨b, wrong⟩ := Option.ne_none_iff_exists'.1 bad
  have check : pe.itemBad 0 n.val = some b := by
    simpa [PE.itemBad] using wrong
  have run := vget_enters ready room (selParts_at (kind := 0) (by decide) (by omega) (by omega) value) free item
  rw [check] at run
  let u := s.modCell s.sched.cur CellSt.countRes
  have same : me u = (me s).countRes := cell_modCell ..
  obtain ⟨advanced, log, regs, -⟩ := logged_spec u
    { vgetEntry x (me s) (pe.v[n.val]).data with fault := cMcResidue, bad := some b }
  rw [same] at log regs
  have seq := advanced.seq
  rw [same] at seq
  exact ⟨_, _, run, ⟨elsewhere_trans (elsewhere_modCell ..) advanced.elsewhere, seq, advanced.thawed⟩, log, rfl, rfl, rfl,
    regs, advanced.mem⟩

end

/-- Settles O37: the instructions on a slot by what they find of it and of their item, VSET and VGET by the parts of their
selector and the items of a PE. -/
theorem regionItems : Obligations.RegionItems := by
  unfold Obligations.RegionItems
  intro s y c free open_ wrote stops
  refine ⟨?acset, ?seed, ?ten, ?clr, ?vset, ?vgetStops, ?vgetReads⟩
  case acset =>
    intro x ready e
    refine ⟨fun shut => ?_, fun opens some_ mid high mid' high' => ?_⟩
    · exact slotOp_stops (execAcset x s) rfl rfl ready fun reach => absurd (slotFree_some_iff.1 reach) shut
    · exact acset_left ready opens (acOf_words mid high mid' high') (acN0_ne_zero some_)
  case seed =>
    intro x ready e
    refine ⟨fun shut => ?_, fun opens => ?_⟩
    · exact slotOp_stops (execCsetSeed x s) rfl rfl ready fun reach => absurd (slotFree_some_iff.1 reach) shut
    · exact slotOp_left (execCsetSeed x s) rfl rfl ready (slotFree_some_iff.2 opens) rfl rfl
  case ten =>
    intro x ready r
    refine ⟨fun busy => ?_, fun idle => ?_⟩
    · exact slotOp_stops (execCsetTen x s) rfl rfl ready fun reach => absurd (slotFree_none_iff.1 reach) busy
    · exact slotOp_left (execCsetTen x s) rfl rfl ready (slotFree_none_iff.2 idle) rfl rfl
  case clr =>
    intro x ready r
    refine ⟨fun busy => ?_, fun idle => ?_⟩
    · exact slotOp_stops (execCsetClr x s) rfl rfl ready fun reach => absurd (slotFree_none_iff.1 reach) busy
    · exact slotOp_left (execCsetClr x s) rfl rfl ready (slotFree_none_iff.2 idle) rfl rfl
  case vset =>
    intro x p n ready e o took
    refine ⟨fun value => ?_, fun value => ?_, fun reserved => ?_⟩
    · have named : selParts (y.gval x.b) = some (p, 0, n.val) := selParts_at (by decide) (by omega) (by omega) value
      exact ⟨fun opens => vset_left ready named opens (vset_data ..), fun shut => vset_stops ready named (absurd · shut)⟩
    · have named : selParts (y.gval x.b) = some (p, 1, n.val) :=
        selParts_at (by decide) (by omega) (by omega) (value.trans (Nat.add_assoc ..))
      exact ⟨fun opens => vset_left ready named opens (vset_tag ..), fun shut => vset_stops ready named (absurd · shut)⟩
    · exact vset_reserved_stops ready reserved
  case vgetStops =>
    intro x ready v kind idx refused
    refine vget_refused ready (refused.imp_right fun h => ?_)
    simp only [reservedItem, or_assoc]
    exact h
  case vgetReads =>
    intro x p n ready room opens e o reads
    have enters {kind idx k : Nat} {v : Word} := vget_logged (kind := kind) (idx := idx) (k := k) (v := v) ready room opens
    refine ⟨fun sound => ?data, vget_late ready room opens, ?tag, ?acc, fun m => ?accTag, fun b m => ?elem, fun b h => ?scales,
      fun b => ⟨?t, ?fmt⟩, ?xs, ?ff, ?act, fun sound => ?bus, ?busTag⟩
    case data => exact enters (kind := 0) (by decide) (by omega) (by omega) (item_data e n) (by simpa [PE.itemBad] using sound)
    case tag => exact enters (kind := 1) (by decide) (by omega) (by omega) (item_tag e n) rfl
    case acc => exact enters (kind := 2) (by decide) (by omega) (by omega) (item_acc e n) rfl
    case accTag => exact enters (kind := 3) (by decide) (by omega) (by omega) (item_accTag e m) rfl
    case elem =>
      exact enters (kind := 4) (by decide) (by omega) (by omega)
        ((item_bank e b (by omega)).trans (bankItem_elem _ m)) rfl
    case scales =>
      exact enters (kind := 4) (by decide) (by omega) (by omega)
        ((item_bank e b (by omega)).trans (bankItem_scales _ h)) rfl
    case t => exact enters (kind := 4) (by decide) (by omega) (by omega) (item_bank e b (w := 10) (by decide)) rfl
    case fmt => exact enters (kind := 4) (by decide) (by omega) (by omega) (item_bank e b (w := 11) (by decide)) rfl
    case xs => exact enters (kind := 5) (idx := 0) (by decide) (by decide) rfl rfl rfl
    case ff => exact enters (kind := 5) (idx := 1) (by decide) (by decide) rfl rfl rfl
    case act => exact enters (kind := 5) (idx := 2) (by decide) (by decide) rfl (by rw [← bit_toNat]; rfl) rfl
    case bus => exact enters (kind := 5) (idx := 3) (by decide) (by decide) rfl rfl sound
    case busTag => exact enters (kind := 5) (idx := 4) (by decide) (by decide) rfl (by rw [← bit_toNat]; rfl) rfl

end Sys2Proof.Proofs
end

section
/-! PROOFS. Copy chunks: CP.XFR whose GADDR names a cell that needs the 16th bit of the field of R123. -/

namespace Sys2Proof.Proofs
open Sys2Proof Sys2Proof.Machine Sys2Proof.Safety Sys2Proof.Laws

/-- A CP.XFR of one word whose GADDR has only bit 47 set: the field [47:32] of R123 is 32,768, its low 15 bits are 0. -/
def farTransfer : CopyCmd :=
  { op := 3, gaddr := 0x800000000000, soff := 0, run := 8, nrun := 1, gstride := 0, sstride := 0, cwoff := 0, cval := 0,
    dir := false, pattern := 0, stage := .reading, got := [(0, some 0)] }

/-- Cell 1 has read the one word of the transfer. -/
def farTransferring : State := { cells := [(1, { copyq := [farTransfer] })] }

/-- The transfer's word goes to cell 32,768, so cell 0 is asked for nothing. -/
theorem farTransfer_spares_cell_zero {t : State} (h : exec (.copyChunk 1) farTransferring = .next t) : (t.cell 0).puts = [] := by
  cases h
  decide

/-- Every byte of the chunk lies in the one word that has been read. -/
theorem farTransfer_word_read : ∀ b < 8, farTransfer.progress ≤ b →
    ((farTransfer.got.find? fun e => e.1 = (((farTransfer.soff : Int) + ((b / farTransfer.run : Nat) *
      farTransfer.sstride.toInt + (b % farTransfer.run : Nat))) / 8 * 8).toNat).bind (·.2)).isSome = true := by
  decide

/-- Refutes O51: the statement takes the target cell of a CP.XFR from 15 bits of GADDR, where R123 gives it the 16 bits
[47:32]. A transfer to the number 32,768 asks for its writes there, and the statement wants them in cell 0. -/
theorem not_arrivalEvents : ¬ Obligations.ArrivalEvents := by
  unfold Obligations.ArrivalEvents
  rintro ⟨-, -, -, chunks, -⟩
  obtain ⟨-, -, -, -, -, -, transfers, -⟩ := chunks 1 farTransfer [] farTransferring rfl rfl (by decide)
  obtain ⟨t, ps, run, -, -, asked, covered⟩ := transfers.1 ⟨rfl, by decide, farTransfer_word_read⟩ rfl (by decide) (by decide) (by decide)
  obtain ⟨p, mem, -⟩ := covered 0 (by decide) (by decide)
  have spared := farTransfer_spares_cell_zero run
  rw [show farTransfer.gaddr.toNat / 2 ^ 32 % 2 ^ 15 = 0 from rfl] at asked
  have none_asked : ps = [] := (List.append_eq_nil_iff.1 (asked ▸ spared)).2
  simp [none_asked] at mem

end Sys2Proof.Proofs
end

section
/-! PROOFS. Accesses of the sequencer: the paths of an address, the banks of the scratchpad, and what LDS, STS and the checks of a
global access do (R108, R111, R123, R124, R299, R303). -/

namespace Sys2Proof.Proofs

open Sys2Proof Sys2Proof.Machine Sys2Proof.Safety Sys2Proof.Laws

/-! ### The paths of an address (R123, R124) -/

/-- R123: the path and the other bits of an address. -/
theorem path_parts (a : Word) : a.toNat / 2 ^ 60 = pathOf a := by
  have := a.isLt
  rw [pathOf, wbits_toNat]
  omega

/-- R123, path 0x1: bits [59:19] are 0. -/
theorem addrOk_own {x : CellSt} {a : Word} : x.addrOk [1] a = true ↔ a.toNat / 2 ^ 19 = 2 ^ 41 := by
  have parts := path_parts a
  have rest : wbits a 59 19 = a.toNat / 2 ^ 19 % 2 ^ 41 := wbits_toNat ..
  by_cases path : pathOf a = 1
  · simp only [CellSt.addrOk, legalAddr, path, rest, List.contains_cons, BEq.rfl, Bool.true_or, Bool.and_true, beq_iff_eq]
    omega
  · simp only [CellSt.addrOk, List.contains_cons, List.contains_nil, Bool.or_false, Bool.and_eq_true, beq_iff_eq, path, and_false,
      false_iff]
    omega

/-- R123, path 0x0: bits [59:48] are 0. -/
theorem addrOk_virtual {x : CellSt} {a : Word} : x.addrOk [0] a = true ↔ a.toNat < 2 ^ 48 := by
  have parts := path_parts a
  have rest : wbits a 59 48 = a.toNat / 2 ^ 48 % 2 ^ 12 := wbits_toNat ..
  by_cases path : pathOf a = 0
  · simp only [CellSt.addrOk, legalAddr, path, rest, List.contains_cons, BEq.rfl, Bool.true_or, Bool.and_true, beq_iff_eq]
    omega
  · simp only [CellSt.addrOk, List.contains_cons, List.contains_nil, Bool.or_false, Bool.and_eq_true, beq_iff_eq, path, and_false,
      false_iff]
    omega

/-- R123, path 0x3: bits [59:41] are 0, and the sequencer runs firmware. -/
theorem addrOk_device {x : CellSt} {a : Word} : x.addrOk [3] a = true ↔ a.toNat / 2 ^ 41 = 3 * 2 ^ 19 ∧ x.seq.fw = true := by
  have parts := path_parts a
  have rest : wbits a 59 41 = a.toNat / 2 ^ 41 % 2 ^ 19 := wbits_toNat ..
  by_cases path : pathOf a = 3
  · simp only [CellSt.addrOk, legalAddr, path, rest, List.contains_cons, BEq.rfl, Bool.true_or, Bool.and_true, Bool.and_eq_true,
      beq_iff_eq]
    exact and_congr_left' (by omega)
  · simp only [CellSt.addrOk, List.contains_cons, List.contains_nil, Bool.or_false, Bool.and_eq_true, beq_iff_eq, path, and_false,
      false_iff]
    omega

/-- R124: an address on one of two paths. -/
theorem addrOk_pair (x : CellSt) (p q : Nat) (a : Word) : x.addrOk [p, q] a = (x.addrOk [p] a || x.addrOk [q] a) := by
  simp only [CellSt.addrOk, List.contains_cons, List.contains_nil, Bool.or_false, Bool.and_or_distrib_left]

/-- R124: the addresses that global memory's instructions take. -/
theorem addrOk_global {x : CellSt} {a : Word} :
    x.addrOk [0, 3] a = true ↔ a.toNat < 2 ^ 48 ∨ (a.toNat / 2 ^ 41 = 3 * 2 ^ 19 ∧ x.seq.fw = true) := by
  rw [addrOk_pair, Bool.or_eq_true, addrOk_virtual, addrOk_device]

theorem pathOf_virtual {a : Word} (h : a.toNat < 2 ^ 48) : pathOf a = 0 := by
  have := path_parts a
  omega

theorem pathOf_device {x : CellSt} {a : Word} (ok : x.addrOk [0, 3] a = true) (h : 2 ^ 48 ≤ a.toNat) : pathOf a = 3 := by
  have := path_parts a
  rcases addrOk_global.1 ok with low | ⟨high, -⟩ <;> omega

theorem offOf_eq (a : Word) : offOf a = a.toNat % 2 ^ 19 := by
  rw [offOf, wbits_toNat]
  omega

/-! ### The checks of an access (R299) -/

section
variable {s : State} {c : Nat} {i : Instr} {paths : List Nat} {a : Word} {aligned : Bool} {go : State}

theorem addrChecked_ok (ok : (s.cell c).addrOk paths a = true) (even : aligned = true) :
    s.addrChecked c i paths a aligned go = go := by
  simp [State.addrChecked, ok, even]

theorem addrChecked_illegal (bad : ¬(s.cell c).addrOk paths a = true) :
    s.addrChecked c i paths a aligned go = s.raise c i cAddrIllegal a := by
  simp [State.addrChecked, bad]

theorem addrChecked_misaligned (ok : (s.cell c).addrOk paths a = true) (odd : ¬aligned = true) :
    s.addrChecked c i paths a aligned go = s.raise c i cMisalign a := by
  simp [State.addrChecked, ok, odd]

end

theorem alignedTo_iff {a : Word} {n : Nat} : alignedTo a n = true ↔ a.toNat % n = 0 := decide_eq_true_iff

/-! ### A step that leaves memory's bytes, the other cells and the sequencer -/

/-- Before its word issues, an instruction has changed nothing but the requests, and of its own cell neither the sequencer nor
the scratchpad's bytes. -/
structure Aside (s u : State) : Prop where
  frame : Elsewhere s.sched.cur s u
  disp : u.disp = s.disp
  dram : u.mem.dram = s.mem.dram
  host : u.mem.host = s.mem.host
  seq : (u.cell s.sched.cur).seq = (me s).seq
  spad : (u.cell s.sched.cur).spad = (me s).spad

namespace Aside

theorem refl (s : State) : Aside s s := ⟨elsewhere_refl _ _, rfl, rfl, rfl, rfl, rfl⟩

section
variable {s u t : State} (h : Aside s u)
include h

theorem cur : u.sched.cur = s.sched.cur := by rw [h.frame.sched]

theorem me_eq : me u = u.cell s.sched.cur := me_of h.frame rfl

/-- A change of the cell. -/
theorem modCell {f : CellSt → CellSt} (seq : ∀ x, (f x).seq = x.seq) (spad : ∀ x, (f x).spad = x.spad) :
    Aside s (u.modCell s.sched.cur f) :=
  ⟨elsewhere_trans h.frame (elsewhere_modCell ..), h.disp, h.dram, h.host, by rw [cell_modCell, seq, h.seq],
    by rw [cell_modCell, spad, h.spad]⟩

theorem useBanks (cls : Nat) (bs : List Nat) : Aside s (u.modCell s.sched.cur fun x => x.useBanks cls bs) :=
  h.modCell (fun _ => rfl) fun _ => rfl

theorem spNote (o : Nat) : Aside s (u.modCell s.sched.cur fun x => x.spNote o) :=
  h.modCell (fun x => (spNote_same x o).1.seq) fun x => (spNote_same x o).2

theorem ev (code : Nat) : Aside s (u.ev s.sched.cur code) := h.modCell (fun _ => rfl) fun _ => rfl

theorem dropReq (id : Nat) : Aside s (u.dropReq id) :=
  ⟨⟨h.frame.cells, h.frame.dies, h.frame.fns, h.frame.sys, h.frame.sched⟩, h.disp, h.dram, h.host, h.seq, h.spad⟩

theorem addReq (r : Req) : Aside s (u.addReq r) :=
  ⟨⟨h.frame.cells, h.frame.dies, h.frame.fns, h.frame.sys, h.frame.sched⟩, h.disp, h.dram, h.host, h.seq, h.spad⟩

/-- Every byte that such a step leaves. -/
theorem bytes : SameBytes s u := by
  refine ⟨by simp [h.dram], by simp [h.host], fun n a => ?_⟩
  by_cases own : n = s.sched.cur
  · rw [own, h.spad]
    rfl
  · rw [h.frame.cells n own]

theorem bytes_then (same : SameBytes u t) : SameBytes s t := by
  obtain ⟨dram, host, spad⟩ := h.bytes
  obtain ⟨dram', host', spad'⟩ := same
  exact ⟨fun a => (dram' a).trans (dram a), fun a => (host' a).trans (host a), fun c a => (spad' c a).trans (spad c a)⟩

/-- A word that issues after it. -/
theorem issued (i : Issued u t) : Issued s t := by
  obtain ⟨frame, seq, thawed⟩ := i
  rw [h.cur] at frame
  rw [h.me_eq, h.seq] at seq
  exact ⟨elsewhere_trans h.frame frame, seq, thawed⟩

theorem kept (k : KeptRegs u t) : KeptRegs s t := by
  obtain ⟨regs, preds, log⟩ := k
  rw [h.me_eq, h.seq] at regs preds log
  exact ⟨regs, preds, log⟩

theorem tookG {d : Reg} {v : Word} (k : TookG u t d v) : TookG s t d v := by
  obtain ⟨value, others, preds, log⟩ := k
  rw [h.me_eq, h.seq] at preds log
  refine ⟨value, fun r hr => ?_, preds, log⟩
  rw [others r hr, CellSt.greg, CellSt.greg, h.me_eq, h.seq]

/-- A word that changes no memory and no unit after it. -/
theorem advanced (a : Advanced u t) : Issued s t ∧ t.mem = u.mem ∧ t.disp = s.disp ∧ SameBytes s t :=
  ⟨h.issued a.toIssued, a.mem, a.disp.trans h.disp, h.bytes_then a.bytes⟩

/-- The word issues. -/
theorem advance : let t := u.advance s.sched.cur
    Issued s t ∧ KeptRegs s t ∧ t.mem = u.mem ∧ t.disp = s.disp ∧ SameBytes s t := by
  obtain ⟨advanced, kept⟩ := advance_of_trace u u (traceOnly_refl _ _)
  rw [h.cur] at advanced kept
  obtain ⟨issued, mem, disp, bytes⟩ := h.advanced advanced
  exact ⟨issued, h.kept kept, mem, disp, bytes⟩

/-- The word writes a register, and issues. -/
theorem write (d : Reg) (v : Word) : let t := (u.modCell s.sched.cur fun x => x.write1 d v).advance s.sched.cur
    Issued s t ∧ TookG s t d v ∧ t.mem = u.mem ∧ t.disp = s.disp ∧ SameBytes s t := by
  obtain ⟨took, advanced⟩ := write1_wrote u d fun _ => v
  rw [h.cur] at took advanced
  obtain ⟨issued, mem, disp, bytes⟩ := h.advanced advanced
  exact ⟨issued, h.tookG took, mem, disp, bytes⟩

/-- The word records itself, and issues. -/
theorem logged (e : LogEntry) : let t := u.logged s.sched.cur e
    Issued s t ∧ t.mem = u.mem ∧ t.disp = s.disp ∧ SameBytes s t ∧ (me t).seq.log = (me s).seq.log ++ [e] ∧
      (me t).seq.g = (me s).seq.g ∧ (me t).seq.p = (me s).seq.p := by
  obtain ⟨advanced, log, regs, preds⟩ := logged_spec u e
  rw [h.cur] at advanced log regs preds
  rw [h.me_eq, h.seq] at log regs preds
  obtain ⟨issued, mem, disp, bytes⟩ := h.advanced advanced
  exact ⟨issued, mem, disp, bytes, log, regs, preds⟩

end

/-- R301: an access that has been performed enters what it read. -/
theorem entered {s u : State} (h : Aside s u) {i : Instr} {e : LogEntry} (run : exec i s = .next (u.logged s.sched.cur e))
    (fresh : e.flags = 0 ∧ e.fault = 0 ∧ e.phase = none ∧ e.pcw = (me s).seq.pc) :
    ∃ t, exec i s = .next t ∧ Issued s t ∧ t.mem = u.mem ∧ t.disp = s.disp ∧ SameBytes s t ∧
      Entered s t e.dest e.remain e.val 0 := by
  obtain ⟨issued, mem, disp, bytes, log, regs, preds⟩ := h.logged e
  exact ⟨_, run, issued, mem, disp, bytes, ⟨e, log, rfl, rfl, rfl, fresh⟩, regs, preds⟩

end Aside

/-! ### Bank words (R108, R111, R113) -/

/-- R111: the sequencer gets the banks that it asks for. -/
theorem withBanks_granted {s : State} {c : Nat} {bs : List Nat} {go : State → State}
    (free : ∀ b ∈ bs, (s.cell c).bankFree 2 b = true) :
    s.withBanks c bs go = go (s.modCell c fun x => x.useBanks 2 bs) := by
  have granted : bs.all ((s.cell c).bankFree 2) = true := List.all_eq_true.2 free
  simp only [State.withBanks, CellSt.askBanks, granted, if_true]
  rfl

theorem withBank_granted {s : State} {c b : Nat} {go : State → State} (free : (s.cell c).bankFree 2 b = true) :
    s.withBanks c [b] go = go (s.modCell c fun x => x.useBanks 2 [b]) :=
  withBanks_granted fun _ hb => List.mem_singleton.1 hb ▸ free

theorem spNote_seq (x : CellSt) (a : Nat) : (x.spNote a).seq = x.seq := (spNote_same x a).1.seq
theorem spNote_spad (x : CellSt) (a : Nat) : (x.spNote a).spad = x.spad := (spNote_same x a).2

/-- R108: a word is the eight bytes from its own offset. -/
theorem spWord_toNat (x : CellSt) (o : Nat) : (x.spWord o).toNat = leNat (mread x.spad (o / 8 * 8) 8) := by
  have lt := leNat_mread_lt x.spad 8 (o / 8 * 8)
  rw [CellSt.spWord, mword, toNat_ofNat_of_lt lt]

/-- R303: the bytes of an aligned access out of its word. -/
theorem spWord_slice (x : CellSt) {o n : Nat} (inside : o % 8 + n ≤ 8) :
    (x.spWord o).toNat / 256 ^ (o % 8) % 256 ^ n = leNat (mread x.spad o n) := by
  have place : o / 8 * 8 + o % 8 = o := by omega
  rw [spWord_toNat, leNat_mread_slice _ _ _ _ _ inside, place]

/-- R109: a bank write leaves the sequencer, and puts its bytes into the scratchpad. -/
theorem spWrite_seq (x : CellSt) (o n v : Nat) : (x.spWrite o n v).seq = x.seq := by
  unfold CellSt.spWrite
  rw [(spWake_same _ _).1.seq]
  split
  · exact spNote_seq x o
  · rfl

theorem spWrite_spad (x : CellSt) (o n v : Nat) : (x.spWrite o n v).spad = mwrite x.spad o (leBytes v n) := by
  unfold CellSt.spWrite
  rw [(spWake_same _ _).2]
  split
  · exact congrArg (fun m => mwrite m o (leBytes v n)) (spNote_spad x o)
  · rfl

/-! ### LDS and STS (R303) -/

/-- R303: a size divides the word, and the scratchpad. -/
theorem size_cases (k : Fin 4) : 2 ^ k.val ∈ [1, 2, 4, 8] := by
  revert k
  decide

/-- R108: an aligned access lies in one word. -/
theorem aligned_in_word {o n : Nat} (size : n ∈ [1, 2, 4, 8]) (aligned : o % n = 0) : o % 8 + n ≤ 8 := by
  simp only [List.mem_cons, List.not_mem_nil, or_false] at size
  rcases size with rfl | rfl | rfl | rfl <;> omega

/-- R299: the offset of an address is aligned where the address is. -/
theorem aligned_offset {a n : Nat} (size : n ∈ [1, 2, 4, 8]) : a % 2 ^ 19 % n = 0 ↔ a % n = 0 := by
  simp only [List.mem_cons, List.not_mem_nil, or_false] at size
  rcases size with rfl | rfl | rfl | rfl <;> omega

/-- R303: the low bytes of a register, one by one. -/
theorem lowBytes_byte {n k : Nat} (v : Word) (h : k < n) : BitVec.ofNat 8 (v.toNat % 256 ^ n / 256 ^ k) = v.extractLsb' (8 * k) 8 := by
  rw [extractLsb'_byte]
  apply BitVec.eq_of_toNat_eq
  simp only [BitVec.toNat_ofNat]
  obtain ⟨d, rfl⟩ := Nat.exists_eq_add_of_lt h
  have split : 256 ^ (k + d + 1) = 256 ^ k * (256 ^ d * 256) := by rw [← Nat.pow_succ, ← Nat.pow_add, Nat.add_assoc]
  rw [split, Nat.mod_mul_right_div_self, show (2 : Nat) ^ 8 = 256 from rfl, Nat.mod_mul_left_mod]

section
variable {x : SpadArgs} {s : State}

/-- R299, R303: the address of LDS and STS, and its offset. -/
def spadAddr (x : SpadArgs) (s : State) : Word := (me s).ea x.base x.imm (Machine.sizeOf x.size)

theorem lds_run (ready : Ready s (.lds x) x.g [x.base]) (own : (me s).addrOk [1] (spadAddr x s) = true)
    (aligned : alignedTo (spadAddr x s) (Machine.sizeOf x.size) = true)
    (free : (me s).bankFree 2 (bankOf (offOf (spadAddr x s))) = true) (room : (me s).logFull = false)
    (sound : (me s).spBad (offOf (spadAddr x s)) = false) :
    exec (.lds x) s = .next (((s.modCell s.sched.cur fun y => y.useBanks 2 [bankOf (offOf (spadAddr x s))]).modCell s.sched.cur
      fun z => z.spNote (offOf (spadAddr x s))).logged s.sched.cur
        ((memEntry (me s) (.lds x) (destG x.r) 3 ((me s).greg x.base) {} (spadAddr x s)).got
          (BitVec.ofNat 64 (((me s).spWord (offOf (spadAddr x s))).toNat / 256 ^ (offOf (spadAddr x s) % 8) %
            256 ^ Machine.sizeOf x.size)))) := by
  refine (exec_ready (execLds x s) rfl rfl ready).trans (congrArg _ ?_)
  refine (addrChecked_ok own aligned).trans ?_
  rw [if_neg (by exact Bool.eq_false_iff.1 room), withBank_granted (by exact free), if_neg (by exact Bool.eq_false_iff.1 sound)]
  rfl

theorem sts_run (ready : Ready s (.sts x) x.g [x.base, x.r]) (own : (me s).addrOk [1] (spadAddr x s) = true)
    (aligned : alignedTo (spadAddr x s) (Machine.sizeOf x.size) = true)
    (free : (me s).bankFree 2 (bankOf (offOf (spadAddr x s))) = true)
    (sound : ¬(decide (Machine.sizeOf x.size < 8) && (me s).spBad (offOf (spadAddr x s))) = true) :
    exec (.sts x) s = .next (((s.modCell s.sched.cur fun y => y.useBanks 2 [bankOf (offOf (spadAddr x s))]).modCell s.sched.cur
      fun z => z.spWrite (offOf (spadAddr x s)) (Machine.sizeOf x.size)
        (((me s).gval x.r).toNat % 256 ^ Machine.sizeOf x.size)).advance s.sched.cur) := by
  refine (exec_ready (execSts x s) rfl rfl ready).trans (congrArg _ ?_)
  refine (addrChecked_ok own aligned).trans ?_
  rw [withBank_granted (by exact free), if_neg (by exact sound)]
  rfl

/-- R109: a bank cycle that writes, and the word issues. -/
theorem write_spad_advance (s : State) (bs : List Nat) (o n v : Nat) :
    let t := ((s.modCell s.sched.cur fun y => y.useBanks 2 bs).modCell s.sched.cur fun z => z.spWrite o n v).advance s.sched.cur
    Issued s t ∧ KeptRegs s t ∧ t.mem = s.mem ∧ t.disp = s.disp ∧ (me t).spad = mwrite (me s).spad o (leBytes v n) := by
  intro t
  have cell : ((s.modCell s.sched.cur fun y => y.useBanks 2 bs).modCell s.sched.cur fun z => z.spWrite o n v).cell s.sched.cur =
      ((me s).useBanks 2 bs).spWrite o n v := by simp only [cell_modCell, me]
  have left := advance_left (elsewhere_trans (elsewhere_modCell s s.sched.cur fun y => y.useBanks 2 bs) (elsewhere_modCell _ _ fun z =>
    z.spWrite o n v)) (by rw [cell, spWrite_seq]; rfl)
  refine ⟨left.toIssued, left.kept, advance_mem .., advance_disp .., ?_⟩
  refine (congrArg CellSt.spad left.units).trans ?_
  rw [cell, spWrite_spad]
  rfl

/-- R124, R299: an access that its checks refuse, its path first. -/
theorem refused_access {i : Instr} {paths : List Nat} {a : Word} {n : Nat} {legal : Prop} {go : State}
    (run : exec i s = .next (s.addrChecked s.sched.cur i paths a (alignedTo a n) go))
    (ok : (me s).addrOk paths a = true ↔ legal) :
    (¬legal → exec i s = .next (s.raise s.sched.cur i cAddrIllegal a)) ∧
    (legal → a.toNat % n ≠ 0 → exec i s = .next (s.raise s.sched.cur i cMisalign a)) := by
  rw [run]
  refine ⟨fun illegal => congrArg _ (addrChecked_illegal fun h => illegal (ok.1 h)), fun hlegal odd => congrArg _ ?_⟩
  exact addrChecked_misaligned (ok.2 hlegal) fun h => odd (alignedTo_iff.1 h)

end

/-! ### The forms of a global access (R304) -/

theorem exec_load {p : (GlobArgs → Instr) × Nat} (h : p ∈ loadOps) (x : GlobArgs) (s : State) :
    exec (p.1 x) s = loadOp (p.1 x) x p.2 s := by
  simp only [loadOps, List.mem_cons, List.not_mem_nil, or_false] at h
  rcases h with rfl | rfl | rfl | rfl <;> rfl

theorem exec_store {p : (GlobArgs → Instr) × Nat} (h : p ∈ storeOps) (x : GlobArgs) (s : State) :
    exec (p.1 x) s = storeOp (p.1 x) x p.2 s := by
  simp only [storeOps, List.mem_cons, List.not_mem_nil, or_false] at h
  rcases h with rfl | rfl | rfl | rfl <;> rfl

/-- Settles O27: LDS and STS by the word of their bank, and the checks of an access by its path and its alignment. -/
theorem scratchpadAccesses : Obligations.ScratchpadAccesses := by
  unfold Obligations.ScratchpadAccesses
  refine ⟨fun x s => ?own, fun x s i srcs which ready => ?spad, fun p x s which => ?global⟩
  case own =>
    intro n a o own aligned free
    have size : n ∈ [1, 2, 4, 8] := size_cases x.size
    have even : alignedTo (spadAddr x s) (Machine.sizeOf x.size) = true := alignedTo_iff.2 ((aligned_offset size).1 aligned)
    have offset : offOf (spadAddr x s) = o := offOf_eq _
    rw [← offset] at free
    refine ⟨fun ready room sound => ?lds, fun ready sound wf => ?sts⟩
    case lds =>
      rw [← offset] at sound
      have run := lds_run ready (addrOk_own.2 own) even free (logFull_of_room room) sound
      rw [spWord_slice (me s) (n := Machine.sizeOf x.size) (by rw [offset]; exact aligned_in_word size aligned)] at run
      obtain ⟨t, run, issued, mem, disp, bytes, entered⟩ := (((Aside.refl s).useBanks 2 _).spNote _).entered run ⟨rfl, rfl, rfl, rfl⟩
      refine ⟨t, run, ?_, issued, mem, disp, bytes⟩
      rw [← offset]
      exact entered
    case sts =>
      rw [← offset] at sound
      have run := sts_run ready (addrOk_own.2 own) even free (by
        rcases sound with whole | sound
        · rw [show Machine.sizeOf x.size = 8 from whole]; simp
        · rw [sound]; simp)
      obtain ⟨issued, kept, mem, disp, spad⟩ := write_spad_advance s [bankOf (offOf (spadAddr x s))] (offOf (spadAddr x s))
        (Machine.sizeOf x.size) (((me s).gval x.r).toNat % 256 ^ Machine.sizeOf x.size)
      refine ⟨_, run, issued, kept, mem, disp, fun k hk => ?_, fun b outside => ?_⟩
      · rw [spad, offset]
        exact (mget_mwrite_leBytes _ _ wf hk).trans (lowBytes_byte _ hk)
      · rw [spad, offset]
        exact mget_mwrite_ne _ _ _ _ (by rw [leBytes_length]; exact outside)
  case spad =>
    rcases which with ⟨rfl, rfl⟩ | ⟨rfl, rfl⟩
    · exact refused_access (exec_ready (execLds x s) rfl rfl ready) addrOk_own
    · exact refused_access (exec_ready (execSts x s) rfl rfl ready) addrOk_own
  case global =>
    rcases which with ⟨load, ready⟩ | ⟨store, ready⟩
    · exact refused_access (exec_ready _ (exec_load load x s) rfl ready) addrOk_global
    · exact refused_access (exec_ready _ (exec_store store x s) rfl ready) addrOk_global

end Sys2Proof.Proofs
end

section
/-! PROOFS. WAITA and LK.WAIT: the word that they read, and the wait for one that meets their condition (R116, R308, R338). -/

namespace Sys2Proof.Proofs

open Sys2Proof Sys2Proof.Machine Sys2Proof.Safety Sys2Proof.Laws

/-! ### The word of an aligned offset (R108, R113) -/

theorem spWord_aligned (x : CellSt) {o : Nat} (aligned : o % 8 = 0) : x.spWord o = mword x.spad o := by
  rw [CellSt.spWord, show o / 8 * 8 = o by omega]

/-- R111, R113: one word that the sequencer can read in this cycle. -/
theorem readable_one {x : CellSt} {o : Nat} (h : Readable x o 1) : x.bankFree 2 (bankOf o) = true ∧ x.spBad o = false :=
  h 0 Nat.one_pos

/-- R111, R113: what a granted read of one word leaves of the module. -/
def readOne (s : State) (o : Nat) : State :=
  (s.modCell s.sched.cur fun y => y.useBanks 2 [bankOf o]).modCell s.sched.cur fun z => z.spNote o

theorem aside_readOne (s : State) (o : Nat) : Aside s (readOne s o) := ((Aside.refl s).useBanks 2 _).spNote o

/-- A read of a word begins no stop of its cell. -/
theorem readOne_stop (s : State) (o : Nat) : ((readOne s o).cell s.sched.cur).stop = (me s).stop := by
  rw [readOne, cell_modCell, cell_modCell, CellSt.spNote]
  split <;> rfl

/-! ### A wait (R40, R84) -/

theorem Aside.waits {s u : State} (h : Aside s u) (hold : List Word) : let t := u.waitAt s.sched.cur hold
    (me t).freeze = .wait ∧ (me t).hold = hold ∧ (me t).seq = (me s).seq ∧ t.mem = u.mem ∧ SameBytes s t := by
  intro t
  have waits := waitAt_spec u s.sched.cur hold
  have cell : me t = t.cell s.sched.cur := by rw [me, waits.sched, h.cur]
  rw [cell]
  refine ⟨by rw [waits.cell], by rw [waits.cell], by rw [waits.cell]; exact h.seq, waits.mem, h.bytes_then ?_⟩
  exact sameBytes_of s.sched.cur waits.mem waits.others (by rw [waits.cell])

/-- R84: a wait with no yield asked for and no stop begun leaves the dispatcher's lists. -/
theorem waitAt_disp {s : State} {c : Nat} (hold : List Word) (goes : (s.cell c).stop = none) (stays : (s.cell c).seq.yreq = false) :
    (s.waitAt c hold).disp = s.disp := by
  simp [State.waitAt, goes, stays]

/-! ### The conditions (R116) -/

/-- R116: the condition of DONE, which LK.WAIT has too. -/
theorem waitaHolds_done {w c : Word} :
    waitaHolds w c 3 = true ↔ w.getLsbD 63 = true ∨ w.toNat % 2 ^ 56 = c.toNat % 2 ^ 56 := by
  simp [waitaHolds, wbits_toNat]

theorem waitaHolds_iff (cond : WaitaCond) {w c : Word} : waitaHolds w c (waitaCode cond) = true ↔
    match cond with
    | .eq => w = c | .ne => w ≠ c | .gen => c.toNat ≤ w.toNat
    | .done => w.getLsbD 63 = true ∨ w.toNat % 2 ^ 56 = c.toNat % 2 ^ 56 := by
  cases cond with
  | eq => exact decide_eq_true_iff
  | ne => exact decide_eq_true_iff
  | gen => exact decide_eq_true_iff
  | done => exact waitaHolds_done

/-! ### WAITA (R308) -/

section
variable {x : WaitaArgs} {s : State}

theorem waita_woken {v : Word} (ready : Ready s (.waita x) x.g [x.b, x.c]) (frozen : (me s).freeze = .wait)
    (woken : (me s).hold = [2, v]) :
    exec (.waita x) s = .next ((s.modCell s.sched.cur fun z => z.write1 x.a v).advance s.sched.cur) := by
  refine (exec_ready (execWaita x s) rfl rfl ready).trans (congrArg _ ?_)
  rw [me] at frozen woken
  simp only [frozen, woken]
  rfl

theorem waita_reads (ready : Ready s (.waita x) x.g [x.b, x.c]) (idle : (me s).freeze = .none)
    (own : (me s).addrOk [1] ((me s).gval x.b) = true) (aligned : alignedTo ((me s).gval x.b) 8 = true)
    (readable : Readable (me s) (offOf ((me s).gval x.b)) 1) :
    let o := offOf ((me s).gval x.b)
    let u := readOne s o
    exec (.waita x) s = .next (if waitaHolds ((me s).spWord o) ((me s).gval x.c) (waitaCode x.cond) then
        (u.modCell s.sched.cur fun z => z.write1 x.a ((me s).spWord o)).advance s.sched.cur
      else u.waitAt s.sched.cur [1, BitVec.ofNat 64 o, (me s).gval x.c, BitVec.ofNat 64 (waitaCode x.cond)]) := by
  obtain ⟨free, sound⟩ := readable_one readable
  refine (exec_ready (execWaita x s) rfl rfl ready).trans (congrArg _ ?_)
  rw [me] at idle
  simp only [idle]
  refine (addrChecked_ok own aligned).trans ?_
  rw [withBank_granted (by exact free), if_neg (by exact Bool.eq_false_iff.1 sound)]
  rfl

end

/-! ### LK.WAIT (R338) -/

section
variable {x : Reg3Args} {s : State}

theorem lkWait_woken {v : Word} (ready : Ready s (.lkWait x) x.g [x.a, x.b, x.c]) (frozen : (me s).freeze = .wait)
    (woken : (me s).hold = [2, v]) :
    exec (.lkWait x) s = .next ((s.modCell s.sched.cur fun z => z.write1 x.a v).advance s.sched.cur) := by
  refine (exec_ready (execLkWait x s) rfl rfl ready).trans (congrArg _ ?_)
  rw [me] at frozen woken
  simp only [frozen, woken]
  rfl

/-- R338, log 108: the device time at which an LK.WAIT ends. -/
def waitLimit (s : State) (timeout : Word) : Nat := min (s.sys.devtime.toNat + timeout.toNat) (2 ^ 64 - 1)

theorem lkWait_reads (ready : Ready s (.lkWait x) x.g [x.a, x.b, x.c]) (idle : (me s).freeze = .none)
    (own : (me s).addrOk [1] ((me s).gval x.b) = true) (aligned : alignedTo ((me s).gval x.b) 8 = true)
    (readable : Readable (me s) (offOf ((me s).gval x.b)) 1) :
    let o := offOf ((me s).gval x.b)
    let u := readOne s o
    exec (.lkWait x) s = .next (if waitaHolds ((me s).spWord o) ((me s).gval x.a) 3 then
        (u.modCell s.sched.cur fun z => z.write1 x.a ((me s).spWord o)).advance s.sched.cur
      else if waitLimit s ((me s).gval x.c) ≤ s.sys.devtime.toNat then
        (u.modCell s.sched.cur fun z => z.write1 x.a timeoutWord).advance s.sched.cur
      else u.waitAt s.sched.cur [1, BitVec.ofNat 64 o, (me s).gval x.a, 3, BitVec.ofNat 64 (waitLimit s ((me s).gval x.c))]) := by
  obtain ⟨free, sound⟩ := readable_one readable
  refine (exec_ready (execLkWait x s) rfl rfl ready).trans (congrArg _ ?_)
  rw [me] at idle
  simp only [idle]
  refine (addrChecked_ok own aligned).trans ?_
  rw [withBank_granted (by exact free), if_neg (by exact Bool.eq_false_iff.1 sound)]
  rfl

theorem waitLimit_now (s : State) : waitLimit s 0 ≤ s.sys.devtime.toNat := by
  simp [waitLimit]

theorem waitLimit_later {s : State} {timeout : Word} (some_ : timeout ≠ 0) (before : s.sys.devtime.toNat < 2 ^ 64 - 1) :
    ¬waitLimit s timeout ≤ s.sys.devtime.toNat := by
  have : timeout.toNat ≠ 0 := fun h => some_ (BitVec.eq_of_toNat_eq h)
  rw [waitLimit]
  omega

end

/-- Settles O31: a word that meets the condition is written at once or when it has come, and any other word is waited for. -/
theorem waitsForWords : Obligations.WaitsForWords := by
  unfold Obligations.WaitsForWords
  refine ⟨fun x s ready plain => ?waita, fun x s ready plain => ?lkWait⟩
  case waita =>
    intro a o w c holds
    refine ⟨fun v frozen woken => ⟨_, waita_woken ready frozen woken, write1_wrote s x.a fun _ => v⟩,
      fun idle own aligned readable => ?_⟩
    have offset : offOf a = o := offOf_eq a
    have word : (me s).spWord (offOf a) = w := by rw [offset]; exact spWord_aligned _ aligned
    have even : alignedTo a 8 = true := alignedTo_iff.2 ((aligned_offset (by decide)).1 aligned)
    rw [← offset] at readable
    have run := waita_reads ready idle (addrOk_own.2 own) even readable
    dsimp only at run
    rw [word, offset] at run
    refine ⟨fun met => ?_, fun unmet _ => ?_⟩
    · rw [if_pos ((waitaHolds_iff x.cond).2 met)] at run
      obtain ⟨issued, took, mem, disp, bytes⟩ := (aside_readOne s o).write x.a w
      exact ⟨_, run, issued, took, mem, disp, bytes⟩
    · rw [if_neg fun h => unmet ((waitaHolds_iff x.cond).1 h)] at run
      exact ⟨_, run, (aside_readOne s o).waits _⟩
  case lkWait =>
    intro a o w c
    refine ⟨fun v frozen woken => ⟨_, lkWait_woken ready frozen woken, write1_wrote s x.a fun _ => v⟩,
      fun idle own aligned readable => ?_⟩
    have offset : offOf a = o := offOf_eq a
    have word : (me s).spWord (offOf a) = w := by rw [offset]; exact spWord_aligned _ aligned
    have even : alignedTo a 8 = true := alignedTo_iff.2 ((aligned_offset (by decide)).1 aligned)
    rw [← offset] at readable
    have run := lkWait_reads ready idle (addrOk_own.2 own) even readable
    dsimp only at run
    rw [word, offset] at run
    have writes (v : Word) := (aside_readOne s o).write x.a v
    refine ⟨fun met => ?_, fun open_ other now => ?_, fun open_ other later early stays goes => ?_⟩
    · rw [if_pos (waitaHolds_done.2 met)] at run
      obtain ⟨issued, took, mem, disp, bytes⟩ := writes w
      exact ⟨_, run, issued, took, mem, disp, bytes⟩
    · rw [if_neg fun h => (waitaHolds_done.1 h).elim (Bool.eq_false_iff.1 open_) other, now, if_pos (waitLimit_now s)] at run
      obtain ⟨issued, took, mem, disp, bytes⟩ := writes timeoutWord
      exact ⟨_, run, issued, took, mem, disp, bytes⟩
    · rw [if_neg fun h => (waitaHolds_done.1 h).elim (Bool.eq_false_iff.1 open_) other, if_neg (waitLimit_later later early)] at run
      obtain ⟨frozen, hold, seq, mem, bytes⟩ := (aside_readOne s o).waits
        [1, BitVec.ofNat 64 o, c, 3, BitVec.ofNat 64 (waitLimit s ((me s).gval x.c))]
      have before := aside_readOne s o
      refine ⟨_, run, frozen, hold, seq, mem, (waitAt_disp _ ?_ ?_).trans before.disp, bytes⟩
      · exact (readOne_stop s o).trans goes
      · rw [before.seq]
        exact stays

end Sys2Proof.Proofs
end

section
/-! PROOFS. Loads of global memory: a hit in the data cache, the request for a line, and its answer (R118, R119, R301, R304, R305). -/

namespace Sys2Proof.Proofs

open Sys2Proof Sys2Proof.Machine Sys2Proof.Safety Sys2Proof.Laws

/-! ### Cached lines (R118, R120, R150) -/

section
variable {x : CellSt} {tag : Nat} {l : DLine}

/-- The sequencer and the scratchpad stand apart from the data cache. -/
theorem dcheck_apart (x : CellSt) (tag : Nat) : (x.dcheck tag).seq = x.seq ∧ (x.dcheck tag).spad = x.spad := by
  unfold CellSt.dcheck
  split
  · split <;> exact ⟨rfl, rfl⟩
  · exact ⟨rfl, rfl⟩

theorem drefresh_apart (x : CellSt) (tag : Nat) (v : Line) (bad : BitVec 2) :
    (x.drefresh tag v bad).seq = x.seq ∧ (x.drefresh tag v bad).spad = x.spad := by
  unfold CellSt.drefresh
  split <;> exact ⟨rfl, rfl⟩

/-- R118: a sound copy passes its parity check. -/
theorem dcheck_sound (find : x.dfind tag = some l) (sound : l.parityBad = false) : x.dcheck tag = x := by
  simp [CellSt.dcheck, find, sound]

theorem dcheck_absent (find : x.dfind tag = none) : x.dcheck tag = x := by
  simp [CellSt.dcheck, find]

/-- The first element found is still the first among those kept. -/
theorem find?_filter_of_kept {α : Type} {p q : α → Bool} {xs : List α} {a : α} (find : xs.find? p = some a) (kept : q a = true) :
    (xs.filter q).find? p = some a := by
  obtain ⟨found, before, after, list, earlier⟩ := List.find?_eq_some_iff_append.1 find
  refine List.find?_eq_some_iff_append.2 ⟨found, before.filter q, after.filter q, ?_, fun k hk => earlier k (List.mem_of_mem_filter hk)⟩
  rw [list, List.filter_append, List.filter_cons_of_pos kept]

/-- R150: a copy that the copy engine has not overtaken stays. -/
theorem dfind_dpast_some (find : x.dfind tag = some l) (fresh : l.past = false) : (x.dpast tag).dfind tag = some l :=
  find?_filter_of_kept find (by simp [fresh])

theorem dfind_dpast_none (find : x.dfind tag = none) : (x.dpast tag).dfind tag = none := by
  rw [CellSt.dfind, List.find?_eq_none] at find ⊢
  exact fun k hk => find k (List.mem_of_mem_filter hk)

end

/-! ### Entries of the write-combining buffer that stay (R119, R120) -/

theorem drainBad_sound {s : State} {c tag : Nat} (sound : ∀ e, (s.cell c).wfind tag = some e → e.bad = 0) :
    s.drainBad c tag = s := by
  unfold State.drainBad
  split
  · next e found => rw [if_pos (sound e found)]
  · rfl

theorem drainLine_absent {s : State} {c tag : Nat} (absent : (s.cell c).wfind tag = none) : s.drainLine c tag = s := by
  simp [State.drainLine, absent]

/-! ### The answer that a frozen sequencer waits for (R40) -/

theorem answer_idle {s : State} {c : Nat} (idle : (s.cell c).freeze = .none) : s.answer c = none := by
  simp [State.answer, idle]

theorem answer_come {s : State} {c id : Nat} {r : Req} (frozen : (s.cell c).freeze = .mem id) (found : s.req id = some r) :
    s.answer c = some (id, some r) := by
  simp [State.answer, frozen, found]

namespace Aside

section
variable {s u : State} (h : Aside s u)
include h

theorem dcheck (tag : Nat) : Aside s (u.modCell s.sched.cur fun y => y.dcheck tag) :=
  h.modCell (fun x => (dcheck_apart x tag).1) fun x => (dcheck_apart x tag).2

theorem dpast (tag : Nat) : Aside s (u.modCell s.sched.cur fun y => y.dpast tag) := h.modCell (fun _ => rfl) fun _ => rfl

theorem dfill (cycle tag : Nat) (v : Line) : Aside s (u.modCell s.sched.cur fun y => y.dfill s.sched.cur cycle tag v) :=
  h.modCell (fun _ => rfl) fun _ => rfl

theorem drefresh (tag : Nat) (v : Line) (bad : BitVec 2) : Aside s (u.modCell s.sched.cur fun y => y.drefresh tag v bad) :=
  h.modCell (fun x => (drefresh_apart x tag v bad).1) fun x => (drefresh_apart x tag v bad).2

theorem freezeAt (f : Freeze) : Aside s (u.freezeAt s.sched.cur f) :=
  h.modCell (f := fun x => { x with freeze := f }) (fun _ => rfl) fun _ => rfl

/-- R40: a request has been sent, and the sequencer is frozen on its answer. -/
theorem sendFreeze (r : Req) (next : u.mem.nextReq = s.mem.nextReq) : let t := u.sendFreeze s.sched.cur r
    (me t).freeze = .mem s.mem.nextReq ∧ t.req s.mem.nextReq = some r ∧ (me t).seq = (me s).seq ∧ SameBytes s t ∧
      me t = { u.cell s.sched.cur with freeze := .mem s.mem.nextReq } := by
  intro t
  have after : Aside s t := (h.addReq r).freezeAt _
  have cell : me t = { u.cell s.sched.cur with freeze := .mem s.mem.nextReq } := by
    rw [after.me_eq, ← next]
    exact cell_modCell ..
  refine ⟨by rw [cell], ?_, by rw [cell]; exact h.seq, after.bytes, cell⟩
  rw [← next]
  exact req_addReq u r

end

end Aside

/-! ### Requests (R300) -/

/-- R300: a request for a line of path 0. -/
theorem mkReq_virtual (s : State) (c : Nat) (kind : ReqKind) {a : Word} (need : BitVec 3) (path : pathOf a = 0) :
    let r := s.mkReq c kind a need
    r.cell = c ∧ r.line = vline a ∧ r.asid = (s.cell c).seq.id.asid ∧ r.need = need ∧ r.stage = .walk ∧ r.kind = kind := by
  simp [State.mkReq, path]

/-! ### The start of a load (R305) -/

/-- R118, R305: weak loads of a line whose pending stores are sound, and cell-ordered ones of a line with none, look into the
data cache. -/
def LooksNear (x : CellSt) (order tag : Nat) : Prop :=
  order = 0 ∧ (∀ e, x.wfind tag = some e → e.bad = 0) ∨ order = 1 ∧ x.wfind tag = none

/-- R150: the data cache that a load of an order looks into. -/
def loadLooks (s : State) (order tag : Nat) : State :=
  if order = 0 then s else s.modCell s.sched.cur fun y => y.dpast tag

section
variable {s : State} {order tag : Nat}

theorem aside_loadLooks (s : State) (order tag : Nat) : Aside s (loadLooks s order tag) := by
  unfold loadLooks
  split
  · exact .refl s
  · exact (Aside.refl s).dpast tag

theorem loadLooks_mem (s : State) (order tag : Nat) : (loadLooks s order tag).mem = s.mem := by
  unfold loadLooks
  split <;> rfl

theorem loadLooks_hit {l : DLine} (find : (me s).dfind tag = some l) (fresh : l.past = false) :
    ((loadLooks s order tag).cell s.sched.cur).dfind tag = some l := by
  unfold loadLooks
  split
  · exact find
  · rw [cell_modCell]
    exact dfind_dpast_some find fresh

theorem loadLooks_miss (find : (me s).dfind tag = none) : ((loadLooks s order tag).cell s.sched.cur).dfind tag = none := by
  unfold loadLooks
  split
  · exact find
  · rw [cell_modCell]
    exact dfind_dpast_none find

theorem loadLooks_overlay (v : Line) : ((loadLooks s order tag).cell s.sched.cur).overlay tag v = (me s).overlay tag v := by
  unfold loadLooks
  split
  · rfl
  · rw [cell_modCell]
    rfl

end

section
variable {s : State} {a : Word} {n order : Nat} {e : LogEntry}

/-- R305: the data cache that a load has looked into. -/
theorem startLoad_near (path : pathOf a = 0) (near : LooksNear (me s) order (vline a)) :
    let u := (loadLooks s order (vline a)).modCell s.sched.cur fun y => y.dcheck (vline a)
    (∀ l, (u.cell s.sched.cur).dfind (vline a) = some l → s.startLoad s.sched.cur a n order e =
      (u.ev s.sched.cur 0x20).logged s.sched.cur (e.got (accessVal ((u.cell s.sched.cur).overlay (vline a) l.data) a n))) ∧
    ((u.cell s.sched.cur).dfind (vline a) = none → s.startLoad s.sched.cur a n order e =
      (u.ev s.sched.cur 0x21).sendFreeze s.sched.cur (u.mkReq s.sched.cur .fill a 1)) := by
  have looks : (if order = 0 then s.drainBad s.sched.cur (vline a)
      else (s.drainLine s.sched.cur (vline a)).modCell s.sched.cur fun y => y.dpast (vline a)) = loadLooks s order (vline a) := by
    rcases near with ⟨weak, sound⟩ | ⟨-, absent⟩
    · rw [if_pos weak, drainBad_sound sound, loadLooks, if_pos weak]
    · rw [drainLine_absent absent, loadLooks]
      split
      · next weak =>
        refine drainBad_sound fun e found => absurd (absent.symm.trans found) (by simp)
      · rfl
  have narrow : ¬2 ≤ order := by
    rcases near with ⟨rfl, -⟩ | ⟨rfl, -⟩ <;> decide
  intro u
  unfold State.startLoad
  dsimp only
  rw [if_neg (by rw [path]; decide), looks, if_neg narrow]
  exact ⟨fun l found => by rw [found], fun missing => by rw [missing]⟩

theorem startLoad_hit {l : DLine} (path : pathOf a = 0) (near : LooksNear (me s) order (vline a))
    (find : (me s).dfind (vline a) = some l) (sound : l.parityBad = false) (fresh : l.past = false) :
    s.startLoad s.sched.cur a n order e =
      (((loadLooks s order (vline a)).modCell s.sched.cur fun y => y.dcheck (vline a)).ev s.sched.cur 0x20).logged s.sched.cur
        (e.got (accessVal ((me s).overlay (vline a) l.data) a n)) := by
  have held := loadLooks_hit (order := order) find fresh
  have cell : ((loadLooks s order (vline a)).modCell s.sched.cur fun y => y.dcheck (vline a)).cell s.sched.cur =
      (loadLooks s order (vline a)).cell s.sched.cur := (cell_modCell ..).trans (dcheck_sound held sound)
  rw [(startLoad_near path near).1 l (by rw [cell]; exact held), cell, loadLooks_overlay]

theorem startLoad_miss (path : pathOf a = 0) (near : LooksNear (me s) order (vline a)) (find : (me s).dfind (vline a) = none) :
    let u := (loadLooks s order (vline a)).modCell s.sched.cur fun y => y.dcheck (vline a)
    s.startLoad s.sched.cur a n order e = (u.ev s.sched.cur 0x21).sendFreeze s.sched.cur (u.mkReq s.sched.cur .fill a 1) := by
  have missing := loadLooks_miss (order := order) find
  refine (startLoad_near path near).2 ?_
  rw [cell_modCell, dcheck_absent missing]
  exact missing

/-- R305: a load of block order or wider asks for the line in any case. -/
theorem startLoad_strong (path : pathOf a = 0) (wide : 2 ≤ order) (absent : (me s).wfind (vline a) = none) :
    let u := s.modCell s.sched.cur fun y => y.dpast (vline a)
    s.startLoad s.sched.cur a n order e =
      u.sendFreeze s.sched.cur { u.mkReq s.sched.cur .read a 1 with grans := granOf (a.toNat % 128) n } := by
  unfold State.startLoad
  dsimp only
  rw [if_neg (by rw [path]; decide), if_pos wide, if_neg (by omega), drainLine_absent absent]

end

/-! ### LDG (R304, R305) -/

section
variable {p : (GlobArgs → Instr) × Nat} {x : GlobArgs} {s : State}

/-- R299, R304: the address of LDG and STG of `n` bytes. -/
def globAddr (x : GlobArgs) (n : Nat) (s : State) : Word := (me s).ea x.base x.imm n

/-- R301: the log entry of an LDG. -/
def loadEntry (i : Instr) (x : GlobArgs) (n : Nat) (s : State) : LogEntry :=
  memEntry (me s) i (destG x.r) 6 ((me s).greg x.base) {} (globAddr x n s)

section
variable (load : p ∈ loadOps) (ready : Ready s (p.1 x) x.g [x.base]) (ok : (me s).addrOk [0, 3] (globAddr x p.2 s) = true)
  (aligned : alignedTo (globAddr x p.2 s) p.2 = true) (room : (me s).logFull = false)
include load ready ok aligned room

theorem load_starts (idle : (me s).freeze = .none) :
    exec (p.1 x) s = .next (s.startLoad s.sched.cur (globAddr x p.2 s) p.2 x.order.toNat (loadEntry (p.1 x) x p.2 s)) := by
  refine (exec_ready _ (exec_load load x s) rfl ready).trans (congrArg _ ((addrChecked_ok ok aligned).trans ?_))
  rw [if_neg (by exact Bool.eq_false_iff.1 room), answer_idle idle]
  rfl

theorem load_ends {id : Nat} {r : Req} (frozen : (me s).freeze = .mem id) (found : s.req id = some r) (done : r.stage = .done) :
    exec (p.1 x) s = .next ((s.dropReq id).endLoad s.sched.cur (globAddr x p.2 s) p.2 r (loadEntry (p.1 x) x p.2 s)) := by
  refine (exec_ready _ (exec_load load x s) rfl ready).trans (congrArg _ ((addrChecked_ok ok aligned).trans ?_))
  rw [if_neg (by exact Bool.eq_false_iff.1 room), answer_come frozen found]
  simp only [done]
  rfl

theorem load_fails {id : Nat} {r : Req} {f : Cause} (frozen : (me s).freeze = .mem id) (found : s.req id = some r)
    (failed : r.stage = .failed f) :
    exec (p.1 x) s = .next ((s.dropReq id).logged s.sched.cur ((loadEntry (p.1 x) x p.2 s).failed f)) := by
  refine (exec_ready _ (exec_load load x s) rfl ready).trans (congrArg _ ((addrChecked_ok ok aligned).trans ?_))
  rw [if_neg (by exact Bool.eq_false_iff.1 room), answer_come frozen found]
  simp only [failed]
  rfl

end

/-- R305: the line that has come serves the load, whatever it leaves in the data cache. -/
theorem endLoad_aside (s : State) (id : Nat) (a : Word) (n : Nat) (r : Req) (e : LogEntry) :
    ∃ u, Aside s u ∧ u.mem = { s.mem with reqs := terase s.mem.reqs id } ∧
      (s.dropReq id).endLoad s.sched.cur a n r e = u.logged s.sched.cur
        (e.got (accessVal (if r.kind = .fill then (me s).overlay (vline a) r.data else r.data) a n)) := by
  have dropped := (Aside.refl s).dropReq id
  unfold State.endLoad
  dsimp only
  split
  · next fill =>
    rw [if_pos fill]
    exact ⟨_, dropped.dfill s.sys.cycle (vline a) r.data, rfl, rfl⟩
  · next other =>
    rw [if_neg other]
    split
    · exact ⟨_, dropped.drefresh (vline a) r.data r.bad, rfl, rfl⟩
    · exact ⟨_, dropped, rfl, rfl⟩

end

/-- Settles O28: a load looks into the data cache or asks for its line, and enters what it has read. -/
theorem loadsComplete : Obligations.LoadsComplete := by
  unfold Obligations.LoadsComplete
  intro p load x s ready a near ok aligned room
  have even : alignedTo a p.2 = true := alignedTo_iff.2 aligned
  have space := logFull_of_room room
  have starts (idle : (me s).freeze = .none) := load_starts load ready ok even space idle
  have looks (h : near) : LooksNear (me s) x.order.toNat (vline a) := by
    rcases h with ⟨weak, sound⟩ | ⟨cell, absent⟩
    · exact .inl ⟨by rw [weak]; rfl, sound⟩
    · exact .inr ⟨by rw [cell]; rfl, absent⟩
  refine ⟨fun l idle h low find sound fresh => ?hit, fun id r frozen found done => ?answered,
    fun id r f frozen found failed => ?fails, fun idle asks low => ?asks⟩
  case hit =>
    have run := (starts idle).trans (congrArg _ (startLoad_hit (pathOf_virtual low) (looks h) find sound fresh))
    obtain ⟨t, run, issued, mem, disp, bytes, entered⟩ :=
      (((aside_loadLooks s x.order.toNat (vline a)).dcheck (vline a)).ev 0x20).entered run ⟨rfl, rfl, rfl, rfl⟩
    exact ⟨t, run, issued, mem.trans (loadLooks_mem ..), disp, bytes, entered⟩
  case answered =>
    have run := load_ends load ready ok even space frozen found done
    obtain ⟨u, before, dropped, ends⟩ := endLoad_aside s id a p.2 r (loadEntry (p.1 x) x p.2 s)
    obtain ⟨t, run, issued, mem, disp, bytes, entered⟩ := before.entered (run.trans (congrArg _ ends)) ⟨rfl, rfl, rfl, rfl⟩
    exact ⟨t, run, issued, mem.trans dropped, disp, bytes, entered⟩
  case fails =>
    have run := load_fails load ready ok even space frozen found failed
    obtain ⟨issued, mem, disp, bytes, log, -, -⟩ := ((Aside.refl s).dropReq id).logged ((loadEntry (p.1 x) x p.2 s).failed f)
    exact ⟨_, _, run, issued, mem, disp, bytes, log, rfl, rfl, rfl, rfl⟩
  case asks =>
    have path := pathOf_virtual low
    rcases asks with ⟨h, missing⟩ | ⟨wide, absent⟩
    · have run := (starts idle).trans (congrArg _ (startLoad_miss path (looks h) missing))
      have narrow : x.order.toNat < 2 := by
        rcases looks h with ⟨weak, -⟩ | ⟨cell, -⟩ <;> omega
      obtain ⟨frozen, found, seq, bytes, -⟩ := (((aside_loadLooks s x.order.toNat (vline a)).dcheck (vline a)).ev 0x21).sendFreeze
        (State.mkReq _ s.sched.cur .fill a 1) (congrArg MemSt.nextReq (loadLooks_mem ..))
      obtain ⟨cell, line, -, -, stage, kind⟩ := mkReq_virtual _ s.sched.cur .fill 1 path
      exact ⟨_, _, run, frozen, found, cell, line, stage, by rw [if_pos narrow]; exact kind, seq, bytes⟩
    · have run := (starts idle).trans (congrArg _ (startLoad_strong path wide absent))
      obtain ⟨frozen, found, seq, bytes, -⟩ := ((Aside.refl s).dpast (vline a)).sendFreeze
        { State.mkReq _ s.sched.cur .read a 1 with grans := granOf (a.toNat % 128) p.2 } rfl
      obtain ⟨cell, line, -, -, stage, kind⟩ := mkReq_virtual (s.modCell s.sched.cur fun y => y.dpast (vline a)) s.sched.cur .read 1 path
      exact ⟨_, _, run, frozen, found, cell, line, stage, by rw [if_neg (by omega)]; exact kind, seq, bytes⟩

end Sys2Proof.Proofs
end

section
/-! PROOFS. Atomics, CAS and MWC: the request to the home slice, the bytes of a line that it names, and its answer (R119, R310 to
R312). -/

namespace Sys2Proof.Proofs

open Sys2Proof Sys2Proof.Machine Sys2Proof.Safety Sys2Proof.Laws

/-! ### Bytes of a line (R119) -/

/-- R119: a mask of `size` bytes from an offset holds these bytes and no others. -/
theorem byteMask_bit {off size b : Nat} (inside : b < 128) :
    (byteMask off size).getLsbD b = decide (off ≤ b ∧ b < off + size) := by
  rw [byteMask, BitVec.getLsbD_ofNat, Nat.testBit_mul_two_pow, Nat.testBit_two_pow_sub_one, decide_eq_true inside, Bool.true_and,
    Bool.decide_and]
  by_cases low : off ≤ b
  · rw [decide_eq_true low, Bool.true_and, Bool.true_and]
    exact decide_eq_decide.2 (by omega)
  · rw [decide_eq_false low, Bool.false_and, Bool.false_and]

/-- Words side by side are read back, one by one. -/
theorem wordsNat_slice : ∀ (ws : List Word) {j : Nat} (h : j < ws.length), wordsNat ws / 256 ^ (8 * j) % 256 ^ 8 = ws[j].toNat := by
  intro ws
  induction ws with
  | nil => intro j h; exact absurd h (Nat.not_lt_zero j)
  | cons w t ih =>
    intro j h
    have low := w.isLt
    cases j with
    | zero =>
      rw [wordsNat, Nat.mul_zero, Nat.pow_zero, Nat.div_one, List.getElem_cons_zero]
      omega
    | succ j =>
      have shift : (256 : Nat) ^ (8 * (j + 1)) = 2 ^ 64 * 256 ^ (8 * j) := by
        rw [Nat.mul_succ, Nat.pow_add, Nat.mul_comm]
        rfl
      have rest : (w.toNat + 2 ^ 64 * wordsNat t) / 2 ^ 64 = wordsNat t := by omega
      rw [wordsNat, shift, ← Nat.div_div_eq_div_mul, rest, List.getElem_cons_succ]
      exact ih (by simpa using h)

theorem wordsNat_lt (ws : List Word) : wordsNat ws < 256 ^ (8 * ws.length) := by
  induction ws with
  | nil => decide
  | cons w t ih =>
    have low := w.isLt
    have shift : (256 : Nat) ^ (8 * (w :: t).length) = 2 ^ 64 * 256 ^ (8 * t.length) := by
      rw [List.length_cons, Nat.mul_succ, Nat.pow_add, Nat.mul_comm]
      rfl
    rw [shift, wordsNat]
    omega

/-- The bytes placed in a line, in part. -/
theorem lineBytes_placed {v off size : Nat} (hv : v < 256 ^ size) (fits : off + size ≤ 128) (k n : Nat) :
    lineBytes (placed v off) (off + k) n = v / 256 ^ k % 256 ^ n := by
  rw [lineBytes, placed_toNat hv fits, Nat.pow_add, ← Nat.div_div_eq_div_mul, Nat.mul_div_cancel _ (Nat.pow_pos (by decide))]

/-! ### The cached copy and the pending store of a line (R119) -/

theorem dfind_ddrop (x : CellSt) (tag : Nat) : (x.ddrop tag).dfind tag = none := by
  rw [CellSt.dfind, List.find?_eq_none]
  intro l hl
  have gone : ¬(l.tag = tag ∧ l.asid = x.seq.id.asid) := of_decide_eq_true (List.mem_filter.1 hl).2
  exact fun same => gone (of_decide_eq_true same)

theorem Aside.ddrop {s u : State} (h : Aside s u) (tag : Nat) : Aside s (u.modCell s.sched.cur fun y => y.ddrop tag) :=
  h.modCell (fun _ => rfl) fun _ => rfl

/-- R119: with no pending store of the line, an atomic drops the cached copy and does no more. -/
theorem claimLine_absent {s : State} {a : Word} (path : pathOf a = 0) (absent : (me s).wfind (vline a) = none) :
    s.claimLine s.sched.cur a = s.modCell s.sched.cur fun y => y.ddrop (vline a) := by
  have virtual : ¬pathOf a = 3 := by rw [path]; decide
  rw [State.claimLine, if_neg virtual, drainLine_absent absent, State.dropCopy, if_neg virtual]

/-- R119: an atomic that has been performed leaves its request and a cached copy of its line. -/
theorem aside_performedAt (s : State) (id : Nat) (a : Word) :
    Aside s (s.performedAt s.sched.cur id a) ∧ (s.performedAt s.sched.cur id a).mem = { s.mem with reqs := terase s.mem.reqs id } := by
  have dropped := (Aside.refl s).dropReq id
  unfold State.performedAt State.dropCopy
  split
  · exact ⟨dropped, rfl⟩
  · exact ⟨dropped.ddrop (vline a), rfl⟩

/-! ### Atomics and CAS (R310, R311) -/

/-- R310, R311: the bytes that an atomic acts on. -/
theorem atomic_form {p : (AmoArgs → Instr) × Fin 16 × Nat} (h : p ∈ atomicOps) (x : AmoArgs) (s : State) :
    exec (p.1 x) s = amoOp (p.1 x) x p.2.1 s ∧ p.2.2 = if p.2.1.val = 1 then 4 else 8 := by
  simp only [atomicOps, List.mem_cons, List.not_mem_nil, or_false] at h
  rcases h with rfl | rfl | rfl | rfl | rfl | rfl | rfl | rfl | rfl | rfl | rfl <;> exact ⟨rfl, rfl⟩

/-- R301: the log entry of an atomic. -/
def amoEntry (i : Instr) (x : AmoArgs) (op : Fin 16) (s : State) : LogEntry :=
  { memEntry (me s) i (destG x.d) 6 ((me s).greg x.a) ((me s).greg x.b) ((me s).gval x.a) with
    srcC := if op.val = 10 then (me s).greg x.d else {} }

section
variable {p : (AmoArgs → Instr) × Fin 16 × Nat} {x : AmoArgs} {s : State}
variable (atomic : p ∈ atomicOps) (ready : Ready s (p.1 x) x.g (if p.2.1.val = 10 then [x.a, x.b, x.d] else [x.a, x.b]))
  (ok : (me s).addrOk [0, 3] ((me s).gval x.a) = true) (aligned : alignedTo ((me s).gval x.a) p.2.2 = true)
  (room : (me s).logFull = false)
include atomic ready ok aligned room

theorem atomic_ends {id : Nat} {r : Req} (frozen : (me s).freeze = .mem id) (found : s.req id = some r) (done : r.stage = .done) :
    exec (p.1 x) s = .next ((s.performedAt s.sched.cur id ((me s).gval x.a)).logged s.sched.cur
      ((amoEntry (p.1 x) x p.2.1 s).got r.old)) := by
  obtain ⟨form, size⟩ := atomic_form atomic x s
  rw [size] at aligned
  refine (exec_ready _ form rfl ready).trans (congrArg _ ((addrChecked_ok ok aligned).trans ?_))
  rw [if_neg (by exact Bool.eq_false_iff.1 room), answer_come frozen found]
  simp only [done]
  rfl

theorem atomic_asks (idle : (me s).freeze = .none) (path : pathOf ((me s).gval x.a) = 0)
    (absent : (me s).wfind (vline ((me s).gval x.a)) = none) :
    let u := s.modCell s.sched.cur fun y => y.ddrop (vline ((me s).gval x.a))
    exec (p.1 x) s = .next (u.sendFreeze s.sched.cur
      { u.mkReq s.sched.cur (.atomic p.2.1 (((me s).gval x.a).toNat % 128) p.2.2 ((me s).gval x.b)
          (if p.2.1.val = 10 then (me s).greg x.d else {}).data) ((me s).gval x.a) 3 with
        grans := granOf (((me s).gval x.a).toNat % 128) p.2.2 }) := by
  obtain ⟨form, size⟩ := atomic_form atomic x s
  rw [size] at aligned ⊢
  refine (exec_ready _ form rfl ready).trans (congrArg _ ((addrChecked_ok ok aligned).trans ?_))
  rw [if_neg (by exact Bool.eq_false_iff.1 room), answer_idle idle]
  dsimp only
  have claimed : s.claimLine s.sched.cur ((s.cell s.sched.cur).gval x.a) = _ := claimLine_absent path absent
  rw [claimed]
  rfl

end

/-! ### MWC (R312) -/

/-- R312: the words of an MWC lie in one line. -/
theorem mwc_checked {a : Word} {n : Nat} (aligned : a.toNat % 8 = 0) (fits : a.toNat % 128 + 8 * n ≤ 128) :
    (alignedTo a 8 && decide (a.toNat % 128 / 8 + n ≤ 16)) = true := by
  rw [Bool.and_eq_true, decide_eq_true_eq]
  exact ⟨alignedTo_iff.2 aligned, by omega⟩

/-- R312: the words of an MWC, in their line. -/
def mwcLine (x : MwcArgs) (s : State) : Line :=
  placed (wordsNat ((mwcRegs x.gb x.n1).map (me s).gval)) (((me s).gval x.a).toNat % 128)

/-- R312: each register of an MWC stands in its place of the line. -/
theorem mwcLine_word {x : MwcArgs} {s : State} {j : Nat} (fits : ((me s).gval x.a).toNat % 128 + 8 * (x.n1.val + 1) ≤ 128)
    (h : j ≤ x.n1.val) :
    BitVec.ofNat 64 (lineBytes (mwcLine x s) (((me s).gval x.a).toNat % 128 + 8 * j) 8) =
      (me s).gval (Fin.ofNat 32 (x.gb.val + j)) := by
  have count : ((mwcRegs x.gb x.n1).map (me s).gval).length = x.n1.val + 1 := by simp [mwcRegs]
  have lt := wordsNat_lt ((mwcRegs x.gb x.n1).map (me s).gval)
  rw [count] at lt
  rw [mwcLine, lineBytes_placed lt fits, wordsNat_slice _ (by omega), BitVec.ofNat_toNat, BitVec.setWidth_eq]
  simp [mwcRegs]

section
variable {x : MwcArgs} {s : State}
variable (ready : Ready s (.mwc x) x.g (x.a :: mwcRegs x.gb x.n1)) (ok : (me s).addrOk [0, 3] ((me s).gval x.a) = true)
  (aligned : ((me s).gval x.a).toNat % 8 = 0) (fits : ((me s).gval x.a).toNat % 128 + 8 * (x.n1.val + 1) ≤ 128)
include ready ok aligned fits

theorem mwc_ends {id : Nat} {r : Req} (frozen : (me s).freeze = .mem id) (found : s.req id = some r) (done : r.stage = .done) :
    exec (.mwc x) s = .next ((s.performedAt s.sched.cur id ((me s).gval x.a)).advance s.sched.cur) := by
  refine (exec_ready (execMwc x s) rfl rfl ready).trans
    (congrArg _ ((addrChecked_ok ok (mwc_checked aligned fits)).trans ?_))
  rw [answer_come frozen found]
  simp only [done]
  rfl

theorem mwc_asks (idle : (me s).freeze = .none) (path : pathOf ((me s).gval x.a) = 0)
    (absent : (me s).wfind (vline ((me s).gval x.a)) = none) :
    let u := s.modCell s.sched.cur fun y => y.ddrop (vline ((me s).gval x.a))
    let mask := byteMask (((me s).gval x.a).toNat % 128) (8 * (x.n1.val + 1))
    exec (.mwc x) s = .next (u.sendFreeze s.sched.cur
      { u.mkReq s.sched.cur (.mwc mask (mwcLine x s)) ((me s).gval x.a) 3 with grans := maskGrans mask }) := by
  refine (exec_ready (execMwc x s) rfl rfl ready).trans
    (congrArg _ ((addrChecked_ok ok (mwc_checked aligned fits)).trans ?_))
  rw [answer_idle idle]
  dsimp only
  have claimed : s.claimLine s.sched.cur ((s.cell s.sched.cur).gval x.a) = _ := claimLine_absent path absent
  rw [claimed]
  rfl

end

/-- Settles O33: an atomic, a CAS or an MWC asks its home slice once, and ends with the answer. -/
theorem atomicsComplete : Obligations.AtomicsComplete := by
  unfold Obligations.AtomicsComplete
  refine ⟨fun p atomic x s ready => ?atomics, fun x s ready => ?mwc⟩
  case atomics =>
    intro a ok aligned room
    have even : alignedTo a p.2.2 = true := alignedTo_iff.2 aligned
    have space := logFull_of_room room
    refine ⟨fun id r frozen found done => ?_, fun idle low absent => ?_⟩
    · have run := atomic_ends atomic ready ok even space frozen found done
      obtain ⟨before, dropped⟩ := aside_performedAt s id a
      obtain ⟨t, run, issued, mem, disp, bytes, entered⟩ := before.entered run ⟨rfl, rfl, rfl, rfl⟩
      exact ⟨t, run, issued, entered, mem.trans dropped, disp, bytes⟩
    · have path := pathOf_virtual low
      have run := atomic_asks atomic ready ok even space idle path absent
      obtain ⟨frozen, found, seq, bytes, cell⟩ := ((Aside.refl s).ddrop (vline a)).sendFreeze _ rfl
      obtain ⟨-, line, -, -, stage, kind⟩ := mkReq_virtual (s.modCell s.sched.cur fun y => y.ddrop (vline a)) s.sched.cur _ 3 path
      refine ⟨_, _, run, frozen, found, kind.trans (congrArg (ReqKind.atomic _ _ _ _) (apply_ite GReg.data _ _ _)), line, stage,
        ?_, seq, bytes⟩
      rw [cell, cell_modCell]
      exact dfind_ddrop (me s) (vline a)
  case mwc =>
    intro a ok aligned fits
    refine ⟨fun id r frozen found done => ?_, fun idle absent low => ?_⟩
    · have run := mwc_ends ready ok aligned fits frozen found done
      obtain ⟨before, dropped⟩ := aside_performedAt s id a
      obtain ⟨issued, kept, mem, disp, bytes⟩ := before.advance
      exact ⟨_, run, issued, kept, mem.trans dropped, disp, bytes⟩
    · have path := pathOf_virtual low
      have run := mwc_asks ready ok aligned fits idle path absent
      obtain ⟨frozen, found, seq, bytes, -⟩ := ((Aside.refl s).ddrop (vline a)).sendFreeze _ rfl
      obtain ⟨-, -, -, -, -, kind⟩ := mkReq_virtual (s.modCell s.sched.cur fun y => y.ddrop (vline a)) s.sched.cur _ 3 path
      exact ⟨_, _, _, _, run, frozen, found, kind, fun b hb => byteMask_bit hb, fun j hj => mwcLine_word fits hj, seq, bytes⟩

end Sys2Proof.Proofs
end

section
/-! PROOFS. Stores to global memory: the write-combining buffer, the page of a new entry, and the writes of other orders (R119, R305). -/

namespace Sys2Proof.Proofs

open Sys2Proof Sys2Proof.Machine Sys2Proof.Safety Sys2Proof.Laws

/-! ### Merged lines, byte by byte (R119) -/

theorem mergeFrom_byte (i : Nat) : ∀ n mask a b : Nat, i < n →
    mergeFrom mask a b n / 256 ^ i % 256 = if mask.testBit i then b / 256 ^ i % 256 else a / 256 ^ i % 256 := by
  induction i with
  | zero =>
    intro n mask a b h
    obtain ⟨m, rfl⟩ : ∃ m, n = m + 1 := ⟨n - 1, by omega⟩
    simp only [mergeFrom, Nat.pow_zero, Nat.div_one, Nat.testBit_zero, decide_eq_true_eq]
    split <;> omega
  | succ i ih =>
    intro n mask a b h
    obtain ⟨m, rfl⟩ : ∃ m, n = m + 1 := ⟨n - 1, by omega⟩
    have rest : mergeFrom mask a b (m + 1) / 256 = mergeFrom (mask / 2) (a / 256) (b / 256) m := by
      rw [mergeFrom]
      split <;> omega
    have step (x : Nat) : x / 256 ^ (i + 1) = x / 256 / 256 ^ i := by rw [Nat.pow_succ', Nat.div_div_eq_div_mul]
    rw [step, step, step, rest, Nat.testBit_succ]
    exact ih m _ _ _ (by omega)

theorem mergeLine_byte (mask : BitVec 128) (a b : Line) {i : Nat} (h : i < 128) :
    (mergeLine mask a b).toNat / 256 ^ i % 256 = if mask.getLsbD i then b.toNat / 256 ^ i % 256 else a.toNat / 256 ^ i % 256 := by
  rw [mergeLine, toNat_ofNat_of_lt (lt_line (mergeFrom_lt 128 _ _ _)), mergeFrom_byte i 128 _ _ _ h]
  rfl

/-- Lines with the same bytes hold the same number. -/
theorem lineBytes_congr {x y : Line} {off : Nat} : ∀ {n : Nat},
    (∀ i, off ≤ i → i < off + n → x.toNat / 256 ^ i % 256 = y.toNat / 256 ^ i % 256) → lineBytes x off n = lineBytes y off n := by
  intro n
  induction n with
  | zero => intro _; simp [lineBytes, Nat.mod_one]
  | succ n ih =>
    intro same
    have low := ih fun i h k => same i h (by omega)
    have high := same (off + n) (by omega) (by omega)
    unfold lineBytes at low ⊢
    rw [Nat.mod_pow_succ, Nat.mod_pow_succ, Nat.div_div_eq_div_mul, Nat.div_div_eq_div_mul, ← Nat.pow_add, low, high]

/-- R119: where a mask covers an access, the merged line holds the bytes merged in. -/
theorem lineBytes_mergeLine_covered {mask : BitVec 128} {off n : Nat} (a b : Line) (fits : off + n ≤ 128)
    (cover : ∀ i, off ≤ i → i < off + n → mask.getLsbD i = true) : lineBytes (mergeLine mask a b) off n = lineBytes b off n :=
  lineBytes_congr fun i low high => by rw [mergeLine_byte mask a b (by omega), if_pos (cover i low high)]

/-! ### Entries of the write-combining buffer (R119) -/

/-- R119: a store's bytes in a line, and their mask. -/
structure StoredLine (off n v : Nat) (mask : BitVec 128) (l : Line) : Prop where
  covers : ∀ i, off ≤ i → i < off + n → mask.getLsbD i = true
  bytes : lineBytes l off n = v

theorem storedLine_placed {off n v : Nat} (fits : off + n ≤ 128) (hv : v < 256 ^ n) : StoredLine off n v (byteMask off n) (placed v off) where
  covers i low high := by rw [byteMask_bit (by omega), decide_eq_true ⟨low, high⟩]
  bytes := by
    have whole := lineBytes_placed hv fits 0 n
    rw [Nat.pow_zero, Nat.div_one, Nat.mod_eq_of_lt hv] at whole
    exact whole

/-- R119: an entry that a store's bytes have been merged into gives them back, over any line. -/
theorem lineBytes_overlay {off n v : Nat} {mask old : BitVec 128} {l : Line} (stored : StoredLine off n v mask l) (fits : off + n ≤ 128)
    (under under' : Line) : lineBytes (mergeLine (old ||| mask) under (mergeLine mask under' l)) off n = v := by
  rw [lineBytes_mergeLine_covered _ _ fits fun i low high => by rw [BitVec.getLsbD_or, stored.covers i low high, Bool.or_true],
    lineBytes_mergeLine_covered _ _ fits stored.covers, stored.bytes]

/-- R119: what a store makes of each entry of the buffer. -/
def mergedInto (x : CellSt) (tag : Nat) (mask : BitVec 128) (v : Line) (k : WcbEntry) : WcbEntry :=
  if k.tag = tag ∧ k.asid = x.seq.id.asid then { k with data := mergeLine mask k.data v, mask := k.mask ||| mask } else k

theorem mergedInto_names (x : CellSt) (tag : Nat) (mask : BitVec 128) (v : Line) (k : WcbEntry) :
    (mergedInto x tag mask v k).tag = k.tag ∧ (mergedInto x tag mask v k).asid = k.asid := by
  unfold mergedInto
  split <;> exact ⟨rfl, rfl⟩

theorem wfind_wmerge {x : CellSt} {tag : Nat} {e : WcbEntry} (mask : BitVec 128) (v : Line) (found : x.wfind tag = some e) :
    (x.wmerge tag mask v).wfind tag = some { e with data := mergeLine mask e.data v, mask := e.mask ||| mask } := by
  have own : e.tag = tag ∧ e.asid = x.seq.id.asid :=
    of_decide_eq_true (List.find?_some (p := fun k : WcbEntry => decide (k.tag = tag ∧ k.asid = x.seq.id.asid)) found)
  have mapped : (x.wmerge tag mask v).wfind tag = (x.wfind tag).map (mergedInto x tag mask v) := by
    refine (List.find?_map ..).trans (congrArg _ (congrArg (fun f => x.wcb.find? f) (funext fun k => ?_)))
    obtain ⟨named, mine⟩ := mergedInto_names x tag mask v k
    show decide ((mergedInto x tag mask v k).tag = tag ∧ (mergedInto x tag mask v k).asid = x.seq.id.asid) = _
    rw [named, mine]
  rw [mapped, found, Option.map_some, mergedInto, if_pos own]

theorem wfind_append {x : CellSt} {tag : Nat} {e : WcbEntry} (absent : x.wfind tag = none) (own : e.tag = tag ∧ e.asid = x.seq.id.asid) :
    CellSt.wfind { x with wcb := x.wcb ++ [e] } tag = some e := by
  have new : [e].find? (fun k => decide (k.tag = tag ∧ k.asid = x.seq.id.asid)) = some e :=
    List.find?_cons_of_pos (decide_eq_true own)
  exact List.find?_append.trans (by rw [show x.wcb.find? _ = none from absent, new]; rfl)

theorem overlay_found {x : CellSt} {tag : Nat} {e : WcbEntry} (l : Line) (found : x.wfind tag = some e) :
    x.overlay tag l = mergeLine e.mask l e.data := by
  rw [CellSt.overlay, found]

/-- R119: the issue of a word leaves the buffer as it stands. -/
theorem advance_wfind (u : State) (c tag : Nat) : ((u.advance c).cell c).wfind tag = (u.cell c).wfind tag := by
  have id : (u.cell c).seq.next.1.id = (u.cell c).seq.id := by rw [next_frame]
  rw [advance_cell, CellSt.wfind, CellSt.wfind]
  simp only [id]

theorem advance_wcb (u : State) (c : Nat) : ((u.advance c).cell c).wcb = (u.cell c).wcb := by rw [advance_cell]

/-! ### STG (R304, R305) -/

/-- R304: an aligned access lies in one line. -/
theorem aligned_in_line {a n : Nat} (size : n ∈ [1, 2, 4, 8]) (aligned : a % n = 0) : a % 128 + n ≤ 128 := by
  simp only [List.mem_cons, List.not_mem_nil, or_false] at size
  rcases size with rfl | rfl | rfl | rfl <;> omega

theorem store_size {p : (GlobArgs → Instr) × Nat} (h : p ∈ storeOps) : p.2 ∈ [1, 2, 4, 8] := by
  simp only [storeOps, List.mem_cons, List.not_mem_nil, or_false] at h
  rcases h with rfl | rfl | rfl | rfl <;> decide

/-- R119: the stores that go to the write-combining buffer. -/
theorem weak_iff {path order : Nat} : (decide (path = 0) && decide (order = 0)) = true ↔ path = 0 ∧ order = 0 := by
  rw [Bool.and_eq_true, decide_eq_true_eq, decide_eq_true_eq]

/-- R304: the low bytes of the register that an STG stores. -/
def storeVal (x : GlobArgs) (n : Nat) (s : State) : Nat := ((me s).gval x.r).toNat % 256 ^ n

/-- R119: where they stand in their line. -/
def storeMask (x : GlobArgs) (n : Nat) (s : State) : BitVec 128 := byteMask ((globAddr x n s).toNat % 128) n
def storeLine (x : GlobArgs) (n : Nat) (s : State) : Line := placed (storeVal x n s) ((globAddr x n s).toNat % 128)

/-- R119: the entry that a weak store allocates. -/
def storeEntry (x : GlobArgs) (n : Nat) (s : State) (t : Trans) : WcbEntry :=
  { tag := vline (globAddr x n s), asid := (me s).seq.id.asid, mask := storeMask x n s, trans := t,
    data := mergeLine (storeMask x n s) 0 (storeLine x n s) }

theorem storeVal_lt (x : GlobArgs) (n : Nat) (s : State) : storeVal x n s < 256 ^ n := Nat.mod_lt _ (Nat.pow_pos (by decide))

theorem storeVal_lt_word {x : GlobArgs} {n : Nat} {s : State} (size : n ∈ [1, 2, 4, 8]) : storeVal x n s < 2 ^ 64 := by
  refine Nat.lt_of_lt_of_le (storeVal_lt x n s) ?_
  simp only [List.mem_cons, List.not_mem_nil, or_false] at size
  rcases size with rfl | rfl | rfl | rfl <;> decide

section
variable {p : (GlobArgs → Instr) × Nat} {x : GlobArgs} {s : State}
variable (store : p ∈ storeOps) (ready : Ready s (p.1 x) x.g [x.base, x.r])
  (ok : (me s).addrOk [0, 3] (globAddr x p.2 s) = true) (aligned : alignedTo (globAddr x p.2 s) p.2 = true)
include store ready ok aligned

theorem store_merges (idle : (me s).freeze = .none) (path : pathOf (globAddr x p.2 s) = 0) (weak : x.order.toNat = 0)
    {e : WcbEntry} (found : (me s).wfind (vline (globAddr x p.2 s)) = some e) (sound : e.bad = 0) :
    exec (p.1 x) s = .next ((s.modCell s.sched.cur fun z => (z.wmerge (vline (globAddr x p.2 s)) (storeMask x p.2 s)
      (storeLine x p.2 s)).dpatch (vline (globAddr x p.2 s)) (storeMask x p.2 s) (storeLine x p.2 s)).advance s.sched.cur) := by
  refine (exec_ready _ (exec_store store x s) rfl ready).trans (congrArg _ ((addrChecked_ok ok aligned).trans ?_))
  have undrained : s.drainBad s.sched.cur (vline ((s.cell s.sched.cur).ea x.base x.imm p.2)) = s :=
    drainBad_sound fun k hk => by
      cases (found.symm.trans hk)
      exact sound
  have held : (s.cell s.sched.cur).wfind (vline ((s.cell s.sched.cur).ea x.base x.imm p.2)) = some e := found
  rw [answer_idle idle]
  dsimp only
  rw [if_pos (by exact weak_iff.2 ⟨path, weak⟩), undrained, held]
  rfl

theorem store_allocates {id : Nat} {r : Req} (frozen : (me s).freeze = .mem id) (found : s.req id = some r) (done : r.stage = .done)
    (path : pathOf (globAddr x p.2 s) = 0) (weak : x.order.toNat = 0) (accepted : s.pendingWrites s.sched.cur = false) :
    exec (p.1 x) s = .next (((s.dropReq id).allocEntry s.sched.cur (vline (globAddr x p.2 s)) r.trans (storeMask x p.2 s)
      (storeLine x p.2 s)).advance s.sched.cur) := by
  refine (exec_ready _ (exec_store store x s) rfl ready).trans (congrArg _ ((addrChecked_ok ok aligned).trans ?_))
  rw [answer_come frozen found]
  simp only [done]
  rw [if_pos (by exact weak_iff.2 ⟨path, weak⟩), if_neg (Bool.eq_false_iff.1 accepted)]
  rfl

theorem store_accepted {id : Nat} {r : Req} (frozen : (me s).freeze = .mem id) (found : s.req id = some r) (done : r.stage = .done)
    (strong : ¬(pathOf (globAddr x p.2 s) = 0 ∧ x.order.toNat = 0)) :
    exec (p.1 x) s = .next ((if pathOf (globAddr x p.2 s) = 0 then (s.dropReq id).modCell s.sched.cur fun z =>
      z.dpatch (vline (globAddr x p.2 s)) (storeMask x p.2 s) (storeLine x p.2 s) else s.dropReq id).advance s.sched.cur) := by
  refine (exec_ready _ (exec_store store x s) rfl ready).trans (congrArg _ ((addrChecked_ok ok aligned).trans ?_))
  rw [answer_come frozen found]
  simp only [done]
  rw [if_neg (by exact fun h => strong (weak_iff.1 h))]
  rfl

theorem store_asks_page (idle : (me s).freeze = .none) (path : pathOf (globAddr x p.2 s) = 0) (weak : x.order.toNat = 0)
    (absent : (me s).wfind (vline (globAddr x p.2 s)) = none) (room : (me s).wcb.length < 256) :
    exec (p.1 x) s = .next (s.sendFreeze s.sched.cur (s.mkReq s.sched.cur .alloc (globAddr x p.2 s) 2)) := by
  refine (exec_ready _ (exec_store store x s) rfl ready).trans (congrArg _ ((addrChecked_ok ok aligned).trans ?_))
  have missing : (s.cell s.sched.cur).wfind (vline ((s.cell s.sched.cur).ea x.base x.imm p.2)) = none := absent
  have undrained : s.drainBad s.sched.cur (vline ((s.cell s.sched.cur).ea x.base x.imm p.2)) = s :=
    drainBad_sound fun k hk => absurd (missing.symm.trans hk) (by simp)
  have space : ¬256 ≤ (s.cell s.sched.cur).wcb.length := Nat.not_le.2 room
  rw [answer_idle idle]
  dsimp only
  rw [if_pos (by exact weak_iff.2 ⟨path, weak⟩), undrained, missing]
  dsimp only
  split
  · rw [if_neg space]
    rfl
  · rfl

theorem store_asks_slice (idle : (me s).freeze = .none) (path : pathOf (globAddr x p.2 s) = 0) (strong : x.order.toNat ≠ 0)
    (absent : (me s).wfind (vline (globAddr x p.2 s)) = none) :
    exec (p.1 x) s = .next (s.sendFreeze s.sched.cur
      (s.mkReq s.sched.cur (.write (storeMask x p.2 s) (storeLine x p.2 s) false 0) (globAddr x p.2 s) 2)) := by
  refine (exec_ready _ (exec_store store x s) rfl ready).trans (congrArg _ ((addrChecked_ok ok aligned).trans ?_))
  have virtual : pathOf ((s.cell s.sched.cur).ea x.base x.imm p.2) = 0 := path
  have missing : (s.cell s.sched.cur).wfind (vline ((s.cell s.sched.cur).ea x.base x.imm p.2)) = none := absent
  rw [answer_idle idle]
  dsimp only
  rw [if_neg (by exact fun h => strong (weak_iff.1 h).2), if_pos virtual, drainLine_absent missing]
  rfl

end

theorem Aside.dpatch {s u : State} (h : Aside s u) (tag : Nat) (mask : BitVec 128) (v : Line) :
    Aside s (u.modCell s.sched.cur fun z => z.dpatch tag mask v) := h.modCell (fun _ => rfl) fun _ => rfl

/-- R119: after a store's word has issued, a weak load of its bytes reads them. -/
theorem reads_back {s u : State} (h : Aside s u) {e : WcbEntry} {a : Word} {n v : Nat}
    (found : (u.cell s.sched.cur).wfind (vline a) = some e)
    (holds : ∀ l, lineBytes (mergeLine e.mask l e.data) (a.toNat % 128) n = v) (l : Line) :
    accessVal ((me (u.advance s.sched.cur)).overlay (vline a) l) a n = BitVec.ofNat 64 v := by
  have cell : me (u.advance s.sched.cur) = (u.advance s.sched.cur).cell s.sched.cur :=
    me_of (elsewhere_trans h.frame (advance_elsewhere ..)) rfl
  rw [accessVal, cell, overlay_found l ((advance_wfind ..).trans found), holds]

/-- Settles O29: a weak store leaves its bytes in the buffer, and every other one with its home slice. -/
theorem storesComplete : Obligations.StoresComplete := by
  unfold Obligations.StoresComplete
  intro p store x s ready a v ok aligned
  have even : alignedTo a p.2 = true := alignedTo_iff.2 aligned
  have fits : a.toNat % 128 + p.2 ≤ 128 := aligned_in_line (store_size store) aligned
  have stored : StoredLine (a.toNat % 128) p.2 (storeVal x p.2 s) (storeMask x p.2 s) (storeLine x p.2 s) :=
    storedLine_placed fits (storeVal_lt x p.2 s)
  have value : v = BitVec.ofNat 64 (storeVal x p.2 s) := rfl
  rw [value]
  refine ⟨fun idle weak low ⟨e, found, sound⟩ => ?merges,
    fun id r frozen found done weak low accepted absent => ?allocates, fun id r frozen found done strong => ?accepted,
    fun idle low absent => ⟨fun weak room => ?page, fun strong => ?slice⟩⟩
  case merges =>
    have run := store_merges store ready ok even idle (pathOf_virtual low) (by rw [weak]; rfl) found sound
    have before : Aside s (s.modCell s.sched.cur fun z => (z.wmerge (vline a) (storeMask x p.2 s) (storeLine x p.2 s)).dpatch
      (vline a) (storeMask x p.2 s) (storeLine x p.2 s)) := (Aside.refl s).modCell (fun _ => rfl) fun _ => rfl
    obtain ⟨issued, kept, mem, disp, bytes⟩ := before.advance
    have merged := wfind_wmerge (storeMask x p.2 s) (storeLine x p.2 s) found
    exact ⟨_, run, issued, kept, mem, disp, bytes, reads_back before ((congrArg (CellSt.wfind · (vline a)) (cell_modCell ..)).trans merged)
      fun l => lineBytes_overlay stored fits l _⟩
  case allocates =>
    have run := store_allocates store ready ok even frozen found done (pathOf_virtual low) (by rw [weak]; rfl) accepted
    have before : Aside s ((s.dropReq id).allocEntry s.sched.cur (vline a) r.trans (storeMask x p.2 s) (storeLine x p.2 s)) :=
      ((Aside.refl s).dropReq id).modCell (fun _ => rfl) fun _ => rfl
    obtain ⟨issued, kept, mem, disp, bytes⟩ := before.advance
    have cell : ((s.dropReq id).allocEntry s.sched.cur (vline a) r.trans (storeMask x p.2 s) (storeLine x p.2 s)).cell s.sched.cur =
        CellSt.dpatch { me s with wcb := (me s).wcb ++ [storeEntry x p.2 s r.trans] } (vline a) (storeMask x p.2 s) (storeLine x p.2 s) := cell_modCell ..
    have allocated := wfind_append (e := storeEntry x p.2 s r.trans) absent ⟨rfl, rfl⟩
    refine ⟨_, run, issued, kept, mem, disp, bytes, reads_back before ((congrArg (CellSt.wfind · (vline a)) cell).trans allocated)
      fun l => ?_, storeEntry x p.2 s r.trans, ?_, rfl, rfl⟩
    · exact (lineBytes_mergeLine_covered _ _ fits stored.covers).trans
        ((lineBytes_mergeLine_covered _ _ fits stored.covers).trans stored.bytes)
    · exact (congrArg CellSt.wcb (me_of (elsewhere_trans before.frame (advance_elsewhere ..)) rfl)).trans
        ((advance_wcb ..).trans (congrArg CellSt.wcb cell))
  case accepted =>
    have far : ¬(pathOf a = 0 ∧ x.order.toNat = 0) := by
      rintro ⟨path, weak⟩
      rcases strong with other | high
      · exact other (BitVec.eq_of_toNat_eq weak)
      · exact absurd (path.symm.trans (pathOf_device ok high)) (by decide)
    have run := store_accepted store ready ok even frozen found done far
    have dropped := (Aside.refl s).dropReq id
    have before : ∃ u, Aside s u ∧ u.mem = { s.mem with reqs := terase s.mem.reqs id } ∧ (u.cell s.sched.cur).wcb = (me s).wcb ∧
        exec (p.1 x) s = .next (u.advance s.sched.cur) := by
      split at run
      · exact ⟨_, dropped.dpatch _ _ _, rfl, by rw [cell_modCell]; rfl, run⟩
      · exact ⟨_, dropped, rfl, rfl, run⟩
    obtain ⟨u, aside, left, wcb, run⟩ := before
    obtain ⟨issued, kept, mem, disp, bytes⟩ := aside.advance
    exact ⟨_, run, issued, kept, mem.trans left, disp, bytes,
      (congrArg CellSt.wcb (me_of (elsewhere_trans aside.frame (advance_elsewhere ..)) rfl)).trans ((advance_wcb ..).trans wcb)⟩
  case page =>
    have run := store_asks_page store ready ok even idle (pathOf_virtual low) (by rw [weak]; rfl) absent room
    obtain ⟨frozen, found, seq, bytes, cell⟩ := (Aside.refl s).sendFreeze (s.mkReq s.sched.cur .alloc a 2) rfl
    obtain ⟨own, line, asid, need, stage, kind⟩ := mkReq_virtual s s.sched.cur .alloc 2 (pathOf_virtual low)
    exact ⟨_, _, run, ⟨frozen, found, own, line, asid, need, stage, seq, (congrArg CellSt.wcb cell :), bytes⟩, kind⟩
  case slice =>
    have run := store_asks_slice store ready ok even idle (pathOf_virtual low) (fun weak => strong (BitVec.eq_of_toNat_eq weak)) absent
    obtain ⟨frozen, found, seq, bytes, cell⟩ := (Aside.refl s).sendFreeze
      (s.mkReq s.sched.cur (.write (storeMask x p.2 s) (storeLine x p.2 s) false 0) a 2) rfl
    obtain ⟨own, line, asid, need, stage, kind⟩ := mkReq_virtual s s.sched.cur
      (.write (storeMask x p.2 s) (storeLine x p.2 s) false 0) 2 (pathOf_virtual low)
    refine ⟨_, _, _, _, run, ⟨frozen, found, own, line, asid, need, stage, seq, (congrArg CellSt.wcb cell :), bytes⟩, kind,
      fun b hb => byteMask_bit hb, ?_⟩
    rw [toNat_ofNat_of_lt (storeVal_lt_word (store_size store))]
    exact stored.bytes

end Sys2Proof.Proofs
end

section
/-! PROOFS. Descriptors in the scratchpad: the words that an instruction reads, and the numbers in them (R111, R113, R318). -/

namespace Sys2Proof.Proofs

open Sys2Proof Sys2Proof.Machine Sys2Proof.Safety Sys2Proof.Laws

/-! ### What reads leave of a cell (R111, R113) -/

/-- R111, R113: a cell of which reads of bank words have changed the bank cycles, the words to correct and what is counted of
them. -/
def ReadOnly (x y : CellSt) : Prop :=
  y = { x with banks := y.banks, refused := y.refused, ec := y.ec, scrub := y.scrub, events := y.events }

theorem readOnly_refl (x : CellSt) : ReadOnly x x := rfl

theorem readOnly_trans {x y z : CellSt} (h : ReadOnly x y) (k : ReadOnly y z) : ReadOnly x z := by
  unfold ReadOnly at *
  rw [k, h]

theorem readOnly_granted (x : CellSt) (b o : Nat) : ReadOnly x ((x.useBanks 2 [b]).spNote o) := by
  unfold ReadOnly CellSt.spNote
  split <;> rfl

/-- What later checks and effects ask of a cell is as it was. -/
theorem readOnly_keeps {x y : CellSt} (h : ReadOnly x y) : y.seq = x.seq ∧ y.spad = x.spad ∧ y.wcb = x.wcb ∧ y.copyq = x.copyq ∧
    y.linkq = x.linkq ∧ y.puts = x.puts ∧ y.stop = x.stop ∧ y.bound = x.bound := by
  rw [h]
  exact ⟨rfl, rfl, rfl, rfl, rfl, rfl, rfl, rfl⟩

/-- R111: whether a bank is free is said by the bank cycles, the refusals and the accesses pending. -/
theorem bankFree_congr {x y : CellSt} {cls b : Nat} (used : y.bankUsed b = x.bankUsed b) (own : y.refusals cls b = x.refusals cls b)
    (earned : y.earned b = x.earned b) : y.bankFree cls b = x.bankFree cls b := by
  rw [CellSt.bankFree, CellSt.bankFree, CellSt.outranked, CellSt.outranked, used, own, earned]

theorem bankFree_spNote (x : CellSt) (o cls b : Nat) : (x.spNote o).bankFree cls b = x.bankFree cls b := by
  unfold CellSt.spNote
  split <;> rfl

/-- A filter that keeps all that is asked for is not seen. -/
theorem filter_filter_implied {α : Type} {p q : α → Bool} (xs : List α) (h : ∀ a, p a = true → q a = true) :
    (xs.filter q).filter p = xs.filter p := by
  rw [List.filter_filter]
  refine List.filter_congr fun a _ => ?_
  cases asked : p a with
  | false => rfl
  | true => rw [h a asked]; rfl

theorem find?_filter_implied {α : Type} {p q : α → Bool} (xs : List α) (h : ∀ a, p a = true → q a = true) :
    (xs.filter q).find? p = xs.find? p := by
  rw [← List.head?_filter, ← List.head?_filter, filter_filter_implied xs h]

/-- R111: a bank cycle leaves every other bank free that was. -/
theorem bankFree_useBanks {x : CellSt} {cls b b' : Nat} (other : b' ≠ b) (bank : b' < 128) :
    (x.useBanks cls [b]).bankFree cls b' = x.bankFree cls b' := by
  have kept : ∀ r : Refusal3, r.bank = b' → decide (¬(r.cls = cls ∧ [b].contains r.bank = true)) = true := by
    intro r hr
    refine decide_eq_true fun ⟨_, gone⟩ => other ?_
    rw [← hr]
    exact List.mem_singleton.1 (List.contains_iff_mem.1 gone)
  refine bankFree_congr ?used ?own ?earned
  case used =>
    have fabric : (b' == b + 128) = false := beq_false_of_ne (by omega)
    have shared : (b' + 128 == b + 128) = false := beq_false_of_ne (by omega)
    simp only [CellSt.bankUsed, CellSt.useBanks, List.map_cons, List.map_nil, List.cons_append, List.nil_append, List.contains_cons,
      fabric, shared, Bool.false_or]
  case own =>
    refine congrArg (fun r : Option Refusal3 => (r.map (·.count)).getD 0) (find?_filter_implied x.refused fun r hr => kept r ?_)
    exact (of_decide_eq_true hr).2
  case earned =>
    refine congrArg (· ++ _) (congrArg (List.map _) (filter_filter_implied x.refused fun r hr => kept r ?_))
    exact (of_decide_eq_true hr).1

/-! ### The words of a descriptor (R318) -/

theorem readOnly_word {x y : CellSt} (h : ReadOnly x y) (o : Nat) : y.spWord o = x.spWord o := by rw [h]; rfl

theorem readOnly_words {x y : CellSt} (h : ReadOnly x y) (n : Nat) : ∀ o : Nat, y.spWords o n = x.spWords o n := by
  induction n with
  | zero => exact fun _ => rfl
  | succ n ih => exact fun o => by rw [CellSt.spWords, CellSt.spWords, readOnly_word h, ih]

/-- R111: words whose banks are free, each in its own bank, are all read in one cycle. -/
theorem readStep_free (off : Nat) : ∀ (ws : List Word) (j : Nat) (x : CellSt), j + ws.length ≤ 128 →
    (∀ i, j ≤ i → i < j + ws.length → x.bankFree 2 (bankOf (off + 8 * i)) = true) →
    ∃ y, ReadOnly x y ∧ readStep x off j (2 ^ j - 1) ws = (y, 2 ^ (j + ws.length) - 1, x.spWords (off + 8 * j) ws.length) := by
  intro ws
  induction ws with
  | nil => exact fun j x _ _ => ⟨x, readOnly_refl x, rfl⟩
  | cons w t ih =>
    intro j x few free
    simp only [List.length_cons] at few free ⊢
    let y := (x.useBanks 2 [bankOf (off + 8 * j)]).spNote (off + 8 * j)
    have granted : x.askBanks 2 [bankOf (off + 8 * j)] = (true, x.useBanks 2 [bankOf (off + 8 * j)]) := by
      have all : [bankOf (off + 8 * j)].all (x.bankFree 2) = true := by simpa using free j (by omega) (by omega)
      rw [CellSt.askBanks, if_pos all]
    have wanted : (2 ^ j - 1).testBit j = false := by rw [Nat.testBit_two_pow_sub_one]; simp
    have count : 2 ^ j - 1 + 2 ^ j = 2 ^ (j + 1) - 1 := by
      have := Nat.two_pow_pos j
      rw [Nat.pow_succ]
      omega
    obtain ⟨z, only, rest⟩ := ih (j + 1) y (by omega) fun i low high => by
      have bank : bankOf (off + 8 * i) ≠ bankOf (off + 8 * j) := by simp only [bankOf]; omega
      rw [bankFree_spNote, bankFree_useBanks bank (Nat.mod_lt _ (by decide))]
      exact free i (by omega) (by omega)
    refine ⟨z, readOnly_trans (readOnly_granted x _ _) only, ?_⟩
    rw [readStep]
    dsimp only
    rw [wanted, granted, if_neg Bool.false_ne_true]
    dsimp only
    rw [if_pos rfl, if_pos rfl, if_pos rfl, count, rest, readOnly_words (readOnly_granted x _ _), Nat.add_right_comm]
    rfl

/-- R318: the words of a descriptor. -/
def descWords (x : CellSt) (o n : Nat) : List Word := (List.range n).map fun j => mword x.spad (o + 8 * j)

theorem descWords_succ (x : CellSt) (o n : Nat) : descWords x o (n + 1) = mword x.spad o :: descWords x (o + 8) n := by
  have place (j : Nat) : o + 8 * (j + 1) = o + 8 + 8 * j := by omega
  rw [descWords, descWords, List.range_succ_eq_map, List.map_cons, List.map_map, Nat.mul_zero, Nat.add_zero, List.cons.injEq]
  exact ⟨rfl, List.map_congr_left fun j _ => congrArg (mword x.spad) (place j)⟩

theorem spWords_aligned (x : CellSt) (n : Nat) : ∀ {o : Nat}, o % 8 = 0 → x.spWords o n = descWords x o n := by
  induction n with
  | zero => exact fun _ => rfl
  | succ n ih =>
    intro o aligned
    rw [CellSt.spWords, ih (by omega), spWord_aligned x aligned, descWords_succ]

theorem spBads_sound {x : CellSt} (n : Nat) : ∀ {o : Nat}, (∀ j < n, x.spBad (o + 8 * j) = false) → x.spBads o n = false := by
  induction n with
  | zero => exact fun _ => rfl
  | succ n ih =>
    intro o sound
    have rest := ih (o := o + 8) fun j hj => by
      have := sound (j + 1) (by omega)
      rwa [Nat.mul_succ, ← Nat.add_assoc, Nat.add_right_comm] at this
    show (x.spBad o || x.spBads (o + 8) n) = false
    rw [rest, show x.spBad o = false from sound 0 (by omega)]
    rfl

/-- R318: a descriptor that is legal, aligned and readable. -/
structure ReadableDesc (x : CellSt) (v : Word) (n : Nat) : Prop where
  own : v.toNat / 2 ^ 19 = 2 ^ 41
  aligned : v.toNat % 8 = 0
  inside : v.toNat % 2 ^ 19 + 8 * n ≤ 2 ^ 19
  readable : Readable x (v.toNat % 2 ^ 19) n

/-- R318: an instruction gets the words of its descriptor in the cycle in which it issues. -/
theorem readDesc_reads {s : State} {v : Word} {n : Nat} (idle : (me s).freeze = .none) (desc : ReadableDesc (me s) v n)
    (few : n ≤ 128) : ∃ z, ReadOnly (me s) z ∧ ∀ (i : Instr) (go : List Word → State → State),
      s.readDesc s.sched.cur i v n 8 go = go (descWords (me s) (v.toNat % 2 ^ 19) n) (s.setCell s.sched.cur z) := by
  obtain ⟨own, aligned, inside, readable⟩ := desc
  have even : v.toNat % 2 ^ 19 % 8 = 0 := by omega
  obtain ⟨z, only, step⟩ := readStep_free (v.toNat % 2 ^ 19) (List.replicate n 0) 0 (me s) (by simpa using few)
    (fun j _ hj => (readable j (by simpa using hj)).1)
  rw [List.length_replicate, Nat.zero_add, Nat.mul_zero, Nat.add_zero, spWords_aligned _ _ even] at step
  have sound : (me s).spBads (v.toNat % 2 ^ 19) n = false := spBads_sound n fun j hj => (readable j hj).2
  have held : heldWords (me s) n = (0, List.replicate n 0) := by
    rw [heldWords, idle]
  have legal : ¬(!(me s).addrOk [1] v || decide (0x80000 < v.toNat % 2 ^ 19 + 8 * n)) = true := by
    rw [addrOk_own.2 own, decide_eq_false (by omega)]
    decide
  refine ⟨z, only, fun i go => ?_⟩
  have checked : s.readDesc s.sched.cur i v n 8 go = s.readWords s.sched.cur i v (v.toNat % 2 ^ 19) n go := by
    rw [me] at idle
    unfold State.readDesc
    rw [offOf_eq]
    simp only [idle]
    exact (if_neg legal).trans (if_neg (by rw [alignedTo_iff.2 aligned]; decide))
  rw [checked]
  unfold State.readWords
  dsimp only
  rw [show heldWords (s.cell s.sched.cur) n = _ from held]
  dsimp only
  rw [show readStep (s.cell s.sched.cur) _ 0 0 _ = _ from step]
  dsimp only
  rw [if_neg (by simp), if_neg (by exact Bool.eq_false_iff.1 sound)]

/-! ### The numbers of a descriptor (R318) -/

theorem leNat_mread_add (m : Memory) (n : Nat) : ∀ k a : Nat,
    leNat (mread m a (k + n)) = leNat (mread m a k) + 256 ^ k * leNat (mread m (a + k) n) := by
  intro k
  induction k with
  | zero => intro a; simp [mread, leNat]
  | succ k ih =>
    intro a
    rw [Nat.add_right_comm, mread, leNat, ih, mread, leNat, Nat.pow_succ', Nat.add_right_comm a, Nat.mul_add, Nat.mul_assoc,
      ← Nat.add_assoc]
    rfl

theorem wordsNat_descWords (x : CellSt) (n : Nat) : ∀ o : Nat, wordsNat (descWords x o n) = leNat (mread x.spad o (8 * n)) := by
  induction n with
  | zero => exact fun _ => rfl
  | succ n ih =>
    intro o
    have first : (mword x.spad o).toNat = leNat (mread x.spad o 8) := toNat_ofNat_of_lt (leNat_mread_lt x.spad 8 o)
    rw [descWords_succ, wordsNat, ih, first, Nat.mul_succ, Nat.add_comm (8 * n), leNat_mread_add]
    rfl

/-- R318: a field of a descriptor is the number at its place. -/
theorem descNum_words (x : CellSt) (o : Nat) {off n N : Nat} (inside : off + n ≤ 8 * N) :
    descNum (descWords x o N) off n = leNat (mread x.spad (o + off) n) := by
  rw [descNum, wordsNat_descWords, leNat_mread_slice _ _ _ _ _ inside]

/-! ### Commands (R146, R318) -/

/-- R146: with everything released and room in its queue, a command enters it at once. -/
theorem issueCommand_enters {s : State} {c : Nat} {ws : List Word} {room : State → Bool} {go : State → State}
    (released : s.released c = true) (free : room s = true) : s.issueCommand c ws room go = go s := by
  have release : s.release c 4 = (true, s) := by
    rw [State.release, if_neg (by decide), if_neg (by decide), drainAll_empty (released_parts released).1]
    exact congrArg (·, s) released
  unfold State.issueCommand State.afterRelease
  rw [release]
  dsimp only
  rw [if_pos rfl, if_pos free]

theorem released_readOnly {s : State} {z : CellSt} (only : ReadOnly (me s) z) (released : s.released s.sched.cur = true) :
    (s.setCell s.sched.cur z).released s.sched.cur = true := by
  obtain ⟨-, -, buffer, -⟩ := readOnly_keeps only
  rw [← released, State.released, State.released, cell_setCell, buffer]
  rfl

theorem Aside.setCell_readOnly {s : State} {z : CellSt} (only : ReadOnly (me s) z) : Aside s (s.setCell s.sched.cur z) :=
  by
  obtain ⟨seq, spad, -⟩ := readOnly_keeps only
  exact ⟨elsewhere_setCell .., rfl, rfl, rfl, by rw [cell_setCell, seq], by rw [cell_setCell, spad]⟩

/-- R318: what the issue of a word leaves of a cell's queues. -/
theorem advance_queues (u : State) (c : Nat) :
    ((u.advance c).cell c).copyq = (u.cell c).copyq ∧ ((u.advance c).cell c).linkq = (u.cell c).linkq ∧
      ((u.advance c).cell c).puts = (u.cell c).puts := by
  rw [advance_cell]
  exact ⟨rfl, rfl, rfl⟩

/-- R318: a command that its cell has queued leaves memory's bytes and the registers. -/
theorem queued {s : State} {z : CellSt} {f : CellSt → CellSt} (only : ReadOnly (me s) z) (seq : ∀ x, (f x).seq = x.seq)
    (spad : ∀ x, (f x).spad = x.spad) : let t := ((s.setCell s.sched.cur z).modCell s.sched.cur f).advance s.sched.cur
    Issued s t ∧ KeptRegs s t ∧ t.mem = s.mem ∧ t.disp = s.disp ∧ SameBytes s t ∧ (me t).copyq = (f z).copyq ∧
      (me t).linkq = (f z).linkq := by
  have before := (Aside.setCell_readOnly only).modCell seq spad
  obtain ⟨issued, kept, mem, disp, bytes⟩ := before.advance
  obtain ⟨copyq, linkq, -⟩ := advance_queues ((s.setCell s.sched.cur z).modCell s.sched.cur f) s.sched.cur
  rw [cell_modCell, cell_setCell] at copyq linkq
  have own := me_of (elsewhere_trans before.frame (advance_elsewhere _ _)) rfl
  exact ⟨issued, kept, mem, disp, bytes, (congrArg CellSt.copyq own).trans copyq, (congrArg CellSt.linkq own).trans linkq⟩

theorem sameGang_readOnly {s : State} {z : CellSt} (only : ReadOnly (me s) z) (n : Nat) :
    (s.setCell s.sched.cur z).sameGang s.sched.cur n = s.sameGang s.sched.cur n := by
  obtain ⟨-, -, -, -, -, -, -, bound⟩ := readOnly_keeps only
  have bounds (k : Nat) : ((s.setCell s.sched.cur z).cell k).bound = (s.cell k).bound := by
    by_cases own : k = s.sched.cur
    · rw [own, cell_setCell, bound]
      rfl
    · rw [cell_setCell_ne s z own]
  rw [State.sameGang, State.sameGang, bounds, bounds]

end Sys2Proof.Proofs
end

section
/-! PROOFS. Copy and link commands enter their queues with the fields of their descriptors (R199, R208, R318, R327, R335). -/

namespace Sys2Proof.Proofs

open Sys2Proof Sys2Proof.Machine Sys2Proof.Safety Sys2Proof.Laws

/-! ### Copy commands (R199, R327) -/

/-- R318: a number of `n` bytes in the scratchpad, `off` bytes into a descriptor. -/
def descField (x : CellSt) (o off n : Nat) : Nat := leNat (mread x.spad (o + off) n)

theorem descField_lt (x : CellSt) (o off n : Nat) : descField x o off n < 256 ^ n := leNat_mread_lt ..

/-- R199: the fields of a copy descriptor. -/
structure CopyFields (x : CellSt) (o : Nat) (k : CopyCmd) : Prop where
  gaddr : k.gaddr.toNat = descField x o 0x00 8
  soff : k.soff = descField x o 0x08 4
  run : k.run = descField x o 0x0c 4
  nrun : k.nrun = descField x o 0x10 4
  gstride : k.gstride.toNat = descField x o 0x14 4
  sstride : k.sstride.toNat = descField x o 0x18 4
  cwoff : k.cwoff = descField x o 0x1c 4
  cval : k.cval.toNat = descField x o 0x20 7
  dir : k.dir = (descField x o 0x27 1 / 16 % 2 == 1)
  pattern : k.pattern.toNat = descField x o 0x28 8
  progress : k.progress = 0

theorem copyFields (x : CellSt) (o : Nat) (op : Fin 8) : CopyFields x o (copyOf (descWords x o 6) op) where
  gaddr := by rw [copyOf, descNum_words x o (by decide)]; exact toNat_ofNat_of_lt (descField_lt x o 0x00 8)
  soff := descNum_words x o (by decide)
  run := descNum_words x o (by decide)
  nrun := descNum_words x o (by decide)
  gstride := by rw [copyOf, descNum_words x o (off := 0x14) (by decide)]; exact toNat_ofNat_of_lt (descField_lt x o 0x14 4)
  sstride := by rw [copyOf, descNum_words x o (off := 0x18) (by decide)]; exact toNat_ofNat_of_lt (descField_lt x o 0x18 4)
  cwoff := descNum_words x o (by decide)
  cval := by rw [copyOf, descNum_words x o (off := 0x20) (by decide)]; exact toNat_ofNat_of_lt (descField_lt x o 0x20 7)
  dir := congrArg (fun n => n / 16 % 2 == 1) (descNum_words x o (by decide))
  pattern := by rw [copyOf, descNum_words x o (off := 0x28) (by decide)]; exact toNat_ofNat_of_lt (descField_lt x o 0x28 8)
  progress := rfl

/-- R199, R327: the limits of a command whose top byte and pattern are 0. -/
structure CopyLimits (x : CellSt) (o op : Nat) : Prop where
  top : descField x o 0x27 1 = 0
  pattern : descField x o 0x28 8 = 0
  gaddr : descField x o 0x00 8 % 8 = 0
  soff : descField x o 0x08 4 % 8 = 0 ∧ descField x o 0x08 4 < 2 ^ 19
  cwoff : descField x o 0x1c 4 % 8 = 0 ∧ descField x o 0x1c 4 < 2 ^ 19
  run : descField x o 0x0c 4 % 8 = 0 ∧ 8 ≤ descField x o 0x0c 4 ∧ descField x o 0x0c 4 ≤ 65536
  nrun : 1 ≤ descField x o 0x10 4 ∧ descField x o 0x10 4 ≤ 65536
  strides : descField x o 0x14 4 % 8 = 0 ∧ descField x o 0x18 4 % 8 = 0
  gather : op = 5 → descField x o 0x14 4 = 0
  fill : op = 4 → descField x o 0x00 8 = 0

theorem copyOk_of_limits {x : CellSt} {o : Nat} {op : Fin 8} (limits : CopyLimits x o op.val) :
    copyOk (descWords x o 6) (copyOf (descWords x o 6) op) = true ∧ (copyOf (descWords x o 6) op).dir = false ∧
      (copyOf (descWords x o 6) op).pattern = 0 := by
  have fields := copyFields x o op
  generalize named : copyOf (descWords x o 6) op = k at fields ⊢
  obtain ⟨gaddr, soff, run, nrun, gstride, sstride, cwoff, -, dir, pattern, -⟩ := fields
  obtain ⟨top, plain, global, ⟨soff8, soffIn⟩, ⟨cwoff8, cwoffIn⟩, ⟨run8, runMin, runMax⟩, ⟨nrunMin, nrunMax⟩, ⟨gs8, ss8⟩, gather, fill⟩ :=
    limits
  have kind : k.op = op := by rw [← named]; rfl
  have low : k.dir = false := by rw [dir, top]; rfl
  have blank : k.pattern = 0 := BitVec.eq_of_toNat_eq (pattern.trans plain)
  have number : descNum (descWords x o 6) 0x27 1 = 0 := (descNum_words x o (by decide)).trans top
  have still : k.op.val = 5 → k.gstride = 0 := fun h => BitVec.eq_of_toNat_eq (gstride.trans (gather (by rw [← kind]; exact h)))
  have fixed : k.op.val = 4 → k.gaddr = 0 := fun h => BitVec.eq_of_toNat_eq (gaddr.trans (fill (by rw [← kind]; exact h)))
  refine ⟨?_, low, blank⟩
  simp only [copyOk, number, low, blank, gaddr, soff, run, nrun, gstride, sstride, cwoff, Bool.and_eq_true, Bool.or_eq_true,
    decide_eq_true_eq, beq_iff_eq, bne_iff_ne, Bool.not_eq_true']
  refine ⟨⟨⟨?numbers, .inr ⟨trivial, trivial⟩⟩, or_iff_not_imp_left.2 fun h => still (not_not.1 h)⟩, ?fill⟩
  case numbers =>
    simp only [true_and]
    omega
  case fill =>
    by_cases filling : k.op.val = 4
    · exact .inr ((if_neg Bool.false_ne_true).trans (beq_iff_eq.2 (fixed filling)))
    · exact .inl (beq_false_of_ne filling)

/-- R124, R199, R201: the address of a copy command is one that it takes, and a remote one is of a cell of the gang. -/
theorem copyPath_ok {s : State} {o : Nat} {op : Fin 8} (plain : (copyOf (descWords (me s) o 6) op).dir = false)
    (path : if op.val = 3 then (me s).addrOk [2] (BitVec.ofNat 64 (descField (me s) o 0x00 8)) = true ∧
        s.sameGang s.sched.cur (descField (me s) o 0x00 8 / 2 ^ 32 % 65536) = true
      else if op.val = 4 then descField (me s) o 0x00 8 = 0 else descField (me s) o 0x00 8 < 2 ^ 48) :
    copyPathOk (me s) (copyOf (descWords (me s) o 6) op) = true ∧
      (op.val = 3 → s.sameGang s.sched.cur (cellOf (copyOf (descWords (me s) o 6) op).gaddr) = true) := by
  have gaddr := (copyFields (me s) o op).gaddr
  generalize named : copyOf (descWords (me s) o 6) op = k at plain gaddr ⊢
  have kind : k.op = op := by rw [← named]; rfl
  rw [← gaddr] at path
  by_cases remote : op.val = 3
  · rw [if_pos remote, BitVec.ofNat_toNat, BitVec.setWidth_eq] at path
    refine ⟨?_, fun _ => path.2⟩
    rw [copyPathOk, kind, remote]
    exact path.1
  · rw [if_neg remote] at path
    refine ⟨?_, fun h => absurd h remote⟩
    have own : ¬(k.op.val == 3) = true := by simpa [kind] using remote
    rw [copyPathOk, if_neg own]
    by_cases fill : op.val = 4
    · rw [if_pos (by simpa [kind, plain] using fill)]
    · rw [if_neg fill] at path
      rw [if_neg (by simpa [kind, plain] using fill)]
      exact addrOk_virtual.2 path

/-- R327: the copy commands by their code. -/
theorem copy_form {p : (SrcArgs → Instr) × Nat}
    (h : p ∈ [(Instr.cpIn, 1), (.cpOut, 2), (.cpXfr, 3), (.cpFill, 4), (.cpGath, 5)]) (x : SrcArgs) (s : State) :
    ∃ op : Fin 8, op.val = p.2 ∧ exec (p.1 x) s = copyOp (p.1 x) x op s := by
  simp only [List.mem_cons, List.not_mem_nil, or_false] at h
  rcases h with rfl | rfl | rfl | rfl | rfl
  · exact ⟨1, rfl, rfl⟩
  · exact ⟨2, rfl, rfl⟩
  · exact ⟨3, rfl, rfl⟩
  · exact ⟨4, rfl, rfl⟩
  · exact ⟨5, rfl, rfl⟩

section
variable {i : Instr} {x : SrcArgs} {op : Fin 8} {s : State}

/-- R146, R199, R327: a copy command that passes its checks joins its cell's queue. -/
theorem copy_enters (form : exec i s = copyOp i x op s) (ready : Ready s i x.g [x.a]) (idle : (me s).freeze = .none)
    (desc : ReadableDesc (me s) ((me s).gval x.a) 6) (released : s.released s.sched.cur = true) (room : (me s).copyq.length < 4) :
    let k := copyOf (descWords (me s) (((me s).gval x.a).toNat % 2 ^ 19) 6) op
    copyOk (descWords (me s) (((me s).gval x.a).toNat % 2 ^ 19) 6) k = true → copyPathOk (me s) k = true →
    (op.val = 3 → s.sameGang s.sched.cur (cellOf k.gaddr) = true) →
    ∃ z, ReadOnly (me s) z ∧ exec i s = .next (((s.setCell s.sched.cur z).modCell s.sched.cur fun y =>
      { y with copyq := y.copyq ++ [k] }).advance s.sched.cur) := by
  intro k ok path gang
  obtain ⟨z, only, reads⟩ := readDesc_reads idle desc (by decide)
  refine ⟨z, only, (exec_ready _ form rfl ready).trans (congrArg _ ((reads i _).trans ?_))⟩
  have cell : (s.setCell s.sched.cur z).cell s.sched.cur = z := cell_setCell ..
  obtain ⟨seq, -, -, copyq, -⟩ := readOnly_keeps only
  have legal : copyPathOk ((s.setCell s.sched.cur z).cell s.sched.cur) k = true := by
    rw [← path, cell]
    simp only [copyPathOk, CellSt.addrOk, seq]
  have bound : ¬(op.val == 3 && !(s.setCell s.sched.cur z).sameGang s.sched.cur (cellOf k.gaddr)) = true := by
    rw [sameGang_readOnly only]
    simpa using gang
  dsimp only
  rw [if_neg (by rw [show copyOk _ _ = true from ok]; decide), if_neg (by rw [show copyPathOk _ _ = true from legal]; decide), if_neg bound]
  exact issueCommand_enters (released_readOnly only released) (decide_eq_true (by rw [cell, copyq]; exact room))

end

/-! ### Link commands (R208, R335) -/

/-- R208: the fields of a link descriptor. -/
structure LinkFields (x : CellSt) (o : Nat) (k : LinkCmd) : Prop where
  group : k.group.toNat = descField x o 0 2
  tag : k.tag.toNat = descField x o 2 2
  round : k.round.toNat = descField x o 4 4
  port : k.port.val = descField x o 8 1
  m : k.m = descField x o 0xa 1
  pos : k.pos = descField x o 0xb 1
  dcell : k.dcell.toNat = descField x o 0xc 2
  boff : k.boff = descField x o 0x10 4
  len : k.len = descField x o 0x14 4
  woff : k.woff = descField x o 0x18 4
  cwoff : k.cwoff = descField x o 0x1c 4
  cval : k.cval.toNat = descField x o 0x20 7

/-- R335: a descriptor within its limits names a cell and a port. -/
theorem linkOk_names {ws : List Word} {op : Nat} {k : LinkCmd} (ok : linkOk ws op k = true) :
    descNum ws 0xd 1 < 128 ∧ descNum ws 8 1 < 32 := by
  simp only [linkOk, Bool.and_eq_true, decide_eq_true_eq, and_assoc] at ok
  obtain ⟨-, -, -, dcell, port, -⟩ := ok
  exact ⟨dcell, port⟩

theorem linkFields {x : CellSt} {o : Nat} {op : Fin 4} {bf16 : Bool} {step : Nat}
    (ok : linkOk (descWords x o 8) op.val (linkOf (descWords x o 8) op bf16 step) = true) :
    LinkFields x o (linkOf (descWords x o 8) op bf16 step) := by
  obtain ⟨cells, ports⟩ := linkOk_names ok
  rw [descNum_words x o (by decide)] at cells ports
  have dcell : descField x o 0xc 2 < 2 ^ 15 := by
    have split : descField x o 0xc 2 = descField x o 0xc 1 + 256 ^ 1 * descField x o 0xd 1 := leNat_mread_add x.spad 1 1 (o + 0xc)
    have low := descField_lt x o 0xc 1
    have high : descField x o 0xd 1 < 128 := cells
    omega
  refine { group := ?_, tag := ?_, round := ?_, port := ?_, dcell := ?_, cval := ?_, m := descNum_words x o (by decide),
           pos := descNum_words x o (by decide), boff := descNum_words x o (by decide), len := descNum_words x o (by decide),
           woff := descNum_words x o (by decide), cwoff := descNum_words x o (by decide) }
  · rw [linkOf, descNum_words x o (off := 0) (by decide)]
    exact toNat_ofNat_of_lt (descField_lt x o 0 2)
  · rw [linkOf, descNum_words x o (off := 2) (by decide)]
    exact toNat_ofNat_of_lt (descField_lt x o 2 2)
  · rw [linkOf, descNum_words x o (off := 4) (by decide)]
    exact toNat_ofNat_of_lt (descField_lt x o 4 4)
  · rw [linkOf, descNum_words x o (off := 8) (by decide)]
    exact Nat.mod_eq_of_lt ports
  · rw [linkOf, descNum_words x o (off := 0xc) (by decide)]
    exact toNat_ofNat_of_lt dcell
  · rw [linkOf, descNum_words x o (off := 0x20) (by decide)]
    exact toNat_ofNat_of_lt (descField_lt x o 0x20 7)

/-- R336: the commands that send and receive, by their code. -/
theorem link_form {p : (SrcArgs → Instr) × Nat} (h : p ∈ [(Instr.lkSend, 0), (.lkRecv, 1)]) (x : SrcArgs) (s : State) :
    ∃ op : Fin 4, op.val = p.2 ∧ op.val < 2 ∧ Fin.ofNat 4 p.2 = op ∧
      exec (p.1 x) s = linkOp (p.1 x) x.g x.a [] op false (fun _ => 0) s := by
  simp only [List.mem_cons, List.not_mem_nil, or_false] at h
  rcases h with rfl | rfl
  · exact ⟨0, rfl, by decide, rfl, rfl⟩
  · exact ⟨1, rfl, by decide, rfl, rfl⟩

section
variable {i : Instr} {g : Guard} {a : Reg} {srcs : List Reg} {op : Fin 4} {bf16 : Bool} {step : CellSt → Nat} {n : Nat} {s : State}

/-- R146, R208, R335: a link command that passes its checks joins its cell's queue. -/
theorem link_enters (form : exec i s = linkOp i g a srcs op bf16 step s) (ready : Ready s i g (a :: srcs))
    (idle : (me s).freeze = .none) (desc : ReadableDesc (me s) ((me s).gval a) 8) (released : s.released s.sched.cur = true)
    (room : (me s).linkq.length < 4) (steps : ∀ z : CellSt, z.seq = (me s).seq → step z = n) :
    let k := linkOf (descWords (me s) (((me s).gval a).toNat % 2 ^ 19) 8) op bf16 n
    linkOk (descWords (me s) (((me s).gval a).toNat % 2 ^ 19) 8) op.val k = true → (op.val = 2 → k.step + 2 < 2 * k.m) →
    ∃ z, ReadOnly (me s) z ∧ exec i s = .next (((s.setCell s.sched.cur z).modCell s.sched.cur fun y =>
      { y with linkq := y.linkq ++ [k] }).advance s.sched.cur) := by
  intro k ok inRange
  obtain ⟨z, only, reads⟩ := readDesc_reads idle desc (by decide)
  obtain ⟨seq, -, -, -, linkq, -⟩ := readOnly_keeps only
  refine ⟨z, only, (exec_ready _ form rfl ready).trans (congrArg _ ((reads i _).trans ?_))⟩
  have cell : (s.setCell s.sched.cur z).cell s.sched.cur = z := cell_setCell ..
  have taken : ¬(!linkOk (descWords (me s) (((me s).gval a).toNat % 2 ^ 19) 8) op.val k ||
      (decide (op.val = 2) && decide (2 * k.m ≤ k.step + 2))) = true := by
    rw [ok, Bool.not_true, Bool.false_or, Bool.and_eq_true, decide_eq_true_eq, decide_eq_true_eq]
    exact fun ⟨ared, past⟩ => absurd (inRange ared) (by omega)
  dsimp only
  rw [cell, steps z seq, if_neg (by exact taken)]
  exact issueCommand_enters (released_readOnly only released) (decide_eq_true (by rw [cell, linkq]; exact room))

end

/-! ### LK.ABORT (R211, R339) -/

/-- R205: what the partner sees of the flits that a port holds. -/
def flitTags (p : Port) : List (BitVec 8 × BitVec 16 × BitVec 32) :=
  (p.replay ++ p.waiting).map fun f => (f.typ, f.group, f.round)

/-- R205, R206: flits that are sent stay in the replay buffer, in their order. -/
theorem flitTags_pump (n : Nat) : ∀ p : Port, flitTags (p.pump n) = flitTags p := by
  induction n with
  | zero => exact fun _ => rfl
  | succ n ih =>
    intro p
    rw [Port.pump]
    split
    · rfl
    · next f t waiting =>
      split
      · rfl
      · rw [ih]
        simp [flitTags, waiting]

/-- R211: a port that has been handed an abort flit. -/
def abortSent (p : Port) (g : BitVec 16) (r : BitVec 32) : Port := Port.pump { p with waiting := p.waiting ++ [abortFlit g r] } 128

theorem flitTags_abortSent (p : Port) (g : BitVec 16) (r : BitVec 32) : flitTags (abortSent p g r) = flitTags p ++ [(3, g, r)] := by
  rw [abortSent, flitTags_pump]
  simp [flitTags, abortFlit]

/-- R211: one more flit, the abort, stands last in the port. -/
theorem abortSent_adds (p : Port) (g : BitVec 16) (r : BitVec 32) :
    ((abortSent p g r).replay ++ (abortSent p g r).waiting).length = (p.replay ++ p.waiting).length + 1 ∧
      (((abortSent p g r).replay ++ (abortSent p g r).waiting).getLast?.map fun f => (f.typ, f.group, f.round)) = some (3, g, r) := by
  have tags := flitTags_abortSent p g r
  refine ⟨?_, ?_⟩
  · have count := congrArg List.length tags
    simpa only [flitTags, List.length_append, List.length_map, List.length_singleton] using count
  · rw [← List.getLast?_map]
    exact (congrArg List.getLast? tags).trans List.getLast?_concat

theorem flood_cons (s : State) (p : Fin 32) (t : List (Fin 32)) (g : BitVec 16) (r : BitVec 32) :
    s.flood (p :: t) g r = State.flood (if (s.port p).state = .up then s.sendFlits p [abortFlit g r] else s) t g r := rfl

/-- R211: the abort flit leaves all but the ports of its module alone. -/
theorem flood_frame (g : BitVec 16) (r : BitVec 32) (ps : List (Fin 32)) : ∀ s : State,
    ∃ ports, s.flood ps g r = { s with sys := { s.sys with ports := ports } } := by
  induction ps with
  | nil => exact fun s => ⟨s.sys.ports, rfl⟩
  | cons p t ih =>
    intro s
    rw [flood_cons]
    split
    · obtain ⟨ports, rest⟩ := ih (s.sendFlits p [abortFlit g r])
      exact ⟨ports, rest⟩
    · exact ih s

/-- R211, R339: the abort flit leaves once on each UP port of its set. -/
theorem flood_port (g : BitVec 16) (r : BitVec 32) (q : Fin 32) : ∀ (ps : List (Fin 32)) (s : State), ps.Nodup →
    (s.flood ps g r).port q = if q ∈ ps ∧ (s.port q).state = .up then abortSent (s.port q) g r else s.port q := by
  intro ps
  induction ps with
  | nil => intro s _; rfl
  | cons p t ih =>
    intro s distinct
    obtain ⟨fresh, rest⟩ := List.nodup_cons.1 distinct
    rw [flood_cons, ih _ rest]
    by_cases here : q = p
    · subst here
      simp only [fresh, false_and, if_false, List.mem_cons_self, true_and]
      split
      · exact port_modPort ..
      · rfl
    · have other : (if (s.port p).state = .up then s.sendFlits p [abortFlit g r] else s).port q = s.port q := by
        split
        · exact port_modPort_ne s _ here
        · rfl
      simp only [other, List.mem_cons, here, false_or]

theorem mem_maskPorts {m : Nat} {p : Fin 32} : p ∈ maskPorts m ↔ m.testBit p.val = true := by
  simp [maskPorts]

theorem maskPorts_nodup (m : Nat) : (maskPorts m).Nodup := (List.nodup_finRange 32).filter _

/-- R211: what an abort makes of a cell. -/
def abortedCell (g : BitVec 16) (r : BitVec 32) (x : CellSt) : CellSt := if x.stop.any (·.saved) then x else x.abortLinks g r

/-- R211: the operations of the round end in every cell whose frame is not saved. -/
theorem abortRound_cell (s : State) (g : BitVec 16) (r : BitVec 32) (c : Nat) :
    (s.abortRound g r).cell c = if (s.cell c).stop.any (·.saved) then s.cell c else (s.cell c).abortLinks g r :=
  tget_map ({} : CellSt) (fun _ => abortedCell g r) c rfl s.cells

theorem isAborted_abortRound (s : State) (g : BitVec 16) (r : BitVec 32) : (s.abortRound g r).isAborted g r = true := by
  simp [State.abortRound, State.recordAbort, State.isAborted, List.take_succ_cons]

theorem abortRound_keeps (s : State) (g : BitVec 16) (r : BitVec 32) (c : Nat) :
    ((s.abortRound g r).cell c).seq = (s.cell c).seq ∧ ((s.abortRound g r).cell c).spad = (s.cell c).spad := by
  rw [abortRound_cell]
  split <;> exact ⟨rfl, rfl⟩

/-- R211: the completion word of an operation that an abort ends. -/
def abortedWord (k : LinkCmd) : SpReq :=
  { who := .word, cls := 4, off := k.cwoff, size := 8, val := (errorWord k.delivered cLkAborted).toNat }

/-- R211: an ended operation leaves its queue, and its completion word is written in the error form. -/
theorem abortLinks_ends {x : CellSt} {g : BitVec 16} {r : BitVec 32} {k : LinkCmd} (queued : k ∈ x.linkq) (hit : k.aborts g r = true) :
    abortedWord k ∈ (x.abortLinks g r).puts :=
  List.mem_append_right _ (List.mem_map.2 ⟨k, List.mem_filter.2 ⟨queued, hit⟩, rfl⟩)

section
variable {s : State} {z : CellSt} (only : ReadOnly (me s) z) (ps : List (Fin 32)) (g : BitVec 16) (r : BitVec 32)

/-- R211, R339: the module once an abort has issued. -/
def abortIssued (s : State) (z : CellSt) (ps : List (Fin 32)) (g : BitVec 16) (r : BitVec 32) : State :=
  (((s.setCell s.sched.cur z).abortRound g r).flood ps g r).advance s.sched.cur

theorem abortIssued_mem : (abortIssued s z ps g r).mem = s.mem := by
  obtain ⟨ports, flooded⟩ := flood_frame g r ps ((s.setCell s.sched.cur z).abortRound g r)
  rw [abortIssued, advance_mem, flooded]
  rfl

theorem abortIssued_aborted : (abortIssued s z ps g r).isAborted g r = true := by
  obtain ⟨ports, flooded⟩ := flood_frame g r ps ((s.setCell s.sched.cur z).abortRound g r)
  rw [abortIssued, State.isAborted, (advance_elsewhere ..).sys, flooded]
  exact isAborted_abortRound (s.setCell s.sched.cur z) g r

theorem abortIssued_port (distinct : ps.Nodup) (q : Fin 32) : (abortIssued s z ps g r).port q =
    if q ∈ ps ∧ (s.port q).state = .up then abortSent (s.port q) g r else s.port q := by
  rw [abortIssued, State.port, (advance_elsewhere ..).sys]
  exact flood_port g r q ps _ distinct

theorem abortIssued_me : me (abortIssued s z ps g r) = (abortIssued s z ps g r).cell s.sched.cur := by
  obtain ⟨ports, flooded⟩ := flood_frame g r ps ((s.setCell s.sched.cur z).abortRound g r)
  rw [me, abortIssued, (advance_elsewhere ..).sched, flooded]
  rfl

/-- R211: each cell as the abort leaves it, but for the issue of the word itself. -/
theorem abortIssued_cell (c : Nat) : let u := (s.setCell s.sched.cur z).abortRound g r
    ((abortIssued s z ps g r).cell c).spad = (u.cell c).spad ∧ ((abortIssued s z ps g r).cell c).linkq = (u.cell c).linkq ∧
      ((abortIssued s z ps g r).cell c).puts = (u.cell c).puts := by
  intro u
  obtain ⟨ports, flooded⟩ := flood_frame g r ps u
  have cell (n : Nat) : (u.flood ps g r).cell n = u.cell n := by rw [flooded]; rfl
  by_cases own : c = s.sched.cur
  · rw [own, abortIssued, advance_cell, cell]
    exact ⟨rfl, rfl, rfl⟩
  · rw [abortIssued, (advance_elsewhere ..).cells c own, cell]
    exact ⟨rfl, rfl, rfl⟩

theorem abortIssued_seq : ((abortIssued s z ps g r).cell s.sched.cur).seq = z.seq.next.1 := by
  obtain ⟨ports, flooded⟩ := flood_frame g r ps ((s.setCell s.sched.cur z).abortRound g r)
  have cell : ((((s.setCell s.sched.cur z).abortRound g r).flood ps g r).cell s.sched.cur).seq = z.seq := by
    rw [flooded]
    exact ((abortRound_keeps _ g r s.sched.cur).1).trans (by rw [cell_setCell])
  rw [abortIssued, advance_seq, cell]

include only

/-- R111, R113: what the read of the descriptor has left of every cell. -/
theorem read_keeps (c : Nat) : ((s.setCell s.sched.cur z).cell c).spad = (s.cell c).spad ∧
    ((s.setCell s.sched.cur z).cell c).linkq = (s.cell c).linkq ∧ ((s.setCell s.sched.cur z).cell c).stop = (s.cell c).stop := by
  obtain ⟨-, spad, -, -, linkq, -, stop, -⟩ := readOnly_keeps only
  by_cases own : c = s.sched.cur
  · rw [own, cell_setCell]
    exact ⟨spad, linkq, stop⟩
  · rw [cell_setCell_ne s z own]
    exact ⟨rfl, rfl, rfl⟩

theorem abortIssued_bytes : SameBytes s (abortIssued s z ps g r) := by
  have mem := abortIssued_mem (s := s) (z := z) ps g r
  refine ⟨fun a => by rw [mem], fun a => by rw [mem], fun c a => ?_⟩
  rw [(abortIssued_cell ps g r c).1, (abortRound_keeps _ g r c).2, (read_keeps only c).1]

theorem abortIssued_links {c : Nat} (here : (s.cell c).stop.any (·.saved) = false) :
    ((abortIssued s z ps g r).cell c).linkq = (s.cell c).linkq.filter (fun k => !k.aborts g r) ∧
    ∀ k ∈ (s.cell c).linkq, k.aborts g r = true →
      abortedWord k ∈
        ((abortIssued s z ps g r).cell c).puts := by
  obtain ⟨-, linkq, puts⟩ := abortIssued_cell (s := s) (z := z) ps g r c
  obtain ⟨-, queue, stop⟩ := read_keeps only c
  have ends : ((s.setCell s.sched.cur z).abortRound g r).cell c = ((s.setCell s.sched.cur z).cell c).abortLinks g r := by
    rw [abortRound_cell, stop, here, if_neg Bool.false_ne_true]
  rw [linkq, puts, ends]
  refine ⟨congrArg (List.filter _) queue, fun k queued hit => abortLinks_ends (queue ▸ queued) hit⟩

end

section
variable {x : SrcArgs} {s : State}

theorem lkAbort_runs (ready : Ready s (.lkAbort x) x.g [x.a]) (idle : (me s).freeze = .none)
    (desc : ReadableDesc (me s) ((me s).gval x.a) 8) :
    let ws := descWords (me s) (((me s).gval x.a).toNat % 2 ^ 19) 8
    let k := linkOf ws 3 false 0
    linkOk ws 3 k = true → ∃ z, ReadOnly (me s) z ∧ exec (.lkAbort x) s = .next
      (abortIssued s z (maskPorts (descNum ws 0x28 4)) k.group k.round) := by
  intro ws k ok
  obtain ⟨z, only, reads⟩ := readDesc_reads idle desc (by decide)
  refine ⟨z, only, (exec_ready (execLkAbort x s) rfl rfl ready).trans (congrArg _ ((reads _ _).trans ?_))⟩
  dsimp only
  rw [if_neg (by rw [show linkOk _ 3 _ = true from ok]; decide)]
  rfl

end

/-! ### The commands of a cell -/

/-- R318: an instruction that has queued a command at its cell. -/
structure Queued (s t : State) : Prop where
  issued : Issued s t
  kept : KeptRegs s t
  mem : t.mem = s.mem
  disp : t.disp = s.disp
  bytes : SameBytes s t

section
variable {s : State}

theorem copy_command {p : (SrcArgs → Instr) × Nat} {x : SrcArgs}
    (copy : p ∈ [(Instr.cpIn, 1), (.cpOut, 2), (.cpXfr, 3), (.cpFill, 4), (.cpGath, 5)]) (ready : Ready s (p.1 x) x.g [x.a])
    (idle : (me s).freeze = .none) (desc : ReadableDesc (me s) ((me s).gval x.a) 6) (released : s.released s.sched.cur = true)
    (room : (me s).copyq.length < 4) : let o := ((me s).gval x.a).toNat % 2 ^ 19
    CopyLimits (me s) o p.2 →
    (if p.2 = 3 then (me s).addrOk [2] (BitVec.ofNat 64 (descField (me s) o 0x00 8)) = true ∧
        s.sameGang s.sched.cur (descField (me s) o 0x00 8 / 2 ^ 32 % 65536) = true
      else if p.2 = 4 then descField (me s) o 0x00 8 = 0 else descField (me s) o 0x00 8 < 2 ^ 48) →
    ∃ t k, exec (p.1 x) s = .next t ∧ Queued s t ∧ (me t).copyq = (me s).copyq ++ [k] ∧ k.op.val = p.2 ∧ k.dir = false ∧
      k.pattern = 0 ∧ CopyFields (me s) o k := by
  intro o limits path
  obtain ⟨op, code, form⟩ := copy_form copy x s
  rw [← code] at limits path ⊢
  obtain ⟨ok, dir, blank⟩ := copyOk_of_limits limits
  obtain ⟨legal, gang⟩ := copyPath_ok dir path
  obtain ⟨z, only, run⟩ := copy_enters form ready idle desc released room ok legal gang
  obtain ⟨issued, kept, mem, disp, bytes, queue, -⟩ := queued only (f := fun y => { y with copyq := y.copyq ++ [_] })
    (fun _ => rfl) fun _ => rfl
  obtain ⟨-, -, -, copyq, -⟩ := readOnly_keeps only
  exact ⟨_, copyOf (descWords (me s) o 6) op, run, ⟨issued, kept, mem, disp, bytes⟩, queue.trans (congrArg (· ++ _) copyq), rfl, dir,
    blank, copyFields (me s) o op⟩

theorem link_command {i : Instr} {g : Guard} {a : Reg} {srcs : List Reg} {op : Fin 4} {bf16 : Bool} {step : CellSt → Nat} {n : Nat}
    (form : exec i s = linkOp i g a srcs op bf16 step s) (ready : Ready s i g (a :: srcs)) (idle : (me s).freeze = .none)
    (desc : ReadableDesc (me s) ((me s).gval a) 8) (released : s.released s.sched.cur = true) (room : (me s).linkq.length < 4)
    (steps : ∀ z : CellSt, z.seq = (me s).seq → step z = n) : let o := ((me s).gval a).toNat % 2 ^ 19
    linkOk (descWords (me s) o 8) op.val (linkOf (descWords (me s) o 8) op bf16 n) = true →
    (op.val = 2 → n + 2 < 2 * descField (me s) o 0xa 1) →
    ∃ t k, exec i s = .next t ∧ Queued s t ∧ (me t).linkq = (me s).linkq ++ [k] ∧ k.op = op ∧ k.bf16 = bf16 ∧ k.step = n ∧
      k.started = false ∧ LinkFields (me s) o k := by
  intro o ok inRange
  have fields := linkFields ok
  obtain ⟨z, only, run⟩ := link_enters form ready idle desc released room steps ok (fun ared => by rw [fields.m]; exact inRange ared)
  obtain ⟨issued, kept, mem, disp, bytes, -, queue⟩ := queued only (f := fun y => { y with linkq := y.linkq ++ [_] })
    (fun _ => rfl) fun _ => rfl
  obtain ⟨-, -, -, -, linkq, -⟩ := readOnly_keeps only
  exact ⟨_, linkOf (descWords (me s) o 8) op bf16 n, run, ⟨issued, kept, mem, disp, bytes⟩, queue.trans (congrArg (· ++ _) linkq),
    rfl, rfl, rfl, rfl, fields⟩

end

/-- Settles O39: a command joins its queue with the fields of its descriptor, and an abort ends the operations of its round and
leaves on its ports. -/
theorem engineCommands : Obligations.EngineCommands := by
  unfold Obligations.EngineCommands
  intro s idle y at_ num reads ends
  have desc {v : Word} {n : Nat} (h : reads v n) : ReadableDesc y v n :=
    let ⟨own, aligned, inside, readable⟩ := h
    ⟨own, aligned, inside, readable⟩
  refine ⟨fun released => ⟨fun p copy x ready readable room => ?copies, fun p link x ready readable room => ?links,
    fun x ready readable room => ?ared⟩, fun x ready readable => ?abort⟩
  case copies =>
    intro o ga run nrun top pattern gaddr soff soffIn cwoff cwoffIn run8 runMin runMax nrunMin nrunMax gs ss gather path
    have filled : p.2 = 4 → ga = 0 := fun h => by simpa [h] using path
    obtain ⟨t, k, run, ⟨issued, kept, mem, disp, bytes⟩, queue, code, dir, blank, fields⟩ := copy_command copy ready idle
      (desc readable) released room ⟨top, pattern, gaddr, ⟨soff, soffIn⟩, ⟨cwoff, cwoffIn⟩, ⟨run8, runMin, runMax⟩,
        ⟨nrunMin, nrunMax⟩, ⟨gs, ss⟩, gather, filled⟩ path
    exact ⟨t, run, issued, kept, mem, disp, bytes, k, queue, code, fields.gaddr, fields.soff, fields.run, fields.nrun,
      fields.gstride, fields.sstride, fields.cwoff, fields.cval, dir, blank, fields.progress⟩
  case links =>
    intro o ws ok
    obtain ⟨op, code, pair, named, form⟩ := link_form link x s
    rw [named, ← code] at ok
    obtain ⟨t, k, run, ⟨issued, kept, mem, disp, bytes⟩, queue, kind, -, -, started, fields⟩ := link_command form ready idle
      (desc readable) released room (fun _ _ => rfl) ok fun ared => absurd pair (by rw [ared]; decide)
    exact ⟨t, run, issued, kept, mem, disp, bytes, k, queue, by rw [kind, code], fields.group, fields.tag, fields.round, fields.port,
      fields.dcell, fields.boff, fields.len, fields.cwoff, fields.cval, started⟩
  case ared =>
    intro o ws step ok inRange
    have form : isBf16 x.t = (x.t == .bf16) := by cases x.t <;> rfl
    have run : exec (.lkAred x) s = linkOp (.lkAred x) x.g x.a [x.c] 2 (x.t == .bf16) (fun y => (y.gval x.c).toNat) s := by
      rw [← form]
      rfl
    obtain ⟨t, k, run, ⟨issued, kept, mem, disp, bytes⟩, queue, kind, half, at_step, started, fields⟩ := link_command run ready idle
      (desc readable) released room (n := step) (fun z same => by rw [CellSt.gval, CellSt.greg, same]; rfl) ok fun _ => inRange
    exact ⟨t, run, issued, kept, mem, disp, bytes, k, queue, congrArg Fin.val kind, half, at_step, fields.m, fields.pos, fields.len,
      fields.woff, started⟩
  case abort =>
    intro o ws g r hit ended ok here
    obtain ⟨z, only, run⟩ := lkAbort_runs ready idle (desc readable) ok
    obtain ⟨seq, -⟩ := readOnly_keeps only
    have group : (linkOf ws 3 false 0).group = g := congrArg (BitVec.ofNat 16) (descNum_words y o (by decide))
    have round : (linkOf ws 3 false 0).round = r := congrArg (BitVec.ofNat 32) (descNum_words y o (by decide))
    have mask : descNum ws 0x28 4 = num o 0x28 4 := descNum_words y o (by decide)
    have issues : exec (.lkAbort x) s = .next (abortIssued s z (maskPorts (num o 0x28 4)) g r) := by
      rw [← group, ← round, ← mask]
      exact run
    refine ⟨_, issues, abortIssued_mem .., abortIssued_aborted .., ?_, abortIssued_bytes only .., fun c unsaved =>
      abortIssued_links only _ _ _ unsaved, fun p => ⟨fun ⟨up, named⟩ => ?_, fun other => ?_⟩⟩
    · rw [abortIssued_me, abortIssued_seq, seq]
    · rw [abortIssued_port _ _ _ (maskPorts_nodup _), if_pos ⟨mem_maskPorts.2 named, up⟩]
      exact abortSent_adds (s.port p) g r
    · rw [abortIssued_port _ _ _ (maskPorts_nodup _), if_neg fun ⟨named, up⟩ => other ⟨up, mem_maskPorts.1 named⟩]

end Sys2Proof.Proofs
end
